-- ==== Sys2Proof/Word.lean ====
section
/-! DEFINITION. The machine word and the byte of the CX9648 (R5: 48-bit word, half 24 bits, pair 96 bits). -/

namespace Sys2Proof

/-- The 48-bit word of the part (R5): a general register, an address, a CSR (R9). -/
abbrev Word := BitVec 48

/-- One byte of memory. -/
abbrev Byte := BitVec 8

/-- A 24-bit half. -/
abbrev Half := BitVec 24

end Sys2Proof
end

