-- ==== Sys2Proof/Syntax.lean ====
section
/-! DEFINITION. The commands of the CX9648: one constructor for each row of the spec's table of steps, with the operands
that the spec leaves to whoever sends it. Of a Newt row, `t` is the thread's local index (R3) and `w` its instruction
word; of other rows the operands name the thing acted on, the value written, and what comes from outside. -/

namespace Sys2Proof

/-- A register access from outside the cores (R13, R344, R345, R535): of a CSR at an offset, by the Service Newt or a host
function; of a function's page; of dword `k` of a logical device's HDM decoders in BAR4; by the Service Newt, of a function's
mailbox and of the size of its MSI-X table; and the I3C bus giving the target a dynamic address. `n` is the width in bytes. -/
inductive RegAccess where
  | csrWrite (agent off n v : Nat)
  | csrRead (agent off n : Nat)
  | pageWrite (fn off n v : Nat)
  | pageRead (fn off n : Nat)
  | hdmWrite (fn ld k v : Nat)
  | hdmRead (fn ld k : Nat)
  | mailWrite (fn off n v : Nat)
  | mailRead (fn off n : Nat)
  | tableSize (fn n : Nat)
  | setdasa (addr dyn : Nat)
  | entdaa (dyn : Nat)
deriving DecidableEq, Repr

/-- How a message of the board management controller arrives (R535): its address, and over SMBus whether its PEC is good. -/
inductive BmcBus where
  | smbus (addr : Nat) (pec : Bool)
  | i3c (addr : Nat)
deriving DecidableEq, Repr

/-- A command. Operands named alike mean the same throughout: `t` thread, `c` cluster, `p` Ethernet port, PLL or pool, `l` link, `q`
queue, `m` memory controller and `u` its unit, `agent` a local agent, `id` an asynchronous operation, `v` a value
written, `ecc` the error the row's first memory read meets (0 none, 1 corrected, 2 uncorrectable), `over` that a
background pass outlasted its period. -/
inductive Instr where
  /-- NOP (R92): A thread issues NOP, which commits and has no effect. -/
  | nop (t : Nat) (w : Word)
  /-- ADD (R92): A thread issues ADD or ADDI; d := a + b at commit. -/
  | add (t : Nat) (w : Word)
  /-- SUB (R92): A thread issues SUB; d := a − b. -/
  | sub (t : Nat) (w : Word)
  /-- AND (R92): A thread issues AND or its immediate form; d := a and b. -/
  | and (t : Nat) (w : Word)
  /-- OR (R92): A thread issues OR or its immediate form; d := a or b. -/
  | or (t : Nat) (w : Word)
  /-- XOR (R92): A thread issues XOR or its immediate form; d := a xor b. -/
  | xor (t : Nat) (w : Word)
  /-- ANDN (R92): A thread issues ANDN; d := a and not b. -/
  | andn (t : Nat) (w : Word)
  /-- SHL (R92): A thread issues SHL or SHLI; left shift, 0 when b is 48 or more. -/
  | shl (t : Nat) (w : Word)
  /-- SHR (R92): A thread issues SHR or SHRI; logical right shift. -/
  | shr (t : Nat) (w : Word)
  /-- SAR (R92): A thread issues SAR or SARI; arithmetic right shift. -/
  | sar (t : Nat) (w : Word)
  /-- ROL (R92): A thread issues ROL or ROLI; rotate left by b mod 48. -/
  | rol (t : Nat) (w : Word)
  /-- ROR (R92): A thread issues ROR or RORI; rotate right by b mod 48. -/
  | ror (t : Nat) (w : Word)
  /-- MIN (R92): A thread issues MIN or MINI; signed minimum. -/
  | min (t : Nat) (w : Word)
  /-- MAX (R92): A thread issues MAX or MAXI; signed maximum. -/
  | max (t : Nat) (w : Word)
  /-- MINU (R92): A thread issues MINU or MINUI; unsigned minimum. -/
  | minu (t : Nat) (w : Word)
  /-- MAXU (R92): A thread issues MAXU or MAXUI; unsigned maximum. -/
  | maxu (t : Nat) (w : Word)
  /-- MUL (R92): A thread issues MUL or MULI; low 48 bits of the product, distance 4. -/
  | mul (t : Nat) (w : Word)
  /-- MULH (R92): A thread issues MULH; high 48 bits of the signed product. -/
  | mulh (t : Nat) (w : Word)
  /-- MULHU (R92): A thread issues MULHU; high 48 bits of the unsigned product. -/
  | mulhu (t : Nat) (w : Word)
  /-- CLZ (R92): A thread issues CLZ; d := leading zeros of a. -/
  | clz (t : Nat) (w : Word)
  /-- POPC (R92): A thread issues POPC; d := set bits of a. -/
  | popc (t : Nat) (w : Word)
  /-- BEXT (R92): A thread issues BEXT; zero-extended bit-field extract. -/
  | bext (t : Nat) (w : Word)
  /-- BEXTS (R92): A thread issues BEXTS; sign-extended bit-field extract. -/
  | bexts (t : Nat) (w : Word)
  /-- BINS (R92): A thread issues BINS; bit-field insert into d. -/
  | bins (t : Nat) (w : Word)
  /-- BSWAP (R92): A thread issues BSWAP; the low w bits of a byte-reversed. -/
  | bswap (t : Nat) (w : Word)
  /-- LI (R93): A thread issues LI; d := sext(simm21). -/
  | li (t : Nat) (w : Word)
  /-- LUI (R93): A thread issues LUI; d := (g[a] << 21) or imm21. -/
  | lui (t : Nat) (w : Word)
  /-- CMP (R94): A thread issues CMP; a condition on two registers is set or combined into a predicate. -/
  | cmp (t : Nat) (w : Word)
  /-- CMPI (R94): A thread issues CMPI; a condition against an immediate is set or combined into a predicate. -/
  | cmpi (t : Nat) (w : Word)
  /-- PLOG (R95): A thread issues PLOG; a logic function of two predicates is combined into a predicate. -/
  | plog (t : Nat) (w : Word)
  /-- PGET (R95): A thread issues PGET; d := the eight predicates. -/
  | pget (t : Nat) (w : Word)
  /-- PSET (R95): A thread issues PSET; predicates 1–7 are set from g[a]. -/
  | pset (t : Nat) (w : Word)
  /-- CSRR (R96): A thread issues CSRR and reads a per-thread CSR, subject to privilege. -/
  | csrr (t : Nat) (w : Word)
  /-- CSRW (R96): A thread issues CSRW and writes a per-thread CSR, effective at distance 4. -/
  | csrw (t : Nat) (w : Word)
  /-- CSRS (R96): A thread issues CSRS and sets CSR bits. -/
  | csrs (t : Nat) (w : Word)
  /-- CSRC (R96): A thread issues CSRC and clears CSR bits. -/
  | csrc (t : Nat) (w : Word)
  /-- LD (R97): A thread issues a near load LD8–LD48, zero-extended, with optional post-increment. -/
  | ld (t : Nat) (w : Word)
  /-- LDS (R97): A thread issues a near load LDS8–LDS32, sign-extended. -/
  | lds (t : Nat) (w : Word)
  /-- ST (R97): A thread issues a near store ST8–ST48. -/
  | st (t : Nat) (w : Word)
  /-- AADD (R97): A thread issues near atomic add on cluster scratch; d := old value. -/
  | aadd (t : Nat) (w : Word)
  /-- AAND (R97): A thread issues near atomic and on cluster scratch. -/
  | aand (t : Nat) (w : Word)
  /-- AOR (R97): A thread issues near atomic or on cluster scratch. -/
  | aor (t : Nat) (w : Word)
  /-- AXOR (R97): A thread issues near atomic xor on cluster scratch. -/
  | axor (t : Nat) (w : Word)
  /-- ASWP (R97): A thread issues near atomic swap on cluster scratch. -/
  | aswp (t : Nat) (w : Word)
  /-- ACAS (R97): A thread issues near atomic compare-and-swap on cluster scratch. -/
  | acas (t : Nat) (w : Word)
  /-- LDF (R98): A thread issues a far load LDF8–LDF48 under a token. -/
  | ldf (t : Nat) (w : Word)
  /-- LDFS (R98): A thread issues a sign-extending far load LDFS8–LDFS32. -/
  | ldfs (t : Nat) (w : Word)
  /-- STF (R98): A thread issues a far store STF8–STF48, with a token or posted. -/
  | stf (t : Nat) (w : Word)
  /-- AFADD (R98): A thread issues a far atomic add. -/
  | afadd (t : Nat) (w : Word)
  /-- AFSWP (R98): A thread issues a far atomic swap. -/
  | afswp (t : Nat) (w : Word)
  /-- AFCAS (R98): A thread issues a far atomic compare-and-swap. -/
  | afcas (t : Nat) (w : Word)
  /-- PLD (R99): A thread issues PLD8–PLD48 on its packet window, verifying tiles at first touch. -/
  | pld (t : Nat) (w : Word)
  /-- PST (R99): A thread issues PST8–PST48 on its packet window, opening the tile. -/
  | pst (t : Nat) (w : Word)
  /-- TSEAL (R100): A thread issues TSEAL, sealing the tile holding the offset. -/
  | tseal (t : Nat) (w : Word)
  /-- RELEASE (R101): A thread ends its packet toward a destination after its asynchronous operations finish. -/
  | release (t : Nat) (w : Word)
  /-- DROP (R101): A thread ends its packet with no departure. -/
  | drop (t : Nat) (w : Word)
  /-- FORK (R205): A thread creates a child of its packet or is refused. -/
  | fork (t : Nat) (w : Word)
  /-- LKUP (R255): A thread looks a key up in a table. -/
  | lkup (t : Nat) (w : Word)
  /-- LEARN (R268): A thread offers a key and action to the learn FIFO. -/
  | learn (t : Nat) (w : Word)
  /-- BALLOC (R235): A thread requests a buffer from the best-fitting pool. -/
  | balloc (t : Nat) (w : Word)
  /-- BFREE (R238): A thread frees a buffer. -/
  | bfree (t : Nat) (w : Word)
  /-- WAITC (R87): A thread waits for tokens, gathers their statuses and may trap. -/
  | waitc (t : Nat) (w : Word)
  /-- FENCE (R88): A thread waits until earlier operations of the selected kinds complete. -/
  | fence (t : Nat) (w : Word)
  /-- BR (R109): A thread branches relative to pc. -/
  | br (t : Nat) (w : Word)
  /-- CALL (R109): A thread branches and writes a link register. -/
  | call (t : Nat) (w : Word)
  /-- JMPR (R109): A thread jumps to a register target, optionally linking. -/
  | jmpr (t : Nat) (w : Word)
  /-- REPI (R113): A thread starts an interruptible repeat of the next instruction. -/
  | repi (t : Nat) (w : Word)
  /-- REPN (R113): A thread starts a non-interruptible repeat of the next instruction. -/
  | repn (t : Nat) (w : Word)
  /-- DOZE (R128): A thread sleeps until a wake, an interrupt or its limit. -/
  | doze (t : Nat) (w : Word)
  /-- EXIT (R130): A thread ends its start or service context and becomes IDLE. -/
  | exit (t : Nat) (w : Word)
  /-- TRAP (R127): A thread raises trap 0x20. -/
  | trap (t : Nat) (w : Word)
  /-- ERET (R126): A thread returns from a handler, restoring privilege and possibly resuming a repeat. -/
  | eret (t : Nat) (w : Word)
  /-- LYR (R138): A thread invokes Lyre with a descriptor, which Lyre accepts, refuses or answers busy. -/
  | lyr (t : Nat) (w : Word)
  /-- REPEAT_ITERATION (R115): After its spacing, the next iteration of a repeated instruction issues. -/
  | repeatIteration (t : Nat)
  /-- INTERRUPT_ENTRY (R125): Once in-flight instructions drain, a pending enabled interrupt enters the handler. -/
  | interruptEntry (t : Nat)
  /-- TTIMER_EXPIRY (R135): TTIMER steps from 1 to 0 and sets TINT.tp. -/
  | ttimerExpiry (t : Nat)
  /-- DOZE_TIMEOUT (R128): A DOZE limit expires with g[d] := 1. -/
  | dozeTimeout (t : Nat)
  /-- ASYNC_COMPLETION (R82): An asynchronous operation completes, writing its destination and setting its token DONE. -/
  | asyncCompletion (id ecc : Nat)
  /-- ASYNC_TIMEOUT (R85): An operation's THR_FTO timer expires and its token goes DONE with TIMEOUT. -/
  | asyncTimeout (id : Nat)
  /-- KILL (R133): A KILL command squashes the thread, disposes of its packet, slots and locks. -/
  | kill (t : Nat)
  /-- KILL_COMPLETE (R133): Once every owed ending is recorded at Bridge, the thread shows KILLED. -/
  | killComplete (t : Nat)
  /-- RESTART (R134): A RESTART command disposes of the thread's state if needed and resets it into START. -/
  | restart (t : Nat)
  /-- SERVICE (R132): A SERVICE command starts a service context at a given pc and privilege. -/
  | service (t pc priv : Nat)
  /-- SOFTINT (R132): A SOFTINT command sets TINT.sp. -/
  | softint (t : Nat)
  /-- HALT (R132): A HALT command stops issue and starts the drain. -/
  | halt (t : Nat)
  /-- THREAD_HALTED (R125): A halting thread finishes draining and enters HALTED. -/
  | threadHalted (t : Nat)
  /-- RESUME (R132): A RESUME command returns a halted thread to its prior state. -/
  | resume (t : Nat)
  /-- WAKE (R132): A WAKE command sets the thread's wake latch. -/
  | wake (t : Nat)
  /-- CORE_RESET (R134): A CLU_CORE_RST write kills and then resets all threads of a core. -/
  | coreReset (c : Nat) (v : Word)
  /-- CLU_CTL_CLR (R107): CLU_CTL.clr zeroes CLU_DVIOL, CLU_LATE and CLU_POSTERR. -/
  | cluCtlClr (c : Nat)
  /-- LYR_BUSY_RETRY (R157): After a BUSY backoff the thread fetches its LYR again. -/
  | lyrBusyRetry (t : Nat)
  /-- LYRE_OPERATION_COMPLETE (R141): A Lyre operation completes, writing the completion word and token. -/
  | lyreOperationComplete (id ecc : Nat)
  /-- LYRE_FLUSH (R161): A CLU_LYFLUSH write starts write-back of one or all context slots. -/
  | lyreFlush (c : Nat) (v : Word)
  /-- LYRE_FLUSH_COMPLETE (R161): The flush finishes writing back and busy clears. -/
  | lyreFlushComplete (c : Nat)
  /-- CLU_LYCTL_CLR (R165): CLU_LYCTL.clr zeroes the Lyre counters. -/
  | cluLyctlClr (c : Nat)
  /-- FRAME_RECEIVE (R368): A MAC receives a whole frame, discards it or hands it to placement and the parser. -/
  | frameReceive (p : Nat) (l : List Byte) (corr uncor : Nat)
  /-- DESCRIPTOR_ADMIT (R172): A held descriptor enters its ready queue once there is room and quota. -/
  | descriptorAdmit (u : Nat)
  /-- SLOT_GRANT (R178): Spawn selects a group and queue and grants a candidate slot of a cluster. -/
  | slotGrant
  /-- SLOT_FILL_COMPLETE (R183): A slot fill completes and becomes visible to the thread. -/
  | slotFillComplete (t k ecc : Nat)
  /-- WAKE_REQUEST_SCAN (R193): Every 16 NCLK Spawn computes wake needs per group and requests wakes. -/
  | wakeRequestScan
  /-- WAKE_START (R194): A pending cluster wake starts when the pacing window allows. -/
  | wakeStart
  /-- WAKE_PACED (R194): A wake waiting 1 µs without starting raises SPN_WAKE_PACED. -/
  | wakePaced (c : Nat)
  /-- CLUSTER_WAKE_COMPLETE (R189): A waking cluster reaches RUN. -/
  | clusterWakeComplete (c : Nat)
  /-- CLUSTER_GATE (R189): An idle RUN cluster reaches gate_time and gates, or parks in QUIET. -/
  | clusterGate (c : Nat)
  /-- CLUSTER_PARK_DECISION (R189): An idle GATED cluster reaches park_time and enters PARKING. -/
  | clusterParkDecision (c : Nat)
  /-- PARKING_COMPLETE (R189): Power is removed and the cluster enters PARKED. -/
  | parkingComplete (c : Nat)
  /-- CLU_PWRCTL_WRITE (R191): A CLU_PWRCTL.mode write overrides the cluster's automatic power behaviour. -/
  | cluPwrctlWrite (c : Nat) (v : Word)
  /-- SPN_CTL_CLR (R196): SPN_CTL.clr zeroes the Spawn counters and high-water marks. -/
  | spnCtlClr
  /-- ENDING_ARRIVAL (R208): A packet ending reaches Bridge and is recorded, takes an entry or waits. -/
  | endingArrival
  /-- LANE_RETIREMENT (R209): Bridge retires recorded heads, handing packets and children to egress. -/
  | laneRetirement
  /-- LANE_HOLD_EXPIRY (R212): A head's hold timer expires with no ending. -/
  | laneHoldExpiry (l : Nat)
  /-- BRG_TURN_READ (R215): A thread reads its turn at point k. -/
  | brgTurnRead (id : Nat)
  /-- TURN_COMPLETE (R215): The turn condition holds and the turn read completes. -/
  | turnComplete (id : Nat)
  /-- BRG_PASS (R216): A thread passes point k for its packet. -/
  | brgPass (id : Nat)
  /-- BRG_CTL_CLR (R221): BRG_CTL.clr zeroes the Bridge saturating counters. -/
  | brgCtlClr
  /-- ETH_TRANSMIT (R376): Egress reads and verifies a departure and the MAC sends it with FCS. -/
  | ethTransmit (p ecc : Nat)
  /-- HOST_RX_WRITE (R351): A departure is written into a posted host buffer with a completion entry. -/
  | hostRxWrite (fn idx addr blen ecc : Nat)
  /-- FABRIC_PKT_SEND (R396): Fabric egress sends a released packet as a PKT transaction. -/
  | fabricPktSend (vc dev ecc : Nat)
  /-- BPM_ALLOCATION (R237): The BPM serves up to two allocations per pool per NCLK. -/
  | bpmAllocation (p : Nat)
  /-- BPM_FREE (R238): The BPM applies a free to the list or the ring cache. -/
  | bpmFree (p : Nat)
  /-- RING_FETCH_COMPLETE (R239): A ring fetch returns entries to the read side. -/
  | ringFetchComplete (p : Nat)
  /-- AUDIT_START (R549): Every interval an audit of the next valid pool starts. -/
  | auditStart
  /-- AUDIT_STEP (R243): A next-pointer read of the audit returns and the walk advances or ends. -/
  | auditStep
  /-- REBUILD_GO (R244): BPM_REBUILD_CMD.go starts a pool rebuild from a bitmap. -/
  | rebuildGo (p : Nat)
  /-- REBUILD_COMPLETE (R244): The rebuild finishes pushing and applying held frees and enters DONE or FAILED. -/
  | rebuildComplete (ecc : Nat)
  /-- BPM_CTL_CLR (R247): BPM_CTL.clr zeroes the BPM counters. -/
  | bpmCtlClr
  /-- TABLE_ADD (R267): ADD inserts an entry if its key is absent. -/
  | tableAdd (w : Word)
  /-- TABLE_SET (R267): SET replaces the first match's action or inserts. -/
  | tableSet (w : Word)
  /-- TABLE_DELETE (R267): DELETE clears every match of a key. -/
  | tableDelete (w : Word)
  /-- TABLE_FIND (R267): FIND returns the image and location of the first match. -/
  | tableFind (w : Word)
  /-- READ_SLOT (R267): READ_SLOT returns a slot's image and quar bit. -/
  | readSlot (w : Word)
  /-- WRITE_SLOT (R267): WRITE_SLOT writes a slot as given and clears quar. -/
  | writeSlot (w : Word)
  /-- FLUSH (R267): FLUSH clears non-static entries, or all with the all bit. -/
  | flush (w : Word)
  /-- BULK_SET (R267): BULK_SET applies SET for each image of a list until one fails. -/
  | bulkSet (w : Word)
  /-- PFX_ADD (R267): PFX_ADD adds a prefix or replaces its action. -/
  | pfxAdd (w : Word)
  /-- PFX_DEL (R267): PFX_DEL removes a prefix. -/
  | pfxDel (w : Word)
  /-- PFX_READ (R267): PFX_READ returns a prefix record. -/
  | pfxRead (w : Word)
  /-- PFX_FIX (R267): PFX_FIX rewrites a prefix record and clears quar. -/
  | pfxFix (w : Word)
  /-- TBL_CMD_DONE (R267): A table command completes, writes its status and raises its event. -/
  | tblCmdDone
  /-- RELOCATION_STEP (R259): The next single-slot write of an insert lands after W TCLK. -/
  | relocationStep
  /-- LEARN_APPLY (R271): The update unit applies a learn FIFO entry. -/
  | learnApply
  /-- CANDIDATE_EXPIRY (R273): A candidate record that stood 4 × holddown is removed. -/
  | candidateExpiry (k : Nat)
  /-- AGEING_SWEEP_STEP (R275): The ageing sweep clears a hit bit or deletes an unhit entry. -/
  | ageingSweepStep (t : Nat) (overrun : Bool)
  /-- PARITY_SWEEP_STEP (R545): The parity sweep reads a bucket, stash entry or prefix record. -/
  | paritySweepStep (t bucket slot : Nat) (bad overrun : Bool)
  /-- TBL_CTL_CLR (R278): TBL_CTL.clr zeroes every saturating table counter. -/
  | tblCtlClr
  /-- CLAIM (R285): An agent claims a Gecko lock, winning, losing or registering as a waiter. -/
  | claim (n : Nat) (w : Word) (req : Nat)
  /-- FREE (R287): The owner frees a lock, which passes to a waiter under reservation. -/
  | free (n : Nat) (w : Word) (req : Nat)
  /-- WITHDRAW (R288): An agent removes its registration, passing on any reservation. -/
  | withdraw (n : Nat) (w : Word) (req : Nat)
  /-- RESERVATION_EXPIRY (R290): A reservation lapses and passes to the next waiter. -/
  | reservationExpiry (n : Nat)
  /-- REGISTRATION_EXPIRY (R294): A waiter registration expires and the waiter is notified with TIMEOUT. -/
  | registrationExpiry (n agent : Nat)
  /-- NOTIFY_READ (R302): A read of GKO_NOTIFY removes and returns the oldest record. -/
  | notifyRead (c agent : Nat)
  /-- GKO_CTL_CLR (R302): GKO_CTL.clr zeroes the Gecko counters. -/
  | gkoCtlClr
  /-- EVENT_OCCURRENCE (R297): An occurrence or high level of a source reaches the event controller. -/
  | eventOccurrence (n : Nat)
  /-- EVENT_DELIVERY (R298): A due source is delivered by its route. -/
  | eventDelivery (n : Nat)
  /-- EVENT_ACK (R297): A write of EVT_CFG.ack acknowledges an INSERVICE source. -/
  | eventAck (n : Nat)
  /-- SOFTWARE_DOORBELL (R301): A write to EVT_RING raises a doorbell source. -/
  | softwareDoorbell (n : Nat)
  /-- SVCQ_READ (R303): A read of EVT_SVCQ removes the oldest service queue entry. -/
  | svcqRead
  /-- EVT_CTL_CLR (R303): EVT_CTL.clr zeroes EVT_STAT. -/
  | evtCtlClr
  /-- REFRESH_DUE (R321): A refresh unit's refresh falls due and is issued, postponed or inserted. -/
  | refreshDue (m u : Nat) (prog rt : Bool)
  /-- MAKEUP_REFRESH (R322): An owed refresh is made up when no real-time request or panic blocks it. -/
  | makeupRefresh (m u : Nat) (rt : Bool)
  /-- TREFI_CHANGE (R323): A change of tREFI issues owed refreshes and applies the new mode. -/
  | trefiChange (m : Nat) (hot : Bool)
  /-- POWER_DOWN_ENTRY (R324): An idle power-down unit enters power-down after MC_PDTIMER. -/
  | powerDownEntry (m u : Nat)
  /-- RT_PORT_TAKE (R316): A real-time port client takes an entry from its FIFO. -/
  | rtPortTake (m p : Nat)
  /-- RT_READ_RETURN (R317): Read data returns to a port, which leaves panic at exit. -/
  | rtReadReturn (m p : Nat)
  /-- TRACKING_STEP (R329): Peg tracks a unit, periodically or on temperature drift. -/
  | trackingStep (m u temp margin : Nat) (deferred : Bool)
  /-- GRANT (R328): MC_PEGCMD GRANT starts retraining of a PENDING unit. -/
  | grant (m u : Nat)
  /-- RETRAIN (R327): MC_PEGCMD RETRAIN moves a unit to PENDING. -/
  | retrain (m u : Nat)
  /-- TRACK (R329): MC_PEGCMD TRACK runs one tracking step now. -/
  | track (m u temp margin : Nat)
  /-- RETIRE (R333): MC_PEGCMD RETIRE retires a unit. -/
  | retire (m u : Nat)
  /-- GRANT_WAIT_EXPIRY (R328): grant_wait expires and retraining starts forced. -/
  | grantWaitExpiry (m u : Nat)
  /-- RETRAINING_COMPLETE (R331): Training ends in NORMAL, DEGRADED or RETIRED. -/
  | retrainingComplete (m u temp : Nat) (ok check : Bool)
  /-- DEGRADED_RETRY (R332): The retry timer of a DEGRADED unit moves it to PENDING. -/
  | degradedRetry (m u : Nat)
  /-- HBM_PURGE_COMPLETE (R334): The BPM purge of pools on a retired pseudo-channel completes. -/
  | hbmPurgeComplete (q u : Nat)
  /-- ZQ_CALIBRATION (R546): A 128 ms ZQ calibration is issued to a pseudo-channel or rank. -/
  | zqCalibration (m u : Nat)
  /-- SCRUB_READ (R543): Patrol scrub reads a unit and rewrites or reports errors. -/
  | scrubRead (k a ecc : Nat) (overrun : Bool)
  /-- MC_CTL_CLR (R339): MC_CTL.clr zeroes the controller counters. -/
  | mcCtlClr (m : Nat)
  /-- HOST_LINK_UP (R347): A host link trains and HST_LINK.up rises. -/
  | hostLinkUp (l cxl flit speed width : Nat)
  /-- HOST_LINK_DOWN (R347): A host link goes down and its functions are reset. -/
  | hostLinkDown (l : Nat)
  /-- FUNCTION_LEVEL_RESET (R346): An FLR stops the function's queues and resets its locks and interrupts. -/
  | functionLevelReset (fn : Nat)
  /-- MAILBOX_RING (R345): A write to a mailbox's last 8 bytes queues the function in HST_MBOXQ. -/
  | mailboxRing (fn : Nat) (v : Nat)
  /-- MBOXQ_READ (R364): A read of HST_MBOXQ removes the oldest entry. -/
  | mboxqRead (agent : Nat)
  /-- TXQ_ENABLE (R349): Setting HST_TXQ_CFG.en resets head and credit and writes the writeback. -/
  | txqEnable (q : Nat) (v : Word)
  /-- TX_DOORBELL (R349): A transmit doorbell sets the tail or is rejected. -/
  | txDoorbell (fn idx : Nat) (tail : Nat)
  /-- RX_DOORBELL (R351): A receive doorbell posts buffers. -/
  | rxDoorbell (fn idx : Nat) (tail : Nat)
  /-- TX_FETCH (R350): The device starts fetching the next frame's descriptors and data. -/
  | txFetch (q k : Nat)
  /-- TX_FETCH_COMPLETE (R350): A frame fetch completes; head and credit advance. -/
  | txFetchComplete (q tag : Nat) (ds : List (Nat × Nat × Nat × Nat)) (data : List Byte)
  /-- HOST_COMPLETION_TIMEOUT (R353): A non-posted request times out and the queue enters ERROR. -/
  | hostCompletionTimeout (q tag : Nat)
  /-- RX_NOBUF_EXPIRY (R352): A departure waiting for a buffer is dropped. -/
  | rxNobufExpiry (fn idx : Nat)
  /-- CXL_MEM_REQUEST (R356): A CXL.mem request is translated and served from the pool. -/
  | cxlMemRequest (ld hpa : Nat) (write : Bool) (mask : Nat) (data : List Byte) (ecc : Nat)
  /-- PFAULT_READ (R364): A read of HST_PFAULT removes the oldest fault. -/
  | pfaultRead (agent : Nat)
  /-- HST_CTL_CLR (R364): HST_CTL.clr zeroes the host counters. -/
  | hstCtlClr
  /-- PORT_ENABLE (R366): Setting MAC_PCFG.en starts training. -/
  | portEnable (p : Nat) (v : Word)
  /-- PORT_DISABLE (R366): Clearing MAC_PCFG.en disposes of frames and enters DISABLED. -/
  | portDisable (p rx : Nat) (cut : Option Nat) (v : Word)
  /-- PORT_UP (R366): Training completes and the port enters UP. -/
  | portUp (p : Nat)
  /-- PORT_LINK_LOSS (R366): Loss of lock or signal moves the port to HALF_RESET. -/
  | portLinkLoss (p rx : Nat) (cut : Option Nat)
  /-- REMOTE_FAULT_HELD (R366): A remote fault held 1 ms moves the port to HALF_RESET. -/
  | remoteFaultHeld (p rx : Nat) (cut : Option Nat)
  /-- PAUSE_FRAME_RECEIVE (R373): A pause or PFC frame loads pause timers. -/
  | pauseFrameReceive (p : Nat) (pfc : Bool) (mask : Nat) (quanta : List Nat)
  /-- PAUSE_TIMER_EXPIRY (R374): A class's pause timer reaches zero and it unpauses. -/
  | pauseTimerExpiry (p c : Nat)
  /-- PAUSE_REPEAT (R371): A held assertion repeats its pause frame. -/
  | pauseRepeat (p : Nat)
  /-- TXTS_READ (R378): A read of MAC_TXTS removes a record and latches its time. -/
  | txtsRead (p agent : Nat)
  /-- MAC_CTL_CLR (R382): MAC_CTL.clr zeroes the port counters. -/
  | macCtlClr (p : Nat)
  /-- OBX_LINK_ENABLE (R384): Setting OBX_LCFG.en starts link training. -/
  | obxLinkEnable (l : Nat) (v : Word)
  /-- OBX_LINK_DISABLE (R384): Clearing OBX_LCFG.en takes the link DOWN. -/
  | obxLinkDisable (l : Nat) (v : Word)
  /-- OBX_TRAINING_COMPLETE (R384): Lane training completes and the link enters INIT. -/
  | obxTrainingComplete (l : Nat)
  /-- INIT_FLIT_SEND (R385): Every 1 µs a link in INIT sends an INIT flit. -/
  | initFlitSend (l : Nat)
  /-- INIT_RECEIVE (R385): An INIT flit is checked and the link passes to LINK_UP or ACTIVE. -/
  | initReceive (l seq ack devid tag : Nat) (joined : Bool) (num : Nat) (half : Bool)
  /-- FLIT_RECEIVE (R387): A flit is checked, its control fields applied and its payload accepted or NAKed. -/
  | flitReceive (l : Nat) (b : List Byte)
  /-- NAK_REPEAT (R389): The receiver resends its NAK every 1 µs. -/
  | nakRepeat (l : Nat)
  /-- REPLAY_TIMEOUT (R390): An unacknowledged flit waits 2 µs and is replayed. -/
  | replayTimeout (l : Nat)
  /-- OBX_LINK_LOSS (R384): Loss of lock or signal moves a link to HALF_RESET. -/
  | obxLinkLoss (l : Nat)
  /-- PKT (R396): A PKT transaction arrives and is placed and parsed. -/
  | pkt (l : Nat)
  /-- RD (R397): A remote read arrives and is answered with RESP. -/
  | rd (l ecc : Nat)
  /-- WR (R397): A remote write arrives and is answered with RESP. -/
  | wr (l : Nat)
  /-- ATOM (R397): A remote atomic arrives and is answered with RESP. -/
  | atom (l ecc : Nat)
  /-- LOCK (R399): A remote lock command arrives and the lock word is returned. -/
  | lock (l : Nat)
  /-- INTR (R399): An interrupt transaction raises a doorbell or pushes a notify record. -/
  | intr (l : Nat)
  /-- RESP (R397): A response completes an outstanding request. -/
  | resp (l : Nat)
  /-- MEMBER (R413): A MEMBER transaction is recorded in OBX_PEERMEM. -/
  | member (l : Nat)
  /-- OBX_REQUEST_TIMEOUT (R398): A fabric-engine request times out after OBX_RTO. -/
  | obxRequestTimeout (tag : Nat)
  /-- MUTE (R405): An accepted MUTE notice enters the mute table and is flooded. -/
  | mute (l : Nat)
  /-- UNMUTE (R407): An accepted UNMUTE ends its Mute and is flooded. -/
  | unmute (l : Nat)
  /-- LEAVE (R411): An accepted LEAVE removes the device from membership and frees its locks. -/
  | leave (l : Nat)
  /-- JOIN (R410): An accepted JOIN sets the device's member bit. -/
  | join (l : Nat)
  /-- ORIGINATE_MUTE (R404): OBX_NOTICE_CMD originates a MUTE notice. -/
  | originateMute (w : Word)
  /-- ORIGINATE_UNMUTE (R404): OBX_NOTICE_CMD originates an UNMUTE notice. -/
  | originateUnmute (w : Word)
  /-- ORIGINATE_LEAVE (R404): OBX_NOTICE_CMD originates a LEAVE notice. -/
  | originateLeave (w : Word)
  /-- ORIGINATE_JOIN (R404): OBX_NOTICE_CMD originates a JOIN notice. -/
  | originateJoin (w : Word)
  /-- MUTE_EXPIRY (R407): A mute's life expires and held traffic resumes. -/
  | muteExpiry (k : Nat)
  /-- RECENT_PAIR_EXPIRY (R404): An (origin, id) pair leaves the recent set after 1 ms. -/
  | recentPairExpiry (origin id : Nat)
  /-- JOIN_DOMAIN (R409): Setting OBX_ID.joined sets the own member bit and originates a JOIN. -/
  | joinDomain (v : Word)
  /-- LEAVE_DOMAIN (R409): Clearing OBX_ID.joined originates a LEAVE naming the device. -/
  | leaveDomain (v : Word)
  /-- TIMESTAMP_SEND (R415): Every 1 µs a link sends a time-stamped flit. -/
  | timestampSend (l : Nat)
  /-- TIMESTAMP_RECEIVE (R415): A follower corrects domain time from its parent's stamp. -/
  | timestampReceive (l : Nat)
  /-- TIME_SET (R414): A write to OBX_TIME_SET sets the master's domain time. -/
  | timeSet (v : Word)
  /-- OBX_CTL_CLR (R418): OBX_CTL.clr zeroes the Obrex counters. -/
  | obxCtlClr
  /-- EPOCH_RUN_START (R421): Setting EPC_CTL.run starts boundaries. -/
  | epochRunStart (v : Word)
  /-- SW_REGISTER_WRITE (R424): A write to a Strum-shadowed field stages its value. -/
  | swRegisterWrite (a : Nat) (v : Word)
  /-- COMMIT_REQUEST (R425): EPC_COMMIT.go requests a commit with nwr writes. -/
  | commitRequest (nwr : Nat) (dom : Bool)
  /-- COMMIT_WITHDRAW (R430): EPC_COMMIT.withdraw removes the pending request. -/
  | commitWithdraw
  /-- COMMIT_DISCARD (R430): EPC_COMMIT.discard removes the request and clears every shadow. -/
  | commitDiscard
  /-- EPOCH_CUTOFF (R426): At the cutoff the pending set is checked and a gate read issued. -/
  | epochCutoff (ecc : Nat)
  /-- EPOCH_DECISION_POINT (R432): At the decision point the gate answer decides a domain set. -/
  | epochDecisionPoint
  /-- EPOCH_BOUNDARY (R427): At a boundary the whole staged set swaps in one NCLK. -/
  | epochBoundary
  /-- TELEMETRY_WRITE_COMPLETE (R550): A snapshot's four writes complete and wp increments. -/
  | telemetryWriteComplete
  /-- EPC_CTL_CLR (R447): EPC_CTL.clr zeroes EPC_CNT1. -/
  | epcCtlClr
  /-- VERIFY (R50): STR_STAGE_CMD verify reads and checks a partial image. -/
  | verify
  /-- VERIFY_COMPLETE (R50): Verification ends in VERIFIED or FAILED. -/
  | verifyComplete
  /-- ARM (R51): STR_STAGE_CMD arm holds the named clusters and starts preload. -/
  | arm
  /-- PRELOAD_COMPLETE (R51): Preload ends in READY, or FAILED with CHANGED. -/
  | preloadComplete
  /-- DISARM (R59): STR_STAGE_CMD disarm returns the stage to IDLE. -/
  | disarm
  /-- PAIR_ENABLE (R435): Setting DST_CFG.en gives the device its pair role. -/
  | pairEnable (v : Word)
  /-- MIRROR_SEND (R436): The mirror engine sends the next capture or walk line as a WR. -/
  | mirrorSend
  /-- MARKER_SEND (R438): Once an epoch's captures are sent, the engine writes the bank and marker. -/
  | markerSend
  /-- MARKER_RECEIVE (R439): The standby commits an epoch on a matching marker. -/
  | markerReceive
  /-- HEARTBEAT_SEND (R440): Each period the device writes a heartbeat record. -/
  | heartbeatSend
  /-- HEARTBEAT_PERIOD_END (R440): A period ends; a missing heartbeat counts a miss. -/
  | heartbeatPeriodEnd
  /-- FAILOVER (R441): DST_CMD FAILOVER installs the mirror and becomes ACTIVE. -/
  | failover
  /-- HANDOVER (R444): DST_CMD HANDOVER starts draining the active device. -/
  | handover
  /-- HANDOVER_COMPLETE (R444): Lanes drained, the handover marker is sent and roles swap. -/
  | handoverComplete
  /-- RESYNC (R445): DST_CMD RESYNC starts SYNCING. -/
  | resync
  /-- DST_CNT1_ZERO (R448): DST_CMD 4 zeroes DST_CNT1. -/
  | dstCnt1Zero
  /-- REFCLK_MONITOR_WINDOW (R451): A 1,000-AONCLK window ends and REFCLK is judged. -/
  | refclkMonitorWindow (n : Nat)
  /-- PLL_UNLOCK (R456): A PLL loses lock with consequences by PLL. -/
  | pllUnlock (p : Nat)
  /-- PLL_LOCK (R454): A powered PLL locks and its domains start. -/
  | pllLock (p : Nat)
  /-- CLOCK_STOP (R455): A domain's clock stops once its crossings are idle. -/
  | clockStop (d : Nat)
  /-- HANDSHAKE_DELIVERY (R458): A handshake crossing delivers a pulse or bit and completes. -/
  | handshakeDelivery (n : Nat)
  /-- FIFO_CROSSING_DELIVERY (R461): A FIFO crossing entry becomes readable at the destination. -/
  | fifoCrossingDelivery (c : Nat)
  /-- PORST_N_ASSERT (R464): PORST_N assertion puts every reset domain in reset. -/
  | porstNAssert
  /-- PORST_N_RELEASE (R564): PORST_N release takes AON out of reset. -/
  | porstNRelease (pres : Bool)
  /-- ROM_HOLDUP_TIMEOUT (R507): holdup still set 30 s after release changes the slot choice. -/
  | romHoldupTimeout
  /-- DEV_RELEASE (R464): CRS_BOOT.dev_rel releases DEV. -/
  | devRelease (agent : Nat)
  /-- CLUSTER_RESET (R466): A CRS_CLURST write resets a cluster. -/
  | clusterReset (v : Word)
  /-- CLUSTER_HOLD_WRITE (R465): A CRS_CLUHOLD write holds or releases clusters in reset. -/
  | clusterHoldWrite (v : Word)
  /-- CLUSTER_RESET_RELEASE (R466): A cluster leaves reset and its threads enter START. -/
  | clusterResetRelease (c : Nat)
  /-- HALF_RESET_TRIGGER (R469): An external partner loss flushes the crossings and sets half_reset. -/
  | halfResetTrigger (kind n : Nat)
  /-- HALF_RESET_REARM (R470): Writing 1 to a half_reset flag re-arms its crossings. -/
  | halfResetRearm (kind n : Nat)
  /-- CRS_CTL_CLR (R474): CRS_CTL.clr zeroes CRS_CNT and unlock counts. -/
  | crsCtlClr
  /-- VIN_SAMPLE (R476): The AON logic samples VIN and sets or clears warn. -/
  | vinSample (mv amps watts : Nat)
  /-- HOLDUP_OK_CHANGE (R477): HOLDUP_OK falling sets the holdup flag. -/
  | holdupOkChange (level : Bool)
  /-- HOLDUP_CLEAR (R477): Writing 1 to PWR_VIN.holdup clears it when allowed. -/
  | holdupClear
  /-- TEMP_SAMPLE (R479): Die temperatures are read and the warning judged. -/
  | tempSample (t0 t1 t2 t3 t4 t5 : Nat)
  /-- THERMAL_TRIP (R480): A die at trip for 1 ms performs a thermal trip. -/
  | thermalTrip
  /-- POWER_STATE_REQUEST (R482): A request for FULL, PROPORTIONAL or QUIET changes the device state. -/
  | powerStateRequest (v : Word)
  /-- STANDBY_REQUEST (R483): A STANDBY request asserts back-pressure and moves to ENTERING. -/
  | standbyRequest (v : Word)
  /-- STANDBY_DRAINED (R483): Queues empty and clusters idle; clusters park, memories sleep, PLLs stop. -/
  | standbyDrained
  /-- STANDBY_ABORT (R484): The 10 ms entry limit expires and entry is abandoned. -/
  | standbyAbort
  /-- STANDBY_EXIT_COMPLETE (R485): EXITING finishes and the requested state takes effect. -/
  | standbyExitComplete
  /-- CHAMELEON_SAMPLE (R488): Ageing sensors are sampled and equivalent hours accumulated. -/
  | chameleonSample (ros : List (Nat × Nat)) (reps : List Nat) (overrun : Bool)
  /-- CHAMELEON_RECORD_DAILY (R491): Every 24 h a Chameleon record is appended. -/
  | chameleonRecordDaily
  /-- PWR_CTL_CLR (R499): PWR_CTL.clr zeroes the power statistics. -/
  | pwrCtlClr
  /-- BOOT_CODE_START (R508): Boot code releases DEV, validates and applies the structure image. -/
  | bootCodeStart (out : List (Nat × Nat × Nat))
  /-- BOOT_SEAL (R510): The Service Newt sets PRT_SEAL.seal. -/
  | bootSeal (agent : Nat)
  /-- RUNTIME_START (R518): Run-time firmware checks the schema and applies settings or quarantines. -/
  | runtimeStart
  /-- NELISTORE_APPEND (R547): A record is appended to the Nelistore head or refused. -/
  | nelistoreAppend (typ : Nat) (body : List Byte) (fail : Bool)
  /-- NELISTORE_ROTATION (R547): A due rotation erases the oldest block and begins a new head. -/
  | nelistoreRotation (fail : Bool)
  /-- COMMIT (R519): SVC_CMD COMMIT commits the running TRIAL image. -/
  | commit
  /-- REJECT_SELF (R520): SVC_CMD REJECT_SELF rejects or skips the running slot and resets. -/
  | rejectSelf
  /-- RESET (R509): SVC_CMD RESET resets the device as PORST_N, keeping three values. -/
  | reset
  /-- OWNER_SET (R527): SVC_CMD OWNER_SET sets the owner lock. -/
  | ownerSet
  /-- OWNER_CLEAR (R527): SVC_CMD OWNER_CLEAR clears the owner lock. -/
  | ownerClear
  /-- TAMPER_CLEAR (R529): SVC_CMD TAMPER_CLEAR blows a tclr step and clears tamper. -/
  | tamperClear
  /-- REVOKE (R530): SVC_CMD REVOKE blows a key hash's revoke fuse. -/
  | revoke (k : Nat)
  /-- HELLO (R522): A HELLO message is answered with INFO. -/
  | sitHello (port seq : Nat)
  /-- BEGIN (R523): A BEGIN message opens a transfer session to the target slot. -/
  | sitBegin (port seq : Nat) (hdr dig : List Byte) (fail : Bool)
  /-- DATA (R523): A DATA message is written at the next expected offset. -/
  | sitData (port session seq off : Nat) (l : List Byte) (fail : Bool)
  /-- END (R523): An END message verifies the target and programs WRITTEN. -/
  | sitEnd (port session seq : Nat) (fail : Bool)
  /-- ABORT (R523): An ABORT message ends the session with the target EMPTY. -/
  | sitAbort (port session seq : Nat)
  /-- ACTIVATE (R522): An ACTIVATE message schedules a reset into the new image. -/
  | sitActivate (port session seq : Nat)
  /-- ACTIVATE_RESET (R522): 100 ms after an OK ACTIVATE the device resets. -/
  | activateReset
  /-- COMMAND (R522): A COMMAND message carries an SVC_CMD command. -/
  | sitCommand (port session seq c arg : Nat)
  /-- SESSION_EXPIRY (R524): A transfer session expires and its target is left EMPTY. -/
  | sessionExpiry
  /-- NEIGHBOR_SOLICITATION (R521): The service port answers a Neighbor Solicitation. -/
  | neighborSolicitation (src target : List Byte) (hop : Nat)
  /-- ECHO_REQUEST (R521): The service port answers an ICMPv6 Echo Request. -/
  | echoRequest (src body : List Byte) (hop : Nat)
  /-- PRESENCE_WINDOW_OPEN (R526): 2,000,000 low PRES_N samples open the presence window. -/
  | presenceWindowOpen
  /-- PRESENCE_WINDOW_CLOSE (R526): The presence window times out after PRES_N returns high. -/
  | presenceWindowClose
  /-- SEAL_CHECK (R528): SEAL_B is compared with the LFSR bit and tamper may latch. -/
  | sealCheck (b : Bool)
  /-- BMC_READ (R536): The board management controller reads a CSR. -/
  | bmcRead (bus : BmcBus) (off : Nat)
  /-- BMC_WRITE (R536): The board management controller writes a CSR. -/
  | bmcWrite (bus : BmcBus) (off : Nat) (v : Word)
  /-- SVC_CTL_CLR (R538): SVC_CTL.clr zeroes SVC_SITCNT and SVC_NLS.errors. -/
  | svcCtlClr
  /-- TRING_ENABLE (R553): Setting BKG_TRING_CFG.en zeroes wp and seq. -/
  | tringEnable (v : Word)
  /-- BKG_CTL_CLR (R553): BKG_CTL.clr zeroes the background counters. -/
  | bkgCtlClr
  /-- REGISTER_WRITE (R13): A write to a register with no row of its own acts by its access type. -/
  | registerWrite (x : RegAccess)
  /-- VAON_POWER_UP (R475): VIN rises through 7.0 V, VAON comes up, AONCLK and the crystal start, the regulators sequence the rails and PWR_RSTCAUSE.por is set. -/
  | vaonPowerUp
  /-- VAON_POWER_LOSS (R478): VIN falls below 7.0 V and VAON is lost, taking all state including PWR_RSTCAUSE with it. -/
  | vaonPowerLoss
  /-- PRES_N_HIGH (R526): PRES_N returns high, restarting the low-sample count, starting the window's SVC_PRES.window timeout and letting a waiting ROM proceed. -/
  | presNHigh
  /-- PERSTP_N_RELEASE (R464): A host raises PERSTp_N and the HLINK reset domains of that port leave reset so their links can train. -/
  | perstpNRelease (p : Nat)
  /-- SVC_PORT_UP (R521): The service port receiver locks and SVC_PORT.up rises, raising event 1805. -/
  | svcPortUp
  /-- AONCLK_EPOCH_WINDOW (R519): While EPC_CTL.run is 0, each 250,000-AONCLK window counts as an epoch for SVC_BOOT.epochs and trial commit, captures a telemetry snapshot and closes a traffic window for update refusal. -/
  | aonclkEpochWindow
  /-- SIT_BAD_MESSAGE (R522): A service-port datagram or UART frame with wrong magic, CRC, length or address is discarded and counted in SVC_SITCNT.bad. -/
  | sitBadMessage (port : Nat)
  /-- UNASSIGNED_OPCODE (R75): A thread issues a word whose opcode is not assigned and it traps UNDEF even when guarded off. -/
  | unassignedOpcode (t : Nat) (w : Word)
  /-- PC_RANGE_FETCH (R112): A thread whose next pc is 262,140 fetches it and traps PC_RANGE with TEPC and TVAL 0x0_3FFFC. -/
  | pcRangeFetch (t : Nat)
  /-- CXL_MAILBOX_COMMAND (R362): A host rings the CXL memory device mailbox in BAR4 and the command raises source 1301 for the Service Newt. -/
  | cxlMailboxCommand (l op : Nat)
deriving DecidableEq, Repr

end Sys2Proof
end

