-- ==== Sys2Proof/Decode.lean ====
section
/-! DEFINITION. The decoder over the table's bits: the spec's table gives its rows no bits, so no word spells a command.
(The instruction words of the Newt core are operands of the Newt rows; Machine/Operands.lean holds their fields.) -/

namespace Sys2Proof

/-- The command a word spells by the bits of the table of steps: no row has bits. -/
def decodeTableWord (_nbits _w : Nat) : Option Instr := none

end Sys2Proof
end

