-- ==== Sys2Proof/Config.lean ====
section
/-! DEFINITION. What one part, one board and one run fix from outside the spec: fused values, values per stepping, and
the free values. Every constant here is opaque: Lean can prove no value of it, so a claim holds whatever it is. -/

namespace Sys2Proof.Config

/-- A free value (see the assumption log, entry 2): the n-th value the spec leaves open. No body, so nothing is known. -/
opaque freeValue : Nat → BitVec 48

/-- The byte an unwritten byte of slot RAM holds (R581: unspecified after PORST_N and after PARKED), by generation of
the cluster's power and by address. -/
opaque slotByte : Nat → Nat → BitVec 8

/-- IDN_PART.grade as fused: true for CX9648-LA (0x02), false for CX9648-SA (0x01) (R11). -/
opaque longLife : Bool

/-- IDN_STEP.major − 1, minor and IDN_COMPAT.level_max − 1 of the stepping (R11, R12: major starts at 1, and level_min is
always 1), the first and the last taken modulo 255. -/
opaque stepMajor : BitVec 8
opaque stepMinor : BitVec 8
opaque levelMaxLess1 : BitVec 8

/-- Fabric engine number e of agent 0x2000 + e (R398) for event deliveries (0) and Gecko notifications (1). -/
opaque fabricEngine : Nat → BitVec 8

/-- Rate of the slew of domain time in ppm; R415 gives at most 200, and only the part up to 200 is used. -/
opaque slewPpm : Nat

/-- SVC_OTP as fused (R529, R530), SVC_MAC, PWR_FUSE by quadrant, PWR_DIEID and PWR_LIFEOTP.steps as fused. -/
opaque otp : BitVec 26
opaque mac : BitVec 48
opaque fuse : Nat → BitVec 48
opaque dieId : BitVec 48
opaque lifeSteps : BitVec 8

/-- The four key hashes of OTP (R503), SHA-384 as a number of 48 bytes, least significant first. -/
opaque keyHash : Nat → BitVec 384

/-- What a DIMM's SPD says of it (R304, R305): its kind (0 RDIMM, others not), data rate in MT/s, device width, density in
Gb, 3DS height (1 planar) and ranks. -/
structure Dimm where
  kind : Nat
  rate : Nat
  width : Nat
  density : Nat
  height : Nat
  ranks : Nat
deriving DecidableEq, Repr

/-- The DIMM in slot `i` of DDR5 channel `c`, none where none is fitted. -/
opaque spd (c i : Nat) : Option Dimm

/-- Value boot code writes to MAC_TSADJ of a port (R370): a property of the part. -/
opaque tsAdj : Nat → BitVec 32

end Sys2Proof.Config
end

