-- ==== Sys2Proof/Machine/Bits.lean ====
section
/-! DEFINITION. Bit fields, sign extension, byte order, and the sparse tables in canonical form that State is made of. -/

namespace Sys2Proof.Machine

/-- Bits [hi:lo] of a number. -/
def bitsN (n hi lo : Nat) : Nat := (n >>> lo) % 2 ^ (hi + 1 - lo)

/-- Bit `i` of a number. -/
def bitN (n i : Nat) : Bool := n.testBit i

/-- `n` with bits [hi:lo] replaced by the low bits of `v`. -/
def putN (n hi lo v : Nat) : Nat :=
  n - (bitsN n hi lo) * 2 ^ lo + (v % 2 ^ (hi + 1 - lo)) * 2 ^ lo

/-- The value of the low `w` bits of `n` as a two's complement number. -/
def sextN (w n : Nat) : Int := if n % 2 ^ w < 2 ^ (w - 1) then (n % 2 ^ w : Int) else (n % 2 ^ w : Int) - 2 ^ w

/-- 1 for true, 0 for false. -/
def b2n (b : Bool) : Nat := if b then 1 else 0

/-- Adds without passing the largest value of a `w`-bit field (a saturating counter). -/
def satAdd (w n k : Nat) : Nat := min (2 ^ w - 1) (n + k)

/-- A field [hi:lo] of a register. -/
structure Fld where
  hi : Nat
  lo : Nat
deriving DecidableEq, Repr

/-- Width of a field in bits. -/
def Fld.width (f : Fld) : Nat := f.hi + 1 - f.lo

/-- Value of a field of a word. -/
def getF (w : Word) (f : Fld) : Nat := bitsN w.toNat f.hi f.lo

/-- A word with a field replaced. -/
def putF (w : Word) (f : Fld) (v : Nat) : Word := BitVec.ofNat 48 (putN w.toNat f.hi f.lo v)

/-- Little-endian value of a byte list: the byte at the lowest address is the least significant (R64). -/
def leNat : List Byte → Nat
  | [] => 0
  | b :: bs => b.toNat + 256 * leNat bs

/-- The low `n` bytes of a number, least significant first (R64). -/
def leBytes : Nat → Nat → List Byte
  | 0, _ => []
  | n + 1, v => BitVec.ofNat 8 v :: leBytes n (v / 256)

/-- Big-endian value of a byte list (network order). -/
def beNat (l : List Byte) : Nat := leNat l.reverse

/-- `n` bytes of a number, most significant first. -/
def beBytes (n v : Nat) : List Byte := (leBytes n v).reverse

/-- A sparse table keyed by number: entries in strictly rising key order, none equal to the table's default. -/
abbrev Tab (α : Type) := List (Nat × α)

/-- The value at a key, or the default. -/
def Tab.get {α : Type} (d : α) : Tab α → Nat → α
  | [], _ => d
  | (k, v) :: r, i => if k = i then v else Tab.get d r i

/-- Inserts an entry before the first larger key. -/
def Tab.ins {α : Type} (i : Nat) (v : α) : Tab α → Tab α
  | [] => [(i, v)]
  | (k, w) :: r => if i < k then (i, v) :: (k, w) :: r else (k, w) :: Tab.ins i v r

/-- Removes the entries of a key. -/
def Tab.del {α : Type} (i : Nat) : Tab α → Tab α
  | [] => []
  | (k, w) :: r => if k = i then Tab.del i r else (k, w) :: Tab.del i r

/-- Sets a key, keeping the canonical form: the default value is not listed. -/
def Tab.set {α : Type} [DecidableEq α] (d : α) (t : Tab α) (i : Nat) (v : α) : Tab α :=
  if v = d then Tab.del i t else Tab.ins i v (Tab.del i t)

/-- Updates the value at a key. -/
def Tab.upd {α : Type} [DecidableEq α] (d : α) (t : Tab α) (i : Nat) (f : α → α) : Tab α :=
  Tab.set d t i (f (Tab.get d t i))

/-- The keys of a table below a bound rise strictly and no entry is the default. -/
def Tab.wf {α : Type} [DecidableEq α] (d : α) : Tab α → Bool
  | [] => true
  | [(_, v)] => decide (v ≠ d)
  | (k, v) :: (k', v') :: r => decide (k < k') && decide (v ≠ d) && Tab.wf d ((k', v') :: r)

/-- Optional entries: a key is present or not. -/
def Tab.find? {α : Type} : Tab α → Nat → Option α
  | [], _ => none
  | (k, v) :: r, i => if k = i then some v else Tab.find? r i

/-- Puts an entry for a key, replacing the one there. -/
def Tab.put {α : Type} (t : Tab α) (i : Nat) (v : α) : Tab α := Tab.ins i v (Tab.del i t)

/-- The keys of a table. -/
def Tab.keys {α : Type} (t : Tab α) : List Nat := t.map (fun e => e.1)

/-- The smallest number from `n` on, within `fuel` tries, that satisfies a test. -/
def findFrom (p : Nat → Bool) : Nat → Nat → Option Nat
  | 0, _ => none
  | fuel + 1, n => if p n then some n else findFrom p fuel (n + 1)

/-- Numbers 0 to n − 1 that satisfy a test, in order. -/
def allBelow (n : Nat) (p : Nat → Bool) : List Nat := (List.range n).filter p

/-- The set bits of a number below `n`, in rising order. -/
def setBits (n v : Nat) : List Nat := allBelow n (fun i => v.testBit i)

/-- Replaces element `i` of a list. -/
def listSet {α : Type} : List α → Nat → α → List α
  | [], _, _ => []
  | _ :: r, 0, v => v :: r
  | a :: r, i + 1, v => a :: listSet r i v

end Sys2Proof.Machine
end

