-- ==== Sys2Proof/Machine/Regs.lean ====
section
/-! DEFINITION. The register map: every register of the spec's register tables (R11, R60, R107, R136, R164, R165, R196,
R197, R221, R247, R248, R278, R279, R280, R302, R303, R339, R364, R382, R418, R419, R447, R448, R474, R499, R538, R539,
R553), its offset from the CSR base (R8), its reset value, and which of its bits carry each access type of R13. -/

namespace Sys2Proof.Machine

/-- The registers of the part, one name per register table of the spec. -/
inductive RegId where
  | IDN_PART | IDN_STEP | IDN_COMPAT | STR_STATUS | STR_VERSION | STR_LEVEL | STR_DIGEST | STR_STAGE_ADDR
  | STR_STAGE_LEN | STR_STAGE_CMD | STR_STAGE | STR_LIVE_CTL | STR_LIVE_GEN | STR_PROG | STR_LANEGRP | CLU_CTL
  | CLU_DVIOL | CLU_LATE | CLU_POSTERR | CLU_CORE_RST | CLU_THCMD | CLU_THSTAT | LYC_CAPS | LYC_ALGEN | CLU_LYCTL
  | CLU_LYFLUSH | CLU_LYSLOTS | CLU_LYBUSY | CLU_LYABANDON | CLU_LYSWITCH | CLU_LYPOISON | CLU_LYREFCNT
  | CLU_LYREFUSE | SPN_CTL | SPN_HSEED | SPN_STORE | SPN_STORESTAT | SPN_BP_ETH | SPN_BP_HOST | SPN_BP_FAB
  | SPN_POLICY | SPN_CNT_DISP | SPN_CNT_CHK | SPN_CNT_WAKE | SPN_BPSTAT | SPN_GRPWT | SPN_GRPMEM | SPN_GRPWAKE
  | SPN_GRPSTAT | SPN_QSTAT | SPN_QLIM | CLU_PWRCTL | CLU_PWRSTAT | CLU_PWRCNT | BRG_CTL | BRG_HOLD | BRG_STORE
  | BRG_CHILDSTAT | BRG_CNT_REL | BRG_CNT_DROP | BRG_CNT_CHILD | BRG_CNT_SKIP | BRG_CNT_LATE | BRG_CNT_BAD
  | BRG_LASTSKIP | BRG_LASTBAD | BRG_LANE_SEL | BRG_LANE_STAT | BRG_TURN | BRG_PASS | BPM_CTL | BPM_TCHK0
  | BPM_TCHK1 | BPM_TCHK_LAST | BPM_UNCHK | BPM_FREEERR | BPM_FREEERR_ADDR | BPM_REBUILD | BPM_REBUILD_CMD
  | BPM_REBUILD_STAT | BPM_PCFG | BPM_PBASE | BPM_PBUF | BPM_PHEAD | BPM_PTAIL | BPM_PCOUNT | BPM_PRING | BPM_POUT
  | BPM_PHIGH | BPM_PXON | BPM_PRINGBASE | BPM_PAUDIT | BPM_PAUDITC | TBL_CTL | TBL_CMD | TBL_CMD_D0 | TBL_CMD_D1
  | TBL_CMD_D2 | TBL_CMD_ACT | TBL_CMD_LOC | TBL_CMD_STAT | TBL_LRN_CTL | TBL_LRN_PORTS0 | TBL_LRN_PORTS1
  | TBL_LRN_ACT | TBL_LRN_STAT | TBL_LRN_CNT0 | TBL_LRN_CNT1 | TBL_LASTPAR | TBL_LASTMOVE0 | TBL_LASTMOVE1
  | TBL_T_CFG | TBL_T_BASE | TBL_T_SEED0 | TBL_T_SEED1 | TBL_T_COUNT | TBL_T_STAT | TBL_T_AGE | TBL_T_MOVES
  | TBL_T_STASHV | TBL_STASH | GKO_LOCK | GKO_CTL | GKO_CNT0 | GKO_CNT1 | GKO_CNT2 | GKO_CNT3 | GKO_WAITERS
  | GKO_LASTABN | GKO_LASTFOREIGN | GKO_NOTIFY | GKO_NOTSTAT | EVT_CFG | EVT_DST | EVT_WG_CTL | EVT_WG_M0
  | EVT_WG_M1 | EVT_WG_M2 | EVT_CTL | EVT_RING | EVT_STAT | EVT_SVCQ | EVT_SVCQSTAT | EVT_PEND | EVT_OVR | MC_ID
  | MC_CTL | MC_PDTIMER | MC_REFLIMIT | MC_TRAINCTL | MC_PEGCMD | MC_ERRCNT | MC_ERRLAST | MC_RETLOSS | MC_DIMM
  | MC_HASH | MC_COLSEL | MC_ROWSEL | MC_HASHCFG | MC_RTCFG | MC_RTSTAT | MC_UNIT | MC_REFSTAT | HST_CTL | HST_CTO
  | HST_RXHOLD | HST_CNT | HST_PFAULT | HST_PFSTAT | HST_MBOXQ | HST_LINK | HST_LDCFG | HST_POOLMAP | HST_TXQ_BASE
  | HST_TXQ_CFG | HST_TXQ_STAT | HST_RXQ_BASE | HST_RXQ_CBASE | HST_RXQ_CFG | HST_RXQ_STAT | MAC_PCFG | MAC_PSTAT
  | MAC_PRIMAP | MAC_FCQ | MAC_TSADJ | MAC_RXPAUSE | MAC_TXTS | MAC_TXTS_LO | MAC_TXTS_HI | MAC_TXTSSTAT | MAC_CTL
  | MAC_PAUSESA | MAC_CNT | OBX_ID | OBX_TAG | OBX_CTL | OBX_RTO | OBX_EXPWIN | OBX_NOTICE_CMD | OBX_NOTICE_LAST
  | OBX_MUTESTAT | OBX_CNT0 | OBX_CNT1 | OBX_TIME_CTL | OBX_TIME_LO | OBX_TIME_HI | OBX_TIME_SET | OBX_TIME_STAT
  | OBX_VCCFG | OBX_MUTE | OBX_MEMBER | OBX_PEERMEM | OBX_ROUTE | OBX_LCFG | OBX_LSTAT | OBX_LCNT | EPC_CTL
  | EPC_T0_LO | EPC_T0_HI | EPC_ANCHOR | EPC_NUM | EPC_PERIOD | EPC_COMMIT | EPC_GATE | EPC_STAGE | EPC_LAST
  | EPC_CNT0 | EPC_CNT1 | DST_CFG | DST_CMD | DST_STAT | DST_HB | DST_LOG | DST_SHADOW | DST_PSHADOW | DST_LOCKS
  | DST_SEQGAP | DST_COMMITTED | DST_NLS | DST_BACKLOG | DST_BACKHWM | DST_CNT0 | DST_CNT1 | DST_RBASE | DST_RLEN
  | CRS_CTL | CRS_CNT | CRS_BOOT | CRS_REFMON | CRS_CLURST | CRS_CLUHOLD | CRS_CLUSTAT | CRS_PLLSTAT | CRS_DOMSTAT
  | PWR_CTL | PWR_STATE | PWR_VIN | PWR_VINSTAT | PWR_RSTCAUSE | PWR_THERM | PWR_TEMP | PWR_PLAN | PWR_FUSE
  | PWR_CHM_CFG | PWR_CHM_STAT | PWR_RO | PWR_REP | PWR_LIFE | PWR_LIFE_CFG | PWR_DIEID | PWR_LIFEOTP | SVC_CTL
  | SVC_BOOT | SVC_SLOT | SVC_OTP | SVC_SEC | SVC_PRES | SVC_CMD | SVC_CMDSTAT | SVC_UPD | SVC_UPDOFF | SVC_SITCNT
  | SVC_PORT | SVC_MAC | SVC_UART | SVC_NLS | PRT_SEAL | PRT_DEFAULT | PRT_VIOL | PRT_VIOLA | PRT_CNT | PRT_RBASE
  | PRT_RLIM | PRT_RPERM | BKG_CTL | BKG_SCRUB | BKG_SCRUB_LAST | BKG_PSWEEP | BKG_NLSCFG | BKG_NLSSTAT | BKG_AUDIT
  | BKG_OVR | BKG_TRING_BASE | BKG_TRING_CFG | BKG_TRING_WP | BKG_TRING_RP | BKG_TRING_LOST | BKG_SCRUBCNT
deriving DecidableEq, Repr

/-- One register table: the register, the first index its rows start at, its offset from 0x00F0_0000_0000, its array
dimensions (count, stride), its reset value, and the bits of each access type of R13 (every other bit is RO). -/
structure RegDesc where
  id : RegId
  first : Nat
  off : Nat
  dims : List (Nat × Nat)
  reset : Nat
  rw : Nat
  w1c : Nat
  w1s : Nat
  wo : Nat
  bw : Nat
  sw : Nat
deriving DecidableEq, Repr

/-- Register tables, part 0. -/
def regRows0 : List RegDesc := [
  ⟨.IDN_PART, 0, 0x0, [], 0xAB0A96480000, 0x0, 0x0, 0x0, 0x0, 0x0, 0x0⟩,
  ⟨.IDN_STEP, 0, 0x8, [], 0x0, 0x0, 0x0, 0x0, 0x0, 0x0, 0x0⟩,
  ⟨.IDN_COMPAT, 0, 0x10, [], 0x1, 0x0, 0x0, 0x0, 0x0, 0x0, 0x0⟩,
  ⟨.STR_STATUS, 0, 0x20000, [], 0x0, 0x0, 0x0, 0x0, 0x0, 0xFFFFF0F, 0x0⟩,
  ⟨.STR_VERSION, 0, 0x20008, [], 0x0, 0x0, 0x0, 0x0, 0x0, 0xFFFFFFFF, 0x0⟩,
  ⟨.STR_LEVEL, 0, 0x20010, [], 0x0, 0x0, 0x0, 0x0, 0x0, 0xFF, 0x0⟩,
  ⟨.STR_DIGEST, 0, 0x20018, [(8, 0x8)], 0x0, 0x0, 0x0, 0x0, 0x0, 0xFFFFFFFFFFFF, 0x0⟩,
  ⟨.STR_STAGE_ADDR, 0, 0x20060, [], 0x0, 0xFFFFFFFFFFC0, 0x0, 0x0, 0x0, 0x0, 0x0⟩,
  ⟨.STR_STAGE_LEN, 0, 0x20068, [], 0x0, 0x1FFFFFF, 0x0, 0x0, 0x0, 0x0, 0x0⟩,
  ⟨.STR_STAGE_CMD, 0, 0x20070, [], 0x0, 0x0, 0x0, 0x0, 0x7, 0x0, 0x0⟩,
  ⟨.STR_STAGE, 0, 0x20078, [], 0x0, 0x0, 0x0, 0x0, 0x0, 0x0, 0x0⟩,
  ⟨.STR_LIVE_CTL, 0, 0x20080, [], 0x10, 0xFF, 0x0, 0x0, 0x0, 0x0, 0x0⟩,
  ⟨.STR_LIVE_GEN, 0, 0x20088, [], 0x0, 0x0, 0x0, 0x0, 0x0, 0x0, 0x0⟩,
  ⟨.STR_PROG, 0, 0x20100, [(24, 0x8)], 0x0, 0x0, 0x0, 0x0, 0x0, 0x0, 0x0⟩,
  ⟨.STR_LANEGRP, 0, 0x20200, [(8, 0x8)], 0x0, 0x0, 0x0, 0x0, 0x0, 0x0, 0x0⟩,
  ⟨.CLU_CTL, 0, 0x100000, [(24, 0x10000)], 0x0, 0x1, 0x0, 0x0, 0x2, 0x0, 0x0⟩,
  ⟨.CLU_DVIOL, 0, 0x100008, [(24, 0x10000)], 0x0, 0x0, 0x0, 0x0, 0x0, 0x0, 0x0⟩,
  ⟨.CLU_LATE, 0, 0x100010, [(24, 0x10000)], 0x0, 0x0, 0x0, 0x0, 0x0, 0x0, 0x0⟩,
  ⟨.CLU_POSTERR, 0, 0x100018, [(24, 0x10000)], 0x0, 0x0, 0x0, 0x0, 0x0, 0x0, 0x0⟩,
  ⟨.CLU_CORE_RST, 0, 0x100100, [(24, 0x10000)], 0x0, 0x0, 0x0, 0x0, 0xFFFF, 0x0, 0x0⟩,
  ⟨.CLU_THCMD, 0, 0x100400, [(24, 0x10000), (128, 0x8)], 0x0, 0x0, 0x0, 0x0, 0xFFFFFF, 0x0, 0x0⟩,
  ⟨.CLU_THSTAT, 0, 0x100800, [(24, 0x10000), (128, 0x8)], 0x20000007, 0x0, 0x0, 0x0, 0x0, 0x0, 0x0⟩,
  ⟨.LYC_CAPS, 0, 0xC0000, [], 0x3FF, 0x0, 0x0, 0x0, 0x0, 0x0, 0x0⟩,
  ⟨.LYC_ALGEN, 0, 0xC0008, [], 0x3FF, 0x3FF, 0x0, 0x0, 0x0, 0x0, 0x0⟩]

/-- Register tables, part 1. -/
def regRows1 : List RegDesc := [
  ⟨.CLU_LYCTL, 0, 0x102000, [(24, 0x10000)], 0x0, 0x0, 0x0, 0x0, 0x1, 0x0, 0x0⟩,
  ⟨.CLU_LYFLUSH, 0, 0x102008, [(24, 0x10000)], 0x0, 0x0, 0x0, 0x0, 0x17F, 0x0, 0x0⟩,
  ⟨.CLU_LYSLOTS, 0, 0x102010, [(24, 0x10000)], 0x0, 0x0, 0x0, 0x0, 0x0, 0x0, 0x0⟩,
  ⟨.CLU_LYBUSY, 0, 0x102018, [(24, 0x10000)], 0x0, 0x0, 0x0, 0x0, 0x0, 0x0, 0x0⟩,
  ⟨.CLU_LYABANDON, 0, 0x102020, [(24, 0x10000)], 0x0, 0x0, 0x0, 0x0, 0x0, 0x0, 0x0⟩,
  ⟨.CLU_LYSWITCH, 0, 0x102028, [(24, 0x10000)], 0x0, 0x0, 0x0, 0x0, 0x0, 0x0, 0x0⟩,
  ⟨.CLU_LYPOISON, 0, 0x102030, [(24, 0x10000)], 0x0, 0x0, 0x0, 0x0, 0x0, 0x0, 0x0⟩,
  ⟨.CLU_LYREFCNT, 0, 0x102038, [(24, 0x10000)], 0x0, 0x0, 0x0, 0x0, 0x0, 0x0, 0x0⟩,
  ⟨.CLU_LYREFUSE, 0, 0x102400, [(24, 0x10000), (128, 0x8)], 0x0, 0x0, 0x0, 0x0, 0x0, 0x0, 0x0⟩,
  ⟨.SPN_CTL, 0, 0x80000, [], 0x4, 0x6, 0x0, 0x0, 0x8, 0x0, 0x0⟩,
  ⟨.SPN_HSEED, 0, 0x80008, [], 0x6C1E5A2D, 0x0, 0x0, 0x0, 0x0, 0xFFFFFFFF, 0x0⟩,
  ⟨.SPN_STORE, 0, 0x80010, [], 0x100002000, 0xFFFFFFFFF, 0x0, 0x0, 0x0, 0x0, 0x0⟩,
  ⟨.SPN_STORESTAT, 0, 0x80018, [], 0x800020000, 0x0, 0x0, 0x0, 0x0, 0x0, 0x0⟩,
  ⟨.SPN_BP_ETH, 0, 0x80020, [], 0x100008000400, 0xFFFFFFFFFFFF, 0x0, 0x0, 0x0, 0x0, 0x0⟩,
  ⟨.SPN_BP_HOST, 0, 0x80028, [], 0x20001000080, 0xFFFFFFFFFFFF, 0x0, 0x0, 0x0, 0x0, 0x0⟩,
  ⟨.SPN_BP_FAB, 0, 0x80030, [], 0x100008000400, 0xFFFFFFFFFFFF, 0x0, 0x0, 0x0, 0x0, 0x0⟩,
  ⟨.SPN_POLICY, 0, 0x80038, [], 0x800C80032, 0x1FFFFFFFFF, 0x0, 0x0, 0x0, 0x0, 0x0⟩,
  ⟨.SPN_CNT_DISP, 0, 0x80040, [], 0x0, 0x0, 0x0, 0x0, 0x0, 0x0, 0x0⟩,
  ⟨.SPN_CNT_CHK, 0, 0x80048, [], 0x0, 0x0, 0x0, 0x0, 0x0, 0x0, 0x0⟩,
  ⟨.SPN_CNT_WAKE, 0, 0x80050, [], 0x0, 0x0, 0x0, 0x0, 0x0, 0x0, 0x0⟩,
  ⟨.SPN_BPSTAT, 0, 0x80058, [], 0x0, 0x0, 0x0, 0x0, 0x0, 0x0, 0x0⟩,
  ⟨.SPN_GRPWT, 0, 0x81000, [(64, 0x8)], 0x0, 0x0, 0x0, 0x0, 0x0, 0x0, 0xFF⟩,
  ⟨.SPN_GRPMEM, 0, 0x81200, [(64, 0x8)], 0x0, 0x0, 0x0, 0x0, 0x0, 0x0, 0xFFFFFF⟩,
  ⟨.SPN_GRPWAKE, 0, 0x81400, [(64, 0x8)], 0x100, 0xFFFF, 0x0, 0x0, 0x0, 0x0, 0x0⟩]

/-- Register tables, part 2. -/
def regRows2 : List RegDesc := [
  ⟨.SPN_GRPSTAT, 0, 0x81600, [(64, 0x8)], 0x0, 0x0, 0x0, 0x0, 0x0, 0x0, 0x0⟩,
  ⟨.SPN_QSTAT, 0, 0x82000, [(1024, 0x8)], 0x0, 0x0, 0x0, 0x0, 0x0, 0x0, 0x0⟩,
  ⟨.SPN_QLIM, 0, 0x84000, [(1024, 0x8)], 0x2000, 0x3FFFF, 0x0, 0x0, 0x0, 0x0, 0x0⟩,
  ⟨.CLU_PWRCTL, 0, 0x101000, [(24, 0x10000)], 0x0, 0x3, 0x0, 0x0, 0x0, 0x0, 0x0⟩,
  ⟨.CLU_PWRSTAT, 0, 0x101008, [(24, 0x10000)], 0x2, 0x0, 0x0, 0x0, 0x0, 0x0, 0x0⟩,
  ⟨.CLU_PWRCNT, 0, 0x101010, [(24, 0x10000)], 0x0, 0x0, 0x0, 0x0, 0x0, 0x0, 0x0⟩,
  ⟨.BRG_CTL, 0, 0x90000, [], 0x0, 0x0, 0x0, 0x0, 0x1, 0x0, 0x0⟩,
  ⟨.BRG_HOLD, 0, 0x90008, [], 0x4E2, 0xFFFF, 0x0, 0x0, 0x0, 0x0, 0x0⟩,
  ⟨.BRG_STORE, 0, 0x90010, [], 0x0, 0x0, 0x0, 0x0, 0x0, 0x0, 0x0⟩,
  ⟨.BRG_CHILDSTAT, 0, 0x90018, [], 0x0, 0x0, 0x0, 0x0, 0x0, 0x0, 0x0⟩,
  ⟨.BRG_CNT_REL, 0, 0x90020, [], 0x0, 0x0, 0x0, 0x0, 0x0, 0x0, 0x0⟩,
  ⟨.BRG_CNT_DROP, 0, 0x90028, [], 0x0, 0x0, 0x0, 0x0, 0x0, 0x0, 0x0⟩,
  ⟨.BRG_CNT_CHILD, 0, 0x90030, [], 0x0, 0x0, 0x0, 0x0, 0x0, 0x0, 0x0⟩,
  ⟨.BRG_CNT_SKIP, 0, 0x90038, [], 0x0, 0x0, 0x0, 0x0, 0x0, 0x0, 0x0⟩,
  ⟨.BRG_CNT_LATE, 0, 0x90040, [], 0x0, 0x0, 0x0, 0x0, 0x0, 0x0, 0x0⟩,
  ⟨.BRG_CNT_BAD, 0, 0x90048, [], 0x0, 0x0, 0x0, 0x0, 0x0, 0x0, 0x0⟩,
  ⟨.BRG_LASTSKIP, 0, 0x90050, [], 0x0, 0x0, 0x0, 0x0, 0x0, 0x0, 0x0⟩,
  ⟨.BRG_LASTBAD, 0, 0x90058, [], 0x0, 0x0, 0x0, 0x0, 0x0, 0x0, 0x0⟩,
  ⟨.BRG_LANE_SEL, 0, 0x90060, [], 0x0, 0xFFFF, 0x0, 0x0, 0x0, 0x0, 0x0⟩,
  ⟨.BRG_LANE_STAT, 0, 0x90068, [], 0x0, 0x0, 0x0, 0x0, 0x0, 0x0, 0x0⟩,
  ⟨.BRG_TURN, 0, 0x98000, [(4, 0x8)], 0x0, 0x0, 0x0, 0x0, 0x0, 0x0, 0x0⟩,
  ⟨.BRG_PASS, 0, 0x98020, [(4, 0x8)], 0x0, 0x0, 0x0, 0x0, 0xFFFFFFFFFFFF, 0x0, 0x0⟩,
  ⟨.BPM_CTL, 0, 0xA0000, [], 0x2, 0x2, 0x0, 0x0, 0x1, 0x0, 0x0⟩,
  ⟨.BPM_TCHK0, 0, 0xA0008, [], 0x0, 0x0, 0x0, 0x0, 0x0, 0x0, 0x0⟩]

/-- Register tables, part 3. -/
def regRows3 : List RegDesc := [
  ⟨.BPM_TCHK1, 0, 0xA0010, [], 0x0, 0x0, 0x0, 0x0, 0x0, 0x0, 0x0⟩,
  ⟨.BPM_TCHK_LAST, 0, 0xA0018, [], 0x0, 0x0, 0x0, 0x0, 0x0, 0x0, 0x0⟩,
  ⟨.BPM_UNCHK, 0, 0xA0020, [], 0x0, 0x0, 0x0, 0x0, 0x0, 0x0, 0x0⟩,
  ⟨.BPM_FREEERR, 0, 0xA0028, [], 0x0, 0x0, 0x0, 0x0, 0x0, 0x0, 0x0⟩,
  ⟨.BPM_FREEERR_ADDR, 0, 0xA0030, [], 0x0, 0x0, 0x0, 0x0, 0x0, 0x0, 0x0⟩,
  ⟨.BPM_REBUILD, 0, 0xA0038, [], 0x0, 0xFFFFFFFFFFC0, 0x0, 0x0, 0x0, 0x0, 0x0⟩,
  ⟨.BPM_REBUILD_CMD, 0, 0xA0040, [], 0x0, 0x0, 0x0, 0x0, 0x1F, 0x0, 0x0⟩,
  ⟨.BPM_REBUILD_STAT, 0, 0xA0048, [], 0x0, 0x0, 0x0, 0x0, 0x0, 0x0, 0x0⟩,
  ⟨.BPM_PCFG, 0, 0xA1000, [(16, 0x80)], 0x0, 0x2000000, 0x0, 0x0, 0x0, 0x0, 0x0⟩,
  ⟨.BPM_PBASE, 0, 0xA1008, [(16, 0x80)], 0x0, 0x0, 0x0, 0x0, 0x0, 0x0, 0x0⟩,
  ⟨.BPM_PBUF, 0, 0xA1010, [(16, 0x80)], 0x0, 0x0, 0x0, 0x0, 0x0, 0x0, 0x0⟩,
  ⟨.BPM_PHEAD, 0, 0xA1018, [(16, 0x80)], 0x0, 0x0, 0x0, 0x0, 0x0, 0x0, 0x0⟩,
  ⟨.BPM_PTAIL, 0, 0xA1020, [(16, 0x80)], 0x0, 0x0, 0x0, 0x0, 0x0, 0x0, 0x0⟩,
  ⟨.BPM_PCOUNT, 0, 0xA1028, [(16, 0x80)], 0x0, 0x0, 0x0, 0x0, 0x0, 0x0, 0x0⟩,
  ⟨.BPM_PRING, 0, 0xA1030, [(16, 0x80)], 0x0, 0x0, 0x0, 0x0, 0x0, 0x0, 0x0⟩,
  ⟨.BPM_POUT, 0, 0xA1038, [(16, 0x80)], 0x0, 0x0, 0x0, 0x0, 0x0, 0x0, 0x0⟩,
  ⟨.BPM_PHIGH, 0, 0xA1040, [(16, 0x80)], 0x0, 0x0, 0x0, 0x0, 0x0, 0x0, 0x0⟩,
  ⟨.BPM_PXON, 0, 0xA1048, [(16, 0x80)], 0x40, 0xFFFFFFFF, 0x0, 0x0, 0x0, 0x0, 0x0⟩,
  ⟨.BPM_PRINGBASE, 0, 0xA1050, [(16, 0x80)], 0x0, 0x0, 0x0, 0x0, 0x0, 0x0, 0x0⟩,
  ⟨.BPM_PAUDIT, 0, 0xA1058, [(16, 0x80)], 0x0, 0x0, 0x0, 0x0, 0x0, 0x0, 0x0⟩,
  ⟨.BPM_PAUDITC, 0, 0xA1060, [(16, 0x80)], 0x0, 0x0, 0x0, 0x0, 0x0, 0x0, 0x0⟩,
  ⟨.TBL_CTL, 0, 0xB0000, [], 0x4, 0x7, 0x0, 0x0, 0x8, 0x0, 0x0⟩,
  ⟨.TBL_CMD, 0, 0xB0008, [], 0x0, 0xFFFC00F, 0x0, 0x0, 0x0, 0x0, 0x0⟩,
  ⟨.TBL_CMD_D0, 0, 0xB0010, [], 0x0, 0xFFFFFFFFFFFF, 0x0, 0x0, 0x0, 0x0, 0x0⟩]

/-- Register tables, part 4. -/
def regRows4 : List RegDesc := [
  ⟨.TBL_CMD_D1, 0, 0xB0018, [], 0x0, 0xFFFFFFFFFFFF, 0x0, 0x0, 0x0, 0x0, 0x0⟩,
  ⟨.TBL_CMD_D2, 0, 0xB0020, [], 0x0, 0xFFFFFFFF, 0x0, 0x0, 0x0, 0x0, 0x0⟩,
  ⟨.TBL_CMD_ACT, 0, 0xB0028, [], 0x0, 0xFFFFFFFFFFFF, 0x0, 0x0, 0x0, 0x0, 0x0⟩,
  ⟨.TBL_CMD_LOC, 0, 0xB0030, [], 0x0, 0xFFFFFFFF, 0x0, 0x0, 0x0, 0x0, 0x0⟩,
  ⟨.TBL_CMD_STAT, 0, 0xB0038, [], 0x0, 0x0, 0x0, 0x0, 0x0, 0x0, 0x0⟩,
  ⟨.TBL_LRN_CTL, 0, 0xB0040, [], 0x3E800000020, 0xFFFF00000020, 0x0, 0x0, 0x0, 0x0, 0x0⟩,
  ⟨.TBL_LRN_PORTS0, 0, 0xB0048, [], 0x0, 0xFFFFFFFFFFFF, 0x0, 0x0, 0x0, 0x0, 0x0⟩,
  ⟨.TBL_LRN_PORTS1, 0, 0xB0050, [], 0x0, 0xFFFF, 0x0, 0x0, 0x0, 0x0, 0x0⟩,
  ⟨.TBL_LRN_ACT, 0, 0xB0058, [], 0x0, 0xFFFFFFFFFFFF, 0x0, 0x0, 0x0, 0x0, 0x0⟩,
  ⟨.TBL_LRN_STAT, 0, 0xB0060, [], 0x0, 0x0, 0x0, 0x0, 0x0, 0x0, 0x0⟩,
  ⟨.TBL_LRN_CNT0, 0, 0xB0068, [], 0x0, 0x0, 0x0, 0x0, 0x0, 0x0, 0x0⟩,
  ⟨.TBL_LRN_CNT1, 0, 0xB0070, [], 0x0, 0x0, 0x0, 0x0, 0x0, 0x0, 0x0⟩,
  ⟨.TBL_LASTPAR, 0, 0xB0078, [], 0x0, 0x0, 0x0, 0x0, 0x0, 0x0, 0x0⟩,
  ⟨.TBL_LASTMOVE0, 0, 0xB0080, [], 0x0, 0x0, 0x0, 0x0, 0x0, 0x0, 0x0⟩,
  ⟨.TBL_LASTMOVE1, 0, 0xB0088, [], 0x0, 0x0, 0x0, 0x0, 0x0, 0x0, 0x0⟩,
  ⟨.TBL_T_CFG, 0, 0xB1000, [(32, 0x80)], 0x0, 0xFFFF00000080, 0x0, 0x0, 0x0, 0x0, 0x0⟩,
  ⟨.TBL_T_BASE, 0, 0xB1008, [(32, 0x80)], 0x0, 0x0, 0x0, 0x0, 0x0, 0x0, 0x0⟩,
  ⟨.TBL_T_SEED0, 0, 0xB1010, [(32, 0x80)], 0x0, 0x0, 0x0, 0x0, 0x0, 0x0, 0x0⟩,
  ⟨.TBL_T_SEED1, 0, 0xB1018, [(32, 0x80)], 0x0, 0x0, 0x0, 0x0, 0x0, 0x0, 0x0⟩,
  ⟨.TBL_T_COUNT, 0, 0xB1020, [(32, 0x80)], 0x0, 0x0, 0x0, 0x0, 0x0, 0x0, 0x0⟩,
  ⟨.TBL_T_STAT, 0, 0xB1028, [(32, 0x80)], 0x0, 0x0, 0x0, 0x0, 0x0, 0x0, 0x0⟩,
  ⟨.TBL_T_AGE, 0, 0xB1030, [(32, 0x80)], 0x0, 0x0, 0x0, 0x0, 0x0, 0x0, 0x0⟩,
  ⟨.TBL_T_MOVES, 0, 0xB1038, [(32, 0x80)], 0x0, 0x0, 0x0, 0x0, 0x0, 0x0, 0x0⟩,
  ⟨.TBL_T_STASHV, 0, 0xB1040, [(32, 0x80)], 0x0, 0x0, 0x0, 0x0, 0x0, 0x0, 0x0⟩]

/-- Register tables, part 5. -/
def regRows5 : List RegDesc := [
  ⟨.TBL_STASH, 0, 0xB4000, [(32, 0x100), (8, 0x20), (3, 0x8)], 0x0, 0x0, 0x0, 0x0, 0x0, 0x0, 0x0⟩,
  ⟨.GKO_LOCK, 0, 0x70000, [(4096, 0x8)], 0x0, 0xFFFFFFFFFFFF, 0x0, 0x0, 0x0, 0x0, 0x0⟩,
  ⟨.GKO_CTL, 0, 0x78000, [], 0x61A800004000, 0xFFFF0000FF00, 0x0, 0x0, 0x1, 0x0, 0x0⟩,
  ⟨.GKO_CNT0, 0, 0x78008, [], 0x0, 0x0, 0x0, 0x0, 0x0, 0x0, 0x0⟩,
  ⟨.GKO_CNT1, 0, 0x78010, [], 0x0, 0x0, 0x0, 0x0, 0x0, 0x0, 0x0⟩,
  ⟨.GKO_CNT2, 0, 0x78018, [], 0x0, 0x0, 0x0, 0x0, 0x0, 0x0, 0x0⟩,
  ⟨.GKO_CNT3, 0, 0x78020, [], 0x0, 0x0, 0x0, 0x0, 0x0, 0x0, 0x0⟩,
  ⟨.GKO_WAITERS, 0, 0x78028, [], 0x0, 0x0, 0x0, 0x0, 0x0, 0x0, 0x0⟩,
  ⟨.GKO_LASTABN, 0, 0x78030, [], 0x0, 0x0, 0x0, 0x0, 0x0, 0x0, 0x0⟩,
  ⟨.GKO_LASTFOREIGN, 0, 0x78038, [], 0x0, 0x0, 0x0, 0x0, 0x0, 0x0, 0x0⟩,
  ⟨.GKO_NOTIFY, 0, 0x78100, [(7, 0x8)], 0x0, 0x0, 0x0, 0x0, 0x0, 0x0, 0x0⟩,
  ⟨.GKO_NOTSTAT, 0, 0x78200, [(7, 0x8)], 0x0, 0x0, 0x800000000000, 0x0, 0x0, 0x0, 0x0⟩,
  ⟨.EVT_CFG, 0, 0x60000, [(2048, 0x8)], 0x80, 0xFFFFC7, 0x8000000000, 0x0, 0x1000000000, 0x0, 0x0⟩,
  ⟨.EVT_DST, 0, 0x64000, [(2048, 0x8)], 0x0, 0x7FF3FFF, 0x0, 0x0, 0x0, 0x0, 0x0⟩,
  ⟨.EVT_WG_CTL, 0, 0x68000, [(256, 0x20)], 0x0, 0x3F, 0x0, 0x0, 0x0, 0x0, 0x0⟩,
  ⟨.EVT_WG_M0, 0, 0x68008, [(256, 0x20)], 0x0, 0xFFFFFFFFFFFF, 0x0, 0x0, 0x0, 0x0, 0x0⟩,
  ⟨.EVT_WG_M1, 0, 0x68010, [(256, 0x20)], 0x0, 0xFFFFFFFFFFFF, 0x0, 0x0, 0x0, 0x0, 0x0⟩,
  ⟨.EVT_WG_M2, 0, 0x68018, [(256, 0x20)], 0x0, 0xFFFFFFFF, 0x0, 0x0, 0x0, 0x0, 0x0⟩,
  ⟨.EVT_CTL, 0, 0x6A000, [], 0x0, 0x0, 0x0, 0x0, 0x1, 0x0, 0x0⟩,
  ⟨.EVT_RING, 0, 0x6A008, [], 0x0, 0x0, 0x0, 0x0, 0x7F, 0x0, 0x0⟩,
  ⟨.EVT_STAT, 0, 0x6A010, [], 0x0, 0x0, 0x0, 0x0, 0x0, 0x0, 0x0⟩,
  ⟨.EVT_SVCQ, 0, 0x6A018, [], 0x0, 0x0, 0x0, 0x0, 0x0, 0x0, 0x0⟩,
  ⟨.EVT_SVCQSTAT, 0, 0x6A020, [], 0x0, 0x0, 0x0, 0x0, 0x0, 0x0, 0x0⟩,
  ⟨.EVT_PEND, 0, 0x6A100, [(43, 0x8)], 0x0, 0x0, 0x0, 0x0, 0x0, 0x0, 0x0⟩]

/-- Register tables, part 6. -/
def regRows6 : List RegDesc := [
  ⟨.EVT_OVR, 0, 0x6A400, [(43, 0x8)], 0x0, 0x0, 0x0, 0x0, 0x0, 0x0, 0x0⟩,
  ⟨.MC_ID, 0, 0x300000, [(4, 0x10000)], 0x0, 0x0, 0x0, 0x0, 0x0, 0x0, 0x0⟩,
  ⟨.MC_ID, 4, 0x380000, [(8, 0x10000)], 0x0, 0x0, 0x0, 0x0, 0x0, 0x0, 0x0⟩,
  ⟨.MC_CTL, 0, 0x300008, [(4, 0x10000)], 0xC, 0xC, 0x0, 0x0, 0x1, 0x0, 0x0⟩,
  ⟨.MC_CTL, 4, 0x380008, [(8, 0x10000)], 0xC, 0x1C, 0x0, 0x0, 0x1, 0x0, 0x0⟩,
  ⟨.MC_PDTIMER, 0, 0x300010, [(4, 0x10000)], 0x400, 0xFFFF, 0x0, 0x0, 0x0, 0x0, 0x0⟩,
  ⟨.MC_PDTIMER, 4, 0x380010, [(8, 0x10000)], 0x400, 0xFFFF, 0x0, 0x0, 0x0, 0x0, 0x0⟩,
  ⟨.MC_REFLIMIT, 0, 0x300018, [(4, 0x10000)], 0x88, 0xF, 0x0, 0x0, 0x0, 0x0, 0x0⟩,
  ⟨.MC_REFLIMIT, 4, 0x380018, [(8, 0x10000)], 0x88, 0xF, 0x0, 0x0, 0x0, 0x0, 0x0⟩,
  ⟨.MC_TRAINCTL, 0, 0x300020, [(4, 0x10000)], 0x64640A1000, 0xFFFFFFFFFF00, 0x0, 0x0, 0x0, 0x0, 0x0⟩,
  ⟨.MC_TRAINCTL, 4, 0x380020, [(8, 0x10000)], 0x64640A1000, 0xFFFFFFFFFF00, 0x0, 0x0, 0x0, 0x0, 0x0⟩,
  ⟨.MC_PEGCMD, 0, 0x300028, [(4, 0x10000)], 0x0, 0x0, 0x0, 0x0, 0x1FF, 0x0, 0x0⟩,
  ⟨.MC_PEGCMD, 4, 0x380028, [(8, 0x10000)], 0x0, 0x0, 0x0, 0x0, 0x1FF, 0x0, 0x0⟩,
  ⟨.MC_ERRCNT, 0, 0x300030, [(4, 0x10000)], 0x0, 0x0, 0x0, 0x0, 0x0, 0x0, 0x0⟩,
  ⟨.MC_ERRCNT, 4, 0x380030, [(8, 0x10000)], 0x0, 0x0, 0x0, 0x0, 0x0, 0x0, 0x0⟩,
  ⟨.MC_ERRLAST, 0, 0x300038, [(4, 0x10000)], 0x0, 0x0, 0x0, 0x0, 0x0, 0x0, 0x0⟩,
  ⟨.MC_ERRLAST, 4, 0x380038, [(8, 0x10000)], 0x0, 0x0, 0x0, 0x0, 0x0, 0x0, 0x0⟩,
  ⟨.MC_RETLOSS, 0, 0x300040, [(4, 0x10000)], 0x0, 0x0, 0x0, 0x0, 0x0, 0x0, 0x0⟩,
  ⟨.MC_RETLOSS, 4, 0x380040, [(8, 0x10000)], 0x0, 0x0, 0x0, 0x0, 0x0, 0x0, 0x0⟩,
  ⟨.MC_DIMM, 0, 0x300048, [(4, 0x10000)], 0x0, 0x0, 0x0, 0x0, 0x0, 0x0, 0x0⟩,
  ⟨.MC_DIMM, 4, 0x380048, [(8, 0x10000)], 0x0, 0x0, 0x0, 0x0, 0x0, 0x0, 0x0⟩,
  ⟨.MC_HASH, 0, 0x300100, [(4, 0x10000), (16, 0x8)], 0x0, 0x0, 0x0, 0x0, 0x0, 0xFFFFFFFFFFFF, 0x0⟩,
  ⟨.MC_HASH, 4, 0x380100, [(8, 0x10000), (16, 0x8)], 0x0, 0x0, 0x0, 0x0, 0x0, 0xFFFFFFFFFFFF, 0x0⟩,
  ⟨.MC_COLSEL, 0, 0x300180, [(4, 0x10000)], 0x0, 0x0, 0x0, 0x0, 0x0, 0xFFFFFFFFFFFF, 0x0⟩]

/-- Register tables, part 7. -/
def regRows7 : List RegDesc := [
  ⟨.MC_COLSEL, 4, 0x380180, [(8, 0x10000)], 0x0, 0x0, 0x0, 0x0, 0x0, 0xFFFFFFFFFFFF, 0x0⟩,
  ⟨.MC_ROWSEL, 0, 0x300188, [(4, 0x10000), (3, 0x8)], 0x0, 0x0, 0x0, 0x0, 0x0, 0xFFFFFFFFFFFF, 0x0⟩,
  ⟨.MC_ROWSEL, 4, 0x380188, [(8, 0x10000), (3, 0x8)], 0x0, 0x0, 0x0, 0x0, 0x0, 0xFFFFFFFFFFFF, 0x0⟩,
  ⟨.MC_HASHCFG, 0, 0x3001A0, [(4, 0x10000)], 0x0, 0x0, 0x0, 0x0, 0x0, 0xFFFF1F, 0x0⟩,
  ⟨.MC_HASHCFG, 4, 0x3801A0, [(8, 0x10000)], 0x0, 0x0, 0x0, 0x0, 0x0, 0xFFFF1F, 0x0⟩,
  ⟨.MC_RTCFG, 0, 0x300200, [(4, 0x10000), (4, 0x8)], 0x400700C0, 0xF003FFFFFFFF, 0x0, 0x0, 0x0, 0x0, 0x0⟩,
  ⟨.MC_RTCFG, 4, 0x380200, [(8, 0x10000), (4, 0x8)], 0x400700C0, 0xF003FFFFFFFF, 0x0, 0x0, 0x0, 0x0, 0x0⟩,
  ⟨.MC_RTSTAT, 0, 0x300240, [(4, 0x10000), (4, 0x8)], 0x0, 0x0, 0x0, 0x0, 0x0, 0x0, 0x0⟩,
  ⟨.MC_RTSTAT, 4, 0x380240, [(8, 0x10000), (4, 0x8)], 0x0, 0x0, 0x0, 0x0, 0x0, 0x0, 0x0⟩,
  ⟨.MC_UNIT, 0, 0x300400, [(4, 0x10000), (32, 0x8)], 0x11, 0x0, 0x0, 0x0, 0x0, 0x0, 0x0⟩,
  ⟨.MC_UNIT, 4, 0x380400, [(8, 0x10000), (1, 0x8)], 0x11, 0x0, 0x0, 0x0, 0x0, 0x0, 0x0⟩,
  ⟨.MC_REFSTAT, 0, 0x300800, [(4, 0x10000), (32, 0x8)], 0x0, 0x0, 0x0, 0x0, 0x0, 0x0, 0x0⟩,
  ⟨.MC_REFSTAT, 4, 0x380800, [(8, 0x10000), (8, 0x8)], 0x0, 0x0, 0x0, 0x0, 0x0, 0x0, 0x0⟩,
  ⟨.HST_CTL, 0, 0x500000, [], 0x0, 0x0, 0x0, 0x0, 0x1, 0x0, 0x0⟩,
  ⟨.HST_CTO, 0, 0x500008, [], 0x2710, 0xFFFF, 0x0, 0x0, 0x0, 0x0, 0x0⟩,
  ⟨.HST_RXHOLD, 0, 0x500010, [], 0x64, 0xFFFF, 0x0, 0x0, 0x0, 0x0, 0x0⟩,
  ⟨.HST_CNT, 0, 0x500018, [], 0x0, 0x0, 0x0, 0x0, 0x0, 0x0, 0x0⟩,
  ⟨.HST_PFAULT, 0, 0x500020, [], 0x0, 0x0, 0x0, 0x0, 0x0, 0x0, 0x0⟩,
  ⟨.HST_PFSTAT, 0, 0x500028, [], 0x0, 0x0, 0x800000000000, 0x0, 0x0, 0x0, 0x0⟩,
  ⟨.HST_MBOXQ, 0, 0x500030, [], 0x0, 0x0, 0x0, 0x0, 0x0, 0x0, 0x0⟩,
  ⟨.HST_LINK, 0, 0x500100, [(16, 0x8)], 0x0, 0x400000000FF, 0x80000000000, 0x0, 0x0, 0x0, 0x0⟩,
  ⟨.HST_LDCFG, 0, 0x501000, [(16, 0x8)], 0x0, 0x0, 0x0, 0x0, 0x0, 0x0, 0xF8001FFF0FFF⟩,
  ⟨.HST_POOLMAP, 0, 0x510000, [(4096, 0x8)], 0x0, 0x0, 0x0, 0x0, 0x0, 0x0, 0xE00000000FFF⟩,
  ⟨.HST_TXQ_BASE, 0, 0x520000, [(4096, 0x20)], 0x0, 0xFFFFFFFFFFC0, 0x0, 0x0, 0x0, 0x0, 0x0⟩]

/-- Register tables, part 8. -/
def regRows8 : List RegDesc := [
  ⟨.HST_TXQ_CFG, 0, 0x520008, [(4096, 0x20)], 0x60200000000, 0x9FFFF8FF3FFF, 0x0, 0x0, 0x0, 0x0, 0x0⟩,
  ⟨.HST_TXQ_STAT, 0, 0x520010, [(4096, 0x20)], 0x0, 0x0, 0x0, 0x0, 0x0, 0x0, 0x0⟩,
  ⟨.HST_RXQ_BASE, 0, 0x540000, [(4096, 0x20)], 0x0, 0xFFFFFFFFFFC0, 0x0, 0x0, 0x0, 0x0, 0x0⟩,
  ⟨.HST_RXQ_CBASE, 0, 0x540008, [(4096, 0x20)], 0x0, 0xFFFFFFFFFFC0, 0x0, 0x0, 0x0, 0x0, 0x0⟩,
  ⟨.HST_RXQ_CFG, 0, 0x540010, [(4096, 0x20)], 0x60000000000, 0x9F0000FF3FFF, 0x0, 0x0, 0x0, 0x0, 0x0⟩,
  ⟨.HST_RXQ_STAT, 0, 0x540018, [(4096, 0x20)], 0x0, 0x0, 0x0, 0x0, 0x0, 0x0, 0x0⟩,
  ⟨.MAC_PCFG, 0, 0x400000, [(64, 0x1000)], 0x612000000000, 0xFFFFF8000000, 0x0, 0x0, 0x0, 0x0, 0x0⟩,
  ⟨.MAC_PSTAT, 0, 0x400008, [(64, 0x1000)], 0x0, 0x0, 0x800000000000, 0x0, 0x0, 0x0, 0x0⟩,
  ⟨.MAC_PRIMAP, 0, 0x400010, [(64, 0x1000)], 0xFAC688, 0xFFFFFF, 0x0, 0x0, 0x0, 0x0, 0x0⟩,
  ⟨.MAC_FCQ, 0, 0x400018, [(64, 0x1000)], 0xFFFF, 0xFFFF, 0x0, 0x0, 0x0, 0x0, 0x0⟩,
  ⟨.MAC_TSADJ, 0, 0x400020, [(64, 0x1000)], 0x0, 0xFFFFFFFF, 0x0, 0x0, 0x0, 0x0, 0x0⟩,
  ⟨.MAC_RXPAUSE, 0, 0x400028, [(64, 0x1000)], 0x0, 0x0, 0x0, 0x0, 0x0, 0x0, 0x0⟩,
  ⟨.MAC_TXTS, 0, 0x400030, [(64, 0x1000)], 0x0, 0x0, 0x0, 0x0, 0x0, 0x0, 0x0⟩,
  ⟨.MAC_TXTS_LO, 0, 0x400038, [(64, 0x1000)], 0x0, 0x0, 0x0, 0x0, 0x0, 0x0, 0x0⟩,
  ⟨.MAC_TXTS_HI, 0, 0x400040, [(64, 0x1000)], 0x0, 0x0, 0x0, 0x0, 0x0, 0x0, 0x0⟩,
  ⟨.MAC_TXTSSTAT, 0, 0x400048, [(64, 0x1000)], 0x0, 0x0, 0x800000000000, 0x0, 0x0, 0x0, 0x0⟩,
  ⟨.MAC_CTL, 0, 0x400050, [(64, 0x1000)], 0x0, 0x0, 0x0, 0x0, 0x1, 0x0, 0x0⟩,
  ⟨.MAC_PAUSESA, 0, 0x400058, [(64, 0x1000)], 0x0, 0xFFFFFFFFFFFF, 0x0, 0x0, 0x0, 0x0, 0x0⟩,
  ⟨.MAC_CNT, 0, 0x400100, [(64, 0x1000), (18, 0x8)], 0x0, 0x0, 0x0, 0x0, 0x0, 0x0, 0x0⟩,
  ⟨.OBX_ID, 0, 0x600000, [], 0x0, 0x7FF, 0x0, 0x0, 0x0, 0x0, 0x0⟩,
  ⟨.OBX_TAG, 0, 0x600008, [], 0x0, 0xFFFFFFFF, 0x0, 0x0, 0x0, 0x0, 0x0⟩,
  ⟨.OBX_CTL, 0, 0x600010, [], 0x1E, 0x1E, 0x0, 0x0, 0x1, 0x0, 0x0⟩,
  ⟨.OBX_RTO, 0, 0x600018, [], 0x271, 0xFFFF, 0x0, 0x0, 0x0, 0x0, 0x0⟩,
  ⟨.OBX_EXPWIN, 0, 0x600020, [], 0x100000000000, 0xFFFC00000000, 0x0, 0x0, 0x0, 0x0, 0x0⟩]

/-- Register tables, part 9. -/
def regRows9 : List RegDesc := [
  ⟨.OBX_NOTICE_CMD, 0, 0x600028, [], 0x0, 0x0, 0x0, 0x0, 0xFFFFFFFFFFFF, 0x0, 0x0⟩,
  ⟨.OBX_NOTICE_LAST, 0, 0x600030, [], 0x0, 0x0, 0x0, 0x0, 0x0, 0x0, 0x0⟩,
  ⟨.OBX_MUTESTAT, 0, 0x600038, [], 0x0, 0x0, 0x0, 0x0, 0x0, 0x0, 0x0⟩,
  ⟨.OBX_CNT0, 0, 0x600040, [], 0x0, 0x0, 0x0, 0x0, 0x0, 0x0, 0x0⟩,
  ⟨.OBX_CNT1, 0, 0x600048, [], 0x0, 0x0, 0x0, 0x0, 0x0, 0x0, 0x0⟩,
  ⟨.OBX_TIME_CTL, 0, 0x600050, [], 0x2, 0x3, 0x0, 0x0, 0x0, 0x0, 0x0⟩,
  ⟨.OBX_TIME_LO, 0, 0x600058, [], 0x0, 0x0, 0x0, 0x0, 0x0, 0x0, 0x0⟩,
  ⟨.OBX_TIME_HI, 0, 0x600060, [], 0x0, 0x0, 0x0, 0x0, 0x0, 0x0, 0x0⟩,
  ⟨.OBX_TIME_SET, 0, 0x600068, [], 0x0, 0x0, 0x0, 0x0, 0xFFFFFFFFFFFF, 0x0, 0x0⟩,
  ⟨.OBX_TIME_STAT, 0, 0x600070, [], 0x7FF0000000, 0x0, 0x0, 0x0, 0x0, 0x0, 0x0⟩,
  ⟨.OBX_VCCFG, 0, 0x600100, [(8, 0x8)], 0x20FC, 0xE7FF, 0x0, 0x0, 0x0, 0x0, 0x0⟩,
  ⟨.OBX_MUTE, 0, 0x601000, [(64, 0x8)], 0x0, 0x0, 0x0, 0x0, 0x0, 0x0, 0x0⟩,
  ⟨.OBX_MEMBER, 0, 0x602000, [(22, 0x8)], 0x0, 0xFFFFFFFFFFFF, 0x0, 0x0, 0x0, 0x0, 0x0⟩,
  ⟨.OBX_PEERMEM, 0, 0x603000, [(8, 0x100), (22, 0x8)], 0x0, 0x0, 0x0, 0x0, 0x0, 0x0, 0x0⟩,
  ⟨.OBX_ROUTE, 0, 0x610000, [(1024, 0x8)], 0x0, 0x0, 0x0, 0x0, 0x0, 0x0, 0xFFFF⟩,
  ⟨.OBX_LCFG, 0, 0x608000, [(8, 0x100)], 0x0, 0x80000000FFFF, 0x0, 0x0, 0x0, 0x0, 0x0⟩,
  ⟨.OBX_LSTAT, 0, 0x608008, [(8, 0x100)], 0x0, 0x0, 0x800000000000, 0x0, 0x0, 0x0, 0x0⟩,
  ⟨.OBX_LCNT, 0, 0x608040, [(8, 0x100), (6, 0x8)], 0x0, 0x0, 0x0, 0x0, 0x0, 0x0, 0x0⟩,
  ⟨.EPC_CTL, 0, 0x30000, [], 0x1000, 0xFF01, 0x0, 0x0, 0x2, 0x0, 0x0⟩,
  ⟨.EPC_T0_LO, 0, 0x30008, [], 0x0, 0xFFFFFFFFFFFF, 0x0, 0x0, 0x0, 0x0, 0x0⟩,
  ⟨.EPC_T0_HI, 0, 0x30010, [], 0x0, 0xFFFF, 0x0, 0x0, 0x0, 0x0, 0x0⟩,
  ⟨.EPC_ANCHOR, 0, 0x30018, [], 0x0, 0xFFFFFFFFFFFF, 0x0, 0x0, 0x0, 0x0, 0x0⟩,
  ⟨.EPC_NUM, 0, 0x30020, [], 0x0, 0x0, 0x0, 0x0, 0x0, 0x0, 0x0⟩,
  ⟨.EPC_PERIOD, 0, 0x30028, [], 0xFA, 0x0, 0x0, 0x0, 0x0, 0x0, 0xFFFF⟩]

/-- Register tables, part 10. -/
def regRows10 : List RegDesc := [
  ⟨.EPC_COMMIT, 0, 0x30030, [], 0x0, 0x0, 0x0, 0x0, 0x1EFFFF, 0x0, 0x0⟩,
  ⟨.EPC_GATE, 0, 0x30038, [], 0x0, 0xFFFFFFFFFFF8, 0x0, 0x0, 0x0, 0x0, 0x0⟩,
  ⟨.EPC_STAGE, 0, 0x30040, [], 0x0, 0x0, 0x0, 0x0, 0x0, 0x0, 0x0⟩,
  ⟨.EPC_LAST, 0, 0x30048, [], 0x0, 0x0, 0x0, 0x0, 0x0, 0x0, 0x0⟩,
  ⟨.EPC_CNT0, 0, 0x30050, [], 0x0, 0x0, 0x0, 0x0, 0x0, 0x0, 0x0⟩,
  ⟨.EPC_CNT1, 0, 0x30058, [], 0x0, 0x0, 0x0, 0x0, 0x0, 0x0, 0x0⟩,
  ⟨.DST_CFG, 0, 0x700000, [], 0x390000000000, 0xFF0000001FFF, 0x0, 0x0, 0x0, 0x0, 0x0⟩,
  ⟨.DST_CMD, 0, 0x700008, [], 0x0, 0x0, 0x0, 0x0, 0xF, 0x0, 0x0⟩,
  ⟨.DST_STAT, 0, 0x700010, [], 0x0, 0x0, 0x0, 0x0, 0x0, 0x0, 0x0⟩,
  ⟨.DST_HB, 0, 0x700018, [], 0x64, 0xFFFF, 0x0, 0x0, 0x0, 0x0, 0x0⟩,
  ⟨.DST_LOG, 0, 0x700020, [], 0x0, 0xFFFFFFF0FFFF, 0x0, 0x0, 0x0, 0x0, 0x0⟩,
  ⟨.DST_SHADOW, 0, 0x700028, [], 0x0, 0xFFFFFFF0FFFF, 0x0, 0x0, 0x0, 0x0, 0x0⟩,
  ⟨.DST_PSHADOW, 0, 0x700030, [], 0x0, 0xFFFFFFF00000, 0x0, 0x0, 0x0, 0x0, 0x0⟩,
  ⟨.DST_LOCKS, 0, 0x700038, [], 0x0, 0x1FFFFFF, 0x0, 0x0, 0x0, 0x0, 0x0⟩,
  ⟨.DST_SEQGAP, 0, 0x700040, [], 0x400000, 0xFFFFFF, 0x0, 0x0, 0x0, 0x0, 0x0⟩,
  ⟨.DST_COMMITTED, 0, 0x700048, [], 0x0, 0x0, 0x0, 0x0, 0x0, 0x0, 0x0⟩,
  ⟨.DST_NLS, 0, 0x700050, [], 0x0, 0x0, 0x0, 0x0, 0x0, 0x0, 0x0⟩,
  ⟨.DST_BACKLOG, 0, 0x700058, [], 0x0, 0x0, 0x0, 0x0, 0x0, 0x0, 0x0⟩,
  ⟨.DST_BACKHWM, 0, 0x700060, [], 0x0, 0x0, 0x0, 0x0, 0x0, 0x0, 0x0⟩,
  ⟨.DST_CNT0, 0, 0x700068, [], 0x0, 0x0, 0x0, 0x0, 0x0, 0x0, 0x0⟩,
  ⟨.DST_CNT1, 0, 0x700070, [], 0x0, 0x0, 0x0, 0x0, 0x0, 0x0, 0x0⟩,
  ⟨.DST_RBASE, 0, 0x700100, [(16, 0x10)], 0x0, 0xFFFFFFFFF000, 0x0, 0x0, 0x0, 0x0, 0x0⟩,
  ⟨.DST_RLEN, 0, 0x700108, [(16, 0x10)], 0x0, 0xFFFFFFFF, 0x0, 0x0, 0x0, 0x0, 0x0⟩,
  ⟨.CRS_CTL, 0, 0x40000, [], 0x0, 0x0, 0x0, 0x0, 0x1, 0x0, 0x0⟩]

/-- Register tables, part 11. -/
def regRows11 : List RegDesc := [
  ⟨.CRS_CNT, 0, 0x40008, [], 0x0, 0x0, 0x0, 0x0, 0x0, 0x0, 0x0⟩,
  ⟨.CRS_BOOT, 0, 0x40010, [], 0x0, 0x0, 0x0, 0x0, 0x0, 0x1, 0x0⟩,
  ⟨.CRS_REFMON, 0, 0x40018, [], 0x0, 0x0, 0x0, 0x0, 0x0, 0x0, 0x0⟩,
  ⟨.CRS_CLURST, 0, 0x40020, [], 0x0, 0x0, 0x0, 0x0, 0xFFFFFF, 0x0, 0x0⟩,
  ⟨.CRS_CLUHOLD, 0, 0x40028, [], 0x0, 0xFFFFFF, 0x0, 0x0, 0x0, 0x0, 0x0⟩,
  ⟨.CRS_CLUSTAT, 0, 0x40030, [], 0xFFFFFF, 0x0, 0x0, 0x0, 0x0, 0x0, 0x0⟩,
  ⟨.CRS_PLLSTAT, 0, 0x40100, [(45, 0x8)], 0x0, 0x0, 0x0, 0x0, 0x0, 0x0, 0x0⟩,
  ⟨.CRS_DOMSTAT, 0, 0x40400, [(227, 0x8)], 0x0, 0x0, 0x8000000000, 0x0, 0x0, 0x0, 0x0⟩,
  ⟨.PWR_CTL, 0, 0x50000, [], 0x0, 0x0, 0x0, 0x0, 0x1, 0x0, 0x0⟩,
  ⟨.PWR_STATE, 0, 0x50008, [], 0x101, 0x3, 0x4, 0x0, 0x0, 0x0, 0x0⟩,
  ⟨.PWR_VIN, 0, 0x50010, [], 0x0, 0x0, 0x400000000000, 0x0, 0x0, 0x0, 0x0⟩,
  ⟨.PWR_VINSTAT, 0, 0x50018, [], 0xFFFF00000000, 0x0, 0x0, 0x0, 0x0, 0x0, 0x0⟩,
  ⟨.PWR_RSTCAUSE, 0, 0x50020, [], 0x0, 0x0, 0x0, 0x0, 0x0, 0x0, 0x0⟩,
  ⟨.PWR_THERM, 0, 0x50028, [], 0x736400000000, 0xFFFF00000000, 0x0, 0x0, 0x0, 0x0, 0x0⟩,
  ⟨.PWR_TEMP, 0, 0x50030, [(6, 0x8)], 0x8000, 0x0, 0x0, 0x0, 0x0, 0x0, 0x0⟩,
  ⟨.PWR_PLAN, 0, 0x50100, [(4, 0x8)], 0x2, 0x0, 0x0, 0x0, 0x0, 0x0, 0x3F07⟩,
  ⟨.PWR_FUSE, 0, 0x50120, [(4, 0x8)], 0x0, 0x0, 0x0, 0x0, 0x0, 0x0, 0x0⟩,
  ⟨.PWR_CHM_CFG, 0, 0x50140, [], 0x83E85A280006, 0xFFFFFFFF00FF, 0x0, 0x0, 0x0, 0x0, 0x0⟩,
  ⟨.PWR_CHM_STAT, 0, 0x50148, [], 0x0, 0x0, 0x0, 0x0, 0x0, 0x0, 0x0⟩,
  ⟨.PWR_RO, 0, 0x50200, [(96, 0x8)], 0x0, 0x0, 0x0, 0x0, 0x0, 0x0, 0x0⟩,
  ⟨.PWR_REP, 0, 0x50600, [(48, 0x8)], 0x0, 0x0, 0x0, 0x0, 0x0, 0x0, 0x0⟩,
  ⟨.PWR_LIFE, 0, 0x50800, [], 0xFFFFFF, 0x0, 0x0, 0x0, 0x0, 0x0, 0x0⟩,
  ⟨.PWR_LIFE_CFG, 0, 0x50808, [], 0x2238, 0xFFFFFF, 0x0, 0x0, 0x0, 0x0, 0x0⟩,
  ⟨.PWR_DIEID, 0, 0x50810, [], 0x0, 0x0, 0x0, 0x0, 0x0, 0x0, 0x0⟩]

/-- Register tables, part 12. -/
def regRows12 : List RegDesc := [
  ⟨.PWR_LIFEOTP, 0, 0x50818, [], 0x0, 0x0, 0x0, 0x0, 0x0, 0x0, 0x0⟩,
  ⟨.SVC_CTL, 0, 0x800000, [], 0x0, 0x0, 0x0, 0x0, 0x1, 0x0, 0x0⟩,
  ⟨.SVC_BOOT, 0, 0x800008, [], 0x0, 0x300000000, 0x0, 0x60, 0x0, 0x0, 0x0⟩,
  ⟨.SVC_SLOT, 0, 0x800010, [(2, 0x8)], 0x0, 0x0, 0x0, 0x0, 0x0, 0x0, 0x0⟩,
  ⟨.SVC_OTP, 0, 0x800020, [], 0x0, 0x0, 0x0, 0x0, 0x0, 0x0, 0x0⟩,
  ⟨.SVC_SEC, 0, 0x800028, [], 0x0, 0x0, 0x0, 0x0, 0x0, 0x0, 0x0⟩,
  ⟨.SVC_PRES, 0, 0x800030, [], 0x3C, 0xFFFF, 0x0, 0x0, 0x0, 0x0, 0x0⟩,
  ⟨.SVC_CMD, 0, 0x800038, [], 0x0, 0x0, 0x0, 0x0, 0xFFFF, 0x0, 0x0⟩,
  ⟨.SVC_CMDSTAT, 0, 0x800040, [], 0x0, 0x0, 0x0, 0x0, 0x0, 0x0, 0x0⟩,
  ⟨.SVC_UPD, 0, 0x800048, [], 0x0, 0x0, 0x0, 0x0, 0x0, 0x0, 0x0⟩,
  ⟨.SVC_UPDOFF, 0, 0x800050, [], 0x0, 0x0, 0x0, 0x0, 0x0, 0x0, 0x0⟩,
  ⟨.SVC_SITCNT, 0, 0x800058, [], 0x0, 0x0, 0x0, 0x0, 0x0, 0x0, 0x0⟩,
  ⟨.SVC_PORT, 0, 0x800060, [], 0x0, 0x200000000000, 0x800000000000, 0x0, 0x0, 0x0, 0x0⟩,
  ⟨.SVC_MAC, 0, 0x800068, [], 0x0, 0x0, 0x0, 0x0, 0x0, 0x0, 0x0⟩,
  ⟨.SVC_UART, 0, 0x800070, [], 0x1C200, 0x3FFFFF, 0x0, 0x0, 0x0, 0x0, 0x0⟩,
  ⟨.SVC_NLS, 0, 0x800078, [], 0x0, 0x0, 0x0, 0x0, 0x0, 0x0, 0x0⟩,
  ⟨.PRT_SEAL, 0, 0x10000, [], 0x0, 0x0, 0x0, 0x1, 0x0, 0x0, 0x0⟩,
  ⟨.PRT_DEFAULT, 0, 0x10008, [], 0x4F0, 0x0, 0x0, 0x0, 0x0, 0xFFFF, 0x0⟩,
  ⟨.PRT_VIOL, 0, 0x10010, [], 0x0, 0x0, 0x0, 0x0, 0x0, 0x0, 0x0⟩,
  ⟨.PRT_VIOLA, 0, 0x10018, [], 0x0, 0x0, 0x0, 0x0, 0x0, 0x0, 0x0⟩,
  ⟨.PRT_CNT, 0, 0x10020, [], 0x0, 0x0, 0x0, 0x0, 0x0, 0x0, 0x0⟩,
  ⟨.PRT_RBASE, 0, 0x10100, [(64, 0x18)], 0x0, 0x0, 0x0, 0x0, 0x0, 0xFFFFFFFFF, 0x0⟩,
  ⟨.PRT_RLIM, 0, 0x10108, [(64, 0x18)], 0x0, 0x0, 0x0, 0x0, 0x0, 0xFFFFFFFFF, 0x0⟩,
  ⟨.PRT_RPERM, 0, 0x10110, [(64, 0x18)], 0x0, 0x0, 0x0, 0x0, 0x0, 0x80000000FFFF, 0x0⟩]

/-- Register tables, part 13. -/
def regRows13 : List RegDesc := [
  ⟨.BKG_CTL, 0, 0x900000, [], 0x6, 0x6, 0x0, 0x0, 0x1, 0x0, 0x0⟩,
  ⟨.BKG_SCRUB, 0, 0x900008, [], 0x18, 0xFF, 0x0, 0x0, 0x0, 0x0, 0x0⟩,
  ⟨.BKG_SCRUB_LAST, 0, 0x900010, [], 0x0, 0x0, 0x0, 0x0, 0x0, 0x0, 0x0⟩,
  ⟨.BKG_PSWEEP, 0, 0x900018, [], 0x3E8, 0xFFFF, 0x0, 0x0, 0x0, 0x0, 0x0⟩,
  ⟨.BKG_NLSCFG, 0, 0x900020, [], 0x10, 0xFF, 0x0, 0x0, 0x0, 0x0, 0x0⟩,
  ⟨.BKG_NLSSTAT, 0, 0x900028, [], 0x0, 0x0, 0x0, 0x0, 0x0, 0x0, 0x0⟩,
  ⟨.BKG_AUDIT, 0, 0x900030, [], 0x64, 0xFFFF, 0x0, 0x0, 0x0, 0x0, 0x0⟩,
  ⟨.BKG_OVR, 0, 0x900038, [], 0x0, 0x0, 0x0, 0x0, 0x0, 0x0, 0x0⟩,
  ⟨.BKG_TRING_BASE, 0, 0x900040, [], 0x0, 0xFFFFFFFFFF00, 0x0, 0x0, 0x0, 0x0, 0x0⟩,
  ⟨.BKG_TRING_CFG, 0, 0x900048, [], 0xA, 0xC0000000001F, 0x0, 0x0, 0x0, 0x0, 0x0⟩,
  ⟨.BKG_TRING_WP, 0, 0x900050, [], 0x0, 0x0, 0x0, 0x0, 0x0, 0x0, 0x0⟩,
  ⟨.BKG_TRING_RP, 0, 0x900058, [], 0x0, 0xFFFFFFFF, 0x0, 0x0, 0x0, 0x0, 0x0⟩,
  ⟨.BKG_TRING_LOST, 0, 0x900060, [], 0x0, 0x0, 0x0, 0x0, 0x0, 0x0, 0x0⟩,
  ⟨.BKG_SCRUBCNT, 0, 0x900100, [(6, 0x8)], 0x0, 0x0, 0x0, 0x0, 0x0, 0x0, 0x0⟩]

/-- Every register table of the spec. -/
def regTable : List RegDesc :=
  regRows0 ++ regRows1 ++ regRows2 ++ regRows3 ++ regRows4 ++ regRows5 ++ regRows6 ++ regRows7 ++ regRows8 ++ regRows9 ++ regRows10 ++ regRows11 ++ regRows12 ++ regRows13

/-- The index of offset `d` in an array of the given dimensions; `none` if no element starts there. -/
def dimIndex : List (Nat × Nat) → Nat → Option (List Nat)
  | [], d => if d = 0 then some [] else none
  | (n, st) :: rest, d =>
    if d / st < n then (dimIndex rest (d % st)).map (fun l => (d / st) :: l) else none

/-- The register of a table that offset `o` names, with its index. -/
def RegDesc.at? (r : RegDesc) (o : Nat) : Option (List Nat) :=
  if o < r.off then none else
    match dimIndex r.dims (o - r.off) with
    | some (i :: l) => some ((i + r.first) :: l)
    | x => x

/-- Finds the register that occupies CSR offset `o` (R7: `none` is an offset no register occupies). -/
def findReg : List RegDesc → Nat → Option (RegDesc × List Nat)
  | [], _ => none
  | r :: rs, o =>
    match r.at? o with
    | some l => some (r, l)
    | none => findReg rs o

/-- Base offset of a memory controller's block: HBM controllers are m = 0–3, DDR5 controllers m = 4–11 (R339). -/
def mcBase (m : Nat) : Nat := if m < 4 then 0x300000 + m * 0x10000 else 0x380000 + (m - 4) * 0x10000

namespace Reg

def IDN_PART : Nat := 0x0
def IDN_STEP : Nat := 0x8
def IDN_COMPAT : Nat := 0x10
def STR_STATUS : Nat := 0x20000
def STR_VERSION : Nat := 0x20008
def STR_LEVEL : Nat := 0x20010
def STR_DIGEST (i : Nat) : Nat := 0x20018 + i * 0x8
def STR_STAGE_ADDR : Nat := 0x20060
def STR_STAGE_LEN : Nat := 0x20068
def STR_STAGE_CMD : Nat := 0x20070
def STR_STAGE : Nat := 0x20078
def STR_LIVE_CTL : Nat := 0x20080
def STR_LIVE_GEN : Nat := 0x20088
def STR_PROG (i : Nat) : Nat := 0x20100 + i * 0x8
def STR_LANEGRP (i : Nat) : Nat := 0x20200 + i * 0x8
def CLU_CTL (i : Nat) : Nat := 0x100000 + i * 0x10000
def CLU_DVIOL (i : Nat) : Nat := 0x100008 + i * 0x10000
def CLU_LATE (i : Nat) : Nat := 0x100010 + i * 0x10000
def CLU_POSTERR (i : Nat) : Nat := 0x100018 + i * 0x10000
def CLU_CORE_RST (i : Nat) : Nat := 0x100100 + i * 0x10000
def CLU_THCMD (i j : Nat) : Nat := 0x100400 + i * 0x10000 + j * 0x8
def CLU_THSTAT (i j : Nat) : Nat := 0x100800 + i * 0x10000 + j * 0x8
def LYC_CAPS : Nat := 0xC0000
def LYC_ALGEN : Nat := 0xC0008
def CLU_LYCTL (i : Nat) : Nat := 0x102000 + i * 0x10000
def CLU_LYFLUSH (i : Nat) : Nat := 0x102008 + i * 0x10000
def CLU_LYSLOTS (i : Nat) : Nat := 0x102010 + i * 0x10000
def CLU_LYBUSY (i : Nat) : Nat := 0x102018 + i * 0x10000
def CLU_LYABANDON (i : Nat) : Nat := 0x102020 + i * 0x10000
def CLU_LYSWITCH (i : Nat) : Nat := 0x102028 + i * 0x10000
def CLU_LYPOISON (i : Nat) : Nat := 0x102030 + i * 0x10000
def CLU_LYREFCNT (i : Nat) : Nat := 0x102038 + i * 0x10000
def CLU_LYREFUSE (i j : Nat) : Nat := 0x102400 + i * 0x10000 + j * 0x8
def SPN_CTL : Nat := 0x80000
def SPN_HSEED : Nat := 0x80008
def SPN_STORE : Nat := 0x80010
def SPN_STORESTAT : Nat := 0x80018
def SPN_BP_ETH : Nat := 0x80020
def SPN_BP_HOST : Nat := 0x80028
def SPN_BP_FAB : Nat := 0x80030
def SPN_POLICY : Nat := 0x80038
def SPN_CNT_DISP : Nat := 0x80040
def SPN_CNT_CHK : Nat := 0x80048
def SPN_CNT_WAKE : Nat := 0x80050
def SPN_BPSTAT : Nat := 0x80058
def SPN_GRPWT (i : Nat) : Nat := 0x81000 + i * 0x8
def SPN_GRPMEM (i : Nat) : Nat := 0x81200 + i * 0x8
def SPN_GRPWAKE (i : Nat) : Nat := 0x81400 + i * 0x8
def SPN_GRPSTAT (i : Nat) : Nat := 0x81600 + i * 0x8
def SPN_QSTAT (i : Nat) : Nat := 0x82000 + i * 0x8
def SPN_QLIM (i : Nat) : Nat := 0x84000 + i * 0x8
def CLU_PWRCTL (i : Nat) : Nat := 0x101000 + i * 0x10000
def CLU_PWRSTAT (i : Nat) : Nat := 0x101008 + i * 0x10000
def CLU_PWRCNT (i : Nat) : Nat := 0x101010 + i * 0x10000
def BRG_CTL : Nat := 0x90000
def BRG_HOLD : Nat := 0x90008
def BRG_STORE : Nat := 0x90010
def BRG_CHILDSTAT : Nat := 0x90018
def BRG_CNT_REL : Nat := 0x90020
def BRG_CNT_DROP : Nat := 0x90028
def BRG_CNT_CHILD : Nat := 0x90030
def BRG_CNT_SKIP : Nat := 0x90038
def BRG_CNT_LATE : Nat := 0x90040
def BRG_CNT_BAD : Nat := 0x90048
def BRG_LASTSKIP : Nat := 0x90050
def BRG_LASTBAD : Nat := 0x90058
def BRG_LANE_SEL : Nat := 0x90060
def BRG_LANE_STAT : Nat := 0x90068
def BRG_TURN (i : Nat) : Nat := 0x98000 + i * 0x8
def BRG_PASS (i : Nat) : Nat := 0x98020 + i * 0x8
def BPM_CTL : Nat := 0xA0000
def BPM_TCHK0 : Nat := 0xA0008
def BPM_TCHK1 : Nat := 0xA0010
def BPM_TCHK_LAST : Nat := 0xA0018
def BPM_UNCHK : Nat := 0xA0020
def BPM_FREEERR : Nat := 0xA0028
def BPM_FREEERR_ADDR : Nat := 0xA0030
def BPM_REBUILD : Nat := 0xA0038
def BPM_REBUILD_CMD : Nat := 0xA0040
def BPM_REBUILD_STAT : Nat := 0xA0048
def BPM_PCFG (i : Nat) : Nat := 0xA1000 + i * 0x80
def BPM_PBASE (i : Nat) : Nat := 0xA1008 + i * 0x80
def BPM_PBUF (i : Nat) : Nat := 0xA1010 + i * 0x80
def BPM_PHEAD (i : Nat) : Nat := 0xA1018 + i * 0x80
def BPM_PTAIL (i : Nat) : Nat := 0xA1020 + i * 0x80
def BPM_PCOUNT (i : Nat) : Nat := 0xA1028 + i * 0x80
def BPM_PRING (i : Nat) : Nat := 0xA1030 + i * 0x80
def BPM_POUT (i : Nat) : Nat := 0xA1038 + i * 0x80
def BPM_PHIGH (i : Nat) : Nat := 0xA1040 + i * 0x80
def BPM_PXON (i : Nat) : Nat := 0xA1048 + i * 0x80
def BPM_PRINGBASE (i : Nat) : Nat := 0xA1050 + i * 0x80
def BPM_PAUDIT (i : Nat) : Nat := 0xA1058 + i * 0x80
def BPM_PAUDITC (i : Nat) : Nat := 0xA1060 + i * 0x80
def TBL_CTL : Nat := 0xB0000
def TBL_CMD : Nat := 0xB0008
def TBL_CMD_D0 : Nat := 0xB0010
def TBL_CMD_D1 : Nat := 0xB0018
def TBL_CMD_D2 : Nat := 0xB0020
def TBL_CMD_ACT : Nat := 0xB0028
def TBL_CMD_LOC : Nat := 0xB0030
def TBL_CMD_STAT : Nat := 0xB0038
def TBL_LRN_CTL : Nat := 0xB0040
def TBL_LRN_PORTS0 : Nat := 0xB0048
def TBL_LRN_PORTS1 : Nat := 0xB0050
def TBL_LRN_ACT : Nat := 0xB0058
def TBL_LRN_STAT : Nat := 0xB0060
def TBL_LRN_CNT0 : Nat := 0xB0068
def TBL_LRN_CNT1 : Nat := 0xB0070
def TBL_LASTPAR : Nat := 0xB0078
def TBL_LASTMOVE0 : Nat := 0xB0080
def TBL_LASTMOVE1 : Nat := 0xB0088
def TBL_T_CFG (i : Nat) : Nat := 0xB1000 + i * 0x80
def TBL_T_BASE (i : Nat) : Nat := 0xB1008 + i * 0x80
def TBL_T_SEED0 (i : Nat) : Nat := 0xB1010 + i * 0x80
def TBL_T_SEED1 (i : Nat) : Nat := 0xB1018 + i * 0x80
def TBL_T_COUNT (i : Nat) : Nat := 0xB1020 + i * 0x80
def TBL_T_STAT (i : Nat) : Nat := 0xB1028 + i * 0x80
def TBL_T_AGE (i : Nat) : Nat := 0xB1030 + i * 0x80
def TBL_T_MOVES (i : Nat) : Nat := 0xB1038 + i * 0x80
def TBL_T_STASHV (i : Nat) : Nat := 0xB1040 + i * 0x80
def TBL_STASH (i j k : Nat) : Nat := 0xB4000 + i * 0x100 + j * 0x20 + k * 0x8
def GKO_LOCK (i : Nat) : Nat := 0x70000 + i * 0x8
def GKO_CTL : Nat := 0x78000
def GKO_CNT0 : Nat := 0x78008
def GKO_CNT1 : Nat := 0x78010
def GKO_CNT2 : Nat := 0x78018
def GKO_CNT3 : Nat := 0x78020
def GKO_WAITERS : Nat := 0x78028
def GKO_LASTABN : Nat := 0x78030
def GKO_LASTFOREIGN : Nat := 0x78038
def GKO_NOTIFY (i : Nat) : Nat := 0x78100 + i * 0x8
def GKO_NOTSTAT (i : Nat) : Nat := 0x78200 + i * 0x8
def EVT_CFG (i : Nat) : Nat := 0x60000 + i * 0x8
def EVT_DST (i : Nat) : Nat := 0x64000 + i * 0x8
def EVT_WG_CTL (i : Nat) : Nat := 0x68000 + i * 0x20
def EVT_WG_M0 (i : Nat) : Nat := 0x68008 + i * 0x20
def EVT_WG_M1 (i : Nat) : Nat := 0x68010 + i * 0x20
def EVT_WG_M2 (i : Nat) : Nat := 0x68018 + i * 0x20
def EVT_CTL : Nat := 0x6A000
def EVT_RING : Nat := 0x6A008
def EVT_STAT : Nat := 0x6A010
def EVT_SVCQ : Nat := 0x6A018
def EVT_SVCQSTAT : Nat := 0x6A020
def EVT_PEND (i : Nat) : Nat := 0x6A100 + i * 0x8
def EVT_OVR (i : Nat) : Nat := 0x6A400 + i * 0x8
def MC_ID (m : Nat) : Nat := mcBase m + 0x0
def MC_CTL (m : Nat) : Nat := mcBase m + 0x8
def MC_PDTIMER (m : Nat) : Nat := mcBase m + 0x10
def MC_REFLIMIT (m : Nat) : Nat := mcBase m + 0x18
def MC_TRAINCTL (m : Nat) : Nat := mcBase m + 0x20
def MC_PEGCMD (m : Nat) : Nat := mcBase m + 0x28
def MC_ERRCNT (m : Nat) : Nat := mcBase m + 0x30
def MC_ERRLAST (m : Nat) : Nat := mcBase m + 0x38
def MC_RETLOSS (m : Nat) : Nat := mcBase m + 0x40
def MC_DIMM (m : Nat) : Nat := mcBase m + 0x48
def MC_HASH (m i : Nat) : Nat := mcBase m + 0x100 + i * 0x8
def MC_COLSEL (m : Nat) : Nat := mcBase m + 0x180
def MC_ROWSEL (m i : Nat) : Nat := mcBase m + 0x188 + i * 0x8
def MC_HASHCFG (m : Nat) : Nat := mcBase m + 0x1A0
def MC_RTCFG (m i : Nat) : Nat := mcBase m + 0x200 + i * 0x8
def MC_RTSTAT (m i : Nat) : Nat := mcBase m + 0x240 + i * 0x8
def MC_UNIT (m i : Nat) : Nat := mcBase m + 0x400 + i * 0x8
def MC_REFSTAT (m i : Nat) : Nat := mcBase m + 0x800 + i * 0x8
def HST_CTL : Nat := 0x500000
def HST_CTO : Nat := 0x500008
def HST_RXHOLD : Nat := 0x500010
def HST_CNT : Nat := 0x500018
def HST_PFAULT : Nat := 0x500020
def HST_PFSTAT : Nat := 0x500028
def HST_MBOXQ : Nat := 0x500030
def HST_LINK (i : Nat) : Nat := 0x500100 + i * 0x8
def HST_LDCFG (i : Nat) : Nat := 0x501000 + i * 0x8
def HST_POOLMAP (i : Nat) : Nat := 0x510000 + i * 0x8
def HST_TXQ_BASE (i : Nat) : Nat := 0x520000 + i * 0x20
def HST_TXQ_CFG (i : Nat) : Nat := 0x520008 + i * 0x20
def HST_TXQ_STAT (i : Nat) : Nat := 0x520010 + i * 0x20
def HST_RXQ_BASE (i : Nat) : Nat := 0x540000 + i * 0x20
def HST_RXQ_CBASE (i : Nat) : Nat := 0x540008 + i * 0x20
def HST_RXQ_CFG (i : Nat) : Nat := 0x540010 + i * 0x20
def HST_RXQ_STAT (i : Nat) : Nat := 0x540018 + i * 0x20
def MAC_PCFG (i : Nat) : Nat := 0x400000 + i * 0x1000
def MAC_PSTAT (i : Nat) : Nat := 0x400008 + i * 0x1000
def MAC_PRIMAP (i : Nat) : Nat := 0x400010 + i * 0x1000
def MAC_FCQ (i : Nat) : Nat := 0x400018 + i * 0x1000
def MAC_TSADJ (i : Nat) : Nat := 0x400020 + i * 0x1000
def MAC_RXPAUSE (i : Nat) : Nat := 0x400028 + i * 0x1000
def MAC_TXTS (i : Nat) : Nat := 0x400030 + i * 0x1000
def MAC_TXTS_LO (i : Nat) : Nat := 0x400038 + i * 0x1000
def MAC_TXTS_HI (i : Nat) : Nat := 0x400040 + i * 0x1000
def MAC_TXTSSTAT (i : Nat) : Nat := 0x400048 + i * 0x1000
def MAC_CTL (i : Nat) : Nat := 0x400050 + i * 0x1000
def MAC_PAUSESA (i : Nat) : Nat := 0x400058 + i * 0x1000
def MAC_CNT (i j : Nat) : Nat := 0x400100 + i * 0x1000 + j * 0x8
def OBX_ID : Nat := 0x600000
def OBX_TAG : Nat := 0x600008
def OBX_CTL : Nat := 0x600010
def OBX_RTO : Nat := 0x600018
def OBX_EXPWIN : Nat := 0x600020
def OBX_NOTICE_CMD : Nat := 0x600028
def OBX_NOTICE_LAST : Nat := 0x600030
def OBX_MUTESTAT : Nat := 0x600038
def OBX_CNT0 : Nat := 0x600040
def OBX_CNT1 : Nat := 0x600048
def OBX_TIME_CTL : Nat := 0x600050
def OBX_TIME_LO : Nat := 0x600058
def OBX_TIME_HI : Nat := 0x600060
def OBX_TIME_SET : Nat := 0x600068
def OBX_TIME_STAT : Nat := 0x600070
def OBX_VCCFG (i : Nat) : Nat := 0x600100 + i * 0x8
def OBX_MUTE (i : Nat) : Nat := 0x601000 + i * 0x8
def OBX_MEMBER (i : Nat) : Nat := 0x602000 + i * 0x8
def OBX_PEERMEM (i j : Nat) : Nat := 0x603000 + i * 0x100 + j * 0x8
def OBX_ROUTE (i : Nat) : Nat := 0x610000 + i * 0x8
def OBX_LCFG (i : Nat) : Nat := 0x608000 + i * 0x100
def OBX_LSTAT (i : Nat) : Nat := 0x608008 + i * 0x100
def OBX_LCNT (i j : Nat) : Nat := 0x608040 + i * 0x100 + j * 0x8
def EPC_CTL : Nat := 0x30000
def EPC_T0_LO : Nat := 0x30008
def EPC_T0_HI : Nat := 0x30010
def EPC_ANCHOR : Nat := 0x30018
def EPC_NUM : Nat := 0x30020
def EPC_PERIOD : Nat := 0x30028
def EPC_COMMIT : Nat := 0x30030
def EPC_GATE : Nat := 0x30038
def EPC_STAGE : Nat := 0x30040
def EPC_LAST : Nat := 0x30048
def EPC_CNT0 : Nat := 0x30050
def EPC_CNT1 : Nat := 0x30058
def DST_CFG : Nat := 0x700000
def DST_CMD : Nat := 0x700008
def DST_STAT : Nat := 0x700010
def DST_HB : Nat := 0x700018
def DST_LOG : Nat := 0x700020
def DST_SHADOW : Nat := 0x700028
def DST_PSHADOW : Nat := 0x700030
def DST_LOCKS : Nat := 0x700038
def DST_SEQGAP : Nat := 0x700040
def DST_COMMITTED : Nat := 0x700048
def DST_NLS : Nat := 0x700050
def DST_BACKLOG : Nat := 0x700058
def DST_BACKHWM : Nat := 0x700060
def DST_CNT0 : Nat := 0x700068
def DST_CNT1 : Nat := 0x700070
def DST_RBASE (i : Nat) : Nat := 0x700100 + i * 0x10
def DST_RLEN (i : Nat) : Nat := 0x700108 + i * 0x10
def CRS_CTL : Nat := 0x40000
def CRS_CNT : Nat := 0x40008
def CRS_BOOT : Nat := 0x40010
def CRS_REFMON : Nat := 0x40018
def CRS_CLURST : Nat := 0x40020
def CRS_CLUHOLD : Nat := 0x40028
def CRS_CLUSTAT : Nat := 0x40030
def CRS_PLLSTAT (i : Nat) : Nat := 0x40100 + i * 0x8
def CRS_DOMSTAT (i : Nat) : Nat := 0x40400 + i * 0x8
def PWR_CTL : Nat := 0x50000
def PWR_STATE : Nat := 0x50008
def PWR_VIN : Nat := 0x50010
def PWR_VINSTAT : Nat := 0x50018
def PWR_RSTCAUSE : Nat := 0x50020
def PWR_THERM : Nat := 0x50028
def PWR_TEMP (i : Nat) : Nat := 0x50030 + i * 0x8
def PWR_PLAN (i : Nat) : Nat := 0x50100 + i * 0x8
def PWR_FUSE (i : Nat) : Nat := 0x50120 + i * 0x8
def PWR_CHM_CFG : Nat := 0x50140
def PWR_CHM_STAT : Nat := 0x50148
def PWR_RO (i : Nat) : Nat := 0x50200 + i * 0x8
def PWR_REP (i : Nat) : Nat := 0x50600 + i * 0x8
def PWR_LIFE : Nat := 0x50800
def PWR_LIFE_CFG : Nat := 0x50808
def PWR_DIEID : Nat := 0x50810
def PWR_LIFEOTP : Nat := 0x50818
def SVC_CTL : Nat := 0x800000
def SVC_BOOT : Nat := 0x800008
def SVC_SLOT (i : Nat) : Nat := 0x800010 + i * 0x8
def SVC_OTP : Nat := 0x800020
def SVC_SEC : Nat := 0x800028
def SVC_PRES : Nat := 0x800030
def SVC_CMD : Nat := 0x800038
def SVC_CMDSTAT : Nat := 0x800040
def SVC_UPD : Nat := 0x800048
def SVC_UPDOFF : Nat := 0x800050
def SVC_SITCNT : Nat := 0x800058
def SVC_PORT : Nat := 0x800060
def SVC_MAC : Nat := 0x800068
def SVC_UART : Nat := 0x800070
def SVC_NLS : Nat := 0x800078
def PRT_SEAL : Nat := 0x10000
def PRT_DEFAULT : Nat := 0x10008
def PRT_VIOL : Nat := 0x10010
def PRT_VIOLA : Nat := 0x10018
def PRT_CNT : Nat := 0x10020
def PRT_RBASE (i : Nat) : Nat := 0x10100 + i * 0x18
def PRT_RLIM (i : Nat) : Nat := 0x10108 + i * 0x18
def PRT_RPERM (i : Nat) : Nat := 0x10110 + i * 0x18
def BKG_CTL : Nat := 0x900000
def BKG_SCRUB : Nat := 0x900008
def BKG_SCRUB_LAST : Nat := 0x900010
def BKG_PSWEEP : Nat := 0x900018
def BKG_NLSCFG : Nat := 0x900020
def BKG_NLSSTAT : Nat := 0x900028
def BKG_AUDIT : Nat := 0x900030
def BKG_OVR : Nat := 0x900038
def BKG_TRING_BASE : Nat := 0x900040
def BKG_TRING_CFG : Nat := 0x900048
def BKG_TRING_WP : Nat := 0x900050
def BKG_TRING_RP : Nat := 0x900058
def BKG_TRING_LOST : Nat := 0x900060
def BKG_SCRUBCNT (i : Nat) : Nat := 0x900100 + i * 0x8

end Reg

namespace F

def IDN_PART_vendor : Fld := ⟨47, 32⟩
def IDN_PART_part : Fld := ⟨31, 16⟩
def IDN_PART_grade : Fld := ⟨15, 8⟩
def IDN_STEP_major : Fld := ⟨15, 8⟩
def IDN_STEP_minor : Fld := ⟨7, 0⟩
def IDN_COMPAT_level_max : Fld := ⟨15, 8⟩
def IDN_COMPAT_level_min : Fld := ⟨7, 0⟩
def STR_STATUS_section : Fld := ⟨27, 16⟩
def STR_STATUS_code : Fld := ⟨15, 8⟩
def STR_STATUS_state : Fld := ⟨3, 0⟩
def STR_VERSION_version : Fld := ⟨31, 0⟩
def STR_LEVEL_level : Fld := ⟨7, 0⟩
def STR_DIGEST_digest : Fld := ⟨47, 0⟩
def STR_STAGE_ADDR_addr : Fld := ⟨47, 6⟩
def STR_STAGE_LEN_len : Fld := ⟨24, 0⟩
def STR_STAGE_CMD_disarm : Fld := ⟨2, 2⟩
def STR_STAGE_CMD_arm : Fld := ⟨1, 1⟩
def STR_STAGE_CMD_verify : Fld := ⟨0, 0⟩
def STR_STAGE_busy_cnt : Fld := ⟨47, 40⟩
def STR_STAGE_section : Fld := ⟨39, 28⟩
def STR_STAGE_defers : Fld := ⟨27, 20⟩
def STR_STAGE_code : Fld := ⟨19, 12⟩
def STR_STAGE_state : Fld := ⟨2, 0⟩
def STR_LIVE_CTL_max_defer : Fld := ⟨7, 0⟩
def STR_LIVE_GEN_count : Fld := ⟨31, 0⟩
def STR_PROG_held : Fld := ⟨33, 33⟩
def STR_PROG_valid : Fld := ⟨32, 32⟩
def STR_PROG_prog_id : Fld := ⟨31, 0⟩
def STR_LANEGRP_first : Fld := ⟨13, 8⟩
def STR_LANEGRP_mode : Fld := ⟨7, 4⟩
def STR_LANEGRP_kind : Fld := ⟨1, 0⟩
def CLU_CTL_clr : Fld := ⟨1, 1⟩
def CLU_CTL_dchk_en : Fld := ⟨0, 0⟩
def CLU_DVIOL_count : Fld := ⟨31, 0⟩
def CLU_LATE_count : Fld := ⟨31, 0⟩
def CLU_POSTERR_last : Fld := ⟨34, 32⟩
def CLU_POSTERR_count : Fld := ⟨31, 0⟩
def CLU_CORE_RST_core : Fld := ⟨15, 0⟩
def CLU_THCMD_priv : Fld := ⟨23, 22⟩
def CLU_THCMD_pc : Fld := ⟨21, 4⟩
def CLU_THCMD_cmd : Fld := ⟨3, 0⟩
def CLU_THSTAT_pc : Fld := ⟨47, 30⟩
def CLU_THSTAT_priv : Fld := ⟨29, 28⟩
def CLU_THSTAT_th : Fld := ⟨27, 27⟩
def CLU_THSTAT_pkt : Fld := ⟨26, 26⟩
def CLU_THSTAT_discard : Fld := ⟨25, 18⟩
def CLU_THSTAT_cause : Fld := ⟨17, 12⟩
def CLU_THSTAT_badcmd : Fld := ⟨11, 4⟩
def CLU_THSTAT_doze : Fld := ⟨3, 3⟩
def CLU_THSTAT_state : Fld := ⟨2, 0⟩
def LYC_CAPS_algs : Fld := ⟨9, 0⟩
def LYC_ALGEN_en : Fld := ⟨9, 0⟩
def CLU_LYCTL_clr : Fld := ⟨0, 0⟩
def CLU_LYFLUSH_busy : Fld := ⟨9, 9⟩
def CLU_LYFLUSH_all : Fld := ⟨8, 8⟩
def CLU_LYFLUSH_thread : Fld := ⟨6, 0⟩
def CLU_LYSLOTS_used : Fld := ⟨31, 0⟩
def CLU_LYBUSY_maxrun : Fld := ⟨39, 32⟩
def CLU_LYBUSY_count : Fld := ⟨31, 0⟩
def CLU_LYABANDON_count : Fld := ⟨31, 0⟩
def CLU_LYSWITCH_saves : Fld := ⟨47, 24⟩
def CLU_LYSWITCH_loads : Fld := ⟨23, 0⟩
def CLU_LYPOISON_thread : Fld := ⟨46, 40⟩
def CLU_LYPOISON_count : Fld := ⟨31, 0⟩
def CLU_LYREFCNT_count : Fld := ⟨31, 0⟩
def CLU_LYREFUSE_alg : Fld := ⟨23, 16⟩
def CLU_LYREFUSE_op : Fld := ⟨15, 8⟩
def CLU_LYREFUSE_reason : Fld := ⟨7, 0⟩
def SPN_CTL_clr : Fld := ⟨3, 3⟩
def SPN_CTL_boost_en : Fld := ⟨2, 2⟩
def SPN_CTL_chk_mode : Fld := ⟨1, 1⟩
def SPN_HSEED_seed : Fld := ⟨31, 0⟩
def SPN_STORE_xon : Fld := ⟨35, 18⟩
def SPN_STORE_xoff : Fld := ⟨17, 0⟩
def SPN_STORESTAT_min_free : Fld := ⟨35, 18⟩
def SPN_STORESTAT_free : Fld := ⟨17, 0⟩
def SPN_BP_ETH_quota : Fld := ⟨47, 32⟩
def SPN_BP_ETH_xoff : Fld := ⟨31, 16⟩
def SPN_BP_ETH_xon : Fld := ⟨15, 0⟩
def SPN_BP_HOST_quota : Fld := ⟨47, 32⟩
def SPN_BP_HOST_xoff : Fld := ⟨31, 16⟩
def SPN_BP_HOST_xon : Fld := ⟨15, 0⟩
def SPN_BP_FAB_quota : Fld := ⟨47, 32⟩
def SPN_BP_FAB_xoff : Fld := ⟨31, 16⟩
def SPN_BP_FAB_xon : Fld := ⟨15, 0⟩
def SPN_POLICY_quiet_max : Fld := ⟨36, 32⟩
def SPN_POLICY_park_time : Fld := ⟨31, 16⟩
def SPN_POLICY_gate_time : Fld := ⟨15, 0⟩
def SPN_CNT_DISP_count : Fld := ⟨47, 0⟩
def SPN_CNT_CHK_count : Fld := ⟨31, 0⟩
def SPN_CNT_WAKE_paced : Fld := ⟨47, 24⟩
def SPN_CNT_WAKE_started : Fld := ⟨23, 0⟩
def SPN_BPSTAT_held : Fld := ⟨31, 16⟩
def SPN_BPSTAT_asserted : Fld := ⟨15, 0⟩
def SPN_GRPWT_weight : Fld := ⟨7, 0⟩
def SPN_GRPMEM_mask : Fld := ⟨23, 0⟩
def SPN_GRPWAKE_thr : Fld := ⟨15, 0⟩
def SPN_GRPSTAT_boosted : Fld := ⟨47, 47⟩
def SPN_GRPSTAT_waking : Fld := ⟨41, 37⟩
def SPN_GRPSTAT_run : Fld := ⟨36, 32⟩
def SPN_GRPSTAT_backlog : Fld := ⟨17, 0⟩
def SPN_QSTAT_valid : Fld := ⟨47, 47⟩
def SPN_QSTAT_group : Fld := ⟨41, 36⟩
def SPN_QSTAT_hwm : Fld := ⟨35, 18⟩
def SPN_QSTAT_depth : Fld := ⟨17, 0⟩
def SPN_QLIM_limit : Fld := ⟨17, 0⟩
def CLU_PWRCTL_mode : Fld := ⟨1, 0⟩
def CLU_PWRSTAT_wake_pend : Fld := ⟨4, 4⟩
def CLU_PWRSTAT_idle : Fld := ⟨3, 3⟩
def CLU_PWRSTAT_state : Fld := ⟨2, 0⟩
def CLU_PWRCNT_parks : Fld := ⟨47, 32⟩
def CLU_PWRCNT_gates : Fld := ⟨31, 16⟩
def CLU_PWRCNT_wakes : Fld := ⟨15, 0⟩
def BRG_CTL_clr : Fld := ⟨0, 0⟩
def BRG_HOLD_limit : Fld := ⟨15, 0⟩
def BRG_STORE_waiting : Fld := ⟨45, 32⟩
def BRG_STORE_hwm : Fld := ⟨29, 16⟩
def BRG_STORE_used : Fld := ⟨13, 0⟩
def BRG_CHILDSTAT_hwm : Fld := ⟨30, 16⟩
def BRG_CHILDSTAT_used : Fld := ⟨14, 0⟩
def BRG_CNT_REL_count : Fld := ⟨47, 0⟩
def BRG_CNT_DROP_count : Fld := ⟨47, 0⟩
def BRG_CNT_CHILD_refused : Fld := ⟨47, 32⟩
def BRG_CNT_CHILD_made : Fld := ⟨31, 0⟩
def BRG_CNT_SKIP_count : Fld := ⟨31, 0⟩
def BRG_CNT_LATE_count : Fld := ⟨31, 0⟩
def BRG_CNT_BAD_count : Fld := ⟨31, 0⟩
def BRG_LASTSKIP_valid : Fld := ⟨47, 47⟩
def BRG_LASTSKIP_lane : Fld := ⟨39, 24⟩
def BRG_LASTSKIP_seq : Fld := ⟨23, 0⟩
def BRG_LASTBAD_valid : Fld := ⟨47, 47⟩
def BRG_LASTBAD_child : Fld := ⟨46, 46⟩
def BRG_LASTBAD_why : Fld := ⟨45, 44⟩
def BRG_LASTBAD_kind : Fld := ⟨43, 40⟩
def BRG_LASTBAD_lane : Fld := ⟨39, 24⟩
def BRG_LASTBAD_seq : Fld := ⟨23, 0⟩
def BRG_LANE_SEL_lane : Fld := ⟨15, 0⟩
def BRG_LANE_STAT_next : Fld := ⟨47, 24⟩
def BRG_LANE_STAT_head : Fld := ⟨23, 0⟩
def BRG_TURN_turn : Fld := ⟨47, 0⟩
def BRG_PASS_pass : Fld := ⟨47, 0⟩
def BPM_CTL_audit_en : Fld := ⟨1, 1⟩
def BPM_CTL_clr : Fld := ⟨0, 0⟩
def BPM_TCHK0_fill : Fld := ⟨47, 24⟩
def BPM_TCHK0_pld : Fld := ⟨23, 0⟩
def BPM_TCHK1_lyre : Fld := ⟨47, 24⟩
def BPM_TCHK1_egress : Fld := ⟨23, 0⟩
def BPM_TCHK_LAST_valid : Fld := ⟨47, 47⟩
def BPM_TCHK_LAST_point : Fld := ⟨46, 44⟩
def BPM_TCHK_LAST_link : Fld := ⟨43, 43⟩
def BPM_TCHK_LAST_meta : Fld := ⟨42, 42⟩
def BPM_TCHK_LAST_tile : Fld := ⟨39, 0⟩
def BPM_UNCHK_count : Fld := ⟨31, 0⟩
def BPM_FREEERR_count : Fld := ⟨31, 0⟩
def BPM_FREEERR_ADDR_addr : Fld := ⟨47, 0⟩
def BPM_REBUILD_bitmap : Fld := ⟨47, 6⟩
def BPM_REBUILD_CMD_go : Fld := ⟨4, 4⟩
def BPM_REBUILD_CMD_pool : Fld := ⟨3, 0⟩
def BPM_REBUILD_STAT_state : Fld := ⟨47, 46⟩
def BPM_REBUILD_STAT_pool : Fld := ⟨43, 40⟩
def BPM_REBUILD_STAT_discarded : Fld := ⟨31, 0⟩
def BPM_PCFG_size_tiles : Fld := ⟨39, 31⟩
def BPM_PCFG_hbm : Fld := ⟨28, 28⟩
def BPM_PCFG_quadrant : Fld := ⟨27, 26⟩
def BPM_PCFG_talloc : Fld := ⟨25, 25⟩
def BPM_PCFG_valid : Fld := ⟨24, 24⟩
def BPM_PBASE_base : Fld := ⟨47, 0⟩
def BPM_PBUF_buffers : Fld := ⟨31, 0⟩
def BPM_PHEAD_head : Fld := ⟨47, 0⟩
def BPM_PTAIL_tail : Fld := ⟨47, 0⟩
def BPM_PCOUNT_cache : Fld := ⟨38, 32⟩
def BPM_PCOUNT_list : Fld := ⟨31, 0⟩
def BPM_PRING_entries : Fld := ⟨31, 0⟩
def BPM_POUT_exhausted : Fld := ⟨47, 47⟩
def BPM_POUT_out : Fld := ⟨31, 0⟩
def BPM_PHIGH_high : Fld := ⟨31, 0⟩
def BPM_PXON_xon : Fld := ⟨31, 0⟩
def BPM_PRINGBASE_base : Fld := ⟨47, 0⟩
def BPM_PAUDIT_result : Fld := ⟨47, 45⟩
def BPM_PAUDIT_range : Fld := ⟨44, 44⟩
def BPM_PAUDIT_walked : Fld := ⟨31, 0⟩
def BPM_PAUDITC_count : Fld := ⟨31, 0⟩
def TBL_CTL_clr : Fld := ⟨3, 3⟩
def TBL_CTL_max_path : Fld := ⟨2, 0⟩
def TBL_CMD_plen : Fld := ⟨27, 20⟩
def TBL_CMD_table : Fld := ⟨19, 15⟩
def TBL_CMD_all : Fld := ⟨14, 14⟩
def TBL_CMD_op : Fld := ⟨3, 0⟩
def TBL_CMD_D0_data : Fld := ⟨47, 0⟩
def TBL_CMD_D1_data : Fld := ⟨47, 0⟩
def TBL_CMD_D2_data : Fld := ⟨31, 0⟩
def TBL_CMD_ACT_action : Fld := ⟨47, 0⟩
def TBL_CMD_LOC_bucket : Fld := ⟨31, 4⟩
def TBL_CMD_LOC_slot : Fld := ⟨3, 0⟩
def TBL_CMD_STAT_busy : Fld := ⟨47, 47⟩
def TBL_CMD_STAT_status : Fld := ⟨39, 32⟩
def TBL_CMD_STAT_ver : Fld := ⟨31, 16⟩
def TBL_CMD_STAT_steps : Fld := ⟨15, 8⟩
def TBL_CMD_STAT_quar : Fld := ⟨0, 0⟩
def TBL_LRN_CTL_holddown : Fld := ⟨47, 32⟩
def TBL_LRN_CTL_en : Fld := ⟨5, 5⟩
def TBL_LRN_CTL_table : Fld := ⟨4, 0⟩
def TBL_LRN_PORTS0_ports : Fld := ⟨47, 0⟩
def TBL_LRN_PORTS1_ports : Fld := ⟨15, 0⟩
def TBL_LRN_ACT_upper : Fld := ⟨47, 0⟩
def TBL_LRN_STAT_depth : Fld := ⟨47, 35⟩
def TBL_LRN_STAT_filter : Fld := ⟨34, 26⟩
def TBL_LRN_STAT_cand : Fld := ⟨25, 17⟩
def TBL_LRN_CNT0_inserted : Fld := ⟨47, 24⟩
def TBL_LRN_CNT0_dropped : Fld := ⟨23, 0⟩
def TBL_LRN_CNT1_moves : Fld := ⟨47, 24⟩
def TBL_LRN_CNT1_nocand : Fld := ⟨23, 0⟩
def TBL_LASTPAR_valid : Fld := ⟨47, 47⟩
def TBL_LASTPAR_table : Fld := ⟨46, 42⟩
def TBL_LASTPAR_slot : Fld := ⟨41, 38⟩
def TBL_LASTPAR_bucket : Fld := ⟨27, 0⟩
def TBL_LASTMOVE0_key : Fld := ⟨47, 0⟩
def TBL_LASTMOVE1_valid : Fld := ⟨47, 47⟩
def TBL_LASTMOVE1_old : Fld := ⟨31, 24⟩
def TBL_LASTMOVE1_new : Fld := ⟨23, 16⟩
def TBL_LASTMOVE1_key : Fld := ⟨15, 0⟩
def TBL_T_CFG_period : Fld := ⟨47, 32⟩
def TBL_T_CFG_key_bits : Fld := ⟨31, 24⟩
def TBL_T_CFG_action_bits : Fld := ⟨23, 16⟩
def TBL_T_CFG_log2n : Fld := ⟨15, 11⟩
def TBL_T_CFG_quadrant : Fld := ⟨10, 9⟩
def TBL_T_CFG_learn : Fld := ⟨8, 8⟩
def TBL_T_CFG_age_en : Fld := ⟨7, 7⟩
def TBL_T_CFG_place : Fld := ⟨6, 6⟩
def TBL_T_CFG_kind : Fld := ⟨1, 0⟩
def TBL_T_BASE_base : Fld := ⟨47, 0⟩
def TBL_T_SEED0_seed : Fld := ⟨47, 0⟩
def TBL_T_SEED1_seed : Fld := ⟨47, 0⟩
def TBL_T_COUNT_stash : Fld := ⟨47, 44⟩
def TBL_T_COUNT_quar : Fld := ⟨43, 32⟩
def TBL_T_COUNT_count : Fld := ⟨31, 0⟩
def TBL_T_STAT_parity : Fld := ⟨47, 24⟩
def TBL_T_STAT_fail : Fld := ⟨23, 0⟩
def TBL_T_AGE_aged : Fld := ⟨47, 24⟩
def TBL_T_AGE_sweeps : Fld := ⟨23, 0⟩
def TBL_T_MOVES_steps : Fld := ⟨47, 0⟩
def TBL_T_STASHV_ver : Fld := ⟨15, 0⟩
def TBL_STASH_entry : Fld := ⟨47, 0⟩
def GKO_LOCK_word : Fld := ⟨47, 0⟩
def GKO_CTL_wait_limit : Fld := ⟨47, 32⟩
def GKO_CTL_rsv_ext : Fld := ⟨15, 8⟩
def GKO_CTL_clr : Fld := ⟨0, 0⟩
def GKO_CNT0_foreign : Fld := ⟨47, 24⟩
def GKO_CNT0_badid : Fld := ⟨23, 0⟩
def GKO_CNT1_abandoned : Fld := ⟨47, 24⟩
def GKO_CNT1_lapsed : Fld := ⟨23, 0⟩
def GKO_CNT2_timeout : Fld := ⟨47, 24⟩
def GKO_CNT2_regfull : Fld := ⟨23, 0⟩
def GKO_CNT3_stale : Fld := ⟨47, 24⟩
def GKO_CNT3_boost_rec : Fld := ⟨23, 0⟩
def GKO_WAITERS_hwm : Fld := ⟨29, 16⟩
def GKO_WAITERS_used : Fld := ⟨13, 0⟩
def GKO_LASTABN_valid : Fld := ⟨47, 47⟩
def GKO_LASTABN_lock : Fld := ⟨35, 24⟩
def GKO_LASTABN_agent : Fld := ⟨23, 0⟩
def GKO_LASTFOREIGN_valid : Fld := ⟨47, 47⟩
def GKO_LASTFOREIGN_lock : Fld := ⟨35, 24⟩
def GKO_LASTFOREIGN_agent : Fld := ⟨23, 0⟩
def GKO_NOTIFY_record : Fld := ⟨47, 0⟩
def GKO_NOTSTAT_ovf : Fld := ⟨47, 47⟩
def GKO_NOTSTAT_depth : Fld := ⟨8, 0⟩
def EVT_CFG_loss : Fld := ⟨47, 40⟩
def EVT_CFG_ovr : Fld := ⟨39, 39⟩
def EVT_CFG_state : Fld := ⟨38, 37⟩
def EVT_CFG_ack : Fld := ⟨36, 36⟩
def EVT_CFG_raw : Fld := ⟨35, 35⟩
def EVT_CFG_merged : Fld := ⟨31, 24⟩
def EVT_CFG_coal_time : Fld := ⟨23, 16⟩
def EVT_CFG_coal_cnt : Fld := ⟨15, 12⟩
def EVT_CFG_prio : Fld := ⟨11, 9⟩
def EVT_CFG_autoack : Fld := ⟨8, 8⟩
def EVT_CFG_mode : Fld := ⟨7, 7⟩
def EVT_CFG_en : Fld := ⟨6, 6⟩
def EVT_CFG_route : Fld := ⟨2, 0⟩
def EVT_DST_sub : Fld := ⟨26, 16⟩
def EVT_DST_target : Fld := ⟨13, 0⟩
def EVT_WG_CTL_one : Fld := ⟨5, 5⟩
def EVT_WG_CTL_cluster : Fld := ⟨4, 0⟩
def EVT_WG_M0_mask : Fld := ⟨47, 0⟩
def EVT_WG_M1_mask : Fld := ⟨47, 0⟩
def EVT_WG_M2_mask : Fld := ⟨31, 0⟩
def EVT_CTL_clr : Fld := ⟨0, 0⟩
def EVT_RING_bell : Fld := ⟨6, 0⟩
def EVT_STAT_delivered : Fld := ⟨47, 24⟩
def EVT_STAT_undeliv : Fld := ⟨23, 0⟩
def EVT_SVCQ_valid : Fld := ⟨47, 47⟩
def EVT_SVCQ_source : Fld := ⟨10, 0⟩
def EVT_SVCQSTAT_depth : Fld := ⟨9, 0⟩
def EVT_PEND_bits : Fld := ⟨47, 0⟩
def EVT_OVR_bits : Fld := ⟨47, 0⟩
def MC_ID_kind : Fld := ⟨15, 12⟩
def MC_ID_instance : Fld := ⟨11, 8⟩
def MC_ID_units : Fld := ⟨5, 0⟩
def MC_CTL_fgr : Fld := ⟨4, 4⟩
def MC_CTL_refmode : Fld := ⟨3, 3⟩
def MC_CTL_pd_en : Fld := ⟨2, 2⟩
def MC_CTL_clr : Fld := ⟨0, 0⟩
def MC_PDTIMER_timer : Fld := ⟨15, 0⟩
def MC_REFLIMIT_eff : Fld := ⟨7, 4⟩
def MC_REFLIMIT_limit : Fld := ⟨3, 0⟩
def MC_TRAINCTL_track_ms : Fld := ⟨47, 32⟩
def MC_TRAINCTL_grant_wait : Fld := ⟨31, 24⟩
def MC_TRAINCTL_retry : Fld := ⟨23, 16⟩
def MC_TRAINCTL_ue_retire : Fld := ⟨15, 8⟩
def MC_PEGCMD_unit : Fld := ⟨8, 4⟩
def MC_PEGCMD_cmd : Fld := ⟨3, 0⟩
def MC_ERRCNT_ce : Fld := ⟨47, 24⟩
def MC_ERRCNT_ue : Fld := ⟨23, 0⟩
def MC_ERRLAST_valid : Fld := ⟨47, 47⟩
def MC_ERRLAST_ue : Fld := ⟨46, 46⟩
def MC_ERRLAST_unit : Fld := ⟨45, 41⟩
def MC_ERRLAST_addr : Fld := ⟨32, 0⟩
def MC_RETLOSS_listlost : Fld := ⟨47, 47⟩
def MC_RETLOSS_purged : Fld := ⟨46, 24⟩
def MC_RETLOSS_discarded : Fld := ⟨23, 0⟩
def MC_DIMM_cap_gib : Fld := ⟨17, 8⟩
def MC_DIMM_height : Fld := ⟨7, 6⟩
def MC_DIMM_width : Fld := ⟨5, 5⟩
def MC_DIMM_density : Fld := ⟨4, 4⟩
def MC_DIMM_ranks : Fld := ⟨3, 2⟩
def MC_DIMM_dimms : Fld := ⟨1, 0⟩
def MC_HASH_mask : Fld := ⟨47, 0⟩
def MC_COLSEL_sel : Fld := ⟨47, 0⟩
def MC_ROWSEL_sel : Fld := ⟨47, 0⟩
def MC_HASHCFG_nrow : Fld := ⟨23, 16⟩
def MC_HASHCFG_ncol : Fld := ⟨15, 8⟩
def MC_HASHCFG_n : Fld := ⟨4, 0⟩
def MC_RTCFG_en : Fld := ⟨47, 47⟩
def MC_RTCFG_client : Fld := ⟨46, 44⟩
def MC_RTCFG_depth : Fld := ⟨33, 22⟩
def MC_RTCFG_exit : Fld := ⟨21, 11⟩
def MC_RTCFG_enter : Fld := ⟨10, 0⟩
def MC_RTSTAT_panic : Fld := ⟨47, 47⟩
def MC_RTSTAT_level : Fld := ⟨46, 35⟩
def MC_RTSTAT_underruns : Fld := ⟨23, 12⟩
def MC_RTSTAT_panics : Fld := ⟨11, 0⟩
def MC_UNIT_temp : Fld := ⟨47, 40⟩
def MC_UNIT_retrains : Fld := ⟨39, 32⟩
def MC_UNIT_why : Fld := ⟨7, 4⟩
def MC_UNIT_forced : Fld := ⟨3, 3⟩
def MC_UNIT_state : Fld := ⟨2, 0⟩
def MC_REFSTAT_forced : Fld := ⟨31, 8⟩
def MC_REFSTAT_owed : Fld := ⟨3, 0⟩
def HST_CTL_clr : Fld := ⟨0, 0⟩
def HST_CTO_limit : Fld := ⟨15, 0⟩
def HST_RXHOLD_limit : Fld := ⟨15, 0⟩
def HST_CNT_late : Fld := ⟨47, 24⟩
def HST_CNT_dbrej : Fld := ⟨23, 0⟩
def HST_PFAULT_valid : Fld := ⟨47, 47⟩
def HST_PFAULT_kind : Fld := ⟨46, 45⟩
def HST_PFAULT_wr : Fld := ⟨44, 44⟩
def HST_PFAULT_ld : Fld := ⟨39, 36⟩
def HST_PFAULT_dpa : Fld := ⟨35, 0⟩
def HST_PFSTAT_ovf : Fld := ⟨47, 47⟩
def HST_PFSTAT_depth : Fld := ⟨6, 0⟩
def HST_MBOXQ_valid : Fld := ⟨47, 47⟩
def HST_MBOXQ_agent : Fld := ⟨13, 0⟩
def HST_LINK_present : Fld := ⟨47, 47⟩
def HST_LINK_up : Fld := ⟨46, 46⟩
def HST_LINK_cxl : Fld := ⟨45, 45⟩
def HST_LINK_flit : Fld := ⟨44, 44⟩
def HST_LINK_half_reset : Fld := ⟨43, 43⟩
def HST_LINK_mld : Fld := ⟨42, 42⟩
def HST_LINK_speed : Fld := ⟨41, 38⟩
def HST_LINK_width : Fld := ⟨37, 33⟩
def HST_LINK_vfs : Fld := ⟨7, 0⟩
def HST_LDCFG_valid : Fld := ⟨47, 47⟩
def HST_LDCFG_link : Fld := ⟨46, 43⟩
def HST_LDCFG_map_len : Fld := ⟨28, 16⟩
def HST_LDCFG_map_base : Fld := ⟨11, 0⟩
def HST_POOLMAP_valid : Fld := ⟨47, 47⟩
def HST_POOLMAP_rd : Fld := ⟨46, 46⟩
def HST_POOLMAP_wr : Fld := ⟨45, 45⟩
def HST_POOLMAP_seg : Fld := ⟨11, 0⟩
def HST_TXQ_BASE_addr : Fld := ⟨47, 6⟩
def HST_TXQ_CFG_en : Fld := ⟨47, 47⟩
def HST_TXQ_CFG_log2size : Fld := ⟨44, 40⟩
def HST_TXQ_CFG_credits : Fld := ⟨39, 27⟩
def HST_TXQ_CFG_idx : Fld := ⟨23, 16⟩
def HST_TXQ_CFG_func : Fld := ⟨13, 0⟩
def HST_TXQ_STAT_state : Fld := ⟨47, 46⟩
def HST_TXQ_STAT_cause : Fld := ⟨45, 43⟩
def HST_TXQ_STAT_head : Fld := ⟨31, 0⟩
def HST_RXQ_BASE_addr : Fld := ⟨47, 6⟩
def HST_RXQ_CBASE_addr : Fld := ⟨47, 6⟩
def HST_RXQ_CFG_en : Fld := ⟨47, 47⟩
def HST_RXQ_CFG_log2size : Fld := ⟨44, 40⟩
def HST_RXQ_CFG_idx : Fld := ⟨23, 16⟩
def HST_RXQ_CFG_func : Fld := ⟨13, 0⟩
def HST_RXQ_STAT_state : Fld := ⟨47, 46⟩
def HST_RXQ_STAT_nobuf : Fld := ⟨45, 24⟩
def HST_RXQ_STAT_toolong : Fld := ⟨23, 0⟩
def MAC_PCFG_en : Fld := ⟨47, 47⟩
def MAC_PCFG_an_en : Fld := ⟨46, 46⟩
def MAC_PCFG_fc : Fld := ⟨45, 44⟩
def MAC_PCFG_defprio : Fld := ⟨43, 41⟩
def MAC_PCFG_maxlen : Fld := ⟨40, 27⟩
def MAC_PSTAT_half_reset : Fld := ⟨47, 47⟩
def MAC_PSTAT_pcs_lock : Fld := ⟨46, 46⟩
def MAC_PSTAT_fec_align : Fld := ⟨45, 45⟩
def MAC_PSTAT_rfault : Fld := ⟨44, 44⟩
def MAC_PSTAT_mode : Fld := ⟨43, 40⟩
def MAC_PSTAT_state : Fld := ⟨1, 0⟩
def MAC_PRIMAP_prio : Fld := ⟨23, 0⟩
def MAC_FCQ_quanta : Fld := ⟨15, 0⟩
def MAC_TSADJ_tx : Fld := ⟨31, 16⟩
def MAC_TSADJ_rx : Fld := ⟨15, 0⟩
def MAC_RXPAUSE_paused : Fld := ⟨7, 0⟩
def MAC_TXTS_valid : Fld := ⟨47, 47⟩
def MAC_TXTS_child : Fld := ⟨46, 46⟩
def MAC_TXTS_index : Fld := ⟨45, 40⟩
def MAC_TXTS_lane : Fld := ⟨39, 24⟩
def MAC_TXTS_seq : Fld := ⟨23, 0⟩
def MAC_TXTS_LO_time : Fld := ⟨47, 0⟩
def MAC_TXTS_HI_time : Fld := ⟨15, 0⟩
def MAC_TXTSSTAT_ovf : Fld := ⟨47, 47⟩
def MAC_TXTSSTAT_depth : Fld := ⟨6, 0⟩
def MAC_CTL_clr : Fld := ⟨0, 0⟩
def MAC_PAUSESA_addr : Fld := ⟨47, 0⟩
def MAC_CNT_count : Fld := ⟨47, 0⟩
def OBX_ID_isolated : Fld := ⟨11, 11⟩
def OBX_ID_joined : Fld := ⟨10, 10⟩
def OBX_ID_devid : Fld := ⟨9, 0⟩
def OBX_TAG_tag : Fld := ⟨31, 0⟩
def OBX_CTL_max_hops : Fld := ⟨4, 1⟩
def OBX_CTL_clr : Fld := ⟨0, 0⟩
def OBX_RTO_limit : Fld := ⟨15, 0⟩
def OBX_EXPWIN_base : Fld := ⟨47, 34⟩
def OBX_NOTICE_CMD_notice : Fld := ⟨47, 0⟩
def OBX_NOTICE_LAST_id : Fld := ⟨15, 0⟩
def OBX_MUTESTAT_overflow : Fld := ⟨14, 14⟩
def OBX_MUTESTAT_hwm : Fld := ⟨13, 7⟩
def OBX_MUTESTAT_used : Fld := ⟨6, 0⟩
def OBX_CNT0_late : Fld := ⟨47, 24⟩
def OBX_CNT0_mutedrop : Fld := ⟨23, 0⟩
def OBX_CNT1_nlost : Fld := ⟨47, 36⟩
def OBX_CNT1_stomped : Fld := ⟨35, 24⟩
def OBX_CNT1_partial : Fld := ⟨23, 12⟩
def OBX_CNT1_nonmember : Fld := ⟨11, 0⟩
def OBX_TIME_CTL_step_en : Fld := ⟨1, 1⟩
def OBX_TIME_CTL_master : Fld := ⟨0, 0⟩
def OBX_TIME_LO_time : Fld := ⟨47, 0⟩
def OBX_TIME_HI_time : Fld := ⟨15, 0⟩
def OBX_TIME_SET_time : Fld := ⟨47, 0⟩
def OBX_TIME_STAT_locked : Fld := ⟨47, 47⟩
def OBX_TIME_STAT_hops : Fld := ⟨38, 32⟩
def OBX_TIME_STAT_parent : Fld := ⟨31, 28⟩
def OBX_TIME_STAT_off : Fld := ⟨15, 0⟩
def OBX_VCCFG_class : Fld := ⟨15, 14⟩
def OBX_VCCFG_ordered : Fld := ⟨13, 13⟩
def OBX_VCCFG_credits : Fld := ⟨10, 0⟩
def OBX_MUTE_entry : Fld := ⟨47, 0⟩
def OBX_MEMBER_bits : Fld := ⟨47, 0⟩
def OBX_PEERMEM_bits : Fld := ⟨47, 0⟩
def OBX_ROUTE_cand : Fld := ⟨15, 0⟩
def OBX_LCFG_en : Fld := ⟨47, 47⟩
def OBX_LCFG_asym : Fld := ⟨15, 0⟩
def OBX_LSTAT_half_reset : Fld := ⟨47, 47⟩
def OBX_LSTAT_half : Fld := ⟨46, 46⟩
def OBX_LSTAT_reason : Fld := ⟨45, 42⟩
def OBX_LSTAT_peer : Fld := ⟨41, 32⟩
def OBX_LSTAT_state : Fld := ⟨2, 0⟩
def OBX_LCNT_count : Fld := ⟨47, 0⟩
def EPC_CTL_max_defer : Fld := ⟨15, 8⟩
def EPC_CTL_clr : Fld := ⟨1, 1⟩
def EPC_CTL_run : Fld := ⟨0, 0⟩
def EPC_T0_LO_time : Fld := ⟨47, 0⟩
def EPC_T0_HI_time : Fld := ⟨15, 0⟩
def EPC_ANCHOR_num : Fld := ⟨47, 0⟩
def EPC_NUM_num : Fld := ⟨47, 0⟩
def EPC_PERIOD_period : Fld := ⟨15, 0⟩
def EPC_COMMIT_discard : Fld := ⟨20, 20⟩
def EPC_COMMIT_withdraw : Fld := ⟨19, 19⟩
def EPC_COMMIT_domain : Fld := ⟨18, 18⟩
def EPC_COMMIT_go : Fld := ⟨17, 17⟩
def EPC_COMMIT_nwr : Fld := ⟨15, 0⟩
def EPC_GATE_addr : Fld := ⟨47, 3⟩
def EPC_STAGE_pending : Fld := ⟨47, 47⟩
def EPC_STAGE_domain : Fld := ⟨46, 46⟩
def EPC_STAGE_defers : Fld := ⟨45, 38⟩
def EPC_STAGE_nwr : Fld := ⟨31, 16⟩
def EPC_STAGE_landed : Fld := ⟨15, 0⟩
def EPC_LAST_reason : Fld := ⟨47, 45⟩
def EPC_LAST_num : Fld := ⟨39, 0⟩
def EPC_CNT0_applied : Fld := ⟨47, 0⟩
def EPC_CNT1_deferred : Fld := ⟨47, 24⟩
def EPC_CNT1_jumps : Fld := ⟨23, 0⟩
def DST_CFG_en : Fld := ⟨47, 47⟩
def DST_CFG_active : Fld := ⟨46, 46⟩
def DST_CFG_auto : Fld := ⟨45, 45⟩
def DST_CFG_leave : Fld := ⟨44, 44⟩
def DST_CFG_auto_resync : Fld := ⟨43, 43⟩
def DST_CFG_set_mask : Fld := ⟨42, 40⟩
def DST_CFG_link : Fld := ⟨12, 10⟩
def DST_CFG_partner : Fld := ⟨9, 0⟩
def DST_CMD_cmd : Fld := ⟨3, 0⟩
def DST_STAT_role : Fld := ⟨47, 46⟩
def DST_STAT_sync : Fld := ⟨45, 44⟩
def DST_STAT_misses : Fld := ⟨43, 42⟩
def DST_STAT_committing : Fld := ⟨41, 41⟩
def DST_STAT_handover : Fld := ⟨40, 40⟩
def DST_HB_period : Fld := ⟨15, 0⟩
def DST_LOG_base : Fld := ⟨47, 20⟩
def DST_LOG_size : Fld := ⟨15, 0⟩
def DST_SHADOW_base : Fld := ⟨47, 20⟩
def DST_SHADOW_size : Fld := ⟨15, 0⟩
def DST_PSHADOW_base : Fld := ⟨47, 20⟩
def DST_LOCKS_count : Fld := ⟨24, 12⟩
def DST_LOCKS_base : Fld := ⟨11, 0⟩
def DST_SEQGAP_gap : Fld := ⟨23, 0⟩
def DST_COMMITTED_epoch : Fld := ⟨47, 0⟩
def DST_NLS_gen : Fld := ⟨31, 0⟩
def DST_BACKLOG_entries : Fld := ⟨31, 0⟩
def DST_BACKHWM_entries : Fld := ⟨31, 0⟩
def DST_CNT0_lines : Fld := ⟨47, 0⟩
def DST_CNT1_failovers : Fld := ⟨47, 24⟩
def DST_CNT1_unsynced : Fld := ⟨23, 0⟩
def DST_RBASE_base : Fld := ⟨47, 12⟩
def DST_RLEN_len : Fld := ⟨31, 0⟩
def CRS_CTL_clr : Fld := ⟨0, 0⟩
def CRS_CNT_half_resets : Fld := ⟨47, 24⟩
def CRS_CNT_clu_resets : Fld := ⟨23, 0⟩
def CRS_BOOT_dev_rel : Fld := ⟨0, 0⟩
def CRS_REFMON_fail : Fld := ⟨47, 47⟩
def CRS_REFMON_trimmed : Fld := ⟨46, 46⟩
def CRS_REFMON_count : Fld := ⟨15, 0⟩
def CRS_CLURST_reset : Fld := ⟨23, 0⟩
def CRS_CLUHOLD_hold : Fld := ⟨23, 0⟩
def CRS_CLUSTAT_in_reset : Fld := ⟨23, 0⟩
def CRS_PLLSTAT_unlocks : Fld := ⟨47, 32⟩
def CRS_PLLSTAT_holdover : Fld := ⟨2, 2⟩
def CRS_PLLSTAT_lock : Fld := ⟨1, 1⟩
def CRS_PLLSTAT_on : Fld := ⟨0, 0⟩
def CRS_DOMSTAT_loss : Fld := ⟨47, 40⟩
def CRS_DOMSTAT_ovr : Fld := ⟨39, 39⟩
def CRS_DOMSTAT_state : Fld := ⟨1, 0⟩
def PWR_CTL_clr : Fld := ⟨0, 0⟩
def PWR_STATE_cur : Fld := ⟨10, 8⟩
def PWR_STATE_sby_abort : Fld := ⟨2, 2⟩
def PWR_STATE_req : Fld := ⟨1, 0⟩
def PWR_VIN_warn : Fld := ⟨47, 47⟩
def PWR_VIN_holdup : Fld := ⟨46, 46⟩
def PWR_VIN_hok : Fld := ⟨45, 45⟩
def PWR_VIN_mv : Fld := ⟨15, 0⟩
def PWR_VINSTAT_min_mv : Fld := ⟨47, 32⟩
def PWR_VINSTAT_amps : Fld := ⟨31, 16⟩
def PWR_VINSTAT_watts : Fld := ⟨15, 0⟩
def PWR_RSTCAUSE_ov : Fld := ⟨3, 3⟩
def PWR_RSTCAUSE_thermal : Fld := ⟨2, 2⟩
def PWR_RSTCAUSE_brownout : Fld := ⟨1, 1⟩
def PWR_RSTCAUSE_por : Fld := ⟨0, 0⟩
def PWR_THERM_trip : Fld := ⟨47, 40⟩
def PWR_THERM_warn : Fld := ⟨39, 32⟩
def PWR_THERM_hot : Fld := ⟨7, 0⟩
def PWR_TEMP_max : Fld := ⟨15, 8⟩
def PWR_TEMP_temp : Fld := ⟨7, 0⟩
def PWR_PLAN_vmin : Fld := ⟨13, 8⟩
def PWR_PLAN_bin : Fld := ⟨2, 0⟩
def PWR_FUSE_d_eol : Fld := ⟨47, 28⟩
def PWR_FUSE_bin_min : Fld := ⟨20, 18⟩
def PWR_FUSE_vfloor : Fld := ⟨17, 12⟩
def PWR_FUSE_vcal : Fld := ⟨5, 0⟩
def PWR_CHM_CFG_en : Fld := ⟨47, 47⟩
def PWR_CHM_CFG_sample_ms : Fld := ⟨46, 32⟩
def PWR_CHM_CFG_m_high : Fld := ⟨31, 24⟩
def PWR_CHM_CFG_m_low : Fld := ⟨23, 16⟩
def PWR_CHM_CFG_phy_alarm : Fld := ⟨7, 0⟩
def PWR_CHM_STAT_inset : Fld := ⟨47, 40⟩
def PWR_CHM_STAT_errors : Fld := ⟨39, 32⟩
def PWR_CHM_STAT_last_q : Fld := ⟨31, 28⟩
def PWR_CHM_STAT_last : Fld := ⟨27, 24⟩
def PWR_CHM_STAT_samples : Fld := ⟨23, 0⟩
def PWR_RO_fu : Fld := ⟨39, 24⟩
def PWR_RO_d : Fld := ⟨23, 0⟩
def PWR_REP_valid : Fld := ⟨47, 47⟩
def PWR_REP_slack : Fld := ⟨15, 0⟩
def PWR_LIFE_eqh : Fld := ⟨47, 24⟩
def PWR_LIFE_proj : Fld := ⟨23, 0⟩
def PWR_LIFE_CFG_warn_h : Fld := ⟨23, 0⟩
def PWR_DIEID_id : Fld := ⟨47, 0⟩
def PWR_LIFEOTP_steps : Fld := ⟨7, 0⟩
def SVC_CTL_clr : Fld := ⟨0, 0⟩
def SVC_BOOT_epochs : Fld := ⟨47, 40⟩
def SVC_BOOT_skip : Fld := ⟨33, 32⟩
def SVC_BOOT_committed : Fld := ⟨7, 7⟩
def SVC_BOOT_quar : Fld := ⟨6, 6⟩
def SVC_BOOT_settings_ok : Fld := ⟨5, 5⟩
def SVC_BOOT_cause : Fld := ⟨3, 2⟩
def SVC_BOOT_slot : Fld := ⟨1, 0⟩
def SVC_SLOT_state : Fld := ⟨47, 45⟩
def SVC_SLOT_attempts : Fld := ⟨44, 43⟩
def SVC_SLOT_floor : Fld := ⟨39, 32⟩
def SVC_SLOT_version : Fld := ⟨31, 0⟩
def SVC_OTP_tclr : Fld := ⟨25, 21⟩
def SVC_OTP_tset : Fld := ⟨20, 16⟩
def SVC_OTP_revoked : Fld := ⟨15, 12⟩
def SVC_OTP_keys : Fld := ⟨11, 8⟩
def SVC_OTP_floor : Fld := ⟨7, 0⟩
def SVC_SEC_owner : Fld := ⟨5, 5⟩
def SVC_SEC_window : Fld := ⟨4, 4⟩
def SVC_SEC_pres : Fld := ⟨3, 3⟩
def SVC_SEC_loop_ok : Fld := ⟨2, 2⟩
def SVC_SEC_tamper : Fld := ⟨1, 1⟩
def SVC_PRES_window : Fld := ⟨15, 0⟩
def SVC_CMD_arg : Fld := ⟨15, 8⟩
def SVC_CMD_cmd : Fld := ⟨7, 0⟩
def SVC_CMDSTAT_busy : Fld := ⟨47, 47⟩
def SVC_CMDSTAT_cmd : Fld := ⟨15, 8⟩
def SVC_CMDSTAT_status : Fld := ⟨7, 0⟩
def SVC_UPD_state : Fld := ⟨47, 45⟩
def SVC_UPD_target : Fld := ⟨44, 44⟩
def SVC_UPD_last : Fld := ⟨39, 32⟩
def SVC_UPD_session : Fld := ⟨31, 0⟩
def SVC_UPDOFF_next : Fld := ⟨31, 0⟩
def SVC_SITCNT_late : Fld := ⟨47, 32⟩
def SVC_SITCNT_refused : Fld := ⟨31, 16⟩
def SVC_SITCNT_bad : Fld := ⟨15, 0⟩
def SVC_PORT_half_reset : Fld := ⟨47, 47⟩
def SVC_PORT_up : Fld := ⟨46, 46⟩
def SVC_PORT_mode : Fld := ⟨45, 45⟩
def SVC_MAC_mac : Fld := ⟨47, 0⟩
def SVC_UART_baud : Fld := ⟨21, 0⟩
def SVC_NLS_errors : Fld := ⟨47, 40⟩
def SVC_NLS_schema : Fld := ⟨31, 16⟩
def SVC_NLS_gen : Fld := ⟨15, 0⟩
def PRT_SEAL_seal : Fld := ⟨0, 0⟩
def PRT_DEFAULT_perm : Fld := ⟨15, 0⟩
def PRT_VIOL_valid : Fld := ⟨47, 47⟩
def PRT_VIOL_bw : Fld := ⟨46, 46⟩
def PRT_VIOL_wr : Fld := ⟨45, 45⟩
def PRT_VIOL_class : Fld := ⟨26, 24⟩
def PRT_VIOL_agent : Fld := ⟨23, 0⟩
def PRT_VIOLA_addr : Fld := ⟨47, 0⟩
def PRT_CNT_bw : Fld := ⟨47, 24⟩
def PRT_CNT_denied : Fld := ⟨23, 0⟩
def PRT_RBASE_page : Fld := ⟨35, 0⟩
def PRT_RLIM_page : Fld := ⟨35, 0⟩
def PRT_RPERM_valid : Fld := ⟨47, 47⟩
def PRT_RPERM_perm : Fld := ⟨15, 0⟩
def BKG_CTL_psweep_en : Fld := ⟨2, 2⟩
def BKG_CTL_scrub_en : Fld := ⟨1, 1⟩
def BKG_CTL_clr : Fld := ⟨0, 0⟩
def BKG_SCRUB_period : Fld := ⟨7, 0⟩
def BKG_SCRUB_LAST_valid : Fld := ⟨47, 47⟩
def BKG_SCRUB_LAST_mem : Fld := ⟨46, 44⟩
def BKG_SCRUB_LAST_unit : Fld := ⟨41, 0⟩
def BKG_PSWEEP_period : Fld := ⟨15, 0⟩
def BKG_NLSCFG_max_erase : Fld := ⟨7, 0⟩
def BKG_NLSSTAT_bad : Fld := ⟨47, 40⟩
def BKG_NLSSTAT_today : Fld := ⟨39, 32⟩
def BKG_NLSSTAT_refused : Fld := ⟨31, 16⟩
def BKG_NLSSTAT_erases : Fld := ⟨15, 0⟩
def BKG_AUDIT_interval : Fld := ⟨15, 0⟩
def BKG_OVR_scrub : Fld := ⟨47, 40⟩
def BKG_OVR_psweep : Fld := ⟨39, 32⟩
def BKG_OVR_audit : Fld := ⟨31, 24⟩
def BKG_OVR_ageing : Fld := ⟨23, 16⟩
def BKG_OVR_chameleon : Fld := ⟨15, 8⟩
def BKG_TRING_BASE_addr : Fld := ⟨47, 8⟩
def BKG_TRING_CFG_en : Fld := ⟨47, 47⟩
def BKG_TRING_CFG_stop : Fld := ⟨46, 46⟩
def BKG_TRING_CFG_log2n : Fld := ⟨4, 0⟩
def BKG_TRING_WP_index : Fld := ⟨31, 0⟩
def BKG_TRING_RP_index : Fld := ⟨31, 0⟩
def BKG_TRING_LOST_count : Fld := ⟨31, 0⟩
def BKG_SCRUBCNT_ce : Fld := ⟨47, 24⟩
def BKG_SCRUBCNT_ue : Fld := ⟨23, 0⟩

end F

end Sys2Proof.Machine
end

