-- ==== Sys2Proof/Machine/State.lean ====
section
/-! DEFINITION. The state of the part as plain data: every register, memory, queue, table and mode the spec gives it,
the commands that wait, and the reset state. -/

namespace Sys2Proof.Machine

/-- A completion token (R69, R84). -/
inductive Tok where
  | idle
  | pending
  | done (status : Nat)
deriving DecidableEq, Repr

/-- State of a thread (R131), in the order of its codes 0–7. -/
inductive TState where
  | idle | packet | start | service | killed | halted | double | reset
deriving DecidableEq, Repr

/-- What a recent producer wrote, for the distances of R77–R80 and R580. -/
inductive HazKind where
  | g | p | csr | near
deriving DecidableEq, Repr

/-- One write of a thread that later instructions may stand too close to (R77). `key` is the register, predicate, CSR
number or near byte; `need` the minimum distance; `age` the distance of the next instruction; `rep` marks a write of an
iteration of the repeat in progress (R115); `tok` the token of an asynchronous producer that has completed, until a WAITC
that names it returns. -/
structure Haz where
  kind : HazKind
  key : Nat
  need : Nat
  age : Nat
  rep : Bool
  before : Word
  after : Word
  pc : Nat
  tok : Option Nat := none
deriving DecidableEq, Repr

/-- A repeat in progress (R113–R119): REPN or REPI, iterations left, the word once an iteration issued, and whether a
prefix began it (rather than an ERET that resumes it, R119). -/
structure Rep where
  noInt : Bool
  left : Nat
  word : Option Word
  fresh : Bool
deriving DecidableEq, Repr

/-- What a thread waits in (R63). -/
inductive Wait where
  | none
  /-- WAITC or FENCE, the instruction word kept (R87, R88). -/
  | waitc (w : Word)
  | fence (w : Word) (ops : List Nat)
  /-- RELEASE or DROP waiting for the thread's asynchronous operations (R101), with g[a] and g[b] read. -/
  | ending (rel : Bool) (dest edit : Word)
  /-- RELEASE or DROP of a sequence handed off, waiting for Bridge to record it (R208). -/
  | handed (key : Nat)
  /-- DOZE with its destination and limit (R128). -/
  | doze (d : Nat) (limit : Nat) (pc : Nat)
  /-- BUSY backoff of an LYR (R157). -/
  | lyrBusy
deriving DecidableEq, Repr

/-- A packet descriptor (R169) as Spawn holds it, with the number of the source unit it came from. -/
structure Desc where
  hash : Nat
  seq : Nat
  flags : Nat
  lane : Nat
  queue : Nat
  len : Nat
  srcKind : Nat
  src : Nat
  sub : Nat
  l3 : Nat
  l4 : Nat
  ts : Nat
  buf0 : Nat
  buf1 : Nat
  buf2 : Nat
  etype : Nat
  vlan : Nat
  kind : Nat
  unit : Nat
deriving DecidableEq, Repr

/-- One of a thread's two slots (R181): empty, being filled (`back`: Spawn takes it back when full, R186), or full. -/
inductive Slot where
  | empty
  | filling (d : Desc) (back : Bool)
  | full (d : Desc)
deriving DecidableEq, Repr

/-- The CSRs of a thread (R70, R135). -/
structure TCsr where
  fto : Word
  entry : Word
  lyrEn : Word
  tstat : Word
  tvec : Word
  tepc : Word
  tcause : Word
  tval : Word
  trep : Word
  tscratch : Word
  tint : Word
  ttimer : Word
deriving DecidableEq, Repr

/-- One hardware thread. `pkt` is its packet as Spawn granted it (R202); `cur` the physical slot that is current;
`held` the first-touch record of R100 as tile addresses; `gen` its generation in Gecko (R292); `timerAt` the NCLK of the
last write of TTIMER; `lyrRun` the consecutive BUSY answers of the LYR at `lyrPc`, fetched with TSTAT.th = `lyrTh`
(R157); `checked` whether the distance checker looks at its instruction while a change of it takes effect (R104). -/
structure Thread where
  g : Tab Word
  p : Nat
  tok : Tab Tok
  pc : Nat
  state : TState
  prior : TState
  wait : Wait
  rep : Option Rep
  hist : List Haz
  csr : TCsr
  timerAt : Nat
  wake : Bool
  instret : Word
  cur : Nat
  slot0 : Slot
  slot1 : Slot
  pkt : Option Desc
  touched : List Nat
  discard : Nat
  badcmd : Nat
  cause : Nat
  pendHalt : Bool
  pendKill : Bool
  restart : Nat
  gen : Nat
  lyrRun : Nat
  lyrPc : Nat
  lyrTh : Bool
  checked : Option Bool
deriving DecidableEq, Repr

/-- Unit an asynchronous operation belongs to: the kinds FENCE selects (R88), and LYR. -/
inductive OpClass where
  | far | helper | packet | lyr
deriving DecidableEq, Repr

/-- An asynchronous operation's work at its target (R81), operands captured at commit. -/
inductive OpKind where
  | load (addr bytes : Nat) (signed : Bool)
  | store (addr bytes val : Nat)
  | atom (fn addr opnd cmp : Nat)
  /-- PLD of the bytes at some addresses: link tiles read, tiles touched first (R99). -/
  | pld (addrs links first : List Nat)
  | pst (addrs : List Nat) (val : Nat)
  | tseal (tile : Nat)
  /-- Completes with a status and value already known at commit (FORK, LKUP, LEARN, a refused helper operation). -/
  | known (status : Nat) (val : Word)
  /-- BALLOC waiting for the BPM (R237). -/
  | balloc (size : Nat)
  /-- BFREE of an address (R238). -/
  | bfree (addr : Nat)
  /-- BRG_TURN read at point k by a packet (R215). -/
  | turn (k lane seq : Nat)
  /-- BRG_PASS at point k (R216). -/
  | pass (k lane seq : Nat)
  /-- A request to a remote device, waiting for its RESP (R397). -/
  | remote (bytes : Nat) (signed : Bool)
  | lyr
  /-- LKUP of a key in a table (R255), LEARN of a key image and action (R268). -/
  | lkup (table : Nat) (key : List Byte)
  | learn (table : Nat) (img : List Byte)
deriving DecidableEq, Repr

/-- A committed asynchronous operation. `dead` marks one whose thread was killed (R133), `late` one whose timer has
expired (R85); `clobber` lists the values of other writes of its destination that may stay in it (R79). -/
structure AsyncOp where
  id : Nat
  thread : Nat
  cls : OpClass
  tok : Option Nat
  dest : Nat
  kind : OpKind
  pc : Nat
  limit : Nat
  dead : Bool
  late : Bool
  clobber : List Word
  result : Option (Nat × Word)
deriving DecidableEq, Repr

/-- Power state of a cluster (R189), in the order of its codes 0–5. -/
inductive CPower where
  | run | gated | parked | wakingG | wakingP | parking
deriving DecidableEq, Repr

/-- A thread's Lyre context (R158, R159): key and its algorithm (0 none), AEAD phase (0 IDLE, 1 SEAL, 2 OPEN), counter
block, tag mask, authentication key and accumulator, lengths, unused keystream; hash algorithm (0 none), state words,
bytes hashed and partial block. -/
structure LyrCtx where
  keyValid : Bool
  alg : Nat
  phase : Nat
  key : List Byte
  ctr : List Byte
  mask : List Byte
  authKey : List Byte
  acc : Nat
  aadLen : Nat
  textLen : Nat
  stream : List Byte
  hashAlg : Nat
  hstate : List Nat
  hashed : Nat
  part : List Byte
deriving DecidableEq, Repr

/-- A Lyre context slot (R158): its number, the owner's number within the cluster, the save address it was loaded from,
and the context. A cluster's slots are listed least recently used first. -/
structure LyrSlot where
  idx : Nat
  owner : Nat
  save : Nat
  ctx : LyrCtx
deriving DecidableEq, Repr

/-- An accepted Lyre operation (R151, R152): the asynchronous operation it is, the thread, the descriptor bytes, the
privilege, the operand bytes as they stood at the start (aux, aad, src), whether a range is denied or outside R147's
regions, where and how many bytes it writes, the context a thread reset left it with (and which reset), and near atomics
on scratch since the start: the slot, and its bytes before and after (R149). -/
structure LyrOp where
  id : Nat
  thread : Nat
  desc : List Byte
  priv : Nat
  snap : List (List Byte)
  bad : Bool
  dst : Nat
  dstLen : Nat
  own : Option (Nat × LyrCtx)
  atoms : List (Nat × List Byte × List Byte)
deriving DecidableEq, Repr

/-- A core's counters (R71, R91): CCLK, instructions issued and idle CCLK since cluster reset as they stood at the NCLK
`at_`, and how many more instructions squashed by traps and kills may count as issued (R91) and as LYRs abandoned
(R154). -/
structure CoreCnt where
  cycle : Word
  issue : Word
  idle : Word
  at_ : Nat
  squash : Nat
  starts : Nat
deriving DecidableEq, Repr

/-- A cluster: power, reset, and its Lyre. `gen` counts exits from PARKED (R581); `dchkAt` is the NCLK of the latest
change of its distance checker (R104). -/
structure Cluster where
  power : CPower
  gen : Nat
  inReset : Bool
  resetting : Bool
  everRun : Bool
  liveHold : Bool
  pllHold : Bool
  lyrSlots : List LyrSlot
  lyrOps : List LyrOp
  lyrFlush : Option Nat
  dchkAt : Option Nat
deriving DecidableEq, Repr

/-- A pending cluster wake (R194). -/
structure WakeReq where
  cluster : Nat
  zero : Bool
  paced : Bool
deriving DecidableEq, Repr

/-- Spawn (R171–R194). `hold` lists the descriptors waiting for admission in arrival order; the first of a unit is in its
hold stage; `out` counts a unit's descriptors enqueued and not granted; `gStart` is where the next visit starts, and `born`
the NCLK + 1 in which a queue was last entered empty (R180); `qover` lists the units between xoff and xon (R173); `lastIn`
is the NCLK and unit of the latest admission (R199). -/
structure Spawn where
  hold : List Desc
  queues : Tab (List Desc)
  stored : Nat
  out : Tab Nat
  credit : Tab Nat
  gp : Tab Nat
  qptr : Tab Nat
  gStart : Nat
  boost : Tab Nat
  boostOf : Tab Nat
  wakes : List WakeReq
  starts : List Nat
  asserted : List Nat
  storeBp : Bool
  orphan : List Nat
  born : Tab Nat
  qover : List Nat
  lastIn : Nat × Nat
deriving DecidableEq, Repr

/-- A packet's buffers as its ending fixes them (R202, R206, R207): the data buffers of its window with their sizes, the
link tiles of its chain, and the addresses Bridge or egress returns. -/
structure Win where
  data : List (Nat × Nat)
  links : List Nat
  rets : List Nat
deriving DecidableEq, Repr

/-- A packet's ending as Bridge holds it (R202): RELEASE or DROP, destination and edit words, and the len and buffers of
the slot descriptor as they stood; `sure` says a reorder-store entry is kept for it, so that its thread went on (R208). -/
structure Ending where
  rel : Bool
  dest : Word
  edit : Word
  len : Nat
  win : Win
  hash : Nat
  thread : Nat
  sure : Bool
deriving DecidableEq, Repr

/-- What Bridge holds of one stamped sequence that is not retired (R200, R205, R216). `passed` is the mask of points
passed; `entry` says it uses a reorder-store entry. -/
structure SeqRec where
  ending : Option Ending
  entry : Bool
  skipped : Bool
  passed : Nat
  kids : List (Word × Word)
  kidsDone : Nat
  parentDone : Bool
deriving DecidableEq, Repr

/-- A departure handed to egress (R209). `key` is lane × 2^24 + sequence, `child` its index when a child. -/
structure Depart where
  key : Nat
  child : Option Nat
  dest : Word
  off : Nat
  len : Nat
  ts : Bool
  win : Win
  hash : Nat
deriving DecidableEq, Repr

/-- The buffers of an ended packet that wait for its last completion (R207). -/
structure BufRef where
  left : Nat
  rets : List Nat
deriving DecidableEq, Repr

/-- Bridge (R198–R217). `inbound` holds endings handed off and not yet arrived; `till` the NCLK a lane's hold timer
expires at (R211). -/
structure Bridge where
  next : Tab Nat
  head : Tab Nat
  recs : Tab SeqRec
  inbound : List (Nat × Ending)
  waiting : List (Nat × Ending)
  used : Nat
  kidsUsed : Nat
  rStart : Nat
  egress : Tab (List Depart)
  refs : Tab BufRef
  till : Tab Nat
deriving DecidableEq, Repr

/-- A Gecko lock (R281): owner and its priority, abandoned, the waiter it is reserved for with its
priority, and the NCLK the reservation lapses at. -/
structure Lock where
  owner : Option Nat
  prio : Nat
  abandoned : Bool
  rsv : Option (Nat × Nat)
  till : Nat
  boosted : Bool
deriving DecidableEq, Repr

/-- A registered waiter (R286), and the NCLK its registration expires at, if it does (R294). -/
structure Waiter where
  lock : Nat
  agent : Nat
  prio : Nat
  till : Option Nat
deriving DecidableEq, Repr

/-- Gecko: locks, registrations in registration order, notify FIFOs 0–6 (R293), and the devices that have left (R292). -/
structure Gecko where
  locks : Tab Lock
  regs : List Waiter
  fifos : Tab (List Word)
  left : List Nat
deriving DecidableEq, Repr

/-- The event controller (R296–R300) and the crossings its sources come through (R458): `xing` is 1 for a busy crossing
and 2 for one with a pending pulse behind; `arrived` counts pulses delivered and not yet taken. `bits` is 1 for a bit
crossing that transfers a one and 2 for one that transfers a zero (R460), and `levels` the values delivered and not yet
taken. `since` is the NCLK a source became PENDING in, and whether by R299; `sent` the NCLK of the last deliveries and how
many it has seen (R298). -/
structure Ev where
  xing : Tab Nat
  arrived : Tab Nat
  bits : Tab Nat
  levels : Tab (List Bool)
  since : Tab (Nat × Bool)
  sent : Nat × Nat
  svcq : List Nat
  svcIrq : Bool
  wgLast : Tab Nat
deriving DecidableEq, Repr

/-- An allocation request waiting at the BPM: pool, port, and the BALLOC it answers (R237). -/
structure AllocReq where
  pool : Nat
  port : Nat
  op : Nat
deriving DecidableEq, Repr

/-- A free waiting at the BPM: address, port, and the BFREE it completes, if any (R238). -/
structure FreeReq where
  addr : Nat
  port : Nat
  op : Option Nat
deriving DecidableEq, Repr

/-- An audit in progress (R243): pool, the address to visit next, steps taken, pushes minus pops at the head, and the
list count and range flag of its start. -/
structure Audit where
  pool : Nat
  cur : Nat
  steps : Nat
  diff : Int
  count : Nat
  range : Bool
deriving DecidableEq, Repr

/-- A frame in an I/O die's staging (R236): source unit, its descriptor fields known so far, its bytes, and the buffers
obtained. -/
structure Staged where
  unit : Nat
  pool : Nat
  port : Nat
  srcKind : Nat
  src : Nat
  sub : Nat
  ts : Nat
  stomp : Bool
  bytes : List Byte
  bufs : List Nat
deriving DecidableEq, Repr

/-- One Ethernet port: its pause timers by class in quanta (R373) and its transmit timestamp FIFO (R377), records with
their times. -/
structure EthPort where
  pause : Tab Nat
  txts : List (Word × Nat)
deriving DecidableEq, Repr

/-- An Ethernet port, host link or Obrex link as the structure image assigns it (R33–R35): lane group, slot or half,
mode, quadrant and ingress pool. -/
structure PortCfg where
  group : Nat
  slot : Nat
  mode : Nat
  quad : Nat
  pool : Nat
deriving DecidableEq, Repr

/-- What the running structure image fixes beside registers (R30–R37): Ethernet ports, host links, Obrex links, the
steering map, and each cluster's program entry. -/
structure Img where
  ports : Tab PortCfg
  hlinks : Tab PortCfg
  olinks : Tab PortCfg
  steer : Tab Nat
  entry : Tab Nat
deriving DecidableEq, Repr

/-- The buffer pool manager (R234–R244): the two sides of each ring cache, index of each ring's oldest entry and its size, fetches in
flight, the port orders, queues of requests, the frames in staging, the frees held by a rebuild or purge, the audit in progress,
the pool the latest audit took, the purges to complete as stack × 32 + pseudo-channel,
the tiles of the packet store whose check entry has an uncorrectable error (R226), and the NCLK + 1 of the latest seal
with the tiles sealed in it (R225). Lists, counts and watermarks are its registers. -/
structure Bpm where
  readSide : Tab (List Nat)
  writeSide : Tab (List Nat)
  ringPos : Tab Nat
  ringLen : Tab Nat
  fetching : Tab (List Nat)
  rp : Tab Nat
  fp : Tab Nat
  allocQ : List AllocReq
  freeQ : List FreeReq
  staged : List Staged
  held : List FreeReq
  audit : Option Audit
  auditNext : Nat
  purge : List Nat
  chkBad : List Nat
  sealedAt : Nat × List Nat
deriving DecidableEq, Repr

/-- An Obrex transaction waiting to start (R395): virtual channel (8 CTL), type, size, destination device, requester,
argument and data; the thread operation it is for; whether it wants a tag and the tag of the request a RESP answers;
the link it must take, if any; stomp; and for one of another device the link, virtual channel and flits it arrived in,
with the whole transaction as data; `note` 1 marks the marker that ends a repeated copy (R445). -/
structure ObxMsg where
  vc : Nat
  typ : Nat
  size : Nat
  dst : Nat
  agent : Nat
  tag : Nat
  arg : Nat
  data : List Byte
  op : Option Nat
  wantTag : Bool
  link : Option Nat
  stomp : Bool
  transit : Option (Nat × Nat × Nat)
  note : Nat := 0
deriving DecidableEq, Repr

/-- A request this device has outstanding (R398), by tag: the thread operation it answers (none: a fabric engine), the
agent, the destination, whether it has expired, and the note of its transaction. -/
structure ObxReq where
  op : Option Nat
  agent : Nat
  dst : Nat
  late : Bool
  note : Nat := 0
deriving DecidableEq, Repr

/-- A transaction received whole for this device: link, virtual channel, flits it took, stomp, domain time of its first
flit (R169), and its bytes. -/
structure ObxRx where
  link : Nat
  vc : Nat
  flits : Nat
  stomp : Bool
  at_ : Nat
  bytes : List Byte
deriving DecidableEq, Repr

/-- A sequenced flit (R386, R388): its sequence, type, sop, eop, stomp, virtual channel, payload and notice. -/
structure Flit where
  seq : Nat
  ftype : Nat
  sop : Bool
  eop : Bool
  stomp : Bool
  vc : Nat
  payload : List Byte
  notice : Nat
deriving DecidableEq, Repr

/-- Time fields of a received flit with tsv (R386, R415): the stamp and its identifier, the echoed stamp with res when
valid, and own time at receipt. -/
structure TimeIn where
  t3 : Nat
  tsid : Nat
  echo : Option (Nat × Nat)
  t4 : Nat
deriving DecidableEq, Repr

/-- One Obrex link beyond its registers (R384–R393, R415): send sequence, expected sequence, retry buffer, consecutive
replays, NAK outstanding, flits waiting for the retry buffer, queued notices, credits in force, flits sent and freed per
virtual channel and the peer's crcum, partly received transactions with their flits and the domain time of the first, the peer's INIT record, the time-stamp
exchange, whose turn a credit return is, and flits sent since the last notice, at most 3 (R404). -/
structure ObxLink where
  txSeq : Nat
  expect : Nat
  retry : List Flit
  replays : Nat
  nak : Bool
  txq : List Flit
  notices : List Nat
  credit : Tab Nat
  sent : Tab Nat
  crcum : Tab Nat
  freed : Tab Nat
  told : Tab Nat
  rx : Tab (Nat × Nat × List Byte)
  peerJoined : Bool
  peerTag : Nat
  tsid : Nat
  stamps : Tab Nat
  lastTs : Option (Nat × Nat)
  tsIn : Option TimeIn
  peerHops : Nat
  turn : Nat
  since : Nat
deriving DecidableEq, Repr

/-- Obrex beyond its registers: links, transactions waiting to start, transactions received, outstanding requests, the
recent set oldest first, accepted notices not yet acted on with their links, mutes by table entry, mutes that found the
table full, the NCLK from which each mute is in force, the latched high part of time, the slew under way in ns, how many corrections in a row were below 20 ns, and
whether the device has ever joined. -/
structure Obx where
  links : Tab ObxLink
  tx : List ObxMsg
  rx : List ObxRx
  reqs : Tab ObxReq
  recent : List (Nat × Nat)
  noticeIn : List (Nat × Nat)
  mutes : Tab Nat
  overflow : List Nat
  muteFrom : Tab Nat
  nextId : Nat
  hiLatch : Nat
  slew : Int
  good : Nat
  everJoined : Bool
deriving DecidableEq, Repr

/-- A location of a table: bucket and slot, slots 8–15 the stash (TBL_CMD_LOC). -/
structure Loc where
  bucket : Nat
  slot : Nat
deriving DecidableEq, Repr

/-- One pending write of the update unit (R259, R261): overwriting the old slot of a moved entry, whose hit bit goes to
its new location, with another entry (of a slot, or an image); refilling a freed slot from the stash; clearing a stash
entry. -/
inductive TStep where
  | shift (dst moved : Loc) (src : Option Loc) (img : Nat)
  | refill (dst : Loc)
  | clear (i : Nat)
deriving DecidableEq, Repr

/-- An item of the update unit's order (R270): a learn (table, key, action, in the recent-push filter, NCLK and rank of its
push within it, R268) or the command. -/
inductive UpdItem where
  | learn (table : Nat) (key : List Byte) (action : Nat) (pushed : Bool) (at_ rank : Nat)
  | cmd
deriving DecidableEq, Repr

/-- A candidate record (R271, R273). -/
structure Cand where
  table : Nat
  key : List Byte
  action : Nat
  time : Nat
deriving DecidableEq, Repr

/-- A prefix record (R264, R266): length, address, action, quarantined, bad parity. -/
structure Prefix where
  len : Nat
  addr : Nat
  action : Nat
  quar : Bool
  bad : Bool
deriving DecidableEq, Repr

/-- The tables beyond their registers and memory (R249–R276): the update unit's order and pending writes with the table
each is for, the status of the command about to complete, a BULK_SET under way (address, index, count), the location
last touched, recent pushes, candidates, stash entries by table × 8 + entry, prefix records by table, exact counts of
quarantined entries, tables held (R57), and each table's ageing position and whether its sweep has deleted. -/
structure Tables where
  queue : List UpdItem
  steps : List (Nat × TStep)
  result : Option Nat
  bulk : Option (Nat × Nat × Nat)
  last : Option Loc
  filter : List (List Byte × Nat)
  cands : List Cand
  stash : Tab Nat
  prefixes : Tab (Tab Prefix)
  quarN : Tab Nat
  held : List Nat
  agePos : Tab Nat
  aged : List Nat
deriving DecidableEq, Repr

/-- A descriptor of a transmit ring (R348): address, length, flags word, and its last four bytes. -/
structure TxDesc where
  addr : Nat
  len : Nat
  flags : Nat
  rsv : Nat
deriving DecidableEq, Repr

/-- A frame in fetch (R350): the number of its requests, its descriptors' count and, once read, the descriptors, and the
domain time its fetch began. -/
structure TxFetch where
  tag : Nat
  k : Nat
  ts : Nat
  descs : Option (List TxDesc)
deriving DecidableEq, Repr

/-- A host transmit queue beyond its registers (R348–R350, R353): tail, credit index, the frame in fetch, the number of
the next fetch, and the fetches whose frame was discarded: outstanding, and timed out. -/
structure HTxq where
  tail : Nat
  credit : Nat
  fetch : Option TxFetch
  nextTag : Nat
  orphans : List Nat
  lost : List Nat
deriving DecidableEq, Repr

/-- A host receive queue beyond its registers (R351): buffers used and buffers posted, modulo 2^32. -/
structure HRxq where
  head : Nat
  tail : Nat
deriving DecidableEq, Repr

/-- An MSI-X vector of a function (R344): address, data, mask, pending. -/
structure Vec where
  addr : Nat
  data : Nat
  masked : Bool
  pend : Bool
deriving DecidableEq, Repr

/-- A General Media Event record (R360, R361): logical device, whether it tells of retired media, and the DPA. -/
structure MediaEv where
  ld : Nat
  retired : Bool
  dpa : Nat
deriving DecidableEq, Repr

/-- The host ports beyond their registers (R340–R362): queues, the FIFOs of HST_MBOXQ and HST_PFAULT, functions reset
and not enabled again, mailbox bytes by function × 256, MSI-X vectors by function × 2,048 and table sizes by function, links
that present their logical devices as an MLD since their latest training, HDM decoder registers by
logical device × 64 + dword, poison lists as 64-byte DPA ranges by logical device, DPA segments of retired media,
media events, links whose AER holds a Completion Timeout, and ports whose PERSTp_N is high. -/
structure HostS where
  tx : Tab HTxq
  rx : Tab HRxq
  mboxq : List Nat
  pfault : List Word
  flr : List Nat
  mbox : Tab Byte
  vecs : Tab Vec
  vecN : Tab Nat
  mld : List Nat
  hdm : Tab Nat
  poisonList : Tab (List Nat)
  poisonSeg : Tab (List Nat)
  media : List MediaEv
  aer : List Nat
  perst : List Nat
deriving DecidableEq, Repr

/-- A memory training unit beyond its registers (R331, R332): whether a last known good setting is held, whether it runs at
half tREFI, and its uncorrectable errors since it entered DEGRADED. -/
structure McUnit where
  good : Bool
  half : Bool
  ue : Nat
deriving DecidableEq, Repr

/-- A memory controller beyond its registers: refmode and fgr in force and whether its sensor reads above 85 °C
(R320, R323), power-down units in power-down (R324), and self-refresh (R325). -/
structure McCtl where
  refmode : Bool
  fgr : Bool
  hot : Bool
  pd : List Nat
  selfRef : Bool
deriving DecidableEq, Repr

/-- The memory controllers: units by controller × 32 + unit. -/
structure McS where
  units : Tab McUnit
  ctls : Tab McCtl
deriving DecidableEq, Repr

/-- Clocks beyond their registers (R450–R456): PLLs that have locked, domains seen running, whether the latest monitor
window was a miss, whether every domain but AON and SVCPORT is in reset since a failure of R452, and the direct
interrupt of the Service Newt it raised. -/
structure ClkS where
  locked : List Nat
  runs : List Nat
  miss : Bool
  dead : Bool
  irq : Bool
deriving DecidableEq, Repr

/-- Live replacement (R49–R59): the verdict of the verify under way (code and section, code 0 for none), the SHA-384
kept, clusters the image names with the section of each, what preload staged: seeds by table, weights, and program
identifiers by cluster; and the image whose programs boot code is loading (R43). -/
structure StrS where
  code : Nat
  section_ : Nat
  hash : List Byte
  clusters : List (Nat × Nat)
  seeds : List (Nat × Nat × Nat)
  weights : Option (List Nat)
  progs : List (Nat × Nat)
  boot : Option (List Byte)
deriving DecidableEq, Repr

/-- Strum beyond its registers (R420–R433): the next boundary, the phase toward it (0 before its cutoff, 1 after the
cutoff, 2 after the decision point), the verdict on the pending set (none: no set was pending), the gate read (0 none,
1 outstanding, 2 answered with a word, 3 failed) and its word, the writes held from the cutoff on, as CSR offset and
value (those past the 256th wait to be taken), and the agents that wait for such a write to end. -/
structure EpcS where
  next : Nat
  phase : Nat
  verdict : Option Nat
  gate : Nat
  gateWord : Nat
  held : List (Nat × Word)
  late : List Nat
deriving DecidableEq, Repr

/-- A capture of the log (R436): epoch, line address, and the 64 bytes. -/
structure Capture where
  epoch : Nat
  addr : Nat
  line : List Byte
deriving DecidableEq, Repr

/-- What a marker will carry (R438), as it stood at the boundary that ended its epoch: lock words, lane next counters,
settings, and the handover flag. -/
structure Mark where
  epoch : Nat
  locks : List Nat
  nexts : Tab Nat
  settings : List (Nat × Nat)
  handover : Bool
deriving DecidableEq, Repr

/-- A double-stop pair beyond its registers (R434–R445): the log, the walk's next line of a repeated copy (none: no
walk), whether the walk has ended and its marker is awaited, markers due, and lines sent since the last marker; on the standby the lines received since the last marker as shadow offset and
bytes, markers that arrived with the lines each closes, and the committed bank; heartbeats: sequence, arrival in the
present period; handover: 0 none, 1 asked for, 2 draining. -/
structure DstS where
  log : List Capture
  walk : Option Nat
  walked : Bool
  marks : List Mark
  sent : Nat
  rx : List (Nat × List Byte)
  markers : List (List Byte × List (Nat × List Byte))
  bank : Nat
  hbSeq : Nat
  hbSeen : Bool
  handover : Nat
deriving DecidableEq, Repr

/-- The planner's change of a quadrant (R490–R492): steps of voltage and of bin it waits to stage, boundaries waited,
consecutive samples above m_high, and whether one of its changes is in the set that is staged. -/
structure PlanQ where
  dv : Int
  db : Nat
  waited : Nat
  high : Nat
  staged : Bool
deriving DecidableEq, Repr

/-- Supply, power states and Chameleon beyond their registers (R476–R497): whether the previous VIN sample was out of
range, consecutive samples at 11.2 V or above, whether the hottest die has stood 2 °C below the warning, whether a
thermal trip has switched the rails off, the state before a STANDBY request, the state EXITING leads to, a STANDBY
request held by EXITING, the planner by quadrant, equivalent hours in units of 2^-32 ms, the time observed in ms, d_max
by hour observed, whether proj stands below its warning level, consecutive samples at 10.2 V or above (up to 2), and the
statistics zeroed and not sampled again (die numbers, and 6 for VIN). -/
structure PwrS where
  out : Bool
  good : Nat
  armed : Bool
  tripped : Bool
  before : Nat
  target : Nat
  again : Bool
  plan : Tab PlanQ
  eqh : Nat
  seen : Nat
  dHist : List (Nat × Nat)
  below : Bool
  vinUp : Nat
  fresh : List Nat
deriving DecidableEq, Repr

/-- A Service Image Transfer session (R523): target slot, and the image header and digest of its BEGIN. -/
structure Sess where
  target : Nat
  header : List Byte
  digest : List Byte
  till : Nat
deriving DecidableEq, Repr

/-- What the Service Newt runs (R506–R508): nothing (reset), the ROM waiting for PRES_N or for holdup with the slot it
selected, boot code before its steps, past a failure (it resets the device), or past them with BOOT_SEAL to come, run-time firmware not yet
started or running, or the ROM in Axolotl mode. -/
inductive SvcMode where
  | off | romPres | romHold (slot : Nat) | boot | failed | seal_ | rtLoad | rt | axolotl
deriving DecidableEq, Repr

/-- Boot, update and security beyond their registers (R500–R536): VAON up and PORST_N asserted, when PORST_N was last
released, the level of the PORST_N pin (high: released), the dynamic I3C address of the target, what the Service Newt runs,
the slots dropped for this boot, the key hash that signs the running image, the two flashes (an unlisted byte is erased), the open session and the number of the last one, an ACTIVATE answered OK, PRES_N
low, the LFSR of the seal loop with its consecutive mismatches and matches and a tset step owed, traffic in the present
and in the last complete epoch, a commit that waits for holdup, the day of the last erasure, Nelistore records that wait
for holdup, and sessions that expired. -/
structure SvcS where
  vaon : Bool
  porst : Bool
  porstN : Bool
  relAt : Nat
  mode : SvcMode
  dropped : List Nat
  key : Nat
  flash0 : Tab Byte
  flash1 : Tab Byte
  sess : Option Sess
  lastSess : Nat
  activated : Bool
  presLow : Bool
  lfsr : Nat
  mism : Nat
  same : Nat
  owedTset : Nat
  commitDue : Bool
  traffic : Bool
  lastTraffic : Bool
  day : Nat
  due : List (Nat × List Byte)
  expired : List Nat
  dynAddr : Option Nat
  mismAt : Nat
  clearAt : Nat
deriving DecidableEq, Repr

/-- The telemetry ring (R550, R551): the snapshot being written with its entry, snapshots lost since the last one
written, snapshots captured since en was set, and a time jump since the previous capture. -/
structure TelS where
  writing : Option (Nat × List Byte)
  lost : Nat
  seq : Nat
  jump : Bool
deriving DecidableEq, Repr

/-- What leaves the part toward the outside: frames, pause frames, messages, flits, replies. Status of a register access:
0 done, 1 denied (Completer Abort to a host), 2 failed (Unsupported Request to a host). -/
inductive Output where
  | frame (port : Nat) (bytes : List Byte) (goodFcs : Bool)
  | pause (port : Nat) (mask : Nat) (quanta : Nat)
  | msix (fn vec : Nat)
  | hostWrite (fn addr : Nat) (bytes : List Byte)
  | hostReadReq (fn addr len : Nat)
  | cxl (link : Nat) (status : Nat) (bytes : List Byte)
  | flit (link : Nat) (bytes : List Byte)
  | obxInit (link : Nat) (devid tag : Nat) (joined : Bool) (num : Nat) (half : Bool)
  | svc (port : Nat) (bytes : List Byte)
  | reg (agent : Nat) (status : Nat) (val : Word)
  | cxlCmd (link op code : Nat)
  | bytes (agent : Nat) (l : List Byte)
deriving DecidableEq, Repr
/-- The machine. -/
structure State where
  now : Nat
  freeCtr : Nat
  pending : List Instr
  csr : Tab Word
  shadow : Tab Word
  mem : List Host.Cell
  scratch : List Host.Cell
  code : List Host.Cell
  slotRam : Tab (Nat × Byte)
  threads : Tab Thread
  cores : Tab CoreCnt
  ops : List AsyncOp
  nextOp : Nat
  clusters : Tab Cluster
  spawn : Spawn
  bridge : Bridge
  bpm : Bpm
  tiles : Tab (Bool × Nat)
  poison : List Nat
  img : Img
  eth : Tab EthPort
  clkBase : Nat
  clkAt : Nat
  gecko : Gecko
  ev : Ev
  obx : Obx
  tbl : Tables
  host : HostS
  mc : McS
  clk : ClkS
  str : StrS
  epc : EpcS
  dst : DstS
  pwr : PwrS
  svc : SvcS
  tel : TelS
  outbox : List Output
deriving DecidableEq, Repr

/-- Why a command stops with a fault. -/
inductive Fault where
  /-- No command raises it: every command the spec describes answers a next state. Safe. -/
  | none
deriving DecidableEq, Repr

/-- Why a command is refused. -/
inductive Refusal where
  /-- Raised by `exec` for a command whose meaning is not written yet. Safe: the machine stops where the part goes on. -/
  | notModelled (mnemonic : String)
  /-- Raised for a command that is ill-formed: an operand outside its range, or an instruction word whose opcode is not
  one of the row's. Safe: such a command names nothing the part can be told to do. -/
  | illFormed
deriving DecidableEq, Repr

/-- CSRs of a thread after a thread reset (R71, R135). -/
def TCsr.reset : TCsr :=
  { fto := 0x0271, entry := 0, lyrEn := 4, tstat := 0x0A0, tvec := 0, tepc := 0, tcause := 0, tval := 0, trep := 0,
    tscratch := 0, tint := 0, ttimer := 0 }

/-- A thread held in reset (R131, R69). -/
def Thread.reset : Thread :=
  { g := [], p := 1, tok := [], pc := 0, state := .reset, prior := .idle, wait := .none, rep := none, hist := [],
    csr := TCsr.reset, timerAt := 0, wake := false, instret := 0, cur := 0, slot0 := .empty, slot1 := .empty,
    pkt := none, touched := [], discard := 0, badcmd := 0, cause := 0, pendHalt := false, pendKill := false,
    restart := 0, gen := 0, lyrRun := 0, lyrPc := 0, lyrTh := false, checked := none }

/-- A cluster after PORST_N (R197: PARKED; R474: in reset). -/
def Cluster.reset : Cluster :=
  { power := .parked, gen := 0, inReset := true, resetting := false, everRun := false, liveHold := false,
    pllHold := false, lyrSlots := [], lyrOps := [], lyrFlush := none, dchkAt := none }

/-- The counters of a core after a cluster reset (R71, R91). -/
def CoreCnt.reset : CoreCnt := { cycle := 0, issue := 0, idle := 0, at_ := 0, squash := 0, starts := 0 }

/-- A Gecko lock that is free (R281). -/
def Lock.reset : Lock := { owner := none, prio := 0, abandoned := false, rsv := none, till := 0, boosted := false }

/-- Nothing held of a sequence. -/
def SeqRec.reset : SeqRec :=
  { ending := none, entry := false, skipped := false, passed := 0, kids := [], kidsDone := 0, parentDone := false }

def Spawn.reset : Spawn :=
  { hold := [], queues := [], stored := 0, out := [], credit := [], gp := [], qptr := [], gStart := 0, boost := [], boostOf := [], wakes := [], starts := [], asserted := [], storeBp := false,
    orphan := [], born := [], qover := [], lastIn := (0, 0) }

def Bridge.reset : Bridge :=
  { next := [], head := [], recs := [], inbound := [], waiting := [], used := 0, kidsUsed := 0, rStart := 0,
    egress := [], refs := [], till := [] }

/-- A link before it trains. -/
def ObxLink.reset : ObxLink :=
  { txSeq := 0, expect := 0, retry := [], replays := 0, nak := false, txq := [], notices := [], credit := [],
    sent := [], crcum := [], freed := [], told := [], rx := [], peerJoined := false, peerTag := 0, tsid := 0,
    stamps := [], lastTs := none, tsIn := none, peerHops := 127, turn := 0, since := 3 }

def Obx.reset : Obx :=
  { links := [], tx := [], rx := [], reqs := [], recent := [], noticeIn := [], mutes := [], overflow := [], muteFrom := [],
    nextId := 0, hiLatch := 0, slew := 0, good := 0, everJoined := false }

/-- An empty Lyre context (R158). -/
def LyrCtx.reset : LyrCtx :=
  { keyValid := false, alg := 0, phase := 0, key := [], ctr := [], mask := [], authKey := [], acc := 0, aadLen := 0,
    textLen := 0, stream := [], hashAlg := 0, hstate := [], hashed := 0, part := [] }

def Tables.reset : Tables :=
  { queue := [], steps := [], result := none, bulk := none, last := none, filter := [], cands := [],
    stash := [], prefixes := [], quarN := [], held := [], agePos := [], aged := [] }

def HTxq.reset : HTxq := { tail := 0, credit := 0, fetch := none, nextTag := 0, orphans := [], lost := [] }

def HRxq.reset : HRxq := { head := 0, tail := 0 }

/-- An MSI-X vector after a function reset: masked (PRESUMED: PCIe). -/
def Vec.reset : Vec := { addr := 0, data := 0, masked := true, pend := false }

def HostS.reset : HostS :=
  { tx := [], rx := [], mboxq := [], pfault := [], flr := [], mbox := [], vecs := [], vecN := [], mld := [], hdm := [], poisonList := [],
    poisonSeg := [], media := [], aer := [], perst := [] }

def McUnit.reset : McUnit := { good := false, half := false, ue := 0 }

def McCtl.reset : McCtl := { refmode := true, fgr := false, hot := false, pd := [], selfRef := false }

def Gecko.reset : Gecko := { locks := [], regs := [], fifos := [], left := [] }

def Bpm.reset : Bpm :=
  { readSide := [], writeSide := [], ringPos := [], ringLen := [], fetching := [], rp := [], fp := [], allocQ := [], freeQ := [],
    staged := [], held := [], audit := none, auditNext := 0, purge := [], chkBad := [], sealedAt := (0, []) }

def EthPort.reset : EthPort := { pause := [], txts := [] }

def Ev.reset : Ev := { xing := [], arrived := [], bits := [], levels := [], since := [], sent := (0, 0), svcq := [], svcIrq := false, wgLast := [] }

def ClkS.reset : ClkS := { locked := [], runs := [], miss := false, dead := false, irq := false }

def StrS.reset : StrS :=
  { code := 0, section_ := 0, hash := [], clusters := [], seeds := [], weights := none, progs := [], boot := none }

def EpcS.reset : EpcS := { next := 0, phase := 0, verdict := none, gate := 0, gateWord := 0, held := [], late := [] }

def DstS.reset : DstS :=
  { log := [], walk := none, walked := false, marks := [], sent := 0, rx := [], markers := [],
    bank := 0, hbSeq := 0, hbSeen := false, handover := 0 }

def PlanQ.reset : PlanQ := { dv := 0, db := 0, waited := 0, high := 0, staged := false }

def PwrS.reset : PwrS :=
  { out := false, good := 0, armed := true, tripped := false, before := 1, target := 1, again := false, plan := [],
    eqh := 0, seen := 0, dHist := [], below := false, vinUp := 0, fresh := [] }

/-- PORST_N asserted, VAON up, both flashes erased. -/
def SvcS.reset : SvcS :=
  { vaon := true, porst := true, porstN := false, relAt := 0, mode := .off, dropped := [], key := 0, flash0 := [], flash1 := [],
    sess := none, lastSess := 0, activated := false, presLow := false, lfsr := 1, mism := 0, same := 0, owedTset := 0,
    commitDue := false, traffic := false, lastTraffic := false, day := 0, due := [], expired := [], dynAddr := none, mismAt := 0,
    clearAt := 0 }

def TelS.reset : TelS := { writing := none, lost := 0, seq := 0, jump := false }

/-- The machine after reset. -/
def State.reset : State :=
  { now := 0, freeCtr := 0, pending := [], csr := [], shadow := [], mem := [], scratch := [], code := [], slotRam := [],
    threads := [], cores := [], ops := [], nextOp := 0, clusters := [], spawn := Spawn.reset, bridge := Bridge.reset,
    bpm := Bpm.reset, tiles := [], poison := [],
    img := { ports := [], hlinks := [], olinks := [], steer := [], entry := [] }, eth := [], clkBase := 0, clkAt := 0,
    gecko := Gecko.reset, ev := Ev.reset, obx := Obx.reset, tbl := Tables.reset, host := HostS.reset, mc := { units := [], ctls := [] },
    clk := ClkS.reset, str := StrS.reset, epc := EpcS.reset, dst := DstS.reset, pwr := PwrS.reset, svc := SvcS.reset,
    tel := TelS.reset, outbox := [] }

end Sys2Proof.Machine
end

