-- ==== Sys2Proof/Machine/Ops.lean ====
section
/-! DEFINITION. The named operations over State that every command shares: register access by name and field, free
values, memory bytes, identifiers, event sources and their crossings. -/

namespace Sys2Proof.Machine

/-! ## Registers -/

/-- Reset value of the register at CSR offset `a` (0 for an offset no register occupies); array elements whose reset
value depends on the index are set here: OBX_VCCFG.class (R418) and MC_ID (R339); and fused values (R11, R499, R538). -/
def resetWord (a : Nat) : Word :=
  match findReg regTable a with
  | none => 0
  | some (r, l) =>
    match r.id, l with
    | .OBX_VCCFG, [v] => BitVec.ofNat 48 (r.reset + (if v = 6 then 0x4000 else if v = 7 then 0x8000 else 0))
    | .MC_ID, [m] => BitVec.ofNat 48 (if m < 4 then 0x1000 + m * 0x100 else 0x2000 + (m - 4) * 0x100)
    | .IDN_PART, _ => BitVec.ofNat 48 (r.reset + (if Config.longLife then 0x200 else 0x100))
    | .IDN_STEP, _ => BitVec.ofNat 48 ((1 + Config.stepMajor.toNat % 255) * 256 + Config.stepMinor.toNat)
    | .IDN_COMPAT, _ => BitVec.ofNat 48 (r.reset + (1 + Config.levelMaxLess1.toNat % 255) * 256)
    | .PWR_FUSE, [q] => Config.fuse q &&& 0xFFFFF01FFF3F
    | .PWR_PLAN, [q] => BitVec.ofNat 48 (r.reset + (Config.fuse q).toNat % 64 * 256)
    | .PWR_DIEID, _ => Config.dieId
    | .PWR_LIFEOTP, _ => BitVec.ofNat 48 Config.lifeSteps.toNat
    | .PWR_RSTCAUSE, _ => 1
    | .SVC_OTP, _ => BitVec.ofNat 48 Config.otp.toNat
    | .SVC_MAC, _ => Config.mac
    | .SVC_SEC, _ => if Config.otp.toNat / 2 ^ 21 % 32 < Config.otp.toNat / 2 ^ 16 % 32 then 2 else 0
    | _, _ => BitVec.ofNat 48 r.reset

/-- Value of the register at CSR offset `a`. -/
def rd (s : State) (a : Nat) : Word := (Tab.find? s.csr a).getD (resetWord a)

/-- Sets the register at CSR offset `a`; a register at its reset value is not listed. -/
def wr (s : State) (a : Nat) (w : Word) : State :=
  { s with csr := if w = resetWord a then Tab.del a s.csr else Tab.put s.csr a w }

/-- A field of a register. -/
def fld (s : State) (a : Nat) (f : Fld) : Nat := getF (rd s a) f

/-- Sets a field of a register. -/
def setFld (s : State) (a : Nat) (f : Fld) (v : Nat) : State := wr s a (putF (rd s a) f v)

/-- Adds to a counter field that saturates at its largest value. -/
def bumpBy (s : State) (a : Nat) (f : Fld) (k : Nat) : State := setFld s a f (satAdd f.width (fld s a f) k)

/-- Counts one in a saturating field. -/
def bump (s : State) (a : Nat) (f : Fld) : State := bumpBy s a f 1

/-- Counts `k` in a wrapping field. -/
def bumpWrapBy (s : State) (a : Nat) (f : Fld) (k : Nat) : State := setFld s a f (fld s a f + k)

def bumpWrap (s : State) (a : Nat) (f : Fld) : State := bumpWrapBy s a f 1

/-- Raises a field to a value if it is lower (a high-water mark). -/
def markHigh (s : State) (a : Nat) (f : Fld) (v : Nat) : State := if fld s a f < v then setFld s a f v else s

/-- Whether a one-bit field is 1. -/
def flag (s : State) (a : Nat) (f : Fld) : Bool := fld s a f != 0

/-! ## Free values, outside, identifiers -/

/-- Draws the next free value. -/
def draw (s : State) : Word × State := (Config.freeValue s.freeCtr, { s with freeCtr := s.freeCtr + 1 })

/-- A free choice among `c` and the elements of `l` (R78: unspecified which). -/
def choose {α : Type} (s : State) (c : α) (l : List α) : α × State :=
  match l with
  | [] => (c, s)
  | _ =>
    let (w, s') := draw s
    ((c :: l).getD (w.toNat % (l.length + 1)) c, s')

/-- Sends something to the outside. -/
def emit (s : State) (o : Output) : State := { s with outbox := s.outbox ++ [o] }

/-- The device ID of this device: OBX_ID.devid, 0 until joined is first set (R71, R409). -/
def devId (s : State) : Nat := if s.obx.everJoined then fld s Reg.OBX_ID F.OBX_ID_devid else 0

/-- Agent ID of a local agent of this device (R4). -/
def agentId (s : State) (loc : Nat) : Nat := devId s * 0x4000 + loc

/-- The local agent and device of an agent ID (R4). -/
def agentLoc (a : Nat) : Nat := a % 0x4000
def agentDev (a : Nat) : Nat := a / 0x4000 % 1024

/-- A local agent R4 names. -/
def knownAgent (a : Nat) : Bool :=
  decide (a < 0xC00) || a == 0xC00 || (decide (0x1000 ≤ a) && decide (a < 0x1400)) ||
    (decide (0x2000 ≤ a) && decide (a < 0x2100)) || a == 0x3000

/-- Local agent of the Service Newt, and of the board management controller (R4). -/
def svcAgent : Nat := 0x0C00
def bmcAgent : Nat := 0x3000
/-- A host function's local agent (R4). -/
def onHostFn (fn : Nat) : Bool := decide (0x1000 ≤ fn) && decide (fn < 0x1400)
/-- Static address of the I3C and SMBus target (R535). -/
def bmcAddr : Nat := 0x4C

/-- Cluster, core within cluster, and number within cluster of a local thread index (R3). -/
def thCluster (t : Nat) : Nat := t / 128
def thCore (t : Nat) : Nat := t / 8 % 16
def thNum (t : Nat) : Nat := t % 128

/-- Quadrant of a cluster (R2). -/
def quadOf (c : Nat) : Nat := c / 6

/-- Event source of the core of a thread (R86): cluster × 16 + core. -/
def coreSrc (t : Nat) : Nat := t / 8

/-! ## Tables of State -/

def th (s : State) (t : Nat) : Thread := Tab.get Thread.reset s.threads t

def setTh (s : State) (t : Nat) (v : Thread) : State := { s with threads := Tab.set Thread.reset s.threads t v }

def updTh (s : State) (t : Nat) (f : Thread → Thread) : State := setTh s t (f (th s t))

def clu (s : State) (c : Nat) : Cluster := Tab.get Cluster.reset s.clusters c

def setClu (s : State) (c : Nat) (v : Cluster) : State := { s with clusters := Tab.set Cluster.reset s.clusters c v }

def updClu (s : State) (c : Nat) (f : Cluster → Cluster) : State := setClu s c (f (clu s c))

def core (s : State) (n : Nat) : CoreCnt := Tab.get CoreCnt.reset s.cores n

def updCore (s : State) (n : Nat) (f : CoreCnt → CoreCnt) : State :=
  { s with cores := Tab.upd CoreCnt.reset s.cores n f }

def lock (s : State) (n : Nat) : Lock := Tab.get Lock.reset s.gecko.locks n

def setLock (s : State) (n : Nat) (v : Lock) : State :=
  { s with gecko := { s.gecko with locks := Tab.set Lock.reset s.gecko.locks n v } }

/-- Threads of a cluster (local indices) and of a core. -/
def clusterThreads (c : Nat) : List Nat := (List.range 128).map (fun i => c * 128 + i)

/-- Applies an operation for each element of a list, in order. -/
def forEach {α : Type} (l : List α) (f : α → State → State) (s : State) : State := l.foldl (fun s a => f a s) s

/-! ## Memory bytes -/

/-- A byte of memory: an unlisted address reads 0 (assumption log). -/
def rdByte (m : List Host.Cell) (a : Nat) : Byte := Tab.get 0 m a

/-- Writes a byte of memory, keeping the canonical form. -/
def wrByte (m : List Host.Cell) (a : Nat) (b : Byte) : List Host.Cell := Tab.set 0 m a b

/-- `n` bytes from `a`. -/
def rdBytes (m : List Host.Cell) (a : Nat) : Nat → List Byte
  | 0 => []
  | n + 1 => rdByte m a :: rdBytes m (a + 1) n

/-- Writes bytes from `a` up. -/
def wrBytes (m : List Host.Cell) (a : Nat) : List Byte → List Host.Cell
  | [] => m
  | b :: r => wrBytes (wrByte m a b) (a + 1) r

/-- The canonical form of a memory: rising addresses, no listed byte equal to the default. -/
abbrev Memory.wf (m : List Host.Cell) : Prop := Tab.wf 0 m = true

/-- Little-endian number of `n` bytes of the physical memory at `a`. -/
def memNat (s : State) (a n : Nat) : Nat := leNat (rdBytes s.mem a n)

/-! ## Event sources (R296, R458–R459) -/

/-- ECLK domain of the die a lane group is on (R33): of no group, IOA's. -/
def groupDomain (c : Option PortCfg) : Nat :=
  match c with
  | some c => 77 + c.group / 4
  | none => 77

/-- Clock domain (R453) a source's pulses come from; 11 (NCLK of IOA) is the controller's own (DEDUCED: the ranges of
R296 give the owning block, and R453 the block's clock; a port's or link's is the ECLK of its die, R33). -/
def srcDomain (s : State) (n : Nat) : Nat :=
  if n < 384 then 13 + n / 16
  else if n < 480 then 13 + (n - 384) / 4
  else if n < 768 then 11
  else if n < 832 then 65 + (n - 768) / 16
  else if n < 1024 then 69 + (n - 832) / 16 % 8
  else if n < 1216 then groupDomain (Tab.find? s.img.ports ((n - 1024) % 64))
  else if n < 1280 then 77
  else if n < 1408 then 11
  else if n < 1416 then groupDomain (Tab.find? s.img.olinks (n - 1408))
  else if n < 1536 then 77
  else if n < 1600 then 11
  else if n < 1728 then 2
  else if n < 1792 then 0
  else if n < 1856 then 2
  else 11

/-- A source becomes PENDING with one occurrence. -/
def evPending (n at_ : Nat) (held : Bool) (s : State) : State :=
  let a := Reg.EVT_CFG n
  let s1 := { s with ev := { s.ev with since := Tab.set (0, false) s.ev.since n (at_, held) } }
  setFld (setFld s1 a F.EVT_CFG_state 1) a F.EVT_CFG_merged 1

/-- A pulse of source `n` that is taken by the controller: the row of R297 for its state. -/
def evPulse (s : State) (n : Nat) : State :=
  let a := Reg.EVT_CFG n
  if !flag s a F.EVT_CFG_en then s
  else
    let lvl := fld s a F.EVT_CFG_mode == 0
    match fld s a F.EVT_CFG_state with
    | 0 => evPending n s.now false s
    | 1 => if lvl then s else bump s a F.EVT_CFG_merged
    | 2 => if lvl then s else setFld s a F.EVT_CFG_state 3
    | _ => if lvl then s else bump (setFld s a F.EVT_CFG_ovr 1) a F.EVT_CFG_loss

/-- A pulse reaches the handshake crossing of source `n` (R459). A pulse lost sets CRS_DOMSTAT.ovr of its domain; the
first loss raises CRS_PULSE_OVERRUN (1600), whose own crossing is that of the CLKRST block. -/
def xingPulse (s : State) (n : Nat) : State × Bool :=
  match Tab.get 0 s.ev.xing n with
  | 0 => ({ s with ev := { s.ev with xing := Tab.set 0 s.ev.xing n 1 } }, false)
  | 1 => ({ s with ev := { s.ev with xing := Tab.set 0 s.ev.xing n 2 } }, false)
  | _ =>
    let a := Reg.CRS_DOMSTAT (srcDomain s n)
    let was := flag s a F.CRS_DOMSTAT_ovr
    (bump (setFld s a F.CRS_DOMSTAT_ovr 1) a F.CRS_DOMSTAT_loss, !was)

/-- Raises event source `n`: one occurrence (R296). A source of the controller's own clock domain is taken at once; any
other goes through its handshake crossing: in level mode a bit crossing, which a pulse that finds it busy does not pass
(R460). -/
def raise (s : State) (n : Nat) : State :=
  if srcDomain s n = 11 then evPulse s n
  else if fld s (Reg.EVT_CFG n) F.EVT_CFG_mode = 0 then
    if Tab.get 0 s.ev.bits n = 0 then { s with ev := { s.ev with bits := Tab.set 0 s.ev.bits n 1 } } else s
  else
    let (s1, first) := xingPulse s n
    if first then (xingPulse s1 1600).1 else s1

/-- The flush of a half-reset domain's crossings is counted and raised (R469); the crossings hold nothing the state
lists beside what the owning chapter disposes of. -/
def halfFlush (s : State) : State := raise (bump s Reg.CRS_CNT F.CRS_CNT_half_resets) 1601

/-- Completion of the transfers in the crossings of source `n` (R458–R460): the pulse is delivered, and the pending one, if
any, is accepted; the bit is delivered, and after a one its zero is accepted. -/
def xingDeliver (s : State) (n : Nat) : State :=
  let e := s.ev
  let e1 := match Tab.get 0 e.xing n with
    | 0 => e
    | k => { e with xing := Tab.set 0 e.xing n (k - 1), arrived := Tab.upd 0 e.arrived n (· + 1) }
  let e2 := match Tab.get 0 e.bits n with
    | 0 => e1
    | k => { e1 with bits := Tab.set 0 e1.bits n (if k = 1 then 2 else 0), levels := Tab.upd [] e1.levels n (· ++ [k == 1]) }
  { s with ev := e2 }

/-! ## The mirror log of a pair (R436, R445) -/

def dstRole (s : State) : Nat := fld s Reg.DST_STAT F.DST_STAT_role
def dstSync (s : State) : Nat := fld s Reg.DST_STAT F.DST_STAT_sync
def setSync (s : State) (v : Nat) : State := setFld s Reg.DST_STAT F.DST_STAT_sync v

/-- UNSYNCED: counted and raised, capture stops and the log empties (R445). -/
def unsync (s : State) : State :=
  let s1 := { s with dst := { s.dst with log := [], walk := none, walked := false, marks := [] } }
  let s2 := setFld s1 Reg.DST_BACKLOG F.DST_BACKLOG_entries 0
  if dstSync s = 3 then s2 else raise (bump (setSync s2 3) Reg.DST_CNT1 F.DST_CNT1_unsynced) 1554

/-- An address lies in a table's memory, which is never mirrored (R276). -/
def tableMem (s : State) (a : Nat) : Bool :=
  (decide (0x200000000 ≤ a) && decide (a < 0x204000000)) || (List.range 32).any (fun t =>
    let c := rd s (Reg.TBL_T_CFG t)
    let b := (rd s (Reg.TBL_T_BASE t)).toNat
    getF c F.TBL_T_CFG_place == 1 && decide (b ≤ a) && decide (a < b + 64 * 2 ^ getF c F.TBL_T_CFG_log2n))

/-- An address lies in a mirrored region. -/
def mirrored (s : State) (a : Nat) : Bool :=
  !tableMem s a && (List.range 16).any (fun k =>
    let base := fld s (Reg.DST_RBASE k) F.DST_RBASE_base * 4096
    decide (base ≤ a) && decide (a < base + fld s (Reg.DST_RLEN k) F.DST_RLEN_len * 4096))

/-- The active device captures while the copy is being made or is in sync. -/
def capturing (s : State) : Bool := dstRole s == 1 && (dstSync s == 1 || dstSync s == 2)

/-- Entries the log of DST_LOG holds. -/
def logRoom (s : State) : Nat := fld s Reg.DST_LOG F.DST_LOG_size * 8192

/-- A capture is appended to the log; overflow ends the synchronism. -/
def capture (a : Nat) (s : State) : State :=
  if !capturing s then s
  else if logRoom s ≤ s.dst.log.length then unsync s
  else
    let c : Capture := { epoch := (rd s Reg.EPC_NUM).toNat, addr := a, line := rdBytes s.mem a 64 }
    let n := s.dst.log.length + 1
    markHigh (setFld { s with dst := { s.dst with log := s.dst.log ++ [c] } } Reg.DST_BACKLOG F.DST_BACKLOG_entries n)
      Reg.DST_BACKHWM F.DST_BACKHWM_entries n

/-- Stores bytes in the physical memory; each mirrored 64-byte line they change is captured. -/
def storeMem (s : State) (a : Nat) (l : List Byte) : State :=
  let s1 := { s with mem := wrBytes s.mem a l }
  if !capturing s then s1
  else
    forEach (List.range ((a % 64 + l.length + 63) / 64)) (fun i s' =>
      let x := a / 64 * 64 + 64 * i
      if mirrored s x && decide (rdBytes s.mem x 64 ≠ rdBytes s1.mem x 64) then capture x s' else s') s1

end Sys2Proof.Machine
end

