-- ==== Sys2Proof/Machine/Operands.lean ====
section
/-! DEFINITION. The operand forms of Newt instructions (R72, R74): fields of the instruction word, register and CSR
operands with the distances of R77–R80 and R580, register writes, and the near address map (R89). -/

namespace Sys2Proof.Machine

/-! ## Fields of the instruction word (R72, R74) -/

def iOpcode (w : Word) : Nat := bitsN w.toNat 43 36
def iNeg (w : Word) : Bool := w.toNat.testBit 47
def iGuardP (w : Word) : Nat := bitsN w.toNat 46 44
def iD (w : Word) : Nat := bitsN w.toNat 35 31
def iA (w : Word) : Nat := bitsN w.toNat 30 26
def iB (w : Word) : Nat := bitsN w.toNat 25 21
def iFn (w : Word) : Nat := bitsN w.toNat 20 0
def iTok (w : Word) : Nat := bitsN w.toNat 20 17
def iTable (w : Word) : Nat := bitsN w.toNat 16 12
/-- simm21, simm20 and simm17 as words. -/
def iSimm21 (w : Word) : Word := BitVec.ofInt 48 (sextN 21 (iFn w))
def iSimm20 (w : Word) : Word := BitVec.ofInt 48 (sextN 20 (iFn w))
def iSimm17 (w : Word) : Word := BitVec.ofInt 48 (sextN 17 (iFn w))

/-- A 48-bit word from a number. -/
def toW (n : Nat) : Word := BitVec.ofNat 48 n

/-! ## Thread CSR fields (R135) -/

namespace TS
def th : Fld := ⟨11, 11⟩
def pie : Fld := ⟨10, 10⟩
def ie : Fld := ⟨9, 9⟩
def ppriv : Fld := ⟨7, 6⟩
def priv : Fld := ⟨5, 4⟩
def pktPriv : Fld := ⟨3, 2⟩
def repValid : Fld := ⟨47, 47⟩
def repKind : Fld := ⟨46, 46⟩
def repTarget : Fld := ⟨33, 16⟩
def repLeft : Fld := ⟨15, 0⟩
def causeDetail : Fld := ⟨15, 8⟩
def causeCode : Fld := ⟨5, 0⟩
def sp : Fld := ⟨0, 0⟩
def tp : Fld := ⟨1, 1⟩
def ep : Fld := ⟨2, 2⟩
def sie : Fld := ⟨8, 8⟩
def tie : Fld := ⟨9, 9⟩
def eie : Fld := ⟨10, 10⟩
def wake : Fld := ⟨16, 16⟩
end TS

/-- Privilege of a thread: 0 U, 1 S, 2 K (R120). -/
def privOf (x : Thread) : Nat := getF x.csr.tstat TS.priv

/-- THR_TOK (R71) from the tokens. -/
def tokWord (x : Thread) : Word :=
  toW ((List.range 8).foldl (fun n i =>
    match Tab.get Tok.idle x.tok i with
    | .idle => n
    | .pending => n + 2 ^ (8 + i)
    | .done st => n + 2 ^ i + (st % 8) * 2 ^ (24 + 3 * i)) 0)

/-- TTIMER as it stands at an NCLK: it counts down from the last value written, and stays above zero until TTIMER_EXPIRY
takes the step to 0 (R135). -/
def ttimerNow (now : Nat) (x : Thread) : Word :=
  if x.csr.ttimer = 0 then 0 else toW (max 1 (x.csr.ttimer.toNat - (now - x.timerAt)))

/-- Value of a per-thread CSR (R70, R71, R135); `none` for an unassigned number. -/
def csrGet (s : State) (t : Nat) (n : Nat) : Option Word :=
  let x := th s t
  match n with
  | 0x000 => some (toW (agentId s t))
  | 0x001 => some (core s (t / 8)).cycle
  | 0x002 => some x.instret
  | 0x003 => some (tokWord x)
  | 0x400 => some x.csr.fto
  | 0x401 => some x.csr.entry
  | 0x402 => some x.csr.lyrEn
  | 0x800 => some x.csr.tstat
  | 0x801 => some x.csr.tvec
  | 0x802 => some x.csr.tepc
  | 0x803 => some x.csr.tcause
  | 0x804 => some x.csr.tval
  | 0x805 => some x.csr.trep
  | 0x806 => some x.csr.tscratch
  | 0x807 => some (putF x.csr.tint TS.wake (b2n x.wake))
  | 0x808 => some (ttimerNow s.now x)
  | _ => none

/-- A code offset that R109 allows: a multiple of 6 below 262,140. -/
def goodPc (n : Nat) : Bool := n % 6 == 0 && decide (n < 262140)

/-- Whether a CSR has a writable field (R71: a write of a CSR whose fields are all RO traps UNDEF). -/
def csrWritable (n : Nat) : Bool := n == 0x400 || n == 0x401 || n == 0x402 || (decide (0x800 ≤ n) && decide (n ≤ 0x808))

/-- Whether a value may be written to a CSR (R71, R135): THR_ENTRY and TVEC take only offsets of R109. -/
def csrValueOk (n : Nat) (v : Word) : Bool :=
  if n == 0x401 || n == 0x801 then goodPc (bitsN v.toNat 17 0) else true

/-- Writable bits of each CSR. -/
def csrMask (n : Nat) : Nat :=
  match n with
  | 0x400 => 0xFFFF
  | 0x401 => 0x3FFFF
  | 0x402 => 0xFFFFFFFFFC07
  | 0x800 => 0xECC
  | 0x801 => 0x3FFFF
  | 0x802 => 0x3FFFF
  | 0x803 => 0xFF3F
  | 0x805 => 0xC003FFFFFFFF
  | 0x807 => 0x707
  | 0x808 => 0xFFFFFFFFFF
  | _ => 0xFFFFFFFFFFFF

/-- Value a CSR takes on a write: RO bits kept (R71), a 0b11 written to ppriv or pkt_priv leaves the field (R135). -/
def csrMerge (n : Nat) (old v : Word) : Word :=
  let m : Word := toW (csrMask n)
  let v1 := (old &&& ~~~m) ||| (v &&& m)
  if n = 0x800 then
    let v2 := if getF v1 TS.ppriv = 3 then putF v1 TS.ppriv (getF old TS.ppriv) else v1
    if getF v2 TS.pktPriv = 3 then putF v2 TS.pktPriv (getF old TS.pktPriv) else v2
  else v1

/-- Stores a CSR of a thread. -/
def csrPut (now : Nat) (x : Thread) (n : Nat) (v : Word) : Thread :=
  match n with
  | 0x400 => { x with csr := { x.csr with fto := v } }
  | 0x401 => { x with csr := { x.csr with entry := v } }
  | 0x402 => { x with csr := { x.csr with lyrEn := v } }
  | 0x800 => { x with csr := { x.csr with tstat := v } }
  | 0x801 => { x with csr := { x.csr with tvec := v } }
  | 0x802 => { x with csr := { x.csr with tepc := v } }
  | 0x803 => { x with csr := { x.csr with tcause := v } }
  | 0x804 => { x with csr := { x.csr with tval := v } }
  | 0x805 => { x with csr := { x.csr with trep := v } }
  | 0x806 => { x with csr := { x.csr with tscratch := v } }
  | 0x807 => { x with csr := { x.csr with tint := putF v TS.wake 0 } }
  | 0x808 => { x with csr := { x.csr with ttimer := v }, timerAt := now }
  | _ => x

/-! ## Distances (R76–R80, R580) -/

/-- Whether the distance of a producer is met by the next instruction: counted, or given by repeat spacing (R115); for an
asynchronous one, a WAITC of its token returned. -/
def Haz.met (h : Haz) : Bool := h.tok.isNone && (decide (h.need ≤ h.age) || h.rep)

/-- The writes later than W of R78: unmet writes of a key, newest first, up to the newest met one. -/
def unmet (l : List Haz) (k : HazKind) (key : Nat) : List Haz :=
  (l.filter (fun h => decide (h.kind = k) && h.key == key)).takeWhile (fun h => !h.met)

/-- The values a read that stands too close may return (R78): the value after W, then those of the later writes. -/
def cands (l : List Haz) : List Word :=
  match l.getLast? with
  | none => []
  | some h => h.before :: (l.reverse.map (fun h => h.after))

/-- A read of a register, predicate or CSR whose settled value is `cur` (R78, R580): that value when every distance is
met, else a free choice among the values R78 allows. -/
def readHaz (s : State) (t : Nat) (k : HazKind) (key : Nat) (cur : Word) : Word × State :=
  match cands (unmet (th s t).hist k key) with
  | [] => (cur, s)
  | c :: l => choose s c l

/-- An asynchronous operation of a thread that will write register `r` and has not completed (R105). -/
def pendingDest (s : State) (t r : Nat) : Bool :=
  r != 0 && s.ops.any (fun o => o.thread == t && o.dest == r && !o.dead && !o.late)

/-- Zero or sign extension of a loaded value of `n` bytes. -/
def extLoad (signed : Bool) (n v : Nat) : Word := if signed then BitVec.ofInt 48 (sextN (8 * n) v) else toW v

/-- The value a pending operation will write, as far as it is known before it completes: one of its width, or the value
it completes with. -/
def futureValue (k : OpKind) (free : Word) : Word :=
  let ext := fun sg n => extLoad sg n (free.toNat % 256 ^ n)
  match k with
  | .load _ n sg => ext sg n
  | .remote n sg => ext sg n
  | .pld as _ _ => ext false as.length
  | .known _ v => v
  | _ => free

/-- The values that pending operations will write to register `r`. -/
def pendingValues (t r : Nat) (s : State) : List Word × State :=
  (s.ops.filter (fun o => o.thread == t && o.dest == r && !o.dead && !o.late)).foldl (fun p o =>
    let (w, s1) := draw p.2
    (p.1 ++ [futureValue o.kind w], s1)) ([], s)

/-- Reads g[r] (R67, R78): g0 is zero; a destination of a pending operation reads the value it has, one of the writes too
close, or the value the operation will write. -/
def readG (s : State) (t r : Nat) : Word × State :=
  if r = 0 then (0, s)
  else
    let v := Tab.get 0 (th s t).g r
    if pendingDest s t r then
      let (l, s1) := pendingValues t r s
      choose s1 v (cands (unmet (th s t).hist .g r) ++ l)
    else readHaz s t .g r v

/-- Reads p[i] (R68): p0 is 1. -/
def readP (s : State) (t i : Nat) : Bool × State :=
  if i = 0 then (true, s)
  else
    let (v, s1) := readHaz s t .p i (toW (b2n ((th s t).p.testBit i)))
    (v != 0, s1)

/-- Reads a CSR for the behaviour it controls (R580). -/
def readCsr (s : State) (t n : Nat) : Word × State := readHaz s t .csr n ((csrGet s t n).getD 0)

/-- The newest write of a key that stands closer than its distance. -/
def newestUnmet (s : State) (t : Nat) (k : HazKind) (key : Nat) : Option Haz :=
  ((unmet (th s t).hist k key).filter (fun h => h.tok.isNone)).head?

/-- Writes g[r] with the distance of its class (R67, R79): g0 discards; a write too close to an earlier one, or to the
destination of a pending operation, leaves either value. -/
def writeG (s : State) (t r : Nat) (v : Word) (need : Nat) : State :=
  if r = 0 then s
  else
    let x := th s t
    let old := Tab.get 0 x.g r
    let close := !(unmet x.hist .g r).isEmpty
    let (v1, s1) := if close then choose s v [old] else (v, s)
    let h : Haz := { kind := .g, key := r, need := need, age := 0, rep := x.rep.isSome, before := old, after := v,
                     pc := x.pc }
    let s2 := updTh s1 t (fun x => { x with g := Tab.set 0 x.g r v1, hist := h :: x.hist })
    { s2 with ops := s2.ops.map (fun o =>
        if o.thread == t && o.dest == r && !o.dead && !o.late then { o with clobber := v1 :: o.clobber } else o) }

/-- Writes p[i] (R68: p0 discards) with distance 2. -/
def writeP (s : State) (t i : Nat) (v : Bool) : State :=
  if i = 0 then s
  else
    let x := th s t
    let old := x.p.testBit i
    let close := !(unmet x.hist .p i).isEmpty
    let (v1, s1) := if close then choose s v [old] else (v, s)
    let h : Haz := { kind := .p, key := i, need := 2, age := 0, rep := x.rep.isSome, before := toW (b2n old),
                     after := toW (b2n v), pc := x.pc }
    updTh s1 t (fun x => { x with p := putN x.p i i (b2n v1), hist := h :: x.hist })

/-- Writes a CSR with distance 4 (R96). -/
def writeCsr (s : State) (t n : Nat) (v : Word) : State :=
  let x := th s t
  let old := (csrGet s t n).getD 0
  let new := csrMerge n old v
  let h : Haz := { kind := .csr, key := n, need := 4, age := 0, rep := x.rep.isSome, before := old, after := new,
                   pc := x.pc }
  updTh s t (fun x => { csrPut s.now x n new with hist := h :: x.hist })

/-- The write of an asynchronous result (R79, R82): the value `v` or one of `l` stays. It is a producer whose readers must
follow a WAITC of token `k`, and other pending operations with this destination may leave it there. -/
def putG (s : State) (t r k pc : Nat) (v : Word) (l : List Word) : State :=
  if r = 0 then s
  else
    let (v1, s1) := choose s v l
    let h : Haz := { kind := .g, key := r, need := 0, age := 0, rep := false, before := Tab.get 0 (th s t).g r, after := v,
                     pc := pc, tok := some k }
    let s2 := updTh s1 t (fun x => { x with g := Tab.set 0 x.g r v1, hist := h :: x.hist })
    { s2 with ops := s2.ops.map (fun o =>
        if o.thread == t && o.dest == r && !o.dead && !o.late then { o with clobber := v1 :: o.clobber } else o) }

/-- The producers that still matter, newest first: none older than the longest distance, and no completed asynchronous
one behind a later write of its register whose distance is met. -/
def keepHist (l : List Haz) : List Haz :=
  l.foldl (fun acc h =>
    if h.tok.isSome then
      if acc.any (fun e => decide (e.kind = h.kind) && e.key == h.key && e.met) then acc else acc ++ [h]
    else if h.age ≤ 6 then acc ++ [h] else acc) []

/-- The next instruction stands one further from every producer (R76). -/
def ageHist (l : List Haz) : List Haz := keepHist (l.map (fun h => { h with age := h.age + 1 }))

/-- What a boundary of R66 leaves of the producers: those that tokens govern. -/
def drainHist (l : List Haz) : List Haz := l.filter (fun h => h.tok.isSome)

/-- A WAITC of the tokens of `mask` has returned (R77): what they guarded is met. -/
def waitedHist (mask : Nat) (l : List Haz) : List Haz :=
  l.map (fun h => if h.tok.any (fun k => mask.testBit k) then { h with tok := none } else h)

/-! ## Near memory (R89, R91, R181, R581) -/

/-- Where a near byte lies: cluster scratch, slot RAM, or a core-local register byte. -/
inductive NearByte where
  | scratch (key : Nat)
  | slot (key : Nat)
  | coreReg (off : Nat)
deriving DecidableEq, Repr

/-- Result of the near map for one access. -/
inductive NearMap where
  | bytes (l : List NearByte)
  | addrError
  | priv
  | noPacket
deriving DecidableEq, Repr

/-- Slot-RAM key of byte `o` of physical slot `k` of thread `x` of a core. -/
def slotKey (core x k o : Nat) : Nat := core * 0x2000 + x * 0x280 + k * 0x140 + o

/-- The near byte at an address, whoever may reach it; `none` where R89 names nothing. -/
def nearByteAt (s : State) (t a : Nat) : Option NearByte :=
  if a < 0x100000 then some (.scratch (thCluster t * 0x100000 + a))
  else if a < 0x100140 then some (.slot (slotKey (t / 8) (t % 8) (th s t).cur (a - 0x100000)))
  else if 0x101000 ≤ a ∧ a < 0x102400 then some (.slot (t / 8 * 0x2000 + (a - 0x101000)))
  else if 0x10F000 ≤ a ∧ a < 0x10F018 then some (.coreReg (a - 0x10F000))
  else none

/-- The near bytes of an access that exist, lowest address first. -/
def nearBytes (s : State) (t ea n : Nat) : List NearByte := (List.range n).filterMap (fun i => nearByteAt s t (ea + i))

/-- The access touches a current-slot range (R90). -/
def touchesSlot (ea n : Nat) : Bool := decide (ea < 0x100140) && decide (0x100000 < ea + n)

/-- The near map of R89 for `n` bytes at `ea`, as thread `t` reaches it: a load or a store. NO_PACKET comes before
ADDR_ERROR (R122). -/
def nearMap (s : State) (t : Nat) (ea n : Nat) (store : Bool) : NearMap :=
  let x := th s t
  if touchesSlot ea n && x.pkt.isNone then .noPacket
  else if ea + n ≤ 0x100000 ∨ (0x100000 ≤ ea ∧ ea + n ≤ 0x100140 ∧ (0x100040 ≤ ea ∨ ea + n ≤ 0x100040)) ∨
      (0x10F000 ≤ ea ∧ ea + n ≤ 0x10F018 ∧ !store) then .bytes (nearBytes s t ea n)
  else if 0x101000 ≤ ea ∧ ea + n ≤ 0x102400 then
    if privOf x = 0 then .priv else .bytes (nearBytes s t ea n)
  else .addrError

/-- A byte of slot RAM: the byte last written since the cluster's last exit from PARKED, else unspecified (R581). -/
def slotByte (s : State) (key : Nat) : Byte :=
  let g := (clu s (key / 0x2000 / 16)).gen
  match Tab.find? s.slotRam key with
  | some (g', b) => if g' = g then b else Config.slotByte g key
  | none => Config.slotByte g key

/-- The 64 bytes of a descriptor (R169). -/
def descBytes (d : Desc) : List Byte :=
  leBytes 4 d.hash ++ leBytes 3 d.seq ++ leBytes 1 d.flags ++ leBytes 2 d.lane ++ leBytes 2 d.queue ++
  leBytes 4 d.len ++ leBytes 1 d.srcKind ++ leBytes 3 d.src ++ leBytes 2 d.sub ++ leBytes 1 d.l3 ++ leBytes 1 d.l4 ++
  leBytes 8 d.ts ++ leBytes 8 d.buf0 ++ leBytes 8 d.buf1 ++ leBytes 8 d.buf2 ++ leBytes 2 d.etype ++
  leBytes 2 d.vlan ++ leBytes 1 d.kind ++ leBytes 3 0

/-- What a fill of a descriptor may write at byte `o` of the slot: its flags and its header bytes follow the verification
(R170, R183, R184). -/
def fillByte (s : State) (d : Desc) (o : Nat) : List Byte :=
  if o = 7 then [0, 1, 2].map (fun f => BitVec.ofNat 8 (d.flags / 4 * 4 + f))
  else if o < 64 then [(descBytes d).getD o 0]
  else if o - 64 < d.len then [rdByte s.mem (d.buf0 % 2 ^ 48 / 256 * 256 + (o - 64)), 0]
  else [0]

/-- The values a fill in progress may have brought a byte of slot RAM to (R581). -/
def filling (s : State) (key : Nat) : List Byte :=
  let k := key % 0x2000
  let x := th s (key / 0x2000 * 8 + k / 0x280)
  match if k % 0x280 < 0x140 then x.slot0 else x.slot1 with
  | .filling d _ => fillByte s d (k % 0x140)
  | _ => []

/-- A core-local register (R91): CORE_ID, CORE_ISSUE, CORE_IDLE, in 8-byte slots whose upper bytes read zero. -/
def coreReg (s : State) (n k : Nat) : Word :=
  match k with
  | 0 => toW n
  | 1 => (core s n).issue
  | _ => (core s n).idle

/-- The settled value of a near byte. -/
def nearRd (s : State) (t : Nat) : NearByte → Byte
  | .scratch k => rdByte s.scratch k
  | .slot k => slotByte s k
  | .coreReg o => if o % 8 < 6 then BitVec.ofNat 8 ((coreReg s (t / 8) (o / 8)).toNat / 256 ^ (o % 8)) else 0

/-- Stores a near byte; the core-local registers are read only. -/
def nearWr (s : State) (b : NearByte) (v : Byte) : State :=
  match b with
  | .scratch k => { s with scratch := wrByte s.scratch k v }
  | .slot k => { s with slotRam := Tab.put s.slotRam k ((clu s (k / 0x2000 / 16)).gen, v) }
  | .coreReg _ => s

/-- Key of a near byte in the history of near stores. -/
def NearByte.key : NearByte → Nat
  | .scratch k => k
  | .slot k => 2 ^ 40 + k
  | .coreReg o => 2 ^ 41 + o

/-- A byte that an accepted Lyre operation of cluster `c` may be writing: cluster scratch, or physical memory (R149). -/
def lyrWriting (s : State) (c a : Nat) : Bool :=
  (clu s c).lyrOps.any (fun o => !o.bad && decide (o.dst ≤ a) && decide (a < o.dst + o.dstLen))

/-- A byte read from where a Lyre operation may be writing: the old one or the result, which is not known before the
operation completes (R149). -/
def lyrOldNew (writing : Bool) (v : Byte) (s : State) : Byte × State :=
  if writing then
    let (w, s1) := draw s
    choose s1 v [BitVec.ofNat 8 w.toNat]
  else (v, s)

/-- The near byte lies in the dst buffer of a Lyre operation of the thread's cluster. -/
def nearWriting (s : State) (t : Nat) (b : NearByte) : Bool :=
  match b with
  | .scratch k => lyrWriting s (thCluster t) (k % 0x100000)
  | _ => false

/-- What the hardware's own writers make of a near byte read now: one of a slot being filled is old or new (R581), one of
a dst buffer old or the result (R149). -/
def nearMoving (s : State) (t : Nat) (b : NearByte) : Byte × State :=
  match b with
  | .slot k => choose s (nearRd s t b) (filling s k)
  | _ => lyrOldNew (nearWriting s t b) (nearRd s t b) s

/-- Reads one near byte as a near load sees it: a byte stored within the last 2 instructions is old or new (R78). -/
def nearLoadByte (s : State) (t : Nat) (b : NearByte) : Byte × State :=
  let (v, s1) := nearMoving s t b
  match cands (unmet (th s t).hist .near b.key) with
  | [] => (v, s1)
  | c :: l =>
    let (w, s2) := choose s1 c (l ++ [toW v.toNat])
    (BitVec.ofNat 8 w.toNat, s2)

/-- Reads near bytes, lowest address first. -/
def nearLoad (s : State) (t : Nat) : List NearByte → List Byte × State
  | [] => ([], s)
  | b :: r =>
    let (v, s1) := nearLoadByte s t b
    let (vs, s2) := nearLoad s1 t r
    (v :: vs, s2)

/-- Stores near bytes and records them for the 3-instruction rule of R77. -/
def nearStore (s : State) (t : Nat) : List NearByte → List Byte → State
  | b :: r, v :: vs =>
    let x := th s t
    let h : Haz := { kind := .near, key := b.key, need := 3, age := 0, rep := x.rep.isSome,
                     before := toW (nearRd s t b).toNat, after := toW v.toNat, pc := x.pc }
    nearStore (updTh (nearWr s b v) t (fun x => { x with hist := h :: x.hist })) t r vs
  | _, _ => s

/-- Whether a near access overlaps a near store of the thread within 3 instructions (R105 kind 6). -/
def nearClose (s : State) (t : Nat) (l : List NearByte) : Option Haz :=
  l.findSome? (fun b => newestUnmet s t .near b.key)

end Sys2Proof.Machine
end

