-- ==== Sys2Proof/Machine/Flags.lean ====
section
/-! DEFINITION. Conditions, predicate combining and the data-processing functions of the Newt core (R92–R95). -/

namespace Sys2Proof.Machine

/-- The conditions of R94 (codes 0–7). -/
def condOf (code : Nat) (a b : Word) : Bool :=
  match code with
  | 0 => a == b
  | 1 => a != b
  | 2 => BitVec.slt a b
  | 3 => !BitVec.slt a b
  | 4 => BitVec.ult a b
  | 5 => !BitVec.ult a b
  | 6 => (a &&& b) != 0
  | _ => (a &&& b) == 0

/-- The combine of R94: 0 set, 1 AND, 2 OR. -/
def combine (k : Nat) (old c : Bool) : Bool :=
  match k with
  | 0 => c
  | 1 => old && c
  | _ => old || c

/-- The predicate operations of R95. -/
def plogOf (code : Nat) (a b : Bool) : Bool :=
  match code with
  | 0 => a && b
  | 1 => a || b
  | 2 => Bool.xor a b
  | 3 => a && !b
  | 4 => !(a && b)
  | 5 => !(a || b)
  | 6 => a
  | _ => !a

/-- Shifts of R92: a count of 48 or more empties the word, or fills it with sign bits. -/
def shlW (a b : Word) : Word := if b.toNat < 48 then a <<< b.toNat else 0
def shrW (a b : Word) : Word := if b.toNat < 48 then a >>> b.toNat else 0
def sarW (a b : Word) : Word := BitVec.sshiftRight a (min b.toNat 47)
def rolW (a b : Word) : Word := let k := b.toNat % 48; (a <<< k) ||| (a >>> (48 - k))
def rorW (a b : Word) : Word := let k := b.toNat % 48; (a >>> k) ||| (a <<< (48 - k))

def minW (a b : Word) : Word := if BitVec.slt b a then b else a
def maxW (a b : Word) : Word := if BitVec.slt a b then b else a
def minuW (a b : Word) : Word := if BitVec.ult b a then b else a
def maxuW (a b : Word) : Word := if BitVec.ult a b then b else a

/-- High words of the signed and unsigned products. -/
def mulhW (a b : Word) : Word := BitVec.ofInt 48 ((a.toInt * b.toInt) / 2 ^ 48)
def mulhuW (a b : Word) : Word := toW (a.toNat * b.toNat / 2 ^ 48)

/-- Leading zeros among the top `n` positions below bit `n`. -/
def clzN (v : Nat) : Nat → Nat
  | 0 => 0
  | n + 1 => if v.testBit n then 0 else clzN v n + 1

def clzW (a : Word) : Word := toW (clzN a.toNat 48)
def popcW (a : Word) : Word := toW ((List.range 48).countP (fun i => a.toNat.testBit i))

/-- pos and len of a bit-field instruction (R92), and whether R92 allows them. -/
def bfPos (w : Word) : Nat := bitsN w.toNat 17 12
def bfLen (w : Word) : Nat := bitsN w.toNat 5 0
def bfOk (w : Word) : Bool :=
  decide (1 ≤ bfLen w) && decide (bfPos w + bfLen w ≤ 48) && bitsN w.toNat 20 18 == 0 && bitsN w.toNat 11 6 == 0

def bextW (a : Word) (pos len : Nat) : Word := toW (bitsN a.toNat (pos + len - 1) pos)
def bextsW (a : Word) (pos len : Nat) : Word := BitVec.ofInt 48 (sextN len (bitsN a.toNat (pos + len - 1) pos))
def binsW (d a : Word) (pos len : Nat) : Word := toW (putN d.toNat (pos + len - 1) pos a.toNat)

/-- The low 16, 32 or 48 bits of a word byte-reversed (R92). -/
def bswapW (a : Word) (k : Nat) : Word :=
  let n := 2 * (k + 1)
  toW (leNat (leBytes n a.toNat).reverse)

/-- The value of near atomics (R97): 0 add, 1 and, 2 or, 3 xor, 4 swap, 5 compare and swap with compare value `c`. -/
def atomNew (fn : Nat) (m b c : Word) : Word :=
  match fn with
  | 0 => m + b
  | 1 => m &&& b
  | 2 => m ||| b
  | 3 => m ^^^ b
  | 4 => b
  | _ => if m = c then b else m

end Sys2Proof.Machine
end

