-- ==== Sys2Proof/Machine/ThreadOps.lean ====
section
/-! DEFINITION. What every Newt instruction shares: readiness and issue (R63, R73, R75), the distance checker
(R104–R106), commit and repeats (R113–R119), trap and interrupt entry (R122–R125), wakes (R128–R129), and the life of an
asynchronous operation (R81–R88). -/

namespace Sys2Proof.Machine

/-! ## Interrupts -/

/-- Code of the interrupt that TSTAT and TINT make pending and enabled (R125): the lowest one. -/
def intCode (tstat tint : Word) : Option Nat :=
  if getF tstat TS.ie = 0 ∨ getF tstat TS.th = 1 then none
  else if getF tint TS.sp = 1 ∧ getF tint TS.sie = 1 then some 0x30
  else if getF tint TS.tp = 1 ∧ getF tint TS.tie = 1 then some 0x31
  else if getF tint TS.ep = 1 ∧ getF tint TS.eie = 1 then some 0x32
  else none

/-- The values of a CSR that may govern the next instruction (R580): the settled one, or those R78 allows. -/
def csrCands (s : State) (t n : Nat) : List Word :=
  match cands (unmet (th s t).hist .csr n) with
  | [] => [(csrGet s t n).getD 0]
  | l => l

/-- The interrupt codes a thread may take now: one per setting that R580 allows; empty when none is pending. -/
def intChoices (s : State) (t : Nat) : List (Option Nat) :=
  (csrCands s t 0x800).flatMap (fun a => (csrCands s t 0x807).map (fun b => intCode a b))

/-- Some setting allowed by R580 has an interrupt pending and enabled. -/
def intMay (s : State) (t : Nat) : Bool := (intChoices s t).any (fun o => o.isSome)

/-- Every setting allowed by R580 has one: the thread issues no further instruction (R125). -/
def intMust (s : State) (t : Nat) : Bool := (intChoices s t).all (fun o => o.isSome)

/-! ## Readiness -/

/-- The thread runs a packet, start or service context (R121, R131). -/
def running (x : Thread) : Bool :=
  decide (x.state = .packet) || decide (x.state = .start) || decide (x.state = .service)

/-- The thread's cluster is in RUN and not in reset. -/
def clusterRuns (s : State) (t : Nat) : Bool :=
  let c := clu s (thCluster t)
  decide (c.power = .run) && !c.inReset && !c.resetting

/-- The thread may issue an instruction (R63, R125): it runs a context, waits in nothing, and no halt, kill or interrupt
is pending; a REPN in progress is not interrupted (R118). -/
def ready (s : State) (t : Nat) : Bool :=
  let x := th s t
  running x && decide (x.wait = .none) && !x.pendKill && clusterRuns s t &&
    (match x.rep with
     | some r => r.noInt || (!x.pendHalt && !intMust s t)
     | none => !x.pendHalt && !intMust s t)

/-! ## Commit (R64, R76) and repeats (R113–R119) -/

/-- The BUSY run of an LYR after a commit (R157): it stands while only a handler entered during its wait has run. -/
def lyrRunAfter (x : Thread) : Nat := if (getF x.csr.tstat TS.th == 1) == x.lyrTh then 0 else x.lyrRun

/-- Commit of an instruction whose next pc is `npc`: it is counted (R71), distances advance by one (R76), and a repeat
counts its iteration and moves on after the last one. -/
def finish (s : State) (t npc : Nat) : State :=
  updTh s t (fun x =>
    let h := ageHist x.hist
    let x := { x with lyrRun := lyrRunAfter x }
    match x.rep with
    | none => { x with instret := x.instret + 1, hist := h, pc := npc }
    | some r =>
      if r.left ≤ 1 then
        { x with instret := x.instret + 1, hist := h.map (fun e => { e with rep := false }), pc := x.pc + 6, rep := none }
      else { x with instret := x.instret + 1, hist := h, rep := some { r with left := r.left - 1 } })

/-- Commit of an instruction that continues at pc + 6. -/
def finishSeq (s : State) (t : Nat) : State := finish s t ((th s t).pc + 6)

/-! ## Trap and interrupt entry (R123, R124) -/

/-- TREP at an entry (R118): the repeat in progress when the entry returns to the repeated instruction, else valid 0. -/
def trepAtEntry (x : Thread) (ret : Nat) : Word :=
  match x.rep with
  | some r =>
    if ret = x.pc then
      toW (0x800000000000 + b2n r.noInt * 0x400000000000 + (x.pc % 0x40000) * 0x10000 + r.left % 0x10000)
    else putF x.csr.trep TS.repValid 0
  | none => putF x.csr.trep TS.repValid 0

/-- Entry with code `c`, detail, TVAL value and return offset `r` (R124). With TSTAT.th set it is a double trap: the
thread halts in DOUBLE and its core's event source is raised. Every write of committed instructions has taken effect
(R66); asynchronous destinations stay governed by their tokens. -/
def enterHandler (s : State) (t c detail : Nat) (v : Word) (r : Nat) : State :=
  let x := th s t
  if getF x.csr.tstat TS.th = 1 then
    raise (setTh s t { x with state := .double, cause := c, rep := none, wait := .none, hist := drainHist x.hist }) (coreSrc t)
  else
    let st0 := x.csr.tstat
    let st1 := putF st0 TS.ppriv (getF st0 TS.priv)
    let st2 := putF st1 TS.pie (getF st0 TS.ie)
    let st3 := putF (putF (putF st2 TS.ie 0) TS.th 1) TS.priv 2
    setTh s t { x with
      csr := { x.csr with tstat := st3, tepc := toW (r % 0x40000), tcause := toW (detail * 0x100 + c), tval := v,
                          trep := trepAtEntry x r },
      pc := bitsN x.csr.tvec.toNat 17 0, rep := none, wait := .none, hist := drainHist x.hist }

/-- Younger instructions of a thread may be squashed: up to `k` that were issued, and up to `l` LYRs that had started
(R65, R91, R154). -/
def squashed (s : State) (t k l : Nat) : State :=
  updCore s (t / 8) (fun x => { x with squash := x.squash + k, starts := x.starts + l })

/-- Entry by a trap: an instruction that traps at stage 7 or before squashes the younger ones in stages 1–6 (R65). -/
def trapEnter (s : State) (t c detail : Nat) (v : Word) (r : Nat) : State :=
  enterHandler (squashed s t 6 3) t c detail v r

/-- A trap of the instruction at the thread's pc, detail 0 or as given. -/
def trapAt (s : State) (t c detail : Nat) (v : Word) : State := trapEnter s t c detail v (th s t).pc

def trapUndef (s : State) (t : Nat) (w : Word) : State := trapAt s t 0x01 0 w
def trapPriv (s : State) (t : Nat) (w : Word) : State := trapAt s t 0x02 0 w
def trapPrivAddr (s : State) (t ea : Nat) : State := trapAt s t 0x02 1 (toW ea)
def trapAddr (s : State) (t ea : Nat) : State := trapAt s t 0x03 0 (toW ea)
def trapAlign (s : State) (t ea : Nat) : State := trapAt s t 0x04 0 (toW ea)
def trapProt (s : State) (t ea : Nat) : State := trapAt s t 0x05 0 (toW ea)
def trapNoPacket (s : State) (t : Nat) (w : Word) : State := trapAt s t 0x06 0 w
def trapTokBusy (s : State) (t k : Nat) : State := trapAt s t 0x07 0 (toW k)
def trapPcRange (s : State) (t : Nat) (target : Word) : State := trapAt s t 0x0C 0 target

/-- ILLEGAL_REPEAT on the prefix at the thread's pc (details 1, 2), leaving no repeat in progress (R113, R118). -/
def trapRepeat (s : State) (t detail : Nat) (v : Word) : State := trapAt s t 0x0B detail v

/-- ILLEGAL_REPEAT with detail 0 at the first iteration: TEPC holds the prefix (R116). -/
def trapRepeatInstr (s : State) (t : Nat) (w : Word) : State :=
  let s1 := updTh s t (fun x => { x with rep := none })
  trapEnter s1 t 0x0B 0 w ((th s t).pc - 6)

/-! ## Distance checker (R104–R106) -/

/-- The checker is on in the thread's cluster. -/
def dchkOn (s : State) (t : Nat) : Bool :=
  (th s t).checked.getD (flag s (Reg.CLU_CTL (thCluster t)) F.CLU_CTL_dchk_en)

/-- A change of dchk_en is still taking effect: 64 CCLK are at most 64 NCLK, since CCLK runs at 1.6 GHz or more (R104,
R489). -/
def dchkOpen (s : State) (t : Nat) : Bool :=
  (clu s (thCluster t)).dchkAt.any (fun a => decide (s.now < a + 64))

/-- Settles whether the checker looks at the instruction that issues: open while a change takes effect (R104). -/
def dchkPick (s : State) (t : Nat) : State :=
  if dchkOpen s t then
    let (b, s1) := choose s true [false]
    updTh s1 t (fun x => { x with checked := some b })
  else if (th s t).checked.isSome then updTh s t (fun x => { x with checked := none })
  else s

/-- What an instruction reads and writes: g and p registers, the CSRs it depends on. -/
structure Acc where
  g : List Nat := []
  p : List Nat := []
  c : List Nat := []
  wg : List Nat := []
  wp : List Nat := []
deriving DecidableEq, Repr

/-- TVAL of a DISTANCE trap (R106). -/
def distVal (kind reg shortfall producer : Nat) : Word :=
  toW (kind * 2 ^ 45 + (reg % 32) * 2 ^ 40 + (shortfall % 16) * 2 ^ 36 + producer % 0x40000)

def distHaz (kind reg : Nat) (h : Haz) : Word := distVal kind reg (h.need - h.age) h.pc

/-- The pending operation that will write register `r`. -/
def pendingOp (s : State) (t r : Nat) : Option AsyncOp :=
  s.ops.find? (fun o => o.thread == t && o.dest == r && r != 0 && !o.dead && !o.late)

/-- The first distance the operands of an instruction break, as the TVAL of its trap. Where it breaks several the spec
names none: reads of g, of p, write-after-write, pending destinations, then CSRs, each with its newest producer
(DESIGN CHOICE, log 80). -/
def distCheck (s : State) (t : Nat) (a : Acc) : Option Word :=
  (a.g.findSome? (fun r => if r = 0 then none else (newestUnmet s t .g r).map (distHaz 0 r))) <|>
  (a.p.findSome? (fun r => if r = 0 then none else (newestUnmet s t .p r).map (distHaz 1 r))) <|>
  (a.wg.findSome? (fun r => if r = 0 then none else (newestUnmet s t .g r).map (distHaz 2 r))) <|>
  (a.wp.findSome? (fun r => if r = 0 then none else (newestUnmet s t .p r).map (distHaz 2 r))) <|>
  (a.g.findSome? (fun r => (pendingOp s t r).map (fun o => distVal 3 r 0 o.pc))) <|>
  (a.wg.findSome? (fun r => (pendingOp s t r).map (fun o => distVal 4 r 0 o.pc))) <|>
  (a.c.findSome? (fun n => (newestUnmet s t .csr n).map (distHaz 5 0)))

/-- The DISTANCE trap, counted in CLU_DVIOL (R106). -/
def trapDist (s : State) (t : Nat) (v : Word) : State :=
  trapAt (bump s (Reg.CLU_DVIOL (thCluster t)) F.CLU_DVIOL_count) t 0x0A 0 v

/-! ## Issue (R73, R75, R116, R122) -/

/-- Opcodes that may not be repeated (R116). -/
def noRepeat (o : Nat) : Bool :=
  (decide (0xA0 ≤ o) && decide (o ≤ 0xBF)) || o == 0xC0 || o == 0x98 || o == 0x21 || o == 0x22 || o == 0x23 ||
    o == 0x8B || o == 0x8C

/-- A repeat's first iteration is still to be checked (R116). -/
def repFresh (x : Thread) : Bool := x.rep.any (fun r => r.fresh)

/-- An instruction of the thread issues: a change of the checker settles, and CORE_ISSUE counts (R91, R104). -/
def issued (s : State) (t : Nat) : State := updCore (dchkPick s t) (t / 8) (fun x => { x with issue := x.issue + 1 })

/-- Issues the instruction word `w` of thread `t`: UNDEF first, then the guard, UNDEF that an operand's value makes
(`bad`), ILLEGAL_REPEAT, that of a prefix's count (`cnt`: its detail), PRIV and DISTANCE in the order of R122; a
guarded-off instruction commits with no other effect (R73). `body` does the rest and commits. `bad` and `cnt` read their
operand as `body` will. -/
def issue (s : State) (t : Nat) (w : Word) (undef priv : Bool) (a : Acc) (body : State → State)
    (bad : State → Bool := fun _ => false) (cnt : State → Option (Nat × Word) := fun _ => none) : State :=
  if !ready s t then s
  else
    let s0 := issued s t
    if undef then trapUndef s0 t w
    else
      let gd := if dchkOn s0 t && iGuardP w != 0 then (newestUnmet s0 t .p (iGuardP w)).map (distHaz 1 (iGuardP w))
                else none
      let (pv, s1) := readP s0 t (iGuardP w)
      let on := Bool.xor pv (iNeg w)
      if on && bad s1 then trapUndef s1 t w
      else if on && repFresh (th s0 t) && noRepeat (iOpcode w) then trapRepeatInstr s1 t w
      else
        match (if on then cnt s1 else none) with
        | some (d, v) => trapRepeat s1 t d v
        | none =>
          if on && priv then trapPriv s1 t w
          else
            match gd with
            | some v => trapDist s1 t v
            | none =>
              let s2 := updTh s1 t (fun x => { x with rep := x.rep.map (fun r => { r with word := some w }) })
              if !on then finishSeq s2 t
              else
                match (if dchkOn s2 t then distCheck s2 t a else none) with
                | some v => trapDist s2 t v
                | none => body s2

/-! ## Wakes (R128, R129) -/

/-- The DOZE of a thread ends with g[d] := `v`. -/
def dozeEnd (s : State) (t d : Nat) (v : Word) : State :=
  let s1 := updTh s t (fun x => { x with wait := .none })
  finishSeq (writeG s1 t d v 2) t

/-- A wake reaches a thread: dropped in KILLED and RESET, ends a DOZE, else stays in the latch (R129). -/
def wakeThread (s : State) (t : Nat) : State :=
  let x := th s t
  match x.state with
  | .killed => s
  | .reset => s
  | .double => setTh s t { x with wake := true }
  | .halted => setTh s t { x with wake := true }
  | _ =>
    match x.wait with
    | .doze d _ _ => dozeEnd (setTh s t { x with wake := false }) t d 0
    | _ => setTh s t { x with wake := true }

/-! ## Asynchronous operations (R81–R88) -/

/-- Posted: no token. -/
def postedTok : Nat := 8

/-- The token field names a token (R74). -/
def tokOf (f : Nat) : Option Nat := if f < 8 then some f else none

/-- The token named is PENDING (R83). -/
def tokBusy (s : State) (t f : Nat) : Bool := decide (f < 8) && decide (Tab.get Tok.idle (th s t).tok f = .pending)

def setTok (s : State) (t k : Nat) (v : Tok) : State :=
  updTh s t (fun x => { x with tok := Tab.set Tok.idle x.tok k v })

/-- Hands an asynchronous operation to its unit (R82): its token goes PENDING, and THR_FTO is read (R85, R580). A
destination written too close before, or by an operation no WAITC has covered, may keep that value (R79). -/
def commitOp (s : State) (t tokF dest : Nat) (cls : OpClass) (k : OpKind) : State :=
  let (fto, s1) := readCsr s t 0x400
  let o : AsyncOp := { id := s1.nextOp, thread := t, cls := cls, tok := tokOf tokF, dest := dest, kind := k,
                       pc := (th s1 t).pc, limit := fto.toNat % 0x10000, dead := false, late := false,
                       clobber := if dest = 0 ∨ (unmet (th s1 t).hist .g dest).isEmpty then []
                                  else [Tab.get 0 (th s1 t).g dest], result := none }
  let s2 := { s1 with ops := s1.ops ++ [o], nextOp := s1.nextOp + 1 }
  if tokF < 8 then setTok s2 t tokF .pending else s2

def opOf (s : State) (id : Nat) : Option AsyncOp := s.ops.find? (fun o => o.id == id)

def dropOp (s : State) (id : Nat) : State := { s with ops := s.ops.filter (fun o => o.id != id) }

def updOp (s : State) (id : Nat) (f : AsyncOp → AsyncOp) : State :=
  { s with ops := s.ops.map (fun o => if o.id = id then f o else o) }

/-- A posted operation failed (R86): counted in CLU_POSTERR with its status, and the core's source is raised. -/
def postErr (s : State) (t status : Nat) : State :=
  let a := Reg.CLU_POSTERR (thCluster t)
  raise (setFld (bump s a F.CLU_POSTERR_count) a F.CLU_POSTERR_last status) (coreSrc t)

/-- Delivery of an operation's status and value (R82, R84–R86, R133): discarded for a killed thread, LATE after its
timer, else destination and token together. -/
def deliver (s : State) (o : AsyncOp) (status : Nat) (v : Word) : State :=
  let s0 := dropOp s o.id
  if o.dead then updTh s0 o.thread (fun x => { x with discard := satAdd 8 x.discard 1 })
  else if o.late then bump s0 (Reg.CLU_LATE (thCluster o.thread)) F.CLU_LATE_count
  else
    match o.tok with
    | none => if status ≤ 1 then s0 else postErr s0 o.thread status
    | some k =>
      let s1 :=
        if 1 < status then s0
        else putG s0 o.thread o.dest k o.pc v o.clobber
      setTok s1 o.thread k (.done status)

/-- Expiry of an operation's timer (R85): the token goes DONE with TIMEOUT, a posted one is counted (R86), and a later
completion is LATE. -/
def expireOp (s : State) (o : AsyncOp) : State :=
  let s1 := updOp s o.id (fun o => { o with late := true })
  match o.tok with
  | none => postErr s1 o.thread 2
  | some k => setTok s1 o.thread k (.done 2)

/-- Operations of a thread that RELEASE, DROP and the cluster's idleness wait for (R101, R190). -/
def opsPending (s : State) (t : Nat) : Bool := s.ops.any (fun o => o.thread == t && !o.dead && !o.late)

/-- Status of a token as WAITC sees it: 0 for an idle one (R87). -/
def tokStatus (x : Thread) (k : Nat) : Nat :=
  match Tab.get Tok.idle x.tok k with
  | .done st => st
  | _ => 0

/-- The named tokens include a PENDING one. -/
def anyPending (x : Thread) (mask : Nat) : Bool :=
  (List.range 8).any (fun k => mask.testBit k && decide (Tab.get Tok.idle x.tok k = .pending))

/-- The end of a WAITC whose tokens have all completed (R87). -/
def waitcEnd (s : State) (t : Nat) (w : Word) : State :=
  let s0 := updTh s t (fun x => { x with wait := .none })
  let x := th s0 t
  let mask := iFn w % 256
  let nt := bitN (iFn w) 8
  let ks := setBits 8 mask
  let v := ks.foldl (fun n k => n + tokStatus x k * 2 ^ (3 * k)) 0
  let bad := fun k =>
    let st := tokStatus x k
    st == 3 || st == 5 || ((st == 2 || st == 4) && !nt)
  let f := ks.filter bad
  if f.isEmpty then
    finishSeq (writeG (updTh s0 t (fun x => { x with hist := waitedHist mask x.hist })) t (iD w) (toW v) 2) t
  else
    let tv := toW (v + (f.foldl (fun n k => n + 2 ^ k) 0) * 2 ^ 24)
    let s1 := forEach f (fun k s => setTok s t k .idle) s0
    if f.any (fun k => tokStatus x k == 5) then trapAt s1 t 0x09 0 tv
    else if f.any (fun k => tokStatus x k == 3) then trapAt s1 t 0x03 1 tv
    else trapAt s1 t 0x08 0 tv

/-- Ends a WAITC or FENCE whose operations are done. -/
def settleWait (s : State) (t : Nat) : State :=
  let x := th s t
  match x.wait with
  | .waitc w => if anyPending x (iFn w % 256) then s else waitcEnd s t w
  | .fence _ ids =>
    if s.ops.any (fun o => ids.contains o.id && !o.late) then s
    else finishSeq (updTh s t (fun x => { x with wait := .none })) t
  | _ => s

/-- The kind a FENCE bit selects (R88). -/
def fenceSel (kinds : Nat) (c : OpClass) : Bool :=
  match c with
  | .far => kinds.testBit 0
  | .helper => kinds.testBit 1
  | .packet => kinds.testBit 2
  | .lyr => false

end Sys2Proof.Machine
end

