-- ==== Sys2Proof/Machine/NewtAlu.lean ====
section
/-! DEFINITION. Data processing, compares, predicates and CSR access of the Newt core (R92–R96). -/

namespace Sys2Proof.Machine

/-- The outcome of a command. -/
abbrev Out := Host.Outcome State Fault Refusal

/-- A Newt instruction row: thread and word name something only when the thread exists and the word's opcode is one of
the row's. -/
def newt (opcodes : List Nat) (t : Nat) (w : Word) (f : State → State) (s : State) : Out :=
  if t < 3072 ∧ iOpcode w ∈ opcodes then .next (f s) else .refused .illFormed

/-- The word is in IMM form: opcode at or above 0x40 (R92). -/
def isImm (w : Word) : Bool := decide (0x40 ≤ iOpcode w)

/-- Fields R75 wants zero: b in IMM form, the function in REG form. -/
def aluUndef (w : Word) : Bool := if isImm w then iB w != 0 else iFn w != 0

/-- Operand b: g[b], or the sign-extended immediate (R92). -/
def aluB (s : State) (t : Nat) (w : Word) : Word × State := if isImm w then (iSimm21 w, s) else readG s t (iB w)

/-- A two-operand instruction of R92: g[d] := f(g[a], b) with its distance class. -/
def alu2 (t : Nat) (w : Word) (undef : Bool) (need : Nat) (f : Word → Word → Word) (s : State) : State :=
  issue s t w undef false { g := if isImm w then [iA w] else [iA w, iB w], wg := [iD w] } (fun s =>
    let (a, s1) := readG s t (iA w)
    let (b, s2) := aluB s1 t w
    finishSeq (writeG s2 t (iD w) (f a b) need) t)

/-- A one-operand instruction of R92: g[d] := f(g[a]). -/
def alu1 (t : Nat) (w : Word) (undef : Bool) (f : Word → Word) (s : State) : State :=
  issue s t w undef false { g := [iA w], wg := [iD w] } (fun s =>
    let (a, s1) := readG s t (iA w)
    finishSeq (writeG s1 t (iD w) (f a) 2) t)

/-- Shifts and rotates: an immediate count must be 0–47 (R92). -/
def shUndef (w : Word) : Bool := aluUndef w || (isImm w && decide (47 < iFn w))

def execNop (t : Nat) (w : Word) (s : State) : Out :=
  newt [0x00] t w (fun s => issue s t w (bitsN w.toNat 35 0 != 0) false {} (fun s => finishSeq s t)) s
def execAdd (t : Nat) (w : Word) (s : State) : Out := newt [0x01, 0x41] t w (alu2 t w (aluUndef w) 2 (· + ·)) s
def execSub (t : Nat) (w : Word) (s : State) : Out := newt [0x02] t w (alu2 t w (aluUndef w) 2 (· - ·)) s
def execAnd (t : Nat) (w : Word) (s : State) : Out := newt [0x03, 0x43] t w (alu2 t w (aluUndef w) 2 (· &&& ·)) s
def execOr (t : Nat) (w : Word) (s : State) : Out := newt [0x04, 0x44] t w (alu2 t w (aluUndef w) 2 (· ||| ·)) s
def execXor (t : Nat) (w : Word) (s : State) : Out := newt [0x05, 0x45] t w (alu2 t w (aluUndef w) 2 (· ^^^ ·)) s
def execAndn (t : Nat) (w : Word) (s : State) : Out :=
  newt [0x06] t w (alu2 t w (aluUndef w) 2 (fun a b => a &&& ~~~b)) s
def execShl (t : Nat) (w : Word) (s : State) : Out := newt [0x07, 0x47] t w (alu2 t w (shUndef w) 2 shlW) s
def execShr (t : Nat) (w : Word) (s : State) : Out := newt [0x08, 0x48] t w (alu2 t w (shUndef w) 2 shrW) s
def execSar (t : Nat) (w : Word) (s : State) : Out := newt [0x09, 0x49] t w (alu2 t w (shUndef w) 2 sarW) s
def execRol (t : Nat) (w : Word) (s : State) : Out := newt [0x0A, 0x4A] t w (alu2 t w (shUndef w) 2 rolW) s
def execRor (t : Nat) (w : Word) (s : State) : Out := newt [0x0B, 0x4B] t w (alu2 t w (shUndef w) 2 rorW) s
def execMin (t : Nat) (w : Word) (s : State) : Out := newt [0x0C, 0x4C] t w (alu2 t w (aluUndef w) 2 minW) s
def execMax (t : Nat) (w : Word) (s : State) : Out := newt [0x0D, 0x4D] t w (alu2 t w (aluUndef w) 2 maxW) s
def execMinu (t : Nat) (w : Word) (s : State) : Out := newt [0x0E, 0x4E] t w (alu2 t w (aluUndef w) 2 minuW) s
def execMaxu (t : Nat) (w : Word) (s : State) : Out := newt [0x0F, 0x4F] t w (alu2 t w (aluUndef w) 2 maxuW) s
def execMul (t : Nat) (w : Word) (s : State) : Out := newt [0x10, 0x50] t w (alu2 t w (aluUndef w) 4 (· * ·)) s
def execMulh (t : Nat) (w : Word) (s : State) : Out := newt [0x11] t w (alu2 t w (aluUndef w) 4 mulhW) s
def execMulhu (t : Nat) (w : Word) (s : State) : Out := newt [0x12] t w (alu2 t w (aluUndef w) 4 mulhuW) s
def execClz (t : Nat) (w : Word) (s : State) : Out :=
  newt [0x13] t w (alu1 t w (aluUndef w || iB w != 0) clzW) s
def execPopc (t : Nat) (w : Word) (s : State) : Out :=
  newt [0x14] t w (alu1 t w (aluUndef w || iB w != 0) popcW) s
def execBext (t : Nat) (w : Word) (s : State) : Out :=
  newt [0x15] t w (alu1 t w (!bfOk w || iB w != 0) (fun a => bextW a (bfPos w) (bfLen w))) s
def execBexts (t : Nat) (w : Word) (s : State) : Out :=
  newt [0x16] t w (alu1 t w (!bfOk w || iB w != 0) (fun a => bextsW a (bfPos w) (bfLen w))) s

/-- BINS reads d as well (R92). -/
def execBins (t : Nat) (w : Word) (s : State) : Out :=
  newt [0x17] t w (fun s =>
    issue s t w (!bfOk w || iB w != 0) false { g := [iA w, iD w], wg := [iD w] } (fun s =>
      let (a, s1) := readG s t (iA w)
      let (d, s2) := readG s1 t (iD w)
      finishSeq (writeG s2 t (iD w) (binsW d a (bfPos w) (bfLen w)) 2) t)) s

def execBswap (t : Nat) (w : Word) (s : State) : Out :=
  newt [0x18] t w (alu1 t w (iB w != 0 || decide (2 < iFn w)) (fun a => bswapW a (iFn w))) s

/-- LI (R93): a and the unused field zero. -/
def execLi (t : Nat) (w : Word) (s : State) : Out :=
  newt [0x1D] t w (fun s => issue s t w (iA w != 0 || iB w != 0) false { wg := [iD w] } (fun s =>
    finishSeq (writeG s t (iD w) (iSimm21 w) 2) t)) s

/-- LUI (R93): shifted or with the zero-extended immediate. -/
def execLui (t : Nat) (w : Word) (s : State) : Out :=
  newt [0x1E] t w (alu1 t w (iB w != 0) (fun a => (a <<< 21) ||| toW (iFn w))) s

/-! ## Compare and predicate (R94, R95) -/

/-- Predicate destination and combine (R94). -/
def iPd (w : Word) : Nat := bitsN w.toNat 33 31
def iComb (w : Word) : Nat := bitsN w.toNat 35 34

/-- Writes a condition into p[pd] with the combine of the word. -/
def putPred (s : State) (t : Nat) (w : Word) (c : Bool) : State :=
  if iComb w = 0 then writeP s t (iPd w) c
  else
    let (o, s1) := readP s t (iPd w)
    writeP s1 t (iPd w) (combine (iComb w) o c)

/-- Predicates a combine reads. -/
def combReads (w : Word) : List Nat := if iComb w = 0 then [] else [iPd w]

/-- CMP and CMPI (R94): condition in function bits [3:0], or in bits [24:21] for CMPI. -/
def execCmp (t : Nat) (w : Word) (s : State) : Out :=
  newt [0x19] t w (fun s =>
    issue s t w (iComb w == 3 || decide (7 < iFn w)) false
      { g := [iA w, iB w], p := combReads w, wp := [iPd w] } (fun s =>
      let (a, s1) := readG s t (iA w)
      let (b, s2) := readG s1 t (iB w)
      finishSeq (putPred s2 t w (condOf (iFn w) a b)) t)) s

def execCmpi (t : Nat) (w : Word) (s : State) : Out :=
  newt [0x59] t w (fun s =>
    issue s t w (iComb w == 3 || decide (7 < iB w)) false { g := [iA w], p := combReads w, wp := [iPd w] } (fun s =>
      let (a, s1) := readG s t (iA w)
      finishSeq (putPred s1 t w (condOf (iB w) a (iSimm21 w))) t)) s

/-- PLOG (R95). -/
def execPlog (t : Nat) (w : Word) (s : State) : Out :=
  newt [0x1A] t w (fun s =>
    issue s t w (iComb w == 3 || decide (7 < iA w) || decide (7 < iB w) || decide (7 < iFn w)) false
      { p := [iA w, iB w] ++ combReads w, wp := [iPd w] } (fun s =>
      let (a, s1) := readP s t (iA w)
      let (b, s2) := readP s1 t (iB w)
      finishSeq (putPred s2 t w (plogOf (iFn w) a b)) t)) s

/-- Reads p0–p7 as an 8-bit value. -/
def readAllP (t : Nat) : List Nat → State → Nat × State
  | [], s => (0, s)
  | i :: r, s =>
    let (b, s1) := readP s t i
    let (n, s2) := readAllP t r s1
    (n + b2n b * 2 ^ i, s2)

def execPget (t : Nat) (w : Word) (s : State) : Out :=
  newt [0x1B] t w (fun s =>
    issue s t w (iA w != 0 || iB w != 0 || iFn w != 0) false { p := [1, 2, 3, 4, 5, 6, 7], wg := [iD w] } (fun s =>
      let (v, s1) := readAllP t (List.range 8) s
      finishSeq (writeG s1 t (iD w) (toW v) 2) t)) s

def execPset (t : Nat) (w : Word) (s : State) : Out :=
  newt [0x1C] t w (fun s =>
    issue s t w (iD w != 0 || iB w != 0 || iFn w != 0) false { g := [iA w], wp := [1, 2, 3, 4, 5, 6, 7] } (fun s =>
      let (a, s1) := readG s t (iA w)
      finishSeq (forEach [1, 2, 3, 4, 5, 6, 7] (fun i s => writeP s t i (a.toNat.testBit i)) s1) t)) s

/-! ## CSR access (R71, R96) -/

def iCsr (w : Word) : Nat := bitsN w.toNat 11 0

/-- The CSR lies above the thread's privilege (R70, R71). -/
def csrPriv (s : State) (t n : Nat) : Bool := decide (privOf (th s t) < n / 0x400)

/-- An unassigned number, or a function field that is not zero where R96 wants zero. -/
def csrUndef (s : State) (t : Nat) (w : Word) : Bool :=
  (csrGet s t (iCsr w)).isNone || bitsN w.toNat 20 12 != 0 || iB w != 0

/-- Brings a core's counters up to now before they are read (R71, R91): CCLK counts are not modelled cycle by cycle, so
what passed since they were read last is open, up to the 2.2 GHz of CCLK against 1.6 GHz of NCLK, and idle CCLK are some
of them; of the squashed instructions any number had issued. -/
def sampleCore (n : Nat) (s : State) : State :=
  let x := core s n
  let (a, s1) := draw s
  let (b, s2) := draw s1
  let (c, s3) := draw s2
  let cy := a.toNat % ((s.now - x.at_) * 11 / 8 + 2)
  updCore s3 n (fun x => { x with
    cycle := if s.now = x.at_ then x.cycle else x.cycle + toW cy,
    idle := if s.now = x.at_ then x.idle else x.idle + toW (b.toNat % (cy + 1)),
    issue := x.issue + toW (c.toNat % (x.squash + 1)), at_ := s.now, squash := 0 })

/-- CSRR; a read of THR_CYCLE counts up to now first. -/
def execCsrr (t : Nat) (w : Word) (s : State) : Out :=
  newt [0x20] t w (fun s =>
    issue s t w (csrUndef s t w || iA w != 0) (csrPriv s t (iCsr w)) { c := [iCsr w], wg := [iD w] } (fun s =>
      let (v, s1) := readCsr (if iCsr w = 1 then sampleCore (t / 8) s else s) t (iCsr w)
      finishSeq (writeG s1 t (iD w) v 2) t)) s

/-- CSRW, CSRS and CSRC: the new value is f(old, g[a]); one R71 or R135 forbids traps UNDEF, first of all (R122). -/
def csrWriteOp (t : Nat) (w : Word) (rmw : Bool) (f : Word → Word → Word) (s : State) : State :=
  let n := iCsr w
  let value := fun (s : State) =>
    let (a, s1) := readG s t (iA w)
    let (old, s2) := if rmw then readCsr s1 t n else ((csrGet s1 t n).getD 0, s1)
    (f old a, s2)
  issue s t w (csrUndef s t w || iD w != 0 || !csrWritable n) (csrPriv s t n)
    { g := [iA w], c := if rmw then [n] else [] } (fun s =>
    let (v, s1) := value s
    finishSeq (writeCsr s1 t n v) t)
    (bad := fun s => !csrValueOk n (value s).1)

def execCsrw (t : Nat) (w : Word) (s : State) : Out := newt [0x21] t w (csrWriteOp t w false (fun _ a => a)) s
def execCsrs (t : Nat) (w : Word) (s : State) : Out := newt [0x22] t w (csrWriteOp t w true (fun o a => o ||| a)) s
def execCsrc (t : Nat) (w : Word) (s : State) : Out := newt [0x23] t w (csrWriteOp t w true (fun o a => o &&& ~~~a)) s

end Sys2Proof.Machine
end

