-- ==== Sys2Proof/Machine/NewtMem.lean ====
section
/-! DEFINITION. Near loads, stores and atomics of the Newt core (R89–R91, R97). -/

namespace Sys2Proof.Machine

/-- Bytes of the widths 8, 16, 24, 32 and 48 in opcode order. -/
def widthOf (i : Nat) : Nat := [1, 2, 3, 4, 6].getD i 1

/-- The post-increment bit of NEAR form. -/
def isPost (w : Word) : Bool := w.toNat.testBit 20

/-- A near access of `n` bytes (R89, R97): address, traps of stage 5 in the order of R122, then `body` with the base, the
address and the bytes. `store` marks accesses that write; `atomic` those only cluster scratch allows. -/
def nearAccess (t : Nat) (w : Word) (undef : Bool) (acc : Acc) (n : Nat) (store atomic : Bool)
    (body : Word → List NearByte → State → State) (s : State) : State :=
  issue s t w undef false acc (fun s =>
    let (b, s1) := readG s t (iA w)
    let ea := if isPost w then b else b + iSimm20 w
    match (if dchkOn s1 t && (atomic || !store) then nearClose s1 t (nearBytes s1 t ea.toNat n) else none) with
    | some h => trapDist s1 t (distHaz 6 0 h)
    | none =>
      match nearMap s1 t ea.toNat n store with
      | .noPacket => trapNoPacket s1 t w
      | .addrError => trapAddr s1 t ea.toNat
      | .priv => if atomic then trapAddr s1 t ea.toNat else trapPrivAddr s1 t ea.toNat
      | .bytes l =>
        if atomic && decide (0x100000 < ea.toNat + n) then trapAddr s1 t ea.toNat
        else if atomic && ea.toNat % 8 != 0 then trapAlign s1 t ea.toNat
        else body b l s1)

/-- Commit of a near access with the post-increment base update (R97). -/
def nearFinish (t : Nat) (w : Word) (base : Word) (s : State) : State :=
  finishSeq (if isPost w then writeG s t (iA w) (base + iSimm20 w) 2 else s) t

/-- The byte is of a core-local register, whose counters a load brings up to now first (R91). -/
def NearByte.isCoreReg : NearByte → Bool
  | .coreReg _ => true
  | _ => false

/-- Registers a near access with post-increment also writes. -/
def postWrites (w : Word) : List Nat := if isPost w then [iA w] else []

/-- A near load (R97): b zero; post-increment with a = 0 or d = a is UNDEF. -/
def nearLoadOp (t : Nat) (w : Word) (n : Nat) (signed : Bool) (s : State) : State :=
  nearAccess t w (iB w != 0 || (isPost w && (iA w == 0 || iD w == iA w)))
    { g := [iA w], wg := iD w :: postWrites w } n false false
    (fun base l s =>
      let (bs, s1) := nearLoad (if l.any (·.isCoreReg) then sampleCore (t / 8) s else s) t l
      nearFinish t w base (writeG s1 t (iD w) (extLoad signed n (leNat bs)) 5)) s

def execLd (t : Nat) (w : Word) (s : State) : Out :=
  newt [0x28, 0x29, 0x2A, 0x2B, 0x2C] t w (nearLoadOp t w (widthOf (iOpcode w - 0x28)) false) s

def execLds (t : Nat) (w : Word) (s : State) : Out :=
  newt [0x2D, 0x2E, 0x2F, 0x30] t w (nearLoadOp t w (widthOf (iOpcode w - 0x2D)) true) s

/-- A near store (R97): d zero. -/
def nearStoreOp (t : Nat) (w : Word) (s : State) : State :=
  let n := widthOf (iOpcode w - 0x31)
  nearAccess t w (iD w != 0 || (isPost w && iA w == 0)) { g := [iA w, iB w], wg := postWrites w } n true false
    (fun base l s =>
      let (v, s1) := readG s t (iB w)
      nearFinish t w base (nearStore s1 t l (leBytes n v.toNat))) s

def execSt (t : Nat) (w : Word) (s : State) : Out := newt [0x31, 0x32, 0x33, 0x34, 0x35] t w (nearStoreOp t w) s

/-- A near atomic of a slot of cluster scratch is indivisible for the Lyre operations under way (R91, R149): they get
the slot as it stood before it or after it. -/
def atomSeen (t ea : Nat) (before after : List Byte) (s : State) : State :=
  if (clu s (thCluster t)).lyrOps.isEmpty then s
  else updClu s (thCluster t) (fun c => { c with
    lyrOps := c.lyrOps.map (fun o => { o with atoms := o.atoms ++ [(ea, before, after)] }) })

/-- The 8-byte slot of cluster scratch at `ea`. -/
def scratchSlot (s : State) (t ea : Nat) : List Byte := rdBytes s.scratch (thCluster t * 0x100000 + ea) 8

/-- A near atomic (R91, R97): at one point of the order, after every earlier near access of its thread. `fn` is the
function of `atomNew`; 5 also reads g[d]. -/
def nearAtomOp (t : Nat) (w : Word) (fn : Nat) (s : State) : State :=
  nearAccess t w (isPost w) { g := [iA w, iB w] ++ (if fn = 5 then [iD w] else []), wg := [iD w] } 6 true true
    (fun base l s =>
      let (v, s1) := readG s t (iB w)
      let (c, s2) := if fn = 5 then readG s1 t (iD w) else (0, s1)
      let old := toW (leNat (l.map (nearRd s2 t)))
      let s3 := nearStore s2 t l (leBytes 6 (atomNew fn old v c).toNat)
      let ea := (base + iSimm20 w).toNat
      nearFinish t w base (writeG (atomSeen t ea (scratchSlot s2 t ea) (scratchSlot s3 t ea) s3) t (iD w) old 6)) s

def execAadd (t : Nat) (w : Word) (s : State) : Out := newt [0x38] t w (nearAtomOp t w 0) s
def execAand (t : Nat) (w : Word) (s : State) : Out := newt [0x39] t w (nearAtomOp t w 1) s
def execAor (t : Nat) (w : Word) (s : State) : Out := newt [0x3A] t w (nearAtomOp t w 2) s
def execAxor (t : Nat) (w : Word) (s : State) : Out := newt [0x3B] t w (nearAtomOp t w 3) s
def execAswp (t : Nat) (w : Word) (s : State) : Out := newt [0x3C] t w (nearAtomOp t w 4) s
def execAcas (t : Nat) (w : Word) (s : State) : Out := newt [0x3D] t w (nearAtomOp t w 5) s

end Sys2Proof.Machine
end

