-- ==== Sys2Proof/Machine/GeckoOps.lean ====
section
/-! DEFINITION. Gecko's operations (R281–R295): the lock word, the commands, reservation, hand-off, holder reset,
notification and the boost signals to Spawn (R187). -/

namespace Sys2Proof.Machine

/-- A thread of this device, as its local index. -/
def localThread? (s : State) (a : Nat) : Option Nat :=
  if agentDev a = devId s ∧ agentLoc a < 0xC00 then some (agentLoc a) else none

/-- Registered waiters of a lock. -/
def waitersOf (s : State) (n : Nat) : List Waiter := s.gecko.regs.filter (fun r => r.lock == n)

/-- The lock word as a reader sees it (R281). -/
def lockWord (s : State) (n reader : Nat) : Word :=
  let l := lock s n
  let ws := waitersOf s n
  toW (b2n l.owner.isSome * 2 ^ 47 + b2n l.abandoned * 2 ^ 46 + min 63 ws.length * 2 ^ 40 +
    (match l.rsv with
     | some (a, p) => p * 2 ^ 37 + 2 ^ 36 + b2n (a == reader) * 2 ^ 34
     | none => 0) +
    b2n (ws.any (fun r => r.agent == reader)) * 2 ^ 35 + (l.owner.getD 0) % 2 ^ 24)

/-- Keeps GKO_WAITERS at the registrations in use and the greatest so far (R302). -/
def noteWaiters (s : State) : State :=
  let k := s.gecko.regs.length
  markHigh (setFld s Reg.GKO_WAITERS F.GKO_WAITERS_used k) Reg.GKO_WAITERS F.GKO_WAITERS_hwm k

def setRegs (s : State) (l : List Waiter) : State := noteWaiters { s with gecko := { s.gecko with regs := l } }

/-- Group of the packet a thread holds (R169, R187). -/
def pktGroup (x : Thread) : Option Nat := x.pkt.map (fun d => d.queue / 1024)

/-- Boost-on or boost-off of a lock when its condition changes (R295): Spawn raises the count of the owner's group and
lowers the same group's count (R187); for an owner that is not a thread the boost-on is only counted. -/
def boostCheck (n : Nat) (s : State) : State :=
  let l := lock s n
  let on := l.owner.isSome && (waitersOf s n).any (fun r => decide (l.prio < r.prio))
  if on && !l.boosted then
    let s1 := setLock s n { l with boosted := true }
    match localThread? s (l.owner.getD 0) with
    | none => bump s1 Reg.GKO_CNT3 F.GKO_CNT3_boost_rec
    | some t =>
      match pktGroup (th s t) with
      | none => s1
      | some g => { s1 with spawn := { s1.spawn with boost := Tab.upd 0 s1.spawn.boost g (· + 1),
                                                     boostOf := Tab.set 0 s1.spawn.boostOf n (g + 1) } }
  else if !on && l.boosted then
    let s1 := setLock s n { l with boosted := false }
    match Tab.get 0 s1.spawn.boostOf n with
    | 0 => s1
    | g + 1 => { s1 with spawn := { s1.spawn with boost := Tab.upd 0 s1.spawn.boost g (· - 1),
                                                  boostOf := Tab.set 0 s1.spawn.boostOf n 0 } }
  else s

/-- Notify FIFO of an agent of this device that is not a thread (R302): 0 Service Newt, 1 BMC, 2–5 host ports. -/
def notifyFifo (loc : Nat) : Option Nat :=
  if loc = svcAgent then some 0
  else if loc = bmcAgent then some 1
  else if 0x1000 ≤ loc ∧ loc < 0x1400 then some (2 + (loc - 0x1000) / 256)
  else none

/-- Pushes a notify record into FIFO `c` and raises its source; a full FIFO drops it (R293). -/
def notifyPush (c : Nat) (rec : Word) (s : State) : State :=
  let q := Tab.get [] s.gecko.fifos c
  if 256 ≤ q.length then setFld s (Reg.GKO_NOTSTAT c) F.GKO_NOTSTAT_ovf 1
  else raise { s with gecko := { s.gecko with fifos := Tab.set [] s.gecko.fifos c (q ++ [rec]) } } (741 + c)

/-- A notify record (R293). -/
def notifyRec (s : State) (kind n agent : Nat) : Word :=
  toW (kind * 2 ^ 46 + devId s * 2 ^ 36 + n * 2 ^ 24 + agent % 2 ^ 24)

/-- Obrex opcodes of R395. -/
def opPkt : Nat := 0x1
def opRd : Nat := 0x2
def opWr : Nat := 0x3
def opAtom : Nat := 0x4
def opLock : Nat := 0x5
def opIntr : Nat := 0x6
def opResp : Nat := 0x7
def opMember : Nat := 0x8

/-- Virtual channel number of CTL (R386). -/
def vcCtl : Nat := 8

/-- Queues an Obrex transaction (R395). -/
def sendObx (s : State) (m : ObxMsg) : State := { s with obx := { s.obx with tx := s.obx.tx ++ [m] } }

/-- An INTR transaction a fabric engine of this device originates (R398, R399): `arg` 0 a doorbell, 1 a notify record. -/
def sendIntr (s : State) (dst engine arg : Nat) (data : List Byte) : State :=
  sendObx s { vc := vcCtl, typ := opIntr, size := 0, dst := dst,
              agent := agentId s (0x2000 + (Config.fabricEngine engine).toNat), tag := 0, arg := arg, data := data, op := none,
              wantTag := true, link := none, stomp := false, transit := none }

/-- Notifies a waiter (R293, R294): kind 1 RESERVED, 2 TIMEOUT. -/
def gkoNotify (a kind n : Nat) (s : State) : State :=
  match localThread? s a with
  | some t => wakeThread s t
  | none =>
    if agentDev a ≠ devId s then
      sendIntr s (agentDev a) 1 1 (leBytes 6 (notifyRec s kind n a).toNat)
    else
      match notifyFifo (agentLoc a) with
      | some c => notifyPush c (notifyRec s kind n a) s
      | none => s

/-- The waiter a free lock goes to (R289): highest priority, earliest registered among equals. -/
def bestWaiter : List Waiter → Option Waiter
  | [] => none
  | r :: rs =>
    match bestWaiter rs with
    | none => some r
    | some b => if r.prio < b.prio then some b else some r

/-- Length of a reservation (R289). -/
def rsvLen (s : State) (a : Nat) : Nat :=
  if (localThread? s a).isSome ∨ a = agentId s svcAgent then 256 else fld s Reg.GKO_CTL F.GKO_CTL_rsv_ext * 256

/-- When a registration made or renewed now expires (R294); a wait_limit of 0 means never. -/
def regTill (s : State) : Option Nat :=
  let n := fld s Reg.GKO_CTL F.GKO_CTL_wait_limit
  if n = 0 then none else some (s.now + n * 64)

/-- A lock with no owner passes to its best waiter under reservation, or stays free (R289). -/
def passOn (n : Nat) (s : State) : State :=
  match bestWaiter (waitersOf s n) with
  | none => setLock s n { lock s n with rsv := none }
  | some r =>
    let s1 := setRegs s (s.gecko.regs.filter (fun x => !(x.lock == n && x.agent == r.agent)))
    gkoNotify r.agent 1 n (setLock s1 n { lock s1 n with rsv := some (r.agent, r.prio), till := s.now + rsvLen s r.agent })

/-- WITHDRAW of an agent on a lock (R288). -/
def withdrawOn (n a : Nat) (s : State) : State :=
  let s1 := setRegs s (s.gecko.regs.filter (fun r => !(r.lock == n && r.agent == a)))
  let l := lock s1 n
  let s2 := match l.rsv with
    | some (w, _) => if w = a then passOn n s1 else s1
    | none => s1
  boostCheck n s2

/-- A won claim (R285): the registration of the winner on the lock goes, abandoned stays as it was. -/
def claimWin (n a prio : Nat) (s : State) : State :=
  let s1 := setRegs s (s.gecko.regs.filter (fun r => !(r.lock == n && r.agent == a)))
  boostCheck n (setLock s1 n { lock s1 n with owner := some a, prio := prio, rsv := none })

/-- A lost claim: registers the agent when wait is set (R286). -/
def claimLose (n a prio : Nat) (wait : Bool) (s : State) : State :=
  if !wait then s
  else if s.gecko.regs.any (fun r => r.lock == n && r.agent == a) then
    boostCheck n { s with gecko := { s.gecko with
      regs := s.gecko.regs.map (fun r => if r.lock = n ∧ r.agent = a then { r with prio := prio, till := regTill s } else r) } }
  else
    let others := (s.gecko.regs.filter (fun r => r.agent == a)).map (fun r => r.lock)
    let s1 := forEach others (fun m s => withdrawOn m a s) s
    if 8192 ≤ s1.gecko.regs.length then raise (bump s1 Reg.GKO_CNT2 F.GKO_CNT2_regfull) 739
    else boostCheck n (setRegs s1 (s1.gecko.regs ++ [{ lock := n, agent := a, prio := prio, till := regTill s }]))

/-- A pair's standby loses every claim to the mirrored lock range (R435). -/
def mirrorLoses (s : State) (n : Nat) : Bool :=
  let b := fld s Reg.DST_LOCKS F.DST_LOCKS_base
  (dstRole s == 2 || dstRole s == 3) && decide (b ≤ n) && decide (n < b + fld s Reg.DST_LOCKS F.DST_LOCKS_count)

/-- CLAIM (R285, R286). -/
def gkoClaim (n a prio : Nat) (wait : Bool) (s : State) : State :=
  let l := lock s n
  if mirrorLoses s n then claimLose n a prio wait s
  else
  match l.owner with
  | some o => if o = a then s else claimLose n a prio wait s
  | none =>
    match l.rsv with
    | none => claimWin n a prio s
    | some (w, _) => if w = a then claimWin n a prio s else claimLose n a prio wait s

/-- FREE (R287). -/
def gkoFree (n a : Nat) (s : State) : State :=
  let l := lock s n
  if l.owner = some a then
    let s1 := boostCheck n (setLock s n { l with owner := none, prio := 0, abandoned := false })
    boostCheck n (passOn n s1)
  else
    let s1 := bump s Reg.GKO_CNT0 F.GKO_CNT0_foreign
    raise (wr s1 Reg.GKO_LASTFOREIGN (toW (2 ^ 47 + n * 2 ^ 24 + a % 2 ^ 24))) 736

/-- A lock command as it reaches Gecko (R281, R282, R292): `req` is the requester's agent ID, `gen` the generation its
thread had at commit. -/
def gkoCommand (n req gen : Nat) (cmd : Word) (s : State) : State :=
  let a := bitsN cmd.toNat 23 0
  let prio := bitsN cmd.toNat 26 24
  if a ≠ req then raise (bump s Reg.GKO_CNT0 F.GKO_CNT0_badid) 737
  else if s.gecko.left.contains (agentDev a) then s
  else if (match localThread? s a with
           | some t => (th s t).gen != gen
           | none => false) then bump s Reg.GKO_CNT3 F.GKO_CNT3_stale
  else
    match bitsN cmd.toNat 29 28 with
    | 0 => gkoClaim n a prio (cmd.toNat.testBit 27) s
    | 1 => gkoFree n a s
    | 2 => withdrawOn n a s
    | _ => s

/-- A lock owned by a reset agent is freed with abandoned set (R291). -/
def abandonLock (n : Nat) (s : State) : State :=
  let l := lock s n
  let a := l.owner.getD 0
  let s1 := bump s Reg.GKO_CNT1 F.GKO_CNT1_abandoned
  let s2 := raise (wr s1 Reg.GKO_LASTABN (toW (2 ^ 47 + n * 2 ^ 24 + a % 2 ^ 24))) 738
  let s3 := boostCheck n (setLock s2 n { lock s2 n with owner := none, prio := 0, abandoned := true })
  boostCheck n (passOn n s3)

/-- Locks whose entry satisfies a test. -/
def locksWhere (s : State) (p : Lock → Bool) : List Nat := (s.gecko.locks.filter (fun e => p e.2)).map (fun e => e.1)

/-- Holder reset of the agents a test selects (R291): registrations go, owned locks are freed with abandoned set, and
reservations pass on. A thread's generation advances (R292). -/
def holderReset (sel : Nat → Bool) (s : State) : State :=
  let gone := (s.gecko.regs.filter (fun r => sel r.agent)).map (fun r => r.lock)
  let s1 := setRegs s (s.gecko.regs.filter (fun r => !sel r.agent))
  let s2 := forEach gone (fun n s => boostCheck n s) s1
  let s3 := forEach (locksWhere s2 (fun l => match l.owner with
      | some a => sel a
      | none => false)) abandonLock s2
  forEach (locksWhere s3 (fun l => match l.rsv with
      | some (a, _) => sel a
      | none => false)) (fun n s => boostCheck n (passOn n s)) s3

/-- Holder reset of a thread of this device. -/
def threadHolderReset (t : Nat) (s : State) : State :=
  updTh (holderReset (fun a => a == agentId s t) s) t (fun x => { x with gen := x.gen + 1 })

/-- Lapse of the reservation of a lock (R290). -/
def gkoLapse (n : Nat) (s : State) : State :=
  match (lock s n).rsv with
  | none => s
  | some _ => if s.now < (lock s n).till then s else boostCheck n (passOn n (bump s Reg.GKO_CNT1 F.GKO_CNT1_lapsed))

/-- Expiry of the registration of an agent on a lock (R294). -/
def gkoExpire (n a : Nat) (s : State) : State :=
  if (waitersOf s n).any (fun r => r.agent == a && r.till.any (fun x => decide (x ≤ s.now))) then
    let s1 := setRegs s (s.gecko.regs.filter (fun r => !(r.lock == n && r.agent == a)))
    gkoNotify a 2 n (boostCheck n (bump s1 Reg.GKO_CNT2 F.GKO_CNT2_timeout))
  else s

/-- A read of GKO_NOTIFY c removes and returns the oldest record; 0 when empty (R302). -/
def notifyPop (c : Nat) (s : State) : Word × State :=
  match Tab.get [] s.gecko.fifos c with
  | [] => (0, s)
  | r :: q => (r, { s with gecko := { s.gecko with fifos := Tab.set [] s.gecko.fifos c q } })

/-- GKO_CTL.clr (R302). -/
def gkoClr (s : State) : State :=
  let s1 := [Reg.GKO_CNT0, Reg.GKO_CNT1, Reg.GKO_CNT2, Reg.GKO_CNT3].foldl (fun s a => wr s a 0) s
  setFld s1 Reg.GKO_WAITERS F.GKO_WAITERS_hwm 0

end Sys2Proof.Machine
end

