-- ==== Sys2Proof/Machine/MemMap.lean ====
section
/-! DEFINITION. The physical address map (R6, R7, R306–R308), and the state of memory units that accesses meet: errors,
retirement, power-down (R315, R324, R332–R334). -/

namespace Sys2Proof.Machine

/-- What a physical address names (R6). -/
inductive Region where
  | near
  | pstore
  | tstore
  | csr (off : Nat)
  | hbm (q off : Nat)
  | ddr (c off : Nat)
  | remote (dev : Nat)
  | none
deriving DecidableEq, Repr

/-- The map of R6, with the controllers of R306. -/
def regionOf (a : Nat) : Region :=
  if a < 0x110000 then .near
  else if 0x100000000 ≤ a ∧ a < 0x10C000000 then .pstore
  else if 0x200000000 ≤ a ∧ a < 0x204000000 then .tstore
  else if 0xF000000000 ≤ a ∧ a < 0xF100000000 then .csr (a - 0xF000000000)
  else if 0x10000000000 ≤ a ∧ a < 0x11800000000 then .hbm ((a - 0x10000000000) / 0x600000000) ((a - 0x10000000000) % 0x600000000)
  else if 0x100000000000 ≤ a ∧ a < 0x140000000000 then .ddr ((a - 0x100000000000) / 0x8000000000) ((a - 0x100000000000) % 0x8000000000)
  else if 0x800000000000 ≤ a ∧ a < 0x1000000000000 then .remote ((a - 0x800000000000) / 2 ^ 37)
  else .none

/-- Controller number of a region: HBM 0–3, DDR5 4–11. -/
def Region.mc : Region → Option (Nat × Nat)
  | .hbm q off => Option.some (q, off)
  | .ddr c off => Option.some (4 + c, off)
  | _ => Option.none

/-- Memory that exists (R7, R306): DDR5 beyond the channel's capacity does not. -/
def populated (s : State) (a : Nat) : Bool :=
  match regionOf a with
  | .pstore => true
  | .tstore => true
  | .hbm _ _ => true
  | .ddr c off => decide (off < fld s (Reg.MC_DIMM (4 + c)) F.MC_DIMM_cap_gib * 2 ^ 30)
  | _ => false

/-- Parity of a number below 2^n. -/
def parityN : Nat → Nat → Bool
  | 0, _ => false
  | n + 1, v => Bool.xor (v % 2 == 1) (parityN n (v / 2))

/-- Hashed bit `i` of a controller offset (R308). -/
def hashBit (s : State) (m off i : Nat) : Bool := parityN 40 (Nat.land off (rd s (Reg.MC_HASH m i)).toNat)

/-- Training unit of an offset (R307, R308): pseudo-channel on HBM, 0 on DDR5. -/
def unitOf (s : State) (m off : Nat) : Nat :=
  if m < 4 then (List.range 5).foldl (fun n i => n + b2n (hashBit s m off i) * 2 ^ i) 0 else 0

/-- The unit that serves an address is RETIRED (R333). -/
def retiredAt (s : State) (a : Nat) : Bool :=
  match (regionOf a).mc with
  | some (m, off) => fld s (Reg.MC_UNIT m (unitOf s m off)) F.MC_UNIT_state == 6
  | none => false

/-- Event source k of a controller (R338). -/
def mcSrc (m k : Nat) : Nat := if m < 4 then 768 + 16 * m + k else 832 + 16 * (m - 4) + k

/-- Bytes at an address are poisoned or have an uncorrectable error: some 64-byte line of them is. -/
def poisoned (s : State) (a n : Nat) : Bool :=
  (List.range ((a % 64 + n + 63) / 64)).any (fun i => s.poison.contains (a / 64 + i))

/-- Some 64-byte line of the bytes lies on a retired unit. -/
def retiredIn (s : State) (a n : Nat) : Bool :=
  (List.range ((a % 64 + n + 63) / 64)).any (fun i => retiredAt s (a / 64 * 64 + 64 * i))

/-! ## Units -/

def mcUnit (s : State) (m u : Nat) : McUnit := Tab.get McUnit.reset s.mc.units (m * 32 + u)
def setMcUnit (m u : Nat) (x : McUnit) (s : State) : State :=
  { s with mc := { s.mc with units := Tab.set McUnit.reset s.mc.units (m * 32 + u) x } }
def mcCtl (s : State) (m : Nat) : McCtl := Tab.get McCtl.reset s.mc.ctls m
def setMcCtl (m : Nat) (x : McCtl) (s : State) : State := { s with mc := { s.mc with ctls := Tab.set McCtl.reset s.mc.ctls m x } }

def unitState (s : State) (m u : Nat) : Nat := fld s (Reg.MC_UNIT m u) F.MC_UNIT_state
def setUnitState (m u v : Nat) (s : State) : State := setFld s (Reg.MC_UNIT m u) F.MC_UNIT_state v

/-- Power-down unit of an offset (R307, R308): pseudo-channel, or rank. -/
def pdUnit (s : State) (m off : Nat) : Nat :=
  if m < 4 then unitOf s m off
  else (List.range (fld s (Reg.MC_DIMM m) F.MC_DIMM_ranks)).foldl (fun n i => n + b2n (hashBit s m off (6 + i)) * 2 ^ i) 0

/-- An access to memory: its unit leaves power-down (R324). -/
def memTouch (s : State) (a : Nat) : State :=
  match (regionOf a).mc with
  | none => s
  | some (m, off) =>
    let c := mcCtl s m
    if c.pd.isEmpty then s else setMcCtl m { c with pd := c.pd.filter (· != pdUnit s m off) } s

/-! ## The pool segments of a retired channel (R361) -/

/-- The pool map entry of a DPA, or none where R356 has no entry. -/
def poolEntry (s : State) (ld dpa : Nat) : Option Word :=
  let c := rd s (Reg.HST_LDCFG ld)
  let i := getF c F.HST_LDCFG_map_base + dpa / 2 ^ 30
  if dpa / 2 ^ 30 < getF c F.HST_LDCFG_map_len ∧ i < 4096 ∧ flag s (Reg.HST_POOLMAP i) F.HST_POOLMAP_valid then
    some (rd s (Reg.HST_POOLMAP i))
  else none

/-- A DDR5 channel retires (R361): every valid pool map entry in it gives a poison-list entry and an event to each
logical device that maps it. -/
def poolChannelRetired (ch : Nat) (s : State) : State :=
  forEach (List.range 16) (fun ld s =>
    let c := rd s (Reg.HST_LDCFG ld)
    if getF c F.HST_LDCFG_valid = 0 then s
    else
      forEach (List.range (getF c F.HST_LDCFG_map_len)) (fun i s =>
        match poolEntry s ld (i * 2 ^ 30) with
        | none => s
        | some e =>
          if getF e F.HST_POOLMAP_seg / 512 ≠ ch then s
          else { s with host := { s.host with
            poisonSeg := Tab.upd [] s.host.poisonSeg ld (fun l => if l.contains i then l else l ++ [i]),
            media := s.host.media ++ [{ ld := ld, retired := true, dpa := i * 2 ^ 30 }] } }) s) s

/-- The unit of an address is in RETRAINING: its requests wait (R330). -/
def unitBusy (s : State) (a : Nat) : Bool :=
  match (regionOf a).mc with
  | some (m, off) => unitState s m (unitOf s m off) == 4
  | none => false

/-- Some line of the bytes is on a unit in RETRAINING. -/
def busyIn (s : State) (a n : Nat) : Bool :=
  (List.range ((a % 64 + n + 63) / 64)).any (fun i => unitBusy s (a / 64 * 64 + 64 * i))

/-! ## Sources (R312) -/

/-- The requesters of the memory controllers. A requester and its source ID are fixed by what issues the request: each
operation here that reaches memory is one of these. -/
inductive Source where
  | core (cluster k : Nat) | lyre (cluster : Nat) | engine (e : Nat) | update | bpm | ingress (iob : Bool) | port (p : Nat)
  | cxl (ld : Nat) | dma (link : Nat) | obrex (link : Nat) | service | bmc | mirror | boot | scrub | background | peg
deriving DecidableEq, Repr

/-- The source ID of a requester. -/
def Source.id : Source → Nat
  | .core c k => 4 * c + k % 4
  | .lyre c => 0x60 + c
  | .engine e => 0x78 + e
  | .update => 0x88
  | .bpm => 0x89
  | .ingress iob => 0x8A + b2n iob
  | .port p => 0x8C + p
  | .cxl ld => 0x90 + ld
  | .dma l => 0xA0 + l
  | .obrex l => 0xB0 + l
  | .service => 0xB8
  | .bmc => 0xB9
  | .mirror => 0xBA
  | .boot => 0xBB
  | .scrub => 0xF0
  | .background => 0xF1
  | .peg => 0xF2

/-- A request at the controllers: its source ID and address. -/
structure Request where
  src : Nat
  addr : Nat
deriving DecidableEq, Repr

/-- Two requests keep their order (R313): of one source ID, to one controller. -/
def Request.kept (p o : Request) : Bool :=
  p.src == o.src && (match (regionOf p.addr).mc, (regionOf o.addr).mc with
    | some (m, _), some (n, _) => m == n
    | _, _ => false)

/-! ## Retirement and errors (R315, R332–R334) -/

/-- A unit retires (R331–R334): MC_RETIRED, the purge of the pools of an HBM stack begins, and the pool segments of a
DDR5 channel give poison. -/
def retireUnit (m u : Nat) (s : State) : State :=
  let s1 := raise (setUnitState m u 6 s) (mcSrc m 8)
  if m < 4 then { s1 with bpm := { s1.bpm with purge := s1.bpm.purge ++ [m * 32 + u] } }
  else poolChannelRetired (m - 4) s1

/-- An uncorrectable error of a DEGRADED unit: at MC_TRAINCTL.ue_retire of them it retires (R332). -/
def unitUe (m u : Nat) (s : State) : State :=
  if unitState s m u ≠ 5 then s
  else
    let x := mcUnit s m u
    let lim := fld s (Reg.MC_TRAINCTL m) F.MC_TRAINCTL_ue_retire
    let s1 := setMcUnit m u { x with ue := x.ue + 1 } s
    if lim ≠ 0 ∧ lim ≤ x.ue + 1 then retireUnit m u s1 else s1

/-- A controller counts and reports an error of an access (R315); other memories have no such counter. -/
def mcError (s : State) (a : Nat) (ue : Bool) : State :=
  match (regionOf a).mc with
  | none => s
  | some (m, off) =>
    let s1 := bump s (Reg.MC_ERRCNT m) (if ue then F.MC_ERRCNT_ue else F.MC_ERRCNT_ce)
    let s2 := raise (wr s1 (Reg.MC_ERRLAST m) (toW (2 ^ 47 + b2n ue * 2 ^ 46 + unitOf s m off * 2 ^ 41 + off / 64)))
      (mcSrc m (b2n ue))
    if ue then unitUe m (unitOf s m off) s2 else s2

/-- A read of a memory: what the outside's error outcome (0 none, 1 corrected, 2 uncorrectable), a poisoned unit or a
retired unit make of it. `true` is poison. -/
def memReadCheck (s : State) (a n ecc : Nat) : Bool × State :=
  if retiredIn s a n then (true, s)
  else if ecc = 2 then
    let s := memTouch s a
    let s1 := if s.poison.contains (a / 64) then s else { s with poison := s.poison ++ [a / 64] }
    (true, mcError s1 a true)
  else if poisoned s a n then (true, mcError (memTouch s a) a true)
  else (false, if ecc = 1 then mcError (memTouch s a) a false else memTouch s a)

/-- The bytes at an address cut at the 64-byte lines. -/
def lines : Nat → Nat → List Byte → List (Nat × List Byte)
  | 0, _, _ => []
  | n + 1, a, l => if l.isEmpty then [] else (a, l.take (64 - a % 64)) :: lines n (a + (64 - a % 64)) (l.drop (64 - a % 64))

/-- A write of memory none of which is retired (R315): a full 64-byte write replaces a poisoned unit. -/
def memStore (s : State) (a : Nat) (l : List Byte) : State :=
  let full := s.poison.filter (fun u => !(decide (a ≤ u * 64) && decide (u * 64 + 64 ≤ a + l.length)))
  storeMem { memTouch s a with poison := full } a l

/-- A write of memory (R315, R333): the lines on retired units are lost. `true` is poison. -/
def memWrite (s : State) (a : Nat) (l : List Byte) : Bool × State :=
  if !retiredIn s a l.length then (false, memStore s a l)
  else (true, forEach (lines (l.length / 64 + 2) a l) (fun e s => if retiredAt s e.1 then s else memStore s e.1 e.2) s)

/-- A write of `n` bytes of a number by one of the device's own engines. -/
def memPut (s : State) (a n v : Nat) : State := (memWrite s a (leBytes n v)).2

end Sys2Proof.Machine
end

