-- ==== Sys2Proof/Machine/Crc.lean ====
section
/-! DEFINITION. The reflected CRCs the part computes: CRC-32C for tiles, flow hash and flits (R167, R223), and the
IEEE CRC-32 of Ethernet frames. -/

namespace Sys2Proof.Machine

/-- One bit of a reflected CRC with the given reflected polynomial. -/
def crcBit (poly c : Nat) : Nat := if c % 2 = 1 then Nat.xor (c / 2) poly else c / 2

/-- One byte of a reflected CRC. -/
def crcByte (poly c : Nat) (b : Byte) : Nat :=
  let c0 := Nat.xor c b.toNat
  crcBit poly (crcBit poly (crcBit poly (crcBit poly (crcBit poly (crcBit poly (crcBit poly (crcBit poly c0)))))))

/-- A reflected 32-bit CRC over bytes from a starting register. -/
def crcRun (poly : Nat) : Nat → List Byte → Nat
  | c, [] => c
  | c, b :: r => crcRun poly (crcByte poly c b) r

def polyC : Nat := 0x82F63B78
def polyE : Nat := 0xEDB88320

/-- CRC-32C with an initial value and the final XOR of 0xFFFF_FFFF. -/
def crc32c (init : Nat) (l : List Byte) : Nat := Nat.xor (crcRun polyC init l) 0xFFFFFFFF

/-- CRC-32 (IEEE) with initial value and final XOR 0xFFFF_FFFF. -/
def crc32e (l : List Byte) : Nat := Nat.xor (crcRun polyE 0xFFFFFFFF l) 0xFFFFFFFF

end Sys2Proof.Machine
end

