-- ==== Sys2Proof/Machine/Parse.lean ====
section
/-! DEFINITION. The ingress parser: headers recognised in the parse window, the 40-byte key record and the flow hash
(R166, R167). -/

namespace Sys2Proof.Machine

/-- What the parser finds. -/
structure Parsed where
  kind : Nat
  l3 : Nat
  l4 : Nat
  etype : Nat
  vlan : Nat
  tags : Nat
  frag : Bool
  l4unk : Bool
  key : List Byte
deriving DecidableEq, Repr

/-- Big-endian number of `n` bytes at `o`; 0 when they do not lie in the window. -/
def winNat (w : List Byte) (o n : Nat) : Nat := if o + n ≤ w.length then beNat ((w.drop o).take n) else 0

/-- `n` bytes at `o`, zero where absent. -/
def winBytes (w : List Byte) (o n : Nat) : List Byte := (List.range n).map (fun i => w.getD (o + i) 0)

/-- A VLAN tag is at `o`: a recognised TPID, the tag whole in the window. -/
def isTag (w : List Byte) (o : Nat) : Bool :=
  decide (o + 4 ≤ w.length) && (winNat w o 2 == 0x8100 || winNat w o 2 == 0x88A8)

/-- Number of recognised tags (at most 2). -/
def tagCount (w : List Byte) : Nat := if isTag w 12 then (if isTag w 16 then 2 else 1) else 0

/-- Minimum L4 header bytes of a protocol whose ports are taken (R166). -/
def l4Fixed (proto : Nat) : Option Nat :=
  if proto = 6 then some 20 else if proto = 17 then some 8 else if proto = 132 then some 12 else none

/-- L4 of a packet that is not a fragment: offset (0xFF when no ports are taken), ports, l4_unknown. -/
def parseL4 (w : List Byte) (proto o : Nat) : Nat × List Byte × Bool :=
  match l4Fixed proto with
  | none => (0xFF, [0, 0, 0, 0], false)
  | some n => if o + n ≤ w.length then (o, winBytes w o 4, false) else (0xFF, [0, 0, 0, 0], true)

/-- IPv6 extension headers from `o`: last next-header value, offset after them, fragment header seen, and whether the
walk met a fifth or a truncated one. `n` is how many more may be taken. -/
def walkExt (w : List Byte) : Nat → Nat → Nat → Bool → Nat × Nat × Bool × Bool
  | n, nh, o, frag =>
    if nh = 0 ∨ nh = 43 ∨ nh = 44 ∨ nh = 60 then
      match n with
      | 0 => (nh, o, frag, true)
      | m + 1 =>
        let len := if nh = 44 then 8 else (winNat w (o + 1) 1 + 1) * 8
        if o + 2 ≤ w.length ∧ o + len ≤ w.length then
          walkExt w m (winNat w o 1) (o + len) (frag || nh == 44)
        else (nh, o, frag, true)
    else (nh, o, frag, false)

/-- The parser (R166, R167). -/
def parse (frame : List Byte) : Parsed :=
  let w := frame.take 256
  let tags := tagCount w
  let o := 12 + 4 * tags
  let et := winNat w o 2
  let vlan := if 0 < tags then winNat w 14 2 else 0
  let l3 := o + 2
  let vid := beBytes 2 (vlan % 4096)
  let l2 : Parsed :=
    { kind := 0, l3 := 0xFF, l4 := 0xFF, etype := et, vlan := vlan, tags := tags, frag := false, l4unk := false,
      key := [0, 0, 0, 0, 0, 0] ++ vid ++ winBytes w 6 6 ++ List.replicate 10 0 ++ winBytes w 0 6 ++ beBytes 2 et ++
             List.replicate 8 0 }
  let ihl := winNat w l3 1 % 16
  if et = 0x0800 ∧ 5 ≤ ihl ∧ l3 + ihl * 4 ≤ w.length then
    let proto := winNat w (l3 + 9) 1
    let frag := winNat w (l3 + 6) 2 % 0x4000 != 0
    let (l4, ports, unk) := if frag then (0xFF, [0, 0, 0, 0], false) else parseL4 w proto (l3 + ihl * 4)
    { kind := 1, l3 := l3, l4 := l4, etype := et, vlan := vlan, tags := tags, frag := frag, l4unk := unk,
      key := [1, BitVec.ofNat 8 proto] ++ ports ++ vid ++ winBytes w (l3 + 12) 4 ++ List.replicate 12 0 ++
             winBytes w (l3 + 16) 4 ++ List.replicate 12 0 }
  else if et = 0x86DD ∧ l3 + 40 ≤ w.length then
    let (nh, o4, frag, cut) := walkExt w 4 (winNat w (l3 + 6) 1) (l3 + 40) false
    let (l4, ports, unk) := if frag || cut then (0xFF, [0, 0, 0, 0], cut) else parseL4 w nh o4
    { kind := 2, l3 := l3, l4 := l4, etype := et, vlan := vlan, tags := tags, frag := frag, l4unk := unk,
      key := [2, BitVec.ofNat 8 nh] ++ ports ++ vid ++ winBytes w (l3 + 8) 16 ++ winBytes w (l3 + 24) 16 }
  else l2

/-- The flow hash of a key record with a seed (R167). -/
def flowHash (seed : Nat) (key : List Byte) : Nat := crc32c seed key

end Sys2Proof.Machine
end

