-- ==== Sys2Proof/Machine/PacketOps.lean ====
section
/-! DEFINITION. Packet memory: tiles and their checks (R222–R228), pools, windows and chains (R229–R233), descriptors
(R169), and the buffer pool manager's lists, rings, frees and allocations (R234–R242). -/

namespace Sys2Proof.Machine

/-! ## Pools -/

def poolValid (s : State) (p : Nat) : Bool := flag s (Reg.BPM_PCFG p) F.BPM_PCFG_valid
def poolBase (s : State) (p : Nat) : Nat := (rd s (Reg.BPM_PBASE p)).toNat
def poolBufs (s : State) (p : Nat) : Nat := fld s (Reg.BPM_PBUF p) F.BPM_PBUF_buffers
/-- Bytes of a buffer of pool `p`. -/
def poolSize (s : State) (p : Nat) : Nat := fld s (Reg.BPM_PCFG p) F.BPM_PCFG_size_tiles * 256
def poolHbm (s : State) (p : Nat) : Bool := flag s (Reg.BPM_PCFG p) F.BPM_PCFG_hbm
def poolQuad (s : State) (p : Nat) : Nat := fld s (Reg.BPM_PCFG p) F.BPM_PCFG_quadrant

/-- The pool whose region holds an address (R230). -/
def poolOf (s : State) (a : Nat) : Option Nat :=
  (List.range 16).find? (fun p => poolValid s p && decide (poolBase s p ≤ a) &&
    decide (a < poolBase s p + poolBufs s p * poolSize s p))

/-- Address of the buffer of pool `p` that contains `a` (R238). -/
def bufStart (s : State) (p a : Nat) : Nat :=
  poolBase s p + (a - poolBase s p) / max 1 (poolSize s p) * poolSize s p

/-- `a` is the start of a buffer of pool `p`. -/
def isBufStart (s : State) (p a : Nat) : Bool := decide (poolOf s a = some p) && bufStart s p a == a

/-! ## Tiles and checks (R222–R228) -/

/-- Address of the check entry of a tile of an HBM pool: the check area follows the pool (R229). -/
def checkAddr (s : State) (p tile : Nat) : Nat :=
  poolBase s p + poolBufs s p * poolSize s p + (tile - poolBase s p) / 256 * 8

/-- State and check of the tile at an address: check SRAM for packet-store tiles, check area for HBM pools (R222). -/
def tileGet (s : State) (tile : Nat) : Bool × Nat :=
  match poolOf s tile with
  | some p =>
    if poolHbm s p then
      let a := checkAddr s p tile
      (memNat s (a + 4) 1 % 2 == 1, memNat s a 4)
    else Tab.get (false, 0) s.tiles tile
  | none => Tab.get (false, 0) s.tiles tile

def tilePut (s : State) (tile : Nat) (sealed : Bool) (check : Nat) : State :=
  let chip : State := { s with tiles := Tab.set (false, 0) s.tiles tile (sealed, check),
                               bpm := { s.bpm with chkBad := s.bpm.chkBad.filter (· != tile) } }
  match poolOf s tile with
  | some p => if poolHbm s p then memPut s (checkAddr s p tile) 8 (check + b2n sealed * 2 ^ 32) else chip
  | none => chip

/-- The check of the tile at `a` over its bytes as they stand (R223). -/
def tileCheck (s : State) (a : Nat) : Nat := crc32c 0xFFFFFFFF (rdBytes s.mem a 256 ++ leBytes 8 a)

/-- Tile address of a byte. -/
def tileAt (a : Nat) : Nat := a / 256 * 256

/-- Seals a tile over its bytes; opens a tile, leaving its check stale (R224). -/
def sealTile (s : State) (tile : Nat) : State :=
  let s1 := tilePut s tile true (tileCheck s tile)
  let old := if s.bpm.sealedAt.1 = s.now + 1 then s.bpm.sealedAt.2.filter (· != tile) else []
  { s1 with bpm := { s1.bpm with sealedAt := (s.now + 1, tile :: old) } }
def openTile (s : State) (tile : Nat) : State := tilePut s tile false (tileGet s tile).2

/-- What a write by PST or Lyre does to a tile it reached: it opens it, but for a seal of the same NCLK, which then
covers the written bytes (R224, R225). -/
def writeTile (s : State) (tile : Nat) : State :=
  if !(tileGet s tile).1 then s
  else if s.bpm.sealedAt.1 == s.now + 1 && s.bpm.sealedAt.2.contains tile then sealTile s tile
  else openTile s tile

/-- The tiles of `n` bytes at `a`. -/
def tilesOf (a n : Nat) : List Nat := (List.range ((a % 256 + n + 255) / 256)).map (fun i => tileAt a + 256 * i)

/-- The check entry of a tile has an uncorrectable error, or lies on a retired unit (R226, R334). -/
def checkBad (s : State) (tile : Nat) : Bool :=
  let hbm := fun (p : Nat) => let a := checkAddr s p tile; retiredAt s a || poisoned s a 8
  match poolOf s tile with
  | some p => if poolHbm s p then hbm p else s.bpm.chkBad.contains tile
  | none => s.bpm.chkBad.contains tile

/-- A sealed tile's verification (R226): its check entry is good and matches its bytes. -/
def tileGood (s : State) (tile : Nat) : Bool := (tileGet s tile).2 == tileCheck s tile && !checkBad s tile

/-- A failed verification at a point (0 fill, 1 PLD, 2 Lyre, 3 egress): counted, recorded and raised (R227). -/
def tileFail (point tile : Nat) (link metaErr : Bool) (s : State) : State :=
  let s1 := match point with
    | 0 => bump s Reg.BPM_TCHK0 F.BPM_TCHK0_fill
    | 1 => bump s Reg.BPM_TCHK0 F.BPM_TCHK0_pld
    | 2 => bump s Reg.BPM_TCHK1 F.BPM_TCHK1_lyre
    | _ => bump s Reg.BPM_TCHK1 F.BPM_TCHK1_egress
  raise (wr s1 Reg.BPM_TCHK_LAST
    (toW (2 ^ 47 + point * 2 ^ 44 + b2n link * 2 ^ 43 + b2n metaErr * 2 ^ 42 + tile / 256))) 512

/-! ## Descriptors (R169) -/

/-- A buffer entry: address, pool byte, valid and link bits. -/
def entryOf (addr pool : Nat) (link : Bool) : Nat := addr + pool * 2 ^ 48 + 2 ^ 56 + b2n link * 2 ^ 57
def entryAddr (e : Nat) : Nat := e % 2 ^ 48
def entryValid (e : Nat) : Bool := e.testBit 56
def entryLink (e : Nat) : Bool := e.testBit 57

/-- Descriptor flags (R169). -/
def flHdrBad : Nat := 0
def flUnchecked : Nat := 1
def flChain : Nat := 2
def flFrag : Nat := 3
def flL4Unknown : Nat := 4
def flReturned : Nat := 5

/-- Number at byte `o` of the current slot of a thread. -/
def slotNat (s : State) (t o n : Nat) : Nat :=
  leNat ((List.range n).map (fun i => slotByte s (slotKey (t / 8) (t % 8) (th s t).cur (o + i))))

/-- The buffer entries and chain flag of a thread's slot descriptor as they stand (R202). -/
def slotBufs (s : State) (t : Nat) : List Nat := [slotNat s t 0x20 8, slotNat s t 0x28 8, slotNat s t 0x30 8]
def slotChain (s : State) (t : Nat) : Bool := (slotNat s t 0x07 1).testBit flChain
def slotLen (s : State) (t : Nat) : Nat := slotNat s t 0x0C 4

/-! ## Windows and chains (R231–R233) -/

/-- The 32 entries of tile 0 of a link buffer. -/
def linkEntries (s : State) (link : Nat) : List Nat := (List.range 32).map (fun i => memNat s (link + 8 * i) 8)

/-- Data entries of a link tile, entries 0–30 up to the first that is not valid. -/
def linkData (s : State) (link : Nat) : List Nat := ((linkEntries s link).take 31).takeWhile entryValid

/-- The second link entry of a first link tile, when entries 0–30 are all valid data entries. -/
def linkNext (s : State) (link : Nat) : Option Nat :=
  let e := memNat s (link + 248) 8
  if ((linkEntries s link).take 31).all (fun x => entryValid x && !entryLink x) && entryValid e && entryLink e then
    some e
  else none

/-- The link tiles of a chain, in order: first, then second. -/
def chainLinks (s : State) (bufs : List Nat) (chain : Bool) : List Nat :=
  if !chain then []
  else
    match bufs with
    | [_, _, l] =>
      if entryValid l && entryLink l then
        match linkNext s (entryAddr l) with
        | some e => [entryAddr l, entryAddr e]
        | none => [entryAddr l]
      else []
    | _ => []

/-- Entries of the packet in window order, before any entry that ends the window. -/
def rawEntries (s : State) (bufs : List Nat) (chain : Bool) : List Nat :=
  if chain then
    ((bufs.take 2).filter entryValid) ++ (chainLinks s bufs chain).flatMap (linkData s)
  else bufs.filter entryValid

/-- The data buffers of a packet as (address, size) (R231): entries up to a link entry or an address in no pool. -/
def dataBufs (s : State) (bufs : List Nat) (chain : Bool) : List (Nat × Nat) :=
  ((rawEntries s bufs chain).takeWhile (fun e => !entryLink e && (poolOf s (entryAddr e)).isSome)).map
    (fun e => (entryAddr e, poolSize s ((poolOf s (entryAddr e)).getD 0)))

/-- Size of a packet window. -/
def windowSize (l : List (Nat × Nat)) : Nat := l.foldl (fun n b => n + b.2) 0

/-- Address of byte `o` of a window. -/
def windowAddr : List (Nat × Nat) → Nat → Option Nat
  | [], _ => none
  | (a, n) :: r, o => if o < n then some (a + o) else windowAddr r (o - n)

/-- Index of the data buffer that holds byte `o`. -/
def windowIdx : List (Nat × Nat) → Nat → Nat
  | [], _ => 0
  | (_, n) :: r, o => if o < n then 0 else windowIdx r (o - n) + 1

/-- Addresses of `n` window bytes from `o`. -/
def windowAddrs (l : List (Nat × Nat)) (o n : Nat) : List Nat :=
  (List.range n).filterMap (fun i => windowAddr l (o + i))

/-- Bytes of a window. -/
def windowBytes (s : State) (l : List (Nat × Nat)) (o n : Nat) : List Byte :=
  (windowAddrs l o n).map (rdByte s.mem)

/-- The tiles that hold `n` window bytes from `o`, each once. -/
def windowTiles (l : List (Nat × Nat)) (o n : Nat) : List Nat := ((windowAddrs l o n).map tileAt).eraseDups

/-- Every tile of a packet's data buffers. -/
def allTiles (l : List (Nat × Nat)) : List Nat := l.flatMap (fun b => tilesOf b.1 b.2)

/-- Link tiles of a chain read to locate the data buffers up to index `i`. -/
def linksFor (links : List Nat) (i : Nat) : List Nat := if i < 2 then [] else if i < 33 then links.take 1 else links

/-- Addresses of every buffer to return at the end of a packet (R207): valid entries, the chain's data and link
entries. -/
def returnAddrs (s : State) (bufs : List Nat) (chain : Bool) : List Nat :=
  if chain then
    ((bufs.take 2).filter entryValid).map entryAddr ++
      (match bufs with
       | [_, _, l] => if entryValid l && !entryLink l then [entryAddr l] else []
       | _ => []) ++
      (chainLinks s bufs chain).flatMap (fun l => l :: (linkData s l).map entryAddr)
  else (bufs.filter entryValid).map entryAddr

/-- The buffers of a packet as they stand (R202, R207). -/
def winOf (s : State) (bufs : List Nat) (chain : Bool) : Win :=
  { data := dataBufs s bufs chain, links := chainLinks s bufs chain, rets := returnAddrs s bufs chain }

/-! ## Free lists, caches and rings (R234–R242) -/

def poolHead (s : State) (p : Nat) : Nat := (rd s (Reg.BPM_PHEAD p)).toNat
def poolTail (s : State) (p : Nat) : Nat := (rd s (Reg.BPM_PTAIL p)).toNat
def poolList (s : State) (p : Nat) : Nat := fld s (Reg.BPM_PCOUNT p) F.BPM_PCOUNT_list
def sideR (s : State) (p : Nat) : List Nat := Tab.get [] s.bpm.readSide p
def sideW (s : State) (p : Nat) : List Nat := Tab.get [] s.bpm.writeSide p
def ringHeld (s : State) (p : Nat) : Nat := fld s (Reg.BPM_PRING p) F.BPM_PRING_entries

/-- Sets the two sides of a ring cache and the count BPM_PCOUNT.cache shows. -/
def setSides (s : State) (p : Nat) (r w : List Nat) : State :=
  setFld { s with bpm := { s.bpm with readSide := Tab.set [] s.bpm.readSide p r,
                                      writeSide := Tab.set [] s.bpm.writeSide p w } }
    (Reg.BPM_PCOUNT p) F.BPM_PCOUNT_cache (r.length + w.length)

/-- Entries of the ring, as R36 and the map of R229 size it; 0 when the pool has no ring. -/
def ringSize (s : State) (p : Nat) : Nat := Tab.get 0 s.bpm.ringLen p

/-- The exhausted flag clears once list and cache reach xon (R240). -/
def xonCheck (s : State) (p : Nat) : State :=
  if flag s (Reg.BPM_POUT p) F.BPM_POUT_exhausted &&
      decide (fld s (Reg.BPM_PXON p) F.BPM_PXON_xon ≤ poolList s p + (sideR s p).length + (sideW s p).length) then
    setFld s (Reg.BPM_POUT p) F.BPM_POUT_exhausted 0
  else s

/-- Addresses of the slots of a pool's ring. A slot on a retired unit leaves the ring when that unit's purge is done (R334). -/
def ringSlots (s : State) (p : Nat) : List Nat :=
  let gone := fun (a : Nat) => match regionOf a with
    | .hbm q off => fld s (Reg.MC_UNIT q (unitOf s q off)) F.MC_UNIT_state == 6 &&
        !s.bpm.purge.contains (q * 32 + unitOf s q off)
    | _ => false
  ((List.range (ringSize s p)).map (fun i => (rd s (Reg.BPM_PRINGBASE p)).toNat + 8 * i)).filter (fun a => !gone a)

/-- Addresses of `k` ring slots from the i-th entry on. -/
def ringAddrs (s : State) (p i k : Nat) : List Nat :=
  let l := ringSlots s p
  (List.range k).map (fun j => l.getD ((Tab.get 0 s.bpm.ringPos p + i + j) % max 1 l.length) 0)

/-- A pointer the BPM reads from memory; one that reads as poison is left open by the spec (log 94). -/
def ptrRead (s : State) (a : Nat) : Nat × State :=
  let (bad, s1) := memReadCheck s a 8 0
  if bad then
    let (w, s2) := draw s1
    (w.toNat, s2)
  else (memNat s1 a 6, s1)

/-- Pointers at some addresses. -/
def ptrReads : List Nat → State → List Nat × State
  | [], s => ([], s)
  | a :: r, s =>
    let (x, s1) := ptrRead s a
    let (l, s2) := ptrReads r s1
    (x :: l, s2)

/-- Write of 16 entries of a write side of 16 or more to the tail of the ring (R239). -/
def ringWrite (s : State) (p : Nat) : State :=
  let w := sideW s p
  let held := ringHeld s p
  if w.length < 16 ∨ (ringSlots s p).length < held + 16 then s
  else
    let s1 := forEach ((ringAddrs s p held 16).zip w) (fun e s => memPut s e.1 8 e.2) s
    setSides (setFld s1 (Reg.BPM_PRING p) F.BPM_PRING_entries (held + 16)) p (sideR s1 p) (w.drop 16)

/-- Start of a fetch of up to 16 of the ring's oldest entries when the read side holds fewer than 8 (R239). -/
def ringFetch (s : State) (p : Nat) : State :=
  if 8 ≤ (sideR s p).length ∨ ringHeld s p = 0 ∨ Tab.get [] s.bpm.fetching p ≠ [] then s
  else
    let (l, s1) := ptrReads (ringAddrs s p 0 (min 16 (ringHeld s p))) s
    { s1 with bpm := { s1.bpm with fetching := Tab.set [] s1.bpm.fetching p l } }

/-- Ring movements and the exhausted flag after a change of a pool. -/
def poolSettle (s : State) (p : Nat) : State := xonCheck (ringFetch (ringWrite s p) p) p

/-- The end of an audit with its result code (R243): OK and RESTARTED raise nothing. -/
def auditEnd (s : State) (a : Audit) (code : Nat) : State :=
  let s1 := wr s (Reg.BPM_PAUDIT a.pool) (toW (code * 2 ^ 45 + b2n a.range * 2 ^ 44 + a.steps % 2 ^ 32))
  let s2 := wr s1 (Reg.BPM_PAUDITC a.pool) (toW (a.count % 2 ^ 32))
  let s3 := { s2 with bpm := { s2.bpm with audit := none } }
  if code = 1 ∨ code = 5 then s3 else raise s3 514

/-- An audit of the pool in progress sees a push (+1) or pop (−1) at the head (R243); below zero it is RESTARTED. -/
def auditNote (s : State) (p : Nat) (k : Int) : State :=
  match s.bpm.audit with
  | none => s
  | some a =>
    if a.pool ≠ p then s
    else if a.diff + k < 0 then auditEnd s a 5
    else { s with bpm := { s.bpm with audit := some { a with diff := a.diff + k } } }

/-- Opens every tile of a buffer and counts it out (R224, R237). -/
def openBuffer (s : State) (p x : Nat) : State :=
  let s1 := (tilesOf x (poolSize s p)).foldl openTile s
  bumpWrap s1 (Reg.BPM_POUT p) F.BPM_POUT_out

/-- A rebuild of pool `p` is running (R244). -/
def rebuilding (s : State) (p : Nat) : Bool :=
  fld s Reg.BPM_REBUILD_STAT F.BPM_REBUILD_STAT_state == 1 && fld s Reg.BPM_REBUILD_STAT F.BPM_REBUILD_STAT_pool == p

/-- A pool on a stack, or whose ring lies on it (R334). -/
def poolOnStack (s : State) (p q : Nat) : Bool :=
  let on := fun (a : Nat) => match regionOf a with
    | .hbm k _ => k == q
    | _ => false
  on (poolBase s p) || (decide (0 < ringSize s p) && on (rd s (Reg.BPM_PRINGBASE p)).toNat)

/-- A pool gives nothing and its frees are held: a rebuild runs, or a purge of it (R244, R334). -/
def poolHold (s : State) (p : Nat) : Bool := rebuilding s p || s.bpm.purge.any (fun k => poolOnStack s p (k / 32))

/-- A buffer has a byte on a retired unit (R334). -/
def bufRetired (s : State) (p x : Nat) : Bool :=
  (List.range (poolSize s p / 64)).any (fun i => retiredAt s (x + 64 * i))

/-- A free of a buffer that touches a retired unit is discarded and counted by that stack's controller (R334). -/
def freeDiscard (s : State) (x : Nat) : State :=
  match regionOf x with
  | .hbm q _ => bump s (Reg.MC_RETLOSS q) F.MC_RETLOSS_discarded
  | _ => s

/-- One allocation from a pool (R237): the list when `first`, then the read side, then the write side; 0 is POOL_EMPTY,
which sets the exhausted flag and raises BPM_POOL_EMPTY (R240). -/
def allocOne (s : State) (p : Nat) (first : Bool) : Nat × State :=
  let h := poolHead s p
  if poolHold s p then
    (0, raise (setFld s (Reg.BPM_POUT p) F.BPM_POUT_exhausted 1) 513)
  else if first && h != 0 then
    let (next, s0) := ptrRead s h
    let s1 := wr s0 (Reg.BPM_PHEAD p) (toW next)
    let s2 := if h = poolTail s p then wr s1 (Reg.BPM_PTAIL p) 0 else s1
    let s3 := setFld s2 (Reg.BPM_PCOUNT p) F.BPM_PCOUNT_list (poolList s p - 1)
    (h, openBuffer (auditNote s3 p (-1)) p h)
  else
    match sideR s p with
    | x :: r => (x, openBuffer (setSides s p r (sideW s p)) p x)
    | [] =>
      match sideW s p with
      | x :: w => (x, openBuffer (setSides s p [] w) p x)
      | [] => (0, raise (setFld s (Reg.BPM_POUT p) F.BPM_POUT_exhausted 1) 513)

/-- One free applied to a pool (R238). -/
def freeOne (s : State) (p a : Nat) : State :=
  let x := bufStart s p a
  if bufRetired s p x then freeDiscard s x else
  let s1 :=
    if fld s (Reg.BPM_PHIGH p) F.BPM_PHIGH_high < poolList s p ∧ ringHeld s p + (sideW s p).length < (ringSlots s p).length then
      setSides s p (sideR s p) (sideW s p ++ [x])
    else
      let h := poolHead s p
      let s1 := memPut s x 8 h
      let s2 := if h = 0 then wr s1 (Reg.BPM_PTAIL p) (toW x) else s1
      let s3 := wr s2 (Reg.BPM_PHEAD p) (toW x)
      auditNote (setFld s3 (Reg.BPM_PCOUNT p) F.BPM_PCOUNT_list (poolList s p + 1)) p 1
  poolSettle (setFld s1 (Reg.BPM_POUT p) F.BPM_POUT_out (fld s1 (Reg.BPM_POUT p) F.BPM_POUT_out + 2 ^ 32 - 1)) p

/-- A free of an address outside every pool (R238). -/
def freeError (s : State) (a : Nat) : State :=
  raise (wr (bump s Reg.BPM_FREEERR F.BPM_FREEERR_count) Reg.BPM_FREEERR_ADDR (toW a)) 516

/-- A free of an address reaches the BPM through a port: outside every pool it is an error, else it waits its turn. -/
def freeReq (port : Nat) (op : Option Nat) (a : Nat) (s : State) : State :=
  match poolOf s a with
  | none => freeError s a
  | some _ => { s with bpm := { s.bpm with freeQ := s.bpm.freeQ ++ [{ addr := a, port := port, op := op }] } }

/-- Returns a packet's buffers through a port: 24, 25 egress, 26 Bridge (R207, R238). -/
def returnBufs (port : Nat) (rets : List Nat) (s : State) : State :=
  forEach rets (fun a s => freeReq port none a s) s

/-- Ports of the I/O dies (R237, R238). -/
def portIoa : Nat := 24
def portIob : Nat := 25

/-- Order of a port after a pointer, among `n` ports (R237, R238). -/
def portKey (n after port : Nat) : Nat := (port + n - (after + 1) % n) % n

/-- The request of a pool that comes first in port order after `after`; equal ports keep their order. -/
def firstFree (s : State) (p after : Nat) : Option FreeReq :=
  (s.bpm.freeQ.filter (fun r => decide (poolOf s r.addr = some p))).foldl
    (fun o r => match o with
      | none => some r
      | some b => if portKey 27 after r.port < portKey 27 after b.port then some r else some b) none

/-- The request that comes first in port order after `after` (R237). -/
def firstAlloc (l : List AllocReq) (after : Nat) : Option AllocReq :=
  l.foldl
    (fun o r => match o with
      | none => some r
      | some b => if portKey 26 after r.port < portKey 26 after b.port then some r else some b) none

/-- A free of pool `p` is applied, or held during a rebuild (R244: up to 1,024). -/
def applyFree (s : State) (p : Nat) (r : FreeReq) : State :=
  let s1 := { s with bpm := { s.bpm with freeQ := s.bpm.freeQ.erase r } }
  if poolHold s p then
    if s.bpm.held.length < 1024 then { s1 with bpm := { s1.bpm with held := s1.bpm.held ++ [r] } } else s
  else
    let s2 := freeOne s1 p r.addr
    match r.op with
    | some id => updOp s2 id (fun o => { o with result := some (0, 0) })
    | none => s2

/-- The pool BALLOC chooses for a size (R235), from a cluster of quadrant `q`. -/
def ballocPool (s : State) (q size : Nat) : Option Nat :=
  ((List.range 16).filter (fun p => poolValid s p && flag s (Reg.BPM_PCFG p) F.BPM_PCFG_talloc &&
      decide (size ≤ poolSize s p))).foldl
    (fun o p => match o with
      | none => some p
      | some b =>
        if poolSize s p < poolSize s b then some p
        else if poolSize s p = poolSize s b ∧ poolQuad s p = q ∧ poolQuad s b ≠ q then some p
        else some b) none

end Sys2Proof.Machine
end

