-- ==== Sys2Proof/Machine/SpawnOps.lean ====
section
/-! DEFINITION. Spawn's operations: back-pressure and the pause frames it causes (R171–R175, R371), admission (R172,
R199), selection and grant (R176–R182), fills and promotion (R183–R186), and cluster wakes (R189–R194). -/

namespace Sys2Proof.Machine

/-! ## Source units (R171) -/

/-- Unit numbers: Ethernet port × 8 + priority, host 2^20 + queue, Obrex 2^21 + link × 8 + VC. -/
def unitEth (port prio : Nat) : Nat := port * 8 + prio
def unitHost (q : Nat) : Nat := 2 ^ 20 + q
def unitObx (link vc : Nat) : Nat := 2 ^ 21 + link * 8 + vc
/-- Class of a unit: 0 Ethernet, 1 host, 2 Obrex. -/
def unitClass (u : Nat) : Nat := if u < 2 ^ 20 then 0 else if u < 2 ^ 21 then 1 else 2

/-- Quota, xoff and xon register of a unit's class (R196). -/
def bpReg (u : Nat) : Nat :=
  match unitClass u with
  | 0 => Reg.SPN_BP_ETH
  | 1 => Reg.SPN_BP_HOST
  | _ => Reg.SPN_BP_FAB

/-- Ethernet flow control of a port (R371): 0 none, 1 pause, 2 PFC. -/
def portFc (s : State) (p : Nat) : Nat := fld s (Reg.MAC_PCFG p) F.MAC_PCFG_fc

/-- The unit of an Ethernet frame of a priority on a port (R371). -/
def ethUnit (s : State) (port prio : Nat) : Nat := if portFc s port = 2 then unitEth port prio else unitEth port 0

/-- Host transmit queues that are enabled. -/
def enabledTxqs (s : State) : List Nat :=
  (s.csr.filter (fun e => decide (0x520000 ≤ e.1) && decide (e.1 < 0x540000) && e.1 % 0x20 == 8 &&
    getF e.2 F.HST_TXQ_CFG_en == 1)).map (fun e => (e.1 - 0x520000) / 0x20)

/-- Every source unit the image and the registers give the device. -/
def allUnits (s : State) : List Nat :=
  (Tab.keys s.img.ports).flatMap (fun p =>
    if portFc s p = 2 then (List.range 8).map (unitEth p) else [unitEth p 0]) ++
  (enabledTxqs s).map unitHost ++
  (Tab.keys s.img.olinks).flatMap (fun l => (List.range 8).map (unitObx l))

/-- Ingress pool of a unit: the pool LANES names for its source (R236). The pool of a host unit is its link's. -/
def hostLinkOfFn (s : State) (loc : Nat) : Nat :=
  let p := (loc - 0x1000) / 256
  let f := (loc - 0x1000) % 256
  let w := (s.img.hlinks.filter (fun e => decide (e.1 / 4 = p))).length
  p * 4 + (if w ≤ 1 then 0 else if w = 2 then f / 128 else f / 64)

def unitPool (s : State) (u : Nat) : Option Nat :=
  match unitClass u with
  | 0 => (Tab.find? s.img.ports (u / 8)).map (fun c => c.pool)
  | 1 => (Tab.find? s.img.hlinks (hostLinkOfFn s (fld s (Reg.HST_TXQ_CFG (u - 2 ^ 20)) F.HST_TXQ_CFG_func))).map
           (fun c => c.pool)
  | _ => (Tab.find? s.img.olinks ((u - 2 ^ 21) / 8)).map (fun c => c.pool)

/-- The descriptor in a unit's hold stage. -/
def holdOf (s : State) (u : Nat) : Option Desc := s.spawn.hold.find? (fun d => d.unit == u)

/-- Descriptors of a unit enqueued and not granted, and out[u] of R171 with the hold stage. -/
def outQ (s : State) (u : Nat) : Nat := Tab.get 0 s.spawn.out u
def outU (s : State) (u : Nat) : Nat := outQ s u + b2n (holdOf s u).isSome

/-- In STANDBY, entering it, or leaving it, when back-pressure is withdrawn last (R175, R485). -/
def standing (s : State) : Bool := decide (3 ≤ fld s Reg.PWR_STATE F.PWR_STATE_cur)

/-- A unit's count is at its xoff, or has not come down to xon since (R173). -/
def overQuota (s : State) (u : Nat) : Bool :=
  decide (fld s (bpReg u) F.SPN_BP_ETH_xoff ≤ outU s u) ||
    (s.spawn.qover.contains u && decide (fld s (bpReg u) F.SPN_BP_ETH_xon < outU s u))

/-- Whether back-pressure is asserted for a unit (R173, R175, R240); the standby, the fenced and the draining device of a
pair back-pressure every unit (R435, R444). -/
def bpWanted (s : State) (u : Nat) : Bool :=
  standing s || dstRole s == 2 || dstRole s == 3 || s.dst.handover == 2 || s.spawn.storeBp || s.spawn.qover.contains u ||
  (match unitPool s u with
   | some p => flag s (Reg.BPM_POUT p) F.BPM_POUT_exhausted
   | none => false)

/-! ## Pause and PFC frames (R371) -/

def portUp (s : State) (p : Nat) : Bool := fld s (Reg.MAC_PSTAT p) F.MAC_PSTAT_state == 2

def macCnt (s : State) (p k : Nat) : State := bump s (Reg.MAC_CNT p k) F.MAC_CNT_count

/-- Sends the pause or PFC frame that carries the units of a port asserted now; nothing while it is not UP or fc is 0. -/
def sendPause (p : Nat) (s : State) : State :=
  let mask := ((List.range 8).filter (fun k => s.spawn.asserted.contains (unitEth p k))).foldl (fun n k => n + 2 ^ k) 0
  if !portUp s p || portFc s p == 0 then s
  else macCnt (emit s (.pause p mask (fld s (Reg.MAC_FCQ p) F.MAC_FCQ_quanta))) p 12

/-- Recomputes which units are back-pressured: SPN_BPSTAT, the event of the first one, and the frames a change sends
(R173, R195, R371). -/
def bpUpdate (s : State) : State :=
  let us := allUnits s
  let old := s.spawn.asserted
  let s0 := { s with spawn := { s.spawn with qover := us.filter (overQuota s) } }
  let new := us.filter (bpWanted s0)
  let s1 := { s0 with spawn := { s0.spawn with asserted := new } }
  let heldN := ((s.spawn.hold.map (fun d => d.unit)).eraseDups).length
  let s2 := setFld (setFld s1 Reg.SPN_BPSTAT F.SPN_BPSTAT_asserted new.length) Reg.SPN_BPSTAT F.SPN_BPSTAT_held heldN
  let s3 := if old.isEmpty && !new.isEmpty then raise s2 483 else s2
  let changed := (Tab.keys s.img.ports).filter (fun p =>
    (List.range 8).any (fun k => old.contains (unitEth p k) != new.contains (unitEth p k)))
  forEach changed sendPause s3

/-- The descriptor store's use changed: free and lowest free counts, its own back-pressure, SPN_STORE_LOW (R173, R195). -/
def storeSet (s : State) (n : Nat) : State :=
  let free := 0x20000 - n
  let old := 0x20000 - s.spawn.stored
  let xoff := fld s Reg.SPN_STORE F.SPN_STORE_xoff
  let bp := if free ≤ xoff then true else if fld s Reg.SPN_STORE F.SPN_STORE_xon ≤ free then false else s.spawn.storeBp
  let s1 := setFld { s with spawn := { s.spawn with stored := n, storeBp := bp } } Reg.SPN_STORESTAT
    F.SPN_STORESTAT_free free
  let s2 := if free < fld s1 Reg.SPN_STORESTAT F.SPN_STORESTAT_min_free then
      setFld s1 Reg.SPN_STORESTAT F.SPN_STORESTAT_min_free free else s1
  if xoff < old ∧ free ≤ xoff then raise s2 480 else s2

/-! ## Ready queues (R176, R177) -/

def queueOf (s : State) (q : Nat) : List Desc := Tab.get [] s.spawn.queues q
def queueValid (s : State) (q : Nat) : Bool := flag s (Reg.SPN_QSTAT q) F.SPN_QSTAT_valid
def queueGroup (s : State) (q : Nat) : Nat := fld s (Reg.SPN_QSTAT q) F.SPN_QSTAT_group

/-- Sets a queue's contents, its depth and its high-water mark; the NCLK in which an empty queue is entered is kept. -/
def setQueue (s : State) (q : Nat) (l : List Desc) : State :=
  let born := if (queueOf s q).isEmpty && !l.isEmpty then Tab.set 0 s.spawn.born q (s.now + 1) else s.spawn.born
  let s1 := { s with spawn := { s.spawn with queues := Tab.set [] s.spawn.queues q l, born := born } }
  markHigh (setFld s1 (Reg.SPN_QSTAT q) F.SPN_QSTAT_depth l.length) (Reg.SPN_QSTAT q) F.SPN_QSTAT_hwm l.length

/-- Non-empty queues of a group, rising. -/
def groupQueues (s : State) (g : Nat) : List Nat :=
  (s.spawn.queues.filter (fun e => queueGroup s e.1 == g)).map (fun e => e.1)

def groupBacklog (s : State) (g : Nat) : Nat := (groupQueues s g).foldl (fun n q => n + (queueOf s q).length) 0

def grpWeight (s : State) (g : Nat) : Nat := fld s (Reg.SPN_GRPWT g) F.SPN_GRPWT_weight
def grpMask (s : State) (g : Nat) : Nat := fld s (Reg.SPN_GRPMEM g) F.SPN_GRPMEM_mask
def cluMode (s : State) (c : Nat) : Nat := fld s (Reg.CLU_PWRCTL c) F.CLU_PWRCTL_mode

/-- First element of a rising list after a pointer, wrapping. -/
def firstAfter (l : List Nat) (p : Nat) : Option Nat := (l.find? (fun x => decide (p < x))) <|> l.head?

/-- Admission of the descriptor in a unit's hold stage (R172): room in its queue, in the store and in its quota; none in
STANDBY (R175). -/
def canLetIn (s : State) (d : Desc) : Bool :=
  let q := d.queue % 1024
  decide ((queueOf s q).length < max 1 (fld s (Reg.SPN_QLIM q) F.SPN_QLIM_limit)) && decide (s.spawn.stored < 0x20000) &&
    decide (outQ s d.unit < fld s (bpReg d.unit) F.SPN_BP_ETH_quota) && !standing s

/-- The order of stamping in one NCLK (R199): unit `u` goes before no unit of a lower number whose descriptor of the same
lane may enter now, and after no unit of a higher number that entered in this NCLK. -/
def admitTurn (s : State) (d : Desc) : Bool :=
  !(s.spawn.lastIn.1 == s.now + 1 && decide (d.unit < s.spawn.lastIn.2)) &&
    s.spawn.hold.all (fun e => !(decide (e.unit < d.unit) && e.lane == d.lane && holdOf s e.unit == some e && canLetIn s e))

/-- The hold timer of a lane's head starts at an NCLK, with the limit as it stands (R211). -/
def startHold (l n : Nat) (s : State) : State :=
  let k := fld s Reg.BRG_HOLD F.BRG_HOLD_limit
  { s with bridge := { s.bridge with till := Tab.set 0 s.bridge.till l (n + (if k = 0 then 65536 else k) * 64) } }

/-- Stamps a descriptor with the lane's next sequence (R199); in an empty lane its hold timer starts. -/
def stamp (s : State) (d : Desc) : Desc × State :=
  let n := Tab.get 0 s.bridge.next d.lane
  let s1 := if n = Tab.get 0 s.bridge.head d.lane then startHold d.lane s.now s else s
  ({ d with seq := n },
   { s1 with bridge := { s1.bridge with next := Tab.set 0 s1.bridge.next d.lane ((n + 1) % 2 ^ 24) } })

def letIn (s : State) (d : Desc) : State :=
  let (d1, s1) := stamp s d
  let s2 := { s1 with spawn := { s1.spawn with hold := s1.spawn.hold.erase d,
                                               out := Tab.upd 0 s1.spawn.out d.unit (· + 1),
                                               lastIn := (s.now + 1, d.unit) },
                      svc := { s1.svc with traffic := true } }
  let q := d.queue % 1024
  bpUpdate (storeSet (setQueue s2 q (queueOf s2 q ++ [d1])) (s2.spawn.stored + 1))

/-- A descriptor arrives for admission: it waits behind the unit's earlier ones (R172). -/
def holdPush (s : State) (d : Desc) : State := bpUpdate { s with spawn := { s.spawn with hold := s.spawn.hold ++ [d] } }

/-! ## Slots and grants (R178–R186) -/

/-- Number of an ending that no thread hands off. -/
def noThread : Nat := 3072


def slotOf (x : Thread) (k : Nat) : Slot := if k = 0 then x.slot0 else x.slot1

def setSlot (x : Thread) (k : Nat) (v : Slot) : Thread := if k = 0 then { x with slot0 := v } else { x with slot1 := v }

/-- The physical slot of a thread that is a candidate (R182): the current slot while both are empty, else an empty next
slot beside a current one in use. -/
def candSlot (x : Thread) : Option Nat :=
  if !(decide (x.state = .idle) || running x) then none
  else
    let c := x.cur
    let n := 1 - c
    let curE := decide (slotOf x c = .empty) && x.pkt.isNone
    if curE then (if slotOf x n = .empty then some c else none)
    else if slotOf x n = .empty then some n else none

/-- Threads of a core that hold a packet. -/
def corePackets (s : State) (core : Nat) : Nat :=
  (List.range 8).countP (fun i => (th s (core * 8 + i)).pkt.isSome)

/-- The candidate Spawn chooses in a cluster (R182): an empty current slot first, then the core with fewest packets, then
the lowest index. -/
def bestCand (s : State) (c : Nat) : Option (Nat × Nat) :=
  let r := (clusterThreads c).foldl (fun (best : Option (Nat × Nat × Nat)) t =>
    let x := th s t
    match candSlot x with
    | none => best
    | some k =>
      let key := (if k = x.cur then 0 else 16) + corePackets s (t / 8)
      match best with
      | none => some (key, t, k)
      | some (bk, _, _) => if key < bk then some (key, t, k) else best) none
  r.map (fun e => e.2)

/-- The cluster may receive grants (R182, R191). -/
def cluGrantable (s : State) (c : Nat) : Bool :=
  let x := clu s c
  decide (x.power = .run) && !x.inReset && !x.resetting && !x.liveHold && cluMode s c != 2

/-- Group selection for cluster `c` (R178), given the queues used in this NCLK. -/
def selectGroup (s : State) (c : Nat) (used : List Nat) : Option (Nat × State) :=
  let e := allBelow 64 (fun g => (grpMask s g).testBit c && decide (0 < grpWeight s g) &&
    (groupQueues s g).any (fun q => !used.contains q))
  let b := if flag s Reg.SPN_CTL F.SPN_CTL_boost_en then
      e.filter (fun g => decide (0 < Tab.get 0 s.spawn.boost g)) else []
  let gp := Tab.get 63 s.spawn.gp c
  let key := fun g => c * 64 + g
  if e.isEmpty then none
  else
    let s1 :=
      if b.isEmpty && e.all (fun g => Tab.get 0 s.spawn.credit (key g) == 0) then
        let ms := allBelow 64 (fun g => (grpMask s g).testBit c)
        let cr := ms.foldl (fun cr g => Tab.set 0 cr (key g) (grpWeight s g)) s.spawn.credit
        { s with spawn := { s.spawn with credit := cr } }
      else s
    let pick := if b.isEmpty then
        firstAfter (e.filter (fun g => decide (0 < Tab.get 0 s1.spawn.credit (key g)))) gp
      else firstAfter b gp
    pick.map (fun g => (g, { s1 with spawn := { s1.spawn with
      credit := Tab.set 0 s1.spawn.credit (key g) (Tab.get 0 s1.spawn.credit (key g) - 1),
      gp := Tab.set 63 s1.spawn.gp c g } }))

/-- One grant to cluster `c`: the queue it used and the state, or nothing (R177, R178, R182). -/
def grantOne (s : State) (c : Nat) (used : List Nat) : Option (Nat × State) :=
  if !cluGrantable s c then none
  else
    match bestCand s c with
    | none => none
    | some (t, k) =>
      match selectGroup s c used with
      | none => none
      | some (g, s1) =>
        match firstAfter ((groupQueues s1 g).filter (fun q => !used.contains q)) (Tab.get 1023 s1.spawn.qptr g) with
        | none => none
        | some q =>
          match queueOf s1 q with
          | [] => none
          | d :: rest =>
            let s2 := setQueue s1 q rest
            let s3 := { s2 with spawn := { s2.spawn with qptr := Tab.set 1023 s2.spawn.qptr g q,
                                                         out := Tab.upd 0 s2.spawn.out d.unit (· - 1) } }
            let s4 := updTh s3 t (fun x => setSlot x k (.filling d false))
            some (q, bumpWrap s4 Reg.SPN_CNT_DISP F.SPN_CNT_DISP_count)

/-- The visit of one NCLK (R180): clusters in order, at most `left` further grants; returns the first cluster granted. -/
def grantVisit : List Nat → Nat → List Nat → Option Nat → State → Option Nat × State
  | [], _, _, first, s => (first, s)
  | c :: cs, left, used, first, s =>
    if left = 0 then (first, s)
    else
      match grantOne s c used with
      | none => grantVisit cs left used first s
      | some (q, s1) => grantVisit cs (left - 1) (q :: used) (first <|> some c) s1

/-- Queues entered empty in this NCLK: nothing of them is granted before the next (R180). -/
def newQueues (s : State) : List Nat := (s.spawn.born.filter (fun e => e.2 == s.now + 1)).map (fun e => e.1)

/-- One NCLK of grants (R180): the visit starts after the cluster that got the first grant of the last NCLK with one. -/
def grantNclk (s : State) : State :=
  let order := (List.range 24).map (fun i => (s.spawn.gStart + i) % 24)
  let (first, s1) := grantVisit order 10 (newQueues s) none s
  let s2 := match first with
    | some c => { s1 with spawn := { s1.spawn with gStart := (c + 1) % 24 } }
    | none => s1
  bpUpdate s2

/-- Packet start at THR_ENTRY (R121, R185, R66): the slot becomes current, its store entry frees. -/
def startPacket (s : State) (t k : Nat) (d : Desc) : State :=
  let s1 := updTh s t (fun x =>
    let st := putF (putF x.csr.tstat TS.priv (getF x.csr.tstat TS.pktPriv)) TS.th 0
    { (setSlot x k (.full d)) with
      state := .packet, cur := k, pkt := some d, touched := [], hist := drainHist (th s t).hist, rep := none, wait := .none,
      pc := bitsN x.csr.entry.toNat 17 0,
      csr := { x.csr with tstat := st, trep := putF x.csr.trep TS.repValid 0 } })
  bpUpdate (storeSet s1 (s1.spawn.stored - 1))

/-- A descriptor returns to the head of its ready queue with flags.returned (R186). -/
def returnDesc (d : Desc) (s : State) : State :=
  let q := d.queue % 1024
  let d1 := { d with flags := putN d.flags flReturned flReturned 1 }
  let s1 := { s with spawn := { s.spawn with out := Tab.upd 0 s.spawn.out d.unit (· + 1) } }
  setQueue s1 q (d1 :: queueOf s1 q)

/-- Takes back one slot of a thread whose packet it has not taken (R186); a fill in progress completes first. -/
def returnSlot (t k : Nat) (s : State) : State :=
  if (th s t).pkt.isSome && decide (k = (th s t).cur) then s
  else
    match slotOf (th s t) k with
    | .full d => returnDesc d (updTh s t (fun x => setSlot x k .empty))
    | .filling d _ => updTh s t (fun x => setSlot x k (.filling d true))
    | .empty => s

/-- Takes back a thread's slots whose packet it has not taken. -/
def returnSlots (t : Nat) (s : State) : State := bpUpdate (returnSlot t 1 (returnSlot t 0 s))

/-- An IDLE thread takes a full slot, its current one first (R185, R121). -/
def takeNext (s : State) (t : Nat) : State :=
  let x := th s t
  if x.state ≠ .idle then s
  else
    match slotOf x x.cur with
    | .full d => startPacket s t x.cur d
    | _ =>
      match slotOf x (1 - x.cur) with
      | .full d => startPacket s t (1 - x.cur) d
      | _ => s

/-! ## Cluster wakes (R189–R194) -/

/-- A wake of the cluster is pending. -/
def wakePending (s : State) (c : Nat) : Bool := s.spawn.wakes.any (fun w => w.cluster == c)

/-- QUIET's cap on clusters outside PARKED and PARKING bars a wake that is not a zero-run wake (R192). -/
def quietBars (s : State) (w : WakeReq) : Bool :=
  let p := (clu s w.cluster).power
  fld s Reg.PWR_STATE F.PWR_STATE_cur == 2 && !w.zero && (decide (p = .parked) || decide (p = .parking)) &&
    decide (fld s Reg.SPN_POLICY F.SPN_POLICY_quiet_max ≤
      (allBelow 24 (fun c => (clu s c).power != .parked && (clu s c).power != .parking)).length)

/-- An aborted PARKING is an entry of GATED (R189, R197). -/
def abortParking (c : Nat) (s : State) : State :=
  if (clu s c).power = .parking then
    bump (updClu s c (fun x => { x with power := .gated })) (Reg.CLU_PWRCNT c) F.CLU_PWRCNT_gates
  else s

/-- A cluster wake is requested: pending once, and kept in request order (R194); one that QUIET does not bar aborts
PARKING (R189). A zero-run wake takes over a pending one. -/
def requestWake (zero : Bool) (c : Nat) (s : State) : State :=
  let x := clu s c
  if x.power = .run ∨ x.power = .wakingG ∨ x.power = .wakingP then s
  else
    let s1 := if quietBars s { cluster := c, zero := zero, paced := false } then s else abortParking c s
    let ws := s1.spawn.wakes
    let l := if wakePending s c then ws.map (fun w => if w.cluster = c then { w with zero := w.zero || zero } else w)
      else ws ++ [{ cluster := c, zero := zero, paced := false }];
    { s1 with spawn := { s1.spawn with wakes := l } }

/-- A wake asked for by a command or a wake group (R132, R300): none while mode 2 or STANDBY holds the cluster. -/
def requestWakeCmd (c : Nat) (s : State) : State :=
  if cluMode s c = 2 ∨ standing s then s else requestWake false c s

/-- Fewer than two wakes started in the NCLK from now − 399 to now (R194). -/
def wakeWindowClear (s : State) : Bool := decide ((s.spawn.starts.filter (fun t => decide (s.now < t + 400))).length < 2)

/-- A cluster is idle (R190). -/
def cluIdle (s : State) (c : Nat) : Bool :=
  (clusterThreads c).all (fun t =>
    let x := th s t
    (decide (x.state = .idle) || decide (x.state = .killed) || decide (x.state = .reset)) &&
      decide (x.slot0 = .empty) && decide (x.slot1 = .empty) && decide (x.csr.ttimer = 0) &&
      !opsPending s t) &&
  (clu s c).lyrOps.isEmpty && !(clu s c).liveHold

/-- Whether a group is orphaned (R176): a valid queue names it and no member can run. -/
def orphaned (s : State) (g : Nat) : Bool :=
  (allBelow 24 (fun c => (grpMask s g).testBit c)).all (fun c => cluMode s c == 2)

/-- Watches the groups a valid queue names; raises SPN_GROUP_ORPHAN when one becomes orphaned (R176). -/
def orphanCheck (s : State) : State :=
  let named := ((allBelow 1024 (queueValid s)).map (queueGroup s)).eraseDups
  let cur := named.filter (orphaned s)
  let fresh := cur.filter (fun g => !s.spawn.orphan.contains g)
  forEach fresh (fun _ s => raise s 482) { s with spawn := { s.spawn with orphan := cur } }

/-- PARKING begins (R189): Lyre context slots are written back by LYRE_FLUSH_COMPLETE before PARKED. -/
def cluPower (c : Nat) (p : CPower) (s : State) : State := updClu s c (fun x => { x with power := p })

end Sys2Proof.Machine
end

