-- ==== Sys2Proof/Machine/BridgeOps.lean ====
section
/-! DEFINITION. Bridge's operations (R198–R219): endings and hand-off (R101, R185, R201, R208), retirement (R209, R210),
skips and late endings (R213, R214), FORK (R205), turns and passes (R215–R217), and the buffers' return (R207). -/

namespace Sys2Proof.Machine

/-! ## Lanes -/

def laneNext (s : State) (l : Nat) : Nat := Tab.get 0 s.bridge.next l
def laneHead (s : State) (l : Nat) : Nat := Tab.get 0 s.bridge.head l
def seqKey (lane sq : Nat) : Nat := lane * 2 ^ 24 + sq
def seqRec (s : State) (k : Nat) : SeqRec := Tab.get SeqRec.reset s.bridge.recs k
def setRec (s : State) (k : Nat) (r : SeqRec) : State :=
  { s with bridge := { s.bridge with recs := Tab.set SeqRec.reset s.bridge.recs k r } }

/-- Sets the reorder-store entries in use; free entries falling to zero raise BRG_STORE_FULL (R220). -/
def setUsed (s : State) (n : Nat) : State :=
  let s1 := { s with bridge := { s.bridge with used := n } }
  let s2 := markHigh s1 Reg.BRG_STORE F.BRG_STORE_hwm (min n 0x1FFF)
  if n = 8192 ∧ s.bridge.used < 8192 then raise s2 498 else s2

/-- Sets the child records in use. -/
def setKids (s : State) (n : Nat) : State :=
  markHigh { s with bridge := { s.bridge with kidsUsed := n } } Reg.BRG_CHILDSTAT F.BRG_CHILDSTAT_hwm
    (if n = 16384 then 0x7FFF else n)

/-! ## Destinations (R203, R204) -/

def portAssigned (s : State) (p : Nat) : Bool := (Tab.find? s.img.ports p).isSome

/-- The receive queue that serves a function's queue number, enabled and running (R346, R351). -/
def rxqOf (s : State) (loc idx : Nat) : Option Nat :=
  (s.csr.filter (fun e => decide (0x540000 ≤ e.1) && decide (e.1 < 0x560000) && e.1 % 0x20 == 0x10 &&
    getF e.2 F.HST_RXQ_CFG_en == 1 && getF e.2 F.HST_RXQ_CFG_func == loc && getF e.2 F.HST_RXQ_CFG_idx == idx &&
    fld s (e.1 + 8) F.HST_RXQ_STAT_state == 1)).head?.map
    (fun e => (e.1 - 0x540000) / 0x20)

/-- The physical function of a host link and the functions it enables: PF at its base, VFs up to HST_LINK.vfs (R343). -/
def fnEnabled (s : State) (loc : Nat) : Bool :=
  if loc < 0x1000 ∨ 0x1400 ≤ loc ∨ s.host.flr.contains loc then false
  else
    let l := hostLinkOfFn s loc
    let w := (s.img.hlinks.filter (fun e => e.1 / 4 == l / 4)).length
    let base := if w ≤ 1 then 0 else if w = 2 then l % 4 * 128 else l % 4 * 64
    flag s (Reg.HST_LINK l) F.HST_LINK_up && decide (base ≤ (loc - 0x1000) % 256) &&
      decide ((loc - 0x1000) % 256 ≤ base + fld s (Reg.HST_LINK l) F.HST_LINK_vfs)

/-- State of an Obrex link (R384). -/
def linkState (s : State) (l : Nat) : Nat := fld s (Reg.OBX_LSTAT l) F.OBX_LSTAT_state

/-- Candidate links of the route table for a device: the valid ones that are ACTIVE, in order (R400). -/
def routeCands (s : State) (d : Nat) : List Nat :=
  let w := (rd s (Reg.OBX_ROUTE d)).toNat
  ((List.range 4).filterMap (fun c => if w.testBit (4 * c + 3) then some (bitsN w (4 * c + 2) (4 * c)) else none)).filter
    (fun l => linkState s l == 4)

/-- Class of a virtual channel: 0 PACKET (3 acts as 0), 1 REQUEST, 2 RESPONSE (R394). -/
def vcClass (s : State) (v : Nat) : Nat :=
  let c := fld s (Reg.OBX_VCCFG v) F.OBX_VCCFG_class
  if c = 3 then 0 else c

/-- Why a destination word is bad (R203, R204): 0 the word, 1 not reachable or not enabled; `none` when good. -/
def destBad (s : State) (w : Word) : Option Nat :=
  let n := w.toNat
  match bitsN n 47 44 with
  | 1 =>
    if bitsN n 43 16 ≠ 0 ∨ bitsN n 15 11 ≠ 0 ∨ bitsN n 7 6 ≠ 0 then some 0
    else if portAssigned s (bitsN n 5 0) then none else some 1
  | 2 =>
    let loc := bitsN n 13 0
    if bitsN n 43 32 ≠ 0 ∨ bitsN n 15 14 ≠ 0 ∨ loc < 0x1000 ∨ 0x13FF < loc then some 0
    else if !fnEnabled s loc ∨ (rxqOf s loc (bitsN n 31 16)).isNone then some 1 else none
  | 3 =>
    if bitsN n 43 19 ≠ 0 ∨ bitsN n 15 10 ≠ 0 ∨ vcClass s (bitsN n 18 16) ≠ 0 then some 0
    else if bitsN n 9 0 = devId s ∨ s.gecko.left.contains (bitsN n 9 0) ∨ (routeCands s (bitsN n 9 0)).isEmpty then some 1
    else none
  | _ => some 0

/-- The frame bytes an edit word selects (R204), or `none` for an invalid departure. -/
def editRange (w dest : Word) (len window : Nat) : Option (Nat × Nat) :=
  let n := w.toNat
  let off := bitsN n 15 0
  let l := if bitsN n 31 16 = 0 then len - off else bitsN n 31 16
  if bitsN n 47 33 ≠ 0 ∨ (n.testBit 32 ∧ bitsN dest.toNat 47 44 ≠ 1) ∨ l = 0 ∨ window < off + l then none
  else some (off, l)

/-! ## Buffers of an ended packet (R207) -/

/-- One of the completions a packet's buffers wait for has happened; the last returns them through `port`. -/
def refDone (key port : Nat) (s : State) : State :=
  match Tab.find? s.bridge.refs key with
  | none => s
  | some r =>
    if r.left ≤ 1 then
      returnBufs port r.rets { s with bridge := { s.bridge with refs := Tab.del key s.bridge.refs } }
    else { s with bridge := { s.bridge with refs := Tab.put s.bridge.refs key { r with left := r.left - 1 } } }

/-! ## Ends of packets: the thread's side (R101, R185, R125) -/

/-- Seals every open tile of a packet's data buffers (R224). -/
def sealOpen (data : List (Nat × Nat)) (s : State) : State :=
  forEach (allTiles data) (fun tl s => if (tileGet s tl).1 then s else sealTile s tl) s

/-- What follows the hand-off of a thread's packet: HALT or KILL pending stop it without promotion; else the full next
slot becomes current, or the thread is IDLE (R125, R185). -/
def afterEnding (t : Nat) (s : State) : State :=
  let x := th s t
  let s1 := setTh s t { x with wait := .none }
  if x.pendKill then s1
  else if x.pendHalt then
    returnSlots t (setTh s1 t { x with wait := .none, state := .halted, prior := .idle, pendHalt := false })
  else
    takeNext (setTh s1 t { x with wait := .none, state := .idle }) t

/-- Free reorder-store entries, counting the endings on their way. -/
def entryFree (s : State) (key : Nat) : Bool :=
  (seqRec s key).skipped || laneHead s (key / 2 ^ 24) == key % 2 ^ 24 ||
    decide (s.bridge.used + s.bridge.waiting.length + s.bridge.inbound.length < 8192)

/-- Hands the ending of a thread's packet to Bridge (R201, R202): the slot empties, and the thread goes on unless the
ending must wait for an entry (R208). The chain flag is the granted one; len and the buffers are the slot's. -/
def handOff (s : State) (t : Nat) (rel : Bool) (dest edit : Word) : State :=
  let x := th s t
  match x.pkt with
  | none => s
  | some d =>
    let key := seqKey d.lane d.seq
    let w := winOf s (slotBufs s t) (d.flags.testBit flChain)
    let s1 := if rel then sealOpen w.data s else s
    let free := entryFree s1 key
    let e : Ending := { rel := rel, dest := dest, edit := edit, len := slotLen s t, win := w, hash := d.hash, thread := t,
                        sure := free }
    let s2 := { s1 with bridge := { s1.bridge with inbound := s1.bridge.inbound ++ [(key, e)] } }
    let s3 := updTh s2 t (fun x => { (setSlot x x.cur .empty) with
      pkt := none, touched := [], pc := bitsN x.csr.entry.toNat 17 0, wait := .handed key })
    if free then afterEnding t s3 else s3

/-- RELEASE or DROP commits once nothing of the thread is pending (R101), else waits. -/
def endPacket (s : State) (t : Nat) (rel : Bool) (dest edit : Word) : State :=
  if opsPending s t then updTh s t (fun x => { x with wait := .ending rel dest edit })
  else handOff (finishSeq (updTh s t (fun x => { x with wait := .none })) t) t rel dest edit

/-- Ends a wait of a thread whose operations are done: WAITC, FENCE, or the implicit wait of RELEASE and DROP. -/
def settle (t : Nat) (s : State) : State :=
  match (th s t).wait with
  | .ending rel dest edit => if opsPending s t then s else endPacket s t rel dest edit
  | _ => settleWait s t

/-- Delivers an operation's completion and ends the wait it ends. -/
def complete (o : AsyncOp) (status : Nat) (v : Word) (s : State) : State := settle o.thread (deliver s o status v)

/-! ## Bridge's side -/

/-- Bridge has an ending: the thread that waits for it goes on (R208), or the store entry of Spawn's own DROP frees
(R171, R200). -/
def endingKept (key : Nat) (e : Ending) (s : State) : State :=
  if e.thread = noThread then storeSet s (s.spawn.stored - 1)
  else if (th s e.thread).wait = .handed key then afterEnding e.thread s else s

/-- An ending is recorded for a sequence (R208), with a store entry or not. -/
def recordEnding (key : Nat) (e : Ending) (entry : Bool) (s : State) : State :=
  let s1 := setRec s key { seqRec s key with ending := some e, entry := entry, passed := 15 }
  endingKept key e (if entry then setUsed s1 (s1.bridge.used + 1) else s1)

/-- The late ending of a skipped sequence (R214). -/
def lateEnding (key : Nat) (e : Ending) (s : State) : State :=
  let s2 := raise (bump (setRec s key SeqRec.reset) Reg.BRG_CNT_LATE F.BRG_CNT_LATE_count) 497
  endingKept key e (returnBufs 26 e.win.rets s2)

/-- A reorder-store entry is free and kept for no ending on its way (R208). -/
def entryOpen (s : State) : Bool :=
  decide (s.bridge.used + (s.bridge.inbound.filter (fun i => i.2.sure)).length < 8192)

/-- Waiting endings take free entries in arrival order (R208). -/
def feedWaiting : Nat → State → State
  | 0, s => s
  | n + 1, s =>
    match s.bridge.waiting with
    | [] => s
    | (key, e) :: r =>
      if !entryOpen s then s
      else feedWaiting n (recordEnding key e true { s with bridge := { s.bridge with waiting := r } })

/-- An ending reaches Bridge (R208). -/
def endingArrives (key : Nat) (e : Ending) (s : State) : State :=
  if (seqRec s key).skipped then feedWaiting 1 (lateEnding key e s)
  else if laneHead s (key / 2 ^ 24) = key % 2 ^ 24 then feedWaiting 1 (recordEnding key e false s)
  else if e.sure || (entryOpen s && s.bridge.waiting.isEmpty) then recordEnding key e true s
  else { s with bridge := { s.bridge with waiting := s.bridge.waiting ++ [(key, e)] } }

/-- A sequence becomes head: its hold timer starts in the next NCLK (R211), and an ending that waits for an entry is
recorded without one (R208). -/
def headChange (l : Nat) (s : State) : State :=
  let h := (laneHead s l + 1) % 2 ^ 24
  let s0 := { s with bridge := { s.bridge with head := Tab.set 0 s.bridge.head l h } }
  let s1 := if h = laneNext s l then s0 else startHold l (s.now + 1) s0
  match s1.bridge.waiting.find? (fun w => w.1 == seqKey l h) with
  | some (key, e) =>
    recordEnding key e false { s1 with bridge := { s1.bridge with waiting := s1.bridge.waiting.erase (key, e) } }
  | none => s1

/-- Disposal of a bad destination (R210). -/
def badDest (key why : Nat) (child : Bool) (dest : Word) (s : State) : State :=
  raise (wr (bump s Reg.BRG_CNT_BAD F.BRG_CNT_BAD_count) Reg.BRG_LASTBAD
    (toW (2 ^ 47 + b2n child * 2 ^ 46 + why * 2 ^ 44 + bitsN dest.toNat 47 44 * 2 ^ 40 + key))) 499

/-- Hands a parent or child to the egress of its destination, or disposes of it (R209). -/
def sendOff (key : Nat) (child : Option Nat) (dest edit : Word) (e : Ending) (s : State) : State :=
  match destBad s dest with
  | some why => refDone key 26 (badDest key why child.isSome dest s)
  | none =>
    match editRange edit dest e.len (windowSize e.win.data) with
    | none => refDone key 26 (badDest key 2 child.isSome dest s)
    | some (off, len) =>
      let d : Depart := { key := key, child := child, dest := dest, off := off, len := len,
                          ts := edit.toNat.testBit 32, win := e.win, hash := e.hash }
      let q := Tab.get [] s.bridge.egress dest.toNat
      let s1 := { s with bridge := { s.bridge with egress := Tab.set [] s.bridge.egress dest.toNat (q ++ [d]) } }
      if child.isNone then bumpWrap s1 Reg.BRG_CNT_REL F.BRG_CNT_REL_count else s1

/-- One retirement of a lane's head (R209): its parent, then each child; the last moves the head. `false` when the head
has no recorded ending. -/
def retireOne (l : Nat) (s : State) : Bool × State :=
  let key := seqKey l (laneHead s l)
  let r := seqRec s key
  match r.ending with
  | none => (false, s)
  | some e =>
    let s1 :=
      if !r.parentDone then
        let ref : BufRef := { left := 1 + r.kids.length, rets := e.win.rets }
        let s0 := { s with bridge := { s.bridge with refs := Tab.put s.bridge.refs key ref } }
        let s1 := setRec s0 key { r with parentDone := true }
        if e.rel then sendOff key none e.dest e.edit e s1
        else refDone key 26 (bumpWrap s1 Reg.BRG_CNT_DROP F.BRG_CNT_DROP_count)
      else
        match r.kids[r.kidsDone]? with
        | some (dst, ed) => sendOff key (some r.kidsDone) dst ed e (setRec s key { r with kidsDone := r.kidsDone + 1 })
        | none => s
    let r1 := seqRec s1 key
    if r1.kidsDone < r1.kids.length then (true, s1)
    else
      let s2 := setKids (setRec s1 key SeqRec.reset) (s1.bridge.kidsUsed - r1.kids.length)
      let s3 := if r1.entry then setUsed s2 (s2.bridge.used - 1) else s2
      (true, feedWaiting 1 (headChange l s3))

/-- Up to `n` retirements of a lane; how many were made. -/
def retireLane (l : Nat) : Nat → State → Nat × State
  | 0, s => (0, s)
  | n + 1, s =>
    match retireOne l s with
    | (false, s1) => (0, s1)
    | (true, s1) =>
      let (k, s2) := retireLane l n s1
      (k + 1, s2)

/-- Lanes whose head has a recorded ending, in turn order after the pointer (R209). -/
def readyLanes (s : State) : List Nat :=
  let ls := (s.bridge.recs.filter (fun e => e.2.ending.isSome && laneHead s (e.1 / 2 ^ 24) == e.1 % 2 ^ 24)).map
    (fun e => e.1 / 2 ^ 24)
  ls.filter (fun l => decide (s.bridge.rStart ≤ l)) ++ ls.filter (fun l => decide (l < s.bridge.rStart))

/-- Retires over lanes within a budget; returns the first lane that retired. -/
def retireVisit : List Nat → Nat → Option Nat → State → Option Nat × State
  | [], _, first, s => (first, s)
  | l :: ls, left, first, s =>
    if left = 0 then (first, s)
    else
      let (k, s1) := retireLane l (min 4 left) s
      retireVisit ls (left - k) (if k = 0 then first else first <|> some l) s1

/-- One NCLK of retirement (R209): at most 4 per lane and 16 in all. -/
def retireNclk (s : State) : State :=
  match retireVisit (readyLanes s) 16 none s with
  | (some l, s1) => { s1 with bridge := { s1.bridge with rStart := (l + 1) % 65536 } }
  | (none, s1) => s1

/-- Hold expiry of a lane's head with no ending recorded: the head is skipped (R212, R213). -/
def skipHead (l : Nat) (s : State) : State :=
  let h := laneHead s l
  let key := seqKey l h
  let r := seqRec s key
  if h = laneNext s l ∨ r.ending.isSome ∨ s.now < Tab.get 0 s.bridge.till l then s
  else
    let s1 := setKids (setRec s key { r with skipped := true, passed := 15, kids := [] })
      (s.bridge.kidsUsed - r.kids.length)
    let s2 := wr (bump s1 Reg.BRG_CNT_SKIP F.BRG_CNT_SKIP_count) Reg.BRG_LASTSKIP (toW (2 ^ 47 + l * 2 ^ 24 + h))
    headChange l (raise s2 496)

/-! ## FORK (R205) -/

/-- Applies a FORK of a packet: the result word, and the child record it makes. -/
def forkApply (d : Desc) (dest edit : Word) (s : State) : Word × State :=
  let key := seqKey d.lane d.seq
  let r := seqRec s key
  let refuse := fun (why : Nat) =>
    (toW (why * 2 ^ 40), raise (bump s Reg.BRG_CNT_CHILD F.BRG_CNT_CHILD_refused) 500)
  if r.skipped then refuse 3
  else if 64 ≤ r.kids.length then refuse 1
  else if 16384 ≤ s.bridge.kidsUsed then refuse 2
  else
    let s1 := setKids (setRec s key { r with kids := r.kids ++ [(dest, edit)] }) (s.bridge.kidsUsed + 1)
    (toW (2 ^ 47 + r.kids.length), bumpWrap s1 Reg.BRG_CNT_CHILD F.BRG_CNT_CHILD_made)

/-! ## Turns (R215–R217) -/

/-- A sequence no longer holds back point `k` of its lane. -/
def passedPoint (s : State) (k key : Nat) : Bool :=
  let r := seqRec s key
  r.ending.isSome || r.skipped || r.passed.testBit k

/-- The turn condition of R215. -/
def turnHolds (s : State) (k l sq : Nat) : Bool :=
  (seqRec s (seqKey l sq)).skipped ||
    (List.range ((sq + 2 ^ 24 - laneHead s l) % 2 ^ 24)).all
      (fun i => passedPoint s k (seqKey l ((laneHead s l + i) % 2 ^ 24)))

/-- The turn word (R215). -/
def turnWord (s : State) (l sq : Nat) : Word := toW (b2n (seqRec s (seqKey l sq)).skipped * 2 ^ 47 + sq)

/-- Passing point `k` (R216). -/
def passPoint (k l sq : Nat) (s : State) : State :=
  let key := seqKey l sq
  let r := seqRec s key
  setRec s key { r with passed := r.passed ||| 2 ^ k }

/-- BRG_CTL.clr (R221). -/
def brgClr (s : State) : State :=
  let s1 := [Reg.BRG_CNT_SKIP, Reg.BRG_CNT_LATE, Reg.BRG_CNT_BAD].foldl (fun s a => wr s a 0) s
  setFld (setFld (setFld s1 Reg.BRG_CNT_CHILD F.BRG_CNT_CHILD_refused 0) Reg.BRG_STORE F.BRG_STORE_hwm 0)
    Reg.BRG_CHILDSTAT F.BRG_CHILDSTAT_hwm 0

end Sys2Proof.Machine
end

