-- ==== Sys2Proof/Machine/AccessOps.lean ====
section
/-! DEFINITION. Far atomics (R98), the reading of a tile for verification (R226), and the protection map (R511–R513). -/

namespace Sys2Proof.Machine

/-- A far atomic's effect on bytes 0–5 of its slot (R98): the old value. -/
def memAtomic (s : State) (a fn opnd cmp : Nat) : Word × State :=
  let old := toW (memNat s a 6)
  (old, (memWrite s a (leBytes 6 (atomNew fn old (toW opnd) (toW cmp)).toNat)).2)

/-- An uncorrectable error of a tile's check entry (outcome 3 of the tile's read); it stands until the entry is written
(R226, R315). -/
def entryError (s : State) (tile ecc : Nat) : State :=
  let bad : State := { s with bpm := { s.bpm with chkBad := s.bpm.chkBad ++ [tile] } }
  if ecc ≠ 3 then s
  else
    match poolOf s tile with
    | some p => if poolHbm s p then (memReadCheck s (checkAddr s p tile) 8 2).2 else bad
    | none => bad

/-- What the reading of a tile for its verification finds (R226): an error in its bytes, sealed, and a bad check or check
entry. -/
structure TileRead where
  poison : Bool
  sealed : Bool
  bad : Bool

/-- Reads a tile for its verification; `ecc` is the outside's error: 1 and 2 of its bytes, 3 of its check entry. -/
def tileRead (s : State) (tile ecc : Nat) : TileRead × State :=
  let (psn, s1) := memReadCheck (entryError s tile ecc) tile 256 ecc
  let sealed := (tileGet s1 tile).1
  ({ poison := psn, sealed := sealed, bad := sealed && !tileGood s1 tile }, s1)

/-! ## The protection map (R511–R513) -/

/-- The permission mask that governs an address (R512): the lowest valid region that holds its page. -/
def permOf (s : State) (a : Nat) : Nat :=
  let pg := a / 4096
  match (List.range 64).find? (fun r => flag s (Reg.PRT_RPERM r) F.PRT_RPERM_valid &&
      decide (fld s (Reg.PRT_RBASE r) F.PRT_RBASE_page ≤ pg) && decide (pg ≤ fld s (Reg.PRT_RLIM r) F.PRT_RLIM_page)) with
  | some r => fld s (Reg.PRT_RPERM r) F.PRT_RPERM_perm
  | none => fld s Reg.PRT_DEFAULT F.PRT_DEFAULT_perm

/-- An access by a class is allowed (R512); a lock command, which is a write of GKO_LOCK, needs both permissions. -/
def allowed (s : State) (cls a : Nat) (r w : Bool) : Bool :=
  let p := permOf s a
  let lockCmd := w && decide (0xF000070000 ≤ a) && decide (a < 0xF000078000)
  (!(r || lockCmd) || p.testBit (2 * cls)) && (!w || p.testBit (2 * cls + 1))

/-- A denial is counted, recorded and raised (R513). -/
def denied (agent cls a : Nat) (w : Bool) (s : State) : State :=
  let s1 := bump s Reg.PRT_CNT F.PRT_CNT_denied
  let s2 := wr s1 Reg.PRT_VIOL (toW (2 ^ 47 + b2n w * 2 ^ 45 + cls * 2 ^ 24 + agent % 2 ^ 24))
  raise (wr s2 Reg.PRT_VIOLA (toW a)) 1793

/-- A BW write refused (R510). -/
def bwRefused (agent cls : Nat) (s : State) : State :=
  let s1 := bump s Reg.PRT_CNT F.PRT_CNT_bw
  raise (wr s1 Reg.PRT_VIOL (toW (2 ^ 47 + 2 ^ 46 + 2 ^ 45 + cls * 2 ^ 24 + agent % 2 ^ 24))) 1794

/-- Protection class of an agent of this device, and of a remote one (R511); a thread's class is its privilege. -/
def classOf (s : State) (agent : Nat) : Nat :=
  if agentDev agent ≠ devId s then 6
  else
    let l := agentLoc agent
    if l < 0xC00 then privOf (th s l)
    else if l = svcAgent then 3
    else if l = bmcAgent then 5
    else if 0x1000 ≤ l ∧ l < 0x1400 then 4 else 7

/-- BOOT_SEAL (R510). -/
def isSealed (s : State) : Bool := flag s Reg.PRT_SEAL F.PRT_SEAL_seal

end Sys2Proof.Machine
end

