-- ==== Sys2Proof/Machine/ObxOps.lean ====
section
/-! DEFINITION. Obrex Link's operations (R383–R415): flits and the retry buffer, credits, transactions and their routes,
requests and responses, notices, membership and domain time. -/

namespace Sys2Proof.Machine

/-! ## Links -/

def olink (s : State) (l : Nat) : ObxLink := Tab.get ObxLink.reset s.obx.links l
def setOlink (s : State) (l : Nat) (x : ObxLink) : State :=
  { s with obx := { s.obx with links := Tab.set ObxLink.reset s.obx.links l x } }
def updOlink (s : State) (l : Nat) (f : ObxLink → ObxLink) : State := setOlink s l (f (olink s l))

def linkAssigned (s : State) (l : Nat) : Bool := (Tab.find? s.img.olinks l).isSome

def obxJoined (s : State) : Bool := flag s Reg.OBX_ID F.OBX_ID_joined

def lcnt (s : State) (l k n : Nat) : State :=
  if k < 2 then bumpWrapBy s (Reg.OBX_LCNT l k) F.OBX_LCNT_count n else bumpBy s (Reg.OBX_LCNT l k) F.OBX_LCNT_count n

/-! ## Domain time (R414, R415) -/

/-- Slew done since the time was last set: at the part's rate, at most 200 ppm, up to the whole. -/
def slewDone (s : State) : Int :=
  let el := (s.now - s.clkAt) * 5 / 8
  let m := min s.obx.slew.natAbs (el * min 200 Config.slewPpm / 1000000)
  if s.obx.slew < 0 then -(m : Int) else m

/-- Domain time in ns: 5/8 ns per NCLK from the last setting, with the slew. -/
def domNow (s : State) : Nat := ((s.clkBase + (s.now - s.clkAt) * 5 / 8 : Int) + slewDone s).toNat % 2 ^ 64

/-- Sets domain time. -/
def setDom (s : State) (v : Nat) (slew : Int) : State :=
  { s with clkBase := v, clkAt := s.now, obx := { s.obx with slew := slew } }

/-- The parent link (R414): LINK_UP or ACTIVE with the smallest hops below 127, the lowest number among equals. -/
def timeParent (s : State) : Option Nat :=
  if flag s Reg.OBX_TIME_CTL F.OBX_TIME_CTL_master then none
  else
    ((List.range 8).filter (fun l => (linkState s l == 3 || linkState s l == 4) && decide ((olink s l).peerHops < 127))).foldl
      (fun b l => match b with
        | none => some l
        | some k => if (olink s l).peerHops < (olink s k).peerHops then some l else some k) none

/-- Hops this device advertises. -/
def myHops (s : State) : Nat :=
  if flag s Reg.OBX_TIME_CTL F.OBX_TIME_CTL_master then 0
  else
    match timeParent s with
    | some l => min 127 ((olink s l).peerHops + 1)
    | none => 127

/-- Keeps OBX_TIME_STAT.hops and parent. -/
def timeStat (s : State) : State :=
  setFld (setFld s Reg.OBX_TIME_STAT F.OBX_TIME_STAT_hops (myHops s)) Reg.OBX_TIME_STAT F.OBX_TIME_STAT_parent
    ((timeParent s).getD 15)

/-! ## Sending flits (R386–R390) -/

/-- Virtual channel whose crcum the next control slot carries, unless back-pressure withholds its credits (R171, R392): one
freed since it was last told, else those told before in turn, for the slot that told them may have been lost. -/
def crNext (s : State) (l : Nat) : Option Nat :=
  let x := olink s l
  let ok := (List.range 9).filter (fun v => Tab.get 0 x.freed v != 0 &&
    !(decide (v < 8) && s.spawn.asserted.contains (unitObx l v)))
  (ok.find? (fun v => Tab.get 0 x.freed v != Tab.get 0 x.told v)) <|> ok[x.turn % max 1 ok.length]?

/-- The 256 bytes of a flit (R386): `stamp` is the time stamp's identifier when tsv is set. -/
def flitBytes (s : State) (l : Nat) (f : Flit) (cr : Option Nat) (stamp : Option Nat) : List Byte :=
  let x := olink s l
  let t := domNow s
  let echo := x.lastTs.filter (fun e => stamp.isSome && decide (t - e.2 ≤ 65535))
  let c0 := leBytes 2 (f.ftype * 4096 + f.seq) ++
    leBytes 2 (b2n stamp.isSome * 2 ^ 15 + b2n f.sop * 2 ^ 14 + b2n f.eop * 2 ^ 13 + b2n f.stomp * 2 ^ 12 +
      (x.expect + 4095) % 4096) ++
    leBytes 1 (f.vc * 16) ++ leBytes 1 f.payload.length ++
    (match cr with
     | some v => leBytes 2 (v * 4096 + Tab.get 0 x.freed v % 4096)
     | none => leBytes 2 (15 * 4096)) ++
    leBytes 8 (if stamp.isSome then t else 0) ++ leBytes 8 f.notice ++
    (match echo with
     | some e => leBytes 2 (stamp.getD 0 * 4096 + e.1 * 256 + 128 + myHops s) ++ leBytes 2 (t - e.2)
     | none => leBytes 2 (stamp.getD 0 * 4096 + myHops s) ++ leBytes 2 0)
  let pay := f.payload ++ List.replicate (224 - f.payload.length) 0
  c0 ++ leBytes 4 (crc32c 0xFFFFFFFF (c0 ++ pay)) ++ pay

/-- Puts a flit on the wire; an INIT flit's payload has no layout in R385 and leaves as its fields. -/
def sendFlit (l : Nat) (f : Flit) (stamp : Option Nat) (s : State) : State :=
  let cr := crNext s l
  let o := if f.ftype = 4 then
      Output.obxInit l (fld s Reg.OBX_ID F.OBX_ID_devid) (fld s Reg.OBX_TAG F.OBX_TAG_tag) (obxJoined s) l
        (flag s (Reg.OBX_LSTAT l) F.OBX_LSTAT_half)
    else .flit l (flitBytes s l f cr stamp)
  let s1 := updOlink (lcnt (emit s o) l 0 1) l (fun x => { x with
    turn := (x.turn + 1) % 9, since := if f.notice = 0 then min 3 (x.since + 1) else 0 })
  match cr with
  | some v => if f.ftype = 4 then s1 else updOlink s1 l (fun x => { x with told := Tab.set 0 x.told v (Tab.get 0 x.freed v) })
  | none => s1

def idleFlit : Flit :=
  { seq := 0, ftype := 0, sop := false, eop := false, stomp := false, vc := 15, payload := [], notice := 0 }

/-- A sequenced flit takes the next sequence and a retry-buffer entry (R388). -/
def sendSeq (l : Nat) (f : Flit) (s : State) : State :=
  let x := olink s l
  let f1 := { f with seq := x.txSeq }
  sendFlit l f1 none (setOlink s l { x with txSeq := (x.txSeq + 1) % 4096, retry := x.retry ++ [f1] })

/-- Sends what a link's retry buffer has room for (R388): notices up to 512 entries, data up to 496. At most every fourth
flit carries a notice (R404); IDLE flits, which are not modelled, lie between NOTICE flits. -/
def pumpLink : Nat → Nat → State → State
  | 0, _, s => s
  | n + 1, l, s =>
    let x := olink s l
    if linkState s l ≠ 3 ∧ linkState s l ≠ 4 then s
    else
      match x.txq, x.notices with
      | f :: r, ns =>
        if x.retry.length < 496 then
          match ns, decide (x.since < 3) with
          | nt :: ns', false =>
            pumpLink n l (lcnt (sendSeq l { f with notice := nt } (setOlink s l { x with txq := r, notices := ns' })) l 5 1)
          | _, _ => pumpLink n l (sendSeq l f (setOlink s l { x with txq := r }))
        else
          match ns with
          | nt :: ns' =>
            if x.retry.length < 512 then
              pumpLink n l (lcnt (sendSeq l { idleFlit with ftype := 2, notice := nt }
                (setOlink s l { x with notices := ns' })) l 5 1)
            else s
          | [] => s
      | [], nt :: ns' =>
        if x.retry.length < 512 then
          pumpLink n l (lcnt (sendSeq l { idleFlit with ftype := 2, notice := nt }
            (setOlink s l { x with notices := ns' })) l 5 1)
        else s
      | [], [] => s

def pumpAll (s : State) : State := forEach (List.range 8) (fun l s => pumpLink 600 l s) s

/-! ## Transactions (R394–R402) -/

/-- Bytes of a transaction: the 16-byte header of R395 and its data; one in transit as it came. -/
def txBytes (m : ObxMsg) : List Byte :=
  if m.transit.isSome then m.data
  else leBytes 1 m.typ ++ leBytes 1 m.size ++ leBytes 2 m.dst ++ leBytes 3 m.agent ++ leBytes 1 0 ++ leBytes 2 m.tag ++
    leBytes 6 m.arg ++ m.data

def txFlits (m : ObxMsg) : Nat := ((txBytes m).length + 223) / 224

/-- Lowest-numbered virtual channel of a class (R394). -/
def vcOfClass (s : State) (c : Nat) : Option Nat := (List.range 8).find? (fun v => vcClass s v == c)

/-- Credits a sender holds for a virtual channel (R392). -/
def vcAvail (s : State) (l v : Nat) : Nat :=
  let x := olink s l
  (Tab.get 0 x.credit v + Tab.get 0 x.crcum v + 4096 - Tab.get 0 x.sent v % 4096) % 4096

/-- The link may start a transaction of `n` flits on a virtual channel now. -/
def linkOpen (s : State) (l v n : Nat) : Bool :=
  linkState s l == 4 && (olink s l).txq.isEmpty && decide ((olink s l).retry.length < 496) && decide (n ≤ vcAvail s l v)

/-- The link a transaction starts on (R400), if it may start now. -/
def pickLink (s : State) (m : ObxMsg) : Option Nat :=
  let n := txFlits m
  let ok := fun l => linkOpen s l m.vc n
  match m.link with
  | some l => if ok l then some l else none
  | none =>
    let cs := routeCands s m.dst
    if decide (m.vc < 8) && flag s (Reg.OBX_VCCFG m.vc) F.OBX_VCCFG_ordered then cs.head?.filter ok
    else
      (cs.foldl (fun b l => match b with
        | none => some l
        | some k => if vcAvail s k m.vc < vcAvail s l m.vc then some l else some k) none).filter ok

/-- Fields of a MUTE notice (R403). -/
def nKind (n : Nat) : Nat := bitsN n 63 60
def nHops (n : Nat) : Nat := bitsN n 59 56
def nOrigin (n : Nat) : Nat := bitsN n 55 46
def nTarget (n : Nat) : Nat := bitsN n 45 36
def nScope (n : Nat) : Nat := bitsN n 35 35
def nAction (n : Nat) : Nat := bitsN n 34 34
def nVcmask (n : Nat) : Nat := bitsN n 33 26
def nLife (n : Nat) : Nat := bitsN n 25 16
def nId (n : Nat) : Nat := bitsN n 15 0

/-- Mutes in force, each from the 16th NCLK after its acceptance (R405): those of the table, and those that found it full,
as scope DOMAIN (R408). -/
def mutesNow (s : State) : List Nat :=
  let on := fun n => decide (Tab.get 0 s.obx.muteFrom n ≤ s.now)
  (s.obx.mutes.map (fun e => e.2)).filter on ++ (s.obx.overflow.filter on).map (fun n => putN n 35 35 1)

/-- The mutes that stop a transaction this device originates (R405). -/
def mutesOn (s : State) (vc dst : Nat) : List Nat :=
  (mutesNow s).filter (fun n => decide (vc < 8) && (nVcmask n).testBit vc &&
    (nScope n == 1 || nTarget n == dst || nTarget n == devId s))

def muted (s : State) (vc dst : Nat) : Bool := !(mutesOn s vc dst).isEmpty
def muteDrops (s : State) (vc dst : Nat) : Bool := (mutesOn s vc dst).any (fun n => nAction n == 1)

/-- Splits a transaction into flits of up to 224 payload bytes. -/
def toFlits (vc : Nat) (stomp : Bool) : Bool → List (List Byte) → List Flit
  | _, [] => []
  | first, [p] => [{ idleFlit with ftype := 1, sop := first, eop := true, stomp := stomp, vc := vc, payload := p }]
  | first, p :: r => { idleFlit with ftype := 1, sop := first, vc := vc, payload := p } :: toFlits vc stomp false r

/-- Requests outstanding that have not expired (R398). -/
def reqsOpen (s : State) : Nat := (s.obx.reqs.filter (fun e => !e.2.late)).length

/-- A free tag, any of them. -/
def freeTag (s : State) : Option Nat × State :=
  if 4096 ≤ reqsOpen s then (none, s)
  else
    let (w, s1) := draw s
    let busy := fun k => match Tab.find? s.obx.reqs k with
      | some r => !r.late
      | none => false
    ((findFrom (fun i => !busy (i % 4096)) 4097 (w.toNat % 4096)).map (· % 4096), s1)

/-- Starts a transaction on a link: its flits take credits, and the first is sent. -/
def startTx (l : Nat) (m : ObxMsg) (s : State) : State :=
  let fl := toFlits m.vc m.stomp true (pieces224 (txBytes m))
  let s1 := updOlink s l (fun x => { x with txq := x.txq ++ fl, sent := Tab.upd 0 x.sent m.vc (fun k => (k + fl.length) % 4096) })
  let s2 := match m.transit with
    | some (k, v, n) => updOlink s1 k (fun x => { x with freed := Tab.upd 0 x.freed v (fun q => (q + n) % 4096) })
    | none => s1
  pumpLink 600 l s2
where
  pieces224 (b : List Byte) : List (List Byte) :=
    (List.range ((b.length + 223) / 224)).map (fun i => (b.drop (224 * i)).take 224)

/-- A request that completes with ERROR: of a thread, or the gate read of a domain set (R432). -/
def failReq (op : Option Nat) (agent : Nat) (s : State) : State :=
  match op with
  | none =>
    if agentLoc agent = 0x20F1 ∧ s.epc.phase = 1 ∧ s.epc.gate = 1 then { s with epc := { s.epc with gate := 3 } } else s
  | some id =>
    match opOf s id with
    | some o => complete o 3 0 s
    | none => s

/-- Offers one waiting transaction: `true` when it leaves the queue. An own request completes with ERROR under a DROP mute
(R406), to a device that has left (R411), or with no route (R397, R402). -/
def offerTx (m : ObxMsg) (s : State) : Bool × State :=
  let own := m.transit.isNone
  if own && m.wantTag && (muteDrops s m.vc m.dst || s.gecko.left.contains m.dst ||
      (m.link.isNone && (routeCands s m.dst).isEmpty)) then (true, failReq m.op m.agent s)
  else if own && muted s m.vc m.dst then (false, s)
  else
    match pickLink s m with
    | none => (false, s)
    | some l =>
      if m.wantTag then
        match freeTag s with
        | (none, s1) => (false, s1)
        | (some k, s1) =>
          let r : ObxReq := { op := m.op, agent := m.agent, dst := m.dst, late := false, note := m.note }
          (true, startTx l { m with tag := k } { s1 with obx := { s1.obx with reqs := Tab.put s1.obx.reqs k r } })
      else (true, startTx l m s)

/-- Offers the waiting transactions in order; one that waits holds back later ones of its virtual channel and
destination. -/
def offerAll : List ObxMsg → List ObxMsg → State → State
  | [], kept, s => { s with obx := { s.obx with tx := kept.reverse ++ s.obx.tx } }
  | m :: r, kept, s =>
    if kept.any (fun k => k.vc == m.vc && k.dst == m.dst) then offerAll r (m :: kept) s
    else
      match offerTx m s with
      | (true, s1) => offerAll r kept s1
      | (false, s1) => offerAll r (m :: kept) s1

/-- Starts every waiting transaction that may start, and sends what the links have room for. -/
def obxPump (s : State) : State :=
  pumpAll (offerAll s.obx.tx [] { s with obx := { s.obx with tx := [] } })

/-! ## Remote accesses of threads (R397) -/

/-- A device is a member: its bit in OBX_MEMBER (R409). -/
def isMember (s : State) (d : Nat) : Bool := (rd s (Reg.OBX_MEMBER (d / 48))).toNat.testBit (d % 48)

def setMember (s : State) (d : Nat) (b : Bool) : State :=
  let a := Reg.OBX_MEMBER (d / 48)
  wr s a (toW (putN (rd s a).toNat (d % 48) (d % 48) (b2n b)))

/-- A remote access completes at once with ERROR (R397): own window, not a member, or no candidate link. -/
def remoteBad (s : State) (d : Nat) : Bool := d == devId s || !isMember s d || (routeCands s d).isEmpty

/-- Queues the request of operation `id` of a thread: an RD, WR or ATOM to device `d` at a window offset. -/
def remoteSend (s : State) (t id d typ size off : Nat) (data : List Byte) : State :=
  match vcOfClass s 1 with
  | none => s
  | some v =>
    sendObx s { vc := v, typ := typ, size := size, dst := d, agent := agentId s t, tag := 0, arg := off, data := data,
                op := some id, wantTag := true, link := none, stomp := false, transit := none }

/-! ## Answers (R395, R397, R399) -/

/-- Queues the RESP of a received request. -/
def respond (s : State) (vc dst agent tag status : Nat) (data : List Byte) : State :=
  sendObx s { vc := vc, typ := opResp, size := 0, dst := dst, agent := agent, tag := tag, arg := status, data := data,
              op := none, wantTag := false, link := none, stomp := false, transit := none }

/-- Header fields of a received transaction. -/
def rxNat (r : ObxRx) (o n : Nat) : Nat := leNat ((r.bytes.drop o).take n)
def rxType (r : ObxRx) : Nat := rxNat r 0 1
def rxSize (r : ObxRx) : Nat := rxNat r 1 1
def rxDst (r : ObxRx) : Nat := rxNat r 2 2 % 1024
def rxAgent (r : ObxRx) : Nat := rxNat r 4 3
def rxTag (r : ObxRx) : Nat := rxNat r 8 2
def rxArg (r : ObxRx) : Nat := rxNat r 10 6
def rxData (r : ObxRx) : List Byte := r.bytes.drop 16

/-- Frees the receive buffer of a transaction (R392). -/
def freeRx (r : ObxRx) (s : State) : State :=
  updOlink s r.link (fun x => { x with freed := Tab.upd 0 x.freed r.vc (fun k => (k + r.flits) % 4096) })

/-- The oldest received transaction of a type on a link, taken from the queue with its buffer freed. One from a device
that has left is discarded and counted (R411). -/
def takeRx (s : State) (l typ : Nat) : Option (ObxRx × State) :=
  match s.obx.rx.find? (fun r => r.link == l && rxType r == typ) with
  | none => none
  | some r => some (r, freeRx r { s with obx := { s.obx with rx := s.obx.rx.erase r } })

def fromLeft (s : State) (r : ObxRx) : Bool := s.gecko.left.contains (agentDev (rxAgent r)) && agentDev (rxAgent r) != devId s

def cntNonmember (s : State) : State := bump s Reg.OBX_CNT1 F.OBX_CNT1_nonmember

/-- Target address of a window offset (R397). -/
def windowTarget (s : State) (o : Nat) : Option Nat :=
  if o < 0x1800000000 then some (0x10000000000 + o)
  else if o < 0x1C00000000 then
    let a := fld s Reg.OBX_EXPWIN F.OBX_EXPWIN_base * 2 ^ 34 + (o - 0x1800000000)
    if 0x100000000000 ≤ a ∧ a < 0x140000000000 then some a else none
  else none

/-- Class of a remote requester is 6 (R511). A remote access of `n` bytes is let through, or answered ERROR. -/
def remoteTarget (s : State) (r : ObxRx) (n : Nat) (rd_ wr_ : Bool) : Option Nat × State :=
  match windowTarget s (bitsN (rxArg r) 36 0) with
  | none => (none, s)
  | some a =>
    if !populated s a || !populated s (a + n - 1) then (none, s)
    else if !allowed s 6 a rd_ wr_ then (none, denied (rxAgent r) 6 a wr_ s)
    else (some a, s)

/-! ## Requests outstanding (R398) -/

def dropReq (s : State) (k : Nat) : State := { s with obx := { s.obx with reqs := Tab.del k s.obx.reqs } }

/-- Value a thread's remote operation returns. -/
def remoteValue (o : AsyncOp) (data : List Byte) : Word :=
  match o.kind with
  | .remote n sg => if n = 0 then 0 else extLoad sg n (leNat (data.take n))
  | _ => 0

/-- An answer to a fabric engine (R432, R445): the gate read's word or failure while it is awaited, else LATE; the marker
that ends a repeated copy puts the active device IN_SYNC. -/
def engineResp (r : ObxReq) (status : Nat) (data : List Byte) (s : State) : State :=
  if agentLoc r.agent = 0x20F1 then
    if s.epc.phase = 1 ∧ s.epc.gate = 1 then
      { s with epc := { s.epc with gate := if status = 0 then 2 else 3, gateWord := leNat (data.take 6) } }
    else bump s Reg.OBX_CNT0 F.OBX_CNT0_late
  else if r.note = 1 ∧ status = 0 ∧ dstRole s = 1 ∧ dstSync s = 1 then raise (setSync s 2) 1555
  else s

/-- A RESP for tag `k` (R397, R398, R85): status 0 OK, 3 ERROR, 4 POISON. -/
def takeResp (s : State) (k status : Nat) (data : List Byte) : State :=
  match Tab.find? s.obx.reqs k with
  | none => bump s Reg.OBX_CNT0 F.OBX_CNT0_late
  | some r =>
    let s1 := dropReq s k
    match r.op with
    | none => if r.late then bump s1 Reg.OBX_CNT0 F.OBX_CNT0_late else engineResp r status data s1
    | some id =>
      match opOf s1 id with
      | none => bump s1 Reg.OBX_CNT0 F.OBX_CNT0_late
      | some o =>
        let s2 := if o.late || r.late then bump s1 Reg.OBX_CNT0 F.OBX_CNT0_late else s1
        complete o status (remoteValue o data) s2

/-! ## The mute table (R405, R407, R408) -/

/-- Keeps OBX_MUTESTAT. -/
def muteStat (s : State) : State :=
  let n := s.obx.mutes.length
  let s1 := setFld s Reg.OBX_MUTESTAT F.OBX_MUTESTAT_used n
  setFld (markHigh s1 Reg.OBX_MUTESTAT F.OBX_MUTESTAT_hwm n) Reg.OBX_MUTESTAT F.OBX_MUTESTAT_overflow
    (b2n (!s1.obx.overflow.isEmpty))

def muteFree (s : State) : Option Nat := (List.range 64).find? (fun k => (Tab.find? s.obx.mutes k).isNone)

/-- A MUTE takes a free entry, the lowest; with none it is applied as DOMAIN until one frees (R405, R408). -/
def muteEnter (n : Nat) (s : State) : State :=
  match muteFree s with
  | some k =>
    let s1 := wr { s with obx := { s.obx with mutes := Tab.put s.obx.mutes k n } } (Reg.OBX_MUTE k) (toW (bitsN n 55 8))
    raise (muteStat s1) 1420
  | none => raise (muteStat { s with obx := { s.obx with overflow := s.obx.overflow ++ [n] } }) 1421

/-- Frees a mute entry; the oldest overflowed mute takes it. -/
def muteEnd (k : Nat) (s : State) : State :=
  let s1 := wr { s with obx := { s.obx with mutes := Tab.del k s.obx.mutes } } (Reg.OBX_MUTE k) 0
  match s1.obx.overflow with
  | n :: r => muteEnter n { s1 with obx := { s1.obx with overflow := r } }
  | [] => muteStat s1

/-! ## Link states (R384, R412, R413) -/

/-- Every link other than `l` is out of ACTIVE. -/
def noneActive (s : State) : Bool := (List.range 8).all (fun l => linkState s l != 4)

/-- R411 for device `x`: a device has left. -/
def deviceLeaves (x : Nat) (s : State) : State :=
  let s1 := raise (setMember s x false) 1418
  let s2 := holderReset (fun a => agentDev a == x) s1
  let s2 := if x = devId s then forEach (List.range 3072) (fun t s => updTh s t (fun y => { y with gen := y.gen + 1 })) s2 else s2
  let s3 := { s2 with gecko := { s2.gecko with left := if s2.gecko.left.contains x then s2.gecko.left
                                                       else s2.gecko.left ++ [x] } }
  let gone := s3.obx.reqs.filter (fun e => e.2.dst == x && !e.2.late)
  let s4 := forEach gone (fun e s =>
    let s1 := { s with obx := { s.obx with reqs := Tab.put s.obx.reqs e.1 { e.2 with late := true, op := none } } }
    failReq e.2.op e.2.agent s1) s3
  let s5 := { s4 with obx := { s4.obx with overflow := s4.obx.overflow.filter (fun n => nOrigin n != x) } }
  muteStat (forEach (s5.obx.mutes.filter (fun e => nOrigin e.2 == x)) (fun e s => muteEnd e.1 s) s5)

/-- The bytes of OBX_MEMBER: 1,024 bits. -/
def memberBytes (s : State) : List Byte :=
  leBytes 128 ((List.range 22).foldl (fun n k => n + (rd s (Reg.OBX_MEMBER k)).toNat % (if k = 21 then 2 ^ 16 else 2 ^ 48) * 2 ^ (48 * k)) 0)

/-- The MEMBER transaction a link sends as it enters ACTIVE (R413). -/
def sendMember (s : State) (l : Nat) : State :=
  sendObx s { vc := vcCtl, typ := opMember, size := 0, dst := fld s (Reg.OBX_LSTAT l) F.OBX_LSTAT_peer,
              agent := agentId s (0x2000 + (Config.fabricEngine 2).toNat), tag := 0, arg := 0, data := memberBytes s,
              op := none, wantTag := false, link := some l, stomp := false, transit := none }

/-- A link that leaves ACTIVE with its state kept: a data transaction partly sent, or partly received, is lost (R402, R391);
CTL goes on. -/
def linkQuiet (l : Nat) (s : State) : State :=
  let x := olink s l
  let part := x.rx.filter (fun e => decide (e.1 < 8))
  let unsent := x.txq.filter (fun f => decide (f.vc < 8))
  setOlink (bumpBy s Reg.OBX_CNT1 F.OBX_CNT1_partial part.length) l { x with
    rx := x.rx.filter (fun e => !decide (e.1 < 8)), txq := x.txq.filter (fun f => !decide (f.vc < 8)),
    freed := part.foldl (fun t e => Tab.upd 0 t e.1 (fun k => (k + e.2.1) % 4096)) x.freed,
    sent := unsent.foldl (fun t f => Tab.upd 0 t f.vc (fun k => (k + 4095) % 4096)) x.sent }

/-- A link changes state (R384): entry into and exit from ACTIVE raise its source; the last exit isolates the device. -/
def setLinkState (l st : Nat) (s : State) : State :=
  let was := linkState s l
  let s1 := setFld s (Reg.OBX_LSTAT l) F.OBX_LSTAT_state st
  if was = st then s1
  else if st = 4 then timeStat (sendMember (raise s1 (1408 + l)) l)
  else if was = 4 then
    let s2 := linkQuiet l (raise s1 (1408 + l))
    let s3 :=
      if noneActive s2 then
        let others := (List.range 1024).filter (fun d => isMember s2 d && d != devId s2)
        let s3 := forEach others deviceLeaves s2
        raise (setFld s3 Reg.OBX_ID F.OBX_ID_isolated 1) 1425
      else s2
    timeStat s3
  else timeStat s1

/-- What a link holds is lost, its receive buffer included (R384, R391): each transaction left incomplete at the receiver is
counted. -/
def linkClear (l : Nat) (s : State) : State :=
  let x := olink s l
  let n := x.rx.length
  let s1 := bumpBy s Reg.OBX_CNT1 F.OBX_CNT1_partial n
  setOlink { s1 with obx := { s1.obx with
    rx := s1.obx.rx.filter (fun r => r.link != l),
    tx := s1.obx.tx.filter (fun m => !m.transit.any (fun t => t.1 == l)) } } l
    { ObxLink.reset with peerHops := 127 }

/-- HALF_RESET of a link (R384, R391) with reason 5 RETRY or 6 LOSS. -/
def linkHalfReset (l reason : Nat) (s : State) : State :=
  let s1 := setFld (setFld s (Reg.OBX_LSTAT l) F.OBX_LSTAT_half_reset 1) (Reg.OBX_LSTAT l) F.OBX_LSTAT_reason reason
  setLinkState l 5 (halfFlush (linkClear l s1))

/-- LINK_UP and ACTIVE follow the two joined flags and the tags (R384). -/
def settleLink (l : Nat) (s : State) : State :=
  let x := olink s l
  let both := obxJoined s && x.peerJoined && x.peerTag == fld s Reg.OBX_TAG F.OBX_TAG_tag
  if linkState s l = 3 ∧ both then setLinkState l 4 s
  else if linkState s l = 4 ∧ !(obxJoined s && x.peerJoined) then setLinkState l 3 s
  else s

def settleLinks (s : State) : State := forEach (List.range 8) settleLink s

/-! ## Notices (R403–R408) -/

/-- Links a notice leaves on: LINK_UP or ACTIVE, but not the one it arrived on. -/
def floodLinks (s : State) (from_ : Option Nat) : List Nat :=
  (List.range 8).filter (fun l => (linkState s l == 3 || linkState s l == 4) && from_ != some l)

def noticesHeld (s : State) : Nat := (List.range 8).foldl (fun n l => n + (olink s l).notices.length) 0

/-- Queues a notice on a link; one that finds the device full is lost there and counted (R404). A link's notices beyond its
queue of 64 wait in the device. -/
def queueNotice (n l : Nat) (s : State) : State :=
  if 1024 ≤ noticesHeld s then
    raise (bump s Reg.OBX_CNT1 F.OBX_CNT1_nlost) 1422
  else updOlink s l (fun x => { x with notices := x.notices ++ [n] })

def flood (n : Nat) (from_ : Option Nat) (s : State) : State := forEach (floodLinks s from_) (fun l s => queueNotice n l s) s

/-- Records an (origin, id) pair in the recent set of 1,024 (R404). -/
def recordPair (o i : Nat) (s : State) : State :=
  let l := s.obx.recent ++ [(o, i)]
  { s with obx := { s.obx with recent := if 1024 < l.length then l.drop 1 else l } }

/-- UNMUTE (R407): ends its Mute, or is recorded so that the Mute is discarded on arrival. -/
def unmute (n : Nat) (s : State) : State :=
  let o := nTarget n
  let i := bitsN n 35 20
  match List.find? (fun e => nOrigin e.2 == o && nId e.2 == i) s.obx.mutes with
  | some e => muteEnd e.1 s
  | none =>
    if s.obx.overflow.any (fun m => nOrigin m == o && nId m == i) then
      muteStat { s with obx := { s.obx with overflow := s.obx.overflow.filter (fun m => !(nOrigin m == o && nId m == i)) } }
    else recordPair o i s

/-- A MUTE is accepted: it is in force from the 16th NCLK on (R405). -/
def muteAccept (n : Nat) (s : State) : State :=
  let held := s.obx.mutes.map (fun e => e.2) ++ s.obx.overflow
  muteEnter n { s with obx := { s.obx with
    muteFrom := Tab.set 0 (s.obx.muteFrom.filter (fun e => held.contains e.1)) n (s.now + 16) } }

/-- Applies a notice at this device (R405–R411). -/
def applyNotice (n : Nat) (s : State) : State :=
  match nKind n with
  | 1 => muteAccept n s
  | 2 => unmute n s
  | 3 => deviceLeaves (nTarget n) s
  | 4 =>
    let s1 := raise (setMember s (nTarget n) true) 1419
    { s1 with gecko := { s1.gecko with left := s1.gecko.left.filter (· != nTarget n) } }
  | _ => s

/-- An accepted notice (R404): discarded when recent, else recorded, applied and flooded. -/
def takeNotice (n l : Nat) (s : State) : State :=
  if s.obx.recent.contains (nOrigin n, nId n) then s
  else
    let s1 := applyNotice n (recordPair (nOrigin n) (nId n) s)
    if 1 < nHops n then flood (putN n 59 56 (nHops n - 1)) (some l) s1 else s1

/-- Originates a notice (R404) from its bits [63:16], origin and hops replaced. -/
def originate (w : Nat) (s : State) : State :=
  let id := (s.obx.nextId + 1) % 65536
  let hops := max 1 (fld s Reg.OBX_CTL F.OBX_CTL_max_hops)
  let n := putN (putN (w * 65536 + s.obx.nextId) 59 56 hops) 55 46 (fld s Reg.OBX_ID F.OBX_ID_devid)
  let s1 := setFld { s with obx := { s.obx with nextId := id } } Reg.OBX_NOTICE_LAST F.OBX_NOTICE_LAST_id (nId n)
  flood n none (applyNotice n (recordPair (nOrigin n) (nId n) s1))

/-! ## Receiving flits (R386–R393) -/

def fNat (b : List Byte) (o n : Nat) : Nat := leNat ((b.drop o).take n)

/-- The crc of a 256-byte flit is right and its type is defined. -/
def flitGood (b : List Byte) : Bool :=
  b.length == 256 && fNat b 28 4 == crc32c 0xFFFFFFFF (b.take 28 ++ b.drop 32) && decide (fNat b 1 1 / 16 ≤ 4)

/-- A NAK flit carrying the expected sequence (R389). -/
def sendNak (l : Nat) (s : State) : State :=
  let s1 := sendFlit l { idleFlit with ftype := 3, seq := (olink s l).expect } none s
  updOlink (lcnt s1 l 3 1) l (fun x => { x with nak := true })

/-- Sequences from the oldest unacknowledged flit that a cumulative ack covers. -/
def ackCount (x : ObxLink) (ack : Nat) : Nat :=
  match x.retry with
  | [] => 0
  | f :: _ =>
    let k := (ack + 4096 - f.seq) % 4096 + 1
    if k ≤ x.retry.length then k else 0

/-- Control fields of a flit whose crc passes (R387): ack, credits and time. -/
def flitControl (l : Nat) (b : List Byte) (s : State) : State :=
  let w := fNat b 2 2
  let cr := fNat b 6 2
  let tm := fNat b 24 2
  let x := olink s l
  let k := ackCount x (w % 4096)
  let x1 := { x with retry := x.retry.drop k, replays := if 0 < k then 0 else x.replays, peerHops := tm % 128 }
  let x2 := if cr / 4096 = 15 then x1 else { x1 with crcum := Tab.set 0 x1.crcum (cr / 4096) (cr % 4096) }
  let x3 :=
    if w.testBit 15 then
      { x2 with tsIn := some { t3 := fNat b 8 8, tsid := tm / 4096,
                               echo := if tm.testBit 7 then some (tm / 256 % 16, fNat b 26 2) else none, t4 := domNow s },
                lastTs := some (tm / 4096, domNow s) }
    else x2
  timeStat (setOlink s l x3)

/-- Resends unacknowledged flits from sequence `e` on (R390). -/
def resendFrom (l e : Nat) (s : State) : State :=
  let fs := (olink s l).retry
  let keep := fs.dropWhile (fun f => f.seq != e)
  forEach keep (fun f s => sendFlit l f none s) s

/-- One replay (R390, R391): counted; after 8 in a row with no advance of ack the link goes to HALF_RESET. -/
def replay (l e : Nat) (s : State) : State :=
  if !(olink s l).retry.any (fun f => f.seq == e) then s
  else
  let s1 := updOlink (lcnt s l 4 1) l (fun x => { x with replays := x.replays + 1 })
  if 8 ≤ (olink s1 l).replays then linkHalfReset l 5 s1 else resendFrom l e s1

/-- A transaction has come whole: for this device it waits for its row, for another it is forwarded (R400), unless it is from
a device that has left (R411). -/
def rxWhole (l vc flits at_ : Nat) (stomp : Bool) (bytes : List Byte) (s : State) : State :=
  let r : ObxRx := { link := l, vc := vc, flits := flits, stomp := stomp, at_ := at_, bytes := bytes }
  if rxType r = opMember ∨ rxDst r = devId s then { s with obx := { s.obx with rx := s.obx.rx ++ [r] } }
  else if fromLeft s r && rxType r != opResp then cntNonmember (freeRx r s)
  else
    sendObx s { vc := vc, typ := rxType r, size := 0, dst := rxDst r, agent := rxAgent r, tag := 0, arg := 0,
                data := bytes, op := none, wantTag := false, link := none, stomp := stomp, transit := some (l, vc, flits) }

/-- Payload of an accepted PAYLOAD flit. -/
def rxPayload (l : Nat) (b : List Byte) (s : State) : State :=
  let w := fNat b 2 2
  let vc := fNat b 4 1 / 16
  let pay := (b.drop 32).take (fNat b 5 1)
  let x := olink s l
  let (n, at_, old) := if w.testBit 14 then (0, domNow s, []) else Tab.get (0, 0, []) x.rx vc
  if w.testBit 13 then
    rxWhole l vc (n + 1) at_ (w.testBit 12) (old ++ pay) (setOlink s l { x with rx := Tab.set (0, 0, []) x.rx vc (0, 0, []) })
  else setOlink s l { x with rx := Tab.set (0, 0, []) x.rx vc (n + 1, at_, old ++ pay) }

/-- A flit arrives (R387, R389, R390). -/
def flitArrives (l : Nat) (b : List Byte) (s : State) : State :=
  let s0 := lcnt s l 1 1
  if !flitGood b then sendNak l (lcnt s0 l 2 1)
  else
    let ty := fNat b 1 1 / 16
    let sq := fNat b 0 2 % 4096
    let s1 := flitControl l b s0
    match ty with
    | 0 => s1
    | 3 => replay l sq s1
    | _ =>
      let x := olink s1 l
      if sq ≠ x.expect then (if x.nak then s1 else sendNak l s1)
      else
        let s2 := setOlink s1 l { x with expect := (x.expect + 1) % 4096, nak := false }
        let nt := fNat b 16 8
        let s3 := if nKind nt = 0 then s2 else { s2 with obx := { s2.obx with noticeIn := s2.obx.noticeIn ++ [(l, nt)] } }
        if ty = 1 then rxPayload l b s3 else s3

end Sys2Proof.Machine
end

