-- ==== Sys2Proof/Machine/NewtFar.lean ====
section
/-! DEFINITION. Far loads, stores and atomics of the Newt core (R81–R85, R98, R397). -/

namespace Sys2Proof.Machine

/-- The token field names a token, or is posted where that is allowed (R74). -/
def tokenOk (w : Word) (posted : Bool) : Bool := decide (iTok w < 8) || (posted && iTok w == 8)

/-- Kinds of far access: load, store, atomic. -/
inductive FarKind where
  | load | store | atom
deriving DecidableEq, Repr

def FarKind.reads : FarKind → Bool
  | .store => false
  | _ => true
def FarKind.writes : FarKind → Bool
  | .load => false
  | _ => true

/-- A far access to an address R98 does not let it make: outside the far ranges, CSR space other than by an aligned
8-byte access, or an atomic outside HBM, the DDR5 pool and the remote windows. `word` marks LDF48 and STF48. -/
def farBad (k : FarKind) (word : Bool) (ea n : Nat) : Bool :=
  let cls := fun (r : Region) =>
    match r with
    | .near => false
    | .none => false
    | .csr _ => decide (k ≠ .atom) && word && ea % 8 == 0
    | .pstore => decide (k ≠ .atom)
    | .tstore => decide (k ≠ .atom)
    | _ => true
  !(cls (regionOf ea) && cls (regionOf (ea + n - 1)))

/-- The access lies in the packet store. -/
def inPstore (ea : Nat) : Bool :=
  match regionOf ea with
  | .pstore => true
  | _ => false

/-- Traps of a far access at stage 5 and after, in the order of R122; `none` when it has none. -/
def farTrap (s : State) (t : Nat) (w : Word) (k : FarKind) (word : Bool) (ea n : Nat) : Option State :=
  let priv := privOf (th s t)
  if farBad k word ea n then some (trapAddr s t ea)
  else if priv = 0 ∧ inPstore ea then some (trapPrivAddr s t ea)
  else if (match k with
      | .atom => ea % 8 != 0
      | _ => decide (64 < ea % 64 + n)) then some (trapAlign s t ea)
  else if !allowed s priv ea k.reads k.writes then some (trapProt (denied (agentId s t) priv ea k.writes s) t ea)
  else if tokBusy s t (iTok w) then some (trapTokBusy s t (iTok w))
  else none

/-- The Obrex request of a far operation: type, size and data. -/
def remoteReq : OpKind → Nat × Nat × List Byte
  | .store _ n v => (opWr, n, leBytes n v)
  | .atom fn _ v c =>
    if fn = 0 then (opAtom, 1, leBytes 6 v)
    else if fn = 4 then (opAtom, 2, leBytes 6 v)
    else (opAtom, 3, leBytes 6 v ++ leBytes 6 c)
  | .load _ n _ => (opRd, n, [])
  | _ => (opRd, 0, [])

/-- What the RESP of a far operation returns. -/
def remoteKind : OpKind → OpKind
  | .load _ n sg => .remote n sg
  | .atom _ _ _ _ => .remote 6 false
  | _ => .remote 0 false

/-- A store to BRG_PASS takes its packet's lane and sequence at commit; without a packet it fails (R216, R217). -/
def passKind (s : State) (t ea : Nat) (k : OpKind) : OpKind :=
  match k, regionOf ea with
  | .store _ _ _, .csr off =>
    if Reg.BRG_PASS 0 ≤ off ∧ off ≤ Reg.BRG_PASS 3 then
      match (th s t).pkt with
      | some d => .pass ((off - Reg.BRG_PASS 0) / 8) d.lane d.seq
      | none => .known 3 0
    else k
  | _, _ => k

/-- Commit of a far operation (R81, R82): its unit, or the remote device its address names (R397). -/
def farCommit (s : State) (t : Nat) (w : Word) (ea : Nat) (k : OpKind) : State :=
  match regionOf ea with
  | .remote d =>
    if remoteBad s d then finishSeq (commitOp s t (iTok w) (iD w) .far (.known 3 0)) t
    else
      let id := s.nextOp
      let (typ, size, data) := remoteReq k
      let s1 := commitOp s t (iTok w) (iD w) .far (remoteKind k)
      obxPump (finishSeq (remoteSend s1 t id d typ size (ea % 2 ^ 37) data) t)
  | _ => finishSeq (commitOp s t (iTok w) (iD w) .far (passKind s t ea k)) t

/-- A far instruction (R98): address, traps, then `mk` reads the data operands and makes the operation. -/
def farOp (t : Nat) (w : Word) (undef : Bool) (acc : Acc) (k : FarKind) (word : Bool) (n : Nat)
    (mk : Nat → State → OpKind × State) (s : State) : State :=
  issue s t w undef false { acc with c := [0x400] } (fun s =>
    let (a, s1) := readG s t (iA w)
    let ea := (a + iSimm17 w).toNat
    match farTrap s1 t w k word ea n with
    | some s2 => s2
    | none =>
      let (kind, s2) := mk ea s1
      farCommit s2 t w ea kind)

/-- A far load: b zero, token required. -/
def farLoad (t : Nat) (w : Word) (n : Nat) (signed : Bool) (s : State) : State :=
  farOp t w (iB w != 0 || !tokenOk w false) { g := [iA w], wg := [iD w] } .load (n == 6) n
    (fun ea s => (.load ea n signed, s)) s

def execLdf (t : Nat) (w : Word) (s : State) : Out :=
  newt [0x60, 0x61, 0x62, 0x63, 0x64] t w (farLoad t w (widthOf (iOpcode w - 0x60)) false) s

def execLdfs (t : Nat) (w : Word) (s : State) : Out :=
  newt [0x65, 0x66, 0x67, 0x68] t w (farLoad t w (widthOf (iOpcode w - 0x65)) true) s

/-- A far store: d zero, token or posted. -/
def farStore (t : Nat) (w : Word) (s : State) : State :=
  let n := widthOf (iOpcode w - 0x69)
  farOp t w (iD w != 0 || !tokenOk w true) { g := [iA w, iB w] } .store (n == 6) n
    (fun ea s =>
      let (v, s1) := readG s t (iB w)
      (.store ea n (v.toNat % 256 ^ n), s1)) s

def execStf (t : Nat) (w : Word) (s : State) : Out := newt [0x69, 0x6A, 0x6B, 0x6C, 0x6D] t w (farStore t w) s

/-- A far atomic: token required; `fn` as in `atomNew`, 5 reads g[d] as its compare value. -/
def farAtom (t : Nat) (w : Word) (fn : Nat) (s : State) : State :=
  farOp t w (!tokenOk w false) { g := [iA w, iB w] ++ (if fn = 5 then [iD w] else []), wg := [iD w] } .atom false 6
    (fun ea s =>
      let (v, s1) := readG s t (iB w)
      let (c, s2) := if fn = 5 then readG s1 t (iD w) else (0, s1)
      (.atom fn ea v.toNat c.toNat, s2)) s

def execAfadd (t : Nat) (w : Word) (s : State) : Out := newt [0x6E] t w (farAtom t w 0) s
def execAfswp (t : Nat) (w : Word) (s : State) : Out := newt [0x6F] t w (farAtom t w 4) s
def execAfcas (t : Nat) (w : Word) (s : State) : Out := newt [0x70] t w (farAtom t w 5) s

end Sys2Proof.Machine
end

