-- ==== Sys2Proof/Machine/IngressOps.lean ====
section
/-! DEFINITION. Placement of a received frame in buffers of its ingress pool, chains, parsing and the descriptor
(R15, R166–R172, R232, R233, R236). -/

namespace Sys2Proof.Machine

/-- Data buffers a frame of `n` bytes needs in pool `p`. -/
def dataNeed (s : State) (p n : Nat) : Nat := (n + poolSize s p - 1) / max 1 (poolSize s p)

/-- Link buffers a frame with `k` data buffers needs (R232). -/
def linkNeed (k : Nat) : Nat := if k ≤ 3 then 0 else if k ≤ 33 then 1 else 2

/-- A frame needs more than 64 data buffers (R233). -/
def tooLong (s : State) (p n : Nat) : Bool := decide (64 < dataNeed s p n)

/-- Writes frame bytes over data buffers, with zero to the end of the last tile, and seals every tile written (R15, R224). -/
def placeData : List Nat → Nat → List Byte → State → State
  | [], _, _, s => s
  | b :: r, size, l, s =>
    let part := l.take size
    let whole := part ++ List.replicate ((256 - part.length % 256) % 256) 0
    let s1 := (memWrite s b whole).2
    placeData r size (l.drop size) (forEach (if part.isEmpty then [] else tilesOf b part.length) (fun tl s => sealTile s tl) s1)

/-- Writes tile 0 of a link buffer: its data entries, zero after them, and entry 31; and seals it (R232). -/
def placeLink (link pool : Nat) (data : List Nat) (next : Nat) (s : State) : State :=
  let es := data.map (fun a => entryOf a pool false)
  let l := (es ++ List.replicate (31 - es.length) 0) ++ [next]
  sealTile (memWrite s link (l.flatMap (leBytes 8))).2 link

/-- Places a frame whose buffers are all taken: the entries of its descriptor, the chain flag and the state. -/
def placeFrame (g : Staged) (s : State) : List Nat × Bool × State :=
  let k := dataNeed s g.pool g.bytes.length
  let size := poolSize s g.pool
  let b := fun i => g.bufs.getD i 0
  if k ≤ 3 then
    (g.bufs.map (fun a => entryOf a g.pool false) ++ List.replicate (3 - g.bufs.length) 0, false,
      placeData g.bufs size g.bytes s)
  else
    let rest := g.bufs.drop 3
    let first := rest.take (min 31 (k - 2))
    let link2 := rest.drop 31
    let data := [b 0, b 1] ++ first ++ link2.drop 1
    let s1 := placeData data size g.bytes s
    let s2 := match link2 with
      | [] => placeLink (b 2) g.pool first 0 s1
      | l2 :: more => placeLink l2 g.pool more 0 (placeLink (b 2) g.pool first (entryOf l2 g.pool true) s1)
    ([entryOf (b 0) g.pool false, entryOf (b 1) g.pool false, entryOf (b 2) g.pool true], true, s2)

/-- The descriptor of a placed frame (R166–R170), not yet stamped. -/
def buildDesc (s : State) (g : Staged) (bufs : List Nat) (chain : Bool) : Desc :=
  let p := parse g.bytes
  let h := flowHash (fld s Reg.SPN_HSEED F.SPN_HSEED_seed) p.key
  let q := Tab.get 0 s.img.steer (bitsN h 27 16)
  { hash := h, seq := 0, flags := b2n chain * 4 + b2n p.frag * 8 + b2n p.l4unk * 16, lane := h % 65536,
    queue := q + queueGroup s q * 1024, len := g.bytes.length, srcKind := g.srcKind, src := g.src, sub := g.sub,
    l3 := p.l3, l4 := p.l4, ts := g.ts, buf0 := bufs.getD 0 0, buf1 := bufs.getD 1 0, buf2 := bufs.getD 2 0,
    etype := p.etype, vlan := p.vlan, kind := p.kind + p.tags * 4, unit := g.unit }

/-- Buffers a frame in staging needs. -/
def frameNeed (s : State) (g : Staged) : Nat :=
  let k := dataNeed s g.pool g.bytes.length
  k + linkNeed k

/-- The frames of an I/O die's port in staging for a pool, oldest first. -/
def stagedAt (s : State) (p port : Nat) : List Staged := s.bpm.staged.filter (fun g => g.pool == p && g.port == port)

/-- Requests of an I/O die for a pool (R236): one per buffer its frames in staging still lack. -/
def ingressNeed (s : State) (p port : Nat) : Nat := (stagedAt s p port).foldl (fun n g => n + (frameNeed s g - g.bufs.length)) 0

/-- A frame in staging that has its buffers, none on a unit in RETRAINING (R330), is placed, and its descriptor waits for
admission (R172, R236). -/
def placeReady (g : Staged) (s : State) : State :=
  if g.bufs.length < frameNeed s g ∨ g.bufs.any (fun b => busyIn s b (poolSize s g.pool)) then s
  else
    let (bufs, chain, s1) := placeFrame g { s with bpm := { s.bpm with staged := s.bpm.staged.erase g } }
    holdPush s1 (buildDesc s1 g bufs chain)

/-- A buffer for the oldest frame of a die in staging that lacks one. -/
def ingressTake (p port : Nat) (first : Bool) (s : State) : State :=
  match (stagedAt s p port).find? (fun g => decide (g.bufs.length < frameNeed s g)) with
  | none => s
  | some g =>
    match allocOne s p first with
    | (0, s1) => s1
    | (x, s1) =>
      let g1 := { g with bufs := g.bufs ++ [x] }
      placeReady g1 { s1 with bpm := { s1.bpm with staged := s1.bpm.staged.set (s1.bpm.staged.idxOf g) g1 } }

/-- A whole frame enters the part from a source (R15): it goes to its die's staging, and on as buffers allow (R236). -/
def ingress (g : Staged) (s : State) : State := { s with bpm := { s.bpm with staged := s.bpm.staged ++ [g] } }

end Sys2Proof.Machine
end

