-- ==== Sys2Proof/Machine/Crypto.lean ====
section
/-! DEFINITION. The algorithms of R137 by their standards: AES and GCM (FIPS 197, SP 800-38D), ChaCha20 and Poly1305
(RFC 8439), SHA-256 and SHA-384 (FIPS 180-4), SHA3-256 (FIPS 202), and the Toeplitz hash. -/

namespace Sys2Proof.Machine

/-! ## AES (FIPS 197) -/

def xorB (a b : List Byte) : List Byte := List.zipWith (fun x y => x ^^^ y) a b

/-- Multiplication by x in GF(2^8). -/
def xtime (b : Byte) : Byte := if b.msb then (b <<< 1) ^^^ 0x1B else b <<< 1

/-- Product in GF(2^8) over the low `n` bits of the multiplier. -/
def gmul : Nat → Byte → Byte → Byte
  | 0, _, _ => 0
  | n + 1, a, b => (if b.toNat % 2 = 1 then a else 0) ^^^ gmul n (xtime a) (b >>> 1)

def gsq (a : Byte) : Byte := gmul 8 a a

/-- a^254, the inverse of a in GF(2^8), 0 for 0. -/
def ginv (a : Byte) : Byte :=
  let a3 := gmul 8 (gsq a) a
  let a7 := gmul 8 (gsq a3) a
  let a15 := gmul 8 (gsq a7) a
  let a31 := gmul 8 (gsq a15) a
  let a63 := gmul 8 (gsq a31) a
  let a127 := gmul 8 (gsq a63) a
  gsq a127

/-- The S-box of FIPS 197. -/
def sbox (a : Byte) : Byte :=
  let b := ginv a
  b ^^^ b.rotateLeft 1 ^^^ b.rotateLeft 2 ^^^ b.rotateLeft 3 ^^^ b.rotateLeft 4 ^^^ 0x63

/-- Key expansion: `w` holds the words so far, newest first, `i` the index of the next; `nk` words of key. -/
def aesExpand (nk : Nat) : Nat → Nat → Byte → List (List Byte) → List (List Byte)
  | 0, _, _, w => w.reverse
  | n + 1, i, rc, w =>
    let prev := w.getD 0 []
    let t := if i % nk = 0 then xorB ((prev.drop 1 ++ prev.take 1).map sbox) [rc, 0, 0, 0]
      else if 6 < nk ∧ i % nk = 4 then prev.map sbox else prev
    aesExpand nk n (i + 1) (if i % nk = 0 then xtime rc else rc) (xorB (w.getD (nk - 1) []) t :: w)

/-- Splits a list into pieces of `k`; `fuel` bounds their number. -/
def pieces {α : Type} (k : Nat) : Nat → List α → List (List α)
  | 0, _ => []
  | n + 1, l => if l.isEmpty then [] else l.take k :: pieces k n (l.drop k)

/-- Round keys of a 16- or 32-byte key. -/
def aesKeys (key : List Byte) : List (List Byte) :=
  let nk := key.length / 4
  let w0 := (pieces 4 nk key).reverse
  (pieces 4 64 (aesExpand nk (4 * (nk + 7) - nk) nk 1 w0)).map List.flatten

/-- ShiftRows on the 16 bytes of a state, column by column. -/
def shiftRows (s : List Byte) : List Byte := (List.range 16).map (fun i => s.getD ((i + 4 * (i % 4)) % 16) 0)

def mixCol (c : List Byte) : List Byte :=
  (List.range 4).map (fun i =>
    let a := c.getD i 0
    let b := c.getD ((i + 1) % 4) 0
    xtime a ^^^ (xtime b ^^^ b) ^^^ c.getD ((i + 2) % 4) 0 ^^^ c.getD ((i + 3) % 4) 0)

def aesRounds : List (List Byte) → List Byte → List Byte
  | [], s => s
  | [k], s => xorB (shiftRows (s.map sbox)) k
  | k :: r, s => aesRounds r (xorB ((pieces 4 4 (shiftRows (s.map sbox))).flatMap mixCol) k)

/-- One AES block under a key. -/
def aesBlock (key blk : List Byte) : List Byte :=
  match aesKeys key with
  | [] => blk
  | k :: r => aesRounds r (xorB blk k)

/-! ## GHASH (SP 800-38D) -/

/-- Product in GF(2^128) of blocks as big-endian numbers; `n` bits of x remain. -/
def ghMul : Nat → Nat → Nat → Nat → Nat
  | 0, _, _, z => z
  | n + 1, x, v, z =>
    ghMul n x (if v % 2 = 1 then Nat.xor (v / 2) (0xE1 * 2 ^ 120) else v / 2) (if x.testBit n then Nat.xor z v else z)

/-- GHASH of a byte at position `pos` of a block: xored in; the product follows the last byte. -/
def ghByte (h : Nat) (acc pos : Nat) (b : Byte) : Nat :=
  let a := Nat.xor acc (b.toNat * 256 ^ (15 - pos))
  if pos = 15 then ghMul 128 a h 0 else a

/-! ## ChaCha20 and Poly1305 (RFC 8439) -/

def getW (s : List (BitVec 32)) (i : Nat) : BitVec 32 := s.getD i 0

def qround (a b c d : Nat) (s : List (BitVec 32)) : List (BitVec 32) :=
  let a1 := getW s a + getW s b
  let d1 := (getW s d ^^^ a1).rotateLeft 16
  let c1 := getW s c + d1
  let b1 := (getW s b ^^^ c1).rotateLeft 12
  let a2 := a1 + b1
  let d2 := (d1 ^^^ a2).rotateLeft 8
  let c2 := c1 + d2
  let b2 := (b1 ^^^ c2).rotateLeft 7
  listSet (listSet (listSet (listSet s a a2) b b2) c c2) d d2

def chachaDouble (s : List (BitVec 32)) : List (BitVec 32) :=
  qround 3 4 9 14 (qround 2 7 8 13 (qround 1 6 11 12 (qround 0 5 10 15
    (qround 3 7 11 15 (qround 2 6 10 14 (qround 1 5 9 13 (qround 0 4 8 12 s)))))))

def iter {α : Type} (f : α → α) : Nat → α → α
  | 0, a => a
  | n + 1, a => iter f n (f a)

/-- Little-endian 32-bit words of bytes. -/
def leWords (l : List Byte) : List (BitVec 32) := (pieces 4 l.length l).map (fun p => BitVec.ofNat 32 (leNat p))

/-- One 64-byte keystream block; `ctr` is the 4-byte block counter followed by the nonce. -/
def chachaBlock (key ctr : List Byte) : List Byte :=
  let s0 : List (BitVec 32) := [0x61707865, 0x3320646E, 0x79622D32, 0x6B206574] ++ leWords key ++ leWords ctr
  (List.zipWith (· + ·) (iter chachaDouble 10 s0) s0).flatMap (fun w => leBytes 4 w.toNat)

def polyP : Nat := 2 ^ 130 - 5

/-- Poly1305 of a byte at position `pos` of a 16-byte block. -/
def polyByte (r : Nat) (acc pos : Nat) (b : Byte) : Nat :=
  let a := acc + b.toNat * 256 ^ pos
  if pos = 15 then ((a + 2 ^ 128) * r) % polyP else a

/-- The clamped r of a Poly1305 key. -/
def polyClamp (l : List Byte) : Nat := Nat.land (leNat l) 0x0FFFFFFC0FFFFFFC0FFFFFFC0FFFFFFF

/-! ## SHA-256 and SHA-384 (FIPS 180-4) -/

/-- The round constants of SHA-384, 16 to a number with the first in its highest 64 bits; the first halves of the first
64 of them are those of SHA-256. -/
def shaConsts : List Nat :=
  [0x428a2f98d728ae227137449123ef65cdb5c0fbcfec4d3b2fe9b5dba58189dbbc3956c25bf348b53859f111f1b605d019923f82a4af194f9bab1c5ed5da6d8118d807aa98a303024212835b0145706fbe243185be4ee4b28c550c7dc3d5ffb4e272be5d74f27b896f80deb1fe3b1696b19bdc06a725c71235c19bf174cf692694,
   0xe49b69c19ef14ad2efbe4786384f25e30fc19dc68b8cd5b5240ca1cc77ac9c652de92c6f592b02754a7484aa6ea6e4835cb0a9dcbd41fbd476f988da831153b5983e5152ee66dfaba831c66d2db43210b00327c898fb213fbf597fc7beef0ee4c6e00bf33da88fc2d5a79147930aa72506ca6351e003826f142929670a0e6e70,
   0x27b70a8546d22ffc2e1b21385c26c9264d2c6dfc5ac42aed53380d139d95b3df650a73548baf63de766a0abb3c77b2a881c2c92e47edaee692722c851482353ba2bfe8a14cf10364a81a664bbc423001c24b8b70d0f89791c76c51a30654be30d192e819d6ef5218d69906245565a910f40e35855771202a106aa07032bbd1b8,
   0x19a4c116b8d2d0c81e376c085141ab532748774cdf8eeb9934b0bcb5e19b48a8391c0cb3c5c95a634ed8aa4ae3418acb5b9cca4f7763e373682e6ff3d6b2b8a3748f82ee5defb2fc78a5636f43172f6084c87814a1f0ab728cc702081a6439ec90befffa23631e28a4506cebde82bde9bef9a3f7b2c67915c67178f2e372532b,
   0xca273eceea26619cd186b8c721c0c207eada7dd6cde0eb1ef57d4f7fee6ed17806f067aa72176fba0a637dc5a2c898a6113f9804bef90dae1b710b35131c471b28db77f523047d8432caab7b40c724933c9ebe0a15c9bebc431d67c49c100d4c4cc5d4becb3e42b6597f299cfc657e2a5fcb6fab3ad6faec6c44198c4a475817]

/-- The `i`-th round constant of words of `n` bits. -/
def shaConst (n i : Nat) : BitVec n :=
  BitVec.ofNat n (shaConsts.getD (i / 16) 0 / 2 ^ (64 * (15 - i % 16)) % 2 ^ 64 / 2 ^ (64 - n))

/-- The words of `n` bits of a number, highest first. -/
def shaWords (n k v : Nat) : List Nat := (List.range k).map (fun i => v / 2 ^ (n * (k - 1 - i)) % 2 ^ n)

/-- Initial values of SHA-256 and SHA-384. -/
def shaStart256 : List Nat := shaWords 32 8 0x6a09e667bb67ae853c6ef372a54ff53a510e527f9b05688c1f83d9ab5be0cd19
def shaStart384 : List Nat := shaWords 64 8
  0xcbbb9d5dc1059ed8629a292a367cd5079159015a3070dd17152fecd8f70e593967332667ffc00b318eb44a8768581511db0c2e0d64f98fa747b5481dbefa4fa4

/-- Exclusive or of a word's rotations. -/
def xorRot {n : Nat} (rs : List Nat) (x : BitVec n) : BitVec n := rs.foldl (fun y r => y ^^^ x.rotateRight r) 0

/-- What tells the two apart: word width, rounds, and the rotations (with the shifts) of σ0, σ1, Σ0 and Σ1. -/
structure ShaKind where
  bits : Nat
  rounds : Nat
  s0 : List Nat × Nat
  s1 : List Nat × Nat
  e0 : List Nat
  e1 : List Nat
deriving DecidableEq, Repr

def shaKind256 : ShaKind :=
  { bits := 32, rounds := 64, s0 := ([7, 18], 3), s1 := ([17, 19], 10), e0 := [2, 13, 22], e1 := [6, 11, 25] }
def shaKind384 : ShaKind :=
  { bits := 64, rounds := 80, s0 := ([1, 8], 7), s1 := ([19, 61], 6), e0 := [28, 34, 39], e1 := [14, 18, 41] }

/-- The rounds of a block from round `i` on: `w` holds the next 16 words of the message schedule, `h` the eight working
variables. -/
def shaRounds (k : ShaKind) : Nat → Nat → List (BitVec k.bits) → List (BitVec k.bits) → List (BitVec k.bits)
  | 0, _, _, h => h
  | n + 1, i, w, h =>
    let v := fun j => h.getD j 0
    let sig := fun (p : List Nat × Nat) (j : Nat) => xorRot p.1 (w.getD j 0) ^^^ (w.getD j 0 >>> p.2)
    let t := v 7 + xorRot k.e1 (v 4) + (v 6 ^^^ (v 4 &&& (v 5 ^^^ v 6))) + shaConst k.bits i + w.getD 0 0
    let major := (v 0 &&& v 1) ||| (v 2 &&& (v 0 ||| v 1))
    shaRounds k n (i + 1) (w.drop 1 ++ [w.getD 0 0 + sig k.s0 1 + w.getD 9 0 + sig k.s1 14])
      ((t + xorRot k.e0 (v 0) + major) :: h.take 3 ++ (v 3 + t) :: (h.drop 4).take 3)

/-- Compression of one block. -/
def shaBlock (k : ShaKind) (h : List Nat) (b : List Byte) : List Nat :=
  let word := BitVec.ofNat k.bits
  let h0 := h.map word
  (List.zipWith (· + ·) h0
    (shaRounds k k.rounds 0 ((pieces (k.bits / 8) 16 b).map (fun p => word (beNat p))) h0)).map BitVec.toNat

/-! ## SHA3-256 (FIPS 202) -/

/-- The degree-8 LFSR of FIPS 202 after one step. -/
def keccakLfsr (r : Nat) : Nat := if 128 ≤ r then Nat.xor (r * 2 % 256) 0x71 else r * 2

/-- Round constant bits of one round from the LFSR state, and the state after it. -/
def keccakRc : Nat → Nat → Nat → Nat × Nat
  | 0, r, c => (c, r)
  | j + 1, r, c => keccakRc j (keccakLfsr r) (if r % 2 = 1 then Nat.xor c (2 ^ (2 ^ (6 - j) - 1)) else c)

/-- Lane (x, y) of a state listed row by row. -/
def lane (a : List (BitVec 64)) (x y : Nat) : BitVec 64 := a.getD (x % 5 + 5 * (y % 5)) 0

/-- Rho and pi along the cycle of lanes; `t` steps remain. -/
def rhoPi (a : List (BitVec 64)) : Nat → Nat → Nat → Nat → List (BitVec 64) → List (BitVec 64)
  | 0, _, _, _, b => b
  | n + 1, t, x, y, b =>
    let y2 := (2 * x + 3 * y) % 5
    rhoPi a n (t + 1) y y2 (listSet b (y + 5 * y2) ((lane a x y).rotateLeft ((t + 1) * (t + 2) / 2 % 64)))

def keccakRound (rc : Nat) (a : List (BitVec 64)) : List (BitVec 64) :=
  let c := (List.range 5).map (fun x => lane a x 0 ^^^ lane a x 1 ^^^ lane a x 2 ^^^ lane a x 3 ^^^ lane a x 4)
  let d := (List.range 5).map (fun x => c.getD ((x + 4) % 5) 0 ^^^ (c.getD ((x + 1) % 5) 0).rotateLeft 1)
  let th := (List.range 25).map (fun i => a.getD i 0 ^^^ d.getD (i % 5) 0)
  let b := rhoPi th 24 0 1 0 th
  let ch := (List.range 25).map (fun i =>
    lane b i (i / 5) ^^^ (~~~(lane b (i + 1) (i / 5)) &&& lane b (i + 2) (i / 5)))
  listSet ch 0 (ch.getD 0 0 ^^^ BitVec.ofNat 64 rc)

def keccakF : Nat → Nat → List (BitVec 64) → List (BitVec 64)
  | 0, _, a => a
  | n + 1, r, a =>
    let (rc, r1) := keccakRc 7 r 0
    keccakF n r1 (keccakRound rc a)

/-- Absorbs one 136-byte block into a state of 25 lanes. -/
def sha3Block (h : List Nat) (b : List Byte) : List Nat :=
  let m := (pieces 8 17 b).map (fun p => leNat p)
  let a := (List.range 25).map (fun i => BitVec.ofNat 64 (Nat.xor (h.getD i 0) (m.getD i 0)))
  (keccakF 24 1 a).map BitVec.toNat

/-! ## Hashes with a running state -/

/-- Algorithm codes of R137. -/
def hashBlockLen (alg : Nat) : Nat := if alg = 0x10 then 64 else if alg = 0x11 then 128 else 136
def hashOutLen (alg : Nat) : Nat := if alg = 0x11 then 48 else 32
def hashInit (alg : Nat) : List Nat :=
  if alg = 0x10 then shaStart256
  else if alg = 0x11 then shaStart384
  else List.replicate 25 0
def hashBlock (alg : Nat) (h : List Nat) (b : List Byte) : List Nat :=
  if alg = 0x10 then shaBlock shaKind256 h b else if alg = 0x11 then shaBlock shaKind384 h b else sha3Block h b

/-- Absorbs whole blocks of `l`; answers the state and the partial block left. `fuel` bounds the blocks. -/
def hashRun (alg : Nat) : Nat → List Nat → List Byte → List Nat × List Byte
  | 0, h, l => (h, l)
  | n + 1, h, l =>
    let k := hashBlockLen alg
    if l.length < k then (h, l) else hashRun alg n (hashBlock alg h (l.take k)) (l.drop k)

def hashAbsorb (alg : Nat) (h : List Nat) (l : List Byte) : List Nat × List Byte :=
  hashRun alg (l.length / hashBlockLen alg + 1) h l

/-- The digest, given the state, the partial block and the number of bytes hashed. -/
def hashFinish (alg : Nat) (h : List Nat) (part : List Byte) (n : Nat) : List Byte :=
  let k := hashBlockLen alg
  let pad :=
    if alg = 0x12 then
      let z := k - part.length - 1
      if z = 0 then [0x86] else 0x06 :: List.replicate (z - 1) 0 ++ [0x80]
    else
      let lw := if alg = 0x10 then 8 else 16
      let z := (2 * k - (part.length + 1 + lw)) % k
      0x80 :: List.replicate z 0 ++ beBytes lw (8 * n)
  let h1 := (hashAbsorb alg h (part ++ pad)).1
  let out := if alg = 0x12 then h1.flatMap (leBytes 8)
    else if alg = 0x10 then h1.flatMap (beBytes 4) else h1.flatMap (beBytes 8)
  out.take (hashOutLen alg)

/-- The digest of a message. -/
def hashOf (alg : Nat) (l : List Byte) : List Byte :=
  let (h, p) := hashAbsorb alg (hashInit alg) l
  hashFinish alg h p l.length

/-! ## Toeplitz -/

/-- Toeplitz hash of `l` under a key: for each set input bit, most significant first, the 32 key bits from its place. -/
def toeplitz (key l : List Byte) : Nat :=
  let k := beNat key
  let kb := 8 * key.length
  let x := beNat l
  let n := 8 * l.length
  (List.range n).foldl (fun r i =>
    if x.testBit (n - 1 - i) then Nat.xor r (k / 2 ^ (kb - 32 - i) % 2 ^ 32) else r) 0

/-! ## AEAD (R137, R144) -/

/-- Key bytes of an AEAD algorithm. -/
def keyLen (alg : Nat) : Nat := if alg = 0x01 then 16 else 32

/-- Authenticates bytes from position `pos` of a block on. -/
def authRun (alg : Nat) (ak : List Byte) : Nat → Nat → List Byte → Nat
  | acc, _, [] => acc
  | acc, pos, b :: r =>
    let a := if alg = 0x03 then polyByte (polyClamp ak) acc pos b else ghByte (beNat ak) acc pos b
    authRun alg ak a ((pos + 1) % 16) r

/-- Pads the authenticated bytes with zeros to a block. -/
def authPad (alg : Nat) (ak : List Byte) (acc n : Nat) : Nat :=
  if n % 16 = 0 then acc else authRun alg ak acc (n % 16) (List.replicate (16 - n % 16) 0)

/-- Increments the counter block: its last 4 bytes big-endian for GCM, its first 4 little-endian for ChaCha20. -/
def ctrNext (alg : Nat) (c : List Byte) : List Byte :=
  if alg = 0x03 then leBytes 4 (leNat (c.take 4) + 1) ++ c.drop 4
  else c.take 12 ++ beBytes 4 (beNat (c.drop 12) + 1)

/-- One keystream block. -/
def streamBlock (alg : Nat) (key ctr : List Byte) : List Byte :=
  if alg = 0x03 then chachaBlock key ctr else aesBlock key ctr

/-- `n` keystream bytes from a counter and an unused remainder: the bytes, the counter and remainder after. -/
def streamRun (alg : Nat) (key : List Byte) : Nat → Nat → List Byte → List Byte → List Byte × List Byte × List Byte
  | 0, _, ctr, rest => ([], ctr, rest)
  | fuel + 1, n, ctr, rest =>
    if n ≤ rest.length then (rest.take n, ctr, rest.drop n)
    else
      let (o, c, r) := streamRun alg key fuel (n - rest.length) (ctrNext alg ctr) (streamBlock alg key ctr)
      (rest ++ o, c, r)

/-- What an IV starts: counter block for the text, tag mask and authentication key. -/
def aeadStart (alg : Nat) (key iv : List Byte) : List Byte × List Byte × List Byte :=
  if alg = 0x03 then
    let k0 := chachaBlock key (leBytes 4 0 ++ iv)
    (leBytes 4 1 ++ iv, (k0.drop 16).take 16, k0.take 16)
  else
    let j0 := iv ++ beBytes 4 1
    (ctrNext alg j0, aesBlock key j0, aesBlock key (List.replicate 16 0))

/-- The tag, from the accumulator over padded AAD and text and the two lengths. -/
def aeadTag (alg : Nat) (ak mask : List Byte) (acc aadLen textLen : Nat) : List Byte :=
  let a := authPad alg ak acc textLen
  if alg = 0x03 then
    let f := authRun alg ak a 0 (leBytes 8 aadLen ++ leBytes 8 textLen)
    leBytes 16 (f % polyP + leNat mask)
  else xorB (beBytes 16 (authRun alg ak a 0 (beBytes 8 (8 * aadLen) ++ beBytes 8 (8 * textLen)))) mask

end Sys2Proof.Machine
end

