-- ==== Sys2Proof/Machine/LyreOps.lean ====
section
/-! DEFINITION. Lyre's operations (R137–R162): descriptors and refusals, address checks, contexts and save areas, and
what an operation computes. -/

namespace Sys2Proof.Machine

/-! ## The descriptor (R143, R144) -/

def dNat (d : List Byte) (o n : Nat) : Nat := leNat ((d.drop o).take n)
def dOp (d : List Byte) : Nat := dNat d 0 1
def dAlg (d : List Byte) : Nat := dNat d 1 1
def dFlags (d : List Byte) : Nat := dNat d 2 2
def dTag (d : List Byte) : Nat := dNat d 4 1
def dIv (d : List Byte) : Nat := dNat d 5 1
def dSrc (d : List Byte) : Nat := dNat d 0x08 8
def dSrcLen (d : List Byte) : Nat := dNat d 0x10 4
def dAadLen (d : List Byte) : Nat := dNat d 0x14 4
def dAad (d : List Byte) : Nat := dNat d 0x18 8
def dDst (d : List Byte) : Nat := dNat d 0x20 8
def dAux (d : List Byte) : Nat := dNat d 0x28 8
def dAuxLen (d : List Byte) : Nat := dNat d 0x30 4

/-- Fields the table of R144 names for an operation: src, aad, dst, aux, aux_len, tag_len, iv_len. -/
structure Named where
  src : Bool := false
  aad : Bool := false
  dst : Bool := false
  aux : Bool := false
  auxLen : Bool := false
  tag : Bool := false
  iv : Bool := false
deriving DecidableEq, Repr

def namedOf (op : Nat) : Option Named :=
  match op with
  | 0x01 => some { aux := true, auxLen := true }
  | 0x02 => some { src := true, aad := true, dst := true, aux := true, auxLen := true, tag := true, iv := true }
  | 0x03 => some { src := true, aad := true, dst := true, aux := true, auxLen := true, tag := true, iv := true }
  | 0x04 => some { aad := true, aux := true, auxLen := true, iv := true }
  | 0x05 => some { src := true, dst := true }
  | 0x06 => some { dst := true, aux := true, auxLen := true, tag := true }
  | 0x08 => some {}
  | 0x09 => some { src := true }
  | 0x0A => some { dst := true }
  | 0x0B => some { src := true, dst := true }
  | 0x0C => some { src := true, aux := true }
  | 0x0D => some { src := true, aux := true, auxLen := true }
  | 0x10 => some { src := true, dst := true }
  | 0x11 => some { src := true, aux := true, auxLen := true }
  | _ => none

/-- Algorithms R144 allows for an operation. -/
def algsOf (op : Nat) : List Nat :=
  if op ≤ 0x06 then [0x01, 0x02, 0x03]
  else if op ≤ 0x0B then [0x10, 0x11, 0x12]
  else if op = 0x0C then [0x20, 0x21]
  else if op = 0x0D then [0x30]
  else [0x00]

/-- Bit of an algorithm in LYC_CAPS and LYC_ALGEN (R164). -/
def algBit (alg : Nat) : Nat :=
  ([0x01, 0x02, 0x03, 0x10, 0x11, 0x12, 0x20, 0x21, 0x30, 0x00].idxOf alg)

/-- Bytes an operation writes at dst. AEAD_FINAL has two forms, and Lyre's answer depends on the descriptor alone (R151):
without an expected tag at aux it is that of the SEAL phase and writes the tag, with one that of the OPEN phase. -/
def dDstLen (d : List Byte) : Nat :=
  match dOp d with
  | 0x02 => dSrcLen d + dTag d
  | 0x03 => dSrcLen d
  | 0x05 => dSrcLen d
  | 0x06 => if dAuxLen d = 0 then dTag d else 0
  | 0x0A => hashOutLen (dAlg d)
  | 0x0B => hashOutLen (dAlg d)
  | 0x10 => dSrcLen d
  | _ => 0

/-- Bytes an operation reads at src: AEAD_OPEN reads the tag after the ciphertext. -/
def dSrcBytes (d : List Byte) : Nat := if dOp d = 0x03 then dSrcLen d + dTag d else dSrcLen d

/-- Two ranges share a byte. -/
def overlap (a n b m : Nat) : Bool := decide (0 < n) && decide (0 < m) && decide (a < b + m) && decide (b < a + n)

/-! ## Slots and save areas (R158–R161) -/

def cluSlots (s : State) (c : Nat) : List LyrSlot := (clu s c).lyrSlots

/-- Sets a cluster's context slots and CLU_LYSLOTS.used. -/
def setSlots (s : State) (c : Nat) (l : List LyrSlot) : State :=
  setFld (updClu s c (fun x => { x with lyrSlots := l })) (Reg.CLU_LYSLOTS c) F.CLU_LYSLOTS_used
    (l.foldl (fun n x => n + 2 ^ x.idx) 0)

def slotOfThread (s : State) (t : Nat) : Option LyrSlot :=
  (cluSlots s (thCluster t)).find? (fun x => x.owner == thNum t)

/-- Pads or cuts a byte list to `n` bytes. -/
def padTo (n : Nat) (l : List Byte) : List Byte := l.take n ++ List.replicate (n - l.length) 0

/-- Bytes of the hash state: 4-byte words for SHA-256, else 8-byte. -/
def hstateBytes (x : LyrCtx) : List Byte := x.hstate.flatMap (leBytes (if x.hashAlg = 0x10 then 4 else 8))

/-- The 1,024-byte save area of a context (R159). -/
def saveBytes (x : LyrCtx) : List Byte :=
  leBytes 4 0x5843594C ++ [1, BitVec.ofNat 8 (if x.keyValid then x.alg else 0),
    BitVec.ofNat 8 (b2n x.keyValid + 2 * x.phase), BitVec.ofNat 8 x.hashAlg] ++ leBytes 8 0 ++ padTo 32 x.key ++
  padTo 16 x.ctr ++ padTo 16 x.mask ++ padTo 16 x.authKey ++ leBytes 24 x.acc ++ leBytes 8 x.aadLen ++
  leBytes 8 x.textLen ++ padTo 64 x.stream ++ leBytes 8 x.stream.length ++ padTo 200 (hstateBytes x) ++
  leBytes 16 x.hashed ++ leBytes 8 x.part.length ++ padTo 136 x.part ++ List.replicate 456 0

/-- A context as a save area holds it; any other magic is an empty context (R158). -/
def loadBytes (l : List Byte) : LyrCtx :=
  if dNat l 0 4 ≠ 0x5843594C then LyrCtx.reset
  else
    let alg := dNat l 5 1
    let ha := dNat l 7 1
    let w := if ha = 0x10 then 4 else 8
    let nw := if ha = 0x12 then 25 else 8
    { keyValid := dNat l 6 1 % 2 == 1, alg := alg, phase := bitsN (dNat l 6 1) 2 1,
      key := (l.drop 0x10).take (keyLen alg), ctr := (l.drop 0x30).take 16, mask := (l.drop 0x40).take 16,
      authKey := (l.drop 0x50).take 16, acc := dNat l 0x60 24, aadLen := dNat l 0x78 8, textLen := dNat l 0x80 8,
      stream := (l.drop 0x88).take (dNat l 0xC8 8), hashAlg := ha,
      hstate := if ha = 0 then [] else (List.range nw).map (fun i => dNat l (0xD0 + w * i) w),
      hashed := dNat l 0x198 16, part := (l.drop 0x1B0).take (dNat l 0x1A8 8) }

/-- A byte as Lyre of cluster `c` reaches it: its scratch, or physical memory. -/
def lyrByte (s : State) (c a : Nat) : Byte :=
  if a < 0x100000 then rdByte s.scratch (c * 0x100000 + a) else rdByte s.mem a

def lyrBytes (s : State) (c a n : Nat) : List Byte := (List.range n).map (fun i => lyrByte s c (a + i))

/-- Stores bytes as Lyre of cluster `c`. -/
def lyrStore (s : State) (c a : Nat) (l : List Byte) : State :=
  if a < 0x100000 then { s with scratch := wrBytes s.scratch (c * 0x100000 + a) l }
  else (memWrite s a l).2

/-- Writes a slot's context to its save address (R158, R161). -/
def saveSlot (c : Nat) (x : LyrSlot) (s : State) : State :=
  bump (lyrStore s c x.save (saveBytes x.ctx)) (Reg.CLU_LYSWITCH c) F.CLU_LYSWITCH_saves

/-- An accepted LYR of a thread is outstanding. -/
def lyrOutstanding (s : State) (c n : Nat) : Bool := (clu s c).lyrOps.any (fun o => thNum o.thread == n)

/-- The save area of LYR_EN names 1,024 bytes in cluster scratch or HBM that the map allows (R156 reason 9). -/
def saveOk (s : State) (priv save : Nat) : Bool :=
  save != 0 &&
  (decide (save + 1024 ≤ 0x100000) ||
    (match regionOf save, regionOf (save + 1023) with
     | .hbm _ _, .hbm _ _ => true
     | _, _ => false)) && allowed s priv save true true

/-- The slots a thread without one may be given: free numbers, else the least recently used slot whose owner has no
accepted LYR outstanding. -/
def freeSlots (s : State) (c : Nat) : List Nat :=
  allBelow 32 (fun i => !(cluSlots s c).any (fun x => x.idx == i))
def victimSlot (s : State) (c : Nat) : Option LyrSlot :=
  (cluSlots s c).find? (fun x => !lyrOutstanding s c x.owner)

/-- Gives the thread a context slot, most recently used last (R158): its own, a free one, or the victim's. -/
def takeSlot (s : State) (t save : Nat) : State :=
  let c := thCluster t
  match slotOfThread s t with
  | some x => setSlots s c ((cluSlots s c).filter (fun y => y.idx != x.idx) ++ [x])
  | none =>
    let fresh := fun (s : State) (i : Nat) =>
      let x : LyrSlot := { idx := i, owner := thNum t, save := save, ctx := loadBytes (lyrBytes s c save 1024) }
      bump (setSlots s c (cluSlots s c ++ [x])) (Reg.CLU_LYSWITCH c) F.CLU_LYSWITCH_loads
    match freeSlots s c with
    | i :: r =>
      let (k, s1) := choose s i r
      fresh s1 k
    | [] =>
      match victimSlot s c with
      | some v =>
        let s1 := saveSlot c v s
        fresh (setSlots s1 c ((cluSlots s1 c).filter (fun y => y.idx != v.idx))) v.idx
      | none => s

/-- Sets the context of a thread's slot. -/
def setCtx (t : Nat) (x : LyrCtx) (s : State) : State :=
  let c := thCluster t
  setSlots s c ((cluSlots s c).map (fun y => if y.owner = thNum t then { y with ctx := x } else y))

/-- The context of a thread's slot. -/
def ctxOf (s : State) (t : Nat) : LyrCtx := (slotOfThread s t).elim LyrCtx.reset (fun x => x.ctx)

/-- A thread reset frees the thread's slot without write-back; its running operations go on in the context they had and
their context change is discarded with it (R161). -/
def lyrThreadReset (t : Nat) (s : State) : State :=
  let c := thCluster t
  let x := ctxOf s t
  let s1 := setSlots s c ((cluSlots s c).filter (fun y => y.owner != thNum t))
  updClu s1 c (fun v => { v with lyrOps := v.lyrOps.map (fun o =>
    if o.thread = t ∧ o.own.isNone then { o with own := some (s.nextOp, x) } else o) })

/-- The context an operation leaves (R152, R161): in its thread's slot, or with the operations the same thread reset
took from it. -/
def leaveCtx (o : LyrOp) (x : LyrCtx) (s : State) : State :=
  match o.own with
  | none => setCtx o.thread x s
  | some (n, _) =>
    updClu s (thCluster o.thread) (fun v => { v with lyrOps := v.lyrOps.map (fun p =>
      if p.thread = o.thread ∧ p.own.any (fun q => q.1 == n) then { p with own := some (n, x) } else p) })

/-! ## Refusal (R156) -/

/-- Reasons that refuse a descriptor, in their order. -/
def refusals (s : State) (t priv save : Nat) (d : List Byte) : List Nat :=
  let op := dOp d
  match namedOf op with
  | none => [1]
  | some n =>
    let alg := dAlg d
    let okAlg := (algsOf op).contains alg
    let when := fun (b : Bool) (r : Nat) => if b then [r] else []
    let tagOk := if n.tag then (if alg = 0x03 then dTag d == 16 else dTag d == 8 || dTag d == 12 || dTag d == 16)
      else dTag d == 0
    let auxBad :=
      match op with
      | 0x01 => dAuxLen d != keyLen alg
      | 0x06 => dAuxLen d != 0 && dAuxLen d != dTag d
      | 0x0D => dAuxLen d != 40 || decide (64 < dSrcLen d)
      | 0x11 => dAuxLen d != dSrcLen d
      | _ => false
    let lap := n.dst && ((n.src && overlap (dDst d) (dDstLen d) (dSrc d) (dSrcBytes d) && dDst d != dSrc d) ||
      (n.aad && overlap (dDst d) (dDstLen d) (dAad d) (dAadLen d)) ||
      (n.aux && overlap (dDst d) (dDstLen d) (dAux d) (dAuxLen d)))
    let fl := dFlags d
    let reserved := decide (4 ≤ fl) || (fl.testBit 0 && op != 0x03 && op != 0x06) || (fl.testBit 1 && op != 0x04) ||
      dNat d 0x06 2 != 0 || dNat d 0x34 12 != 0 || (!n.src && (dSrc d != 0 || dSrcLen d != 0)) ||
      (!n.aad && (dAad d != 0 || dAadLen d != 0)) || (!n.dst && dDst d != 0) || (!n.aux && dAux d != 0) ||
      (!n.auxLen && dAuxLen d != 0) || (!n.iv && dIv d != 0) || decide (2 ^ 48 ≤ dSrc d) || decide (2 ^ 48 ≤ dAad d) ||
      decide (2 ^ 48 ≤ dDst d) || decide (2 ^ 48 ≤ dAux d)
    when (!okAlg) 2 ++ when (okAlg && !tagOk) 3 ++ when (n.iv && (dIv d != 12 || dAuxLen d != 12)) 4 ++
    when (decide (65536 < dSrcLen d) || decide (65536 < dAadLen d) || (okAlg && auxBad)) 5 ++ when lap 6 ++
    when reserved 7 ++
    when (okAlg && !(fld s Reg.LYC_ALGEN F.LYC_ALGEN_en).testBit (algBit alg)) 8 ++
    when ((slotOfThread s t).isNone && !saveOk s priv save) 9

/-! ## Addresses (R147) -/

/-- Ranges an operation reads and writes, `dl` bytes of them at dst: (address, bytes, write). The pointer of a range of
no bytes is not checked (DESIGN CHOICE, log 81: R147 does not say). -/
def lyrRanges (d : List Byte) (dl : Nat) : List (Nat × Nat × Bool) :=
  match namedOf (dOp d) with
  | none => []
  | some n =>
    ((if n.src then [(dSrc d, dSrcBytes d, false)] else []) ++ (if n.aad then [(dAad d, dAadLen d, false)] else []) ++
     (if n.aux && dOp d != 0x0C then [(dAux d, dAuxLen d, false)] else []) ++
     (if n.dst then [(dDst d, dl, true)] else [])).filter (fun r => r.2.1 != 0)

/-- A range lies in a region of R147 for the thread at its privilege. The buffers recorded in the descriptor are the data
buffers of its window, those of a chain included; its link buffers are none (DESIGN CHOICE, log 82). -/
def rangeOk (s : State) (t priv : Nat) (r : Nat × Nat × Bool) : Bool :=
  let a := r.1
  let e := r.1 + r.2.1 - 1
  if a < 0x100000 then decide (e < 0x100000)
  else
    match regionOf a, regionOf e with
    | .pstore, .pstore =>
      priv != 0 || ((th s t).pkt.isSome &&
        (dataBufs s (slotBufs s t) (slotChain s t)).any (fun b => decide (b.1 ≤ a) && decide (e < b.1 + b.2)))
    | .hbm _ _, .hbm _ _ => true
    | .ddr _ _, .ddr _ _ => populated s a && populated s e
    | _, _ => false

/-- First page of a range the map denies, as an address. -/
def rangeDenied (s : State) (priv : Nat) (r : Nat × Nat × Bool) : Option Nat :=
  let n := (r.1 % 4096 + r.2.1 + 4095) / 4096
  ((List.range n).map (fun i => if i = 0 then r.1 else r.1 / 4096 * 4096 + 4096 * i)).find?
    (fun a => !allowed s priv a (!r.2.2) r.2.2)

/-! ## Operand bytes -/

/-- A near byte at an LYR: one stored within the last 4 instructions is old or new (R139). -/
def lyrNearByte (s : State) (t : Nat) (a : Nat) : Byte × State :=
  let key := thCluster t * 0x100000 + a
  let v := rdByte s.scratch key
  let hs := (th s t).hist.filter (fun h => decide (h.kind = .near) && h.key == key && decide (h.age < 5))
  match hs.getLast? with
  | none => (v, s)
  | some h =>
    let (w, s1) := choose s h.before (hs.map (fun h => h.after))
    (BitVec.ofNat 8 w.toNat, s1)

def lyrNear (s : State) (t a : Nat) : Nat → List Byte × State
  | 0 => ([], s)
  | n + 1 =>
    let (b, s1) := lyrNearByte s t a
    let (r, s2) := lyrNear s1 t (a + 1) n
    (b :: r, s2)

/-- Operand bytes as they stand at the start. -/
def lyrFetch (s : State) (t a n : Nat) : List Byte × State :=
  if a < 0x100000 then lyrNear s t a n else (lyrBytes s (thCluster t) a n, s)

/-- Each byte old or new (R149). -/
def mixBytes : List Byte → List Byte → State → List Byte × State
  | a :: as, b :: bs, s =>
    if a = b then
      let (r, s1) := mixBytes as bs s
      (a :: r, s1)
    else
      let (c, s1) := choose s a [b]
      let (r, s2) := mixBytes as bs s1
      (c :: r, s2)
  | _, l, s => (l, s)

/-- What one unit's bytes read as (R149), from the unit at the start and now and the atomics on it in order: when the
atomics account for every change, the unit whole as it stood between two of them; else each byte independently as it
stood at some time. -/
def mixUnit (old new : List Byte) (ats : List (List Byte × List Byte)) (s : State) : List Byte × State :=
  let ends := ats.foldl (fun (p : Bool × List Byte) a => (p.1 && a.1 == p.2, a.2)) (true, old)
  if ends.1 && ends.2 == new then choose s old (ats.map (fun a => a.2))
  else
    let vs := ats.flatMap (fun a => [a.1, a.2]) ++ [new]
    (List.range old.length).foldl (fun p i =>
      let (b, s1) := choose p.2 (old.getD i 0) (vs.map (fun v => v.getD i 0))
      (p.1 ++ [b], s1)) ([], s)

/-- The part of the 8 bytes of a slot that lies at `a`, `k` bytes. -/
def slotPart (a k : Nat) (l : List Byte) : List Byte := (l.drop (a % 8)).take k

/-- Operand bytes in cluster scratch at `a`, as they stood at the start and stand now, read in aligned 8-byte units
(R149); `fuel` bounds the units. -/
def mixUnits (ats : List (Nat × List Byte × List Byte)) : Nat → Nat → List Byte → List Byte → State → List Byte × State
  | 0, _, _, _, s => ([], s)
  | fuel + 1, a, old, new, s =>
    if old.isEmpty then ([], s)
    else
      let k := 8 - a % 8
      let mine := (ats.filter (fun e => e.1 == a / 8 * 8)).map (fun e => (slotPart a (min k old.length) e.2.1, slotPart a (min k old.length) e.2.2))
      let (u, s1) := if mine.isEmpty then mixBytes (old.take k) (new.take k) s else mixUnit (old.take k) (new.take k) mine s
      let (r, s2) := mixUnits ats fuel (a + k) (old.drop k) (new.drop k) s1
      (u ++ r, s2)

/-- Operand bytes at `a`: cluster scratch in units, other memory byte by byte. -/
def mixOperand (ats : List (Nat × List Byte × List Byte)) (a : Nat) (old new : List Byte) (s : State) : List Byte × State :=
  if a < 0x100000 ∧ !ats.isEmpty then mixUnits ats (old.length / 8 + 2) a old new s else mixBytes old new s

/-- Tiles of a range, in the packet store or in a pool placed in HBM (R222, R226). -/
def opTiles (s : State) (a n : Nat) : List Nat :=
  if n = 0 then []
  else
    match regionOf a with
    | .pstore => tilesOf a n
    | .hbm _ _ => (tilesOf a n).filter (fun x => (poolOf s x).isSome)
    | _ => []

/-! ## What an operation computes (R141, R144–R146) -/

/-- An operation's outcome: lstat, value, bytes for dst, and the context after. -/
structure LyrRes where
  lstat : Nat
  value : Nat
  out : List Byte
  ctx : LyrCtx
deriving DecidableEq, Repr

def lyrState (x : LyrCtx) : LyrRes := { lstat := 4, value := 0, out := [], ctx := x }

/-- One AEAD message in whole: output bytes and tag. -/
def aeadRun (opening : Bool) (alg : Nat) (key iv aad text : List Byte) : List Byte × List Byte :=
  let (c, m, ak) := aeadStart alg key iv
  let a0 := authPad alg ak (authRun alg ak 0 0 aad) aad.length
  let out := xorB text (streamRun alg key (text.length / 16 + 2) text.length c []).1
  let ct := if opening then text else out
  (out, aeadTag alg ak m (authRun alg ak a0 0 ct) aad.length ct.length)

/-- The cipher text and context of AEAD_UPDATE. -/
def aeadUpdate (x : LyrCtx) (text : List Byte) : List Byte × LyrCtx :=
  let (ks, c, r) := streamRun x.alg x.key (text.length / 16 + 2) text.length x.ctr x.stream
  let out := xorB text ks
  let ct := if x.phase = 2 then text else out
  (out, { x with ctr := c, stream := r, acc := authRun x.alg x.authKey x.acc (x.textLen % 16) ct,
                 textLen := x.textLen + text.length })

/-- Bytes of two lists agree up to here. -/
def firstDiff : List Byte → List Byte → Nat → Nat
  | a :: as, b :: bs, i => if a = b then firstDiff as bs (i + 1) else i
  | _, _, i => i

/-- What operation `d` makes of its operands in a context. `free` is the value where the standard states none. -/
def lyrCompute (d : List Byte) (x : LyrCtx) (aux aad src : List Byte) (free : Nat) : LyrRes :=
  let alg := dAlg d
  let zero := fun (bad : Bool) (l : List Byte) => if bad && (dFlags d).testBit 0 then l.map (fun _ => 0) else l
  let keyed := x.keyValid && x.alg == alg
  match dOp d with
  | 0x01 => { lstat := 0, value := 0, out := [], ctx := { x with keyValid := true, alg := alg, key := aux, phase := 0 } }
  | 0x02 =>
    if !keyed then lyrState x
    else
      let (o, tg) := aeadRun false alg x.key aux aad src
      { lstat := 0, value := dSrcLen d + dTag d, out := o ++ tg.take (dTag d), ctx := x }
  | 0x03 =>
    if !keyed then lyrState x
    else
      let (o, tg) := aeadRun true alg x.key aux aad (src.take (dSrcLen d))
      let bad := tg.take (dTag d) != src.drop (dSrcLen d)
      { lstat := if bad then 3 else 0, value := dSrcLen d, out := zero bad o, ctx := x }
  | 0x04 =>
    if !keyed then lyrState x
    else
      let (c, m, ak) := aeadStart alg x.key aux
      { lstat := 0, value := 0, out := [],
        ctx := { x with phase := if (dFlags d).testBit 1 then 2 else 1, ctr := c, mask := m, authKey := ak,
                        acc := authPad alg ak (authRun alg ak 0 0 aad) aad.length, aadLen := aad.length,
                        textLen := 0, stream := [] } }
  | 0x05 =>
    if x.phase = 0 ∨ x.alg ≠ alg then lyrState x
    else
      let (o, y) := aeadUpdate x src
      { lstat := 0, value := src.length, out := o, ctx := y }
  | 0x06 =>
    if x.phase = 0 ∨ x.alg ≠ alg then lyrState x
    else
      let tg := (aeadTag alg x.authKey x.mask x.acc x.aadLen x.textLen).take (dTag d)
      if x.phase = 1 then { lstat := 0, value := dTag d, out := tg, ctx := { x with phase := 0 } }
      else { lstat := if tg = aux then 0 else 3, value := 0, out := [], ctx := { x with phase := 0 } }
  | 0x08 =>
    { lstat := 0, value := 0, out := [], ctx := { x with hashAlg := alg, hstate := hashInit alg, hashed := 0, part := [] } }
  | 0x09 =>
    if x.hashAlg ≠ alg then lyrState x
    else
      let (h, p) := hashAbsorb alg x.hstate (x.part ++ src)
      { lstat := 0, value := 0, out := [], ctx := { x with hstate := h, part := p, hashed := x.hashed + src.length } }
  | 0x0A =>
    if x.hashAlg ≠ alg then lyrState x
    else
      { lstat := 0, value := hashOutLen alg, out := hashFinish alg x.hstate x.part x.hashed,
        ctx := { x with hashAlg := 0 } }
  | 0x0B => { lstat := 0, value := hashOutLen alg, out := hashOf alg src, ctx := x }
  | 0x0C =>
    let poly := if alg = 0x20 then polyC else polyE
    -- bits [47:32] of aux are not part of the seed and are ignored (DESIGN CHOICE, log 85: R144 does not say)
    { lstat := 0, value := Nat.xor (crcRun poly (Nat.xor (dAux d % 2 ^ 32) 0xFFFFFFFF) src) 0xFFFFFFFF, out := [],
      ctx := x }
  | 0x0D => { lstat := 0, value := if src.length ≤ 36 then toeplitz aux src else free, out := [], ctx := x }
  | 0x10 => { lstat := 0, value := src.length, out := src, ctx := x }
  | _ =>
    let k := firstDiff src aux 0
    { lstat := if k = src.length then 0 else 2, value := k, out := [], ctx := x }

/-! ## Completion (R141, R150, R152, R162) -/

/-- Writes an operation's bytes: within the thread's current packet it opens the tiles it touches (R150). -/
def lyrWriteOut (t a : Nat) (l : List Byte) (s : State) : State :=
  let s1 := lyrStore s (thCluster t) a l
  if (th s t).pkt.isNone then s1
  else
    let bufs := dataBufs s (slotBufs s t) (slotChain s t)
    forEach ((opTiles s a l.length).filter (fun x => bufs.any (fun b => decide (b.1 ≤ x) && decide (x < b.1 + b.2))))
      (fun x s => writeTile s x) s1

/-- The POISON outcome of an operation (R162). -/
def lyrPoison (o : LyrOp) (out : List Byte) (s : State) : State :=
  let c := thCluster o.thread
  let (l, s1) := mixBytes (lyrBytes s c (dDst o.desc) out.length) out s
  let s2 := if out.isEmpty then s1 else lyrWriteOut o.thread (dDst o.desc) l s1
  let a := Reg.CLU_LYPOISON c
  raise (setFld (bump s2 a F.CLU_LYPOISON_count) a F.CLU_LYPOISON_thread (thNum o.thread)) (384 + 4 * c + 2)

/-- The three operands at completion: aux, aad, src, each byte as at the start or as now. -/
def lyrOperands (o : LyrOp) (s : State) : (List Byte × List Byte × List Byte) × State :=
  let c := thCluster o.thread
  let d := o.desc
  match namedOf (dOp d) with
  | none => (([], [], []), s)
  | some n =>
    let get := fun (b : Bool) (i a k : Nat) (s : State) =>
      if b then mixOperand o.atoms a (o.snap.getD i []) (lyrBytes s c a k) s else ([], s)
    let (x, s1) := get (n.aux && dOp d != 0x0C) 0 (dAux d) (dAuxLen d) s
    let (y, s2) := get n.aad 1 (dAad d) (dAadLen d) s1
    let (z, s3) := get n.src 2 (dSrc d) (dSrcBytes d) s2
    ((x, y, z), s3)

/-- A range an operation turns out to write that its descriptor did not tell: the tag of AEAD_FINAL in the SEAL phase
with an aux all the same. It is checked when the phase is known (DESIGN CHOICE, log 83). -/
def lateDst (o : LyrOp) (r : LyrRes) : Option (Nat × Nat × Bool) :=
  if r.out.length ≤ o.dstLen then none else some (dDst o.desc, r.out.length, true)

/-- The operand ranges of an operation meet an error: a bad tile (the first of them, one of several in an order the spec
leaves open), memory poison, a retired unit, or an uncorrectable error of this fetch (R162, R227, R315). The tile or
the poison met first is counted; `none` when there is none. -/
def operandError (o : LyrOp) (ecc : Nat) (s : State) : Option State :=
  let reads := (lyrRanges o.desc 0).filter (fun x => !x.2.2 && decide (0x100000 ≤ x.1))
  let tiles := reads.flatMap (fun x => opTiles s x.1 x.2.1)
  let s := match tiles with
    | x :: _ => entryError s x ecc
    | [] => s
  let bad := tiles.filter (fun x => (tileGet s x).1 && (!tileGood s x || poisoned s x 256 || retiredIn s x 256))
  match bad with
  | x :: l =>
    let (y, s1) := choose s x l
    some (tileFail 2 y false (checkBad s1 y) s1)
  | [] =>
    match reads.filter (fun x => poisoned s x.1 x.2.1) with
    | x :: l =>
      let (y, s1) := choose s x l
      some (mcError s1 y.1 true)
    | [] =>
      if reads.any (fun x => retiredIn s x.1 x.2.1) then some s
      else if ecc = 2 then
        some (match tiles.filter (fun x => (tileGet s x).1), reads with
          | x :: l, _ =>
            let (y, s1) := choose s x l
            tileFail 2 y false (checkBad s1 y) s1
          | [], x :: _ => mcError s x.1 true
          | [], [] => s)
      else none

/-- A Lyre operation runs to its end; `late` when its timer has expired: its context is then as before or as after it
(R155). `ecc` is the memory's error outcome for its operands (2 uncorrectable). Answers the token status and completion
word. An operation that ends in STATE fetches its operands first, so an error of theirs goes before STATE (DESIGN
CHOICE, log 84). -/
def lyrFinish (o : LyrOp) (late : Bool) (ecc : Nat) (s : State) : Nat × Word × State :=
  let d := o.desc
  if o.bad then (3, 0, s)
  else
    let ((aux, aad, src), s1) := lyrOperands o s
    let ctx := o.own.elim (ctxOf s1 o.thread) (fun x => x.2)
    let (f, s2) := draw s1
    let r := lyrCompute d ctx aux aad src (f.toNat % 2 ^ 32)
    let open_ := ((lyrRanges d 0).flatMap (fun x => opTiles s2 x.1 x.2.1)).any (fun x => !(tileGet s2 x).1)
    if (lateDst o r).any (fun x => !rangeOk s2 o.thread o.priv x || (rangeDenied s2 o.priv x).isSome) then (3, 0, s2)
    else
      match operandError o ecc s2 with
      | some s3 => (4, 0, lyrPoison o r.out s3)
      | none =>
        let s3 := if r.out.isEmpty then s2 else lyrWriteOut o.thread (dDst d) r.out s2
        let (x, s4) := if late then choose s3 r.ctx [ctx] else (r.ctx, s3)
        let s5 := leaveCtx o x s4
        let lstat := max r.lstat (b2n open_)
        (if lstat = 0 then 0 else 1, toW (lstat * 2 ^ 40 + r.value), s5)

end Sys2Proof.Machine
end

