-- ==== Sys2Proof/Machine/NewtControl.lean ====
section
/-! DEFINITION. Waits, branches, repeat prefixes, DOZE, EXIT, TRAP and ERET of the Newt core, and the entries and
expiries of a thread (R87, R88, R108–R119, R121, R125–R130, R135). -/

namespace Sys2Proof.Machine

/-! ## WAITC and FENCE -/

/-- WAITC (R87): a, b and [20:9] zero. -/
def execWaitc (t : Nat) (w : Word) (s : State) : Out :=
  newt [0x98] t w (fun s =>
    issue s t w (iA w != 0 || iB w != 0 || bitsN w.toNat 20 9 != 0) false { wg := [iD w] } (fun s =>
      settleWait (updTh s t (fun x => { x with wait := .waitc w })) t)) s

/-- FENCE (R88): every field but kinds zero; it waits for the thread's earlier operations of the kinds selected. -/
def execFence (t : Nat) (w : Word) (s : State) : Out :=
  newt [0x99] t w (fun s =>
    issue s t w (bitsN w.toNat 35 3 != 0) false {} (fun s =>
      let ids := (s.ops.filter (fun o => o.thread == t && !o.dead && !o.late && fenceSel (iFn w) o.cls)).map (fun o => o.id)
      settleWait (updTh s t (fun x => { x with wait := .fence w ids })) t)) s

/-! ## Branches (R109) -/

/-- Target of BR and CALL. -/
def brTarget (s : State) (t : Nat) (w : Word) : Int := (th s t).pc + 6 * (iSimm21 w).toInt

/-- The target keeps R109. -/
def brOk (n : Int) : Bool := decide (0 ≤ n) && goodPc n.toNat

/-- BR: d, a and b zero. -/
def execBr (t : Nat) (w : Word) (s : State) : Out :=
  newt [0xA0] t w (fun s =>
    issue s t w (iD w != 0 || iA w != 0 || iB w != 0) false {} (fun s =>
      let n := brTarget s t w
      if brOk n then finish s t n.toNat else trapPcRange s t (BitVec.ofInt 48 n))) s

/-- CALL: a and b zero; g[d] := pc + 6. -/
def execCall (t : Nat) (w : Word) (s : State) : Out :=
  newt [0xA1] t w (fun s =>
    issue s t w (iA w != 0 || iB w != 0) false { wg := [iD w] } (fun s =>
      let n := brTarget s t w
      if brOk n then finish (writeG s t (iD w) (toW ((th s t).pc + 6)) 2) t n.toNat
      else trapPcRange s t (BitVec.ofInt 48 n))) s

/-- JMPR: b and function zero; g[a] is read before g[d] is written. -/
def execJmpr (t : Nat) (w : Word) (s : State) : Out :=
  newt [0xA2] t w (fun s =>
    issue s t w (iB w != 0 || iFn w != 0) false { g := [iA w], wg := [iD w] } (fun s =>
      let (a, s1) := readG s t (iA w)
      if goodPc a.toNat then finish (writeG s1 t (iD w) (toW ((th s1 t).pc + 6)) 2) t a.toNat
      else trapPcRange s1 t a)) s

/-! ## Repeat prefixes (R113, R114) -/

/-- Fields a prefix wants zero. -/
def repUndef (w : Word) : Bool :=
  iD w != 0 || iB w != 0 ||
    (if (iFn w).testBit 20 then iFn w % 2 ^ 20 != 0 else iA w != 0 || bitsN (iFn w) 19 16 != 0)

/-- Commit of a prefix: it is counted, it stands at the position of its first iteration, and the repeat begins. -/
def repStart (s : State) (t : Nat) (noInt : Bool) (n : Nat) : State :=
  updTh s t (fun x => { x with instret := x.instret + 1, pc := x.pc + 6,
                               rep := some { noInt := noInt, left := n, word := none, fresh := true } })

/-- The count of a prefix (R113). -/
def repCount (t : Nat) (w : Word) (s : State) : Nat × State :=
  let (c, s1) := if (iFn w).testBit 20 then readG s t (iA w) else (toW (iFn w), s)
  (bitsN c.toNat 15 0, s1)

/-- The detail of a count out of range (R113). -/
def repBad (most n : Nat) : Option (Nat × Word) :=
  if n = 0 then some (1, 0) else if most < n then some (2, toW n) else none

/-- A repeat prefix with its largest count. -/
def repPrefix (t : Nat) (w : Word) (noInt : Bool) (most : Nat) (s : State) : State :=
  issue s t w (repUndef w) false { g := if (iFn w).testBit 20 then [iA w] else [] } (fun s =>
    let (n, s1) := repCount t w s
    repStart s1 t noInt n)
    (cnt := fun s => repBad most (repCount t w s).1)

def execRepi (t : Nat) (w : Word) (s : State) : Out := newt [0xA8] t w (repPrefix t w false 65535) s
def execRepn (t : Nat) (w : Word) (s : State) : Out := newt [0xA9] t w (repPrefix t w true 256) s

/-! ## DOZE, EXIT, TRAP, ERET -/

/-- DOZE (R128): b and function zero. -/
def execDoze (t : Nat) (w : Word) (s : State) : Out :=
  newt [0xB0] t w (fun s =>
    issue s t w (iB w != 0 || iFn w != 0) false { g := [iA w], wg := [iD w] } (fun s =>
      let (a, s1) := readG s t (iA w)
      if (th s1 t).wake then
        finishSeq (writeG (updTh s1 t (fun x => { x with wake := false })) t (iD w) 0 2) t
      else updTh s1 t (fun x => { x with wait := .doze (iD w) (bitsN a.toNat 15 0) x.pc }))) s

/-- EXIT (R121, R130): at U it traps PRIV, with a packet CONTEXT; else the thread is IDLE and takes its next packet. -/
def execExit (t : Nat) (w : Word) (s : State) : Out :=
  newt [0xB1] t w (fun s =>
    issue s t w (bitsN w.toNat 35 0 != 0) (privOf (th s t) == 0) {} (fun s =>
      if (th s t).pkt.isSome then trapAt s t 0x0D 0 w
      else takeNext (updTh (finishSeq s t) t (fun x => { x with state := .idle, rep := none })) t)) s

/-- TRAP (R127): d, a and b zero. -/
def execTrap (t : Nat) (w : Word) (s : State) : Out :=
  newt [0xB4] t w (fun s =>
    issue s t w (iD w != 0 || iA w != 0 || iB w != 0) false {} (fun s =>
      trapEnter s t 0x20 0 (toW (iFn w)) ((th s t).pc + 6))) s

/-- What ERET does at a good TEPC (R119, R126): privilege, ie and th, the pc, and a repeat to resume; one with nothing
left goes on at TEPC + 6. The first iteration that issues is checked as a first one (R116): TREP does not tell whether
one has issued before, and the check changes nothing for a word that passed it. Writes still on their way take effect
before the next instruction (R66). -/
def eretGo (s : State) (t : Nat) (tstat tepc trep : Word) : State :=
  let s1 := finishSeq s t
  updTh s1 t (fun x =>
    let st1 := putF x.csr.tstat TS.priv (getF tstat TS.ppriv)
    let st2 := putF (putF st1 TS.ie (getF tstat TS.pie)) TS.th 0
    let n := getF trep TS.repLeft
    let go := getF trep TS.repValid == 1 && getF trep TS.repTarget == tepc.toNat
    { x with
      csr := { x.csr with tstat := st2, trep := putF x.csr.trep TS.repValid 0 },
      pc := if go && n == 0 then tepc.toNat + 6 else tepc.toNat, hist := drainHist x.hist,
      rep := if go && n != 0 then some { noInt := getF trep TS.repKind == 1, left := n, word := none, fresh := true }
             else none })

/-- ERET (R126): K only; a TEPC that breaks R109 traps PC_RANGE. -/
def execEret (t : Nat) (w : Word) (s : State) : Out :=
  newt [0xB5] t w (fun s =>
    issue s t w (bitsN w.toNat 35 0 != 0) (privOf (th s t) != 2) { c := [0x800, 0x802, 0x805] } (fun s =>
      let (tstat, s1) := readCsr s t 0x800
      let (tepc, s2) := readCsr s1 t 0x802
      let (trep, s3) := readCsr s2 t 0x805
      if goodPc tepc.toNat then eretGo s3 t tstat tepc trep else trapPcRange s3 t tepc)) s

/-! ## Entries and expiries -/

/-- Sets pending bits of TINT (R125): a write of TINT on its way does not clear them (R135). -/
def setTint (t : Nat) (f : Fld) (s : State) : State :=
  updTh s t (fun x => { x with
    csr := { x.csr with tint := putF x.csr.tint f 1 },
    hist := x.hist.map (fun h => if h.kind = .csr ∧ h.key = 0x807 then
      { h with before := putF h.before f 1, after := putF h.after f 1 } else h) })

/-- A repeat that no interrupt ends is in progress (R118). -/
def inRepn (x : Thread) : Bool :=
  match x.rep with
  | some r => r.noInt
  | none => false

/-- The thread waits for Bridge to record an ending (R208). -/
def isHanded (x : Thread) : Bool :=
  match x.wait with
  | .handed _ => true
  | _ => false

/-- The thread is in the wait of RELEASE or DROP, which nothing interrupts (R125). -/
def inEnding (x : Thread) : Bool :=
  match x.wait with
  | .ending _ _ _ => true
  | _ => isHanded x

/-- INTERRUPT_ENTRY (R125): the pending enabled interrupt with the lowest code is taken; a WAITC, FENCE, DOZE or BUSY
backoff is abandoned with TEPC at it. -/
def execInterruptEntry (t : Nat) (s : State) : Out :=
  if 3072 ≤ t then .refused .illFormed
  else
    let x := th s t
    if !running x || x.pendKill || inRepn x || inEnding x || !clusterRuns s t then .next s
    else
      match (intChoices s t).filterMap id with
      | [] => .next s
      | c :: l =>
        let (code, s1) := choose s c l
        .next (enterHandler s1 t code 0 (toW (bitsN x.csr.tint.toNat 2 0)) x.pc)

/-- TTIMER_EXPIRY (R135): TTIMER steps from 1 to 0 and sets TINT.tp. -/
def execTtimerExpiry (t : Nat) (s : State) : Out :=
  if 3072 ≤ t then .refused .illFormed
  else if (th s t).csr.ttimer = 0 then .next s
  else .next (setTint t TS.tp (updTh s t (fun x => { x with
      csr := { x.csr with ttimer := 0 }, hist := x.hist.filter (fun h => !(decide (h.kind = .csr) && h.key == 0x808)) })))

/-- DOZE_TIMEOUT (R128): a DOZE whose limit is not 0 ends with g[d] := 1. -/
def execDozeTimeout (t : Nat) (s : State) : Out :=
  if 3072 ≤ t then .refused .illFormed
  else
    match (th s t).wait with
    | .doze d limit _ => .next (if limit = 0 then s else dozeEnd s t d 1)
    | _ => .next s

/-- PC_RANGE_FETCH (R112): the fetch at 262,140 traps. -/
def execPcRangeFetch (t : Nat) (s : State) : Out :=
  if 3072 ≤ t then .refused .illFormed
  else if ready s t && (th s t).pc == 262140 then .next (trapAt s t 0x0C 0 0x3FFFC)
  else .next s

end Sys2Proof.Machine
end

