-- ==== Sys2Proof/Machine/ThreadCmd.lean ====
section
/-! DEFINITION. Commands to threads (R131–R134) and the cluster's control registers (R107, R136). -/

namespace Sys2Proof.Machine

/-- A command that is not valid is ignored and counted (R132). -/
def badCmd (t : Nat) (s : State) : State := updTh s t (fun x => { x with badcmd := satAdd 8 x.badcmd 1 })

/-- The thread of a cluster may run after a thread reset: a program is in effect and nothing holds the cluster (R131). -/
def cluHasProg (s : State) (c : Nat) : Bool :=
  flag s (Reg.STR_PROG c) F.STR_PROG_valid && !(clu s c).inReset && !(clu s c).resetting && !(clu s c).liveHold

/-- Steps of a kill at its CCLK (R133): the packet goes as a DROP with its tiles as they are, filled slots return,
committed operations are discarded, locks are freed, and every wait and pending bit ends. -/
def killBegin (t : Nat) (s : State) : State :=
  let x := th s t
  if x.pendKill then s
  else
    let s0 := setTh (squashed s t 7 4) t { x with
      pendKill := true, pendHalt := false, rep := none, lyrRun := 0, wait := if isHanded x then x.wait else .none }
    let s1 := if x.pkt.isSome then updTh (handOff s0 t false 0 0) t (fun y => { y with pc := x.pc }) else s0
    let s2 := returnSlots t s1
    let s3 := { s2 with ops := s2.ops.map (fun o => if o.thread = t then { o with dead := true } else o) }
    updTh (obxPump (threadHolderReset t s3)) t (fun x => { x with
      tok := [], wake := false, hist := [],
      csr := { x.csr with tint := toW (x.csr.tint.toNat / 8 * 8), ttimer := 0 } })

/-- The effects of a kill are complete: no ending is owed, and no fill of the thread is in progress (R133). -/
def killDone (s : State) (t : Nat) : Bool :=
  let x := th s t
  let filling := fun (v : Slot) => match v with
    | .filling _ _ => true
    | _ => false
  !isHanded x && !filling x.slot0 && !filling x.slot1 &&
    !s.bridge.inbound.any (fun e => e.2.thread == t) && !s.bridge.waiting.any (fun e => e.2.thread == t)

/-- A thread reset (R134): registers, tokens and CSRs as at reset, THR_ENTRY from the program in effect, and START, or
RESET while held. Only RESTART zeroes discard and badcmd. -/
def threadReset (zero : Bool) (t : Nat) (s : State) : State :=
  let c := thCluster t
  let s1 := lyrThreadReset t (obxPump (threadHolderReset t s))
  let x := th s1 t
  let e := Tab.get 0 s1.img.entry c
  setTh s1 t { Thread.reset with
    pc := e, csr := { TCsr.reset with entry := toW e },
    state := if cluHasProg s1 c then .start else .reset,
    discard := if zero then 0 else x.discard, badcmd := if zero then 0 else x.badcmd, gen := x.gen }

/-- Resets a group of threads together once every kill of it is complete (R134). -/
def resetTogether (l : List Nat) (s : State) : State :=
  if l.all (fun t => !(th s t).pendKill) then forEach l (threadReset false) s else s

/-! ## Cluster reset (R465–R467) -/

def clustat (c v : Nat) (s : State) : State :=
  wr s Reg.CRS_CLUSTAT (toW (putN (rd s Reg.CRS_CLUSTAT).toNat c c v))

/-- Something holds the cluster in reset (R465). -/
def cluHeld (s : State) (c : Nat) : Bool :=
  let x := clu s c
  (rd s Reg.CRS_CLUHOLD).toNat.testBit c || x.liveHold || x.pllHold

/-- The counters of a cluster's cores count from its reset (R71, R91). -/
def coresReset (c : Nat) (s : State) : State :=
  forEach (List.range 16) (fun k s => updCore s (c * 16 + k) (fun _ => { CoreCnt.reset with at_ := s.now })) s

/-- Reset of a cluster is asserted once every kill of it is complete (R466): its Lyre drops what it held, and every
thread shows RESET. -/
def cluTryAssert (c : Nat) (s : State) : State :=
  let x := clu s c
  if x.resetting && decide (x.power = .run) && (clusterThreads c).all (fun t => !(th s t).pendKill) then
    let s0 := setFld (setSlots s c []) (Reg.CLU_LYFLUSH c) F.CLU_LYFLUSH_busy 0
    let s1 := coresReset c (updClu s0 c (fun x => { x with resetting := false, inReset := true, lyrOps := [], lyrFlush := none }))
    forEach (clusterThreads c) (threadReset false) (clustat c 1 (bump s1 Reg.CRS_CNT F.CRS_CNT_clu_resets))
  else s

/-- A cluster leaves reset (R466): its threads enter START, or stay in RESET with no program; the event is raised but
for the first leaving after PORST_N. -/
def cluRelease (c : Nat) (s : State) : State :=
  let x := clu s c
  if x.inReset && !cluHeld s c && decide (x.power = .run) then
    let s1 := clustat c 0 (coresReset c (setClu s c { x with inReset := false, everRun := true }))
    let s2 := forEach (clusterThreads c) (threadReset false) s1
    if x.everRun then raise s2 1603 else s2
  else s

/-- Threads of the core of a thread. -/
def coreThreads (core : Nat) : List Nat := (List.range 8).map (fun i => core * 8 + i)

/-- What follows a completed kill: nothing, the reset of RESTART (1), of a core (2), or of a cluster (3). -/
def afterKill (t : Nat) (s : State) : State :=
  match (th s t).restart with
  | 1 => threadReset true t s
  | 2 => resetTogether (coreThreads (t / 8)) s
  | 3 => cluTryAssert (thCluster t) s
  | _ => s

/-- A thread shows KILLED (R133). -/
def killFinish (t : Nat) (s : State) : State :=
  if (th s t).pendKill && killDone s t then
    afterKill t (updTh s t (fun x => { x with state := .killed, pendKill := false, wait := .none }))
  else s

/-- Kills a group of threads for the reset of a core (2) or of a cluster (3). -/
def killGroup (k : Nat) (l : List Nat) (s : State) : State :=
  forEach l (fun t s =>
    let x := th s t
    let s1 := setTh s t { x with restart := k }
    if x.state = .killed ∨ x.state = .reset then s1 else killBegin t s1) s

/-- Kills and then resets the threads of a core (R134). -/
def coreGroupReset (l : List Nat) (s : State) : State := resetTogether l (killGroup 2 l s)

/-- A cluster whose reset is asked for is in RUN: its threads are killed at once, and the kills that owe nothing are
complete; reset is asserted when all are (R466). -/
def cluKillAll (c : Nat) (s : State) : State :=
  cluTryAssert c (forEach (clusterThreads c) killFinish (killGroup 3 (clusterThreads c) s))

/-- A cluster reset is asked for (R465–R467): none of a cluster in reset; one not in RUN is woken first. -/
def cluResetBegin (c : Nat) (s : State) : State :=
  let x := clu s c
  if x.inReset || x.resetting then s
  else
    let s1 := setClu s c { x with resetting := true }
    if x.power = .run then cluKillAll c s1 else requestWake false c s1

/-- A cluster reaches RUN (R464, R467): a reset asked for goes on, and a first wake ends the reset of PORST_N. -/
def cluWoken (c : Nat) (s : State) : State := if (clu s c).resetting then cluKillAll c s else cluRelease c s

/-! ## The commands of CLU_THCMD (R132) -/

def cmdKill (t : Nat) (s : State) : State :=
  let x := th s t
  if x.state = .killed ∨ x.state = .reset then badCmd t s else killBegin t s

/-- RESTART; of a thread in a cluster that is not in RUN it asks for a wake. -/
def cmdRestart (t : Nat) (s : State) : State :=
  let x := th s t
  let wake := fun (s : State) => if (clu s (thCluster t)).power = .run then s else requestWakeCmd (thCluster t) s
  match x.state with
  | .killed => wake (threadReset true t s)
  | .halted => wake (killBegin t (setTh s t { x with restart := 1 }))
  | .double => wake (killBegin t (setTh s t { x with restart := 1 }))
  | _ => badCmd t s

/-- SERVICE at a pc and privilege. -/
def cmdService (t pc priv : Nat) (s : State) : State :=
  let x := th s t
  if x.state ≠ .idle ∨ x.pendKill ∨ x.pendHalt ∨ !goodPc pc ∨ !(priv == 1 || priv == 2) then badCmd t s
  else
    let s1 := setTh s t { x with state := .service, pc := pc, csr := { x.csr with tstat := putF x.csr.tstat TS.priv priv } }
    if (clu s1 (thCluster t)).power = .run then s1 else requestWakeCmd (thCluster t) s1

def cmdSoftint (t : Nat) (s : State) : State :=
  let x := th s t
  if x.state = .killed ∨ x.state = .reset then badCmd t s else setTint t TS.sp s

/-- HALT: issue stops; a wait that an interrupt would end is abandoned (R125). -/
def cmdHalt (t : Nat) (s : State) : State :=
  let x := th s t
  if !(running x || decide (x.state = .idle)) then badCmd t s
  else setTh s t { x with pendHalt := true, wait := if inEnding x then x.wait else .none }

/-- RESUME: back to the prior state; an IDLE thread takes a full slot. -/
def cmdResume (t : Nat) (s : State) : State :=
  let x := th s t
  if x.state ≠ .halted ∨ x.pendKill then badCmd t s
  else takeNext (setTh s t { x with state := x.prior, prior := .idle }) t

def cmdWake (t : Nat) (s : State) : State :=
  let x := th s t
  if x.state = .killed ∨ x.state = .reset then badCmd t s else wakeThread s t

/-- A thread that HALT stopped has drained (R125, R132): not while a REPN runs or an ending is owed. -/
def haltFinish (t : Nat) (s : State) : State :=
  let x := th s t
  if !x.pendHalt || x.pendKill || inRepn x || inEnding x then s
  else if !(running x || decide (x.state = .idle)) then setTh s t { x with pendHalt := false }
  else returnSlots t (setTh s t { x with state := .halted, prior := x.state, pendHalt := false, wait := .none })

/-- A write of CLU_THCMD (R136). -/
def thCommand (t : Nat) (v : Word) (s : State) : State :=
  match bitsN v.toNat 3 0 with
  | 1 => cmdKill t s
  | 2 => cmdRestart t s
  | 3 => cmdService t (bitsN v.toNat 21 4) (bitsN v.toNat 23 22) s
  | 4 => cmdSoftint t s
  | 5 => cmdHalt t s
  | 6 => cmdResume t s
  | 7 => cmdWake t s
  | _ => s

/-- A write of CLU_CORE_RST (R134, R136). -/
def coreReset (c : Nat) (v : Word) (s : State) : State :=
  forEach (setBits 16 v.toNat) (fun k s => coreGroupReset (coreThreads (c * 16 + k)) s) s

/-- CLU_CTL.clr (R107). -/
def cluCtlClr (c : Nat) (s : State) : State :=
  [Reg.CLU_DVIOL c, Reg.CLU_LATE c, Reg.CLU_POSTERR c].foldl (fun s a => wr s a 0) s

/-! ## Rows -/

/-- A command that names a thread. -/
def onThread (t : Nat) (f : State → State) (s : State) : Out := if t < 3072 then .next (f s) else .refused .illFormed

/-- A command that names a cluster. -/
def onCluster (c : Nat) (f : State → State) (s : State) : Out := if c < 24 then .next (f s) else .refused .illFormed

def execKill (t : Nat) (s : State) : Out := onThread t (cmdKill t) s
def execKillComplete (t : Nat) (s : State) : Out := onThread t (killFinish t) s
def execRestart (t : Nat) (s : State) : Out := onThread t (cmdRestart t) s
def execService (t pc priv : Nat) (s : State) : Out :=
  if t < 3072 ∧ pc < 2 ^ 18 ∧ priv < 4 then .next (cmdService t pc priv s) else .refused .illFormed
def execSoftint (t : Nat) (s : State) : Out := onThread t (cmdSoftint t) s
def execHalt (t : Nat) (s : State) : Out := onThread t (cmdHalt t) s
def execThreadHalted (t : Nat) (s : State) : Out := onThread t (haltFinish t) s
def execResume (t : Nat) (s : State) : Out := onThread t (cmdResume t) s
def execWake (t : Nat) (s : State) : Out := onThread t (cmdWake t) s
def execCoreReset (c : Nat) (v : Word) (s : State) : Out := onCluster c (coreReset c v) s
def execCluCtlClr (c : Nat) (s : State) : Out := onCluster c (cluCtlClr c) s

end Sys2Proof.Machine
end

