-- ==== Sys2Proof/Machine/SpawnRows.lean ====
section
/-! DEFINITION. Spawn's rows: admission, grants, fills, cluster wakes and cluster power (R172, R178–R196). -/

namespace Sys2Proof.Machine

/-- DESCRIPTOR_ADMIT (R172, R199): the descriptor in the hold stage of unit `u` enters its queue. -/
def execDescriptorAdmit (u : Nat) (s : State) : Out :=
  match holdOf s u with
  | some d => .next (if canLetIn s d && admitTurn s d then letIn s d else s)
  | none => .next s

/-- SLOT_GRANT (R178–R180): the grants of one NCLK. -/
def execSlotGrant (s : State) : Out := .next (grantNclk s)

/-! ## Fills (R183, R184) -/

/-- Spawn ends a packet at Bridge as a DROP of its sequence (R184); its store entry frees when Bridge has it (R171, R200). -/
def spawnDrop (d : Desc) (s : State) : State :=
  let e : Ending := { rel := false, dest := 0, edit := 0, len := d.len,
                      win := winOf s [d.buf0, d.buf1, d.buf2] (d.flags.testBit flChain),
                      hash := d.hash, thread := noThread, sure := false }
  { s with bridge := { s.bridge with inbound := s.bridge.inbound ++ [(seqKey d.lane d.seq, e)] } }

/-- Writes the 320 bytes of a physical slot (R581). -/
def writeSlot (t k : Nat) (l : List Byte) (s : State) : State :=
  let c := thCluster t
  let g := (clu s c).gen
  let base := slotKey (t / 8) (t % 8) k 0
  { s with slotRam := (l.zipIdx).foldl (fun m e => Tab.put m (base + e.2) (g, e.1)) s.slotRam }

/-- What follows a fill: a slot that Spawn takes back returns, else an IDLE thread takes the packet (R185, R186). -/
def afterFill (t k : Nat) (back : Bool) (s : State) : State :=
  let x := th s t
  if back ∨ x.pendKill ∨ x.state = .killed ∨ x.state = .halted then bpUpdate (returnSlot t k s)
  else if x.pendHalt then s
  else takeNext s t

/-- The slot is filled with the descriptor and 256 header bytes. -/
def fillSlot (t k : Nat) (back : Bool) (d : Desc) (frame : List Byte) (s : State) : State :=
  afterFill t k back (updTh (writeSlot t k (descBytes d ++ frame ++ List.replicate (256 - frame.length) 0) s) t
    (fun x => setSlot x k (.full d)))

/-- SLOT_FILL_COMPLETE (R183, R184): the fill of physical slot `k` of thread `t` ends; `ecc` is the error of the tile's
read (3: of its check entry). Each fill sets hdr_bad and unchecked afresh (R170). -/
def execSlotFillComplete (t k ecc : Nat) (s : State) : Out :=
  if 3072 ≤ t ∨ 2 ≤ k ∨ 4 ≤ ecc then .refused .illFormed
  else
    match slotOf (th s t) k with
    | .filling d0 back =>
      let d := { d0 with flags := putN d0.flags flUnchecked flHdrBad 0 }
      let tile := tileAt (entryAddr d.buf0)
      if busyIn s tile 256 then .next s else
      let (v, s1) := tileRead s tile ecc
      if v.poison || v.bad then
        let s2 := raise (bump (tileFail 0 tile false (checkBad s1 tile) s1) Reg.SPN_CNT_CHK F.SPN_CNT_CHK_count) 481
        if flag s2 Reg.SPN_CTL F.SPN_CTL_chk_mode then
          .next (fillSlot t k back { d with flags := putN d.flags flHdrBad flHdrBad 1 } [] s2)
        else .next (bpUpdate (spawnDrop d (updTh s2 t (fun x => setSlot x k .empty))))
      else
        .next (fillSlot t k back { d with flags := putN d.flags flUnchecked flUnchecked (b2n !v.sealed) }
          (rdBytes s1.mem tile (min d.len 256)) s1)
    | _ => .next s

/-! ## Cluster wakes (R193, R194) -/

/-- Members of a group that run, wake or have a wake pending that QUIET does not bar (R18, R193). -/
def cluCounted (s : State) (c : Nat) : Bool :=
  let p := (clu s c).power
  decide (p = .run) || decide (p = .wakingG) || decide (p = .wakingP) ||
    s.spawn.wakes.any (fun w => w.cluster == c && !quietBars s w)

/-- Eligible members in the order of R193: GATED, PARKING, PARKED. -/
def eligible (s : State) (g : Nat) : List Nat :=
  let ms := allBelow 24 (fun c => (grpMask s g).testBit c && cluMode s c != 2 && !cluCounted s c)
  let at_ := fun (p : CPower) => ms.filter (fun c => decide ((clu s c).power = p))
  at_ .gated ++ at_ .parking ++ at_ .parked

/-- Wakes group `g` needs are requested; with no member running the first is a zero-run wake (R193). -/
def scanGroup (g : Nat) (s : State) : State :=
  let b := groupBacklog s g
  let r := (allBelow 24 (fun c => (grpMask s g).testBit c && cluCounted s c)).length
  let t0 := fld s (Reg.SPN_GRPWAKE g) F.SPN_GRPWAKE_thr
  let thr := if t0 = 0 then 65536 else t0
  let w := (b + thr - 1) / thr
  if grpWeight s g = 0 ∨ w ≤ r then s
  else
    match (eligible s g).take (w - r) with
    | [] => s
    | c :: cs => forEach cs (fun c s => requestWake false c s) (requestWake (r == 0) c s)

/-- WAKE_REQUEST_SCAN (R193): none in STANDBY or entering it (R192). -/
def execWakeRequestScan (s : State) : Out :=
  .next (if standing s then s else forEach (List.range 64) scanGroup s)

/-- A cluster wake starts (R189, R194), out of GATED where the cluster was still PARKING. -/
def startWake (c : Nat) (s : State) : State :=
  let s := abortParking c s
  let x := clu s c
  let p := if x.power = .parked then CPower.wakingP else .wakingG
  let s1 := setClu s c { x with power := p }
  let s2 := { s1 with spawn := { s1.spawn with
    wakes := s1.spawn.wakes.filter (fun w => w.cluster != c),
    starts := (s1.spawn.starts.filter (fun t => decide (s.now < t + 400))) ++ [s.now] } }
  bump (bump s2 Reg.SPN_CNT_WAKE F.SPN_CNT_WAKE_started) (Reg.CLU_PWRCNT c) F.CLU_PWRCNT_wakes

/-- WAKE_START (R194): the next pending wake, when fewer than two started in the last 400 NCLK. -/
def execWakeStart (s : State) : Out :=
  let ws := s.spawn.wakes.filter (fun w => !quietBars s w)
  match (ws.find? (fun w => w.zero)) <|> ws.head? with
  | none => .next s
  | some w => .next (if wakeWindowClear s then startWake w.cluster s else s)

/-- WAKE_PACED (R194): a wake that has waited 1 µs, once. -/
def execWakePaced (c : Nat) (s : State) : Out :=
  onCluster c (fun s =>
    if s.spawn.wakes.any (fun w => w.cluster == c && !w.paced) then
      raise (bump { s with spawn := { s.spawn with
        wakes := s.spawn.wakes.map (fun w => if w.cluster = c then { w with paced := true } else w) } }
        Reg.SPN_CNT_WAKE F.SPN_CNT_WAKE_paced) 484
    else s) s

/-! ## Gating and parking (R189–R192) -/

/-- The cluster is idle, nothing asks for it, and no reset holds its clocks on (R467). -/
def quietIdle (s : State) (c : Nat) : Bool :=
  cluIdle s c && !wakePending s c && !(clu s c).inReset && !(clu s c).resetting

/-- The device state or mode parks an idle cluster without gating it (R191, R192). -/
def parksDirectly (s : State) (c : Nat) : Bool :=
  standing s || (cluMode s c != 1 && (cluMode s c == 2 || fld s Reg.PWR_STATE F.PWR_STATE_cur == 2))

/-- CLUSTER_GATE (R189, R192): GATED in PROPORTIONAL; PARKING where the cluster parks directly; never in FULL. -/
def execClusterGate (c : Nat) (s : State) : Out :=
  onCluster c (fun s =>
    if (clu s c).power ≠ .run ∨ !quietIdle s c then s
    else if parksDirectly s c then cluPower c .parking s
    else if cluMode s c = 0 ∧ fld s Reg.PWR_STATE F.PWR_STATE_cur = 1 then
      bump (cluPower c .gated s) (Reg.CLU_PWRCNT c) F.CLU_PWRCNT_gates
    else s) s

/-- CLUSTER_PARK_DECISION (R189): an idle GATED cluster; park_time 0 means never. -/
def execClusterParkDecision (c : Nat) (s : State) : Out :=
  onCluster c (fun s =>
    if (clu s c).power ≠ .gated ∨ !quietIdle s c then s
    else if parksDirectly s c ∨ (cluMode s c = 0 ∧ fld s Reg.PWR_STATE F.PWR_STATE_cur = 1 ∧
        fld s Reg.SPN_POLICY F.SPN_POLICY_park_time ≠ 0) then cluPower c .parking s
    else s) s

/-- Power is removed from a PARKING cluster; its Lyre context slots are written back (R189). -/
def parkDone (c : Nat) (s : State) : State :=
  let s1 := setSlots (forEach (cluSlots s c) (fun x s => saveSlot c x s) s) c []
  bump (cluPower c .parked s1) (Reg.CLU_PWRCNT c) F.CLU_PWRCNT_parks

/-- PARKING_COMPLETE (R189). -/
def execParkingComplete (c : Nat) (s : State) : Out :=
  onCluster c (fun s => if (clu s c).power = .parking then parkDone c s else s) s

/-- An idle cluster that mode 2 or the device state parks at once (R191, R192). -/
def parkAtOnce (c : Nat) (s : State) : State :=
  let p := (clu s c).power
  if parksDirectly s c && quietIdle s c && (decide (p = .gated) || (decide (p = .run) && (cluMode s c == 2 || standing s)))
  then cluPower c .parking s else s

/-- A write of CLU_PWRCTL (R191, R197): 3 is ignored; mode 1 asks for a wake of a cluster that is not in RUN. -/
def pwrctlWrite (c : Nat) (v : Word) (s : State) : State :=
  let m := bitsN v.toNat 1 0
  if m = 3 then s
  else
    let s1 := parkAtOnce c (orphanCheck (setFld s (Reg.CLU_PWRCTL c) F.CLU_PWRCTL_mode m))
    if m = 1 then requestWakeCmd c s1 else s1

def execCluPwrctlWrite (c : Nat) (v : Word) (s : State) : Out := onCluster c (pwrctlWrite c v) s

/-- SPN_CTL.clr (R196). -/
def spnClr (s : State) : State :=
  let s1 := wr (wr s Reg.SPN_CNT_CHK 0) Reg.SPN_CNT_WAKE 0
  let s2 := forEach (List.range 24) (fun c s => wr s (Reg.CLU_PWRCNT c) 0) s1
  let s3 := forEach (List.range 1024) (fun q s => setFld s (Reg.SPN_QSTAT q) F.SPN_QSTAT_hwm 0) s2
  setFld s3 Reg.SPN_STORESTAT F.SPN_STORESTAT_min_free (fld s3 Reg.SPN_STORESTAT F.SPN_STORESTAT_free)

def execSpnCtlClr (s : State) : Out := .next (spnClr s)

end Sys2Proof.Machine
end

