-- ==== Sys2Proof/Machine/BridgeRows.lean ====
section
/-! DEFINITION. Bridge's rows: endings, retirement, holds, turns and passes (R208–R221). -/

namespace Sys2Proof.Machine

/-- ENDING_ARRIVAL (R208): the oldest ending handed off reaches Bridge. -/
def execEndingArrival (s : State) : Out :=
  match s.bridge.inbound with
  | [] => .next s
  | (key, e) :: r => .next (bpUpdate (endingArrives key e { s with bridge := { s.bridge with inbound := r } }))

/-- LANE_RETIREMENT (R209): the retirements of one NCLK. -/
def execLaneRetirement (s : State) : Out := .next (retireNclk s)

/-- LANE_HOLD_EXPIRY (R212): the hold timer of the head of lane `l` expires. -/
def execLaneHoldExpiry (l : Nat) (s : State) : Out :=
  if 65536 ≤ l then .refused .illFormed else .next (skipHead l s)

/-- BRG_TURN_READ (R215, R217): a committed LDF48 of BRG_TURN reaches Bridge and waits for its condition; with no packet
it completes with ERROR, and one that timed out leaves nothing. -/
def execBrgTurnRead (id : Nat) (s : State) : Out :=
  match opOf s id with
  | none => .next s
  | some o =>
    match o.kind with
    | .load ea _ _ =>
      match regionOf ea with
      | .csr off =>
        if off < Reg.BRG_TURN 0 ∨ Reg.BRG_TURN 3 < off then .next s
        else if o.late then .next (dropOp s id)
        else
          match (th s o.thread).pkt with
          | some d => .next (updOp s id (fun o => { o with kind := .turn ((off - Reg.BRG_TURN 0) / 8) d.lane d.seq }))
          | none => .next (complete o 3 0 s)
      | _ => .next s
    | _ => .next s

/-- TURN_COMPLETE (R215): the turn condition of a waiting read holds; one that timed out is no longer at Bridge. -/
def execTurnComplete (id : Nat) (s : State) : Out :=
  match opOf s id with
  | none => .next s
  | some o =>
    match o.kind with
    | .turn k l sq =>
      if o.late then .next (dropOp s id)
      else if turnHolds s k l sq || o.dead then .next (complete o 0 (turnWord s l sq) s)
      else .next s
    | _ => .next s

/-- A stamped sequence that is not retired. -/
def laneHolds (s : State) (l sq : Nat) : Bool :=
  decide ((sq + 2 ^ 24 - laneHead s l) % 2 ^ 24 < (laneNext s l + 2 ^ 24 - laneHead s l) % 2 ^ 24)

/-- An earlier pass of the same thread is still on its way (R216: passes apply in commit order). -/
def earlierPass (s : State) (o : AsyncOp) : Bool :=
  s.ops.any (fun p => p.thread == o.thread && decide (p.id < o.id) && match p.kind with
    | .pass _ _ _ => true
    | _ => false)

/-- BRG_PASS (R216): the pass of a committed STF48 applies. -/
def execBrgPass (id : Nat) (s : State) : Out :=
  match opOf s id with
  | none => .next s
  | some o =>
    match o.kind with
    | .pass k l sq =>
      if earlierPass s o then .next s
      else .next (complete o 0 0 (if laneHolds s l sq then passPoint k l sq s else s))
    | _ => .next s

def execBrgCtlClr (s : State) : Out := .next (brgClr s)

end Sys2Proof.Machine
end

