-- ==== Sys2Proof/Machine/EgressOps.lean ====
section
/-! DEFINITION. What egress does for every destination (R20, R207, R226–R228): departures in queue order, the read and
verification of a departure's tiles, and its completion. -/

namespace Sys2Proof.Machine

/-- Departures toward a destination word, oldest first. -/
def egressQ (s : State) (dest : Nat) : List Depart := Tab.get [] s.bridge.egress dest

/-- Removes the oldest departure toward a destination word. -/
def egressPop (dest : Nat) (s : State) : State :=
  { s with bridge := { s.bridge with egress := Tab.set [] s.bridge.egress dest ((egressQ s dest).drop 1) } }

/-- Verification of one tile at egress: a failed one is counted, an open one transmitted unverified is counted apart
(R227, R228). `true` is a failure. -/
def egressTile (link : Bool) (ecc tile : Nat) (s : State) : Bool × State :=
  let (v, s1) := tileRead s tile ecc
  if v.poison || v.bad then (true, tileFail 3 tile link (checkBad s1 tile) s1)
  else if !v.sealed && !link then (false, bump s1 Reg.BPM_UNCHK F.BPM_UNCHK_count)
  else (false, s1)

/-- Verification of tiles in order; `ecc` is the error of the first one's read. -/
def egressTiles (link : Bool) : Nat → List Nat → State → Bool × State
  | _, [], s => (false, s)
  | ecc, tl :: r, s =>
    let (a, s1) := egressTile link ecc tl s
    let (b, s2) := egressTiles link 0 r s1
    (a || b, s2)

/-- A departure's reads wait for a unit in RETRAINING (R330). -/
def departWaits (s : State) (d : Depart) : Bool :=
  (linksFor d.win.links (windowIdx d.win.data (d.off + d.len - 1)) ++ windowTiles d.win.data d.off d.len).any (busyIn s · 256)

/-- Egress reads a departure: whether its check failed, and its bytes. A failed link tile fails the departure. -/
def egressRead (d : Depart) (ecc : Nat) (s : State) : Bool × List Byte × State :=
  let data := d.win.data
  let links := linksFor d.win.links (windowIdx data (d.off + d.len - 1))
  let (lb, s1) := egressTiles true (if links.isEmpty then 0 else ecc) links s
  let (tb, s2) := egressTiles false (if links.isEmpty then ecc else 0) (windowTiles data d.off d.len) s1
  (lb || tb, windowBytes s2 data d.off d.len, s2)

end Sys2Proof.Machine
end

