-- ==== Sys2Proof/Machine/TableOps.lean ====
section
/-! DEFINITION. The table engines and the update unit (R249–R276): entries, versions and parity, lookup, insertion and
relocation, commands, learning and ageing. -/

namespace Sys2Proof.Machine

/-! ## Tables and entries (R249–R254) -/

def tKind (s : State) (t : Nat) : Nat := fld s (Reg.TBL_T_CFG t) F.TBL_T_CFG_kind
def tKeyBytes (s : State) (t : Nat) : Nat := fld s (Reg.TBL_T_CFG t) F.TBL_T_CFG_key_bits / 8
def tActBytes (s : State) (t : Nat) : Nat := fld s (Reg.TBL_T_CFG t) F.TBL_T_CFG_action_bits / 8
def tBuckets (s : State) (t : Nat) : Nat := 2 ^ fld s (Reg.TBL_T_CFG t) F.TBL_T_CFG_log2n
def tBase (s : State) (t : Nat) : Nat := (rd s (Reg.TBL_T_BASE t)).toNat

/-- Entry bits of R252. -/
def eValid : Nat := 2 ^ 127
def eHit : Nat := 2 ^ 126
def eStatic : Nat := 2 ^ 125
def eQuar : Nat := 2 ^ 124

def isValid (e : Nat) : Bool := e.testBit 127
def isHit (e : Nat) : Bool := e.testBit 126
def isStatic (e : Nat) : Bool := e.testBit 125
def isQuar (e : Nat) : Bool := e.testBit 124
/-- A slot in use: valid or quarantined (R252). -/
def isUsed (e : Nat) : Bool := isValid e || isQuar e

/-- The parity bit j of R252. -/
def parityBit (e j : Nat) : Bool :=
  Bool.xor (Bool.xor ((127 % 4 == j) && isValid e) ((125 % 4 == j) && isStatic e))
    ((List.range 29).foldl (fun b i => Bool.xor b (decide (4 * i + j < 116) && e.testBit (4 * i + j))) false)

def parityOf (e : Nat) : Nat := (List.range 4).foldl (fun n j => n + b2n (parityBit e j) * 2 ^ j) 0

/-- An entry with its parity and version nibble. -/
def sealEntry (e nib : Nat) : Nat := putN (putN e 119 116 (parityOf e)) 123 120 nib

def parityGood (e : Nat) : Bool := bitsN e 119 116 == parityOf e

def entryAddrOf (s : State) (t : Nat) (l : Loc) : Nat := tBase s t + l.bucket * 64 + l.slot * 16

/-- The entry at a location; one on a retired unit is as good as quarantined: it matches nothing and is not free (R335). -/
def entryAt (s : State) (t : Nat) (l : Loc) : Nat :=
  if 8 ≤ l.slot then Tab.get 0 s.tbl.stash (t * 8 + (l.slot - 8))
  else if retiredAt s (entryAddrOf s t l) then eQuar
  else memNat s (entryAddrOf s t l) 16

def keyOf (s : State) (t e : Nat) : List Byte := leBytes (tKeyBytes s t) e
def actOf (s : State) (t e : Nat) : Nat := e / 256 ^ tKeyBytes s t % 256 ^ tActBytes s t

/-- Stores an entry as it stands; a stash entry also shows in its three registers (R280). -/
def storeEntry (s : State) (t : Nat) (l : Loc) (e : Nat) : State :=
  if 8 ≤ l.slot then
    let i := l.slot - 8
    let s1 := { s with tbl := { s.tbl with stash := Tab.set 0 s.tbl.stash (t * 8 + i) e } }
    wr (wr (wr s1 (Reg.TBL_STASH t i 0) (toW (e % 2 ^ 48))) (Reg.TBL_STASH t i 1) (toW (e / 2 ^ 48 % 2 ^ 48)))
      (Reg.TBL_STASH t i 2) (toW (e / 2 ^ 96))
  else (memWrite s (entryAddrOf s t l) (leBytes 16 e)).2

/-- Version of a bucket: the ver nibbles of its slots; of the stash: TBL_T_STASHV (R254). -/
def versionOf (s : State) (t : Nat) (l : Loc) : Nat :=
  if 8 ≤ l.slot then fld s (Reg.TBL_T_STASHV t) F.TBL_T_STASHV_ver
  else (List.range 4).foldl (fun n k => n + bitsN (entryAt s t ⟨l.bucket, k⟩) 123 120 * 16 ^ k) 0

/-- Quarantined entries now, and its field, which reads 0xFFF while 4,095 or more (R279). -/
def setQuar (s : State) (t n : Nat) : State :=
  setFld { s with tbl := { s.tbl with quarN := Tab.set 0 s.tbl.quarN t n } } (Reg.TBL_T_COUNT t) F.TBL_T_COUNT_quar
    (min n 0xFFF)

def quarNow (s : State) (t : Nat) : Nat := Tab.get 0 s.tbl.quarN t

/-- Present counts of TBL_T_COUNT after a slot went from `a` to `b`. -/
def countEntry (s : State) (t : Nat) (l : Loc) (a b : Nat) : State :=
  let r := Reg.TBL_T_COUNT t
  let s1 := setFld s r F.TBL_T_COUNT_count (fld s r F.TBL_T_COUNT_count + b2n (isUsed b) - b2n (isUsed a))
  let s2 := if 8 ≤ l.slot then
      setFld s1 r F.TBL_T_COUNT_stash (fld s1 r F.TBL_T_COUNT_stash + b2n (isUsed b) - b2n (isUsed a)) else s1
  setQuar s2 t (quarNow s2 t + b2n (isQuar b) - b2n (isQuar a))

/-- The bits whose change moves the version (R254). -/
def mainBits (e : Nat) : Nat × Bool × Bool × Bool := (e % 2 ^ 116, isValid e, isStatic e, isQuar e)

/-- One single-slot write of the update unit (R254); on a retired unit it is lost (R333). -/
def putEntry (s : State) (t : Nat) (l : Loc) (e : Nat) : State :=
  let old := entryAt s t l
  let s0 := { s with tbl := { s.tbl with last := some l } }
  if l.slot < 8 ∧ retiredAt s (entryAddrOf s t l) then s0
  else if mainBits old = mainBits e then storeEntry s0 t l (sealEntry (putN old 126 126 (b2n (isHit e))) (bitsN old 123 120))
  else
    let v := (versionOf s0 t l + 1) % 65536
    let s1 := countEntry s0 t l old e
    if 8 ≤ l.slot then setFld (storeEntry s1 t l (sealEntry e 0)) (Reg.TBL_T_STASHV t) F.TBL_T_STASHV_ver v
    else
      (List.range 4).foldl (fun s k =>
        let x := if k = l.slot then e else entryAt s1 t ⟨l.bucket, k⟩
        let nib := v / 16 ^ k % 16
        storeEntry s t ⟨l.bucket, k⟩ (if k = l.slot then sealEntry x nib else putN x 123 120 nib)) s1

/-- Sets the hit bit of a location (R255). -/
def setHit (t : Nat) (l : Loc) (s : State) : State := storeEntry s t l (putN (entryAt s t l) 126 126 1)

/-- Candidate buckets of a key (R253). -/
def bucketsOf (s : State) (t : Nat) (key : List Byte) : List Nat :=
  let h := fun (a : Nat) => crc32c 0xFFFFFFFF (leBytes 6 (rd s a).toNat ++ key) % tBuckets s t
  let b0 := h (Reg.TBL_T_SEED0 t)
  let b1 := h (Reg.TBL_T_SEED1 t)
  if b0 = b1 then [b0] else [b0, b1]

def bucketLocs (b : Nat) : List Loc := (List.range 4).map (fun k => ⟨b, k⟩)
def stashLocs : List Loc := (List.range 8).map (fun k => ⟨0, 8 + k⟩)

/-! ## Parity and quarantine (R263, R335) -/

/-- A parity error is counted, recorded and raised. -/
def parityReport (t : Nat) (l : Loc) (s : State) : State :=
  let s1 := bump s (Reg.TBL_T_STAT t) F.TBL_T_STAT_parity
  raise (wr s1 Reg.TBL_LASTPAR (toW (2 ^ 47 + t * 2 ^ 42 + l.slot * 2 ^ 38 + l.bucket % 2 ^ 28))) 608

/-- Quarantines an entry with bad parity. -/
def quarantine (t : Nat) (l : Loc) (s : State) : State :=
  parityReport t l (putEntry s t l (putN (entryAt s t l) 124 124 1))

/-- A bucket whose read returns poison (R335): four errors; on a unit not retired all four slots are rewritten
quarantined. -/
def poisonBucket (t b : Nat) (s : State) : State :=
  let a := tBase s t + b * 64
  let s1 := forEach (bucketLocs b) (parityReport t) (memReadCheck s a 64 0).2
  if retiredAt s a then s1
  else
    let n := (bucketLocs b).countP (fun l => isUsed (entryAt s t l))
    let q := (bucketLocs b).countP (fun l => isQuar (entryAt s t l))
    let e := sealEntry eQuar 0
    let s2 := (memWrite s1 a (leBytes 16 e ++ leBytes 16 e ++ leBytes 16 e ++ leBytes 16 e)).2
    let r := Reg.TBL_T_COUNT t
    setQuar (setFld s2 r F.TBL_T_COUNT_count (fld s2 r F.TBL_T_COUNT_count + 4 - n)) t (quarNow s2 t + 4 - q)

/-- The bucket's read returns poison. -/
def bucketPoisoned (s : State) (t b : Nat) : Bool :=
  let a := tBase s t + b * 64
  retiredAt s a || poisoned s a 64

/-- Reads a bucket or the stash as a lookup or the update unit does: poison and bad parity are dealt with. -/
def checkLocs (t : Nat) (ls : List Loc) (s : State) : State :=
  forEach ls (fun l s =>
    let e := entryAt s t l
    if isValid e && !isQuar e && !parityGood e then quarantine t l s else s) s

def checkBucket (t b : Nat) (s : State) : State :=
  if bucketPoisoned s t b then poisonBucket t b s else checkLocs t (bucketLocs b) (memTouch s (tBase s t + b * 64))

/-- The read of one location by the update unit. -/
def checkLoc (t : Nat) (l : Loc) (s : State) : State :=
  if 8 ≤ l.slot then checkLocs t [l] s else checkBucket t l.bucket s

/-- Matches of a key in search order (R253, R255), after the checks. -/
def matchesOf (s : State) (t : Nat) (key : List Byte) : List Loc :=
  let bs := (bucketsOf s t key).filter (fun b => !bucketPoisoned s t b)
  (bs.flatMap bucketLocs ++ stashLocs).filter (fun l =>
    let e := entryAt s t l
    isValid e && !isQuar e && parityGood e && keyOf s t e == key)

def checkKey (t : Nat) (key : List Byte) (s : State) : State :=
  checkLocs t stashLocs (forEach (bucketsOf s t key) (checkBucket t) s)

/-! ## Prefix tables (R264–R266) -/

def prefixesOf (s : State) (t : Nat) : Tab Prefix := Tab.get [] s.tbl.prefixes t
def setPrefixes (s : State) (t : Nat) (l : Tab Prefix) : State :=
  { s with tbl := { s.tbl with prefixes := Tab.set [] s.tbl.prefixes t l } }

/-- Address width of a prefix table. -/
def pfxBits (s : State) (t : Nat) : Nat := if tKind s t = 2 then 32 else 128

def pfxMatches (bits a : Nat) (p : Prefix) : Bool := a / 2 ^ (bits - p.len) == p.addr / 2 ^ (bits - p.len)

/-- The first read of a record with bad parity quarantines it and reports. -/
def pfxQuar (t : Nat) (ps : Tab Prefix) (s : State) : State :=
  forEach (ps.filter (fun e => e.2.bad && !e.2.quar)) (fun e s =>
    let s1 := setPrefixes s t (Tab.put (prefixesOf s t) e.1 { e.2 with quar := true })
    parityReport t ⟨e.1, 0⟩ (setQuar s1 t (quarNow s1 t + 1))) s

/-- Prefix lookup: status and action. -/
def pfxLookup (s : State) (t a : Nat) : Nat × Word × State :=
  let bits := pfxBits s t
  let ps := prefixesOf s t
  let hits := ps.filter (fun e => pfxMatches bits a e.2)
  let damaged := ps.filter (fun e => e.2.bad || e.2.quar)
  let hurt := hits.filter (fun e => e.2.bad || e.2.quar)
  if hurt ≠ [] then (1, 0, pfxQuar t hurt s)
  else
    let best := hits.foldl (fun (b : Option Prefix) e => match b with
      | none => some e.2
      | some p => if p.len < e.2.len then some e.2 else b) none
    match best with
    | none => (1, 0, s)
    | some p =>
      let (meets, s1) := if damaged.isEmpty then (false, s) else choose s false [true]
      if meets then (1, 0, pfxQuar t damaged s1) else (0, toW p.action, s1)

/-! ## Lookup (R255) -/

/-- The location last touched for a command's report is not moved by `f` (R278). -/
def keepLast (s : State) (s1 : State) : State := { s1 with tbl := { s1.tbl with last := s.tbl.last } }

/-- The outside's error of the read of a key's first bucket: 1 corrected, 2 uncorrectable (R315, R335). -/
def lookupError (s : State) (t : Nat) (key : List Byte) (ecc : Nat) : State :=
  let a := tBase s t + (bucketsOf s t key).headD 0 * 64
  if tKind s t ≠ 1 then s
  else if ecc = 1 then mcError s a false
  else if ecc = 2 ∧ !poisoned s a 1 then { s with poison := s.poison ++ [a / 64] }
  else s

/-- LKUP: status and action. -/
def lookup (s : State) (t : Nat) (key : List Byte) : Nat × Word × State :=
  if tKind s t = 0 then (3, 0, s)
  else if s.tbl.held.contains t then (1, 0, s)
  else if tKind s t = 1 then
    let s1 := keepLast s (checkKey t key s)
    match matchesOf s1 t key with
    | [] => (1, 0, s1)
    | l :: r =>
      let acts := ((l :: r).map (fun x => actOf s1 t (entryAt s1 t x))).eraseDups
      let s2 := forEach (l :: r) (setHit t) s1
      let (a, s3) := choose s2 (acts.getD 0 0) (acts.drop 1)
      (0, toW a, s3)
  else pfxLookup s t (beNat key)

/-- The update unit and the sweeps wait while a unit of a table's memory is in RETRAINING (R330; log 95). -/
def tableWaits (s : State) (t : Nat) : Bool :=
  match (regionOf (tBase s t)).mc with
  | some (m, _) => tKind s t == 1 && (List.range 32).any (fun u => unitState s m u == 4)
  | none => false

/-! ## Insertion (R258–R261) -/

def firstFreeSlot (s : State) (t b : Nat) : Option Loc :=
  if bucketPoisoned s t b then none else (bucketLocs b).find? (fun l => !isUsed (entryAt s t l))

/-- The other candidate bucket of the entry at a location. -/
def otherBucket (s : State) (t : Nat) (l : Loc) : Option Nat :=
  let e := entryAt s t l
  if !isValid e || isQuar e then none
  else
    match bucketsOf s t (keyOf s t e) with
    | [b0, b1] => some (if l.bucket = b0 then b1 else b0)
    | _ => none

/-- One level of the breadth-first search: paths (last entry first) and the buckets seen; a path with its free slot, or
the next level. A bucket the search comes to is read, and checked as any read of the update unit (R263, R335). -/
def bfsLevel (t : Nat) : List (List Loc) → List Nat → List (List Loc) → State →
    Option (List Loc × Loc) × List (List Loc) × List Nat × State
  | [], seen, next, s => (none, next.reverse, seen, s)
  | p :: ps, seen, next, s =>
    match p.head?.bind (otherBucket s t) with
    | none => bfsLevel t ps seen next s
    | some b =>
      if seen.contains b then bfsLevel t ps seen next s
      else
        let s1 := checkBucket t b s
        match firstFreeSlot s1 t b with
        | some f => (some (p, f), [], seen, s1)
        | none =>
          bfsLevel t ps (b :: seen) (if bucketPoisoned s1 t b then next else ((bucketLocs b).map (fun l => l :: p)).reverse ++ next) s1

/-- The shortest path of at most `n` moves. -/
def bfs (t : Nat) : Nat → List (List Loc) → List Nat → State → Option (List Loc × Loc) × State
  | 0, _, _, s => (none, s)
  | n + 1, front, seen, s =>
    match bfsLevel t front seen [] s with
    | (some r, _, _, s1) => (some r, s1)
    | (none, next, seen1, s1) => bfs t n next seen1 s1

/-- The pending writes after the first one of a path em … e1 (given last first) to free slot f: each e(j) into the old
slot of e(j+1), then the new entry into the old slot of e1. -/
def pathSteps (img : Nat) : List Loc → Loc → List TStep
  | [], _ => []
  | [e], f => [.shift e f none img]
  | e :: d :: r, f => .shift e f (some d) 0 :: pathSteps img (d :: r) e

/-- Records the relocation moves of the last insert. -/
def noteMoves (s : State) (t m : Nat) : State :=
  bumpWrapBy (setFld s Reg.TBL_CMD_STAT F.TBL_CMD_STAT_steps m) (Reg.TBL_T_MOVES t) F.TBL_T_MOVES_steps m

/-- Insert of an entry whose key is absent: `false` is FULL. -/
def insertEntry (s : State) (t e : Nat) : Bool × State :=
  let bs := bucketsOf s t (keyOf s t e)
  let s0 := noteMoves s t 0
  match bs.findSome? (firstFreeSlot s0 t) with
  | some l => (true, putEntry s0 t l e)
  | none =>
    let path := max 1 (fld s0 Reg.TBL_CTL F.TBL_CTL_max_path)
    match bfs t path ((bs.flatMap bucketLocs).map (fun l => [l])) bs s0 with
    | (some (p, f), s0) =>
      let em := p.headD ⟨0, 0⟩
      let s1 := putEntry (noteMoves s0 t p.length) t f (entryAt s0 t em)
      (true, { s1 with tbl := { s1.tbl with steps := s1.tbl.steps ++ (pathSteps e p f).map (fun x => (t, x)) } })
    | (none, s0) =>
      match stashLocs.find? (fun l => !isUsed (entryAt s0 t l)) with
      | some l => (true, putEntry s0 t l e)
      | none => (false, raise s0 609)

/-- A freed bucket slot may be refilled from the stash (R261). -/
def refillSteps (t : Nat) (ls : List Loc) (s : State) : State :=
  let rs := (ls.filter (fun l => decide (l.slot < 8))).map (fun l => (t, TStep.refill l))
  { s with tbl := { s.tbl with steps := s.tbl.steps ++ rs } }

/-- The next pending write lands (R259, R261). -/
def stepLands (s : State) : State :=
  match s.tbl.steps with
  | [] => s
  | (t, .shift dst moved src img) :: r =>
    if tableWaits s t then s else
    let s0 := { s with tbl := { s.tbl with steps := r } }
    let s1 := if isHit (entryAt s0 t dst) then setHit t moved s0 else s0
    putEntry s1 t dst (match src with
      | some l => entryAt s1 t l
      | none => img)
  | (t, .refill dst) :: r =>
    if tableWaits s t then s else
    let s0 := { s with tbl := { s.tbl with steps := r } }
    if isUsed (entryAt s0 t dst) then s0
    else
      match stashLocs.find? (fun l =>
          let e := entryAt s0 t l
          isValid e && !isQuar e && (bucketsOf s0 t (keyOf s0 t e)).contains dst.bucket) with
      | none => s0
      | some l =>
        let s1 := putEntry s0 t dst (entryAt s0 t l)
        let s2 := bumpWrap s1 (Reg.TBL_T_MOVES t) F.TBL_T_MOVES_steps
        { s2 with tbl := { s2.tbl with steps := (t, .clear (l.slot - 8)) :: s2.tbl.steps } }
  | (t, .clear i) :: r => putEntry { s with tbl := { s.tbl with steps := r } } t ⟨0, 8 + i⟩ 0

/-! ## Learning (R268–R274) -/

def candStat (s : State) : State :=
  let n := (s.tbl.queue.filter (fun q => decide (q ≠ .cmd))).length
  setFld (setFld (setFld s Reg.TBL_LRN_STAT F.TBL_LRN_STAT_depth n) Reg.TBL_LRN_STAT F.TBL_LRN_STAT_filter
    s.tbl.filter.length) Reg.TBL_LRN_STAT F.TBL_LRN_STAT_cand s.tbl.cands.length

/-- Removes the candidate of a key. -/
def dropCand (t : Nat) (key : List Byte) (s : State) : State :=
  candStat { s with tbl := { s.tbl with cands := s.tbl.cands.filter (fun c => !(c.table == t && c.key == key)) } }

def learnDepth (s : State) : Nat := (s.tbl.queue.filter (fun q => decide (q ≠ .cmd))).length

/-- The FIFO with one more learn: pushes of one NCLK go by rank, ingress ports first, then threads (R268). -/
def enqueue (q : List UpdItem) (i : UpdItem) (at_ rank : Nat) : List UpdItem :=
  let n := (q.reverse.takeWhile (fun x => match x with
    | .learn _ _ _ _ a r => a == at_ && decide (rank < r)
    | .cmd => false)).length
  q.take (q.length - n) ++ i :: q.drop (q.length - n)

/-- Pushes a learn; `false` when the FIFO of 4,096 is full (R268). -/
def pushLearn (s : State) (t : Nat) (key : List Byte) (a : Nat) (pushed : Bool) (rank : Nat) : Bool × State :=
  if 4096 ≤ learnDepth s then (false, s)
  else (true, candStat { s with tbl := { s.tbl with queue := enqueue s.tbl.queue (.learn t key a pushed s.now rank) s.now rank } })

/-- The learn table, if any. -/
def learnTable (s : State) : Option Nat := (List.range 32).find? (fun t => flag s (Reg.TBL_T_CFG t) F.TBL_T_CFG_learn)

/-- Learning is enabled on an Ethernet port. -/
def learnPort (s : State) (p : Nat) : Bool :=
  if p < 48 then (rd s Reg.TBL_LRN_PORTS0).toNat.testBit p else (rd s Reg.TBL_LRN_PORTS1).toNat.testBit (p - 48)

/-- The hardware learn check of a received frame (R269): `mac` the source MAC in wire order, `vid` the outer VLAN ID. -/
def hwLearn (port : Nat) (mac : List Byte) (vid : Nat) (s : State) : State :=
  match learnTable s with
  | none => s
  | some t =>
    if !flag s Reg.TBL_LRN_CTL F.TBL_LRN_CTL_en || !learnPort s port || (mac.getD 0 0).toNat % 2 == 1 then s
    else
      let key := mac ++ beBytes 2 (vid % 4096)
      let a := putN (rd s Reg.TBL_LRN_ACT).toNat 5 0 port % 256 ^ tActBytes s t
      let s1 := if s.tbl.held.contains t then s else keepLast s (checkKey t key s)
      let ms := if s.tbl.held.contains t then [] else matchesOf s1 t key
      let s2 := forEach ms (setHit t) s1
      if ms.any (fun l => actOf s1 t (entryAt s1 t l) == a || isStatic (entryAt s1 t l)) then s2
      else if s2.tbl.filter.length < 256 ∧ s2.tbl.filter.contains (key, a) then s2
      else
        let room := decide (s2.tbl.filter.length < 256)
        match pushLearn s2 t key a room port with
        | (true, s3) =>
          if room then candStat { s3 with tbl := { s3.tbl with filter := s3.tbl.filter ++ [(key, a)] } } else s3
        | (false, s3) =>
          let was := fld s3 Reg.TBL_LRN_CNT0 F.TBL_LRN_CNT0_dropped
          let s4 := bump s3 Reg.TBL_LRN_CNT0 F.TBL_LRN_CNT0_dropped
          if was = 0 then raise s4 610 else s4

/-- Entry image of a key, an action and the static bit, hit 1. -/
def mkEntry (s : State) (t : Nat) (key : List Byte) (a : Nat) (st : Bool) : Nat :=
  leNat key + a % 256 ^ tActBytes s t * 256 ^ tKeyBytes s t + eValid + eHit + b2n st * eStatic

def holddownNs (s : State) : Nat :=
  let h := fld s Reg.TBL_LRN_CTL F.TBL_LRN_CTL_holddown
  (if h = 0 then 65536 else h) * 1000

/-- Replaces the action of the entry at a location, hit 1. -/
def setAction (s : State) (t : Nat) (l : Loc) (a : Nat) (st : Bool) : State :=
  putEntry s t l (mkEntry s t (keyOf s t (entryAt s t l)) a st)

/-- A committed move (R274). -/
def stationMove (t : Nat) (l : Loc) (key : List Byte) (a : Nat) (s : State) : State :=
  let old := actOf s t (entryAt s t l)
  let s1 := dropCand t key (setAction s t l a false)
  let s2 := bump s1 Reg.TBL_LRN_CNT1 F.TBL_LRN_CNT1_moves
  let s3 := wr s2 Reg.TBL_LASTMOVE0 (toW (leNat (key.take 6)))
  raise (wr s3 Reg.TBL_LASTMOVE1 (toW (2 ^ 47 + old % 256 * 2 ^ 24 + a % 256 * 2 ^ 16 + leNat ((key.drop 6).take 2)))) 611

/-- Records a candidate, if the store of 256 has room (R273). -/
def recordCand (t : Nat) (key : List Byte) (a : Nat) (s : State) : State :=
  let s1 := dropCand t key s
  if 256 ≤ s1.tbl.cands.length then bump s1 Reg.TBL_LRN_CNT1 F.TBL_LRN_CNT1_nocand
  else candStat { s1 with tbl := { s1.tbl with
    cands := s1.tbl.cands ++ [{ table := t, key := key, action := a, time := domNow s1 }] } }

/-- One learn is applied (R271). -/
def applyLearn (t : Nat) (key : List Byte) (a : Nat) (s : State) : State :=
  let s0 := checkKey t key s
  match (matchesOf s0 t key).head? with
  | none =>
    match insertEntry s0 t (mkEntry s0 t key a false) with
    | (true, s1) => dropCand t key (bump s1 Reg.TBL_LRN_CNT0 F.TBL_LRN_CNT0_inserted)
    | (false, s1) => dropCand t key (bump s1 (Reg.TBL_T_STAT t) F.TBL_T_STAT_fail)
  | some l =>
    let e := entryAt s0 t l
    if isStatic e || actOf s0 t e == a then setHit t l s0
    else
      match s0.tbl.cands.find? (fun c => c.table == t && c.key == key && c.action == a) with
      | none => recordCand t key a s0
      | some c => if holddownNs s0 ≤ domNow s0 - c.time then stationMove t l key a s0 else s0

/-! ## Commands (R267) -/

/-- Statuses of TBL_CMD_STAT. -/
def tOk : Nat := 0
def tExists : Nat := 1
def tNotFound : Nat := 2
def tFull : Nat := 3
def tBad : Nat := 4
def tMemErr : Nat := 5

def cmdTable (s : State) : Nat := fld s Reg.TBL_CMD F.TBL_CMD_table
def cmdOp (s : State) : Nat := fld s Reg.TBL_CMD F.TBL_CMD_op
def cmdPlen (s : State) : Nat := fld s Reg.TBL_CMD F.TBL_CMD_plen
def cmdLoc (s : State) : Loc := ⟨fld s Reg.TBL_CMD_LOC F.TBL_CMD_LOC_bucket, fld s Reg.TBL_CMD_LOC F.TBL_CMD_LOC_slot⟩
/-- The 128-bit image of D0–D2. -/
def cmdImg (s : State) : Nat :=
  (rd s Reg.TBL_CMD_D0).toNat + (rd s Reg.TBL_CMD_D1).toNat * 2 ^ 48 + (rd s Reg.TBL_CMD_D2).toNat % 2 ^ 32 * 2 ^ 96

/-- Puts an image in D0–D2. -/
def putImg (s : State) (e : Nat) : State :=
  wr (wr (wr s Reg.TBL_CMD_D0 (toW (e % 2 ^ 48))) Reg.TBL_CMD_D1 (toW (e / 2 ^ 48 % 2 ^ 48))) Reg.TBL_CMD_D2
    (toW (e / 2 ^ 96 % 2 ^ 32))

/-- Address of a prefix command: bytes of the image in network order. -/
def cmdAddr (s : State) (t : Nat) : Nat := beNat (leBytes (pfxBits s t / 8) (cmdImg s))

/-- Puts an address into D0–D2. -/
def putAddr (s : State) (t a : Nat) : State := putImg s (leNat (beBytes (pfxBits s t / 8) a))

/-- An image with a bit set beyond key and action. -/
def imgBad (s : State) (t img : Nat) : Bool := decide (256 ^ (tKeyBytes s t + tActBytes s t) ≤ img % 2 ^ 116)

def imgKey (s : State) (t img : Nat) : List Byte := leBytes (tKeyBytes s t) img
def imgEntry (s : State) (t img : Nat) : Nat := mkEntry s t (imgKey s t img) (actOf s t (img % 2 ^ 116)) (isStatic img)

/-- SET of one image: OK or FULL. -/
def setImage (t img : Nat) (s : State) : Nat × State :=
  let key := imgKey s t img
  let s0 := checkKey t key s
  match (matchesOf s0 t key).head? with
  | some l => (tOk, setAction s0 t l (actOf s0 t (img % 2 ^ 116)) (isStatic img))
  | none =>
    match insertEntry s0 t (imgEntry s0 t img) with
    | (true, s1) => (tOk, s1)
    | (false, s1) => (tFull, s1)

/-- Bucket slots of a table that memory lists. -/
def usedLocs (s : State) (t : Nat) : List Loc :=
  let b := tBase s t
  let n := tBuckets s t * 64
  (((s.mem.filter (fun c => decide (b ≤ c.1) && decide (c.1 < b + n))).map (fun c => (c.1 - b) / 16)).eraseDups).map
    (fun i => ⟨i / 4, i % 4⟩)

/-- Clears locations and refills them from the stash. -/
def clearLocs (t : Nat) (ls : List Loc) (s : State) : State :=
  refillSteps t ls (forEach ls (fun l s =>
    dropCand t (keyOf s t (entryAt s t l)) (putEntry s t l 0)) s)

/-- The first free record index, any of them. -/
def freeRecord (s : State) (t : Nat) : Option Nat × State :=
  let ps := prefixesOf s t
  let n := tBuckets s t
  if n ≤ ps.length then (none, s)
  else
    let (w, s1) := draw s
    ((findFrom (fun i => (Tab.find? ps (i % n)).isNone) (ps.length + 1) (w.toNat % n)).map (· % n), s1)

def pfxCount (s : State) (t : Nat) : State :=
  setFld s (Reg.TBL_T_COUNT t) F.TBL_T_COUNT_count (prefixesOf s t).length

/-- The image breaks a rule of R267 for its prefix: a length out of range, or a bit beyond it or beyond the address. -/
def pfxBad (s : State) (t : Nat) : Bool :=
  let bits := pfxBits s t
  decide (bits < cmdPlen s) || cmdAddr s t % 2 ^ (bits - cmdPlen s) != 0 || decide (2 ^ bits ≤ cmdImg s)

/-- Record of the command's prefix. -/
def pfxFind (s : State) (t : Nat) : Option (Nat × Prefix) :=
  List.find? (fun e => e.2.len == cmdPlen s && e.2.addr == cmdAddr s t) (prefixesOf s t)

def cmdAction (s : State) (t : Nat) : Nat := (rd s Reg.TBL_CMD_ACT).toNat % 256 ^ tActBytes s t

/-- An image read from a retired unit: the spec gives it no value (log 92). -/
def freeImage (s : State) : Nat × State :=
  let (x, s1) := draw s
  let (y, s2) := draw s1
  let (z, s3) := draw s2
  (x.toNat + y.toNat * 2 ^ 48 + z.toNat % 2 ^ 32 * 2 ^ 96, s3)

/-- Buckets of a table with a poisoned line. -/
def poisonedBuckets (s : State) (t : Nat) : List Nat :=
  (s.poison.filter (fun u => decide (tBase s t ≤ u * 64) && decide (u * 64 < tBase s t + 64 * tBuckets s t))).map
    (fun u => (u * 64 - tBase s t) / 64)

/-- Effect of the command in TBL_CMD (R267); answers its status. BULK_SET starts and answers none. -/
def runCommand (s : State) : Option Nat × State :=
  let t := cmdTable s
  let op := cmdOp s
  let img := cmdImg s
  let l := cmdLoc s
  let exact := tKind s t == 1
  let pfx := tKind s t == 2 || tKind s t == 3
  let locBad := !(decide (8 ≤ l.slot) || (decide (l.slot < 4) && decide (l.bucket < tBuckets s t)))
  let key := imgKey s t img
  if (decide (1 ≤ op) && decide (op ≤ 8) && !exact) || (decide (9 ≤ op) && decide (op ≤ 12) && !pfx) || decide (12 < op) then
    (some tBad, s)
  else
    match op with
    | 1 =>
      if imgBad s t img then (some tBad, s)
      else
        let s0 := checkKey t key s
        if (matchesOf s0 t key) ≠ [] then (some tExists, s0)
        else
          match insertEntry s0 t (imgEntry s0 t img) with
          | (true, s1) => (some tOk, s1)
          | (false, s1) => (some tFull, s1)
    | 2 =>
      if imgBad s t img then (some tBad, s)
      else
        let (st, s1) := setImage t img s
        (some st, s1)
    | 3 =>
      if imgBad s t img then (some tBad, s)
      else
        let s0 := checkKey t key s
        match matchesOf s0 t key with
        | [] => (some tNotFound, s0)
        | ms => (some tOk, clearLocs t ms s0)
    | 4 =>
      if imgBad s t img then (some tBad, s)
      else
        let s0 := checkKey t key s
        match (matchesOf s0 t key).head? with
        | none => (some tNotFound, s0)
        | some m =>
          let s1 := putImg s0 (entryAt s0 t m)
          (some tOk, { (wr s1 Reg.TBL_CMD_LOC (toW (m.bucket * 16 + m.slot))) with tbl := { s1.tbl with last := some m } })
    | 5 =>
      if locBad then (some tBad, s)
      else
        let s0 := checkLoc t l s
        let (e, s1) := if decide (l.slot < 4) && bucketPoisoned s0 t l.bucket then freeImage s0 else (entryAt s0 t l, s0)
        let s2 := setFld (putImg s1 e) Reg.TBL_CMD_STAT F.TBL_CMD_STAT_quar (b2n (isQuar e))
        (some tOk, { s2 with tbl := { s2.tbl with last := some l } })
    | 6 =>
      if locBad || imgBad s t img then (some tBad, s)
      else
        (some tOk, putEntry s t l (img % 2 ^ 116 + b2n (isValid img) * eValid + b2n (isStatic img) * eStatic + eHit))
    | 7 =>
      let all := flag s Reg.TBL_CMD F.TBL_CMD_all
      let bs := ((usedLocs s t).map (fun l => l.bucket) ++ poisonedBuckets s t).eraseDups
      let s0 := checkLocs t stashLocs (forEach bs (checkBucket t) s)
      let ls := (bs.flatMap bucketLocs ++ stashLocs).filter (fun l =>
        let e := entryAt s0 t l
        isUsed e && !(decide (l.slot < 4) && bucketPoisoned s0 t l.bucket) && (all || (!isStatic e && !isQuar e)))
      (some tOk, clearLocs t ls s0)
    | 8 =>
      (none, { s with tbl := { s.tbl with bulk := some ((rd s Reg.TBL_CMD_D0).toNat, 0, (rd s Reg.TBL_CMD_D1).toNat % 2 ^ 32) } })
    | 9 =>
      if pfxBad s t then (some tBad, s)
      else
        match pfxFind s t with
        | some (i, p) => (some tOk, setPrefixes s t (Tab.put (prefixesOf s t) i { p with action := cmdAction s t }))
        | none =>
          match freeRecord s t with
          | (none, s1) => (some tFull, s1)
          | (some i, s1) =>
            let p : Prefix := { len := cmdPlen s, addr := cmdAddr s t, action := cmdAction s t, quar := false, bad := false }
            (some tOk, pfxCount (setPrefixes s1 t (Tab.put (prefixesOf s1 t) i p)) t)
    | 10 =>
      if pfxBad s t then (some tBad, s)
      else
        match pfxFind s t with
        | none => (some tNotFound, s)
        | some (i, p) =>
          let s1 := pfxCount (setPrefixes s t (Tab.del i (prefixesOf s t))) t
          (some tOk, if p.quar then setQuar s1 t (quarNow s1 t - 1) else s1)
    | 11 =>
      if tBuckets s t ≤ l.bucket then (some tBad, s)
      else
        match Tab.find? (prefixesOf s t) l.bucket with
        | none => (some tNotFound, s)
        | some p =>
          (some tOk, wr (setFld (putAddr s t p.addr) Reg.TBL_CMD F.TBL_CMD_plen p.len) Reg.TBL_CMD_ACT (toW p.action))
    | _ =>
      if tBuckets s t ≤ l.bucket || pfxBad s t then (some tBad, s)
      else
        let p : Prefix := { len := cmdPlen s, addr := cmdAddr s t, action := cmdAction s t, quar := false, bad := false }
        let was := (Tab.find? (prefixesOf s t) l.bucket).any (fun q => q.quar)
        let s1 := pfxCount (setPrefixes s t (Tab.put (prefixesOf s t) l.bucket p)) t
        (some tOk, if was then setQuar s1 t (quarNow s1 t - 1) else s1)

/-- BULK_SET goes on while no relocation is under way (R267); `fuel` bounds the images. -/
def bulkRun : Nat → State → State
  | 0, s => s
  | n + 1, s =>
    match s.tbl.bulk with
    | none => s
    | some (a, i, k) =>
      let fin := fun (st : Nat) (s : State) => { s with tbl := { s.tbl with bulk := none, result := some st } }
      let fail := fun (st : Nat) (s : State) => fin st (setFld s Reg.TBL_CMD_LOC F.TBL_CMD_LOC_bucket i)
      if s.tbl.steps ≠ [] then s
      else if k ≤ i then fin tOk s
      else if busyIn s (a + 16 * i) 16 then s
      else if !populated s (a + 16 * i) || !populated s (a + 16 * i + 15) then fail tMemErr s
      else
        let t := cmdTable s
        let (bad, s) := memReadCheck s (a + 16 * i) 16 0
        if bad then fail tMemErr s else
        let img := memNat s (a + 16 * i) 16
        if imgBad s t img then fail tBad s
        else
          match setImage t img s with
          | (0, s1) => bulkRun n { s1 with tbl := { s1.tbl with bulk := some (a, i + 1, k) } }
          | (st, s1) => fail st s1

/-- The next item of the order that no hold sets aside (R270). -/
def nextItem (s : State) : Option UpdItem :=
  s.tbl.queue.find? (fun q => match q with
    | .learn t _ _ _ _ _ => !s.tbl.held.contains t
    | .cmd => !s.tbl.held.contains (cmdTable s))

/-- Runs the command when it is next and nothing is under way. -/
def unitRun (s : State) : State :=
  if s.tbl.steps ≠ [] ∨ tableWaits s (cmdTable s) then s
  else
    match s.tbl.bulk with
    | some (_, _, k) => bulkRun (k + 1) s
    | none =>
      if nextItem s ≠ some .cmd then s
      else
        match runCommand { s with tbl := { s.tbl with queue := s.tbl.queue.erase .cmd, last := none } } with
        | (some st, s1) => { s1 with tbl := { s1.tbl with result := some st } }
        | (none, s1) => bulkRun ((rd s Reg.TBL_CMD_D1).toNat % 2 ^ 32 + 1) s1

/-- A write of TBL_CMD (R267): ignored while busy; a non-zero op starts the command at its place in the order. -/
def tableCommand (w : Word) (s : State) : State :=
  if flag s Reg.TBL_CMD_STAT F.TBL_CMD_STAT_busy then s
  else
    let s1 := wr s Reg.TBL_CMD (w &&& 0xFFFC00F)
    if getF w F.TBL_CMD_op = 0 then s1
    else
      let s2 := setFld (setFld s1 Reg.TBL_CMD_STAT F.TBL_CMD_STAT_busy 1) Reg.TBL_CMD_STAT F.TBL_CMD_STAT_quar 0
      unitRun { s2 with tbl := { s2.tbl with queue := s2.tbl.queue ++ [.cmd], last := none } }

/-- The command completes: status, version, busy and event 613. -/
def commandDone (s : State) : State :=
  match s.tbl.result with
  | none => s
  | some st =>
    if s.tbl.steps ≠ [] then s
    else
      let v := match s.tbl.last with
        | some l => versionOf s (cmdTable s) l
        | none => fld s Reg.TBL_CMD_STAT F.TBL_CMD_STAT_ver
      let s1 := setFld (setFld (setFld s Reg.TBL_CMD_STAT F.TBL_CMD_STAT_status st) Reg.TBL_CMD_STAT F.TBL_CMD_STAT_ver v)
        Reg.TBL_CMD_STAT F.TBL_CMD_STAT_busy 0
      raise { s1 with tbl := { s1.tbl with result := none } } 613

/-- The update unit applies the next learn of the FIFO, if a learn is next (R270). -/
def learnNext (s : State) : State :=
  if s.tbl.steps ≠ [] ∨ s.tbl.bulk.isSome ∨ s.tbl.result.isSome then s
  else
    match nextItem s with
    | some (.learn t key a p n k) =>
      if tableWaits s t then s else
      let s1 := { s with tbl := { s.tbl with queue := s.tbl.queue.erase (.learn t key a p n k),
                                             filter := if p then s.tbl.filter.erase (key, a) else s.tbl.filter } }
      unitRun (candStat (applyLearn t key a s1))
    | _ => s

/-! ## Ageing (R275) -/

/-- The location a sweep of `n` buckets reaches at a position. -/
def sweepLoc (n pos : Nat) : Loc := if pos < 4 * n then ⟨pos / 4, pos % 4⟩ else ⟨0, 8 + (pos - 4 * n)⟩

/-- What the sweep does at a location it has read (R275). -/
def ageEntry (t : Nat) (l : Loc) (s : State) : State :=
  let e := entryAt s t l
  if !isValid e || isStatic e || isQuar e || (decide (l.slot < 4) && bucketPoisoned s t l.bucket) then s
  else if isHit e then storeEntry s t l (putN e 126 126 0)
  else
    let s1 := dropCand t (keyOf s t e) (putEntry s t l 0)
    let s2 := refillSteps t [l] (bump s1 (Reg.TBL_T_AGE t) F.TBL_T_AGE_aged)
    { s2 with tbl := { s2.tbl with aged := if s2.tbl.aged.contains t then s2.tbl.aged else s2.tbl.aged ++ [t] } }

/-- One step of the ageing sweep of a table; it waits while a relocation in the table is under way (R272). -/
def ageStep (t : Nat) (s : State) : State :=
  if tKind s t ≠ 1 || !flag s (Reg.TBL_T_CFG t) F.TBL_T_CFG_age_en || s.tbl.steps.any (fun x => x.1 == t) ||
      tableWaits s t then s
  else
    let n := tBuckets s t
    let pos := Tab.get 0 s.tbl.agePos t
    let l := sweepLoc n pos
    let s1 := keepLast s (ageEntry t l (if l.slot = 0 ∨ 8 ≤ l.slot then checkLoc t l s else s))
    if pos + 1 < 4 * n + 8 then { s1 with tbl := { s1.tbl with agePos := Tab.set 0 s1.tbl.agePos t (pos + 1) } }
    else
      let s2 := bumpWrap { s1 with tbl := { s1.tbl with agePos := Tab.set 0 s1.tbl.agePos t 0 } } (Reg.TBL_T_AGE t)
        F.TBL_T_AGE_sweeps
      if s2.tbl.aged.contains t then raise { s2 with tbl := { s2.tbl with aged := s2.tbl.aged.erase t } } 612 else s2

end Sys2Proof.Machine
end

