-- ==== Sys2Proof/Machine/EthOps.lean ====
section
/-! DEFINITION. The Ethernet ports' operations (R365–R382): receive checks, pause, transmit, timestamps, link states. -/

namespace Sys2Proof.Machine

def ethP (s : State) (p : Nat) : EthPort := Tab.get EthPort.reset s.eth p
def setEth (p : Nat) (v : EthPort) (s : State) : State := { s with eth := Tab.set EthPort.reset s.eth p v }

/-- The BPM port of the die a port lies on, by its lane group (R33, R237). -/
def ethDie (s : State) (p : Nat) : Nat :=
  match Tab.find? s.img.ports p with
  | some c => if c.group < 4 then portIoa else portIob
  | none => portIoa

/-- A saturating counter of a port. -/
def macSat (p k n : Nat) (s : State) : State := bumpBy s (Reg.MAC_CNT p k) F.MAC_CNT_count n
/-- A wrapping counter of a port. -/
def macWrap (p k n : Nat) (s : State) : State := bumpWrapBy s (Reg.MAC_CNT p k) F.MAC_CNT_count n

/-- Receive buffer of the port's mode in bytes (R365). -/
def rxBufSize (s : State) (p : Nat) : Nat :=
  match fld s (Reg.MAC_PSTAT p) F.MAC_PSTAT_mode with
  | 1 => 2 ^ 20
  | 2 => 2 ^ 19
  | 3 => 2 ^ 18
  | 4 => 2 ^ 17
  | _ => 2 ^ 16

/-- A frame in staging came from port `p`. -/
def stagedOf (p : Nat) (g : Staged) : Bool := g.srcKind == 0 && g.src % 64 == p

/-- Bytes the receive buffer of a port holds, FCS included (R584). -/
def rxHeld (s : State) (p : Nat) : Nat := (s.bpm.staged.filter (stagedOf p)).foldl (fun n g => n + g.bytes.length + 4) 0

/-- A lost frame: the first since a clear raises ETH_RX_LOSS (R381). -/
def rxOverflow (p : Nat) (s : State) : State :=
  let s1 := macSat p 5 1 s
  if fld s (Reg.MAC_CNT p 5) F.MAC_CNT_count = 0 then raise s1 (1152 + p) else s1

/-! ## Pause from the peer (R373, R374) -/

/-- MAC_RXPAUSE from the timers. -/
def showPause (p : Nat) (s : State) : State :=
  setFld s (Reg.MAC_RXPAUSE p) F.MAC_RXPAUSE_paused
    ((List.range 8).foldl (fun n c => n + b2n (Tab.get 0 (ethP s p).pause c != 0) * 2 ^ c) 0)

def setPause (p c q : Nat) (s : State) : State :=
  setEth p { ethP s p with pause := Tab.set 0 (ethP s p).pause c q } s

/-- A pause frame loads every class; a PFC frame those its enable bits name. The kind fc does not select is counted and
ignored. -/
def pauseReceive (p : Nat) (pfc : Bool) (mask : Nat) (quanta : List Nat) (s : State) : State :=
  if portFc s p = (if pfc then 2 else 1) then
    let s1 := if pfc then forEach (setBits 8 mask) (fun c s => setPause p c (quanta.getD c 0 % 65536) s) s
      else forEach (List.range 8) (fun c s => setPause p c (quanta.getD 0 0 % 65536) s) s
    macSat p 6 1 (showPause p s1)
  else macSat p 7 1 s

/-- A MAC control frame (R368): opcode 0x0001 or 0x0101, else bad. -/
def macControl (p : Nat) (l : List Byte) (s : State) : State :=
  let be := fun o => beNat ((l.drop o).take 2)
  if be 14 = 1 then pauseReceive p false 0 [be 16] s
  else if be 14 = 0x0101 then pauseReceive p true (be 16 % 256) ((List.range 8).map (fun c => be (18 + 2 * c))) s
  else macSat p 7 1 s

/-! ## Receive (R368–R370) -/

/-- Priority of a frame (R369). -/
def ethPrio (s : State) (p : Nat) (l : List Byte) : Nat :=
  if isTag l 12 then
    let pcp := beNat ((l.drop 14).take 2) / 8192
    bitsN (fld s (Reg.MAC_PRIMAP p) F.MAC_PRIMAP_prio) (3 * pcp + 2) (3 * pcp)
  else fld s (Reg.MAC_PCFG p) F.MAC_PCFG_defprio

/-- 16-bit two's complement adjustment of a time. -/
def adjTime (t : Nat) (k : Int) : Nat := ((t : Int) + k).toNat % 2 ^ 64

/-- A whole frame at a port that is UP: `uncor` codewords of it were not correctable. -/
def frameReceive (p : Nat) (l : List Byte) (uncor : Nat) (s : State) : State :=
  let body := l.take (l.length - 4)
  let pool := (unitPool s (unitEth p 0)).getD 0
  if l.length < 64 then macSat p 2 1 s
  else if uncor ≠ 0 ∨ leNat (l.drop (l.length - 4)) ≠ crc32e body then macSat p 3 1 s
  else if fld s (Reg.MAC_PCFG p) F.MAC_PCFG_maxlen < l.length ∨ tooLong s pool body.length then macSat p 4 1 s
  else if beNat ((l.drop 12).take 2) = 0x8808 then macControl p l s
  else if rxBufSize s p < rxHeld s p + l.length then rxOverflow p s
  else
    let prio := ethPrio s p body
    let s1 := hwLearn p ((body.drop 6).take 6) ((parse body).vlan) (macWrap p 1 l.length (macWrap p 0 1 s))
    ingress { unit := ethUnit s p prio, pool := pool, port := ethDie s p, srcKind := 0, src := p + prio * 256, sub := 0,
              ts := adjTime (domNow s) (- sextN 16 (fld s (Reg.MAC_TSADJ p) F.MAC_TSADJ_rx)), stomp := false,
              bytes := body, bufs := [] } s1

/-! ## Transmit (R367, R374–R377) -/

/-- Destination word of a port's transmit class (R203). -/
def ethDest (p c : Nat) : Nat := 2 ^ 44 + c * 256 + p

/-- The highest class that holds a departure and satisfies a test (R375). -/
def topClass (s : State) (p : Nat) (ok : Nat → Bool) : Option Nat :=
  [7, 6, 5, 4, 3, 2, 1, 0].find? (fun c => ok c && !(egressQ s (ethDest p c)).isEmpty)

def classPaused (s : State) (p c : Nat) : Bool := Tab.get 0 (ethP s p).pause c != 0

/-- A transmit timestamp record (R377, R382). -/
def txtsPush (p : Nat) (d : Depart) (s : State) : State :=
  let rec_ := toW (2 ^ 47 + b2n d.child.isSome * 2 ^ 46 + d.child.getD 0 % 64 * 2 ^ 40 + d.key)
  let time := adjTime (domNow s) (sextN 16 (fld s (Reg.MAC_TSADJ p) F.MAC_TSADJ_tx))
  let x := ethP s p
  if 64 ≤ x.txts.length then macSat p 15 1 (setFld s (Reg.MAC_TXTSSTAT p) F.MAC_TXTSSTAT_ovf 1)
  else
    let s1 := setEth p { x with txts := x.txts ++ [(rec_, time)] } s
    raise (setFld s1 (Reg.MAC_TXTSSTAT p) F.MAC_TXTSSTAT_depth (x.txts.length + 1)) (1088 + p)

/-- The bytes on the wire: padded to 60, with the FCS or its complement (R376). -/
def wireFrame (l : List Byte) (stomp : Bool) : List Byte :=
  let body := l ++ List.replicate (60 - l.length) 0
  let f := crc32e body
  body ++ leBytes 4 (if stomp then 0xFFFFFFFF - f else f)

/-- One departure of a class leaves (R376). -/
def ethSend (p c ecc : Nat) (s : State) : State :=
  match egressQ s (ethDest p c) with
  | [] => s
  | d :: _ =>
    if departWaits s d then s else
    let (bad, bytes, s1) := egressRead d ecc (egressPop (ethDest p c) s)
    let w := wireFrame bytes bad
    let s2 := macWrap p 10 w.length (macWrap p 9 1 (emit s1 (.frame p w (!bad))))
    let s3 := if bad then macSat p 11 1 s2 else s2
    let s4 := if d.ts then txtsPush p d s3 else s3
    refDone d.key (ethDie s p) s4

/-- A departure of a class is dropped, counted in counter `k`. -/
def ethLose (p c k : Nat) (s : State) : State :=
  match egressQ s (ethDest p c) with
  | [] => s
  | d :: _ => refDone d.key (ethDie s p) (macSat p k 1 (egressPop (ethDest p c) s))

/-- The transmitter of a port takes the next departure (R367, R375). -/
def ethTransmit (p ecc : Nat) (s : State) : State :=
  if portUp s p then
    match topClass s p (fun c => !classPaused s p c) with
    | some c => ethSend p c ecc s
    | none => s
  else
    match topClass s p (fun _ => true) with
    | some c => ethLose p c 13 s
    | none => s

/-- A read of MAC_TXTS (R378). -/
def txtsPop (p : Nat) (s : State) : Word × State :=
  let x := ethP s p
  match x.txts with
  | [] => (0, s)
  | (r, t) :: q =>
    let s1 := setEth p { x with txts := q } s
    let s2 := wr (wr s1 (Reg.MAC_TXTS_LO p) (toW t)) (Reg.MAC_TXTS_HI p) (toW (t / 2 ^ 48))
    (r, setFld s2 (Reg.MAC_TXTSSTAT p) F.MAC_TXTSSTAT_depth q.length)

/-! ## Link states (R366) -/

def portState (s : State) (p : Nat) : Nat := fld s (Reg.MAC_PSTAT p) F.MAC_PSTAT_state

/-- Frames of a port under way are disposed of: `rx` frames still arriving at the MAC, the ones that wait for buffers,
and the one of class `cut` in transmission; and every pause timer clears. -/
def portDispose (p rx : Nat) (cut : Option Nat) (s : State) : State :=
  let waiting := s.bpm.staged.filter (stagedOf p)
  let s1 := { s with bpm := { s.bpm with staged := s.bpm.staged.filter (fun g => !stagedOf p g) } }
  let s2 := forEach waiting (fun g s => macSat p 8 1 (forEach g.bufs (fun a s => freeReq (ethDie s p) none a s) s)) s1
  let s3 := macSat p 8 rx s2
  let s4 := match cut with
    | some c => ethLose p c 14 s3
    | none => s3
  showPause p (setEth p { ethP s4 p with pause := [] } s4)

/-- A port's state changes; entry into and exit from UP raise ETH_LINK_CHANGE. -/
def portMove (p st : Nat) (s : State) : State :=
  let was := portState s p
  let s1 := setFld s (Reg.MAC_PSTAT p) F.MAC_PSTAT_state st
  if was ≠ st ∧ (was = 2 ∨ st = 2) then raise s1 (1024 + p) else s1

/-- Entry to HALF_RESET from UP. -/
def portHalf (p rx : Nat) (cut : Option Nat) (rfault : Bool) (s : State) : State :=
  if portState s p ≠ 2 then s
  else
    let a := Reg.MAC_PSTAT p
    let s1 := portDispose p rx cut (portMove p 3 s)
    let s2 := halfFlush (setFld s1 a F.MAC_PSTAT_half_reset 1)
    if rfault then setFld s2 a F.MAC_PSTAT_rfault 1
    else setFld (setFld s2 a F.MAC_PSTAT_pcs_lock 0) a F.MAC_PSTAT_fec_align 0

/-- Training completes, not before BOOT_SEAL (R43): UP, and one frame for the units asserted now (R371). -/
def portTrained (p : Nat) (s : State) : State :=
  if portState s p ≠ 1 ∨ !isSealed s then s
  else
    let a := Reg.MAC_PSTAT p
    let s1 := setFld (setFld (setFld s a F.MAC_PSTAT_pcs_lock 1) a F.MAC_PSTAT_fec_align 1) a F.MAC_PSTAT_rfault 0
    let s2 := portMove p 2 s1
    if (List.range 8).any (fun k => s2.spawn.asserted.contains (unitEth p k)) then sendPause p s2 else s2

/-- Writing 1 to half_reset re-arms the port (R366). -/
def portRearm (p : Nat) (s : State) : State :=
  if flag s (Reg.MAC_PSTAT p) F.MAC_PSTAT_half_reset then
    let s1 := setFld s (Reg.MAC_PSTAT p) F.MAC_PSTAT_half_reset 0
    if portState s1 p = 3 then portMove p 1 s1 else s1
  else s

/-- A write of MAC_PCFG (R371, R382): fc 3 is ignored and fc changes only while en was 0; maxlen below 64 is 64; en
starts training or disposes and disables. -/
def pcfgWrite (p rx : Nat) (cut : Option Nat) (v : Word) (s : State) : State :=
  let a := Reg.MAC_PCFG p
  if !portAssigned s p then s
  else
    let old := rd s a
    let was := getF old F.MAC_PCFG_en == 1
    let en := getF v F.MAC_PCFG_en == 1
    let fc := if was || getF v F.MAC_PCFG_fc == 3 then getF old F.MAC_PCFG_fc else getF v F.MAC_PCFG_fc
    let v1 := putF (putF v F.MAC_PCFG_fc fc) F.MAC_PCFG_maxlen (max 64 (getF v F.MAC_PCFG_maxlen))
    let s1 := wr s a (v1 &&& 0xFFFFF8000000)
    let s2 :=
      if en && !was then portMove p 1 s1
      else if !en && was then
        let up := portState s p == 2
        setFld (setFld (portMove p 0 (portDispose p (if up then rx else 0) (if up then cut else none) s1)) (Reg.MAC_PSTAT p) F.MAC_PSTAT_pcs_lock 0)
          (Reg.MAC_PSTAT p) F.MAC_PSTAT_fec_align 0
      else s1
    bpUpdate s2

/-- MAC_CTL.clr (R382). -/
def macClr (p : Nat) (s : State) : State := forEach (List.range 18) (fun k s => wr s (Reg.MAC_CNT p k) 0) s

end Sys2Proof.Machine
end

