-- ==== Sys2Proof/Machine/HostOps.lean ====
section
/-! DEFINITION. The host ports' operations (R340–R362): functions and their reset, MSI-X, queues, doorbells, receive
writes, the pool translation unit, mailboxes. -/

namespace Sys2Proof.Machine

/-! ## Functions and links -/

def linkPresent (s : State) (l : Nat) : Bool := (Tab.find? s.img.hlinks l).isSome

/-- Links of a port, as the image bifurcates it (R340). -/
def portWidth (s : State) (p : Nat) : Nat := (s.img.hlinks.filter (fun e => e.1 / 4 == p)).length

/-- Local agent of the physical function of a link (R340, R343). -/
def pfOf (s : State) (l : Nat) : Nat :=
  let w := portWidth s (l / 4)
  0x1000 + l / 4 * 256 + (if w ≤ 1 then 0 else if w = 2 then l % 4 * 128 else l % 4 * 64)

/-- Most VFs of a link's physical function (R343). -/
def maxVfs (s : State) (l : Nat) : Nat :=
  let w := portWidth s (l / 4)
  if w ≤ 1 then 255 else if w = 2 then 127 else 63

/-- A function and, for a physical function, all of its VFs (R346). -/
def fnFamily (s : State) (fn : Nat) : List Nat :=
  let l := hostLinkOfFn s fn
  if fn = pfOf s l then (List.range (fld s (Reg.HST_LINK l) F.HST_LINK_vfs + 1)).map (fun i => fn + i) else [fn]

/-- The function's interface to the host works: its link is up and it is enabled. -/
def txqWhere (s : State) (p : Word → Bool) : List Nat :=
  (s.csr.filter (fun e => decide (0x520000 ≤ e.1) && decide (e.1 < 0x540000) && e.1 % 0x20 == 8 && p e.2)).map
    (fun e => (e.1 - 0x520000) / 0x20)

def rxqWhere (s : State) (p : Word → Bool) : List Nat :=
  (s.csr.filter (fun e => decide (0x540000 ≤ e.1) && decide (e.1 < 0x560000) && e.1 % 0x20 == 0x10 && p e.2)).map
    (fun e => (e.1 - 0x540000) / 0x20)

def htx (s : State) (q : Nat) : HTxq := Tab.get HTxq.reset s.host.tx q
def hrx (s : State) (q : Nat) : HRxq := Tab.get HRxq.reset s.host.rx q
def setHtx (q : Nat) (v : HTxq) (s : State) : State :=
  { s with host := { s.host with tx := Tab.set HTxq.reset s.host.tx q v } }
def setHrx (q : Nat) (v : HRxq) (s : State) : State :=
  { s with host := { s.host with rx := Tab.set HRxq.reset s.host.rx q v } }

/-! ## MSI-X (R298, R344) -/

def vec (s : State) (fn v : Nat) : Vec := Tab.get Vec.reset s.host.vecs (fn * 2048 + v)
def setVec (fn v : Nat) (x : Vec) (s : State) : State :=
  { s with host := { s.host with vecs := Tab.set Vec.reset s.host.vecs (fn * 2048 + v) x } }

/-- Entries of a function's MSI-X table, as firmware set it. -/
def vecCount (s : State) (fn : Nat) : Nat := Tab.get 0 s.host.vecN fn

/-- Sets a function's table size, unless that takes the device past 16,384 entries (R344). -/
def setVecCount (fn n : Nat) (s : State) : State :=
  let others := (s.host.vecN.filter (fun e => e.1 != fn)).foldl (fun k e => k + e.2) 0
  if 2048 < n ∨ 16384 < others + n then s else { s with host := { s.host with vecN := Tab.set 0 s.host.vecN fn n } }

/-- Sends a vector, or sets the pending bit of a masked one. -/
def msix (fn v : Nat) (s : State) : State :=
  let x := vec s fn v
  if x.masked then setVec fn v { x with pend := true } s else emit s (.msix fn v)

/-- Writes dword `k` of a vector's table entry; unmasking a pending vector sends it (PRESUMED: the layout and this rule
are PCIe's). -/
def vecWrite (fn v k d : Nat) (s : State) : State :=
  let x := vec s fn v
  if vecCount s fn ≤ v then s
  else
  match k with
  | 0 => setVec fn v { x with addr := x.addr / 2 ^ 32 * 2 ^ 32 + d } s
  | 1 => setVec fn v { x with addr := x.addr % 2 ^ 32 + d * 2 ^ 32 } s
  | 2 => setVec fn v { x with data := d } s
  | _ =>
    let m := d.testBit 0
    if !m && x.pend then emit (setVec fn v { x with masked := m, pend := false } s) (.msix fn v)
    else setVec fn v { x with masked := m } s

/-- Dword `k` of a vector's table entry. -/
def vecRead (s : State) (fn v k : Nat) : Nat :=
  let x := vec s fn v
  if vecCount s fn ≤ v then 0
  else match k with
    | 0 => x.addr % 2 ^ 32
    | 1 => x.addr / 2 ^ 32
    | 2 => x.data
    | _ => b2n x.masked

/-! ## Function reset (R346) -/

/-- The frame in fetch is discarded; its requests stay outstanding (R346, R353). -/
def toOrphans (x : HTxq) : HTxq :=
  { x with fetch := none, orphans := x.orphans ++ (x.fetch.toList.map (fun f => f.tag)) }

/-- A transmit queue stops with a cause; its descriptors not fetched and its frame in fetch are discarded. -/
def txqStop (cause q : Nat) (s : State) : State :=
  let a := Reg.HST_TXQ_STAT q
  setHtx q { toOrphans (htx s q) with tail := fld s a F.HST_TXQ_STAT_head }
    (setFld (setFld s a F.HST_TXQ_STAT_state 0) a F.HST_TXQ_STAT_cause cause)

/-- Departures handed to egress for a function and not written are dropped and counted (R346). -/
def dropDepartures (fn : Nat) (s : State) : State :=
  let keys := (Tab.keys s.bridge.egress).filter (fun k => bitsN k 47 44 == 2 && bitsN k 13 0 == fn)
  forEach keys (fun k s =>
    let q := rxqOf s fn (bitsN k 31 16)
    let ds := egressQ s k
    let s1 := { s with bridge := { s.bridge with egress := Tab.set [] s.bridge.egress k [] } }
    forEach ds (fun d s => refDone d.key portIoa (match q with
      | some r => bump s (Reg.HST_RXQ_STAT r) F.HST_RXQ_STAT_nobuf
      | none => s)) s1) s

/-- Steps 1–5 of R346 for one function. -/
def fnResetOne (fn : Nat) (s : State) : State :=
  let s1 := dropDepartures fn s
  let s2 := forEach (txqWhere s1 (fun w => getF w F.HST_TXQ_CFG_func == fn && getF w F.HST_TXQ_CFG_en == 1)) (txqStop 3) s1
  let s3 := forEach (rxqWhere s2 (fun w => getF w F.HST_RXQ_CFG_func == fn && getF w F.HST_RXQ_CFG_en == 1))
    (fun q s => setHrx q HRxq.reset (setFld s (Reg.HST_RXQ_STAT q) F.HST_RXQ_STAT_state 0)) s2
  let s4 := { s3 with host := { s3.host with flr := if s3.host.flr.contains fn then s3.host.flr else s3.host.flr ++ [fn] } }
  let s5 := obxPump (holderReset (fun a => a == agentId s fn) s4)
  { s5 with host := { s5.host with vecs := s5.host.vecs.filter (fun e => e.1 / 2048 != fn) } }

/-- Reset of a function, of its VFs too when it is a physical function (R346). -/
def fnReset (fn : Nat) (s : State) : State := bpUpdate (raise (forEach (fnFamily s fn) fnResetOne s) 1296)

/-- The function counts as enabled again. -/
def fnAgain (p : Nat → Bool) (s : State) : State :=
  { s with host := { s.host with flr := s.host.flr.filter (fun f => !p f) } }

/-! ## Links (R347) -/

/-- Lanes of a link, as its port is bifurcated (R340). -/
def linkLanes (s : State) (l : Nat) : Nat :=
  let w := portWidth s (l / 4)
  if w ≤ 1 then 16 else if w = 2 then 8 else 4

/-- A training result that R341 and R342 support: no more lanes than the link has, flit mode at 64 GT/s, and CXL at 32 GT/s
in 68-byte flits or at 64 GT/s. -/
def trainingOk (s : State) (l cxl flit speed width : Nat) : Bool :=
  decide (width ≤ linkLanes s l) && (speed != 6 || flit == 1) && (cxl == 0 || (speed == 5 && flit == 0) || speed == 6)

/-- A host link comes up; HST_LINK.mld takes effect (R364). -/
def hostUp (l cxl flit speed width : Nat) (s : State) : State :=
  let a := Reg.HST_LINK l
  let rest := s.host.mld.filter (· != l)
  let s := { s with host := { s.host with mld := if flag s a F.HST_LINK_mld then rest ++ [l] else rest } }
  let s1 := setFld (setFld (setFld s a F.HST_LINK_up 1) a F.HST_LINK_cxl cxl) a F.HST_LINK_flit flit
  let s2 := setFld (setFld s1 a F.HST_LINK_speed speed) a F.HST_LINK_width width
  raise (fnAgain (fun f => hostLinkOfFn s f == l) s2) (1280 + l)

/-- A host link goes down: half-reset and the reset of its functions. -/
def hostDown (l : Nat) (s : State) : State :=
  let a := Reg.HST_LINK l
  if !flag s a F.HST_LINK_up then s
  else fnReset (pfOf s l) (halfFlush (raise (setFld (setFld s a F.HST_LINK_up 0) a F.HST_LINK_half_reset 1) (1280 + l)))

/-! ## Transmit queues (R348–R350) -/

def txqSize (s : State) (q : Nat) : Nat := 2 ^ fld s (Reg.HST_TXQ_CFG q) F.HST_TXQ_CFG_log2size
def txqHead (s : State) (q : Nat) : Nat := fld s (Reg.HST_TXQ_STAT q) F.HST_TXQ_STAT_head
def txqState (s : State) (q : Nat) : Nat := fld s (Reg.HST_TXQ_STAT q) F.HST_TXQ_STAT_state
def txqFn (s : State) (q : Nat) : Nat := fld s (Reg.HST_TXQ_CFG q) F.HST_TXQ_CFG_func

/-- The device writes the writeback word. -/
def txqWriteback (q : Nat) (s : State) : State :=
  emit s (.hostWrite (txqFn s q) ((rd s (Reg.HST_TXQ_BASE q)).toNat + txqSize s q * 16)
    (leBytes 4 (txqHead s q) ++ leBytes 4 (htx s q).credit))

/-- A queue is assigned to a host function: the device originates no reserved agent ID (R4). -/
def queueFn (fn : Nat) : Bool := decide (0x1000 ≤ fn) && decide (fn < 0x1400)

/-- A write of HST_TXQ_CFG (R349, R353, R364): while en is 1 only a write that clears en acts, and stops the queue, but
for one in ERROR, which leaves that only as en is set again. A queue of no host function is not enabled. -/
def txqCfgWrite (q : Nat) (v : Word) (s : State) : State :=
  let a := Reg.HST_TXQ_CFG q
  let en := getF v F.HST_TXQ_CFG_en == 1
  if flag s a F.HST_TXQ_CFG_en then
    if en then s
    else bpUpdate (setFld (if txqState s q = 2 then setHtx q (toOrphans (htx s q)) s else txqStop 0 q s) a F.HST_TXQ_CFG_en 0)
  else
    let s1 := wr s a (v &&& 0x1FFFF8FF3FFF)
    if !en ∨ !queueFn (getF v F.HST_TXQ_CFG_func) then s1
    else
      let s2 := wr (setFld s1 a F.HST_TXQ_CFG_en 1) (Reg.HST_TXQ_STAT q) (toW (2 ^ 46))
      let s3 := setHtx q { htx s q with tail := 0, credit := getF v F.HST_TXQ_CFG_credits, fetch := none } s2
      bpUpdate (txqWriteback q (fnAgain (fun f => f == getF v F.HST_TXQ_CFG_func) s3))

/-- A doorbell counts as rejected. -/
def dbReject (s : State) : State := raise (bump s Reg.HST_CNT F.HST_CNT_dbrej) 1300

/-- A transmit doorbell of a function's queue number with a tail (R349). -/
def txDoorbell (fn idx tail : Nat) (s : State) : State :=
  match (txqWhere s (fun w => getF w F.HST_TXQ_CFG_en == 1 && getF w F.HST_TXQ_CFG_func == fn &&
      getF w F.HST_TXQ_CFG_idx == idx)).head? with
  | none => s
  | some q =>
    let x := htx s q
    if txqState s q ≠ 1 then s
    else if (tail + 2 ^ 32 - txqHead s q) % 2 ^ 32 ≤ txqSize s q ∧ (x.credit + 2 ^ 32 - tail) % 2 ^ 32 < 2 ^ 31 then
      setHtx q { x with tail := tail } s
    else dbReject s

/-- A transmit queue enters ERROR; its frame in fetch is discarded. -/
def txqError (cause q : Nat) (s : State) : State :=
  let a := Reg.HST_TXQ_STAT q
  raise (setHtx q (toOrphans (htx s q)) (setFld (setFld s a F.HST_TXQ_STAT_state 2) a F.HST_TXQ_STAT_cause cause)) 1298

/-- The unit of a transmit queue is back-pressured. -/
def txqHeld (s : State) (q : Nat) : Bool := s.spawn.asserted.contains (unitHost q)

/-- The descriptors of a frame keep R348. -/
def txDescsOk (l : List TxDesc) : Bool :=
  let total := l.foldl (fun n d => n + d.len) 0
  l.all (fun d => decide (1 ≤ d.len) && decide (d.len ≤ 16384) && decide (d.flags < 2) && d.rsv == 0) &&
    decide (64 ≤ total) && decide (total ≤ 16384) &&
    (l.dropLast).all (fun d => d.flags == 0) && (match l.getLast? with
      | some d => d.flags == 1
      | none => false)

/-- Reads of `n` bytes at a host address: at most 4,096 bytes each (R341). -/
def hostReads (fn a n : Nat) (s : State) : State :=
  forEach (List.range ((n + 4095) / 4096)) (fun i s => emit s (.hostReadReq fn (a + 4096 * i) (min 4096 (n - 4096 * i)))) s

/-- Reads of `k` entries of 16 bytes of a ring from index `i`, going on at its start past its end. -/
def ringReads (fn base size i k : Nat) (s : State) : State :=
  let a := min k (size - i % size)
  hostReads fn base (16 * (k - a)) (hostReads fn (base + i % size * 16) (16 * a) s)

/-- Fetches of the functions of a link whose requests are outstanding: at most 1,024 of them (R341). -/
def linkOutstanding (s : State) (l : Nat) : Nat :=
  (s.host.tx.filter (fun e => hostLinkOfFn s (txqFn s e.1) == l)).foldl
    (fun n e => n + e.2.fetch.toList.length + e.2.orphans.length) 0

/-- The descriptors of a frame have been read (R350): bad ones stop the queue, else its data is read. -/
def txDescsDone (q : Nat) (f : TxFetch) (ds : List TxDesc) (s : State) : State :=
  if ds.length ≠ f.k then s
  else if !txDescsOk ds then
    let s1 := txqError 2 q s
    setHtx q { htx s1 q with orphans := (htx s1 q).orphans.filter (· != f.tag) } s1
  else forEach ds (fun d s => hostReads (txqFn s q) d.addr d.len s) (setHtx q { htx s q with fetch := some { f with descs := some ds } } s)

/-- The data of a frame has been read (R350): the head passes its descriptors, and the frame enters. -/
def txFetchDone (q : Nat) (f : TxFetch) (ds : List TxDesc) (data : List Byte) (s : State) : State :=
  if data.length ≠ ds.foldl (fun n d => n + d.len) 0 then s
  else
    let x := htx s q
    let head := (txqHead s q + f.k) % 2 ^ 32
    let s1 := setFld s (Reg.HST_TXQ_STAT q) F.HST_TXQ_STAT_head head
    let credit := if txqHeld s q then x.credit
      else (head + fld s (Reg.HST_TXQ_CFG q) F.HST_TXQ_CFG_credits) % 2 ^ 32
    let s2 := txqWriteback q (setHtx q { x with credit := credit, fetch := none } s1)
    let fn := txqFn s q
    let pool := (unitPool s (unitHost q)).getD 0
    if tooLong s2 pool data.length then s2
    else ingress { unit := unitHost q, pool := pool, port := portIoa, srcKind := 1, src := agentId s fn,
                   sub := fld s (Reg.HST_TXQ_CFG q) F.HST_TXQ_CFG_idx, ts := f.ts, stomp := false, bytes := data,
                   bufs := [] } s2

/-- A completion of fetch `tag` of a queue (R353): of its frame; of one discarded, which it ends; of one timed out, LATE. -/
def txComplete (q tag : Nat) (ds : List TxDesc) (data : List Byte) (s : State) : State :=
  let x := htx s q
  if x.lost.contains tag then bump (setHtx q { x with lost := x.lost.filter (· != tag) } s) Reg.HST_CNT F.HST_CNT_late
  else if x.orphans.contains tag then setHtx q { x with orphans := x.orphans.filter (· != tag) } s
  else
    match x.fetch with
    | none => s
    | some f =>
      if f.tag ≠ tag then s
      else match f.descs with
        | none => txDescsDone q f ds s
        | some l => txFetchDone q f l data s

/-- Fetch `tag` of a queue times out (R353): AER records it, and the queue whose frame it is enters ERROR. -/
def txTimeout (q tag : Nat) (s : State) : State :=
  let x := htx s q
  let l := hostLinkOfFn s (txqFn s q)
  let aer := fun (s : State) =>
    { s with host := { s.host with aer := if s.host.aer.contains l then s.host.aer else s.host.aer ++ [l] } }
  let gone := fun (s : State) => let y := htx s q
    setHtx q { y with orphans := y.orphans.filter (· != tag), lost := y.lost ++ [tag] } s
  if x.fetch.any (fun f => f.tag == tag) then gone (txqError 1 q (aer s))
  else if x.orphans.contains tag then gone (aer s)
  else s

/-! ## Receive queues (R351, R352) -/

def rxqSize (s : State) (q : Nat) : Nat := 2 ^ fld s (Reg.HST_RXQ_CFG q) F.HST_RXQ_CFG_log2size

/-- A write of HST_RXQ_CFG (R351, R364). -/
def rxqCfgWrite (q : Nat) (v : Word) (s : State) : State :=
  let a := Reg.HST_RXQ_CFG q
  let en := getF v F.HST_RXQ_CFG_en == 1
  if flag s a F.HST_RXQ_CFG_en then
    if en then s
    else setFld (setHrx q HRxq.reset (setFld s (Reg.HST_RXQ_STAT q) F.HST_RXQ_STAT_state 0)) a F.HST_RXQ_CFG_en 0
  else
    let s1 := wr s a (v &&& 0x1F0000FF3FFF)
    if !en ∨ !queueFn (getF v F.HST_RXQ_CFG_func) then s1
    else fnAgain (fun f => f == getF v F.HST_RXQ_CFG_func)
      (setHrx q HRxq.reset (setFld (setFld s1 a F.HST_RXQ_CFG_en 1) (Reg.HST_RXQ_STAT q) F.HST_RXQ_STAT_state 1))

/-- A receive doorbell (R351): the tests of R349 without credit. -/
def rxDoorbell (fn idx tail : Nat) (s : State) : State :=
  match rxqOf s fn idx with
  | none => s
  | some q =>
    let x := hrx s q
    if (tail + 2 ^ 32 - x.head) % 2 ^ 32 ≤ rxqSize s q then setHrx q { x with tail := tail } s else dbReject s

/-- Destination word of a function's receive queue (R203). -/
def hostDest (fn idx : Nat) : Nat := 2 * 2 ^ 44 + idx * 65536 + fn

/-- A completion entry (R351). -/
def rxCompletion (n len status phase hash ts : Nat) : List Byte :=
  leBytes 4 len ++ leBytes 1 status ++ leBytes 1 phase ++ leBytes 2 0 ++ leBytes 4 n ++ leBytes 4 hash ++ leBytes 8 ts ++
    leBytes 8 0

/-- The frame of the oldest departure of a queue is dropped for want of a buffer (R352). -/
def rxNoBuf (fn idx q : Nat) (d : Depart) (s : State) : State :=
  raise (refDone d.key portIoa (bump (egressPop (hostDest fn idx) s) (Reg.HST_RXQ_STAT q) F.HST_RXQ_STAT_nobuf)) 1299

/-- A departure is written into the next posted buffer (R351): its entry of the buffer ring is read, and names `addr` and
`blen` bytes. -/
def rxWrite (fn idx addr blen ecc : Nat) (s : State) : State :=
  match rxqOf s fn idx, egressQ s (hostDest fn idx) with
  | some q, d :: _ =>
    let x := hrx s q
    if x.head = x.tail then
      if fld s Reg.HST_RXHOLD F.HST_RXHOLD_limit = 0 then rxNoBuf fn idx q d s else s
    else if departWaits s d then s
    else
      let phase := b2n (x.head / rxqSize s q % 2 == 0)
      let entry := (rd s (Reg.HST_RXQ_CBASE q)).toNat + x.head % rxqSize s q * 32
      let s := ringReads fn (rd s (Reg.HST_RXQ_BASE q)).toNat (rxqSize s q) x.head 1 s
      let s1 := setHrx q { x with head := (x.head + 1) % 2 ^ 32 } (egressPop (hostDest fn idx) s)
      let s4 :=
        if blen < d.len then
          emit (bump s1 (Reg.HST_RXQ_STAT q) F.HST_RXQ_STAT_toolong)
            (.hostWrite fn entry (rxCompletion x.head 0 0 phase d.hash (domNow s1)))
        else
          let (bad, bytes, s2) := egressRead d ecc s1
          emit (emit s2 (.hostWrite fn addr bytes))
            (.hostWrite fn entry (rxCompletion x.head d.len (b2n bad) phase d.hash (domNow s2)))
      refDone d.key portIoa s4
  | _, _ => s

/-! ## Mailboxes (R345, R362) -/

/-- A function rings: HST_MBOXQ takes its local agent while it has room. -/
def mboxRing (fn : Nat) (s : State) : State :=
  let s1 := if s.host.mboxq.length < 1024 then { s with host := { s.host with mboxq := s.host.mboxq ++ [fn] } } else s
  raise s1 1301

def mboxqPop (s : State) : Word × State :=
  match s.host.mboxq with
  | [] => (0, s)
  | f :: r => (toW (2 ^ 47 + f), { s with host := { s.host with mboxq := r } })

/-- Writes bytes of a function's mailbox. -/
def mboxWrite (fn o : Nat) (l : List Byte) (s : State) : State :=
  { s with host := { s.host with mbox := (l.zipIdx).foldl (fun m e => Tab.set 0 m (fn * 256 + o + e.2) e.1) s.host.mbox } }

/-! ## The pool (R354–R361) -/

/-- A dword of an HDM decoder structure of a logical device: decoder k at dwords 4 + 8k (PRESUMED: CXL 3.1). -/
def hdmDw (s : State) (ld i : Nat) : Nat := Tab.get 0 s.host.hdm (ld * 64 + i)

/-- Decoder k: committed, base, size, ways as a power of two, granularity as a power of two, DPA skip. -/
structure Hdm where
  committed : Bool
  base : Nat
  size : Nat
  w : Nat
  g : Nat
  skip : Nat
deriving DecidableEq, Repr

def hdmAt (s : State) (ld k : Nat) : Hdm :=
  let r := fun i => hdmDw s ld (4 + 8 * k + i)
  { committed := (r 4).testBit 10, base := r 0 / 2 ^ 28 * 2 ^ 28 + r 1 * 2 ^ 32, size := r 2 / 2 ^ 28 * 2 ^ 28 + r 3 * 2 ^ 32,
    g := 8 + bitsN (r 4) 3 0, w := bitsN (r 4) 7 4, skip := r 5 / 2 ^ 28 * 2 ^ 28 + r 6 * 2 ^ 32 }

/-- Interleave ways and granularity that R342 supports, by their codes: 1 to 16 ways, 256 B to 16 KiB. -/
def hdmOk (v : Nat) : Bool := decide (bitsN v 7 4 ≤ 4) && decide (bitsN v 3 0 ≤ 6)

/-- Writes a dword of a decoder structure: commit sets committed, or its error bit for ways or a granularity R342 does not
support; and a locked decoder does not change (R342). -/
def hdmWrite (ld i v : Nat) (s : State) : State :=
  let k := (i - 4) / 8
  let ctl := hdmDw s ld (4 + 8 * k + 4)
  if i < 4 ∨ 36 ≤ i ∨ (ctl.testBit 8 ∧ ctl.testBit 10) then s
  else
    let v1 := if (i - 4) % 8 = 4 then putN v 11 10 (if !v.testBit 9 then 0 else if hdmOk v then 1 else 2) else v
    { s with host := { s.host with hdm := Tab.set 0 s.host.hdm (ld * 64 + i) (v1 % 2 ^ 32) } }

/-- DPA of a host physical address through the decoders of a logical device (R355). -/
def hdmDpa (s : State) (ld hpa : Nat) : Option Nat :=
  (List.range 4).findSome? (fun k =>
    let d := hdmAt s ld k
    if d.committed ∧ d.base ≤ hpa ∧ hpa < d.base + d.size then
      let lower := (List.range k).foldl (fun n j => let e := hdmAt s ld j; n + e.skip + e.size / 2 ^ e.w) 0
      let o := hpa - d.base
      some (lower + o / 2 ^ (d.g + d.w) * 2 ^ d.g + o % 2 ^ d.g)
    else none)

/-- A pool fault is recorded (R357). -/
def poolFault (kind wr_ ld dpa : Nat) (s : State) : State :=
  let r := toW (2 ^ 47 + kind * 2 ^ 45 + wr_ * 2 ^ 44 + ld * 2 ^ 36 + bitsN dpa 41 6)
  let s1 := if s.host.pfault.length < 64 then { s with host := { s.host with pfault := s.host.pfault ++ [r] } }
    else setFld s Reg.HST_PFSTAT F.HST_PFSTAT_ovf 1
  raise s1 1297

def pfaultPop (s : State) : Word × State :=
  match s.host.pfault with
  | [] => (0, s)
  | r :: q => (r, { s with host := { s.host with pfault := q } })

/-- An uncorrectable error of a pool read joins the poison list and the event log (R360). -/
def mediaError (ld dpa : Nat) (s : State) : State :=
  let l := Tab.get [] s.host.poisonList ld
  let l1 := if l.contains (dpa / 64) then l else l ++ [dpa / 64]
  { s with host := { s.host with poisonList := Tab.set [] s.host.poisonList ld l1,
                                 media := s.host.media ++ [{ ld := ld, retired := false, dpa := dpa }] } }

/-- Host link that presents a logical device. -/
def ldLink (s : State) (ld : Nat) : Nat := fld s (Reg.HST_LDCFG ld) F.HST_LDCFG_link

/-- CXL answers: 0 done, 1 poison, 2 not covered by a decoder, 3 Unsupported Request (R7: DDR5 that is not fitted). A
request to a unit in RETRAINING waits (R330): its row has no effect yet. -/
def cxlRead (ld dpa ecc : Nat) (s : State) : State :=
  let l := ldLink s ld
  let poisonAns := List.replicate 64 (0 : Byte)
  match poolEntry s ld dpa with
  | none => emit (poolFault 0 0 ld dpa s) (.cxl l 1 poisonAns)
  | some e =>
    if getF e F.HST_POOLMAP_rd = 0 then emit (poolFault 1 0 ld dpa s) (.cxl l 1 poisonAns)
    else
      let a := 0x100000000000 + getF e F.HST_POOLMAP_seg * 2 ^ 30 + dpa % 2 ^ 30 / 64 * 64
      if !populated s a then emit s (.cxl l 3 [])
      else if unitBusy s a then s
      else
        let (bad, s1) := memReadCheck s a 64 ecc
        if bad then emit (if retiredAt s a then s1 else mediaError ld dpa s1) (.cxl l 1 poisonAns)
        else emit s1 (.cxl l 0 (rdBytes s1.mem a 64))

/-- A 64-byte write of the enabled bytes. -/
def maskedWrite (a mask : Nat) (data : List Byte) (s : State) : State :=
  storeMem (memTouch s a) a ((rdBytes s.mem a 64).zipIdx.map (fun e => if mask.testBit e.2 then data.getD e.2 0 else e.1))

def cxlWrite (ld dpa mask : Nat) (data : List Byte) (s : State) : State :=
  let done := fun (s : State) => emit s (.cxl (ldLink s ld) 0 [])
  match poolEntry s ld dpa with
  | none => done (poolFault 0 1 ld dpa s)
  | some e =>
    if getF e F.HST_POOLMAP_wr = 0 then done (poolFault 2 1 ld dpa s)
    else
      let a := 0x100000000000 + getF e F.HST_POOLMAP_seg * 2 ^ 30 + dpa % 2 ^ 30 / 64 * 64
      if !populated s a then emit s (.cxl (ldLink s ld) 3 [])
      else if unitBusy s a then s
      else if retiredAt s a then done s
      else if mask = 2 ^ 64 - 1 then
        let l := (Tab.get [] s.host.poisonList ld).filter (· != dpa / 64)
        done { (memWrite s a (data.take 64)).2 with host := { s.host with poisonList := Tab.set [] s.host.poisonList ld l } }
      else done (maskedWrite a mask data s)

/-- A link presents a logical device (R354): one of several as an MLD, or the only one it has. -/
def ldShown (s : State) (ld : Nat) : Bool :=
  s.host.mld.contains (ldLink s ld) ||
    (List.range 16).all (fun d => d == ld || !flag s (Reg.HST_LDCFG d) F.HST_LDCFG_valid || ldLink s d != ldLink s ld)

/-- A CXL.mem request of a logical device (R355–R357); one accepted is traffic (R525). -/
def cxlRequest (ld hpa : Nat) (write : Bool) (mask : Nat) (data : List Byte) (ecc : Nat) (s : State) : State :=
  if !flag s (Reg.HST_LDCFG ld) F.HST_LDCFG_valid ∨ !ldShown s ld ∨ !flag s (Reg.HST_LINK (ldLink s ld)) F.HST_LINK_cxl ∨
      !flag s (Reg.HST_LINK (ldLink s ld)) F.HST_LINK_up then s
  else
    let s := { s with svc := { s.svc with traffic := true } }
    match hdmDpa s ld hpa with
    | none => emit s (.cxl (ldLink s ld) 2 [])
    | some dpa => if write then cxlWrite ld dpa mask data s else cxlRead ld dpa ecc s

/-- Commands of the CXL memory device mailbox and of the fabric management API that are supported (R342, R362), by their
CXL 3.1 opcodes (PRESUMED): Get and Clear Event Records, Identify Memory Device, Get Partition Info, Get Health Info, Get
Poison List; Get LD Info, Get and Set LD Allocations. -/
def cxlOps : List Nat := [0x0100, 0x0101, 0x4000, 0x4100, 0x4200, 0x4300, 0x5400, 0x5401, 0x5402]

/-- A command of a CXL link's mailbox (R362): it rings, and firmware answers Success (0), or Unsupported (0x15, PRESUMED:
CXL 3.1) to one that is not supported. Clear Event Records clears the records, here all of them. -/
def cxlCommand (l op : Nat) (s : State) : State :=
  let s1 := mboxRing (pfOf s l) s
  let s2 := if op = 0x0101 then { s1 with host := { s1.host with media := [] } } else s1
  emit s2 (.cxlCmd l op (if cxlOps.contains op then 0 else 0x15))

/-- HST_CTL.clr (R364). -/
def hstClr (s : State) : State :=
  let qs := (s.csr.filter (fun e => decide (0x540000 ≤ e.1) && decide (e.1 < 0x560000) && e.1 % 0x20 == 0x18)).map
    (fun e => e.1)
  forEach qs (fun a s => setFld (setFld s a F.HST_RXQ_STAT_nobuf 0) a F.HST_RXQ_STAT_toolong 0) (wr s Reg.HST_CNT 0)

end Sys2Proof.Machine
end

