-- ==== Sys2Proof/Machine/EventOps.lean ====
section
/-! DEFINITION. The event controller's operations (R296–R303): occurrences, delivery by route, wake groups, ack. -/

namespace Sys2Proof.Machine

def evState (s : State) (n : Nat) : Nat := fld s (Reg.EVT_CFG n) F.EVT_CFG_state

/-- The controller takes what has come through the crossings of a source (R296, R460): a pulse is one occurrence; a bit is
the level of the signal, and a one is an occurrence. -/
def evOccur (n : Nat) (s : State) : State :=
  match Tab.get 0 s.ev.arrived n, Tab.get [] s.ev.levels n with
  | k + 1, _ => evPulse { s with ev := { s.ev with arrived := Tab.set 0 s.ev.arrived n k } } n
  | 0, v :: r =>
    let s1 := setFld { s with ev := { s.ev with levels := Tab.set [] s.ev.levels n r } } (Reg.EVT_CFG n) F.EVT_CFG_raw (b2n v)
    if v then evPulse s1 n else s1
  | 0, [] => s

/-- A source becomes IDLE, and PENDING again in the next NCLK where again is set or its level signal is high (R297);
`auto` after a delivery with autoack (R299). -/
def evIdle (n : Nat) (again auto : Bool) (s : State) : State :=
  let a := Reg.EVT_CFG n
  let hi := fld s a F.EVT_CFG_mode == 0 && flag s a F.EVT_CFG_raw
  if again || hi then evPending n (if auto then s.now else s.now + 1) auto s
  else setFld (setFld s a F.EVT_CFG_state 0) a F.EVT_CFG_merged 0

/-- ack (R297): ignored outside INSERVICE. -/
def evAck (n : Nat) (s : State) : State :=
  match evState s n with
  | 2 => evIdle n false false s
  | 3 => evIdle n true false s
  | _ => s

/-- A source was delivered: INSERVICE, or IDLE with autoack (R298). -/
def evDelivered (n : Nat) (s : State) : State :=
  let a := Reg.EVT_CFG n
  if flag s a F.EVT_CFG_autoack then evIdle n false true s
  else setFld (setFld s a F.EVT_CFG_state 2) a F.EVT_CFG_merged 0

/-! ## Wake groups (R300) -/

/-- Cluster threads of a wake group, rising. -/
def wgThreads (s : State) (g : Nat) : List Nat :=
  setBits 48 (rd s (Reg.EVT_WG_M0 g)).toNat ++ (setBits 48 (rd s (Reg.EVT_WG_M1 g)).toNat).map (· + 48) ++
    (setBits 32 (rd s (Reg.EVT_WG_M2 g)).toNat).map (· + 96)

/-- A wake event reaches a thread: the latch, and TINT.ep where TINT.eie is 1. -/
def wakeEvent (t : Nat) (s : State) : State :=
  let (tint, s1) := readCsr s t 0x807
  wakeThread (if getF tint TS.eie = 1 then setTint t TS.ep s1 else s1) t

def inDoze (x : Thread) : Bool :=
  match x.wait with
  | .doze _ _ _ => true
  | _ => false

/-- Threads of a list rotated to start after `last`. -/
def after (l : List Nat) (last : Nat) : List Nat :=
  l.filter (fun i => decide (last < i)) ++ l.filter (fun i => decide (i ≤ last))

/-- Delivery to wake group `g`. -/
def wakeGroup (g : Nat) (s : State) : State :=
  let a := Reg.EVT_WG_CTL g
  let c := fld s a F.EVT_WG_CTL_cluster
  let awake := fun (i : Nat) => let x := th s (c * 128 + i); x.state != .killed && x.state != .reset
  let l := (wgThreads s g).filter awake
  let s1 := if (clu s c).power = .run then s else requestWakeCmd c s
  if !flag s a F.EVT_WG_CTL_one then forEach l (fun i s => wakeEvent (c * 128 + i) s) s1
  else
    let r := after l (Tab.get 127 s.ev.wgLast g)
    match (r.find? (fun i => inDoze (th s (c * 128 + i)))) <|> r.head? with
    | none => s1
    | some i => wakeEvent (c * 128 + i) { s1 with ev := { s1.ev with wgLast := Tab.set 127 s1.ev.wgLast g i } }

/-! ## Delivery (R298) -/

/-- The delivery cannot be made: counted, and the source goes on as if delivered. -/
def undeliverable (n : Nat) (s : State) : State := evDelivered n (bump s Reg.EVT_STAT F.EVT_STAT_undeliv)

/-- The delivery is made. -/
def delivered (n : Nat) (s : State) : State := evDelivered n (bumpWrap s Reg.EVT_STAT F.EVT_STAT_delivered)

/-- A PENDING source is due (R298, R299). -/
def evDue (s : State) (n : Nat) : Bool :=
  let a := Reg.EVT_CFG n
  let t := Tab.get (0, false) s.ev.since n
  let wait := fld s a F.EVT_CFG_coal_time * 64
  evState s n == 1 && flag s a F.EVT_CFG_en &&
    ((fld s a F.EVT_CFG_mode == 1 && decide (fld s a F.EVT_CFG_coal_cnt < fld s a F.EVT_CFG_merged)) ||
      decide (t.1 + (if t.2 && wait == 0 then 256 else wait) ≤ s.now))

/-- A due source has a delivery to make: by its route, and not while the service queue it needs is full. -/
def evReady (s : State) (n : Nat) : Bool :=
  evDue s n && (match fld s (Reg.EVT_CFG n) F.EVT_CFG_route with
    | 1 | 2 | 4 => true
    | 3 => decide (s.ev.svcq.length < 512)
    | _ => false)

/-- No other source is delivered before this one: descending prio, then ascending number; and fewer than four have been
delivered in this NCLK (R298). -/
def evTurn (s : State) (n : Nat) : Bool :=
  let pr := fun m => fld s (Reg.EVT_CFG m) F.EVT_CFG_prio
  (s.ev.sent.1 != s.now || decide (s.ev.sent.2 < 4)) &&
    (List.range 2048).all (fun m => m == n || !(decide (pr n < pr m) || (pr n == pr m && decide (m < n))) || !evReady s m)

/-- Delivery of a source by its route. -/
def evRoute (n : Nat) (s : State) : State :=
  let tgt := fld s (Reg.EVT_DST n) F.EVT_DST_target
  let sub := fld s (Reg.EVT_DST n) F.EVT_DST_sub
  match fld s (Reg.EVT_CFG n) F.EVT_CFG_route with
  | 1 => delivered n (wakeGroup (tgt % 256) s)
  | 2 => if fnEnabled s tgt && decide (sub < vecCount s tgt) then delivered n (msix tgt sub s) else undeliverable n s
  | 3 => delivered n { s with ev := { s.ev with svcq := s.ev.svcq ++ [n], svcIrq := true } }
  | _ =>
    let dev := tgt % 1024
    if (routeCands s dev).isEmpty then undeliverable n s
    else delivered n (obxPump (sendIntr s dev 0 0 (leBytes 6 (sub % 128))))

/-- Delivery of a due source in its turn. -/
def evDeliver (n : Nat) (s : State) : State :=
  if !evReady s n || !evTurn s n then s
  else
    let k := if s.ev.sent.1 = s.now then s.ev.sent.2 + 1 else 1
    evRoute n { s with ev := { s.ev with sent := (s.now, k) } }

/-- EVT_SVCQ (R303): the oldest entry; the interrupt of the Service Newt stays while entries remain. -/
def svcqPop (s : State) : Word × State :=
  match s.ev.svcq with
  | [] => (0, s)
  | n :: r => (toW (2 ^ 47 + n), { s with ev := { s.ev with svcq := r, svcIrq := !r.isEmpty } })

/-- A write of EVT_CFG (R297, R303): ack, ovr with its loss count, and the settings; en 0 makes the source IDLE. -/
def evCfgWrite (n : Nat) (v : Word) (s : State) : State :=
  let a := Reg.EVT_CFG n
  let s1 := if getF v F.EVT_CFG_ack = 1 then evAck n s else s
  let s2 := if getF v F.EVT_CFG_ovr = 1 then setFld (setFld s1 a F.EVT_CFG_ovr 0) a F.EVT_CFG_loss 0 else s1
  let m : Word := 0xFFFFC7
  let s3 := wr s2 a ((rd s2 a &&& ~~~m) ||| (v &&& m))
  if getF v F.EVT_CFG_en = 0 then setFld (setFld s3 a F.EVT_CFG_state 0) a F.EVT_CFG_merged 0
  else if getF v F.EVT_CFG_mode = 0 ∧ flag s3 a F.EVT_CFG_raw then evPulse s3 n
  else s3

/-- A doorbell (R301). -/
def doorbell (i : Nat) (s : State) : State := raise s (1920 + i % 128)

end Sys2Proof.Machine
end

