-- ==== Sys2Proof/Machine/BpmRows.lean ====
section
/-! DEFINITION. The rows of the buffer pool manager: allocations, frees, ring, audit, rebuild (R237–R247, R549). -/

namespace Sys2Proof.Machine

/-- A row that names a pool. -/
def onPool (p : Nat) (f : State → State) (s : State) : Out := if p < 16 then .next (f s) else .refused .illFormed

/-- The requests of a pool (R237): BALLOCs, and the frames in staging at the I/O dies, whose requests name no operation. -/
def allocReqs (p : Nat) (s : State) : List AllocReq :=
  s.bpm.allocQ.filter (fun r => r.pool == p) ++
    [portIoa, portIob].flatMap (fun d => List.replicate (min 2 (ingressNeed s p d)) { pool := p, port := d, op := 0 })

/-- Serves one allocation request (R237): a BALLOC keeps its result for its completion. -/
def serveAlloc (p : Nat) (r : AllocReq) (first : Bool) (s : State) : State :=
  if r.op = 0 then ingressTake p r.port first s
  else
    let (x, s1) := allocOne { s with bpm := { s.bpm with allocQ := s.bpm.allocQ.erase r } } p first
    updOp s1 (r.op - 1) (fun o => { o with result := some (b2n (x == 0), toW x) })

/-- BPM_ALLOCATION (R237): one NCLK of pool `p`, at most two requests in port order. The read of the list's head waits for
a unit in RETRAINING (R330), as does a write of it at a free. -/
def allocNclk (p : Nat) (s : State) : State :=
  if unitBusy s (poolHead s p) then s else
  let rp := Tab.get 25 s.bpm.rp p
  let l := allocReqs p s
  match firstAlloc l rp with
  | none => s
  | some r =>
    let s1 := serveAlloc p r true s
    let s2 := match firstAlloc (l.erase r) rp with
      | some r2 => serveAlloc p r2 false s1
      | none => s1
    bpUpdate (poolSettle { s2 with bpm := { s2.bpm with rp := Tab.set 25 s2.bpm.rp p r.port } } p)

def execBpmAllocation (p : Nat) (s : State) : Out := onPool p (allocNclk p) s

/-- One free of a pool in port order; the pointer follows the port of an applied one (R238). -/
def freeStep (p : Nat) (s : State) : State :=
  let fp := Tab.get 26 s.bpm.fp p
  match firstFree s p fp with
  | none => s
  | some r =>
    if unitBusy s r.addr then s else
    let hold := poolHold s p
    let s1 := applyFree s p r
    if hold then s1 else { s1 with bpm := { s1.bpm with fp := Tab.set 26 s1.bpm.fp p r.port } }

/-- BPM_FREE (R238): one NCLK of pool `p`, at most two frees. -/
def execBpmFree (p : Nat) (s : State) : Out := onPool p (fun s => bpUpdate (freeStep p (freeStep p s))) s

/-- RING_FETCH_COMPLETE (R239): the entries of a fetch reach the read side. -/
def ringLand (p : Nat) (s : State) : State :=
  let l := Tab.get [] s.bpm.fetching p
  if l.isEmpty then s
  else
    let s1 := { s with bpm := { s.bpm with
      fetching := Tab.set [] s.bpm.fetching p [],
      ringPos := Tab.set 0 s.bpm.ringPos p ((Tab.get 0 s.bpm.ringPos p + l.length) % max 1 (ringSlots s p).length) } }
    let s2 := setFld s1 (Reg.BPM_PRING p) F.BPM_PRING_entries (ringHeld s1 p - l.length)
    poolSettle (setSides s2 p (sideR s2 p ++ l) (sideW s2 p)) p

def execRingFetchComplete (p : Nat) (s : State) : Out := onPool p (fun s => bpUpdate (ringLand p s)) s

/-! ## Audit (R243, R549) -/

/-- The next valid pool after the one audited last, wrapping. -/
def nextAudit (s : State) : Option Nat :=
  let l := allBelow 16 (poolValid s)
  (l.find? (fun p => decide (s.bpm.auditNext ≤ p))) <|> l.head?

/-- out as a signed number. -/
def outInt (s : State) (p : Nat) : Int := sextN 32 (fld s (Reg.BPM_POUT p) F.BPM_POUT_out)

/-- An audit ends where the next pointer is 0, strays or loops, else goes on at it (R243). -/
def auditAt (a : Audit) (s : State) : State :=
  if a.cur = 0 then auditEnd s a (if a.steps = a.count then 1 else 2)
  else if poolBufs s a.pool < a.steps then auditEnd s a 3
  else if !isBufStart s a.pool a.cur then auditEnd s a 4
  else { s with bpm := { s.bpm with audit := some a } }

/-- AUDIT_START (R549): the audit of the next valid pool starts. One that still runs goes on; when it is the last of its
round, the round overruns (R542). -/
def execAuditStart (s : State) : Out :=
  if !flag s Reg.BPM_CTL F.BPM_CTL_audit_en then .next s
  else
    match s.bpm.audit, nextAudit s with
    | some a, some p =>
      .next (if p ≤ a.pool then raise (bump s Reg.BKG_OVR F.BKG_OVR_audit) 1857 else s)
    | none, some p =>
      let o := outInt s p
      let a : Audit := { pool := p, cur := poolHead s p, steps := 0, diff := 0, count := poolList s p,
                         range := decide (o < 0) || decide ((poolBufs s p : Int) < o) }
      .next (auditAt a { s with bpm := { s.bpm with auditNext := p + 1 } })
    | _, none => .next s

/-- AUDIT_STEP (R243): the read of a next pointer returns; it waits for a unit in RETRAINING (R330). -/
def execAuditStep (s : State) : Out :=
  match s.bpm.audit with
  | none => .next s
  | some a =>
    if unitBusy s a.cur then .next s
    else
      let (x, s1) := ptrRead s a.cur
      .next (auditAt { a with cur := x, steps := a.steps + 1 } s1)

/-! ## Rebuild (R244) -/

/-- The whole bitmap of a pool lies in populated HBM or DDR5 pool memory. -/
def bitmapOk (s : State) (p b : Nat) : Bool :=
  let n := (poolBufs s p + 7) / 8
  [b, b + n - 1].all (fun a => populated s a && (match regionOf a with
    | .hbm _ _ => true
    | .ddr _ _ => true
    | _ => false))

def rebuildState (s : State) (p v : Nat) : State :=
  setFld (setFld s Reg.BPM_REBUILD_STAT F.BPM_REBUILD_STAT_state v) Reg.BPM_REBUILD_STAT F.BPM_REBUILD_STAT_pool p

/-- A pool with list, cache and ring empty. -/
def poolEmpty (s : State) (p : Nat) : State :=
  let s1 := setSides (wr (wr s (Reg.BPM_PHEAD p) 0) (Reg.BPM_PTAIL p) 0) p [] []
  let s2 := setFld (setFld s1 (Reg.BPM_PCOUNT p) F.BPM_PCOUNT_list 0) (Reg.BPM_PRING p) F.BPM_PRING_entries 0
  { s2 with bpm := { s2.bpm with fetching := Tab.set [] s2.bpm.fetching p [], ringPos := Tab.set 0 s2.bpm.ringPos p 0 } }

/-- A write of BPM_REBUILD_CMD with go (R244). -/
def rebuildGo (p : Nat) (s : State) : State :=
  if !poolValid s p ∨ fld s Reg.BPM_REBUILD_STAT F.BPM_REBUILD_STAT_state = 1 then s
  else if !bitmapOk s p (rd s Reg.BPM_REBUILD).toNat then raise (rebuildState s p 3) 515
  else
    let s1 := match s.bpm.audit with
      | some a => if a.pool = p then auditEnd s a 5 else s
      | none => s
    poolEmpty (rebuildState s1 p 1) p

def execRebuildGo (p : Nat) (s : State) : Out := onPool p (fun s => bpUpdate (rebuildGo p s)) s

/-- Bit of buffer `i` in the bitmap: in use. -/
def bitmapBit (s : State) (i : Nat) : Bool := (rdByte s.mem ((rd s Reg.BPM_REBUILD).toNat + i / 8)).toNat.testBit (i % 8)

/-- A held BFREE is done (R244). -/
def heldDone (r : FreeReq) (s : State) : State :=
  match r.op with
  | some id => updOp s id (fun o => { o with result := some (0, 0) })
  | none => s

/-- A held free is applied when its buffer is in use by the bitmap, else discarded (R244). -/
def heldFree (p : Nat) (bits : Nat → Bool) (r : FreeReq) (s : State) : State :=
  let i := (r.addr - poolBase s p) / max 1 (poolSize s p)
  heldDone r (if bits i then freeOne s p r.addr
    else bump s Reg.BPM_REBUILD_STAT F.BPM_REBUILD_STAT_discarded)

/-- Pushes the free buffers of a pool in descending order (R244). -/
def pushFree (p : Nat) (free : List Nat) (s : State) : State :=
  let size := poolSize s p
  let base := poolBase s p
  let s1 := forEach free.reverse (fun i s =>
    let x := base + i * size
    let h := poolHead s p
    let s1 := memPut s x 8 h
    let s2 := if h = 0 then wr s1 (Reg.BPM_PTAIL p) (toW x) else s1
    wr s2 (Reg.BPM_PHEAD p) (toW x)) s
  setFld s1 (Reg.BPM_PCOUNT p) F.BPM_PCOUNT_list free.length

/-- REBUILD_COMPLETE (R244): `ecc` 2 is a poisoned read of the bitmap, which ends the rebuild in FAILED. -/
def rebuildEnd (ecc : Nat) (s : State) : State :=
  let p := fld s Reg.BPM_REBUILD_STAT F.BPM_REBUILD_STAT_pool
  let n := poolBufs s p
  if fld s Reg.BPM_REBUILD_STAT F.BPM_REBUILD_STAT_state ≠ 1 ∨ busyIn s (rd s Reg.BPM_REBUILD).toNat ((n + 7) / 8) then s
  else
    let held := s.bpm.held.filter (fun r => decide (poolOf s r.addr = some p))
    let s0 := { s with bpm := { s.bpm with held := s.bpm.held.filter (fun r => !decide (poolOf s r.addr = some p)) } }
    let (bad, s1) := memReadCheck s0 (rd s Reg.BPM_REBUILD).toNat ((n + 7) / 8) ecc
    if bad then
      let s2 := setFld (rebuildState s1 p 3) (Reg.BPM_POUT p) F.BPM_POUT_out n
      raise (forEach held (fun r s => heldDone r (bump s Reg.BPM_REBUILD_STAT F.BPM_REBUILD_STAT_discarded)) s2) 515
    else
      let bits := bitmapBit s1
      let free := allBelow n (fun i => !bits i)
      let s2 := setFld (pushFree p free (rebuildState s1 p 2)) (Reg.BPM_POUT p) F.BPM_POUT_out (n - free.length)
      raise (poolSettle (forEach held (heldFree p bits) s2) p) 515

def execRebuildComplete (ecc : Nat) (s : State) : Out :=
  if 3 ≤ ecc then .refused .illFormed else .next (bpUpdate (rebuildEnd ecc s))

/-- BPM_CTL.clr (R247). -/
def bpmClr (s : State) : State :=
  setFld ([Reg.BPM_TCHK0, Reg.BPM_TCHK1, Reg.BPM_UNCHK, Reg.BPM_FREEERR].foldl (fun s a => wr s a 0) s)
    Reg.BPM_REBUILD_STAT F.BPM_REBUILD_STAT_discarded 0

def execBpmCtlClr (s : State) : Out := .next (bpmClr s)

end Sys2Proof.Machine
end

