-- ==== Sys2Proof/Machine/TableRows.lean ====
section
/-! DEFINITION. The rows of the forwarding tables (R259, R267, R270–R275, R278, R545). -/

namespace Sys2Proof.Machine

/-- A table command as a row: the word written to TBL_CMD, whose op is the row's (R267). -/
def tableRow (op : Nat) (w : Word) (s : State) : Out :=
  if getF w F.TBL_CMD_op ≠ op then .refused .illFormed else .next (tableCommand w s)

def execTableAdd (w : Word) (s : State) : Out := tableRow 1 w s
def execTableSet (w : Word) (s : State) : Out := tableRow 2 w s
def execTableDelete (w : Word) (s : State) : Out := tableRow 3 w s
def execTableFind (w : Word) (s : State) : Out := tableRow 4 w s
def execReadSlot (w : Word) (s : State) : Out := tableRow 5 w s
def execWriteSlot (w : Word) (s : State) : Out := tableRow 6 w s
def execFlush (w : Word) (s : State) : Out := tableRow 7 w s
def execBulkSet (w : Word) (s : State) : Out := tableRow 8 w s
def execPfxAdd (w : Word) (s : State) : Out := tableRow 9 w s
def execPfxDel (w : Word) (s : State) : Out := tableRow 10 w s
def execPfxRead (w : Word) (s : State) : Out := tableRow 11 w s
def execPfxFix (w : Word) (s : State) : Out := tableRow 12 w s

/-- TBL_CMD_DONE (R267): the command whose writes have all landed completes; the unit takes the next item. -/
def execTblCmdDone (s : State) : Out := .next (commandDone s)

/-- RELOCATION_STEP (R259): the next pending write lands. -/
def execRelocationStep (s : State) : Out := .next (unitRun (stepLands s))

/-- LEARN_APPLY (R271): the update unit applies the next learn. -/
def execLearnApply (s : State) : Out := .next (learnNext s)

/-- CANDIDATE_EXPIRY (R273): the k-th candidate record is removed once it has stood for 4 × holddown. -/
def execCandidateExpiry (k : Nat) (s : State) : Out :=
  match s.tbl.cands[k]? with
  | none => .next s
  | some c =>
    if domNow s - c.time < 4 * holddownNs s then .next s
    else .next (candStat { s with tbl := { s.tbl with cands := s.tbl.cands.eraseIdx k } })

/-- A row that names a table. -/
def onTable (t : Nat) (f : State → State) (s : State) : Out := if t < 32 then .next (f s) else .refused .illFormed

/-- A background pass that outlasts its period is counted and raised (R542). -/
def bkgPass (f : Fld) (overrun : Bool) (s : State) : State := if overrun then raise (bump s Reg.BKG_OVR f) 1857 else s

/-- AGEING_SWEEP_STEP (R275): the sweep of table `t` reaches its next entry; `overrun` says it ends a pass that outlasted
its period. -/
def execAgeingSweepStep (t : Nat) (overrun : Bool) (s : State) : Out :=
  onTable t (fun s => bkgPass F.BKG_OVR_ageing overrun (candStat (ageStep t s))) s

/-- The parity sweep reads a place of a table: `bad` says the outside damaged it and the re-read finds it so (R545). -/
def paritySweep (t bucket slot : Nat) (bad : Bool) (s : State) : State :=
  if !flag s Reg.BKG_CTL F.BKG_CTL_psweep_en ∨ tableWaits s t then s
  else if tKind s t = 1 then
    if bucket < tBuckets s t ∨ 8 ≤ slot then
      let l : Loc := ⟨bucket, slot⟩
      let e := entryAt s t l
      if bad && isValid e && !isQuar e then keepLast s (quarantine t l s)
      else keepLast s (checkLoc t l s)
    else s
  else
    match Tab.find? (prefixesOf s t) bucket with
    | none => s
    | some p =>
      let p1 := { p with bad := p.bad || bad }
      pfxQuar t [(bucket, p1)] (setPrefixes s t (Tab.put (prefixesOf s t) bucket p1))

/-- PARITY_SWEEP_STEP (R545): slot 0–3 of a bucket, 8–15 the stash; a prefix table is read by record index. -/
def execParitySweepStep (t bucket slot : Nat) (bad overrun : Bool) (s : State) : Out :=
  if (4 ≤ slot ∧ slot < 8) ∨ 16 ≤ slot then .refused .illFormed
  else onTable t (fun s => bkgPass F.BKG_OVR_psweep overrun (paritySweep t bucket slot bad s)) s

/-- TBL_CTL.clr (R278): every saturating counter. -/
def tblClr (s : State) : State :=
  let s1 := [Reg.TBL_LRN_CNT0, Reg.TBL_LRN_CNT1].foldl (fun s a => wr s a 0) s
  forEach (List.range 32) (fun t s => setFld (wr s (Reg.TBL_T_STAT t) 0) (Reg.TBL_T_AGE t) F.TBL_T_AGE_aged 0) s1

def execTblCtlClr (s : State) : Out := .next (tblClr s)

end Sys2Proof.Machine
end

