-- ==== Sys2Proof/Machine/McOps.lean ====
section
/-! DEFINITION. The memory controllers' operations (R316–R334): refresh, power-down, real-time ports, training and its
outcomes, and the purge of pools on a retired pseudo-channel. -/

namespace Sys2Proof.Machine

/-! ## Requests of the asynchronous operations (R312) -/

/-- Address of a far access. -/
def OpKind.far : OpKind → Option Nat
  | .load a _ _ => some a
  | .store a _ _ => some a
  | .atom _ a _ _ => some a
  | _ => none

/-- Tiles a PST or a TSEAL acts on. -/
def OpKind.tiles : OpKind → List Nat
  | .pst as _ => (as.map tileAt).eraseDups
  | .tseal tl => [tl]
  | _ => []

/-- Memory addresses an operation reads or writes. -/
def OpKind.addrs : OpKind → List Nat
  | .pld as links first => as ++ links ++ first
  | .pst as _ => as
  | .tseal tl => [tl]
  | k => k.far.toList

/-- The memory requests of an operation (R312): those of its core, or of a table engine (R257 leaves open which). -/
def opRequests (s : State) (o : AsyncOp) : List Request :=
  match o.kind with
  | .lkup t key =>
    if tKind s t = 1 then (bucketsOf s t key).map (fun b => { src := (Source.engine 0).id, addr := tBase s t + 64 * b })
    else []
  | k => k.addrs.map (fun a => { src := (Source.core (thCluster o.thread) (thCore o.thread)).id, addr := a })

/-! ## Units -/

/-- Controllers are 0–3 HBM and 4–11 DDR5. A controller in use (R305). -/
def mcUsed (s : State) (m : Nat) : Bool := fld s (Reg.MC_ID m) F.MC_ID_units != 0

/-- Training, refresh and power-down units of a controller (R307). -/
def trainUnits (m : Nat) : Nat := if m < 4 then 32 else 1
def ranksOf (s : State) (m : Nat) : Nat := 2 ^ fld s (Reg.MC_DIMM m) F.MC_DIMM_ranks
def refUnits (s : State) (m : Nat) : Nat := if m < 4 then 32 else 2 * ranksOf s m
def pdUnits (s : State) (m : Nat) : Nat := if m < 4 then 32 else ranksOf s m
/-- Training unit that holds a refresh unit, and power-down unit that holds it. -/
def refTrain (m u : Nat) : Nat := if m < 4 then u else 0
def refPd (m u : Nat) : Nat := if m < 4 then u else u / 2

/-- The memory of a training unit is in use: neither ABSENT nor RETIRED. -/
def unitAlive (s : State) (m u : Nat) : Bool := mcUsed s m && unitState s m u != 0 && unitState s m u != 6

/-! ## Refresh (R320–R323) -/

/-- L of R320: the requested limit, clamped to 8 for HBM, 4 for DDR5, 8 for DDR5 fine-granularity. -/
def refLimit (s : State) (m : Nat) : Nat :=
  let n := fld s (Reg.MC_REFLIMIT m) F.MC_REFLIMIT_limit
  min (max 1 (min 8 n)) (if 4 ≤ m ∧ !(mcCtl s m).fgr then 4 else 8)

def owed (s : State) (m u : Nat) : Nat := fld s (Reg.MC_REFSTAT m u) F.MC_REFSTAT_owed
def setOwed (m u p : Nat) (s : State) : State := setFld s (Reg.MC_REFSTAT m u) F.MC_REFSTAT_owed p

def portEn (s : State) (m p : Nat) : Bool :=
  let c := fld s (Reg.MC_RTCFG m p) F.MC_RTCFG_client
  flag s (Reg.MC_RTCFG m p) F.MC_RTCFG_en && c != 0 && decide (c < 4)

def portPanic (s : State) (m p : Nat) : Bool := flag s (Reg.MC_RTSTAT m p) F.MC_RTSTAT_panic
def anyPanic (s : State) (m : Nat) : Bool := (List.range 4).any (portPanic s m)

def portLevel (s : State) (m p : Nat) : Nat := fld s (Reg.MC_RTSTAT m p) F.MC_RTSTAT_level
def portDepth (s : State) (m p : Nat) : Nat := fld s (Reg.MC_RTCFG m p) F.MC_RTCFG_depth

/-- A port has reads in flight: it issues them while held entries and reads in flight are fewer than depth (R316). -/
def portReads (s : State) (m p : Nat) : Bool := portEn s m p && decide (portLevel s m p < portDepth s m p)

/-- A real-time request to a unit is queued or in flight: `rt` says that a port's reads address it. -/
def rtOn (s : State) (m : Nat) (rt : Bool) : Bool := rt && (List.range 4).any (portReads s m)

/-- A refresh falls due (R321); `prog` says that a refresh of the unit is in progress. A power-down unit exits (R324). -/
def refreshDue (m u : Nat) (prog rt : Bool) (s : State) : State :=
  let c := mcCtl s m
  let s0 := setMcCtl m { c with pd := c.pd.filter (· != refPd m u) } s
  let p := owed s m u
  let postpone := setOwed m u (p + 1) s0
  if prog then (if p < refLimit s m then postpone else s0)
  else if !rtOn s m rt then s0
  else if p < refLimit s m then postpone
  else raise (bump s0 (Reg.MC_REFSTAT m u) F.MC_REFSTAT_forced) (mcSrc m 4)

/-- A make-up refresh (R322). -/
def makeupRefresh (m u : Nat) (rt : Bool) (s : State) : State :=
  if owed s m u = 0 ∨ rtOn s m rt ∨ anyPanic s m then s else setOwed m u (owed s m u - 1) s

/-- Every owed refresh of a controller is issued (R323). -/
def issueOwed (m : Nat) (s : State) : State := forEach (List.range (refUnits s m)) (fun u s => setOwed m u 0 s) s

/-- Keeps MC_REFLIMIT.eff at L. -/
def showLimit (m : Nat) (s : State) : State := setFld s (Reg.MC_REFLIMIT m) F.MC_REFLIMIT_eff (refLimit s m)

/-- The mode of MC_CTL and the sensor's range take effect (R323). -/
def treFiChange (m : Nat) (hot : Bool) (s : State) : State :=
  let c := mcCtl s m
  let d := { c with refmode := flag s (Reg.MC_CTL m) F.MC_CTL_refmode,
                    fgr := decide (4 ≤ m) && flag s (Reg.MC_CTL m) F.MC_CTL_fgr, hot := hot }
  if c = d then s else showLimit m (setMcCtl m d (issueOwed m s))

/-- An operation's request to a power-down unit is waiting. -/
def pdWanted (s : State) (m u : Nat) : Bool :=
  s.ops.any (fun o => (opRequests s o).any (fun r => match (regionOf r.addr).mc with
    | some (k, off) => k == m && pdUnit s m off == u
    | none => false))

/-- An idle unit enters power-down (R324). -/
def powerDown (m u : Nat) (s : State) : State :=
  let c := mcCtl s m
  let free := (List.range (refUnits s m)).all (fun r => refPd m r != u || owed s m r == 0)
  if flag s (Reg.MC_CTL m) F.MC_CTL_pd_en && free && !c.pd.contains u && !pdWanted s m u then
    setMcCtl m { c with pd := c.pd ++ [u] } s
  else s

/-! ## Real-time ports (R316, R317) -/

/-- The client of a port takes an entry; an empty FIFO is an underrun; a level that falls below enter while reads are in
flight is panic. -/
def rtTake (m p : Nat) (s : State) : State :=
  let a := Reg.MC_RTSTAT m p
  if !portEn s m p then s
  else if portLevel s m p = 0 then raise (bump s a F.MC_RTSTAT_underruns) (mcSrc m 3)
  else
    let enter := fld s (Reg.MC_RTCFG m p) F.MC_RTCFG_enter
    let was := portLevel s m p
    let s1 := setFld s a F.MC_RTSTAT_level (was - 1)
    if was - 1 < enter ∧ enter ≤ was ∧ !portPanic s m p ∧ portReads s1 m p then
      raise (bump (setFld s1 a F.MC_RTSTAT_panic 1) a F.MC_RTSTAT_panics) (mcSrc m 2)
    else s1

/-- The port whose request is served first (R317): of those in panic the one with the lowest level, then the lowest number. -/
def panicFirst (s : State) (m : Nat) : Option Nat :=
  ((List.range 4).filter (fun p => portPanic s m p && portReads s m p)).foldl (fun b p => match b with
    | some q => if portLevel s m p < portLevel s m q then some p else b
    | none => some p) none

/-- Read data returns to a port, which leaves panic when its level reaches exit. A read is served and returns in one row,
so while ports panic it is one of the first of them (log 96). -/
def rtReturn (m p : Nat) (s : State) : State :=
  let a := Reg.MC_RTSTAT m p
  if !portReads s m p || (panicFirst s m).any (· != p) then s
  else
    let n := portLevel s m p + 1
    let s1 := setFld s a F.MC_RTSTAT_level n
    if fld s (Reg.MC_RTCFG m p) F.MC_RTCFG_exit ≤ n then setFld s1 a F.MC_RTSTAT_panic 0 else s1

/-- A write of MC_RTCFG (R316): ignored with en set, but for one that clears en; a port that is cleared holds nothing. -/
def rtcfgWrite (m p : Nat) (v : Word) (s : State) : State :=
  let a := Reg.MC_RTCFG m p
  if flag s a F.MC_RTCFG_en ∧ getF v F.MC_RTCFG_en = 1 then s
  else
    let s1 := wr s a (v &&& 0xF003FFFFFFFF)
    let s2 := setFld s1 a F.MC_RTCFG_depth (max 16 (min 2048 (getF v F.MC_RTCFG_depth)))
    if getF v F.MC_RTCFG_en = 1 then s2
    else setFld (setFld s2 (Reg.MC_RTSTAT m p) F.MC_RTSTAT_level 0) (Reg.MC_RTSTAT m p) F.MC_RTSTAT_panic 0

/-! ## Training (R326–R332) -/

/-- Retraining starts (R328), by expiry or by a grant. -/
def retrainStart (m u : Nat) (forced : Bool) (s : State) : State :=
  let a := Reg.MC_UNIT m u
  bump (setFld (setUnitState m u 4 s) a F.MC_UNIT_forced (b2n forced)) a F.MC_UNIT_retrains

/-- A retraining request (R327, R328) with its cause: NORMAL or DEGRADED to PENDING; a grant_wait of 0 starts at once. -/
def retrainRequest (m u why : Nat) (s : State) : State :=
  if unitState s m u ≠ 2 ∧ unitState s m u ≠ 5 then s
  else
    let s1 := raise (setFld (setUnitState m u 3 s) (Reg.MC_UNIT m u) F.MC_UNIT_why why) (mcSrc m 5)
    if fld s1 (Reg.MC_TRAINCTL m) F.MC_TRAINCTL_grant_wait = 0 then retrainStart m u true s1 else s1

def setTemp (m u temp : Nat) (s : State) : State := setFld s (Reg.MC_UNIT m u) F.MC_UNIT_temp temp

/-- A tracking step (R329) and the margin it finds (R493). -/
def trackStep (m u temp margin : Nat) (s : State) : State :=
  if unitState s m u ≠ 2 ∧ unitState s m u ≠ 5 then s
  else
    let s1 := setTemp m u temp s
    if flag s1 Reg.PWR_CHM_CFG F.PWR_CHM_CFG_en && decide (margin < fld s1 Reg.PWR_CHM_CFG F.PWR_CHM_CFG_phy_alarm)
    then retrainRequest m u 2 s1 else s1

/-- A unit goes to its last known good setting at half tREFI, or back (R332): where tREFI changes, R323 issues what is owed. -/
def setHalf (m u : Nat) (h : Bool) (s : State) : State :=
  let x := mcUnit s m u
  let s1 := setMcUnit m u { x with half := h, ue := 0 } s
  if x.half = h then s1 else issueOwed m s1

/-- What waited for a unit goes on once its training has ended (R330). -/
def unitFree (s : State) : State := unitRun (forEach s.bpm.staged placeReady s)

/-- Training or retraining ends (R331, R332): a working setting, else the last known good one when it passes the reduced
check, else retirement. -/
def trainEnd (m u temp : Nat) (ok check : Bool) (s : State) : State :=
  let st := unitState s m u
  if st ≠ 1 ∧ st ≠ 4 then s
  else
    let s1 := setTemp m u temp s
    let x := mcUnit s1 m u
    unitFree (if ok then
      let s2 := setUnitState m u 2 (setMcUnit m u { x with good := true } s1)
      setHalf m u false (if st = 4 then raise s2 (mcSrc m 6) else s2)
    else if x.good && check then setHalf m u true (raise (setUnitState m u 5 s1) (mcSrc m 7))
    else retireUnit m u s1)

/-- RETIRE (R326): any state but ABSENT; a retraining is aborted. -/
def retireCmd (m u : Nat) (s : State) : State :=
  if unitState s m u = 0 ∨ unitState s m u = 6 then s else unitFree (retireUnit m u s)

/-- A write of MC_PEGCMD (R339): TRACK's temperature and margin are what Peg then measures; a port in panic holds it off
(R329). -/
def pegCmd (m : Nat) (v : Word) (s : State) : State :=
  let u := getF v F.MC_PEGCMD_unit
  if trainUnits m ≤ u ∨ !mcUsed s m then s
  else
    match getF v F.MC_PEGCMD_cmd with
    | 1 => if unitState s m u = 3 then retrainStart m u false s else s
    | 2 => retrainRequest m u 3 s
    | 3 =>
      if anyPanic s m then s else
      let (a, s1) := draw s
      let (b, s2) := draw s1
      trackStep m u (a.toNat % 256) b.toNat s2
    | 4 => retireCmd m u s
    | _ => s

/-! ## Purge (R334) -/

/-- The free list of a pool from an address on: the buffers up to the first whose next pointer reads as poison, and
whether one did. -/
def listWalk : Nat → Nat → State → List Nat × Bool × State
  | 0, _, s => ([], false, s)
  | _ + 1, 0, s => ([], false, s)
  | n + 1, x, s =>
    let (bad, s1) := memReadCheck s x 8 0
    if bad then ([], true, s1)
    else
      let (l, b, s2) := listWalk n (memNat s1 x 6) s1
      (x :: l, b, s2)

/-- Links buffers into the free list of a pool in order. -/
def relink (p : Nat) (l : List Nat) (s : State) : State :=
  let s1 := forEach (l.zip (l.drop 1 ++ [0])) (fun e s => memPut s e.1 8 e.2) s
  let s2 := wr (wr s1 (Reg.BPM_PHEAD p) (toW (l.head?.getD 0))) (Reg.BPM_PTAIL p) (toW (l.getLast?.getD 0))
  setFld s2 (Reg.BPM_PCOUNT p) F.BPM_PCOUNT_list l.length

/-- The ring of a pool with just these entries. -/
def ringPut (p : Nat) (l : List Nat) (s : State) : State :=
  let s1 := forEach ((ringSlots s p).zip l) (fun e s => memPut s e.1 8 e.2) s
  setFld { s1 with bpm := { s1.bpm with ringPos := Tab.set 0 s1.bpm.ringPos p 0,
                                        fetching := Tab.set [] s1.bpm.fetching p [] } }
    (Reg.BPM_PRING p) F.BPM_PRING_entries l.length

/-- The purge of one pool, whose ring entries stood at `ring`: buffers removed, and whether entries were lost. -/
def purgePool (q p : Nat) (ring : List Nat) (s : State) : State :=
  let s0 := match s.bpm.audit with
    | some a => if a.pool = p then auditEnd s a 5 else s
    | none => s
  let bad := fun x => bufRetired s p x
  let (walk, cut, s0) := listWalk (poolBufs s p) (poolHead s p) s0
  let kept := ring.filter (fun a => !retiredAt s a)
  let (entries, s0) := ptrReads kept s0
  let good := fun (l : List Nat) => l.filter (fun x => !bad x)
  let gone := (walk.filter bad).length + (entries.filter bad).length + ((sideR s p ++ sideW s p).filter bad).length
  let s1 := setSides (relink p (good walk) s0) p (good (sideR s p)) (good (sideW s p))
  let s2 := if ring.isEmpty then s1 else ringPut p (good entries) s1
  let r := Reg.MC_RETLOSS q
  let s3 := bumpBy s2 r F.MC_RETLOSS_purged gone
  if cut || kept.length != ring.length then setFld s3 r F.MC_RETLOSS_listlost 1 else s3

/-- Completion of the purge of pseudo-channel `u` of stack `q`, which waits for units in RETRAINING: every pool concerned, then the frees it held, unless
another hold remains. -/
def purgeEnd (q u : Nat) (s : State) : State :=
  let ps := (List.range 16).filter (fun p => poolValid s p && poolOnStack s p q)
  let ring := fun (p : Nat) => ringAddrs s p 0 (ringHeld s p)
  if !s.bpm.purge.contains (q * 32 + u) ∨
      ps.any (fun p => (ring p ++ (listWalk (poolBufs s p) (poolHead s p) s).1).any (unitBusy s)) then s
  else
    let s1 := forEach ps (fun p => purgePool q p (ring p)) { s with bpm := { s.bpm with purge := s.bpm.purge.erase (q * 32 + u) } }
    let go := fun (r : FreeReq) => match poolOf s1 r.addr with
      | some p => ps.contains p && !poolHold s1 p
      | none => false
    let held := s1.bpm.held.filter go
    let s2 := { s1 with bpm := { s1.bpm with held := s1.bpm.held.filter (fun r => !go r) } }
    let s3 := forEach held (fun r s => heldDone r (freeOne s ((poolOf s r.addr).getD 0) r.addr)) s2
    bpUpdate (raise (forEach ps (fun p s => poolSettle s p) s3) (mcSrc q 9))

/-- MC_CTL.clr (R339). -/
def mcClr (m : Nat) (s : State) : State :=
  let s1 := wr s (Reg.MC_ERRCNT m) 0
  let s2 := forEach (List.range 4) (fun p s =>
    setFld (setFld s (Reg.MC_RTSTAT m p) F.MC_RTSTAT_underruns 0) (Reg.MC_RTSTAT m p) F.MC_RTSTAT_panics 0) s1
  let s3 := forEach (List.range (if m < 4 then 32 else 8)) (fun u s => setFld s (Reg.MC_REFSTAT m u) F.MC_REFSTAT_forced 0) s2
  if m < 4 then
    setFld (setFld s3 (Reg.MC_RETLOSS m) F.MC_RETLOSS_purged 0) (Reg.MC_RETLOSS m) F.MC_RETLOSS_discarded 0
  else s3

/-! ## Patrol scrub (R543, R544) -/

/-- Memory k of BKG_SCRUBCNT that holds an address; the check SRAMs, scratch, code and slot RAM have none. -/
def scrubMem (a : Nat) : Option Nat :=
  match regionOf a with
  | .hbm _ _ => some 0
  | .ddr _ _ => some 1
  | .pstore => some 2
  | .tstore => some 3
  | _ => none

/-- Patrol scrub reads the unit at `a` of memory `k`: a corrected unit is rewritten with the value it holds, unless a
write came between, which is the value it holds. -/
def scrubRead (k a ecc : Nat) (s : State) : State :=
  let ext := k < 4
  if !flag s Reg.BKG_CTL F.BKG_CTL_scrub_en then s
  else if ext ∧ (scrubMem a ≠ some k ∨ !populated s a ∨ retiredAt s a ∨ unitBusy s a) then s
  else
    let u := a / 64 * 64
    let (bad, s1) := if ext then memReadCheck s u 64 ecc else (ecc == 2, s)
    let r := Reg.BKG_SCRUBCNT k
    if bad then
      raise (wr (bump s1 r F.BKG_SCRUBCNT_ue) Reg.BKG_SCRUB_LAST (toW (2 ^ 47 + k * 2 ^ 44 + bitsN a 47 6))) 1856
    else if ecc = 1 then bump s1 r F.BKG_SCRUBCNT_ce
    else s1

end Sys2Proof.Machine
end

