-- ==== Sys2Proof/Machine/Ecdsa.lean ====
section
/-! DEFINITION. ECDSA over P-384 (FIPS 186-4, SEC 2), by which images are signed (R25, R41, R503). The numbers of a
signature block are little-endian (R22, R502). -/

namespace Sys2Proof.Machine

/-- The field, the order, the constant b and the base point of P-384. -/
def p384 : Nat := 2 ^ 384 - 2 ^ 128 - 2 ^ 96 + 2 ^ 32 - 1
def p384n : Nat := 0xffffffffffffffffffffffffffffffffffffffffffffffffc7634d81f4372ddf581a0db248b0a77aecec196accc52973
def p384b : Nat := 0xb3312fa7e23ee7e4988e056be3f82d19181d9c6efe8141120314088f5013875ac656398d8a2ed19d2a85c8edd3ec2aef
def p384gx : Nat := 0xaa87ca22be8b05378eb1c71ef320ad746e1d3b628ba79b9859f741e082542a385502f25dbf55296c3a545e3872760ab7
def p384gy : Nat := 0x3617de4a96262c6f5d9e98bf9292dc29f8f41dbd289a147ce9da3113b5f0b8c00a60b1ce1d7e819d7a431d7c90ea0e5f

/-- `b ^ e` modulo `m`, by the low `k` bits of the exponent. -/
def powMod (m : Nat) : Nat → Nat → Nat → Nat
  | 0, _, _ => 1 % m
  | k + 1, b, e =>
    let r := powMod m k (b * b % m) (e / 2)
    if e % 2 = 1 then r * b % m else r

/-- A point in Jacobian coordinates; z = 0 is the point at infinity. -/
structure JPoint where
  x : Nat
  y : Nat
  z : Nat
deriving DecidableEq, Repr

/-- Difference modulo the field. -/
def subP (a b : Nat) : Nat := (a + p384 - b % p384) % p384

def JPoint.double (a : JPoint) : JPoint :=
  if a.z = 0 ∨ a.y = 0 then ⟨1, 1, 0⟩
  else
    let zz := a.z * a.z % p384
    let yy := a.y * a.y % p384
    let s := 4 * a.x * yy % p384
    let m := 3 * (subP a.x zz * ((a.x + zz) % p384) % p384) % p384
    let x3 := subP (m * m) (2 * s)
    ⟨x3, subP (m * subP s x3) (8 * yy * yy), 2 * a.y * a.z % p384⟩

def JPoint.add (a b : JPoint) : JPoint :=
  if a.z = 0 then b
  else if b.z = 0 then a
  else
    let za := a.z * a.z % p384
    let zb := b.z * b.z % p384
    let u1 := a.x * zb % p384
    let u2 := b.x * za % p384
    let s1 := a.y * b.z * zb % p384
    let s2 := b.y * a.z * za % p384
    if u1 = u2 then (if s1 = s2 then a.double else ⟨1, 1, 0⟩)
    else
      let h := subP u2 u1
      let r := subP s2 s1
      let hh := h * h % p384
      let hhh := h * hh % p384
      let v := u1 * hh % p384
      let x3 := subP (subP (r * r) hhh) (2 * v)
      ⟨x3, subP (r * subP v x3) (s1 * hhh), a.z * b.z * h % p384⟩

/-- `k` times a point, by the low bits of `k`. -/
def JPoint.mul (a : JPoint) : Nat → Nat → JPoint
  | 0, _ => ⟨1, 1, 0⟩
  | n + 1, k =>
    let r := (JPoint.mul a.double n (k / 2))
    if k % 2 = 1 then r.add a else r

/-- The affine x of a point. -/
def JPoint.affX (a : JPoint) : Nat :=
  let i := powMod p384 384 a.z (p384 - 2)
  a.x * (i * i % p384) % p384

/-- The signature (r, s) of a digest verifies under the public key (x, y). -/
def ecdsaOk (digest : List Byte) (x y r s : Nat) : Bool :=
  let onCurve := decide (x < p384) && decide (y < p384) && (y * y % p384 == subP ((x * x * x + p384b)) (3 * x))
  if !onCurve ∨ r = 0 ∨ s = 0 ∨ p384n ≤ r ∨ p384n ≤ s then false
  else
    let w := powMod p384n 384 s (p384n - 2)
    let u1 := beNat digest * w % p384n
    let u2 := r * w % p384n
    let q := (JPoint.mul ⟨p384gx, p384gy, 1⟩ 384 u1).add (JPoint.mul ⟨x, y, 1⟩ 384 u2)
    decide (q.z ≠ 0) && q.affX % p384n == r

/-- SHA-384 of bytes. -/
def sha384 (l : List Byte) : List Byte := hashOf 0x11 l

end Sys2Proof.Machine
end

