-- ==== Sys2Proof/Machine/StrParse.lean ====
section
/-! DEFINITION. Structure images as bytes (R22–R40) and the checks that need the image alone (R24, R27, R28, R42, R249,
R250, R310); the failure codes of R61 and the section index of R582. -/

namespace Sys2Proof.Machine

/-- A little-endian field of an image, and whether a range of it is zero. -/
def leAt (l : List Byte) (o n : Nat) : Nat := leNat ((l.drop o).take n)
def zeroAt (l : List Byte) (o n : Nat) : Bool := ((l.drop o).take n).all (· == 0)

/-- Plain CRC-32C of bytes. -/
def crcPlain (l : List Byte) : Nat := crc32c 0xFFFFFFFF l

/-- Rounded up to a multiple. -/
def upTo (k n : Nat) : Nat := (n + k - 1) / k * k

/-- Index recorded where no section applies (R582). -/
def noSec : Nat := 0xFFF

/-- A section-table entry (R24) and its index. -/
structure Sec where
  idx : Nat
  typ : Nat
  inst : Nat
  off : Nat
  len : Nat
  crc : Nat
deriving DecidableEq, Repr

/-- A failure: code and section index. -/
abbrev Bad := Nat × Nat

/-- The first condition that fails gives its failure. -/
def firstBad : List (Bool × Bad) → Option Bad
  | [] => none
  | (ok, b) :: r => if ok then firstBad r else some b

/-- The first failure among checks made in order. -/
def orBad (a : Option Bad) (b : Unit → Option Bad) : Option Bad := match a with | some x => some x | none => b ()

/-! ## Header, table, sections -/

def imgCount (l : List Byte) : Nat := leAt l 0x10 2
def imgFlags (l : List Byte) : Nat := leAt l 7 1
def imgLevel (l : List Byte) : Nat := leAt l 6 1
def imgVersion (l : List Byte) : Nat := leAt l 8 4
def imgBase (l : List Byte) : List Byte := (l.drop 0x18).take 48

def secAt (l : List Byte) (i : Nat) : Sec :=
  let o := 0x80 + 16 * i
  { idx := i, typ := leAt l o 2, inst := leAt l (o + 2) 2, off := leAt l (o + 4) 4, len := leAt l (o + 8) 4,
    crc := leAt l (o + 12) 4 }

def imgSecs (l : List Byte) : List Sec := (List.range (imgCount l)).map (secAt l)
def secBytes (l : List Byte) (e : Sec) : List Byte := (l.drop e.off).take e.len

/-- The section of a type, and of a type and instance. -/
def secOf (l : List Byte) (t : Nat) : Option Sec := (imgSecs l).find? (fun e => e.typ == t)
def secInst (l : List Byte) (t i : Nat) : Option Sec := (imgSecs l).find? (fun e => e.typ == t && e.inst == i)
def payOf (l : List Byte) (t : Nat) : List Byte := match secOf l t with | some e => secBytes l e | none => []
def idxOf (l : List Byte) (t : Nat) : Nat := match secOf l t with | some e => e.idx | none => noSec

/-- Step 1 of R41: magic, format with the reserved bytes, hcrc; the base of an image without the partial flag is zero. -/
def hdrBad (l : List Byte) : Option Bad :=
  firstBad [(leAt l 0 4 == 0x49535843, (1, noSec)),
    (leAt l 4 2 == 1 && decide (imgFlags l < 2) && zeroAt l 0x12 2 && leAt l 0x14 4 == 0x80 && zeroAt l 0x68 20 &&
      (imgFlags l == 1 || zeroAt l 0x18 48), (2, noSec)),
    (leAt l 0x7C 4 == crcPlain (l.take 0x7C), (3, noSec))]

/-- Step 2 of R41: length and the partial flag. An image too short for its section table and signature block gives LENGTH
(DESIGN CHOICE, assumption 89: R61 names no code). -/
def lenBad (full : Bool) (l : List Byte) : Option Bad :=
  let n := l.length
  firstBad [(leAt l 0xC 4 == n && n % 64 == 0 && decide (n ≤ if full then 2 ^ 26 else 2 ^ 24) &&
      decide (0x80 + 16 * imgCount l + 256 ≤ n) && (imgFlags l == if full then 0 else 1), (4, noSec))]

/-- The signature block of an image (R25): the public key, and the bytes it signs. -/
def sigBlock (l : List Byte) : List Byte := l.drop (l.length - 256)
def sigKey (l : List Byte) : List Byte := ((sigBlock l).drop 8).take 96

/-- Hash of the key that signs an image, as a number. -/
def sigKeyHash (l : List Byte) : Nat := leNat (sha384 (sigKey l))

/-- The signature of an image verifies. A signature block with a wrong tag or reserved bytes that are not zero gives
SIGNATURE (DESIGN CHOICE, assumption 90: R61 names no code). -/
def sigOk (l : List Byte) : Bool :=
  let b := sigBlock l
  leAt b 0 4 == 0x4E474953 && zeroAt b 4 4 && zeroAt b 200 56 &&
    ecdsaOk (sha384 (l.take (l.length - 256 + 104))) (leAt b 8 48) (leAt b 56 48) (leAt b 104 48) (leAt b 152 48)

def resetClass (t : Nat) : Bool := [1, 3, 4, 5, 7, 8].contains t
def knownType (t : Nat) : Bool := (decide (1 ≤ t) && decide (t ≤ 9)) || t == 0xF0 || decide (0x8000 ≤ t)

/-- A section-table entry breaks R24. -/
def entryBad (l : List Byte) (e : Sec) : Bool :=
  e.off % 64 != 0 || decide (e.off < 0x80 + 16 * imgCount l) || decide (l.length - 256 < e.off + e.len) ||
    (imgSecs l).any (fun f => decide (f.idx < e.idx) && decide (e.off < f.off + f.len) && decide (f.off < e.off + e.len))

/-- An entry breaks the instance rules of R27: a second of a type or of an instance, or an instance out of range. -/
def dupBad (l : List Byte) (e : Sec) : Bool :=
  let before := fun (p : Sec → Bool) => (imgSecs l).any (fun f => decide (f.idx < e.idx) && f.typ == e.typ && p f)
  if resetClass e.typ || e.typ == 9 then before (fun _ => true)
  else if e.typ = 2 then decide (24 ≤ e.inst) || before (fun f => f.inst == e.inst)
  else if e.typ = 6 then decide (32 ≤ e.inst) || before (fun f => f.inst == e.inst)
  else false

/-- Step 5 of R41, entry by entry. A count outside 1–512 gives SECTION_TABLE with no index (DESIGN CHOICE, assumption 88: R23
and R61 name no code). -/
def tableBad (full : Bool) (l : List Byte) : Option Bad :=
  if imgCount l = 0 ∨ 512 < imgCount l then some (8, noSec)
  else firstBad ((imgSecs l).flatMap (fun e => [(!entryBad l e, (8, e.idx)), (knownType e.typ, (0xA, e.idx)),
    (full || !resetClass e.typ, (0x10, e.idx)), (!dupBad l e, (0xC, e.idx))]))

/-- Step 6 of R41. -/
def crcBad (l : List Byte) : Option Bad :=
  firstBad ((imgSecs l).map (fun e => (crcPlain (secBytes l e) == e.crc, (9, e.idx))))

/-- The base digest of a full image (R26). -/
def baseDigest (l : List Byte) : List Byte :=
  sha384 ([1, 3, 4, 5, 7, 8].flatMap (payOf l))

/-! ## TABLES, POOLS (R36, R37, R229, R249–R251) -/

structure TblRec where
  kind : Nat
  place : Nat
  log2n : Nat
  key : Nat
  act : Nat
  flags : Nat
  period : Nat
deriving DecidableEq, Repr

def tblRec (pay : List Byte) (t : Nat) : TblRec :=
  let o := 16 * t
  { kind := leAt pay o 1, place := leAt pay (o + 1) 1, log2n := leAt pay (o + 2) 1, key := leAt pay (o + 3) 1,
    act := leAt pay (o + 4) 1, flags := leAt pay (o + 5) 1, period := leAt pay (o + 6) 2 }

def TblRec.hbm (r : TblRec) : Bool := r.place.testBit 0
def TblRec.quad (r : TblRec) : Nat := r.place / 16
/-- Bytes a table takes. -/
def TblRec.bytes (r : TblRec) : Nat :=
  match r.kind with | 1 => 64 * 2 ^ r.log2n | 2 => 16 * 2 ^ r.log2n | 3 => 32 * 2 ^ r.log2n | _ => 0

/-- A record obeys R249 and R250. -/
def tblRecOk (pay : List Byte) (t : Nat) : Bool :=
  let r := tblRec pay t
  let com := r.place / 64 == 0 && r.place / 2 % 8 == 0 && decide (r.flags < 4) && (r.flags.testBit 0 == (r.period != 0)) &&
    zeroAt pay (16 * t + 8) 8 && r.act % 8 == 0
  match r.kind with
  | 0 => zeroAt pay (16 * t) 16
  | 1 => com && r.key % 8 == 0 && decide (8 ≤ r.key) && decide (r.key ≤ 104) && decide (r.act ≤ 48) &&
      decide (r.key + r.act ≤ 112) &&
      (if r.hbm then decide (10 ≤ r.log2n) && decide (r.log2n ≤ 27) else decide (2 ≤ r.log2n) && decide (r.log2n ≤ 20)) &&
      (!r.flags.testBit 1 || (r.key == 64 && decide (8 ≤ r.act)))
  | 2 => com && r.key == 32 && decide (r.log2n ≤ 20) && decide (8 ≤ r.act) && decide (r.act ≤ 48) && r.flags == 0 && !r.hbm
  | 3 => com && r.key == 128 && decide (r.log2n ≤ 19) && decide (8 ≤ r.act) && decide (r.act ≤ 48) && r.flags == 0 && !r.hbm
  | _ => false

def sumOf (l : List Nat) (f : Nat → Nat) : Nat := l.foldl (fun n i => n + f i) 0

def tables32 (pay : List Byte) (p : TblRec → Bool) (f : TblRec → Nat) : Nat :=
  sumOf (List.range 32) (fun t => if p (tblRec pay t) then f (tblRec pay t) else 0)

structure PoolRec where
  size : Nat
  bufs : Nat
  place : Nat
  high : Nat
  ring : Nat
deriving DecidableEq, Repr

def poolCount (pay : List Byte) : Nat := leAt pay 0 1
def poolRec (pay : List Byte) (p : Nat) : PoolRec :=
  let o := 16 + 16 * p
  { size := leAt pay o 2, bufs := leAt pay (o + 2) 4, place := leAt pay (o + 6) 1, high := leAt pay (o + 7) 4,
    ring := leAt pay (o + 11) 4 }

def PoolRec.quad (r : PoolRec) : Nat := r.place % 16
def PoolRec.hbm (r : PoolRec) : Bool := r.place / 16 == 1
def PoolRec.bytes (r : PoolRec) : Nat := r.size * 256 * r.bufs
def PoolRec.stackBytes (r : PoolRec) : Nat := r.bytes + upTo 256 (r.bufs * r.size * 8)
def PoolRec.ringBytes (r : PoolRec) : Nat := upTo 256 (r.ring * 8)

def poolRecOk (pay : List Byte) (p : Nat) : Bool :=
  let r := poolRec pay p
  if p < poolCount pay then
    decide (1 ≤ r.size) && decide (r.size ≤ 256) && decide (r.place / 16 ≤ 1) && decide (r.quad ≤ 3) &&
      leAt pay (16 + 16 * p + 15) 1 == 0
  else zeroAt pay (16 + 16 * p) 16

/-- Bytes of the pools below `n` in a packet store, in a stack, and of the rings of a quadrant (R229). -/
def storeSum (pay : List Byte) (q n : Nat) : Nat :=
  sumOf (List.range n) (fun p => let r := poolRec pay p; if !r.hbm && r.quad == q then r.bytes else 0)
def stackSum (pay : List Byte) (q n : Nat) : Nat :=
  sumOf (List.range n) (fun p => let r := poolRec pay p; if r.hbm && r.quad == q then r.stackBytes else 0)
def ringSum (pay : List Byte) (q n : Nat) : Nat :=
  sumOf (List.range n) (fun p => let r := poolRec pay p; if r.quad == q then r.ringBytes else 0)

/-- Base of a quadrant's packet store and of its HBM stack. -/
def storeBase (q : Nat) : Nat := 0x100000000 + q * 0x3000000
def stackBase (q : Nat) : Nat := 0x10000000000 + q * 0x600000000

def poolBaseOf (pay : List Byte) (p : Nat) : Nat :=
  let r := poolRec pay p
  if r.hbm then stackBase r.quad + stackSum pay r.quad p else storeBase r.quad + storeSum pay r.quad p

def ringBaseOf (pay : List Byte) (p : Nat) : Nat :=
  let q := (poolRec pay p).quad
  let n := poolCount pay
  stackBase q + stackSum pay q n + ringSum pay q p

def tblBaseOf (pools pay : List Byte) (t : Nat) : Nat :=
  let r := tblRec pay t
  let n := poolCount pools
  if r.hbm then
    stackBase r.quad + stackSum pools r.quad n + ringSum pools r.quad n +
      sumOf (List.range t) (fun u => let x := tblRec pay u; if x.hbm && x.quad == r.quad then x.bytes else 0)
  else 0x200000000 + sumOf (List.range t) (fun u => let x := tblRec pay u; if x.hbm then 0 else x.bytes)

/-! ## LANES (R33–R35) -/

def modePorts (m : Nat) : Nat := match m with | 1 => 1 | 2 => 2 | 3 => 4 | 4 => 8 | 5 => 8 | _ => 0

def grpKind (pay : List Byte) (g : Nat) : Nat := leAt pay (32 * g) 1
def grpMode (pay : List Byte) (g : Nat) : Nat := leAt pay (32 * g + 1) 1

def grpOk (pay : List Byte) (g : Nat) : Bool :=
  let o := 32 * g
  zeroAt pay (o + 18) 14 &&
  (match grpKind pay g with
   | 1 =>
     let n := modePorts (grpMode pay g)
     decide (1 ≤ n) && zeroAt pay (o + 2 + n) (8 - n) && zeroAt pay (o + 10 + n) (8 - n) &&
       (List.range n).all (fun i => decide (leAt pay (o + 2 + i) 1 < 4))
   | k => decide (k ≤ 3) && zeroAt pay (o + 1) 17)

/-- The Ethernet ports, in number order. -/
def lanePorts (pay : List Byte) : List PortCfg :=
  (List.range 8).flatMap (fun g =>
    if grpKind pay g ≠ 1 then []
    else (List.range (modePorts (grpMode pay g))).map (fun i =>
      { group := g, slot := i, mode := grpMode pay g, quad := leAt pay (32 * g + 2 + i) 1, pool := leAt pay (32 * g + 10 + i) 1 }))

/-- The Obrex links, in number order: group, slot, kind. -/
def laneLinkPlaces (pay : List Byte) : List (Nat × Nat × Nat) :=
  (List.range 8).flatMap (fun g =>
    match grpKind pay g with
    | 2 => [(g, 0, 2)]
    | 3 => [(g, 0, 3), (g, 1, 3)]
    | _ => [])

def laneLinks (pay : List Byte) : List PortCfg :=
  (laneLinkPlaces pay).zipIdx.map (fun e =>
    { group := e.1.1, slot := e.1.2.1, mode := e.1.2.2, quad := leAt pay (0x140 + 4 * e.2) 1, pool := leAt pay (0x141 + 4 * e.2) 1 })

def bifLinks (b : Nat) : Nat := match b with | 0 => 1 | 1 => 2 | _ => 4

/-- The host links: link number and what the record gives it. -/
def laneHosts (pay : List Byte) : Tab PortCfg :=
  (List.range 4).flatMap (fun p =>
    let o := 0x100 + 16 * p
    (List.range (bifLinks (leAt pay o 1))).map (fun l =>
      (4 * p + l, { group := p, slot := l, mode := leAt pay o 1, quad := leAt pay (o + 1 + l) 1, pool := leAt pay (o + 5 + l) 1 })))

def hostRecOk (pay : List Byte) (p : Nat) : Bool :=
  let o := 0x100 + 16 * p
  let n := bifLinks (leAt pay o 1)
  decide (leAt pay o 1 ≤ 2) && zeroAt pay (o + 1 + n) (4 - n) && zeroAt pay (o + 5 + n) (4 - n) && zeroAt pay (o + 9) 7 &&
    (List.range n).all (fun i => decide (leAt pay (o + 1 + i) 1 < 4))

def lanesOk (pay : List Byte) : Bool :=
  let n := (laneLinkPlaces pay).length
  pay.length == 0x160 && (List.range 8).all (grpOk pay) && (List.range 4).all (hostRecOk pay) && decide (n ≤ 8) &&
    decide ((lanePorts pay).length ≤ 64) &&
    (List.range 8).all (fun i => zeroAt pay (0x142 + 4 * i) 2 &&
      (if i < n then decide (leAt pay (0x140 + 4 * i) 1 < 4) else zeroAt pay (0x140 + 4 * i) 4))

/-- Every source's quadrant and ingress pool. -/
def laneSources (pay : List Byte) : List (Nat × Nat) :=
  (lanePorts pay ++ laneLinks pay ++ (laneHosts pay).map (fun e => e.2)).map (fun c => (c.quad, c.pool))

/-! ## TOPOLOGY, PROGRAM, WEIGHTS -/

def topMask (pay : List Byte) (g : Nat) : Nat := leAt pay (8 * g) 3
def topQueue (pay : List Byte) (q : Nat) : Nat := leAt pay (0x200 + 2 * q) 2
def topSteer (pay : List Byte) (h : Nat) : Nat := leAt pay (0xA00 + 2 * h) 2 % 1024
def queueNamed (pay : List Byte) (g : Nat) : Bool :=
  (List.range 1024).any (fun q => (topQueue pay q).testBit 15 && topQueue pay q % 64 == g)

def progOk (pay : List Byte) : Bool :=
  let code := leAt pay 0 4
  let entry := leAt pay 4 4
  let scr := leAt pay 8 4
  code % 6 == 0 && decide (code ≤ 262140) && entry % 6 == 0 && decide (entry < code) && decide (scr ≤ 2 ^ 20) &&
    zeroAt pay 0x10 48 && decide (upTo 64 (64 + code) + scr ≤ pay.length)

/-- Weights against the queue records: groups named have 1–255, others 0. -/
def weightsOk (named : Nat → Bool) (pay : List Byte) : Bool :=
  pay.length == 64 && (List.range 64).all (fun g => named g == (leAt pay g 1 != 0))

/-! ## BANKHASH (R38, R309–R311) -/

/-- What the fitted memory of a controller asks of its record: whether it is used, span bits, hashed bits, column and row
bits. -/
structure HashShape where
  used : Bool
  k : Nat
  n : Nat
  ncol : Nat
  nrow : Nat
deriving DecidableEq, Repr

structure HashRec where
  n : Nat
  masks : List Nat
  cols : List Nat
  rows : List Nat
deriving DecidableEq, Repr

/-- Length of the record at an offset. -/
def hashRecLen (pay : List Byte) (o : Nat) : Nat := upTo 8 (8 + 6 * leAt pay o 1 + leAt pay (o + 1) 1 + leAt pay (o + 2) 1)

/-- Offset of record `m`. -/
def hashRecOff (pay : List Byte) : Nat → Nat
  | 0 => 0
  | m + 1 => hashRecOff pay m + hashRecLen pay (hashRecOff pay m)

def hashRecAt (pay : List Byte) (m : Nat) : HashRec :=
  let o := hashRecOff pay m
  let n := leAt pay o 1
  let c := leAt pay (o + 1) 1
  { n := n, masks := (List.range n).map (fun i => leAt pay (o + 8 + 6 * i) 6),
    cols := (List.range c).map (fun i => leAt pay (o + 8 + 6 * n + i) 1),
    rows := (List.range (leAt pay (o + 2) 1)).map (fun i => leAt pay (o + 8 + 6 * n + c + i) 1) }

/-- The default mapping of a DDR5 record with n = 0 (R311). -/
def defaultHash (h : HashShape) : HashRec :=
  let f := 6 + h.ncol
  { n := h.n, cols := (List.range h.ncol).map (· + 6), rows := (List.range h.nrow).map (· + f + h.n),
    masks := (List.range h.n).map (fun i => 2 ^ (f + i) + if i < h.nrow then 2 ^ (f + h.n + i) else 0) }

/-- The record in effect: the default where a DDR5 record has n = 0. -/
def hashInEffect (m : Nat) (h : HashShape) (r : HashRec) : HashRec := if 4 ≤ m ∧ r.n = 0 then defaultHash h else r

/-- Linear independence over GF(2): each vector is reduced by the basis so far. -/
def independent : List Nat → List Nat → Bool
  | _, [] => true
  | basis, v :: r =>
    let x := basis.foldl (fun x b => min x (Nat.xor x b)) v
    x != 0 && independent (basis ++ [x]) r

/-- A controller record's failure under R310, with the BANKHASH section's index. -/
def hashRecBad (pay : List Byte) (idx m : Nat) (h : HashShape) : Option Bad :=
  let r := hashRecAt pay m
  if !h.used || (decide (4 ≤ m) && r.n == 0) then none
  else
    let free := (List.range h.k).filter (fun b => decide (6 ≤ b) && !r.cols.contains b && !r.rows.contains b)
    let fm := free.foldl (fun n b => n + 2 ^ b) 0
    let listed := r.cols ++ r.rows
    firstBad [(r.n == h.n && r.cols.length == h.ncol && r.rows.length == h.nrow &&
        (decide (4 ≤ m) || (r.rows.getD 14 0 == 33 && r.rows.getD 15 0 == 34)) && zeroAt pay (hashRecOff pay m + 3) 5, (0xD, idx)),
      (decide (listed.eraseDups.length = listed.length) && listed.all (fun b => decide (6 ≤ b) && decide (b < h.k)) &&
        free.length == h.n && r.masks.all (fun v => v % 64 == 0 && decide (v < 2 ^ h.k)), (0xD, idx)),
      (independent [] (r.masks.map (fun v => Nat.land v fm)), (0xE, idx))]

/-! ## Semantic checks (R42) -/

/-- Required sections (R27): one of each reset-class type and WEIGHTS, and SEEDS of every defined table. -/
def missingBad (l : List Byte) : Option Bad :=
  let tb := payOf l 5
  firstBad ([1, 3, 4, 5, 7, 8, 9].map (fun t => ((secOf l t).isSome, (0xB, noSec))) ++
    (List.range 32).map (fun t => ((tblRec tb t).kind == 0 || (secInst l 6 t).isSome, (0xB, noSec))))

/-- SEEDS against the tables: the table is defined, a prefix table's seeds are zero. -/
def seedsBad (kind : Nat → Nat) (l : List Byte) : Option Bad :=
  firstBad (((imgSecs l).filter (fun e => e.typ == 6)).map (fun e =>
    let pay := secBytes l e
    (pay.length == 16 && zeroAt pay 12 4 && kind e.inst != 0 && (kind e.inst == 1 || zeroAt pay 0 12), (0xD, e.idx))))

/-- PROGRAM sections against R32. -/
def progsBad (l : List Byte) : Option Bad :=
  firstBad (((imgSecs l).filter (fun e => e.typ == 2)).map (fun e => (progOk (secBytes l e), (0xD, e.idx))))

/-- The semantic checks of a full image. -/
def semBad (shape : Nat → HashShape) (l : List Byte) : Option Bad :=
  let top := payOf l 1
  let lan := payOf l 3
  let poo := payOf l 4
  let tab := payOf l 5
  let np := poolCount poo
  let it := idxOf l 1
  let ip := idxOf l 4
  let ib := idxOf l 5
  let masks := (List.range 64).map (topMask top)
  orBad (firstBad [
    (top.length == 0x2A00 && (List.range 64).all (fun g => zeroAt top (8 * g + 3) 5) &&
      (List.range 1024).all (fun q => !(topQueue top q).testBit 15 || topMask top (topQueue top q % 64) != 0), (0xD, it)),
    ((List.range 4096).all (fun h => (topQueue top (topSteer top h)).testBit 15), (0xD, it)),
    ((List.range 24).all (fun c => !masks.any (fun m => m.testBit c) || (secInst l 2 c).isSome), (0xD, it)),
    (weightsOk (queueNamed top) (payOf l 9), (0xD, idxOf l 9)),
    (lanesOk lan, (0xD, idxOf l 3)),
    ((laneSources lan).all (fun e => decide (e.2 < np) && (poolRec poo e.2).quad == e.1), (0xD, idxOf l 3)),
    (poo.length == 0x110 && decide (8 ≤ np) && decide (np ≤ 16) && (List.range 16).all (poolRecOk poo), (0xD, ip)),
    ((List.range 4).all (fun q => decide (storeSum poo q np ≤ 0x3000000)), (0xD, ip)),
    ((List.range 4).all (fun q => decide (stackSum poo q np + ringSum poo q np +
      tables32 tab (fun r => r.hbm && r.quad == q) TblRec.bytes ≤ 0x600000000)), (0xD, ip)),
    (decide (tables32 tab (fun r => r.kind == 1 && !r.hbm) (fun r => 4 * 2 ^ r.log2n) ≤ 2 ^ 22) &&
      decide (tables32 tab (fun r => r.kind == 1 && r.hbm) (fun r => 4 * 2 ^ r.log2n) ≤ 2 ^ 29), (0xD, ib)),
    (decide (tables32 tab (fun r => r.kind == 2) (fun r => 2 ^ r.log2n) +
      2 * tables32 tab (fun r => r.kind == 3) (fun r => 2 ^ r.log2n) ≤ 2 ^ 20), (0xD, ib)),
    (tab.length == 512 && (List.range 32).all (tblRecOk tab) &&
      decide (tables32 tab (fun r => r.flags.testBit 1) (fun _ => 1) ≤ 1) &&
      decide (tables32 tab (fun r => !r.hbm) TblRec.bytes ≤ 2 ^ 26), (0xD, ib))])
  (fun _ => orBad (seedsBad (fun t => (tblRec tab t).kind) l)
  (fun _ => orBad (progsBad l)
  (fun _ => orBad ((List.range 12).foldl (fun b m => orBad b (fun _ => hashRecBad (payOf l 7) (idxOf l 7) m (shape m))) none)
    (fun _ =>
      let pr := payOf l 8
      firstBad [(pr.length == 1544 && (List.range 193).all (fun i => zeroAt pr (8 * i + 6) 2), (0xD, idxOf l 8))]))))

end Sys2Proof.Machine
end

