-- ==== Sys2Proof/Machine/StrOps.lean ====
section
/-! DEFINITION. Structure images on the device: validation against the part (R41, R50), application at boot (R43, R229,
R234, R305), and live replacement (R48–R59). -/

namespace Sys2Proof.Machine

/-! ## Validation -/

/-- The key hash of OTP that equals a hash, present and not revoked (R503). -/
def otpKey (s : State) (h : Nat) : Option Nat :=
  (List.range 4).find? (fun k => (fld s Reg.SVC_OTP F.SVC_OTP_keys).testBit k &&
    !(fld s Reg.SVC_OTP F.SVC_OTP_revoked).testBit k && (Config.keyHash k).toNat == h)

/-- Step 4 of R41: key and signature. -/
def signBad (s : State) (l : List Byte) : Option Bad :=
  orBad (firstBad [((otpKey s (sigKeyHash l)).isSome, (6, noSec))]) (fun _ => firstBad [(sigOk l, (7, noSec))])

/-- The DIMMs fitted in DDR5 channel `c`. -/
def dimmsOf (c : Nat) : List Config.Dimm := (List.range 2).filterMap (Config.spd c)
def spdFitted (c : Nat) : Bool := !(dimmsOf c).isEmpty

/-- Ranks of a channel, and its capacity in GiB: of each rank, in one place of the stack, 64 / width devices. -/
def dimmRanks (l : List Config.Dimm) : Nat := (l.map (fun d => d.ranks)).sum
def dimmGib (l : List Config.Dimm) : Nat := (l.map (fun d => d.ranks * d.height * d.density * (64 / max 1 d.width) / 8)).sum

/-- The population is one R304 supports, of identical DIMMs. -/
def spdUsed (c : Nat) : Bool :=
  let l := dimmsOf c
  match l with
  | [] => false
  | d :: r => r.all (· == d) && d.kind == 0 && d.rate == 6400 && [4, 8].contains d.width && [16, 32].contains d.density &&
      [1, 2, 4].contains d.height && [1, 2, 4].contains (dimmRanks l) && [16, 32, 64, 128, 256, 512].contains (dimmGib l)

/-- MC_DIMM of a DDR5 channel in use, as its DIMMs' SPD gives it (R339). -/
def spdWord (c : Nat) : Word :=
  let l := dimmsOf c
  let d := l.headD { kind := 0, rate := 0, width := 4, density := 16, height := 1, ranks := 1 }
  toW (dimmGib l * 256 + Nat.log2 d.height * 64 + b2n (d.width == 8) * 32 + b2n (d.density == 32) * 16 +
    Nat.log2 (dimmRanks l) * 4 + l.length)

/-- What a controller's memory asks of its hash record (R308, R310). -/
def hashShape (m : Nat) : HashShape :=
  if m < 4 then { used := true, k := 35, n := 9, ncol := 4, nrow := 16 }
  else
    let w := spdWord (m - 4)
    { used := spdUsed (m - 4), k := 30 + Nat.log2 (getF w F.MC_DIMM_cap_gib),
      n := 6 + getF w F.MC_DIMM_ranks + getF w F.MC_DIMM_height, ncol := if getF w F.MC_DIMM_width = 0 then 7 else 6,
      nrow := if getF w F.MC_DIMM_density = 0 then 16 else 17 }

/-- The checks of R41 on a full image. -/
def fullBad (s : State) (l : List Byte) : Option Bad :=
  orBad (hdrBad l) (fun _ => orBad (lenBad true l) (fun _ =>
  orBad (firstBad [(decide (fld s Reg.IDN_COMPAT F.IDN_COMPAT_level_min ≤ imgLevel l) &&
      decide (imgLevel l ≤ fld s Reg.IDN_COMPAT F.IDN_COMPAT_level_max), (5, noSec))]) (fun _ =>
  orBad (signBad s l) (fun _ => orBad (tableBad true l) (fun _ => orBad (missingBad l) (fun _ =>
  orBad (crcBad l) (fun _ => semBad hashShape l)))))))

/-- The bytes of STR_DIGEST. -/
def runDigest (s : State) : List Byte := (List.range 8).flatMap (fun i => leBytes 6 (rd s (Reg.STR_DIGEST i)).toNat)

/-- A valid queue of the running image names the group. -/
def runNamed (s : State) (g : Nat) : Bool := (List.range 1024).any (fun q => queueValid s q && queueGroup s q == g)

/-- The checks of R50 on a partial image. -/
def partialBad (s : State) (l : List Byte) : Option Bad :=
  orBad (hdrBad l) (fun _ => orBad (lenBad false l) (fun _ =>
  orBad (firstBad [(imgLevel l == fld s Reg.STR_LEVEL F.STR_LEVEL_level, (5, noSec))]) (fun _ =>
  orBad (signBad s l) (fun _ =>
  orBad (firstBad [(imgBase l == runDigest s, (0xF, noSec))]) (fun _ => orBad (tableBad false l) (fun _ =>
  orBad (crcBad l) (fun _ =>
  orBad (seedsBad (fun t => fld s (Reg.TBL_T_CFG t) F.TBL_T_CFG_kind) l) (fun _ =>
  orBad (progsBad l) (fun _ =>
    firstBad [((secOf l 9).isNone || weightsOk (runNamed s) (payOf l 9), (0xD, idxOf l 9))])))))))))

/-! ## Loading programs -/

/-- Replaces a range of a memory by bytes, zero beyond them. -/
def loadRange (m : List Host.Cell) (base size : Nat) (l : List Byte) : List Host.Cell :=
  wrBytes (m.filter (fun e => decide (e.1 < base) || decide (base + size ≤ e.1))) base l

/-- Code SRAM of a cluster starts at its number × 2^18, cluster scratch at its number × 2^20, in the state's lists. -/
def loadProgram (c : Nat) (pay : List Byte) (s : State) : State :=
  let n := leAt pay 0 4
  let scr := (pay.drop (upTo 64 (64 + n))).take (leAt pay 8 4)
  { s with code := loadRange s.code (c * 0x40000) 0x40000 ((pay.drop 64).take n),
           scratch := loadRange s.scratch (c * 0x100000) 0x100000 scr,
           img := { s.img with entry := Tab.set 0 s.img.entry c (leAt pay 4 4) } }

/-! ## Application at boot (R43) -/

/-- Selects of up to eight bits, packed by six. -/
def packSel (l : List Nat) : Word := toW ((l.take 8).zipIdx.foldl (fun n e => n + e.1 % 64 * 2 ^ (6 * e.2)) 0)

/-- BANKHASH of one controller, MC_ID and MC_DIMM; the unit of a channel not used is ABSENT (R305). -/
def applyHash (pay : List Byte) (m : Nat) (s : State) : State :=
  let h := hashShape m
  if !h.used then
    let s1 := setUnitState m 0 0 s
    if spdFitted (m - 4) then raise s1 (mcSrc m 8) else s1
  else
    let r := hashInEffect m h (hashRecAt pay m)
    let s1 := setFld s (Reg.MC_ID m) F.MC_ID_units (if m < 4 then 32 else 1)
    let s2 := if m < 4 then s1 else wr s1 (Reg.MC_DIMM m) (spdWord (m - 4))
    let s3 := forEach r.masks.zipIdx (fun e s => wr s (Reg.MC_HASH m e.2) (toW e.1)) s2
    let s4 := wr s3 (Reg.MC_COLSEL m) (packSel r.cols)
    let s5 := forEach (List.range 3) (fun k s => wr s (Reg.MC_ROWSEL m k) (packSel (r.rows.drop (8 * k)))) s4
    wr s5 (Reg.MC_HASHCFG m) (toW (r.rows.length * 65536 + r.cols.length * 256 + r.n))

/-- Memory training of one unit ends at the temperature its sensor reads (R326, R331): NORMAL, or with the outcome the outside gives, 5 DEGRADED where a
setting is logged, 6 RETIRED. -/
def trainBoot (logged : Nat → Nat → Bool) (out : List (Nat × Nat × Nat)) (m u : Nat) (s : State) : State :=
  let (w, s0) := draw s
  let s1 := setTemp m u (w.toNat % 256) s0
  match out.find? (fun e => e.1 == m && e.2.1 == u) with
  | none => setMcUnit m u { good := true, half := false, ue := 0 } (setUnitState m u 2 s1)
  | some (_, _, v) =>
    if v = 5 ∧ logged m u then
      raise (setMcUnit m u { good := true, half := true, ue := 0 } (setUnitState m u 5 s1)) (mcSrc m 7)
    else raise (setUnitState m u 6 s1) (mcSrc m 8)

def trainAll (logged : Nat → Nat → Bool) (out : List (Nat × Nat × Nat)) (s : State) : State :=
  forEach ((List.range 12).filter (mcUsed s)) (fun m s => forEach (List.range (trainUnits m)) (fun u s => trainBoot logged out m u s) s) s

/-- The image places pools, rings or tables on stack `q`. -/
def stackNamed (l : List Byte) (q : Nat) : Bool :=
  let poo := payOf l 4
  let n := poolCount poo
  stackSum poo q n + ringSum poo q n + tables32 (payOf l 5) (fun r => r.hbm && r.quad == q) TblRec.bytes != 0

/-- R44: a unit of a stack the image uses has no working setting. -/
def trainFailed (l : List Byte) (s : State) : Bool :=
  (List.range 4).any (fun q => stackNamed l q && (List.range 32).any (fun u => unitState s q u == 6))

/-- LANES: ports, links and lane groups (R33–R35, R340). -/
def applyLanes (pay : List Byte) (s : State) : State :=
  let ports := (lanePorts pay).zipIdx.map (fun e => (e.2, e.1))
  let links := (laneLinks pay).zipIdx.map (fun e => (e.2, e.1))
  let hosts := laneHosts pay
  let s1 := { s with img := { s.img with ports := ports, olinks := links, hlinks := hosts } }
  let s2 := forEach ports (fun e s => setFld (wr s (Reg.MAC_TSADJ e.1) (toW (Config.tsAdj e.1).toNat)) (Reg.MAC_PSTAT e.1)
    F.MAC_PSTAT_mode e.2.mode) s1
  let s3 := forEach links (fun e s => setFld s (Reg.OBX_LSTAT e.1) F.OBX_LSTAT_half (b2n (e.2.mode == 3))) s2
  let s4 := forEach hosts (fun e s => setFld s (Reg.HST_LINK e.1) F.HST_LINK_present 1) s3
  forEach (List.range 8) (fun g s =>
    let first := ((ports ++ links).find? (fun e => e.2.group == g)).map (fun e => e.1)
    wr s (Reg.STR_LANEGRP g) (toW (first.getD 0 * 256 + (if grpKind pay g = 1 then grpMode pay g * 16 else 0) + grpKind pay g))) s4

/-- One pool of POOLS: registers, the list in ascending order, ring and cache empty (R229, R234). -/
def applyPool (pay : List Byte) (p : Nat) (s : State) : State :=
  let r := poolRec pay p
  let base := poolBaseOf pay p
  let cfg := toW (r.size * 2 ^ 31 + b2n r.hbm * 2 ^ 28 + r.quad * 2 ^ 26 + 2 ^ 25 + 2 ^ 24)
  let s1 := wr (wr (wr s (Reg.BPM_PCFG p) cfg) (Reg.BPM_PBASE p) (toW base)) (Reg.BPM_PBUF p) (toW r.bufs)
  let s2 := wr (wr s1 (Reg.BPM_PHIGH p) (toW r.high)) (Reg.BPM_PRINGBASE p) (toW (ringBaseOf pay p))
  let s3 := { s2 with bpm := { s2.bpm with ringLen := Tab.set 0 s2.bpm.ringLen p r.ring } }
  relink p ((List.range r.bufs).map (fun i => base + i * r.size * 256)) s3

/-- One table of TABLES with its SEEDS (R249, R251, R37). -/
def applyTable (l : List Byte) (t : Nat) (s : State) : State :=
  let pay := payOf l 5
  let r := tblRec pay t
  if r.kind = 0 then s
  else
    let cfg := toW (r.period * 2 ^ 32 + r.key * 2 ^ 24 + r.act * 2 ^ 16 + r.log2n * 2 ^ 11 + r.quad * 2 ^ 9 +
      b2n (r.flags.testBit 1) * 256 + b2n (r.flags.testBit 0) * 128 + b2n r.hbm * 64 + r.kind)
    let s1 := wr (wr s (Reg.TBL_T_CFG t) cfg) (Reg.TBL_T_BASE t) (toW (tblBaseOf (payOf l 4) pay t))
    let sd := match secInst l 6 t with | some e => secBytes l e | none => []
    let s2 := if r.flags.testBit 1 then setFld s1 Reg.TBL_LRN_CTL F.TBL_LRN_CTL_table t else s1;
    wr (wr s2 (Reg.TBL_T_SEED0 t) (toW (leAt sd 0 6))) (Reg.TBL_T_SEED1 t) (toW (leAt sd 6 6))

/-- TOPOLOGY: group membership, queues and steering (R30, R31). -/
def applyTopology (pay : List Byte) (s : State) : State :=
  let s1 := forEach (List.range 64) (fun g s => wr s (Reg.SPN_GRPMEM g) (toW (topMask pay g))) s
  let s2 := forEach (List.range 1024) (fun q s =>
    let v := topQueue pay q
    setFld (setFld s (Reg.SPN_QSTAT q) F.SPN_QSTAT_valid (v / 2 ^ 15)) (Reg.SPN_QSTAT q) F.SPN_QSTAT_group (v % 64)) s1
  { s2 with img := { s2.img with steer := (List.range 4096).foldl (fun m h => Tab.set 0 m h (topSteer pay h)) [] } }

/-- PROGRAM sections at boot: every cluster that has one is held through CRS_CLUHOLD and wakes under R194 (R43). -/
def applyPrograms (l : List Byte) (s : State) : State :=
  let cs := (List.range 24).filter (fun c => (secInst l 2 c).isSome)
  let m := cs.foldl (fun n c => n + 2 ^ c) 0
  forEach cs (fun c s => requestWake false c s) (wr s Reg.CRS_CLUHOLD (toW m))

def applyWeights (w : List Nat) (s : State) : State :=
  forEach (List.range 64) (fun g s => wr s (Reg.SPN_GRPWT g) (toW (w.getD g 0))) s

/-- PROTECT (R514). -/
def applyProtect (pay : List Byte) (s : State) : State :=
  let v := fun (i : Nat) => leAt pay (8 * i) 6
  let s1 := wr s Reg.PRT_DEFAULT (toW (v 0 % 65536))
  forEach (List.range 64) (fun r s =>
    wr (wr (wr s (Reg.PRT_RBASE r) (toW (v (1 + 3 * r) % 2 ^ 36))) (Reg.PRT_RLIM r) (toW (v (2 + 3 * r) % 2 ^ 36)))
      (Reg.PRT_RPERM r) (toW (v (3 + 3 * r) / 2 ^ 47 * 2 ^ 47 + v (3 + 3 * r) % 65536))) s1

/-- Rejects an image: STR_STATUS and STRUCT_REJECT (R41). -/
def strReject (b : Bad) (s : State) : State := raise (wr s Reg.STR_STATUS (toW (b.2 * 65536 + b.1 * 256 + 3))) 1796

/-- Validates a full image and applies it up to its programs (R41, R43, R44); `false` where it is rejected. -/
def strBoot (logged : Nat → Nat → Bool) (out : List (Nat × Nat × Nat)) (l : List Byte) (s : State) : Bool × State :=
  match fullBad s l with
  | some b => (false, strReject b s)
  | none =>
    let s1 := trainAll logged out (forEach (List.range 12) (fun m s => applyHash (payOf l 7) m s) s)
    if trainFailed l s1 then (false, strReject (0xD, noSec) s1)
    else
      let s2 := applyLanes (payOf l 3) s1
      let s3 := forEach (List.range (poolCount (payOf l 4))) (fun p s => applyPool (payOf l 4) p s) s2
      let s4 := forEach (List.range 32) (fun t s => applyTable l t s) s3
      let s5 := applyPrograms l (applyTopology (payOf l 1) s4)
      (true, wr { s5 with str := { s5.str with boot := some l } } Reg.STR_STATUS 1)

/-- A cluster that boot code loads is in RUN: its code and scratch are copied, STR_PROG is valid, and the hold ends (R43). -/
def bootLoad (c : Nat) (s : State) : State :=
  match s.str.boot.bind (fun l => (secInst l 2 c).map (secBytes l)) with
  | none => s
  | some pay =>
    let s1 := wr (loadProgram c pay s) (Reg.STR_PROG c) (toW (2 ^ 32 + leAt pay 12 4))
    wr s1 Reg.CRS_CLUHOLD (toW (putN (rd s1 Reg.CRS_CLUHOLD).toNat c c 0))

/-- The rest of R43 once every program is loaded: WEIGHTS, PROTECT, version, level and digest; `true` where it is done. -/
def strBootRest (s : State) : Bool × State :=
  match s.str.boot with
  | none => (false, s)
  | some l =>
    if (List.range 24).any (fun c => (secInst l 2 c).isSome && !flag s (Reg.STR_PROG c) F.STR_PROG_valid) then (false, s)
    else
      let s1 := applyProtect (payOf l 8) (orphanCheck (applyWeights ((List.range 64).map (fun g => leAt (payOf l 9) g 1)) s))
      let d := baseDigest l
      let s2 := wr (wr s1 Reg.STR_VERSION (toW (imgVersion l))) Reg.STR_LEVEL (toW (imgLevel l))
      let s3 := forEach (List.range 8) (fun i s => wr s (Reg.STR_DIGEST i) (toW (leAt d (6 * i) 6))) s2
      (true, wr { s3 with str := { s3.str with boot := none } } Reg.STR_STATUS 2)

/-! ## Live replacement (R48–R59) -/

def stageState (s : State) : Nat := fld s Reg.STR_STAGE F.STR_STAGE_state
def setStage (v : Nat) (s : State) : State := setFld s Reg.STR_STAGE F.STR_STAGE_state v

/-- A command is ignored and counted (R58, R59). -/
def stageBusy (s : State) : State := bump s Reg.STR_STAGE F.STR_STAGE_busy_cnt

/-- The stage fails: code and section. -/
def stageFail (b : Bad) (s : State) : State :=
  let s1 := setFld (setFld (setStage 6 s) Reg.STR_STAGE F.STR_STAGE_code b.1) Reg.STR_STAGE F.STR_STAGE_section b.2
  { s1 with str := { s1.str with seeds := [], weights := none, progs := [] } }

/-- The staging buffer's bytes, and whether they can be read. -/
def stageRead (s : State) : Bool × List Byte :=
  let a := fld s Reg.STR_STAGE_ADDR F.STR_STAGE_ADDR_addr * 64
  let n := fld s Reg.STR_STAGE_LEN F.STR_STAGE_LEN_len
  (n == 0 || (populated s a && populated s (a + n - 1) && !poisoned s a n && !retiredIn s a n), rdBytes s.mem a n)

/-- A failure whose code the spec does not give: a free one of R61 (a staging buffer that cannot be read). -/
def freeBad (s : State) : Bad × State :=
  let (w, s1) := draw s
  ((1 + w.toNat % 0x13, noSec), s1)

/-- The verify command (R49, R50, R58, R59): the buffer is read and checked. -/
def stageVerify (s : State) : State :=
  let st := stageState s
  if ¬(st = 0 ∨ st = 5 ∨ st = 6) then stageBusy s
  else
    let (ok, l) := stageRead s
    let (b, s1) := if ok then ((partialBad s l).getD (0, 0), s) else freeBad s
    let named := ((imgSecs l).filter (fun e => e.typ == 2)).map (fun e => (e.inst, e.idx))
    let s2 := { s1 with str := { StrS.reset with code := b.1, section_ := b.2, hash := sha384 l,
                                                 clusters := if b.1 = 0 then named else [] } }
    setStage 1 (setFld (setFld (setFld s2 Reg.STR_STAGE F.STR_STAGE_code 0) Reg.STR_STAGE F.STR_STAGE_section 0)
      Reg.STR_STAGE F.STR_STAGE_defers 0)

/-- Verification ends (R50). -/
def stageVerified (s : State) : State :=
  if stageState s ≠ 1 then s
  else if s.str.code = 0 then setStage 2 s
  else stageFail (s.str.code, s.str.section_) s

/-- A cluster is idle in the sense of R48. -/
def liveIdle (s : State) (c : Nat) : Bool :=
  !(List.range 64).any (fun g => (grpMask s g).testBit c) &&
    (clusterThreads c).all (fun t => let x := th s t; x.pkt.isNone && decide (x.slot0 = .empty) && decide (x.slot1 = .empty)) &&
    (clu s c).lyrOps.isEmpty

/-- A cluster is held in reset for a live load; one not in RUN is woken (R51). -/
def liveHoldOn (c : Nat) (s : State) : State :=
  let s1 := cluResetBegin c (updClu s c (fun x => { x with liveHold := true }))
  let s2 := if (clu s1 c).power = .run then s1 else requestWake false c s1
  setFld s2 (Reg.STR_PROG c) F.STR_PROG_held 1

/-- The arm command (R51, R59). -/
def stageArm (s : State) : State :=
  if stageState s ≠ 2 then stageBusy s
  else
    match s.str.clusters.find? (fun e => !liveIdle s e.1) with
    | some e => stageFail (0x11, e.2) s
    | none => setStage 3 (forEach s.str.clusters (fun e s => liveHoldOn e.1 s) s)

/-- Preload may end: every named cluster is powered and in reset. -/
def preloadReady (s : State) : Bool :=
  s.str.clusters.all (fun e => (clu s e.1).inReset && decide ((clu s e.1).power = .run))

/-- Preload ends (R51, R52): READY with everything staged, or FAILED and the programs of the held clusters not valid. -/
def stagePreloaded (s : State) : State :=
  if stageState s ≠ 3 ∨ !preloadReady s then s
  else
    let (ok, l) := stageRead s
    if !ok ∨ sha384 l ≠ s.str.hash then
      let (b, s1) := if ok then ((0x12, noSec), s) else freeBad s
      stageFail b (forEach s1.str.clusters (fun e s => setFld s (Reg.STR_PROG e.1) F.STR_PROG_valid 0) s1)
    else
      let s1 := forEach s.str.clusters (fun e s =>
        match secInst l 2 e.1 with
        | some x => setFld (loadProgram e.1 (secBytes l x) s) (Reg.STR_PROG e.1) F.STR_PROG_valid 1
        | none => s) s
      let sd := ((imgSecs l).filter (fun e => e.typ == 6)).map (fun e =>
        (e.inst, leAt (secBytes l e) 0 6, leAt (secBytes l e) 6 6))
      let w := if (secOf l 9).isSome then some ((List.range 64).map (fun g => leAt (payOf l 9) g 1)) else none
      let pr := ((imgSecs l).filter (fun e => e.typ == 2)).map (fun e => (e.inst, leAt (secBytes l e) 12 4))
      setStage 4 { s1 with str := { s1.str with seeds := sd, weights := w, progs := pr } }

/-- The disarm command (R58, R59): held clusters stay held. -/
def stageDisarm (s : State) : State :=
  let st := stageState s
  if st = 1 ∨ st = 3 then stageBusy s
  else if st = 2 ∨ (st = 4 ∧ s.epc.phase = 0) then
    setStage 0 { s with str := { s.str with seeds := [], weights := none, progs := [] } }
  else s

/-- A write of STR_STAGE_ADDR or STR_STAGE_LEN, to be ignored and counted in VERIFYING and PRELOADING (R58). -/
def stageShut (s : State) : Bool := stageState s == 1 || stageState s == 3

/-- A write of STR_STAGE_CMD (R60): more than one bit does nothing and is counted. -/
def stageCmd (v : Word) (s : State) : State :=
  match v.toNat % 8 with
  | 0 => s
  | 1 => stageVerify s
  | 2 => stageArm s
  | 4 => stageDisarm s
  | _ => stageBusy s

/-- A table is empty (R48). -/
def tableEmpty (s : State) (t : Nat) : Bool :=
  fld s (Reg.TBL_T_COUNT t) F.TBL_T_COUNT_count == 0 &&
    !s.tbl.queue.any (fun u => match u with | .learn x _ _ _ _ _ => x == t | .cmd => false)

/-- R53 at a cutoff: the seeds' tables are empty, and no staged membership adds a cluster with no valid program. -/
def liveOk (s : State) : Bool :=
  s.str.seeds.all (fun e => tableEmpty s e.1) &&
    (List.range 64).all (fun g =>
      match Tab.find? s.shadow (Reg.SPN_GRPMEM g) with
      | none => true
      | some w => (setBits 24 w.toNat).all (fun c => flag s (Reg.STR_PROG c) F.STR_PROG_valid))

/-- A READY image takes effect at the boundary (R56). -/
def liveApply (s : State) : State :=
  let s1 := forEach s.str.progs (fun e s =>
    cluRelease e.1 (setFld (setFld (updClu s e.1 (fun x => { x with liveHold := false })) (Reg.STR_PROG e.1) F.STR_PROG_held 0)
      (Reg.STR_PROG e.1) F.STR_PROG_prog_id e.2)) s
  let s2 := forEach s1.str.seeds (fun e s => wr (wr s (Reg.TBL_T_SEED0 e.1) (toW e.2.1)) (Reg.TBL_T_SEED1 e.1) (toW e.2.2)) s1
  let s3 := match s2.str.weights with
    | some w => applyWeights w s2
    | none => s2
  let s4 := { s3 with str := { s3.str with seeds := [], weights := none, progs := [], clusters := [] } }
  raise (bumpWrap (setStage 5 s4) Reg.STR_LIVE_GEN F.STR_LIVE_GEN_count) 1797

end Sys2Proof.Machine
end

