-- ==== Sys2Proof/Machine/EpcOps.lean ====
section
/-! DEFINITION. Strum: boundaries, staging, commit requests, domain sets (R420–R433). -/

namespace Sys2Proof.Machine

def epcRun (s : State) : Bool := flag s Reg.EPC_CTL F.EPC_CTL_run
def epcPending (s : State) : Bool := flag s Reg.EPC_STAGE F.EPC_STAGE_pending
def epcDomain (s : State) : Bool := flag s Reg.EPC_STAGE F.EPC_STAGE_domain
def epcLanded (s : State) : Nat := fld s Reg.EPC_STAGE F.EPC_STAGE_landed

/-- Length of an epoch in ns, and the anchor time. -/
def epcNs (s : State) : Nat := fld s Reg.EPC_PERIOD F.EPC_PERIOD_period * 1000
def epcT0 (s : State) : Nat := (rd s Reg.EPC_T0_LO).toNat + fld s Reg.EPC_T0_HI ⟨15, 0⟩ * 2 ^ 48
def epcAnchor (s : State) : Nat := (rd s Reg.EPC_ANCHOR).toNat

/-- Domain time of boundary `k` (R420). -/
def boundaryAt (s : State) (k : Nat) : Nat := epcT0 s + (k - epcAnchor s) * epcNs s

/-- The first boundary whose cutoff lies in the future (R421). -/
def firstBoundary (s : State) : Nat :=
  let t := domNow s + 4000
  if t < epcT0 s then epcAnchor s else epcAnchor s + (t - epcT0 s) / epcNs s + 1

/-! ## Staging (R422, R424, R428, R431) -/

/-- SW bits of the register at an offset; 0 for one with no SW field. -/
def swMask (a : Nat) : Nat :=
  match findReg regTable a with
  | some (r, _) => r.sw
  | none => 0

/-- The value an SW write stages: the limits of EPC_PERIOD (R447) and of PWR_PLAN (R499), on the register's SW bits. -/
def swClamp (s : State) (a v : Nat) : Nat :=
  match findReg regTable a with
  | some (r, l) =>
    match r.id, l with
    | .EPC_PERIOD, _ => max 32 (min 16000 (v % 65536))
    | .PWR_PLAN, [q] =>
      let f := Reg.PWR_FUSE q
      let vm := max (fld s f F.PWR_FUSE_vfloor) (min 60 (bitsN v 13 8))
      let bn := max (fld s f F.PWR_FUSE_bin_min) (min 5 (v % 8))
      vm * 256 + bn
    | _, _ => Nat.land v r.sw
  | none => 0

/-- Puts a value in effect: the SW bits of a register. -/
def swPut (a v : Nat) (s : State) : State :=
  let m := swMask a
  wr s a (toW (Nat.lor (Nat.land (rd s a).toNat (2 ^ 48 - 1 - m)) (Nat.land v m)))

/-- A swap, or a direct write, changed a weight or a membership (R179, R176). -/
def groupChange (s : State) : State :=
  orphanCheck { s with spawn := { s.spawn with credit := [], gp := [] } }

/-- An SW write while no boundary holds it back: at once while run is 0, staged and counted otherwise. -/
def swApply (a v : Nat) (s : State) : State :=
  if epcRun s then
    bump { s with shadow := Tab.put s.shadow a (toW (swClamp s a v)) } Reg.EPC_STAGE F.EPC_STAGE_landed
  else
    let s1 := swPut a (swClamp s a v) s
    if 0x81000 ≤ a ∧ a < 0x81400 then orphanCheck s1 else s1

/-- Writes are held: the time from the cutoff to the boundary (R428). -/
def epcHolding (s : State) : Bool := epcRun s && s.epc.phase != 0
def holdFull (s : State) : Bool := epcHolding s && decide (256 ≤ s.epc.held.length)

/-- An accepted write to an SW register. -/
def swWrite (a : Nat) (v : Word) (s : State) : State :=
  if epcHolding s then { s with epc := { s.epc with held := s.epc.held ++ [(a, v)] } }
  else swApply a v.toNat s

/-! ## Commit requests (R425, R430) -/

/-- No request is pending. -/
def epcClear (s : State) : State :=
  let a := Reg.EPC_STAGE
  setFld (setFld (setFld (setFld s a F.EPC_STAGE_pending 0) a F.EPC_STAGE_domain 0) a F.EPC_STAGE_defers 0) a F.EPC_STAGE_nwr 0

/-- Every shadow returns to the value in effect; planner writes are gone with the others (R491). -/
def epcDiscard (s : State) : State :=
  let s1 := { epcClear s with shadow := [], pwr := { s.pwr with plan := s.pwr.plan.filter (fun e => !e.2.staged) } }
  setFld (setFld s1 Reg.EPC_STAGE F.EPC_STAGE_landed 0) Reg.PWR_CHM_STAT F.PWR_CHM_STAT_inset 0

def epcGo (nwr : Nat) (dom : Bool) (s : State) : State :=
  let a := Reg.EPC_STAGE
  setFld (setFld (setFld (setFld s a F.EPC_STAGE_pending 1) a F.EPC_STAGE_domain (b2n dom)) a F.EPC_STAGE_defers 0) a F.EPC_STAGE_nwr nwr

/-- A write of EPC_COMMIT; one with several of go, withdraw and discard is ignored (R447). -/
def commitApply (v : Nat) (s : State) : State :=
  match v.testBit 17, v.testBit 19, v.testBit 20 with
  | true, false, false => epcGo (v % 65536) (v.testBit 18) s
  | false, true, false => epcClear s
  | false, false, true => epcDiscard s
  | _, _, _ => s

def commitWrite (v : Word) (s : State) : State :=
  if epcHolding s then { s with epc := { s.epc with held := s.epc.held ++ [(Reg.EPC_COMMIT, v)] } }
  else commitApply v.toNat s

/-- The hold ends: what it held is applied in arrival order, and the accesses that waited complete (R428). -/
def releaseHeld (s : State) : State :=
  forEach s.epc.late (fun loc s => emit s (.reg loc 0 0))
    (forEach s.epc.held (fun e s => if e.1 = Reg.EPC_COMMIT then commitApply e.2.toNat s else swApply e.1 e.2.toNat s)
      { s with epc := { s.epc with held := [], late := [], phase := 0, verdict := none, gate := 0, gateWord := 0 } })

/-- The hold on tables ends: what waited for it may start (R57). -/
def releaseTables (s : State) : State := unitRun { s with tbl := { s.tbl with held := [] } }

/-- A write of EPC_CTL (R421, R447): max_defer 0 is taken as 1; clr zeroes EPC_CNT1; a change of run starts or stops the
boundaries. Clearing run ends a hold. -/
def epcCtlWrite (v : Word) (s : State) : State :=
  let was := epcRun s
  let d := getF v F.EPC_CTL_max_defer
  let s1 := setFld (setFld s Reg.EPC_CTL F.EPC_CTL_max_defer (if d = 0 then 1 else d)) Reg.EPC_CTL F.EPC_CTL_run (getF v F.EPC_CTL_run)
  let s2 := if getF v F.EPC_CTL_clr = 1 then wr s1 Reg.EPC_CNT1 0 else s1
  if epcRun s2 && !was then { s2 with epc := { EpcS.reset with next := firstBoundary s2 } }
  else if !epcRun s2 && was then releaseHeld (releaseTables s2)
  else s2

/-! ## Cutoff and decision point (R426, R429, R432, R433) -/

/-- The latest decision. -/
def epcLast (k reason : Nat) (s : State) : State :=
  wr s Reg.EPC_LAST (toW (reason * 2 ^ 45 + k % 2 ^ 40))

/-- DEFER_LIMIT of a live image (R55). -/
def liveLimit (s : State) : State :=
  if fld s Reg.STR_LIVE_CTL F.STR_LIVE_CTL_max_defer ≤ fld s Reg.STR_STAGE F.STR_STAGE_defers then
    raise (epcClear (stageFail (0x13, noSec) s)) 1798
  else s

/-- A check fails: the set defers (R429, R53), and a limit may withdraw its request (R429, R55). -/
def epcDefer (k reason : Nat) (s : State) : State :=
  let s1 := bump (bump (epcLast k reason s) Reg.EPC_STAGE F.EPC_STAGE_defers) Reg.EPC_CNT1 F.EPC_CNT1_deferred
  let s2 := raise (releaseTables { s1 with epc := { s1.epc with verdict := some reason } }) 1538
  let n := fld s2 Reg.EPC_STAGE F.EPC_STAGE_defers
  let s3 := if reason = 3 then liveLimit (bump s2 Reg.STR_STAGE F.STR_STAGE_defers) else s2
  if fld s3 Reg.EPC_CTL F.EPC_CTL_max_defer ≤ n then raise (epcLast k 6 (epcClear s3)) 1539 else s3

/-- The gate read of a domain set (R432), as agent 0x20F1 of class 7: a local word answers at once, or not before the
decision point where its unit is retraining; a remote one is an RD. -/
def gateRead (ecc : Nat) (s : State) : State :=
  let a := fld s Reg.EPC_GATE F.EPC_GATE_addr * 8
  let put := fun (g w : Nat) (s : State) => { s with epc := { s.epc with gate := g, gateWord := w } }
  match regionOf a with
  | .remote d =>
    match vcOfClass s 1 with
    | some v =>
      if remoteBad s d then put 3 0 s
      else
        obxPump (put 1 0 (sendObx s { vc := v, typ := opRd, size := 8, dst := d, agent := agentId s 0x20F1, tag := 0,
                                      arg := a % 2 ^ 37, data := [], op := none, wantTag := true, link := none,
                                      stomp := false, transit := none }))
    | none => put 3 0 s
  | r =>
    match r.mc with
    | none => put 3 0 s
    | some (m, off) =>
      if !populated s a then put 3 0 s
      else if !allowed s 7 a true false then put 3 0 (denied (agentId s 0x20F1) 7 a false s)
      else if unitState s m (unitOf s m off) = 4 then put 1 0 s
      else
        let (bad, s1) := memReadCheck s a 8 ecc
        if bad then put 3 0 s1 else put 2 (memNat s1 a 6) s1

/-- Tables a READY image brings seeds for are held (R57). -/
def seedHold (s : State) : State :=
  if stageState s = 4 then { s with tbl := { s.tbl with held := s.str.seeds.map (fun e => e.1) } } else s

/-- The cutoff of boundary `k`. -/
def epcCutoff (k ecc : Nat) (s : State) : State :=
  let s1 := { s with epc := { s.epc with phase := 1, verdict := none, gate := 0, gateWord := 0 } }
  let nwr := fld s Reg.EPC_STAGE F.EPC_STAGE_nwr
  if !epcPending s then s1
  else if epcLanded s < nwr then epcDefer k 1 s1
  else if nwr < epcLanded s then epcDefer k 2 s1
  else if stageState s = 4 ∧ !liveOk s then epcDefer k 3 s1
  else
    let s2 := seedHold { s1 with epc := { s1.epc with verdict := some 0 } }
    if epcDomain s then gateRead ecc s2 else s2

/-- The decision point of boundary `k`. -/
def epcDecide (k : Nat) (s : State) : State :=
  let s1 := { s with epc := { s.epc with phase := 2, gate := 0 } }
  if s.epc.verdict ≠ some 0 ∨ !epcDomain s then s1
  else if s.epc.gate = 2 then (if s.epc.gateWord = k then s1 else epcDefer k 4 s1)
  else raise (epcDefer k 5 s1) 1540

/-- Preload ends; a set that passed its checks at the cutoff before the stage was READY defers (R54). -/
def epcPreloaded (s : State) : State :=
  let s1 := stagePreloaded s
  if stageState s = 3 ∧ stageState s1 = 4 ∧ epcHolding s1 ∧ s1.epc.verdict = some 0 then epcDefer s1.epc.next 3 s1 else s1

/-! ## The boundary (R423, R427) -/

/-- Registers staged with a value that differs from the one in effect, in a range of offsets. -/
def swapChanges (s : State) (lo hi : Nat) : Bool :=
  s.shadow.any (fun e => decide (lo ≤ e.1) && decide (e.1 < hi) && decide (rd s e.1 ≠ e.2))

/-- Every weight and membership in effect. -/
def groupWords (s : State) : List Word := (List.range 64).flatMap (fun g => [rd s (Reg.SPN_GRPWT g), rd s (Reg.SPN_GRPMEM g)])

/-- The whole set takes effect at boundary `k`. -/
def epcSwap (k : Nat) (s : State) : State :=
  let b := boundaryAt s k
  let newPeriod := swapChanges s Reg.EPC_PERIOD (Reg.EPC_PERIOD + 1)
  let s1 := forEach s.shadow (fun e s => swPut e.1 e.2.toNat s) s
  let s2 := if stageState s1 = 4 then liveApply s1 else s1
  let s3 := if groupWords s = groupWords s2 then s2 else groupChange s2
  let s4 := if newPeriod then
      wr (setFld (wr s3 Reg.EPC_T0_LO (toW b)) Reg.EPC_T0_HI ⟨15, 0⟩ (b / 2 ^ 48)) Reg.EPC_ANCHOR (toW k) else s3
  let s5 := setFld (epcClear { s4 with shadow := [] }) Reg.EPC_STAGE F.EPC_STAGE_landed 0
  raise (epcLast k 0 (wr s5 Reg.EPC_CNT0 (rd s5 Reg.EPC_CNT0 + 1))) 1537

/-- Strum's part of boundary `k`: the swap when every check passed, and EPC_NUM. -/
def epcBoundary (k : Nat) (s : State) : State :=
  let s1 := raise (wr s Reg.EPC_NUM (toW k)) 1536
  let s2 := if s.epc.verdict = some 0 then epcSwap k s1 else s1
  releaseTables { s2 with epc := { s2.epc with next := k + 1, verdict := none, gate := 0 } }

end Sys2Proof.Machine
end

