-- ==== Sys2Proof/Machine/NlsOps.lean ====
section
/-! DEFINITION. The two flashes (R500, R501, R504) and Nelistore: blocks, records, replay, append and rotation (R515–R517,
R547, R548). -/

namespace Sys2Proof.Machine

/-! ## Flash -/

def flashOf (s : State) (f : Nat) : Tab Byte := if f = 0 then s.svc.flash0 else s.svc.flash1
def setFlash (f : Nat) (t : Tab Byte) (s : State) : State :=
  if f = 0 then { s with svc := { s.svc with flash0 := t } } else { s with svc := { s.svc with flash1 := t } }

/-- Bytes of a flash: an erased byte reads 0xFF. -/
def flBytes (s : State) (f a n : Nat) : List Byte := (List.range n).map (fun i => Tab.get 0xFF (flashOf s f) (a + i))
def flNat (s : State) (f a n : Nat) : Nat := leNat (flBytes s f a n)

/-- Programming clears bits. -/
def flProg (f a : Nat) (l : List Byte) (s : State) : State :=
  setFlash f (l.zipIdx.foldl (fun t e => Tab.upd 0xFF t (a + e.2) (fun b => b &&& e.1)) (flashOf s f)) s

def flErase (f a n : Nat) (s : State) : State :=
  setFlash f ((flashOf s f).filter (fun e => decide (e.1 < a) || decide (a + n ≤ e.1))) s

/-- The holdup flag of PWR_VIN: no flash is erased or programmed while it is 1. -/
def holdup (s : State) : Bool := flag s Reg.PWR_VIN F.PWR_VIN_holdup

/-! ## Blocks and records (R515, R516) -/

def nlsBlock (b : Nat) : Nat := 0x7800000 + b * 0x10000

/-- A block's header is valid. -/
def nlsValid (s : State) (b : Nat) : Bool :=
  let h := flBytes s 0 (nlsBlock b) 32
  leAt h 0 4 == 0x4E4C5331 && leAt h 10 2 == 1 && zeroAt h 16 12 && leAt h 28 4 == crcPlain (h.take 28)

def nlsSeq (s : State) (b : Nat) : Nat := flNat s 0 (nlsBlock b + 4) 4
def nlsSchemaOf (s : State) (b : Nat) : Nat := flNat s 0 (nlsBlock b + 8) 2

/-- Valid blocks in ascending bseq. -/
def nlsBlocks (s : State) : List Nat :=
  (allBelow 8 (nlsValid s)).foldl (fun l b =>
    l.takeWhile (fun c => decide (nlsSeq s c < nlsSeq s b)) ++ b :: l.dropWhile (fun c => decide (nlsSeq s c < nlsSeq s b))) []

/-- The head: the valid block with the highest bseq. -/
def nlsHead (s : State) : Option Nat := (nlsBlocks s).getLast?

/-- The Nelistore schema. -/
def nlsSchema (s : State) : Nat := match nlsHead s with | some b => nlsSchemaOf s b | none => 0

/-- A record: type and body. -/
abbrev NlsRec := Nat × List Byte

/-- Records of a block from offset `o` on, the offset they end at, and whether a CRC failed there. -/
def nlsWalk (blk : List Byte) : Nat → Nat → List NlsRec → List NlsRec × Nat × Bool
  | 0, o, l => (l.reverse, o, false)
  | n + 1, o, l =>
    if 65536 < o + 8 ∨ leAt blk o 1 = 255 then (l.reverse, o, false)
    else
      let len := leAt blk (o + 2) 2
      let body := (blk.drop (o + 8)).take len
      if leAt blk (o + 4) 4 = crcPlain ((blk.drop o).take 4 ++ body) ∧ body.length = len
      then nlsWalk blk n (upTo 8 (o + 8 + len)) ((leAt blk o 1, body) :: l)
      else (l.reverse, o, true)

def nlsRead (s : State) (b : Nat) : List NlsRec × Nat × Bool := nlsWalk (flBytes s 0 (nlsBlock b) 65536) 8192 32 []

/-! ## Replay (R517) -/

/-- Settings counted so far by CSR offset, settings of the transaction under way, and the last TXN_END's generation. -/
structure Replay where
  sets : Tab Word
  cur : List (Nat × Word)
  gen : Nat
deriving DecidableEq, Repr

def replayRec (r : Replay) (x : NlsRec) : Replay :=
  match x.1 with
  | 1 => { r with cur := r.cur ++ [(leAt x.2 0 4, BitVec.ofNat 48 (leAt x.2 4 6))] }
  | 2 =>
    let ok := leAt x.2 4 4 == r.cur.length
    { sets := if ok then r.cur.foldl (fun t e => Tab.put t e.1 e.2) r.sets else r.sets, cur := [], gen := leAt x.2 0 4 }
  | _ => r

/-- SETTING and TXN_END count in blocks of the Nelistore schema. -/
def nlsReplay (s : State) : Replay :=
  ((nlsBlocks s).filter (fun b => nlsSchemaOf s b == nlsSchema s)).foldl
    (fun r b => (nlsRead s b).1.foldl replayRec r) { sets := [], cur := [], gen := 0 }

/-- The Nelistore generation. -/
def nlsGen (s : State) : Nat := (nlsReplay s).gen

/-- Every record of every valid block, in order. -/
def nlsAll (s : State) : List NlsRec := (nlsBlocks s).flatMap (fun b => (nlsRead s b).1)

/-- The last record of a type that satisfies a test. -/
def nlsLast (l : List NlsRec) (t : Nat) (p : List Byte → Bool) : Option (List Byte) :=
  (l.reverse.find? (fun x => x.1 == t && p x.2)).map (fun x => x.2)

/-- Die ID of this device, 48 bits. -/
def dieId (s : State) : Nat := (rd s Reg.PWR_DIEID).toNat

/-- The last CHAMELEON and OWNER records, when they are of this die (R496). -/
def nlsChm (s : State) : Option (List Byte) := (nlsLast (nlsAll s) 3 (fun _ => true)).filter (fun b => leAt b 0 6 == dieId s)
def nlsOwner (s : State) : Option (List Byte) := (nlsLast (nlsAll s) 5 (fun _ => true)).filter (fun b => leAt b 2 6 == dieId s)

/-- A TRAINING record with a setting stands for a controller and unit. -/
def nlsTrained (s : State) (m u : Nat) : Bool :=
  match nlsLast (nlsAll s) 4 (fun b => leAt b 0 1 == m && leAt b 1 1 == u) with
  | some b => decide (0 < leAt b 4 2)
  | none => false

/-- SVC_NLS.schema and gen follow the store. -/
def nlsStat (s : State) : State :=
  setFld (setFld s Reg.SVC_NLS F.SVC_NLS_schema (nlsSchema s)) Reg.SVC_NLS F.SVC_NLS_gen (nlsGen s)

/-- Replay's errors: counted and raised, one per block. -/
def nlsErrors (s : State) : State :=
  forEach ((nlsBlocks s).filter (fun b => (nlsRead s b).2.2)) (fun _ s => raise (bump s Reg.SVC_NLS F.SVC_NLS_errors) 1804) s

/-! ## Append and rotation (R515, R547, R548) -/

def nlsBad (s : State) (b : Nat) : Bool := (fld s Reg.BKG_NLSSTAT F.BKG_NLSSTAT_bad).testBit b
def inRotation (s : State) : List Nat := allBelow 8 (fun b => !nlsBad s b)

/-- A failed erase or program leaves the block out of rotation, unless fewer than 4 would remain. -/
def nlsFail (b : Nat) (s : State) : State :=
  if nlsBad s b || decide ((inRotation s).length < 4) then s
  else raise (setFld s Reg.BKG_NLSSTAT F.BKG_NLSSTAT_bad (fld s Reg.BKG_NLSSTAT F.BKG_NLSSTAT_bad + 2 ^ b)) 1859

/-- Header bytes of a new head. -/
def nlsHeader (bseq schema gen : Nat) : List Byte :=
  let h := leBytes 4 0x4E4C5331 ++ leBytes 4 bseq ++ leBytes 2 schema ++ leBytes 2 1 ++ leBytes 4 gen ++ List.replicate 12 0
  h ++ leBytes 4 (crcPlain h)

/-- Bytes of a record, padded to 8 with erased bytes. -/
def nlsBytes (x : NlsRec) : List Byte :=
  let h := leBytes 1 x.1 ++ leBytes 1 0 ++ leBytes 2 x.2.length
  let r := h ++ leBytes 4 (crcPlain (h ++ x.2)) ++ x.2
  r ++ List.replicate (upTo 8 r.length - r.length) 0xFF

/-- Free bytes of the head. -/
def headFree (s : State) : Nat :=
  match nlsHead s with
  | some b => if nlsBad s b then 0 else 65536 - (nlsRead s b).2.1
  | none => 0

/-- The schema range of the running image's header. -/
def runFlash (s : State) : Nat := fld s Reg.SVC_BOOT F.SVC_BOOT_slot - 1
def schemaMin (s : State) : Nat := flNat s (runFlash s) 0x10 2
def schemaMax (s : State) : Nat := flNat s (runFlash s) 0x12 2

/-- The first block of an empty Nelistore, at the image's highest schema. -/
def nlsBegin (s : State) : State :=
  if (nlsHead s).isNone then
    match (inRotation s).head? with
    | some b => flProg 0 (nlsBlock b) (nlsHeader 1 (schemaMax s) 0) (flErase 0 (nlsBlock b) 65536 s)
    | none => s
  else s

/-- Appends a record that fits in the head. -/
def nlsPut (x : NlsRec) (s : State) : State :=
  match nlsHead s with
  | some b => flProg 0 (nlsBlock b + (nlsRead s b).2.1) (nlsBytes x) s
  | none => s

/-- Appends a record (R547): it waits while holdup is set; without space it is refused; a failed program takes the block
out of rotation (R548). A quarantined image appends no settings (R518). -/
def nlsAppend (x : NlsRec) (fail : Bool) (s : State) : State :=
  if holdup s || (flag s Reg.SVC_BOOT F.SVC_BOOT_quar && (x.1 == 1 || x.1 == 2)) then s
  else
    let s1 := nlsBegin s
    if headFree s1 < (nlsBytes x).length then raise (bump s1 Reg.BKG_NLSSTAT F.BKG_NLSSTAT_refused) 1860
    else if fail then
      match nlsHead s1 with
      | some b => nlsFail b s1
      | none => s1
    else nlsStat (nlsPut x s1)

/-- 24 h windows since PORST_N, and the erasures of the present one. -/
def dayNow (s : State) : Nat := (s.now - s.svc.relAt) / 138240000000000
def erasesToday (s : State) : Nat := if s.svc.day = dayNow s then fld s Reg.BKG_NLSSTAT F.BKG_NLSSTAT_today else 0

/-- An erasure is counted. -/
def countErase (s : State) : State :=
  let s1 := setFld s Reg.BKG_NLSSTAT F.BKG_NLSSTAT_today (min 255 (erasesToday s + 1))
  bump { s1 with svc := { s1.svc with day := dayNow s } } Reg.BKG_NLSSTAT F.BKG_NLSSTAT_erases

/-- The block a rotation takes: one of the rotation that is not valid, else the oldest valid one but the head. -/
def rotVictim (s : State) : Option Nat :=
  ((inRotation s).find? (fun b => !nlsValid s b)) <|>
    (nlsBlocks s).find? (fun b => !nlsBad s b && nlsHead s != some b)

/-- Live records of a block: the settings in force, the last TXN_END, and the last of each other kind. -/
def nlsLive (s : State) (b : Nat) : List NlsRec :=
  let own := (nlsRead s b).1
  let later := ((nlsBlocks s).filter (fun c => decide (nlsSeq s b < nlsSeq s c))).flatMap (fun c => (nlsRead s c).1)
  let r := nlsReplay s
  let mine := own.filter (fun x => x.1 == 1 && (match Tab.find? r.sets (leAt x.2 0 4) with
    | some w => w == BitVec.ofNat 48 (leAt x.2 4 6)
    | none => false) && !later.any (fun y => y.1 == 1 && leAt y.2 0 4 == leAt x.2 0 4))
  let sets := (mine.zipIdx.filter (fun e => !(mine.drop (e.2 + 1)).any (fun y => leAt y.2 0 4 == leAt e.1.2 0 4))).map (fun e => e.1)
  let usable := nlsSchemaOf s b == nlsSchema s
  let txn := own.any (fun x => x.1 == 2) && !later.any (fun x => x.1 == 2)
  let settings := if usable && (!sets.isEmpty || txn) then sets ++ [(2, leBytes 4 r.gen ++ leBytes 4 sets.length)] else []
  let same := fun (x y : NlsRec) => x.1 == y.1 && (x.1 != 4 || x.2.take 2 == y.2.take 2)
  let other := (own.zipIdx.filter (fun e => decide (3 ≤ e.1.1) && decide (e.1.1 ≤ 5) && !(own.drop (e.2 + 1)).any (same e.1) &&
    !later.any (same e.1))).map (fun e => e.1)
  settings ++ other

/-- A rotation that is due and allowed (R515, R547): live records, erase, new head; `fail` is a failed erase (R548). -/
def nlsRotate (fail : Bool) (s : State) : State :=
  let limit := max 1 (fld s Reg.BKG_NLSCFG F.BKG_NLSCFG_max_erase)
  match nlsHead s, rotVictim s with
  | some h, some b =>
    let live := if nlsValid s b then nlsLive s b else []
    let need := (live.map (fun x => (nlsBytes x).length)).foldl (· + ·) 0
    if holdup s || decide (limit ≤ erasesToday s) || decide (16384 ≤ headFree s) ||
        (!nlsBad s h && decide (headFree s < need)) then s
    else
      let seq := nlsSeq s h + 1
      let schema := nlsSchema s
      let gen := nlsGen s
      let s1 := countErase (if nlsBad s h then s else forEach live nlsPut s)
      if fail then nlsFail b s1
      else
        let s2 := flProg 0 (nlsBlock b) (nlsHeader seq schema gen) (flErase 0 (nlsBlock b) 65536 s1)
        nlsStat (if nlsBad s h then forEach live nlsPut s2 else s2)
  | _, _ => s

end Sys2Proof.Machine
end

