-- ==== Sys2Proof/Machine/DstOps.lean ====
section
/-! DEFINITION. Double-stop pairs: the mirror, its shadow and banks, markers, heartbeats, failover and handover
(R434–R445). -/

namespace Sys2Proof.Machine

def dstEn (s : State) : Bool := flag s Reg.DST_CFG F.DST_CFG_en
def dstPartner (s : State) : Nat := fld s Reg.DST_CFG F.DST_CFG_partner
def dstMisses (s : State) : Nat := fld s Reg.DST_STAT F.DST_STAT_misses
def setMisses (s : State) (v : Nat) : State := setFld s Reg.DST_STAT F.DST_STAT_misses v
def setRole (s : State) (v : Nat) : State := setFld s Reg.DST_STAT F.DST_STAT_role v
def setHandover (v : Nat) (s : State) : State :=
  setFld { s with dst := { s.dst with handover := v } } Reg.DST_STAT F.DST_STAT_handover (min 1 v)

/-! ## The shadow (R437) -/

/-- Own shadow's base, and the window offset of the partner's. -/
def shadowBase (s : State) : Nat := fld s Reg.DST_SHADOW F.DST_SHADOW_base * 2 ^ 20
def pshadowOff (s : State) : Nat := fld s Reg.DST_PSHADOW F.DST_PSHADOW_base * 2 ^ 20 - 0x10000000000

def shHeartbeat : Nat := 0
def shMarker : Nat := 0x40
def shLocks (b : Nat) : Nat := 0x1000 + b * 0x8000
def shLanes (b : Nat) : Nat := 0x20000 + b * 0x40000
def shSettings (b : Nat) : Nat := 0xA0000 + b * 0x20000
def shLines : Nat := 0x100000

def regionBase (s : State) (k : Nat) : Nat := fld s (Reg.DST_RBASE k) F.DST_RBASE_base * 4096
def regionLen (s : State) (k : Nat) : Nat := fld s (Reg.DST_RLEN k) F.DST_RLEN_len * 4096
/-- Where a region's lines begin among the shadow's lines. -/
def regionAt (s : State) (k : Nat) : Nat := (List.range k).foldl (fun n i => n + regionLen s i) 0
/-- Bytes of all mirrored regions. -/
def mirrorLen (s : State) : Nat := regionAt s 16

/-- Shadow offset of the line at an address of a mirrored region, and the address of a shadow offset. -/
def lineOff (s : State) (a : Nat) : Option Nat :=
  ((List.range 16).find? (fun k => decide (regionBase s k ≤ a) && decide (a < regionBase s k + regionLen s k))).map
    (fun k => shLines + regionAt s k + (a - regionBase s k))
def lineAddr (s : State) (o : Nat) : Option Nat :=
  ((List.range 16).find? (fun k => decide (shLines + regionAt s k ≤ o) && decide (o < shLines + regionAt s k + regionLen s k))).map
    (fun k => regionBase s k + (o - shLines - regionAt s k))

/-- A WR of the mirror engine into the partner's shadow (R434); `note` 1 marks the marker that ends a copy. -/
def mirrorWr (note off : Nat) (data : List Byte) (s : State) : State :=
  match vcOfClass s 1 with
  | none => s
  | some v =>
    sendObx s { vc := v, typ := opWr, size := data.length, dst := dstPartner s, agent := agentId s 0x20F0, tag := 0,
                arg := (pshadowOff s + off) % 2 ^ 37, data := data, op := none, wantTag := true,
                link := some (fld s Reg.DST_CFG F.DST_CFG_link), stomp := false, transit := none, note := note }

/-- Writes of a bank, in pieces of 64 bytes. -/
def mirrorBank (off : Nat) (l : List Byte) (s : State) : State :=
  forEach (List.range ((l.length + 63) / 64)) (fun i s => mirrorWr 0 (off + 64 * i) ((l.drop (64 * i)).take 64) s) s

/-! ## Sending the mirror (R436, R438) -/

/-- Mirrored locks, and the settings DST_CFG.set_mask selects (R435), as offset and value. -/
def mirroredLocks (s : State) : List Nat :=
  (List.range (fld s Reg.DST_LOCKS F.DST_LOCKS_count)).map (fun i => fld s Reg.DST_LOCKS F.DST_LOCKS_base + i)
def mirroredSettings (s : State) : List (Nat × Nat) :=
  let m := fld s Reg.DST_CFG F.DST_CFG_set_mask
  let regs :=
    (if m.testBit 0 then (List.range 64).map Reg.SPN_GRPWT ++ (List.range 64).map Reg.SPN_GRPMEM else []) ++
    (if m.testBit 1 then (List.range 16).map Reg.HST_LDCFG ++ (List.range 4096).map Reg.HST_POOLMAP else []) ++
    (if m.testBit 2 then (List.range 1024).map Reg.OBX_ROUTE else [])
  regs.map (fun a => (a, (rd s a).toNat))

/-- Every lane has head equal to next. -/
def lanesDrained (s : State) : Bool := s.bridge.next.all (fun e => laneHead s e.1 == e.2)

/-- At boundary `k`: what the marker of epoch k − 1 will carry, and the start of a handover's drain. -/
def boundaryMark (k : Nat) (s : State) : State :=
  let done := s.dst.handover == 2 && lanesDrained s && s.dst.log.isEmpty
  let m : Mark := { epoch := k - 1, locks := (mirroredLocks s).map (fun n => (lockWord s n 0).toNat), nexts := s.bridge.next,
                    settings := mirroredSettings s, handover := done }
  let s1 := if capturing s then { s with dst := { s.dst with marks := s.dst.marks ++ [m] } } else s
  if dstRole s1 = 1 ∧ s1.dst.handover = 1 then bpUpdate (setHandover 2 s1) else s1

/-- A capture that the marker of the front mark does not wait for is held back until that marker is sent. -/
def captureOpen (s : State) (c : Capture) : Bool :=
  match s.dst.marks with
  | m :: _ => decide (c.epoch ≤ m.epoch)
  | [] => true

def countLine (s : State) : State :=
  bumpWrap { s with dst := { s.dst with sent := s.dst.sent + 1 } } Reg.DST_CNT0 F.DST_CNT0_lines

/-- The next capture or walk line is sent. -/
def mirrorSend (s : State) : State :=
  if !capturing s then s
  else
    match s.dst.log with
    | c :: r =>
      if captureOpen s c then
        let s1 := setFld { s with dst := { s.dst with log := r } } Reg.DST_BACKLOG F.DST_BACKLOG_entries r.length
        match lineOff s1 c.addr with
        | some o => obxPump (countLine (mirrorWr 0 o c.line s1))
        | none => s1
      else s
    | [] =>
      match s.dst.walk with
      | none => s
      | some n =>
        match lineAddr s (shLines + 64 * n) with
        | none => { s with dst := { s.dst with walk := none, walked := true } }
        | some a =>
          let last := decide (mirrorLen s ≤ 64 * (n + 1))
          let s1 := { s with dst := { s.dst with walk := if last then none else some (n + 1), walked := last } }
          obxPump (countLine (mirrorWr 0 (shLines + 64 * n) (rdBytes s1.mem a 64) s1))

/-- Bytes of a mark's marker record (R438). -/
def markerBytes (m : Mark) (sent : Nat) (s : State) : List Byte :=
  leBytes 6 m.epoch ++ leBytes 4 sent ++ leBytes 1 (m.epoch % 2) ++ leBytes 1 (b2n m.handover) ++ leBytes 4 (nlsGen s) ++
    leBytes 2 (devId s) ++ List.replicate 46 0

/-- Banks and marker of a mark. -/
def sendMark (m : Mark) (s : State) : State :=
  let b := m.epoch % 2
  let locks := m.locks.flatMap (leBytes 8)
  let lanes := (List.range 65536).flatMap (fun l => leBytes 4 (Tab.get 0 m.nexts l))
  let sets := m.settings.flatMap (fun e => leBytes 4 e.1 ++ leBytes 6 e.2 ++ List.replicate 6 0)
  let fin := s.dst.walked && dstSync s == 1
  let s1 := mirrorBank (shSettings b) (sets ++ List.replicate 16 0) (mirrorBank (shLanes b) lanes (mirrorBank (shLocks b) locks s))
  let s2 := mirrorWr (b2n fin) shMarker (markerBytes m s.dst.sent s) s1
  obxPump (wr { s2 with dst := { s2.dst with sent := 0, marks := s2.dst.marks.drop 1 } } Reg.DST_COMMITTED (toW m.epoch))

/-- The front mark's marker may be sent: every capture of its epoch has been. -/
def markDue (s : State) : Option Mark :=
  match s.dst.marks with
  | m :: _ => if capturing s && s.dst.log.all (fun c => decide (m.epoch < c.epoch)) then some m else none
  | [] => none

def markerSend (s : State) : State :=
  match markDue s with
  | some m => if m.handover then s else sendMark m s
  | none => s

/-- The handover's marker is sent: the active device becomes STANDBY (R444). -/
def handoverComplete (s : State) : State :=
  match markDue s with
  | some m => if m.handover then bpUpdate (raise (setHandover 0 (setRole (sendMark m s) 2)) 1557) else s
  | none => s

/-! ## Copying (R445) -/

/-- SYNCING starts: capture resumes and the walk begins. -/
def startSync (s : State) : State :=
  if dstRole s ≠ 1 then s
  else
    let s1 := { s with dst := { s.dst with log := [], marks := [], walk := some 0, walked := false } }
    setFld (setSync s1 1) Reg.DST_BACKLOG F.DST_BACKLOG_entries 0

/-! ## Installing the mirror (R441) -/

/-- Copies the bytes of a line into its region. -/
def copyLine (e : Nat × List Byte) (s : State) : State :=
  match lineAddr s e.1 with
  | some a => (memWrite s a e.2).2
  | none => s

/-- A lock word of the mirror: one held by an agent of the partner is freed as abandoned, any other stands. -/
def installLock (n w : Nat) (s : State) : State :=
  let owner := w % 2 ^ 24
  let held := w.testBit 47
  let l : Lock := { owner := if held then some owner else none, prio := 0, abandoned := w.testBit 46,
                    rsv := (lock s n).rsv, till := (lock s n).till, boosted := (lock s n).boosted }
  let s1 := boostCheck n (setLock s n l)
  if held && agentDev owner == dstPartner s then abandonLock n s1 else s1

def installLocks (b : Nat) (s : State) : State :=
  forEach (mirroredLocks s).zipIdx (fun e s => installLock e.1 (memNat s (shadowBase s + shLocks b + 8 * e.2) 6) s) s

/-- Heads and next counters of every lane. -/
def installLanes (b : Nat) (s : State) : State :=
  let gap := fld s Reg.DST_SEQGAP F.DST_SEQGAP_gap
  let t := (List.range 65536).filterMap (fun l =>
    let v := (memNat s (shadowBase s + shLanes b + 4 * l) 3 + gap) % 2 ^ 24
    if v = 0 then none else some (l, v))
  { s with bridge := { s.bridge with next := t, head := t } }

/-- Settings of a bank, up to a record of zeros. -/
def bankSettings (s : State) (b : Nat) : Nat → Nat → List (Nat × Nat)
  | 0, _ => []
  | n + 1, i =>
    let a := shadowBase s + shSettings b + 16 * i
    if memNat s a 16 = 0 then [] else (memNat s a 4, memNat s (a + 4) 6) :: bankSettings s b n (i + 1)

def installSettings (b : Nat) (s : State) : State :=
  let s1 := forEach (bankSettings s b 8192 0) (fun e s => swPut e.1 e.2 s) s
  let s2 := if groupWords s = groupWords s1 then s1 else groupChange s1
  epcDiscard s2

/-- Steps 2–4 and 6 of R441. -/
def becomeActive (s : State) : State :=
  let b := s.dst.bank
  bpUpdate (setRole (installSettings b (installLanes b (installLocks b s))) 1)

/-! ## Markers on the standby (R439) -/

/-- The standby commits an epoch, or finds its lines incomplete. -/
def takeMarker (m : List Byte) (lines : List (Nat × List Byte)) (s : State) : State :=
  if leAt m 6 4 ≠ lines.length then unsync s
  else
    let s1 := forEach lines copyLine s
    let s2 := wr s1 Reg.DST_COMMITTED (toW (leAt m 0 6))
    let s3 := setFld s2 Reg.DST_NLS F.DST_NLS_gen (leAt m 12 4)
    let s4 := bumpWrapBy { s3 with dst := { s3.dst with bank := leAt m 10 1 % 2 } } Reg.DST_CNT0 F.DST_CNT0_lines lines.length
    if (leAt m 11 1).testBit 0 then raise (raise (becomeActive s4) 1553) 1557 else s4

/-- The oldest marker that has arrived is taken. -/
def markerReceive (s : State) : State :=
  match s.dst.markers with
  | [] => s
  | (m, lines) :: r =>
    let s1 := { s with dst := { s.dst with markers := r } }
    if dstRole s = 2 then takeMarker m lines s1 else s1

def commitAll : Nat → State → State
  | 0, s => s
  | n + 1, s => if s.dst.markers.isEmpty then s else commitAll n (markerReceive s)

/-! ## Heartbeats (R440) -/

def heartbeatBytes (s : State) : List Byte :=
  leBytes 2 (devId s) ++ leBytes 1 (dstRole s) ++ leBytes 1 (dstSync s) ++ leBytes 4 s.dst.hbSeq ++ leBytes 8 (domNow s) ++
    List.replicate 48 0

def heartbeatSend (s : State) : State :=
  if dstRole s = 1 ∨ dstRole s = 2 then
    obxPump (mirrorWr 0 shHeartbeat (heartbeatBytes s) { s with dst := { s.dst with hbSeq := (s.dst.hbSeq + 1) % 2 ^ 32 } })
  else s

/-- A heartbeat arrives: misses end; the active device starts a copy when heartbeats return (R445); the standby follows
the active device's sync state. -/
def heartbeatArrives (rec_ : List Byte) (s : State) : State :=
  let n := dstMisses s
  let s1 := setMisses { s with dst := { s.dst with hbSeen := true } } 0
  let their := leAt rec_ 3 1
  if dstRole s1 = 1 then
    if flag s1 Reg.DST_CFG F.DST_CFG_auto_resync && (dstSync s1 == 0 || (dstSync s1 == 3 && decide (0 < n))) then startSync s1 else s1
  else if dstRole s1 = 2 ∧ leAt rec_ 2 1 = 1 then
    if their = 1 then setSync s1 1
    else if their = 2 ∧ dstSync s1 ≤ 1 then raise (setSync s1 2) 1555 else s1
  else s1

/-- Bytes of the partner's WR arrive in the own shadow. -/
def dstArrive (dev a : Nat) (l : List Byte) (s : State) : State :=
  if !dstEn s || dev != dstPartner s || decide (a < shadowBase s) then s
  else
    let o := a - shadowBase s
    if o = shHeartbeat then heartbeatArrives l s
    else if dstRole s ≠ 2 then s
    else if o = shMarker then { s with dst := { s.dst with markers := s.dst.markers ++ [(l, s.dst.rx)], rx := [] } }
    else if shLines ≤ o then { s with dst := { s.dst with rx := s.dst.rx ++ [(o, l)] } }
    else s

/-- Failover (R441). -/
def failover (s : State) : State :=
  let s1 := commitAll s.dst.markers.length s
  let s2 := becomeActive { s1 with dst := { s1.dst with rx := [], markers := [] } }
  let s3 := if flag s2 Reg.DST_CFG F.DST_CFG_leave then originate (3 * 2 ^ 44 + dstPartner s2 * 2 ^ 20) s2 else s2
  obxPump (raise (bump (setSync s3 0) Reg.DST_CNT1 F.DST_CNT1_failovers) 1553)

/-- A heartbeat period ends (R440, R441). -/
def heartbeatPeriodEnd (s : State) : State :=
  let s1 := { s with dst := { s.dst with hbSeen := false } }
  if !(dstRole s == 1 || dstRole s == 2) || s.dst.hbSeen then s1
  else
    let n := dstMisses s1
    let s2 := raise (setMisses s1 (min 3 (n + 1))) 1552
    if n ≠ 2 then s2
    else if dstRole s2 = 1 then unsync s2
    else if dstSync s2 = 2 ∧ flag s2 Reg.DST_CFG F.DST_CFG_auto then failover s2
    else s2

/-! ## Commands and roles (R435, R443, R444, R448) -/

/-- An active device that accepts a LEAVE naming itself (R443). -/
def fence (s : State) : State :=
  if dstRole s ≠ 1 then s
  else bpUpdate (raise (settleLinks (setFld (setRole s 3) Reg.OBX_ID F.OBX_ID_joined 0)) 1556)

/-- A write of DST_CFG (R448): while en is 1 only one that clears en counts. -/
def dstCfgWrite (v : Word) (s : State) : State :=
  let w := v &&& 0xFF0000001FFF
  if dstEn s then
    if getF w F.DST_CFG_en = 1 then s
    else bpUpdate (wr (wr { s with dst := DstS.reset } Reg.DST_STAT 0) Reg.DST_CFG w)
  else
    let s1 := wr s Reg.DST_CFG w
    if getF w F.DST_CFG_en = 0 then s1
    else
      let s2 := setRole (wr (wr { s1 with dst := DstS.reset } Reg.DST_STAT 0) Reg.DST_BACKHWM 0) (if getF w F.DST_CFG_active = 1 then 1 else 2)
      bpUpdate s2

def dstHandover (s : State) : State :=
  if dstRole s = 1 ∧ dstSync s = 2 ∧ s.dst.handover = 0 then setHandover 1 s else s

/-- A write of DST_CMD (R448). -/
def dstCmd (v : Word) (s : State) : State :=
  match getF v F.DST_CMD_cmd with
  | 1 => if dstRole s = 2 then failover s else s
  | 2 => dstHandover s
  | 3 => startSync s
  | 4 => wr s Reg.DST_CNT1 0
  | _ => s

end Sys2Proof.Machine
end

