-- ==== Sys2Proof/Machine/ObxRows.lean ====
section
/-! DEFINITION. The rows of Obrex Link (R383–R419): links, flits, transactions, notices, membership, domain time. -/

namespace Sys2Proof.Machine

/-- A row that names an Obrex link; one that LANES does not assign does nothing (R419). -/
def onObx (l : Nat) (f : State → State) (s : State) : Out :=
  if l < 8 then .next (if linkAssigned s l then f s else s) else .refused .illFormed

/-! ## Link states (R384, R385) -/

/-- A write of OBX_LCFG (R384, R419): en set in DOWN starts training; en cleared takes the link DOWN from any state. -/
def lcfgWrite (l : Nat) (v : Word) (s : State) : State :=
  let s1 := wr s (Reg.OBX_LCFG l) (v &&& 0x80000000FFFF)
  if flag s1 (Reg.OBX_LCFG l) F.OBX_LCFG_en then
    if linkState s1 l = 0 then setLinkState l 1 s1 else s1
  else if linkState s1 l = 0 then s1
  else obxPump (setLinkState l 0 (linkClear l s1))

/-- Credits of a link from its entry into INIT (R393): those of OBX_VCCFG, and 32 of CTL. -/
def linkCredits (s : State) : Tab Nat :=
  (List.range 9).foldl (fun t v => Tab.set 0 t v (if v = 8 then 32 else fld s (Reg.OBX_VCCFG v) F.OBX_VCCFG_credits)) []

def linkTrained (l : Nat) (s : State) : State :=
  if linkState s l ≠ 1 ∨ !isSealed s then s
  else setLinkState l 2 (setOlink s l { ObxLink.reset with credit := linkCredits s })

/-- Writing 1 to half_reset re-arms the link (R384, R470). -/
def linkRearm (l : Nat) (s : State) : State :=
  let a := Reg.OBX_LSTAT l
  if flag s a F.OBX_LSTAT_half_reset then
    let s1 := setFld s a F.OBX_LSTAT_half_reset 0
    if linkState s1 l = 5 then setLinkState l 1 s1 else s1
  else s

/-- Sum of the data credits (R393). -/
def creditSum (s : State) : Nat :=
  (List.range 8).foldl (fun n v => n + fld s (Reg.OBX_VCCFG v) F.OBX_VCCFG_credits) 0

/-- The first check of R385 that fails, as OBX_LSTAT.reason; 0 when all pass. -/
def initReason (s : State) (l devid tag : Nat) (joined half : Bool) : Nat :=
  if half != flag s (Reg.OBX_LSTAT l) F.OBX_LSTAT_half then 1
  else if obxJoined s && joined && devid == fld s Reg.OBX_ID F.OBX_ID_devid then 2
  else if obxJoined s && joined && tag != fld s Reg.OBX_TAG F.OBX_TAG_tag then 3
  else if 2016 < creditSum s then 4 else 0

/-- The INIT record of the peer (R385): recorded, checked in INIT, and the joined flags followed. -/
def initRecord (l devid tag : Nat) (joined half : Bool) (s : State) : State :=
  let a := Reg.OBX_LSTAT l
  let s1 := updOlink (setFld s a F.OBX_LSTAT_peer devid) l (fun x => { x with peerJoined := joined, peerTag := tag })
  if linkState s1 l = 2 then
    let r := initReason s1 l devid tag joined half
    let s2 := setFld s1 a F.OBX_LSTAT_reason r
    match r with
    | 0 => settleLink l (setLinkState l 3 s2)
    | 2 => raise s2 1416
    | 3 => raise s2 1417
    | _ => s2
  else settleLink l s1

/-- Flits pass on a link in INIT, LINK_UP and ACTIVE. -/
def linkLive (s : State) (l : Nat) : Bool := decide (2 ≤ linkState s l) && decide (linkState s l ≤ 4)

/-- An INIT flit whose crc passes arrives (R385, R387, R389). -/
def initArrives (l seq ack devid tag : Nat) (joined half : Bool) (s : State) : State :=
  let x := olink s l
  let k := ackCount x ack
  let s1 := lcnt (setOlink s l { x with retry := x.retry.drop k, replays := if 0 < k then 0 else x.replays }) l 1 1
  if seq ≠ x.expect then (if x.nak then s1 else sendNak l s1)
  else initRecord l devid tag joined half
    (updOlink s1 l (fun x => { x with expect := (x.expect + 1) % 4096, nak := false }))

def execObxLinkEnable (l : Nat) (v : Word) (s : State) : Out :=
  if getF v F.OBX_LCFG_en = 0 then .refused .illFormed else onObx l (lcfgWrite l v) s

def execObxLinkDisable (l : Nat) (v : Word) (s : State) : Out :=
  if getF v F.OBX_LCFG_en = 1 then .refused .illFormed else onObx l (lcfgWrite l v) s

def execObxTrainingComplete (l : Nat) (s : State) : Out := onObx l (linkTrained l) s

/-- INIT_FLIT_SEND (R385): in INIT each 1 µs, and in LINK_UP, where INIT flits still flow. -/
def execInitFlitSend (l : Nat) (s : State) : Out :=
  onObx l (fun s =>
    if (linkState s l = 2 ∨ linkState s l = 3) ∧ (olink s l).retry.length < 496 then sendSeq l { idleFlit with ftype := 4 } s
    else s) s

/-- INIT_RECEIVE (R385): the flit's sequence and ack, and its payload's fields. -/
def execInitReceive (l seq ack devid tag : Nat) (joined : Bool) (num : Nat) (half : Bool) (s : State) : Out :=
  if 4096 ≤ seq ∨ 4096 ≤ ack ∨ 1024 ≤ devid ∨ 2 ^ 32 ≤ tag ∨ 8 ≤ num then .refused .illFormed
  else onObx l (fun s => if linkLive s l then obxPump (initArrives l seq ack devid tag joined half s) else s) s

/-- Notices of no defined kind have nothing to apply and are only flooded on (R404). -/
def takeUnknown (s : State) : State :=
  let bad := s.obx.noticeIn.filter (fun e => decide (4 < nKind e.2))
  forEach bad (fun e s => takeNotice e.2 e.1 s)
    { s with obx := { s.obx with noticeIn := s.obx.noticeIn.filter (fun e => !decide (4 < nKind e.2)) } }

/-- FLIT_RECEIVE (R387, R389, R390). -/
def execFlitReceive (l : Nat) (b : List Byte) (s : State) : Out :=
  onObx l (fun s => if linkLive s l then obxPump (takeUnknown (flitArrives l b s)) else s) s

/-- NAK_REPEAT (R389). -/
def execNakRepeat (l : Nat) (s : State) : Out :=
  onObx l (fun s => if linkLive s l && (olink s l).nak then sendNak l s else s) s

/-- REPLAY_TIMEOUT (R390, R391). -/
def execReplayTimeout (l : Nat) (s : State) : Out :=
  onObx l (fun s =>
    match (olink s l).retry with
    | f :: _ => if linkLive s l then obxPump (replay l f.seq s) else s
    | [] => s) s

/-- OBX_LINK_LOSS (R384, R469). -/
def execObxLinkLoss (l : Nat) (s : State) : Out :=
  onObx l (fun s => if linkLive s l then obxPump (linkHalfReset l 6 s) else s) s

/-! ## Transactions (R395–R399, R411, R413) -/

/-- A received RD, WR or ATOM to a unit in RETRAINING waits (R330). -/
def rxWaits (s : State) (r : ObxRx) : Bool :=
  [opRd, opWr, opAtom].contains (rxType r) && (windowTarget s (bitsN (rxArg r) 36 0)).any (busyIn s · (rxSize r))

/-- The oldest transaction of a type received on a link; one from a device that has left is discarded and counted, and
a stomped one is void (R386). -/
def onRx (l typ : Nat) (f : ObxRx → State → State) (s : State) : Out :=
  onObx l (fun s =>
    match takeRx s l typ with
    | none => s
    | some (r, s1) =>
      if rxWaits s r then s
      else obxPump (if fromLeft s1 r then cntNonmember s1 else if r.stomp && typ != opPkt then s1 else f r s1)) s

/-- BPM port of the die a link lies on. -/
def linkDie (s : State) (l : Nat) : Nat :=
  match Tab.find? s.img.olinks l with
  | some c => if c.group < 4 then portIoa else portIob
  | none => portIoa

/-- A PKT (R396): placed and parsed as a frame from the sending device. One that needs more than 64 data buffers is
discarded (R233); no counter of Obrex takes it (DESIGN CHOICE, log 91). -/
def rxPkt (r : ObxRx) (s : State) : State :=
  let u := unitObx r.link r.vc
  let p := (unitPool s u).getD 0
  if r.stomp then bump s Reg.OBX_CNT1 F.OBX_CNT1_stomped
  else if tooLong s p (min (rxData r).length (bitsN (rxArg r) 31 0)) then s
  else
    ingress { unit := u, pool := p, port := linkDie s r.link, srcKind := 2,
              src := agentDev (rxAgent r) + r.link * 2 ^ 12 + r.vc * 2 ^ 16, sub := 0, ts := r.at_, stomp := false,
              bytes := (rxData r).take (bitsN (rxArg r) 31 0), bufs := [] } s

/-- Answers a received request on the RESPONSE channel. -/
def answer (r : ObxRx) (status : Nat) (data : List Byte) (s : State) : State :=
  match vcOfClass s 2 with
  | some v => respond s v (agentDev (rxAgent r)) (rxAgent r) (rxTag r) status data
  | none => s

/-- Status of an answer: POISON when the access met poison. -/
def poisonStatus (bad : Bool) : Nat := if bad then 4 else 0

def rxRd (ecc : Nat) (r : ObxRx) (s : State) : State :=
  let n := rxSize r
  if n = 0 ∨ 64 < n then answer r 3 [] s
  else
    match remoteTarget s r n true false with
    | (none, s1) => answer r 3 [] s1
    | (some a, s1) =>
      let (bad, s2) := memReadCheck s1 a n ecc
      answer r (poisonStatus bad) (if bad then [] else rdBytes s2.mem a n) s2

def rxWr (r : ObxRx) (s : State) : State :=
  let n := rxSize r
  if n = 0 ∨ 64 < n then answer r 3 [] s
  else
    match remoteTarget s r n false true with
    | (none, s1) => answer r 3 [] s1
    | (some a, s1) =>
      let (bad, s2) := memWrite s1 a ((rxData r).take n)
      let s3 := if bad then s2 else dstArrive (agentDev (rxAgent r)) a ((rxData r).take n) s2
      answer r (poisonStatus bad) [] s3

/-- Function number of R98 for the op of an ATOM: add, swap, compare-and-swap. -/
def rxAtomFn (n : Nat) : Option Nat :=
  match n with
  | 1 => some 0
  | 2 => some 4
  | 3 => some 5
  | _ => none

def rxAtom (ecc : Nat) (r : ObxRx) (s : State) : State :=
  match rxAtomFn (rxSize r) with
  | none => answer r 3 [] s
  | some fn =>
    match remoteTarget s r 6 true true with
    | (none, s1) => answer r 3 [] s1
    | (some a, s1) =>
      let (bad, s2) := memReadCheck s1 a 6 ecc
      if bad then answer r 4 [] s2
      else
        let (old, s3) := memAtomic s2 a fn (leNat ((rxData r).take 6)) (leNat (((rxData r).drop 6).take 6))
        answer r 0 (leBytes 6 old.toNat) s3

/-- The target of a LOCK or INTR is a CSR that the map may deny to the requester (R511–R513). -/
def rxDenied (s : State) (off : Nat) : Bool := !allowed s 6 (0xF000000000 + off) false true

/-- LOCK (R399): the command, and the lock word it leaves, on CTL. -/
def rxLock (r : ObxRx) (s : State) : State :=
  let n := bitsN (rxArg r) 11 0
  let a := rxAgent r
  let off := Reg.GKO_LOCK n
  if rxDenied s off then respond (denied a 6 (0xF000000000 + off) true s) vcCtl (agentDev a) a (rxTag r) 3 []
  else
    let s1 := gkoCommand n a 0 (toW (leNat ((rxData r).take 6))) s
    respond s1 vcCtl (agentDev a) a (rxTag r) 0 (leBytes 6 (lockWord s1 n a).toNat)

/-- INTR (R399): a doorbell, or a record for the remote-in notify FIFO. -/
def rxIntr (r : ObxRx) (s : State) : State :=
  let a := rxAgent r
  let bell := rxArg r == 0
  if bell && rxDenied s Reg.EVT_RING then
    respond (denied a 6 (0xF000000000 + Reg.EVT_RING) true s) vcCtl (agentDev a) a (rxTag r) 3 []
  else
    let b := leNat ((rxData r).take 1)
    let s1 := if bell then (if b < 128 then raise s (1920 + b) else s)
      else if rxArg r = 1 then notifyPush 6 (toW (leNat ((rxData r).take 6))) s else s
    respond s1 vcCtl (agentDev a) a (rxTag r) 0 []

/-- MEMBER (R413): the peer's OBX_MEMBER. -/
def rxMember (r : ObxRx) (s : State) : State :=
  let n := leNat ((rxData r).take 128)
  forEach (List.range 22) (fun k s => wr s (Reg.OBX_PEERMEM r.link k) (toW (n / 2 ^ (48 * k)))) s

def execPkt (l : Nat) (s : State) : Out := onRx l opPkt rxPkt s
def execRd (l ecc : Nat) (s : State) : Out := if 3 ≤ ecc then .refused .illFormed else onRx l opRd (rxRd ecc) s
def execWr (l : Nat) (s : State) : Out := onRx l opWr rxWr s
def execAtom (l ecc : Nat) (s : State) : Out := if 3 ≤ ecc then .refused .illFormed else onRx l opAtom (rxAtom ecc) s
def execLock (l : Nat) (s : State) : Out := onRx l opLock rxLock s
def execIntr (l : Nat) (s : State) : Out := onRx l opIntr rxIntr s
def execResp (l : Nat) (s : State) : Out :=
  onRx l opResp (fun r s => takeResp s (rxTag r) (bitsN (rxArg r) 7 0) (rxData r)) s
def execMember (l : Nat) (s : State) : Out := onRx l opMember rxMember s

/-- OBX_REQUEST_TIMEOUT (R398): a fabric engine's request expires. -/
def execObxRequestTimeout (tag : Nat) (s : State) : Out :=
  match Tab.find? s.obx.reqs tag with
  | some r =>
    if r.op.isNone && !r.late then
      .next (obxPump { s with obx := { s.obx with reqs := Tab.put s.obx.reqs tag { r with late := true } } })
    else .next s
  | none => .next s

/-! ## Notices (R403–R411) -/

/-- The first notice of a kind accepted on a link and not yet acted on. -/
def onNotice (l kind : Nat) (s : State) : Out :=
  onObx l (fun s =>
    match s.obx.noticeIn.find? (fun e => e.1 == l && nKind e.2 == kind) with
    | none => s
    | some e => obxPump (takeNotice e.2 l { s with obx := { s.obx with noticeIn := s.obx.noticeIn.erase e } })) s

def execMute (l : Nat) (s : State) : Out := onNotice l 1 s
def execUnmute (l : Nat) (s : State) : Out := onNotice l 2 s

/-- LEAVE (R411); an ACTIVE device of a pair that it names enters FENCED (R443). -/
def execLeave (l : Nat) (s : State) : Out :=
  onObx l (fun s =>
    match s.obx.noticeIn.find? (fun e => e.1 == l && nKind e.2 == 3) with
    | none => s
    | some e =>
      let n := e.2
      let fresh := !s.obx.recent.contains (nOrigin n, nId n)
      let s1 := takeNotice n l { s with obx := { s.obx with noticeIn := s.obx.noticeIn.erase e } }
      obxPump (if fresh && nTarget n == devId s then fence s1 else s1)) s

def execJoin (l : Nat) (s : State) : Out := onNotice l 4 s

/-- A write of OBX_NOTICE_CMD (R404, R418): kind 0 or 5–15 does nothing. -/
def noticeCmd (w : Word) (s : State) : State :=
  let k := bitsN w.toNat 47 44
  if k = 0 ∨ 4 < k then s else obxPump (originate w.toNat s)

/-- A write of OBX_NOTICE_CMD of the kind the row names. -/
def originateRow (kind : Nat) (w : Word) (s : State) : Out :=
  if bitsN w.toNat 47 44 = kind then .next (noticeCmd w s) else .refused .illFormed

def execOriginateMute (w : Word) (s : State) : Out := originateRow 1 w s
def execOriginateUnmute (w : Word) (s : State) : Out := originateRow 2 w s
def execOriginateLeave (w : Word) (s : State) : Out := originateRow 3 w s
def execOriginateJoin (w : Word) (s : State) : Out := originateRow 4 w s

/-- MUTE_EXPIRY (R407) of mute table entry `k`, or from 64 on of a mute that found the table full; a life of 0 lasts
until UNMUTE. -/
def execMuteExpiry (k : Nat) (s : State) : Out :=
  if k < 64 then
    match Tab.find? s.obx.mutes k with
    | some n => .next (if nLife n = 0 then s else obxPump (muteEnd k s))
    | none => .next s
  else
    match s.obx.overflow[k - 64]? with
    | some n =>
      .next (if nLife n = 0 then s
        else obxPump (muteStat { s with obx := { s.obx with overflow := s.obx.overflow.eraseIdx (k - 64) } }))
    | none => .next s

/-- RECENT_PAIR_EXPIRY (R404). -/
def execRecentPairExpiry (origin id : Nat) (s : State) : Out :=
  .next { s with obx := { s.obx with recent := s.obx.recent.filter (fun e => e != (origin, id)) } }

/-! ## Membership (R409, R412) -/

/-- A write of OBX_ID (R409, R418): devid only while joined is 0; setting joined originates a JOIN naming the device,
clearing it first a LEAVE. -/
def obxIdWrite (v : Word) (s : State) : State :=
  let was := obxJoined s
  let want := getF v F.OBX_ID_joined == 1
  let s1 := if was then s else setFld s Reg.OBX_ID F.OBX_ID_devid (getF v F.OBX_ID_devid)
  let own := fld s1 Reg.OBX_ID F.OBX_ID_devid
  if want && !was then
    let s2 := setFld (setFld s1 Reg.OBX_ID F.OBX_ID_joined 1) Reg.OBX_ID F.OBX_ID_isolated 0
    let s3 := setMember { s2 with obx := { s2.obx with everJoined := true } } own true
    obxPump (settleLinks (originate (4 * 2 ^ 44 + own * 2 ^ 20) s3))
  else if was && !want then
    let s2 := originate (3 * 2 ^ 44 + own * 2 ^ 20) s1
    obxPump (settleLinks (setFld s2 Reg.OBX_ID F.OBX_ID_joined 0))
  else s1

def execJoinDomain (v : Word) (s : State) : Out :=
  if getF v F.OBX_ID_joined = 1 then .next (obxIdWrite v s) else .refused .illFormed

def execLeaveDomain (v : Word) (s : State) : Out :=
  if getF v F.OBX_ID_joined = 0 then .next (obxIdWrite v s) else .refused .illFormed

/-! ## Domain time (R414, R415) -/

/-- TIMESTAMP_SEND (R415): a flit with tsv and the next tsid. -/
def execTimestampSend (l : Nat) (s : State) : Out :=
  onObx l (fun s =>
    if linkState s l = 3 ∨ linkState s l = 4 then
      let x := olink s l
      let k := (x.tsid + 1) % 16
      sendFlit l idleFlit (some k) (setOlink s l { x with tsid := k, stamps := Tab.set 0 x.stamps k (domNow s) })
    else s) s

/-- OBX_CTL.clr (R418). -/
def obxClr (s : State) : State :=
  forEach (List.range 8) (fun l s => forEach (List.range 6) (fun k s => wr s (Reg.OBX_LCNT l k) 0) s)
    (wr (wr s Reg.OBX_CNT0 0) Reg.OBX_CNT1 0)

def execObxCtlClr (s : State) : Out := .next (obxClr s)

/-! ## Fabric egress (R19, R20, R396, R406) -/

/-- Destination word of a device on a virtual channel (R203). -/
def obxDest (vc dev : Nat) : Nat := 3 * 2 ^ 44 + vc * 2 ^ 16 + dev

/-- The PKT of a departure's bytes. -/
def pktMsg (s : State) (vc dev : Nat) (bytes : List Byte) (stomp : Bool) : ObxMsg :=
  { vc := vc, typ := opPkt, size := 0, dst := dev, agent := agentId s (0x2000 + (Config.fabricEngine 0).toNat), tag := 0,
    arg := bytes.length, data := bytes, op := none, wantTag := false, link := none, stomp := stomp, transit := none }

/-- FABRIC_PKT_SEND: the oldest departure toward a device on a virtual channel. It waits under a HOLD mute and while no
link may start it; DROP drops it; to a device that has left, or with no route, it is a bad destination (R402, R411). -/
def fabricSend (vc dev ecc : Nat) (s : State) : State :=
  match egressQ s (obxDest vc dev) with
  | [] => s
  | d :: _ =>
    let gone := egressPop (obxDest vc dev) s
    if s.gecko.left.contains dev ∨ (routeCands s dev).isEmpty then refDone d.key 26 (badDest d.key 1 d.child.isSome (toW d.dest.toNat) gone)
    else if muteDrops s vc dev then refDone d.key portIoa (bump gone Reg.OBX_CNT0 F.OBX_CNT0_mutedrop)
    else if muted s vc dev then s
    else
      match pickLink s (pktMsg s vc dev (List.replicate d.len 0) false) with
      | none => s
      | some l =>
        if departWaits s d then s else
        let (bad, bytes, s1) := egressRead d ecc gone
        refDone d.key (linkDie s l) (obxPump (sendObx s1 (pktMsg s1 vc dev bytes bad)))

def execFabricPktSend (vc dev ecc : Nat) (s : State) : Out :=
  if 8 ≤ vc ∨ 1024 ≤ dev ∨ 4 ≤ ecc then .refused .illFormed else .next (fabricSend vc dev ecc s)

end Sys2Proof.Machine
end

