-- ==== Sys2Proof/Machine/ClkOps.lean ====
section
/-! DEFINITION. Clock domains, PLLs, reset domains and half-reset (R449–R471). -/

namespace Sys2Proof.Machine

/-- DEV is out of reset (R464, R452). -/
def devUp (s : State) : Bool := flag s Reg.CRS_BOOT F.CRS_BOOT_dev_rel && !s.clk.dead

/-- DEV is released by boot code (R464): the event crossings arm empty, and domain time starts at 0 (R414). -/
def devRelease (s : State) : State :=
  if flag s Reg.CRS_BOOT F.CRS_BOOT_dev_rel then s
  else setDom (setFld { s with ev := Ev.reset } Reg.CRS_BOOT F.CRS_BOOT_dev_rel 1) 0 0

/-! ## Domains and PLLs (R453, R454) -/

def portOn (s : State) (p : Nat) : Bool := flag s (Reg.MAC_PCFG p) F.MAC_PCFG_en
def olinkOn (s : State) (l : Nat) : Bool := flag s (Reg.OBX_LCFG l) F.OBX_LCFG_en

/-- Lanes of an Ethernet port by mode, and of an Obrex link, full (mode 2) or half (3) (R33). -/
def portLanes (c : PortCfg) : Nat := match c.mode with | 1 => 8 | 2 => 4 | 3 => 2 | _ => 1
def olinkLanes (c : PortCfg) : Nat := if c.mode = 2 then 8 else 4
def laneIn (c : PortCfg) (n k : Nat) : Bool := decide (c.group * 8 + c.slot * n ≤ k) && decide (k < c.group * 8 + c.slot * n + n)

/-- The Ethernet port, and the Obrex link, a lane belongs to. -/
def lanePort (s : State) (k : Nat) : Option Nat := (List.find? (fun e => laneIn e.2 (portLanes e.2) k) s.img.ports).map (fun e => e.1)
def laneLink (s : State) (k : Nat) : Option Nat := (List.find? (fun e => laneIn e.2 (olinkLanes e.2) k) s.img.olinks).map (fun e => e.1)

/-- The lane's port or link is enabled, in half-reset, and its receiver locked. -/
def laneOn (s : State) (k : Nat) : Bool :=
  (match lanePort s k with | some p => portOn s p | none => false) ||
    (match laneLink s k with | some l => olinkOn s l | none => false)
def laneHalf (s : State) (k : Nat) : Bool :=
  (match lanePort s k with | some p => flag s (Reg.MAC_PSTAT p) F.MAC_PSTAT_half_reset | none => false) ||
    (match laneLink s k with | some l => flag s (Reg.OBX_LSTAT l) F.OBX_LSTAT_half_reset | none => false)
def laneLocked (s : State) (k : Nat) : Bool :=
  (match lanePort s k with | some p => flag s (Reg.MAC_PSTAT p) F.MAC_PSTAT_pcs_lock | none => false) ||
    (match laneLink s k with | some l => linkLive s l | none => false)

/-- A port or link of lane groups `4d` to `4d + 3` is enabled. -/
def dieLanes (s : State) (d : Nat) : Bool :=
  s.img.ports.any (fun e => e.2.group / 4 == d && portOn s e.1) || s.img.olinks.any (fun e => e.2.group / 4 == d && olinkOn s e.1)

/-- A cluster's clocks run: RUN, waking, or a reset in progress (R453). -/
def cluClocked (s : State) (c : Nat) : Bool :=
  let x := clu s c
  decide (x.power = .run) || decide (x.power = .wakingG) || decide (x.power = .wakingP)

/-- The condition of R453 for a domain. -/
def domReq (s : State) (d : Nat) : Bool :=
  if d < 2 then true
  else if d < 4 ∨ d = 6 then !s.svc.porst
  else if d = 4 then flag s Reg.SVC_PORT F.SVC_PORT_up
  else if d = 5 then false
  else if d < 13 then devUp s
  else if d < 37 then cluClocked s (d - 13)
  else if d < 61 then cluClocked s (d - 37)
  else if d < 65 then devUp s
  else if d < 69 then devUp s && !(mcCtl s (d - 65)).selfRef
  else if d < 77 then devUp s && mcUsed s (d - 65) && !(mcCtl s (d - 65)).selfRef
  else if d < 79 then devUp s && dieLanes s (d - 77)
  else if d < 143 then laneOn s (d - 79)
  else if d < 207 then laneLocked s (d - 143)
  else if d < 211 then s.img.hlinks.any (fun e => e.1 / 4 == d - 207)
  else d < 227 && flag s (Reg.HST_LINK (d - 211)) F.HST_LINK_up

/-- PLL that feeds a domain. -/
def pllOf (d : Nat) : Option Nat :=
  if d < 2 ∨ d = 4 then none
  else if d < 7 then some 0
  else if d < 13 then some (d + 6)
  else if d < 37 then some (1 + (d - 13) / 6)
  else if d < 61 then some (5 + (d - 37) / 6)
  else if d < 65 then some (d - 52)
  else if d < 77 then some (d - 46)
  else if d < 79 then some (d - 34)
  else if d < 143 then some (31 + (d - 79) / 8)
  else if d < 207 then none
  else if d < 211 then some (d - 168)
  else none

/-- A PLL is powered (R454). -/
def pllOn (s : State) (p : Nat) : Bool :=
  (decide (1 ≤ p) && decide (p ≤ 8) && devUp s && fld s Reg.PWR_STATE F.PWR_STATE_cur != 3) ||
    (List.range 227).any (fun d => pllOf d == some p && (domReq s d || s.clk.runs.contains d))

/-- A domain's condition holds and its PLL is locked: its clock runs. -/
def domLive (s : State) (d : Nat) : Bool :=
  domReq s d && (match pllOf d with | some p => s.clk.locked.contains p | none => true)

/-- What a cycle does to the clocks: PLLs not powered lose lock, and domains that run are noted (R454, R455). -/
def clkTick (s : State) : State :=
  { s with clk := { s.clk with locked := s.clk.locked.filter (pllOn s),
                               runs := allBelow 227 (fun d => domLive s d || s.clk.runs.contains d) } }

/-- One NCLK passes, with what it does to the clocks. -/
def tick (s : State) : State := clkTick { s with now := s.now + 1 }

/-- A domain is in reset, or its PLL is off. -/
def domOff (s : State) (d : Nat) : Bool :=
  (match pllOf d with | some p => !pllOn s p | none => false) ||
  (if d < 2 then false
   else if d < 7 then s.svc.porst || (d == 4 && flag s Reg.SVC_PORT F.SVC_PORT_half_reset)
   else if d < 13 then !devUp s
   else if d < 61 then (clu s ((d - 13) % 24)).inReset
   else if d < 79 then !devUp s
   else if d < 207 then !laneOn s ((d - 79) % 64) || laneHalf s ((d - 79) % 64)
   else if d < 211 then !s.host.perst.contains (d - 207)
   else !linkPresent s (d - 211) || !s.host.perst.contains ((d - 211) / 4) ||
     flag s (Reg.HST_LINK (d - 211)) F.HST_LINK_half_reset)

/-- A domain fed by a partner's clock. -/
def domPartner (d : Nat) : Bool := d == 4 || (decide (143 ≤ d) && decide (d < 207)) || decide (211 ≤ d)

/-- CRS_DOMSTAT.state (R474): 0 OFF, 1 STOPPED, 2 RUN, 3 ABSENT. -/
def domState (s : State) (d : Nat) : Nat :=
  if domOff s d then 0
  else if domLive s d ∨ s.clk.runs.contains d then 2
  else if domPartner d then 3 else 1

/-- Every crossing with the domain on either side is idle (R455). -/
def domIdle (s : State) (d : Nat) : Bool :=
  !(s.ev.xing ++ s.ev.bits).any (fun e => srcDomain s e.1 == d || d == 11) &&
    !s.bridge.inbound.any (fun e => d == 13 + e.2.thread / 128 || (decide (7 ≤ d) && decide (d < 13)))

/-- CLOCK_STOP (R455): a stop that finds a crossing busy waits, and one of a domain required again is abandoned. -/
def clockStop (d : Nat) (s : State) : State :=
  if domReq s d || !domIdle s d then s else { s with clk := { s.clk with runs := s.clk.runs.filter (· != d) } }

/-! ## Reset of the part (R463, R464, R478, R509) -/

/-- Registers of the AON reset domain (R474, R499, R538, R539): blocks PROT, CLKRST, PWR and SVC. -/
def aonReg (a : Nat) : Bool := a / 65536 == 1 || a / 65536 == 4 || a / 65536 == 5 || a / 65536 == 0x80

/-- What no reset touches: the simulation's counters, the outside's queue and the outbox; the flashes, OTP, pins, the
planner's observation since first boot; and slot RAM of another generation (R581). -/
def blank (s : State) : State :=
  { State.reset with
    now := s.now, freeCtr := s.freeCtr, nextOp := s.nextOp, pending := s.pending, outbox := s.outbox,
    clusters := (List.range 24).map (fun c => (c, { Cluster.reset with gen := (clu s c).gen + 1 })),
    host := { HostS.reset with perst := s.host.perst },
    pwr := { PwrS.reset with seen := s.pwr.seen, dHist := s.pwr.dHist, vinUp := s.pwr.vinUp },
    svc := { SvcS.reset with vaon := s.svc.vaon, porstN := s.svc.porstN, flash0 := s.svc.flash0, flash1 := s.svc.flash1, presLow := s.svc.presLow, relAt := s.now,
                             owedTset := s.svc.owedTset } }

/-- The fuses blown exceed the ones cleared (R528). -/
def tamperFuses (s : State) : Bool := decide (fld s Reg.SVC_OTP F.SVC_OTP_tclr < fld s Reg.SVC_OTP F.SVC_OTP_tset)

/-- A reset of every reset domain as PORST_N (R464): OTP, PWR_RSTCAUSE and the level of HOLDUP_OK stay; RESET also keeps
SVC_BOOT.skip and tamper (R509), else tamper is loaded from the fuses. -/
def partReset (keep : Bool) (s : State) : State :=
  let s1 := [Reg.SVC_OTP, Reg.PWR_LIFEOTP, Reg.PWR_RSTCAUSE].foldl (fun n a => wr n a (rd s a)) (blank s)
  let s2 := setFld s1 Reg.PWR_VIN F.PWR_VIN_hok (fld s Reg.PWR_VIN F.PWR_VIN_hok)
  let t := if keep then fld s Reg.SVC_SEC F.SVC_SEC_tamper else b2n (tamperFuses s)
  let s3 := setFld (setFld s2 Reg.SVC_SEC F.SVC_SEC_tamper t) Reg.SVC_SEC F.SVC_SEC_pres (b2n s.svc.presLow)
  if keep then setFld s3 Reg.SVC_BOOT F.SVC_BOOT_skip (fld s Reg.SVC_BOOT F.SVC_BOOT_skip) else s3

/-- A REFCLK failure, or a PLL unlock handled as one (R452, R456): every reset domain but AON and SVCPORT enters reset,
every PLL but PLL 0 stops, PLL 0 is in holdover, and the Service Newt is interrupted. -/
def refFailure (s : State) : State :=
  let s1 := { blank s with csr := s.csr.filter (fun e => aonReg e.1), svc := s.svc, pwr := s.pwr,
                           clk := { s.clk with locked := s.clk.locked.filter (· == 0), runs := s.clk.runs.filter (fun d => d < 7),
                                               dead := true, irq := true } }
  setFld (wr s1 Reg.CRS_CLUSTAT 0xFFFFFF) (Reg.CRS_PLLSTAT 0) F.CRS_PLLSTAT_holdover 1

/-! ## The REFCLK monitor (R450–R452) -/

/-- A window of the monitor ends with a count. -/
def refWindow (n : Nat) (s : State) : State :=
  let s1 := setFld s Reg.CRS_REFMON F.CRS_REFMON_count (min n 65535)
  if !flag s Reg.CRS_REFMON F.CRS_REFMON_trimmed then
    if 23000 ≤ n ∧ n ≤ 27000 then setFld s1 Reg.CRS_REFMON F.CRS_REFMON_trimmed 1 else s1
  else
    let miss := decide (n < 24500) || decide (25500 < n)
    let s2 := { s1 with clk := { s1.clk with miss := miss } }
    if miss && s.clk.miss && !flag s Reg.CRS_REFMON F.CRS_REFMON_fail then
      refFailure (setFld s2 Reg.CRS_REFMON F.CRS_REFMON_fail 1)
    else s2

/-! ## Half-reset (R468–R470) -/

/-- The service port loses its partner (R521). -/
def svcPortDown (s : State) : State :=
  if !flag s Reg.SVC_PORT F.SVC_PORT_up then s
  else raise (halfFlush (setFld (setFld s Reg.SVC_PORT F.SVC_PORT_up 0) Reg.SVC_PORT F.SVC_PORT_half_reset 1)) 1805

/-- Loss of an Obrex link (R384, R468). -/
def obxLoss (l : Nat) (s : State) : State := if linkLive s l then obxPump (linkHalfReset l 6 s) else s

/-- Every host link of a port goes down. -/
def hostPortDown (p : Nat) (s : State) : State := forEach (List.range 4) (fun k s => hostDown (p * 4 + k) s) s

/-- PERSTp_N of a port is asserted. -/
def perstAssert (p : Nat) (s : State) : State :=
  let s1 := hostPortDown p s
  { s1 with host := { s1.host with perst := s1.host.perst.filter (· != p) } }

/-- A trigger of R468: 0 an Ethernet port, 1 an Obrex link, 2 a host link, 3 the service port, 4 PERSTp_N of a port. -/
def halfTrigger (kind i : Nat) (s : State) : State :=
  match kind with
  | 0 => if i < 64 then bpUpdate (portHalf i 0 none false s) else s
  | 1 => if i < 8 then obxLoss i s else s
  | 2 => if i < 16 then hostDown i s else s
  | 3 => svcPortDown s
  | _ => if i < 4 then perstAssert i s else s

/-- Writing 1 to a half_reset flag (R470). -/
def halfRearm (kind i : Nat) (s : State) : State :=
  match kind with
  | 0 => if i < 64 then portRearm i s else s
  | 1 => if i < 8 then linkRearm i s else s
  | 2 => if i < 16 then setFld s (Reg.HST_LINK i) F.HST_LINK_half_reset 0 else s
  | 3 => setFld s Reg.SVC_PORT F.SVC_PORT_half_reset 0
  | _ => s

/-! ## PLLs (R454, R456) -/

/-- Clusters of a quadrant. -/
def quadClusters (q : Nat) : List Nat := (List.range 6).map (fun i => q * 6 + i)

/-- Clusters of quadrant `q` are reset and held until its PLLs have locked again. -/
def pllHoldQuad (q : Nat) (s : State) : State :=
  forEach (quadClusters q) (fun c s => cluResetBegin c (updClu s c (fun x => { x with pllHold := true }))) s

/-- A PLL loses lock while REFCLK passes its monitor. -/
def pllUnlock (p : Nat) (s : State) : State :=
  if !s.clk.locked.contains p then s
  else
    let s1 := { s with clk := { s.clk with locked := s.clk.locked.filter (· != p) } }
    let s2 := bump s1 (Reg.CRS_PLLSTAT p) F.CRS_PLLSTAT_unlocks
    if 1 ≤ p ∧ p ≤ 8 then raise (pllHoldQuad ((p - 1) % 4) s2) 1602
    else if 31 ≤ p ∧ p ≤ 38 then
      let s3 := forEach (s.img.ports.filter (fun e => e.2.group == p - 31)) (fun e s => bpUpdate (portHalf e.1 0 none false s)) s2
      raise (forEach (s.img.olinks.filter (fun e => e.2.group == p - 31)) (fun e s => obxLoss e.1 s) s3) 1602
    else if 39 ≤ p ∧ p ≤ 42 then raise (hostPortDown (p - 39) s2) 1602
    else refFailure s2

/-- A powered PLL locks; a quadrant whose two PLLs are locked holds its clusters no longer. -/
def pllLock (p : Nat) (s : State) : State :=
  if !pllOn s p || s.clk.locked.contains p || (s.clk.dead && p != 0) then s
  else
    let s1 := { s with clk := { s.clk with locked := s.clk.locked ++ [p] } }
    if 1 ≤ p ∧ p ≤ 8 then
      let q := (p - 1) % 4
      if s1.clk.locked.contains (1 + q) && s1.clk.locked.contains (5 + q) then
        forEach (quadClusters q) (fun c s => updClu s c (fun x => { x with pllHold := false })) s1
      else s1
    else s1

/-! ## Cluster reset registers (R465) -/

def cluRst (v : Word) (s : State) : State := forEach (setBits 24 v.toNat) cluResetBegin s

/-- A write of CRS_CLUHOLD: a bit set resets and holds its cluster. -/
def cluHoldWrite (v : Word) (s : State) : State :=
  let s1 := wr s Reg.CRS_CLUHOLD (toW (v.toNat % 2 ^ 24))
  forEach (setBits 24 v.toNat) cluResetBegin s1

/-- A FIFO crossing delivers (R461): the oldest ending of cluster `c` that is on its way reaches Bridge; `c` 24 is
Spawn's own. Every other FIFO crossing is empty between steps. -/
def fifoDeliver (c : Nat) (s : State) : State :=
  match s.bridge.inbound.find? (fun e => e.2.thread / 128 == c) with
  | none => s
  | some e => bpUpdate (endingArrives e.1 e.2 { s with bridge := { s.bridge with inbound := s.bridge.inbound.erase e } })

/-- CRS_CTL.clr (R474). -/
def crsClr (s : State) : State :=
  forEach (List.range 45) (fun p s => setFld s (Reg.CRS_PLLSTAT p) F.CRS_PLLSTAT_unlocks 0) (wr s Reg.CRS_CNT 0)

end Sys2Proof.Machine
end

