-- ==== Sys2Proof/Machine/ClkRows.lean ====
section
/-! DEFINITION. The rows of clocks, resets and crossings (R449–R474), but for PORST_N and the ROM's timeout. -/

namespace Sys2Proof.Machine

/-- REFCLK_MONITOR_WINDOW (R451): a window ends with `n` edges counted. -/
def execRefclkMonitorWindow (n : Nat) (s : State) : Out := .next (refWindow n s)

def execPllUnlock (p : Nat) (s : State) : Out := if p < 45 then .next (pllUnlock p s) else .refused .illFormed
def execPllLock (p : Nat) (s : State) : Out := if p < 45 then .next (pllLock p s) else .refused .illFormed
def execClockStop (d : Nat) (s : State) : Out := if d < 227 then .next (clockStop d s) else .refused .illFormed

/-- HANDSHAKE_DELIVERY (R458): the transfer of source `n` completes; it waits while the destination's clock is stopped. -/
def execHandshakeDelivery (n : Nat) (s : State) : Out :=
  if 2048 ≤ n then .refused .illFormed else .next (if s.clk.dead then s else xingDeliver s n)

/-- FIFO_CROSSING_DELIVERY (R461). -/
def execFifoCrossingDelivery (c : Nat) (s : State) : Out := if c < 25 then .next (fifoDeliver c s) else .refused .illFormed

/-- DEV_RELEASE (R464): a write of 1 to CRS_BOOT.dev_rel, a BW field (R510). -/
def execDevRelease (agent : Nat) (s : State) : Out :=
  if !knownAgent agent then .refused .illFormed
  else if agent = svcAgent ∧ !isSealed s then .next (devRelease s)
  else .next (bwRefused (agentId s agent) (classOf s (agentId s agent)) s)

/-- CLUSTER_RESET (R465, R466): a write of CRS_CLURST. -/
def execClusterReset (v : Word) (s : State) : Out := .next (cluRst v s)
def execClusterHoldWrite (v : Word) (s : State) : Out := .next (cluHoldWrite v s)
def execClusterResetRelease (c : Nat) (s : State) : Out := onCluster c (cluRelease c) s

/-- HALF_RESET_TRIGGER (R468, R469): 0 an Ethernet port, 1 an Obrex link, 2 a host link, 3 the service port, 4 PERSTp_N. -/
def execHalfResetTrigger (kind n : Nat) (s : State) : Out := if kind < 5 then .next (halfTrigger kind n s) else .refused .illFormed
def execHalfResetRearm (kind n : Nat) (s : State) : Out := if kind < 4 then .next (halfRearm kind n s) else .refused .illFormed
def execCrsCtlClr (s : State) : Out := .next (crsClr s)

/-- PERSTP_N_RELEASE (R464): PERSTp_N of port `p` rises; its links leave reset. -/
def execPerstpNRelease (p : Nat) (s : State) : Out :=
  if 4 ≤ p then .refused .illFormed
  else .next (if s.host.perst.contains p then s else { s with host := { s.host with perst := s.host.perst ++ [p] } })

end Sys2Proof.Machine
end

