-- ==== Sys2Proof/Machine/EthRows.lean ====
section
/-! DEFINITION. The rows of the Ethernet ports (R366–R382). -/

namespace Sys2Proof.Machine

/-- A row that names a port. -/
def onPort (p : Nat) (f : State → State) (s : State) : Out := if p < 64 then .next (f s) else .refused .illFormed

/-- FRAME_RECEIVE (R368): a whole frame, FCS included, with the codewords corrected and not correctable in it; a port
that is not UP receives nothing. -/
def execFrameReceive (p : Nat) (l : List Byte) (corr uncor : Nat) (s : State) : Out :=
  onPort p (fun s =>
    if portAssigned s p && portUp s p then bpUpdate (frameReceive p l uncor (macSat p 17 uncor (macSat p 16 corr s))) else s) s

/-- PAUSE_FRAME_RECEIVE (R373): its kind, enable bits and quanta. -/
def execPauseFrameReceive (p : Nat) (pfc : Bool) (mask : Nat) (quanta : List Nat) (s : State) : Out :=
  onPort p (fun s => if portAssigned s p && portUp s p then pauseReceive p pfc mask quanta s else s) s

/-- PAUSE_TIMER_EXPIRY (R374). -/
def execPauseTimerExpiry (p c : Nat) (s : State) : Out :=
  if 8 ≤ c then .refused .illFormed else onPort p (fun s => showPause p (setPause p c 0 s)) s

/-- PAUSE_REPEAT (R371): a held assertion repeats its frame. -/
def execPauseRepeat (p : Nat) (s : State) : Out :=
  onPort p (fun s => if (List.range 8).any (fun k => s.spawn.asserted.contains (unitEth p k)) then sendPause p s else s) s

/-- ETH_TRANSMIT (R376): the transmitter of a port takes the next departure; `ecc` is the error of its read. -/
def execEthTransmit (p ecc : Nat) (s : State) : Out :=
  if 4 ≤ ecc then .refused .illFormed else onPort p (ethTransmit p ecc) s

/-- PORT_ENABLE and PORT_DISABLE (R366): writes of MAC_PCFG that set or clear en; `rx` frames were arriving, and the
frame of class `cut`, if any, was in transmission. -/
def execPortEnable (p : Nat) (v : Word) (s : State) : Out :=
  if getF v F.MAC_PCFG_en = 0 then .refused .illFormed else onPort p (pcfgWrite p 0 none v) s

def execPortDisable (p rx : Nat) (cut : Option Nat) (v : Word) (s : State) : Out :=
  if getF v F.MAC_PCFG_en = 1 ∨ 1 < rx then .refused .illFormed else onPort p (pcfgWrite p rx cut v) s

/-- PORT_UP (R366): training completes. -/
def execPortUp (p : Nat) (s : State) : Out := onPort p (portTrained p) s

/-- PORT_LINK_LOSS and REMOTE_FAULT_HELD (R366): UP to HALF_RESET. -/
def execPortLinkLoss (p rx : Nat) (cut : Option Nat) (s : State) : Out :=
  if 1 < rx then .refused .illFormed else onPort p (fun s => bpUpdate (portHalf p rx cut false s)) s

def execRemoteFaultHeld (p rx : Nat) (cut : Option Nat) (s : State) : Out :=
  if 1 < rx then .refused .illFormed else onPort p (fun s => bpUpdate (portHalf p rx cut true s)) s

def execMacCtlClr (p : Nat) (s : State) : Out := onPort p (macClr p) s

end Sys2Proof.Machine
end

