-- ==== Sys2Proof/Machine/EventRows.lean ====
section
/-! DEFINITION. The rows of Gecko and the event controller (R285–R303), and of the handshake crossings its sources come
through (R458). -/

namespace Sys2Proof.Machine

/-- A lock command as a row (R281): lock, the word written, and the requester's agent ID; a thread's command carries its
present generation. `op` is the operation the row stands for. -/
def lockRow (op n : Nat) (w : Word) (req : Nat) (s : State) : Out :=
  if 4096 ≤ n ∨ 2 ^ 24 ≤ req ∨ !knownAgent (agentLoc req) ∨ bitsN w.toNat 29 28 ≠ op then .refused .illFormed
  else
    let gen := match localThread? s req with
      | some t => (th s t).gen
      | none => 0
    .next (obxPump (gkoCommand n req gen w s))

def execClaim (n : Nat) (w : Word) (req : Nat) (s : State) : Out := lockRow 0 n w req s
def execFree (n : Nat) (w : Word) (req : Nat) (s : State) : Out := lockRow 1 n w req s
def execWithdraw (n : Nat) (w : Word) (req : Nat) (s : State) : Out := lockRow 2 n w req s

/-- RESERVATION_EXPIRY (R290) and REGISTRATION_EXPIRY (R294). -/
def execReservationExpiry (n : Nat) (s : State) : Out :=
  if 4096 ≤ n then .refused .illFormed else .next (obxPump (gkoLapse n s))

def execRegistrationExpiry (n agent : Nat) (s : State) : Out :=
  if 4096 ≤ n ∨ 2 ^ 24 ≤ agent then .refused .illFormed else .next (obxPump (gkoExpire n agent s))

def execGkoCtlClr (s : State) : Out := .next (gkoClr s)

/-- A row that names an event source. -/
def onSource (n : Nat) (f : State → State) (s : State) : Out := if n < 2048 then .next (f s) else .refused .illFormed

def execEventOccurrence (n : Nat) (s : State) : Out := onSource n (evOccur n) s
def execEventDelivery (n : Nat) (s : State) : Out := onSource n (evDeliver n) s
def execEventAck (n : Nat) (s : State) : Out := onSource n (evAck n) s

/-- SOFTWARE_DOORBELL (R301): a write of EVT_RING. -/
def execSoftwareDoorbell (n : Nat) (s : State) : Out := if n < 128 then .next (doorbell n s) else .refused .illFormed

/-- SVCQ_READ (R303): by the Service Newt. -/
def execSvcqRead (s : State) : Out :=
  let (w, s1) := svcqPop s
  .next (emit s1 (.reg svcAgent 0 w))

def execEvtCtlClr (s : State) : Out := .next (wr s Reg.EVT_STAT 0)

end Sys2Proof.Machine
end

