-- ==== Sys2Proof/Machine/HostRows.lean ====
section
/-! DEFINITION. The rows of the host ports (R345–R364). -/

namespace Sys2Proof.Machine

/-- A row that names a host link. -/
def onHlink (l : Nat) (f : State → State) (s : State) : Out := if l < 16 then .next (f s) else .refused .illFormed
/-- A row that names a function by its local agent. -/
def onFn (fn : Nat) (f : State → State) (s : State) : Out :=
  if 0x1000 ≤ fn ∧ fn < 0x1400 then .next (f s) else .refused .illFormed
/-- A row that names a transmit or receive queue. -/
def onHq (q : Nat) (f : State → State) (s : State) : Out := if q < 4096 then .next (f s) else .refused .illFormed

/-- HOST_LINK_UP (R347): a present link, not in half-reset, whose port's PERSTp_N is high, trains. -/
def execHostLinkUp (l cxl flit speed width : Nat) (s : State) : Out :=
  if 2 ≤ cxl ∨ 2 ≤ flit ∨ speed = 0 ∨ 6 < speed ∨ [1, 2, 4, 8, 16].contains width = false then .refused .illFormed
  else onHlink l (fun s =>
    let a := Reg.HST_LINK l
    if linkPresent s l && !flag s a F.HST_LINK_up && !flag s a F.HST_LINK_half_reset && s.host.perst.contains (l / 4) &&
        trainingOk s l cxl flit speed width then
      hostUp l cxl flit speed width s
    else s) s

/-- HOST_LINK_DOWN (R347). -/
def execHostLinkDown (l : Nat) (s : State) : Out := onHlink l (hostDown l) s

/-- FUNCTION_LEVEL_RESET (R346) of an enabled function. -/
def execFunctionLevelReset (fn : Nat) (s : State) : Out :=
  onFn fn (fun s => if fnEnabled s fn then fnReset fn s else s) s

/-- MAILBOX_RING (R345): a write of the last 8 bytes of a function's mailbox. -/
def execMailboxRing (fn : Nat) (v : Nat) (s : State) : Out :=
  onFn fn (fun s => if fnEnabled s fn then mboxRing fn (mboxWrite fn 248 (leBytes 8 v) s) else s) s

/-- TXQ_ENABLE (R349): a write of HST_TXQ_CFG that sets en. -/
def execTxqEnable (q : Nat) (v : Word) (s : State) : Out :=
  if getF v F.HST_TXQ_CFG_en = 0 then .refused .illFormed else onHq q (txqCfgWrite q v) s

/-- TX_DOORBELL and RX_DOORBELL (R349, R351): a write of a function's page. -/
def execTxDoorbell (fn idx : Nat) (tail : Nat) (s : State) : Out :=
  if 256 ≤ idx then .refused .illFormed
  else onFn fn (fun s => if fnEnabled s fn then txDoorbell fn idx (tail % 2 ^ 32) s else s) s

def execRxDoorbell (fn idx : Nat) (tail : Nat) (s : State) : Out :=
  if 256 ≤ idx then .refused .illFormed
  else onFn fn (fun s => if fnEnabled s fn then rxDoorbell fn idx (tail % 2 ^ 32) s else s) s

/-- TX_FETCH (R350): the descriptors of the next frame of a queue, `k` of them, are read while its unit is not
back-pressured and its link may issue requests. -/
def execTxFetch (q k : Nat) (s : State) : Out :=
  onHq q (fun s =>
    let x := htx s q
    if txqState s q = 1 ∧ x.fetch = none ∧ 1 ≤ k ∧ k ≤ (x.tail + 2 ^ 32 - txqHead s q) % 2 ^ 32 ∧ !txqHeld s q ∧
        linkOutstanding s (hostLinkOfFn s (txqFn s q)) < 1024 then
      ringReads (txqFn s q) (rd s (Reg.HST_TXQ_BASE q)).toNat (txqSize s q) (txqHead s q) k
        (setHtx q { x with fetch := some { tag := x.nextTag, k := k, ts := domNow s, descs := none },
                           nextTag := x.nextTag + 1 } s)
    else s) s

/-- TX_FETCH_COMPLETE (R350, R353) of fetch `tag`: first its descriptors, then its data. -/
def execTxFetchComplete (q tag : Nat) (ds : List (Nat × Nat × Nat × Nat)) (data : List Byte) (s : State) : Out :=
  onHq q (txComplete q tag (ds.map (fun d => { addr := d.1, len := d.2.1, flags := d.2.2.1, rsv := d.2.2.2 })) data) s

/-- HOST_COMPLETION_TIMEOUT (R353) of fetch `tag`. -/
def execHostCompletionTimeout (q tag : Nat) (s : State) : Out := onHq q (txTimeout q tag) s

/-- HOST_RX_WRITE (R351): the oldest departure of a queue into its next posted buffer. -/
def execHostRxWrite (fn idx addr blen ecc : Nat) (s : State) : Out :=
  if 256 ≤ idx ∨ blen < 256 ∨ 65536 < blen ∨ 4 ≤ ecc then .refused .illFormed else onFn fn (rxWrite fn idx addr blen ecc) s

/-- RX_NOBUF_EXPIRY (R352): a buffer posted in time wins. -/
def execRxNobufExpiry (fn idx : Nat) (s : State) : Out :=
  onFn fn (fun s =>
    match rxqOf s fn idx, egressQ s (hostDest fn idx) with
    | some q, d :: _ => if (hrx s q).head = (hrx s q).tail then rxNoBuf fn idx q d s else s
    | _, _ => s) s

/-- CXL_MEM_REQUEST (R355–R357, R360): `mask` names the bytes a write writes. -/
def execCxlMemRequest (ld hpa : Nat) (write : Bool) (mask : Nat) (data : List Byte) (ecc : Nat) (s : State) : Out :=
  if 16 ≤ ld ∨ 2 ^ 64 ≤ mask ∨ 3 ≤ ecc then .refused .illFormed else .next (cxlRequest ld hpa write mask data ecc s)

def execHstCtlClr (s : State) : Out := .next (hstClr s)

/-- CXL_MAILBOX_COMMAND (R342, R362): a host rings the mailbox of a CXL link's memory device with a command. -/
def execCxlMailboxCommand (l op : Nat) (s : State) : Out :=
  if 0x10000 ≤ op then .refused .illFormed
  else onHlink l (fun s =>
    if flag s (Reg.HST_LINK l) F.HST_LINK_up && flag s (Reg.HST_LINK l) F.HST_LINK_cxl then cxlCommand l op s else s) s

end Sys2Proof.Machine
end

