-- ==== Sys2Proof/Machine/NewtLyre.lean ====
section
/-! DEFINITION. The LYR instruction, Lyre's completions, flushes and counters (R138–R142, R151–R157, R161, R165). -/

namespace Sys2Proof.Machine

/-- LYR_EN enables a privilege (R140). -/
def lyrEnabled (en : Word) (priv : Nat) : Bool := en.toNat.testBit priv

/-- An ABANDON (R153). -/
def lyrAbandon (s : State) (t : Nat) : State := bump s (Reg.CLU_LYABANDON (thCluster t)) F.CLU_LYABANDON_count

/-- A refusal, recorded and counted (R156): the LYR traps UNDEF and its start is abandoned. -/
def lyrRefuse (s : State) (t : Nat) (w : Word) (d : List Byte) (reason : Nat) : State :=
  let s1 := wr s (Reg.CLU_LYREFUSE (thCluster t) (thNum t)) (toW (dAlg d * 2 ^ 16 + dOp d * 2 ^ 8 + reason))
  trapUndef (lyrAbandon (bump s1 (Reg.CLU_LYREFCNT (thCluster t)) F.CLU_LYREFCNT_count) t) t w

/-- A BUSY answer (R157): the LYR and every younger instruction of the thread are squashed and the thread backs off. The
run counts the answers to this LYR, the one at its pc under its TSTAT.th. -/
def lyrBusy (s : State) (t : Nat) : State :=
  let a := Reg.CLU_LYBUSY (thCluster t)
  let x := th s t
  let h := getF x.csr.tstat TS.th == 1
  let n := (if x.lyrPc = x.pc ∧ x.lyrTh = h then x.lyrRun else 0) + 1
  let s1 := markHigh (bump s a F.CLU_LYBUSY_count) a F.CLU_LYBUSY_maxrun (min n 255)
  updTh (squashed s1 t 6 0) t (fun x => { x with lyrRun := n, lyrPc := x.pc, lyrTh := h, wait := .lyrBusy })

/-- Whether Lyre answers BUSY (R151): it does when no context slot can be freed. Its input queue may be full with 32 or
more operations in flight, and its staging entries may all be held by LYRs of other running threads that have started and
not committed: then the answer is open. -/
def lyrIsBusy (s : State) (t : Nat) : Bool × State :=
  let c := thCluster t
  if (slotOfThread s t).isNone && (freeSlots s c).isEmpty && (victimSlot s c).isNone then (true, s)
  else if (clu s c).lyrOps.length < 32 ∧ (clusterThreads c).all (fun u => u == t || !running (th s u)) then (false, s)
  else choose s true [false]

/-- The operand bytes at the start (R139): aux, aad, src. -/
def lyrSnapshot (s : State) (t : Nat) (d : List Byte) : List (List Byte) × State :=
  match namedOf (dOp d) with
  | none => ([], s)
  | some n =>
    let get := fun (b : Bool) (a k : Nat) (s : State) => if b then lyrFetch s t a k else ([], s)
    let (x, s1) := get (n.aux && dOp d != 0x0C) (dAux d) (dAuxLen d) s
    let (y, s2) := get n.aad (dAad d) (dAadLen d) s1
    let (z, s3) := get n.src (dSrc d) (dSrcBytes d) s2
    ([x, y, z], s3)

/-- Acceptance and commit of an LYR (R151, R152). A range outside R147, or one the map denies, makes the operation
complete with ERROR; a denial is counted now (R513). -/
def lyrAccept (s : State) (t : Nat) (w : Word) (priv save : Nat) (d : List Byte) : State :=
  let rs := lyrRanges d (dDstLen d)
  let outside := rs.any (fun r => !rangeOk s t priv r)
  let den := if outside then none else rs.findSome? (fun r => (rangeDenied s priv r).map (fun a => (a, r.2.2)))
  let s1 := match den with
    | some (a, wr) => denied (agentId s t) priv a wr s
    | none => s
  let bad := outside || den.isSome
  let (sn, s2) := if bad then ([], s1) else lyrSnapshot s1 t d
  let s3 := takeSlot s2 t save
  let id := s3.nextOp
  let s4 := commitOp s3 t (iTok w) (iD w) .lyr .lyr
  let o : LyrOp := { id := id, thread := t, desc := d, priv := priv, snap := sn, bad := bad, dst := dDst d,
                     dstLen := dDstLen d, own := none, atoms := [] }
  let s5 := updClu s4 (thCluster t) (fun c => { c with lyrOps := c.lyrOps ++ [o] })
  finishSeq (updTh s5 t (fun x => { x with lyrRun := 0 })) t

/-- The first of 64 descriptor bytes a near store of the thread touched within 4 instructions (R139). -/
def lyrClose (s : State) (t ea : Nat) : Option Haz :=
  (List.range 64).findSome? (fun i =>
    (th s t).hist.find? (fun h => decide (h.kind = .near) && h.key == thCluster t * 0x100000 + ea + i && decide (h.age < 5)))

/-- LYR (R138) under the value LYR_EN has for it. -/
def lyrIssue (t : Nat) (w en : Word) (s : State) : State :=
  let priv := privOf (th s t)
  let badTok := decide (8 < iTok w) || (iTok w == 8 && iD w != 0)
  issue s t w (iB w != 0 || badTok) (!lyrEnabled en priv) { g := [iA w], c := [0x402, 0x400], wg := [iD w] } (fun s =>
    let (a, s1) := readG s t (iA w)
    let ea := (a + iSimm17 w).toNat
    match (if dchkOn s1 t && decide (ea ≤ 0xFFFC0) then lyrClose s1 t ea else none) with
    | some h => trapDist s1 t (distVal 6 0 (5 - h.age) h.pc)
    | none =>
      if 0xFFFC0 < ea then trapAddr (lyrAbandon s1 t) t ea
      else if ea % 64 ≠ 0 then trapAlign (lyrAbandon s1 t) t ea
      else
        let (d, s2) := lyrNear s1 t ea 64
        let save := bitsN en.toNat 47 10 * 1024
        match refusals s2 t priv save d with
        | r :: rs =>
          let (k, s3) := choose s2 r rs
          lyrRefuse s3 t w d k
        | [] =>
          if tokBusy s2 t (iTok w) then trapTokBusy (lyrAbandon s2 t) t (iTok w)
          else
            let (b, s3) := lyrIsBusy s2 t
            if b then lyrBusy s3 t else lyrAccept s3 t w priv save d)

def execLyr (t : Nat) (w : Word) (s : State) : Out :=
  newt [0xC0] t w (fun s =>
    if !ready s t then s
    else
      let (en, s1) := readCsr s t 0x402
      lyrIssue t w en s1) s

/-- LYR_BUSY_RETRY (R157): the backoff is over and the thread may fetch its LYR again. -/
def execLyrBusyRetry (t : Nat) (s : State) : Out :=
  if 3072 ≤ t then .refused .illFormed
  else if (th s t).wait = .lyrBusy then .next (updTh s t (fun x => { x with wait := .none }))
  else .next s

/-- LYRE_OPERATION_COMPLETE (R141, R142): operation `id`, the oldest of its thread, completes. -/
def execLyreOperationComplete (id ecc : Nat) (s : State) : Out :=
  if 4 ≤ ecc then .refused .illFormed
  else
  match opOf s id with
  | none => .next s
  | some o =>
    let c := thCluster o.thread
    match (clu s c).lyrOps.find? (fun l => l.thread == o.thread) with
    | none => .next s
    | some l =>
      if l.id ≠ id then .next s
      else
        let (st, v, s1) := lyrFinish l o.late ecc s
        let s2 := updClu s1 c (fun x => { x with lyrOps := x.lyrOps.filter (fun y => y.id != id) })
        .next (complete o st v s2)

/-- A write of CLU_LYFLUSH (R161); ignored while a flush is in progress. -/
def lyrFlush (c : Nat) (v : Word) (s : State) : State :=
  if (clu s c).lyrFlush.isSome then s
  else
    let n := if v.toNat.testBit 8 then 128 else bitsN v.toNat 6 0
    setFld (updClu s c (fun x => { x with lyrFlush := some n })) (Reg.CLU_LYFLUSH c) F.CLU_LYFLUSH_busy 1

/-- LYRE_FLUSH (R161). -/
def execLyreFlush (c : Nat) (v : Word) (s : State) : Out :=
  if 24 ≤ c then .refused .illFormed else .next (lyrFlush c v s)

/-- Slots a flush names. -/
def flushNames (n : Nat) (x : LyrSlot) : Bool := n == 128 || x.owner == n

/-- LYRE_FLUSH_COMPLETE (R161): once no accepted LYR of those threads is outstanding, the slots are written back and
freed and busy clears. -/
def execLyreFlushComplete (c : Nat) (s : State) : Out :=
  if 24 ≤ c then .refused .illFormed
  else
  match (clu s c).lyrFlush with
  | none => .next s
  | some n =>
    if (clu s c).lyrOps.any (fun o => n == 128 || thNum o.thread == n) then .next s
    else
      let gone := (cluSlots s c).filter (flushNames n)
      let s1 := forEach gone (fun x s => saveSlot c x s) s
      let s2 := setSlots s1 c ((cluSlots s1 c).filter (fun x => !flushNames n x))
      .next (setFld (updClu s2 c (fun x => { x with lyrFlush := none })) (Reg.CLU_LYFLUSH c) F.CLU_LYFLUSH_busy 0)

/-- CLU_LYCTL.clr (R165). -/
def lyrClr (c : Nat) (s : State) : State :=
  let s := forEach (List.range 16) (fun k s => updCore s (c * 16 + k) (fun x => { x with starts := 0 })) s
  [Reg.CLU_LYBUSY c, Reg.CLU_LYABANDON c, Reg.CLU_LYSWITCH c, Reg.CLU_LYPOISON c, Reg.CLU_LYREFCNT c].foldl
    (fun s a => wr s a 0) s

def execCluLyctlClr (c : Nat) (s : State) : Out :=
  if 24 ≤ c then .refused .illFormed else .next (lyrClr c s)

end Sys2Proof.Machine
end

