-- ==== Sys2Proof/Machine/PwrOps.lean ====
section
/-! DEFINITION. Supply and temperature, device power states, and Chameleon (R475–R499). -/

namespace Sys2Proof.Machine

/-! ## Holdup (R477) -/

/-- The holdup flag is set while warn is 1 or HOLDUP_OK is low; its rise is raised. -/
def holdupCheck (s : State) : State :=
  if (flag s Reg.PWR_VIN F.PWR_VIN_warn || !flag s Reg.PWR_VIN F.PWR_VIN_hok) && !holdup s then
    raise (setFld s Reg.PWR_VIN F.PWR_VIN_holdup 1) 1729
  else s

def hokChange (level : Bool) (s : State) : State :=
  let s1 := setFld s Reg.PWR_VIN F.PWR_VIN_hok (b2n level)
  if s.svc.porst then s1 else holdupCheck s1

/-! ## VIN (R476, R478, R564) -/

/-- A supply reset records its cause and acts as PORST_N; the release waits for VIN (R564). -/
def supplyReset (ov : Bool) (s : State) : State :=
  let s1 := setFld s Reg.PWR_RSTCAUSE (if ov then F.PWR_RSTCAUSE_ov else F.PWR_RSTCAUSE_brownout) 1
  let s2 := partReset false s1
  { s2 with pwr := { s2.pwr with vinUp := 0, tripped := s.pwr.tripped } }

/-- The registers a sample writes. -/
def vinRegs (mv amps watts : Nat) (s : State) : State :=
  let s1 := setFld s Reg.PWR_VIN F.PWR_VIN_mv mv
  let low := if s.pwr.fresh.contains 6 then mv else min mv (fld s Reg.PWR_VINSTAT F.PWR_VINSTAT_min_mv)
  let s2 := setFld (setFld s1 Reg.PWR_VINSTAT F.PWR_VINSTAT_min_mv low) Reg.PWR_VINSTAT F.PWR_VINSTAT_amps amps
  setFld { s2 with pwr := { s2.pwr with fresh := s2.pwr.fresh.filter (· != 6) } } Reg.PWR_VINSTAT F.PWR_VINSTAT_watts watts

/-- The warning of R476: set below 11.0 V, cleared after 10 ms at 11.2 V or above. -/
def vinWarn (mv : Nat) (s : State) : State :=
  let n := if 11200 ≤ mv then s.pwr.good + 1 else 0
  let s1 := { s with pwr := { s.pwr with good := n } }
  if mv < 11000 then raise (holdupCheck (setFld s1 Reg.PWR_VIN F.PWR_VIN_warn 1)) 1728
  else if 10000 ≤ n then setFld s1 Reg.PWR_VIN F.PWR_VIN_warn 0
  else s1

/-- A sample of VIN; while the part is in reset it counts only toward the release. -/
def vinSample (mv amps watts : Nat) (s : State) : State :=
  let bad := decide (mv < 10200) || decide (13800 < mv)
  let up := if 10200 ≤ mv then min 2 (s.pwr.vinUp + 1) else 0
  let s1 := { s with pwr := { s.pwr with vinUp := up, out := bad } }
  if s.svc.porst then s1
  else if bad && s.pwr.out then supplyReset (decide (13800 < mv)) s1
  else holdupCheck (vinWarn mv (vinRegs mv amps watts s1))

/-! ## Temperature (R479, R480) -/

/-- A two's complement byte. -/
def sbyte (n : Nat) : Int := sextN 8 n

/-- Whether a temperature byte exceeds another. -/
def hotter (a b : Nat) : Bool := decide (sbyte b < sbyte a)

/-- The hottest of some temperatures. -/
def hottest (l : List Nat) : Nat := l.foldl (fun m t => if hotter t m then t else m) (l.headD 0)

/-- Readings of the six dies. -/
def tempSample (l : List Nat) (s : State) : State :=
  let s1 := forEach (List.range 6) (fun d s =>
    let t := l.getD d 0
    let a := Reg.PWR_TEMP d
    let s1 := setFld s a F.PWR_TEMP_temp t
    let s2 := if s.pwr.fresh.contains d || hotter t (fld s a F.PWR_TEMP_max) then setFld s1 a F.PWR_TEMP_max t else s1
    { s2 with pwr := { s2.pwr with fresh := s2.pwr.fresh.filter (· != d) } }) s
  let hot := hottest l
  let s2 := setFld s1 Reg.PWR_THERM F.PWR_THERM_hot hot
  let warn := (fld s2 Reg.PWR_THERM F.PWR_THERM_warn : Int)
  if s2.pwr.armed && decide (warn ≤ sbyte hot) then raise { s2 with pwr := { s2.pwr with armed := false } } 1731
  else if sbyte hot ≤ warn - 2 then { s2 with pwr := { s2.pwr with armed := true } }
  else s2

/-- The hottest die has stood at the trip limit or above for 1 ms: every reset domain but AON enters reset and the rails
but VAON and VIO go off, so that nothing runs until PORST_N. -/
def thermalTrip (s : State) : State :=
  if s.svc.porst || decide (sbyte (fld s Reg.PWR_THERM F.PWR_THERM_hot) < (fld s Reg.PWR_THERM F.PWR_THERM_trip : Int)) then s
  else
    let s1 := { blank s with csr := s.csr.filter (fun e => aonReg e.1), pwr := { s.pwr with tripped := true },
                             svc := { s.svc with mode := .off, sess := none } }
    let s2 := wr (setFld s1 Reg.CRS_BOOT F.CRS_BOOT_dev_rel 0) Reg.CRS_CLUSTAT 0xFFFFFF
    setFld (setFld s2 Reg.SVC_PORT F.SVC_PORT_up 0) Reg.PWR_RSTCAUSE F.PWR_RSTCAUSE_thermal 1

/-! ## Device power states (R481–R485) -/

def pwrCur (s : State) : Nat := fld s Reg.PWR_STATE F.PWR_STATE_cur
def setReq (v : Nat) (s : State) : State := setFld s Reg.PWR_STATE F.PWR_STATE_req v

/-- Each change of cur is raised. -/
def setCur (v : Nat) (s : State) : State := if pwrCur s = v then s else raise (setFld s Reg.PWR_STATE F.PWR_STATE_cur v) 1730

/-- A request of STANDBY or of another state, by the state in effect. -/
def pwrRequest (v : Nat) (s : State) : State :=
  let cur := pwrCur s
  if cur ≤ 2 then
    if v = 3 then bpUpdate (setCur 4 { s with pwr := { s.pwr with before := cur, again := false } })
    else forEach (List.range 24) parkAtOnce (setCur v s)
  else if cur = 5 then
    if v = 3 then { s with pwr := { s.pwr with again := true } } else { s with pwr := { s.pwr with target := v, again := false } }
  else if v = 3 then s
  else setCur 5 { s with pwr := { s.pwr with target := v, again := false } }

/-- A write of PWR_STATE. -/
def pwrStateWrite (v : Word) (s : State) : State :=
  let s1 := if getF v F.PWR_STATE_sby_abort = 1 then setFld s Reg.PWR_STATE F.PWR_STATE_sby_abort 0 else s
  pwrRequest (getF v F.PWR_STATE_req) (setReq (getF v F.PWR_STATE_req) s1)

/-- A ready queue that cannot be dispatched (R484). -/
def queueStuck (s : State) (q : Nat) : Bool := grpWeight s (queueGroup s q) == 0 || orphaned s (queueGroup s q)

/-- A cluster that is PARKED, or may park now. -/
def parkable (s : State) (c : Nat) : Bool :=
  let p := (clu s c).power
  !wakePending s c && (decide (p = .parked) || (decide (p ≠ .wakingG) && decide (p ≠ .wakingP) && quietIdle s c))

/-- Step 2 of R483 is done. -/
def standbyReady (s : State) : Bool :=
  s.spawn.queues.all (fun e => e.2.isEmpty || queueStuck s e.1) && (List.range 24).all (parkable s)

/-- A DDR5 channel holds the segment of a valid pool map entry. -/
def channelMapped (s : State) (ch : Nat) : Bool :=
  (List.range 4096).any (fun i => flag s (Reg.HST_POOLMAP i) F.HST_POOLMAP_valid && fld s (Reg.HST_POOLMAP i) F.HST_POOLMAP_seg / 512 == ch)

/-- A controller enters self-refresh, its owed refreshes issued (R325), and leaves it. -/
def selfRefOn (m : Nat) (s : State) : State := setMcCtl m { mcCtl s m with selfRef := true, pd := [] } (issueOwed m s)
def selfRefOff (m : Nat) (s : State) : State :=
  if (mcCtl s m).selfRef then issueOwed m (setMcCtl m { mcCtl s m with selfRef := false } s) else s

/-- Queues are empty and clusters idle: clusters park, memories sleep, PLLs 1–8 stop (R483). -/
def standbyDrained (s : State) : State :=
  if pwrCur s ≠ 4 ∨ !standbyReady s then s
  else
    let s1 := forEach ((List.range 24).filter (fun c => decide ((clu s c).power ≠ .parked))) parkDone s
    let ms := (List.range 12).filter (fun m => mcUsed s1 m && (decide (m < 4) || !channelMapped s1 (m - 4)))
    let s2 := forEach ms selfRefOn s1
    setCur 3 { s2 with clk := { s2.clk with locked := s2.clk.locked.filter (fun p => p == 0 || decide (8 < p)) } }

/-- The entry limit expires: the state before the request is in effect again (R484), unless the entry is done in time. -/
def standbyAbort (s : State) : State :=
  if pwrCur s ≠ 4 then s
  else if standbyReady s then standbyDrained s
  else bpUpdate (setFld (setCur s.pwr.before (setReq s.pwr.before s)) Reg.PWR_STATE F.PWR_STATE_sby_abort 1)

/-- EXITING ends (R485); a STANDBY request held meanwhile is then taken. -/
def standbyExit (s : State) : State :=
  if pwrCur s ≠ 5 then s
  else
    let s1 := forEach (List.range 12) selfRefOff s
    let on := (List.range 9).filter (fun p => decide (1 ≤ p) && pllOn s1 p && !s1.clk.locked.contains p)
    let s2 := { s1 with clk := { s1.clk with locked := s1.clk.locked ++ on } }
    let s3 := bpUpdate (forEach (List.range 24) parkAtOnce (setCur s2.pwr.target s2))
    if s3.pwr.again then pwrRequest 3 s3 else s3

/-! ## Chameleon records (R491, R516) -/

/-- Waits for holdup to clear where a record cannot be appended now. -/
def nlsRecord (t : Nat) (body : List Byte) (s : State) : State :=
  if holdup s then { s with svc := { s.svc with due := s.svc.due ++ [(t, body)] } } else nlsAppend (t, body) false s

/-- The largest degradation, and its ring-oscillator pair. -/
def worstPair (s : State) : Nat :=
  (List.range 96).foldl (fun b k => if fld s (Reg.PWR_RO b) F.PWR_RO_d < fld s (Reg.PWR_RO k) F.PWR_RO_d then k else b) 0
def dMax (s : State) : Nat := fld s (Reg.PWR_RO (worstPair s)) F.PWR_RO_d

def planV (s : State) (q : Nat) : Nat := fld s (Reg.PWR_PLAN q) F.PWR_PLAN_vmin
def planB (s : State) (q : Nat) : Nat := fld s (Reg.PWR_PLAN q) F.PWR_PLAN_bin

/-- Body of a CHAMELEON record. -/
def chmBody (s : State) : List Byte :=
  leBytes 6 (dieId s) ++ leBytes 4 (fld s Reg.PWR_LIFE F.PWR_LIFE_eqh) ++ leBytes 4 (dMax s) ++
    (List.range 4).flatMap (fun q => leBytes 1 (planV s q)) ++ (List.range 4).flatMap (fun q => leBytes 1 (planB s q)) ++
    leBytes 8 (domNow s) ++ leBytes 4 (fld s Reg.PWR_LIFE F.PWR_LIFE_proj) ++ leBytes 2 0

def chmRecord (s : State) : State := nlsRecord 3 (chmBody s) s

/-! ## The planner (R490–R492) -/

def planQ (s : State) (q : Nat) : PlanQ := Tab.get PlanQ.reset s.pwr.plan q
def setPlanQ (q : Nat) (p : PlanQ) (s : State) : State :=
  { s with pwr := { s.pwr with plan := Tab.set PlanQ.reset s.pwr.plan q p } }

/-- A change waits to be staged. -/
def PlanQ.waits (p : PlanQ) : Bool := !p.staged && (p.dv != 0 || p.db != 0)

/-- Replicas of a quadrant sampled at the latest sample, as slacks in ps. -/
def quadSlacks (s : State) (q : Nat) : List Int :=
  ((List.range 12).map (fun i => 12 * q + i)).filterMap (fun k =>
    if flag s (Reg.PWR_REP k) F.PWR_REP_valid then some (sextN 16 (fld s (Reg.PWR_REP k) F.PWR_REP_slack)) else none)

/-- The decision of R490 on a least slack: steps of voltage and bin asked for, and the run above m_high. -/
def planDecide (s : State) (q : Nat) (p : PlanQ) (m : Int) : Int × Nat × Nat :=
  let v := (planV s q : Int) + p.dv
  if m < (fld s Reg.PWR_CHM_CFG F.PWR_CHM_CFG_m_low : Int) ∨ m ≤ 0 then
    (if v < 60 then 1 else 0, if m ≤ 0 ∨ 60 ≤ v then 1 else 0, 0)
  else if (fld s Reg.PWR_CHM_CFG F.PWR_CHM_CFG_m_high : Int) < m then
    if 15 ≤ p.high ∧ !p.staged ∧ !p.waits ∧ (fld s (Reg.PWR_FUSE q) F.PWR_FUSE_vfloor : Int) < v then (-1, 0, 0)
    else (0, 0, p.high + 1)
  else (0, 0, 0)

/-- A quadrant's decision at a sample: none while a staged change is pending; a waiting one takes a further rise. -/
def planQuad (q : Nat) (s : State) : State :=
  match quadSlacks s q with
  | [] => s
  | m0 :: r =>
    let p := planQ s q
    let (dv, db, high) := planDecide s q p (r.foldl min m0)
    if p.staged then setPlanQ q { p with high := high } s
    else setPlanQ q { p with dv := p.dv + dv, db := p.db + db, high := high } s

/-- Code of PWR_CHM_STAT.last. -/
def lastCode (p : PlanQ) : Nat := if p.dv ≠ 0 ∧ p.db ≠ 0 then 4 else if p.db ≠ 0 then 3 else if p.dv < 0 then 2 else 1

/-- One planner write of PWR_PLAN. -/
def planWrite (q : Nat) (s : State) : State :=
  let p := planQ s q
  let v := ((planV s q : Int) + p.dv).toNat
  let w := toW (min 63 v * 256 + min 7 (planB s q + p.db))
  let s1 := swWrite (Reg.PWR_PLAN q) w s
  let s2 := setFld (setFld s1 Reg.PWR_CHM_STAT F.PWR_CHM_STAT_last_q q) Reg.PWR_CHM_STAT F.PWR_CHM_STAT_last (lastCode p)
  raise (setPlanQ q (if epcRun s then { p with staged := true, waited := 0 } else { PlanQ.reset with high := p.high }) s2) 1732

/-- Stages every waiting change, when no set of another is staged (R491). -/
def planStage (s : State) : State :=
  let qs := (List.range 4).filter (fun q => (planQ s q).waits)
  if qs.isEmpty || epcPending s || epcLanded s != 0 || !s.epc.held.isEmpty || !flag s Reg.PWR_CHM_CFG F.PWR_CHM_CFG_en then s
  else
    let s1 := forEach qs planWrite s
    if epcRun s then setFld (commitWrite (toW (2 ^ 17 + qs.length)) s1) Reg.PWR_CHM_STAT F.PWR_CHM_STAT_inset qs.length
    else s1

/-- A boundary: a planner change that the swap applied is raised and recorded; one that waits counts, and at 16 is
raised once (R491, R492). -/
def planBoundary (applied : Bool) (s : State) : State :=
  let mine := applied && s.pwr.plan.any (fun e => e.2.staged)
  let s1 := if mine then
      let s1 := { s with pwr := { s.pwr with plan := (s.pwr.plan.map (fun e =>
        (e.1, if e.2.staged then { PlanQ.reset with high := e.2.high } else e.2))).filter (fun e => decide (e.2 ≠ PlanQ.reset)) } }
      chmRecord (raise (setFld s1 Reg.PWR_CHM_STAT F.PWR_CHM_STAT_inset 0) 1733)
    else s
  forEach ((List.range 4).filter (fun q => (planQ s1 q).waits)) (fun q s =>
    let p := planQ s q
    let s1 := setPlanQ q { p with waited := p.waited + 1 } s
    if p.waited = 15 then raise s1 1737 else s1) s1

/-! ## Life (R495–R497) -/

/-- 2^(k/10) and 3^(k/20) in units of 2^-48. -/
def pow2Tab : List Nat :=
  [281474976710656, 301677410406502, 323329842720359, 346536345073714, 371408458454326, 398065729532860,
  426636285258469, 457257448695091, 490076399058450, 525250879126193]
def pow3Tab : List Nat :=
  [281474976710656, 297369111069550, 314160744417416, 331900556106587, 350642087216021, 370441902145302,
  391359759333418, 413458791617571, 436805696776360, 461470938832427, 487528960722122, 515058408974054,
  544142371074626, 574868626236974, 607329910330146, 641624195768122, 677854987203409, 716131633917667,
  756569659852181, 799291112274273]

/-- Δt of `ms` milliseconds at `t` °C and voltage code `v`, in units of 2^-32 equivalent ms. -/
def eqhAdd (ms : Nat) (t : Int) (v : Nat) : Nat :=
  let a := t - 95
  let b := (v : Int) - 40
  let n := ms * pow2Tab.getD (a % 10).toNat 0 * pow3Tab.getD (b % 20).toNat 0 * 3 ^ (b / 20 + 3).toNat
  let e := a / 10
  let m := if 0 ≤ e then n * 2 ^ e.toNat else n / 2 ^ e.natAbs
  m / 27 / 2 ^ 64

/-- Rated life of the grade in hours (R494). -/
def ratedLife : Nat := if Config.longLife then 130000 else 100000

/-- Life-counter steps are blown as eqh passes multiples of 1,000 h. -/
def lifeSteps (was hours : Nat) (s : State) : State :=
  setFld s Reg.PWR_LIFEOTP F.PWR_LIFEOTP_steps (min 255 (fld s Reg.PWR_LIFEOTP F.PWR_LIFEOTP_steps + (hours / 1000 - was / 1000)))

/-- Equivalent hours accumulated so far. -/
def eqHours (s : State) : Nat := s.pwr.eqh / (2 ^ 32 * 3600000)

/-- Projected remaining hours (R497). -/
def projected (s : State) : Nat :=
  let left := ratedLife - eqHours s
  let h := s.pwr.seen / 3600000
  let d := dMax s
  match s.pwr.dHist with
  | (h0, d0) :: _ =>
    if h < 500 ∨ h ≤ h0 ∨ d ≤ d0 then left
    else min left ((fld s (Reg.PWR_FUSE (worstPair s / 24)) F.PWR_FUSE_d_eol - d) * (h - h0) / (d - d0))
  | [] => left

/-- The life report after a sample. -/
def lifeReport (s : State) : State :=
  let ms := max 1 (fld s Reg.PWR_CHM_CFG F.PWR_CHM_CFG_sample_ms)
  let t := sbyte (hottest ((List.range 4).map (fun d => fld s (Reg.PWR_TEMP d) F.PWR_TEMP_temp)))
  let v := (List.range 4).foldl (fun n q => max n (planV s q)) 0
  let was := eqHours s
  let seen := s.pwr.seen + ms
  let h := seen / 3600000
  let hist := if s.pwr.dHist.isEmpty || decide (s.pwr.seen / 3600000 < h) then s.pwr.dHist ++ [(h, dMax s)] else s.pwr.dHist
  let s1 := { s with pwr := { s.pwr with eqh := s.pwr.eqh + eqhAdd ms t v, seen := seen,
                                         dHist := hist.filter (fun e => decide (h ≤ e.1 + 8760)) } }
  let s2 := lifeSteps was (eqHours s1) s1
  let s3 := setFld s2 Reg.PWR_LIFE F.PWR_LIFE_eqh (min (2 ^ 24 - 1) (eqHours s2))
  let p := min (2 ^ 24 - 1) (projected s3)
  let low := decide (p < fld s3 Reg.PWR_LIFE_CFG F.PWR_LIFE_CFG_warn_h)
  let s4 := setFld { s3 with pwr := { s3.pwr with below := low } } Reg.PWR_LIFE F.PWR_LIFE_proj p
  if low && !s3.pwr.below then raise s4 1736 else s4

/-- A sample of one replica (R488): a cluster not in RUN is not sampled; a slack of 0 or less is an error. -/
def repSample (l : List Nat) (k : Nat) (s : State) : State :=
  let a := Reg.PWR_REP k
  if (clu s (k / 2)).power ≠ .run then setFld s a F.PWR_REP_valid 0
  else
    let v := l.getD k 0 % 65536
    let s1 := setFld (setFld s a F.PWR_REP_valid 1) a F.PWR_REP_slack v
    if sextN 16 v ≤ 0 then raise (bump s1 Reg.PWR_CHM_STAT F.PWR_CHM_STAT_errors) 1734 else s1

/-- A sample of every sensor (R488, R490, R495, R497): pairs as frequency in MHz and degradation in ppm, and slacks. -/
def chmSample (ros : List (Nat × Nat)) (reps : List Nat) (s : State) : State :=
  if !flag s Reg.PWR_CHM_CFG F.PWR_CHM_CFG_en then s
  else
    let s1 := forEach (List.range 96) (fun k s =>
      let e := ros.getD k (0, 0)
      setFld (setFld s (Reg.PWR_RO k) F.PWR_RO_fu e.1) (Reg.PWR_RO k) F.PWR_RO_d e.2) s
    let s2 := bumpWrap (forEach (List.range 48) (repSample reps) s1) Reg.PWR_CHM_STAT F.PWR_CHM_STAT_samples
    planStage (forEach (List.range 4) planQuad (lifeReport s2))

/-- eqh is restored at boot (R496). -/
def lifeRestore (s : State) : State :=
  let h := match nlsChm s with
    | some b => leAt b 6 4
    | none => fld s Reg.PWR_LIFEOTP F.PWR_LIFEOTP_steps * 1000
  setFld { s with pwr := { s.pwr with eqh := h * 2 ^ 32 * 3600000 } } Reg.PWR_LIFE F.PWR_LIFE_eqh (min (2 ^ 24 - 1) h)

/-- PWR_CTL.clr (R499): the statistics restart with the next sample. -/
def pwrClr (s : State) : State :=
  let s1 := setFld (setFld s Reg.PWR_CHM_STAT F.PWR_CHM_STAT_errors 0) Reg.PWR_VINSTAT F.PWR_VINSTAT_min_mv 0
  let s2 := forEach (List.range 6) (fun d s => setFld s (Reg.PWR_TEMP d) F.PWR_TEMP_max 0) s1
  { s2 with pwr := { s2.pwr with fresh := List.range 7 } }

end Sys2Proof.Machine
end

