-- ==== Sys2Proof/Machine/SvcOps.lean ====
section
/-! DEFINITION. Slots, the ROM's boot, commit and the version floor, reset, the commands of SVC_CMD, presence, owner lock and
the seal loop (R500–R530). -/

namespace Sys2Proof.Machine

/-! ## Slots (R501–R505) -/

def slotMax : Nat := 0x77FF000

def mkWritten : Nat := 0x5A5A0001
def mkAttempt : Nat := 0x5A5A0002
def mkCommitted : Nat := 0x5A5A0003
def mkRejected : Nat := 0x5A5A0004

/-- Words of a slot's status sector. -/
def sectorWords (s : State) (f : Nat) : List Nat :=
  let l := flBytes s f slotMax 4096
  (List.range 1024).map (fun i => leAt l (4 * i) 4)

/-- State of a slot (R504): 0 EMPTY, 1 TRIAL, 2 COMMITTED, 3 REJECTED; and its attempts. -/
def slotState (s : State) (f : Nat) : Nat × Nat :=
  let ws := (sectorWords s f).filter (· != 0xFFFFFFFF)
  if ws.any (fun w => w == mkRejected || !(w == mkWritten || w == mkAttempt || w == mkCommitted)) then (3, 0)
  else if ws.contains mkCommitted then (2, 0)
  else if ws.contains mkWritten then (1, ws.countP (· == mkAttempt))
  else (0, 0)

/-- Programs a marker at the lowest erased word. -/
def progMarker (f m : Nat) (s : State) : State :=
  let i := (sectorWords s f).takeWhile (· != 0xFFFFFFFF)
  if i.length < 1024 then flProg f (slotMax + 4 * i.length) (leBytes 4 m) s else s

/-- Fields of an image header. -/
def hdrFloor (h : List Byte) : Nat := leAt h 7 1
def hdrVersion (h : List Byte) : Nat := leAt h 8 4
def hdrLen (h : List Byte) : Nat := leAt h 12 4
/-- Offset and length of boot code, run-time firmware and structure image. -/
def hdrParts (h : List Byte) : List (Nat × Nat) := [0x14, 0x1C, 0x24].map (fun o => (leAt h o 4, leAt h (o + 4) 4))

/-- Two ranges do not overlap. -/
def apart (a b : Nat × Nat) : Bool := decide (a.1 + a.2 ≤ b.1) || decide (b.1 + b.2 ≤ a.1)

/-- The header's checks of R503, with the limits R502 sets, but for the key: status BAD_IMAGE or BAD_LEVEL, 0 when they pass. -/
def hdrStatus (s : State) (h : List Byte) : Nat :=
  let n := hdrLen h
  let ps := hdrParts h
  let inside := ps.all (fun p => decide (256 ≤ p.1) && decide (p.1 + p.2 + 256 ≤ n) && p.1 % 64 == 0)
  let disjoint := match ps with
    | [a, b, c] => apart a b && apart a c && apart b c && decide (a.2 ≤ 262144) && decide (b.2 ≤ 16777216)
    | _ => false
  if !(h.length == 256 && leAt h 0 4 == 0x46575843 && leAt h 4 2 == 1 && leAt h 0xFC 4 == crcPlain (h.take 0xFC) &&
      zeroAt h 0x4C 176 && decide (leAt h 0x10 2 ≤ leAt h 0x12 2) && n % 64 == 0 && decide (n ≤ slotMax) && inside && disjoint) then 3
  else if leAt h 6 1 < fld s Reg.IDN_COMPAT F.IDN_COMPAT_level_min ∨ fld s Reg.IDN_COMPAT F.IDN_COMPAT_level_max < leAt h 6 1 then 4
  else 0

def slotHdr (s : State) (f : Nat) : List Byte := flBytes s f 0 256

/-- Bytes of a slot's image, for a header within limits. -/
def slotImage (s : State) (f : Nat) : List Byte := flBytes s f 0 (min slotMax (hdrLen (slotHdr s f)))

/-- Status of a header with its key, and of a whole image (R503). -/
def soundStatus (s : State) (f : Nat) : Nat :=
  let k := hdrStatus s (slotHdr s f)
  if k ≠ 0 then k else if (otpKey s (sigKeyHash (slotImage s f))).isNone then 5 else 0
def validStatus (s : State) (f : Nat) : Nat :=
  let k := soundStatus s f
  if k ≠ 0 then k else if sigOk (slotImage s f) then 0 else 3

def aboveFloor (s : State) (f : Nat) : Bool := decide (fld s Reg.SVC_OTP F.SVC_OTP_floor ≤ hdrFloor (slotHdr s f))

/-- A candidate for boot (R505), before SVC_BOOT.skip and slots dropped. -/
def bootable (s : State) (f : Nat) : Bool :=
  let st := slotState s f
  (st.1 == 2 || (st.1 == 1 && decide (st.2 < 3))) && soundStatus s f == 0 && aboveFloor s f

def candidate (s : State) (f : Nat) : Bool :=
  bootable s f && fld s Reg.SVC_BOOT F.SVC_BOOT_skip != f + 1 && !s.svc.dropped.contains f

/-- The preferred one of the slots that satisfy a test (R505). -/
def preferred (s : State) (ok : Nat → Bool) : Option Nat :=
  match ok 0, ok 1 with
  | false, false => none
  | true, false => some 0
  | false, true => some 1
  | true, true =>
    let a := hdrVersion (slotHdr s 0)
    let b := hdrVersion (slotHdr s 1)
    if a < b then some 1
    else if a = b ∧ (slotState s 0).1 ≠ 2 ∧ (slotState s 1).1 = 2 then some 1
    else some 0

/-- SVC_SLOT follows the flash. -/
def slotStat (s : State) : State :=
  forEach [0, 1] (fun f s =>
    let st := slotState s f
    let h := slotHdr s f
    wr s (Reg.SVC_SLOT f) (toW (st.1 * 2 ^ 45 + min 3 st.2 * 2 ^ 43 + hdrFloor h * 2 ^ 32 + hdrVersion h))) s

/-! ## The ROM (R506, R507) -/

def setMode (m : SvcMode) (s : State) : State := { s with svc := { s.svc with mode := m } }

/-- The signature is verified and boot code starts (steps 5 and 6); `false` when the slot is dropped. `other`: it is not the
preferred slot. -/
def romStart (f : Nat) (other : Bool) (s : State) : Bool × State :=
  if validStatus s f ≠ 0 then (false, { s with svc := { s.svc with dropped := s.svc.dropped ++ [f] } })
  else
    let cause := other || !s.svc.dropped.isEmpty
    let committed := (slotState s f).1 == 2
    let s1 := wr s Reg.SVC_BOOT (toW (b2n committed * 128 + b2n cause * 4 + (f + 1)))
    let k := (otpKey s (sigKeyHash (slotImage s f))).getD 0
    (true, setMode .boot { slotStat s1 with svc := { s1.svc with key := k } })

/-- Selection of a slot (steps 3 to 6), at most three times. -/
def romSelect : Nat → State → State
  | 0, s => setMode .axolotl s
  | n + 1, s =>
    match preferred s (candidate s) with
    | none => setMode .axolotl s
    | some f =>
      if (slotState s f).1 = 1 ∧ holdup s then setMode (.romHold f) s
      else
        let other := preferred s (bootable s) != some f
        let s1 := if (slotState s f).1 = 1 then progMarker f mkAttempt s else s
        match romStart f other s1 with
        | (true, s2) => s2
        | (false, s2) => romSelect n s2

/-- The ROM probes the flashes and selects (step 2 on). -/
def romBoot (s : State) : State := romSelect 3 (slotStat { s with svc := { s.svc with dropped := [] } })

/-- Waiting for holdup has taken 30 s (R507): the other slot if it is a COMMITTED candidate, else the TRIAL slot as it is. -/
def romTimeout (s : State) : State :=
  match s.svc.mode with
  | .romHold f =>
    if !holdup s then s
    else
      let g := 1 - f
      let toOther := candidate s g && (slotState s g).1 == 2
      match romStart (if toOther then g else f) (toOther || preferred s (bootable s) != some f) s with
      | (true, s1) => s1
      | (false, s1) => romSelect 3 s1
  | _ => s

/-- AON leaves reset when PORST_N is released and VIN has stood (R564): the ROM runs, and waits while PRES_N is low. -/
def svcRelease (s : State) : State :=
  if !s.svc.vaon || !s.svc.porst || !s.svc.porstN || decide (s.pwr.vinUp < 2) || s.pwr.tripped then s
  else
    let s1 := holdupCheck { s with svc := { s.svc with porst := false, relAt := s.now } }
    if s1.svc.presLow then setMode .romPres s1 else romBoot s1

/-- A reset of the whole part by SVC_CMD RESET (R509), or by an ACTIVATE. -/
def svcReset (s : State) : State := svcRelease (partReset true s)

/-! ## Commit (R519, R520) -/

/-- The slot that runs. -/
def runTrial (s : State) : Bool := fld s Reg.SVC_BOOT F.SVC_BOOT_slot != 0 && !flag s Reg.SVC_BOOT F.SVC_BOOT_committed

/-- Floor-counter steps are blown up to the image's floor. -/
def floorAdvance (s : State) : State :=
  setFld s Reg.SVC_OTP F.SVC_OTP_floor (max (fld s Reg.SVC_OTP F.SVC_OTP_floor) (hdrFloor (slotHdr s (runFlash s))))

def doCommit (s : State) : State :=
  let s1 := floorAdvance (progMarker (runFlash s) mkCommitted s)
  let s2 := slotStat (setFld s1 Reg.SVC_BOOT F.SVC_BOOT_committed 1)
  raise (setFld { s2 with svc := { s2.svc with commitDue := false } } Reg.SVC_CMDSTAT F.SVC_CMDSTAT_busy 0) 1802

/-- Commit starts; it waits while holdup is set. -/
def commitStart (s : State) : State :=
  if !runTrial s then s
  else if holdup s then { s with svc := { s.svc with commitDue := true } }
  else doCommit s

/-- One epoch, or window of AONCLK in its place, has passed: epochs of a trial, and the traffic it carried (R519, R525). -/
def svcEpoch (s : State) : State :=
  let s1 := { s with svc := { s.svc with lastTraffic := s.svc.traffic, traffic := false } }
  if !flag s1 Reg.SVC_BOOT F.SVC_BOOT_settings_ok then s1
  else
    let n := min 64 (fld s1 Reg.SVC_BOOT F.SVC_BOOT_epochs + 1)
    let s2 := setFld s1 Reg.SVC_BOOT F.SVC_BOOT_epochs n
    if n = 64 ∧ !s2.svc.commitDue then commitStart s2 else s2

/-- REJECT_SELF (R520). -/
def rejectSelf (s : State) : State :=
  let f := runFlash s
  if fld s Reg.SVC_BOOT F.SVC_BOOT_slot = 0 then s
  else if runTrial s then svcReset (progMarker f mkRejected s)
  else svcReset (setFld s Reg.SVC_BOOT F.SVC_BOOT_skip (f + 1))

/-! ## Owner lock, tamper, keys (R526–R530) -/

def tampered (s : State) : Bool := flag s Reg.SVC_SEC F.SVC_SEC_tamper
def windowOpen (s : State) : Bool := flag s Reg.SVC_SEC F.SVC_SEC_window
def closeWindow (s : State) : State := setFld s Reg.SVC_SEC F.SVC_SEC_window 0

/-- OWNER_SET, OWNER_CLEAR. -/
def ownerPut (b : Bool) (s : State) : Nat × State :=
  if !windowOpen s then (0x0D, s)
  else if tampered s then (0x0C, s)
  else
    let s1 := closeWindow (setFld s Reg.SVC_SEC F.SVC_SEC_owner (b2n b))
    (0, nlsRecord 5 (leBytes 1 (b2n b) ++ leBytes 1 0 ++ leBytes 6 (dieId s1)) s1)

/-- Some nonzero status; which one is open where a rule refuses without naming it. -/
def openStatus (s : State) : Nat × State :=
  let (w, s1) := draw s
  (1 + w.toNat % 0x11, s1)

/-- TAMPER_CLEAR: a mismatch in its NCLK leaves tamper set (R529). `mismAt` and `clearAt` hold one more than the NCLK. -/
def tamperClear (s : State) : Nat × State :=
  if !windowOpen s then (0x0D, s)
  else if fld s Reg.SVC_OTP F.SVC_OTP_tclr = 15 then (0x10, s)
  else if !flag s Reg.SVC_SEC F.SVC_SEC_loop_ok then openStatus s
  else
    let s1 := setFld s Reg.SVC_OTP F.SVC_OTP_tclr (fld s Reg.SVC_OTP F.SVC_OTP_tclr + 1)
    let s2 := closeWindow { s1 with svc := { s1.svc with clearAt := s1.now + 1 } }
    (0, if s.svc.mismAt = s.now + 1 then s2 else setFld s2 Reg.SVC_SEC F.SVC_SEC_tamper 0)

/-- REVOKE. -/
def revoke (k : Nat) (s : State) : Nat × State :=
  let keys := fld s Reg.SVC_OTP F.SVC_OTP_keys
  let gone := fld s Reg.SVC_OTP F.SVC_OTP_revoked
  let live := (List.range 4).filter (fun i => keys.testBit i && !gone.testBit i)
  if !windowOpen s then (0x0D, s)
  else if 4 ≤ k ∨ (fld s Reg.SVC_BOOT F.SVC_BOOT_slot ≠ 0 ∧ s.svc.key = k) ∨ live = [k] then (0x11, s)
  else (0, closeWindow (setFld s Reg.SVC_OTP F.SVC_OTP_revoked (Nat.lor gone (2 ^ k))))

/-- COMMIT. -/
def commitCmd (s : State) : Nat × State :=
  if flag s Reg.SVC_BOOT F.SVC_BOOT_quar then openStatus s else (0, commitStart s)

/-- A command of R538 by number and argument: its status. -/
def svcDo (c arg : Nat) (s : State) : Nat × State :=
  match c with
  | 1 => commitCmd s
  | 2 => (0, rejectSelf s)
  | 3 => (0, svcReset s)
  | 4 => ownerPut true s
  | 5 => ownerPut false s
  | 6 => tamperClear s
  | 7 => revoke arg s
  | _ => (0, s)

/-- A write of SVC_CMD (R538): ignored while one is in progress; a reset leaves nothing of it. -/
def svcCmd (c arg : Nat) (s : State) : State :=
  if s.svc.porst || flag s Reg.SVC_CMDSTAT F.SVC_CMDSTAT_busy || c == 0 || decide (7 < c) then s
  else
    let r := svcDo c arg s
    if (c = 2 ∧ fld s Reg.SVC_BOOT F.SVC_BOOT_slot ≠ 0) ∨ c = 3 then r.2
    else wr r.2 Reg.SVC_CMDSTAT (toW (b2n r.2.svc.commitDue * 2 ^ 47 + c * 256 + r.1))

/-! ## The seal loop (R528) -/

/-- The LFSR's next state, shifting toward bit 0. -/
def lfsrNext (l : Nat) : Nat := l / 2 + b2n (Bool.xor (Bool.xor (l.testBit 0) (l.testBit 2)) (Bool.xor (l.testBit 3) (l.testBit 5))) * 2 ^ 15

/-- One tset step, now or once holdup is 0. -/
def blowTset (s : State) : State :=
  if holdup s then { s with svc := { s.svc with owedTset := s.svc.owedTset + 1 } }
  else setFld s Reg.SVC_OTP F.SVC_OTP_tset (min 31 (fld s Reg.SVC_OTP F.SVC_OTP_tset + 1))

/-- The LFSR has advanced, and SEAL_B is compared. -/
def sealCheck (b : Bool) (s : State) : State :=
  if s.svc.porst then s
  else
    let l := lfsrNext s.svc.lfsr
    if l.testBit 0 == b then
      let n := min 1000 (s.svc.same + 1)
      let s1 := { s with svc := { s.svc with lfsr := l, mism := 0, same := n } }
      if n = 1000 then setFld s1 Reg.SVC_SEC F.SVC_SEC_loop_ok 1 else s1
    else
      let s1 := setFld { s with svc := { s.svc with lfsr := l, mism := min 2 (s.svc.mism + 1), same := 0, mismAt := s.now + 1 } }
        Reg.SVC_SEC F.SVC_SEC_loop_ok 0
      if s.svc.clearAt = s.now + 1 then setFld s1 Reg.SVC_SEC F.SVC_SEC_tamper 1
      else if s.svc.mism = 1 ∧ !tampered s1 then blowTset (raise (setFld s1 Reg.SVC_SEC F.SVC_SEC_tamper 1) 1795)
      else s1

/-! ## Presence (R526) -/

def presLow (s : State) : State := setFld { s with svc := { s.svc with presLow := true } } Reg.SVC_SEC F.SVC_SEC_pres 1

/-- 2,000,000 low samples in a row: the window opens; a ROM that waits enters Axolotl mode. -/
def presenceOpen (s : State) : State :=
  if s.svc.porst then s
  else
    let s1 := raise (setFld (presLow s) Reg.SVC_SEC F.SVC_SEC_window 1) 1799
    match s.svc.mode with
    | .romPres => setMode .axolotl (slotStat s1)
    | _ => s1

/-- PRES_N returns high. -/
def presenceHigh (s : State) : State :=
  let s1 := setFld { s with svc := { s.svc with presLow := false } } Reg.SVC_SEC F.SVC_SEC_pres 0
  match s.svc.mode with
  | .romPres => romBoot s1
  | _ => s1

/-! ## Holdup clears (R477, R507, R519, R528, R547) -/

/-- What waits for holdup goes on. -/
def holdupGone (s : State) : State :=
  let s1 := match s.svc.mode with
    | .romHold _ => romSelect 3 s
    | _ => s
  let s2 := if s1.svc.commitDue then doCommit s1 else s1
  let n := s2.svc.owedTset
  let s3 := forEach (List.range n) (fun _ s => blowTset s) { s2 with svc := { s2.svc with owedTset := 0 } }
  let l := s3.svc.due
  forEach l (fun x s => nlsAppend x false s) { s3 with svc := { s3.svc with due := [] } }

/-- A write of 1 to PWR_VIN.holdup. -/
def holdupClear (s : State) : State :=
  if flag s Reg.PWR_VIN F.PWR_VIN_warn || !flag s Reg.PWR_VIN F.PWR_VIN_hok || s.svc.porst then s
  else if holdup s then holdupGone (setFld s Reg.PWR_VIN F.PWR_VIN_holdup 0) else s

/-! ## Boot code (R508) -/

/-- A SerDes or memory training outcome list as BOOT_CODE_START gives it: controller, unit, 5 DEGRADED or 6 RETIRED. -/
abbrev TrainOut := List (Nat × Nat × Nat)

/-- The structure image of the running slot. -/
def slotStr (s : State) : List Byte :=
  let h := slotHdr s (runFlash s)
  flBytes s (runFlash s) (leAt h 0x24 4) (leAt h 0x28 4)

/-- Boot code goes on where every program is loaded, up to BOOT_SEAL. -/
def bootRest (s : State) : State :=
  match strBootRest s with
  | (true, s1) => setMode .seal_ s1
  | (false, s1) => s1

/-- Boot code runs up to BOOT_SEAL; where its structure image fails, the slot is rejected or skipped, and RESET follows. -/
def bootCode (out : TrainOut) (s : State) : State :=
  match s.svc.mode with
  | .boot =>
    if s.str.boot.isSome then s
    else
    let s0 := lifeRestore (devRelease s)
    let s1 := if fld s0 Reg.SVC_BOOT F.SVC_BOOT_cause = 1 then raise s0 1806 else s0
    let s2 := if runTrial s1 then s1 else floorAdvance s1
    match strBoot (nlsTrained s2) out (slotStr s2) s2 with
    | (true, s3) => bootRest s3
    | (false, s3) =>
      let f := runFlash s3
      setMode .failed (if runTrial s3 then progMarker f mkRejected s3 else setFld s3 Reg.SVC_BOOT F.SVC_BOOT_skip (f + 1))
  | _ => s

/-- A cluster reaches RUN while boot code loads programs (R43), or at any other time. -/
def wokenTo (c : Nat) (s : State) : State := bootRest (cluWoken c (bootLoad c s))

/-- A write of PRT_SEAL.seal (R510). -/
def bootSeal (agent : Nat) (s : State) : State :=
  if agent ≠ svcAgent then bwRefused (agentId s agent) (classOf s (agentId s agent)) s
  else if isSealed s then s
  else
    let s1 := raise (setFld s Reg.PRT_SEAL F.PRT_SEAL_seal 1) 1792
    match s.svc.mode with
    | .seal_ => setMode .rtLoad s1
    | _ => s1

/-- SVC_CTL.clr (R538). -/
def svcClr (s : State) : State := setFld (wr s Reg.SVC_SITCNT 0) Reg.SVC_NLS F.SVC_NLS_errors 0

end Sys2Proof.Machine
end

