-- ==== Sys2Proof/Machine/StrumRows.lean ====
section
/-! DEFINITION. The telemetry ring (R550, R551, R553), and the rows of Strum, of live images, of domain time and of pairs
(R414, R415, R420–R448, R48–R59). -/

namespace Sys2Proof.Machine

/-! ## The telemetry ring -/

/-- A register as a number. -/
def rn (s : State) (a : Nat) : Nat := (rd s a).toNat

/-- The clusters in a power state, bit c for cluster c. -/
def powerMask (s : State) (p : CPower) : Nat := (List.range 24).foldl (fun n c => n + b2n (decide ((clu s c).power = p)) * 2 ^ c) 0

/-- A snapshot (R550), with its crc. -/
def snapshot (runClear : Bool) (s : State) : List Byte :=
  let lost := s.tel.lost
  let body :=
    leBytes 8 (rn s Reg.EPC_NUM) ++ leBytes 8 (domNow s) ++ leBytes 4 s.tel.seq ++
    leBytes 1 (b2n (decide (0 < lost)) + b2n runClear * 2 + b2n s.tel.jump * 4) ++ leBytes 1 (pwrCur s) ++
    leBytes 2 (min 65535 lost) ++ leBytes 8 (rn s Reg.SPN_CNT_DISP) ++ leBytes 8 (rn s Reg.BRG_CNT_REL) ++
    leBytes 8 (rn s Reg.BRG_CNT_DROP) ++ leBytes 4 (rn s Reg.BRG_CNT_SKIP) ++ leBytes 4 (rn s Reg.BRG_CNT_LATE) ++
    leBytes 4 (fld s Reg.SPN_STORESTAT F.SPN_STORESTAT_free) ++
    leBytes 2 (fld s Reg.SPN_BPSTAT F.SPN_BPSTAT_asserted) ++ leBytes 2 (fld s Reg.SPN_BPSTAT F.SPN_BPSTAT_held) ++
    (List.range 16).flatMap (fun p => leBytes 4 (fld s (Reg.BPM_POUT p) F.BPM_POUT_out)) ++
    leBytes 3 (powerMask s .run) ++ leBytes 3 (powerMask s .parked) ++ leBytes 2 0 ++
    leBytes 2 (fld s Reg.PWR_VINSTAT F.PWR_VINSTAT_watts) ++ leBytes 2 (fld s Reg.PWR_VIN F.PWR_VIN_mv) ++
    leBytes 1 (fld s Reg.PWR_THERM F.PWR_THERM_hot) ++ leBytes 3 0 ++
    (List.range 12).flatMap (fun m => leBytes 6 (rn s (Reg.MC_ERRCNT m)) ++ leBytes 2 0) ++
    leBytes 6 (rn s Reg.TBL_LRN_CNT0) ++ leBytes 2 0 ++ leBytes 4 0
  body ++ leBytes 4 (crcPlain body)

def tringN (s : State) : Nat := 2 ^ max 4 (min 20 (fld s Reg.BKG_TRING_CFG F.BKG_TRING_CFG_log2n))

/-- A capture, written or lost (R551). -/
def telCapture (runClear : Bool) (s : State) : State :=
  if !flag s Reg.BKG_TRING_CFG F.BKG_TRING_CFG_en then s
  else
    let s0 := { s with tel := { s.tel with seq := (s.tel.seq + 1) % 2 ^ 32 } }
    let wp := fld s Reg.BKG_TRING_WP F.BKG_TRING_WP_index
    let rp := fld s Reg.BKG_TRING_RP F.BKG_TRING_RP_index
    let full := flag s Reg.BKG_TRING_CFG F.BKG_TRING_CFG_stop && (wp + 2 ^ 32 - rp) % 2 ^ 32 == tringN s
    if full || s.tel.writing.isSome then
      let n := fld s0 Reg.BKG_TRING_LOST F.BKG_TRING_LOST_count
      let s1 := bump { s0 with tel := { s0.tel with lost := s0.tel.lost + 1, jump := false } } Reg.BKG_TRING_LOST F.BKG_TRING_LOST_count
      if n = 0 then raise s1 1858 else s1
    else { s0 with tel := { s0.tel with writing := some (wp % tringN s, snapshot runClear s0), lost := 0, jump := false } }

/-- The four writes of a snapshot are complete; they wait for a unit in RETRAINING (R330). -/
def telWritten (s : State) : State :=
  match s.tel.writing with
  | none => s
  | some (e, l) =>
    let a := fld s Reg.BKG_TRING_BASE F.BKG_TRING_BASE_addr * 256 + 256 * e
    if busyIn s a 256 then s
    else
    let s1 := if populated s a && populated s (a + 255) then
        forEach (List.range 4) (fun i s => (memWrite s (a + 64 * i) ((l.drop (64 * i)).take 64)).2) s
      else s
    bumpWrap { s1 with tel := { s1.tel with writing := none } } Reg.BKG_TRING_WP F.BKG_TRING_WP_index

/-- A write of BKG_TRING_CFG (R553): while en is 1 only one that clears en; setting en zeroes wp and seq. -/
def tringWrite (v : Word) (s : State) : State :=
  let a := Reg.BKG_TRING_CFG
  let on := getF v F.BKG_TRING_CFG_en = 1
  if flag s a F.BKG_TRING_CFG_en then
    (if on then s else { setFld s a F.BKG_TRING_CFG_en 0 with tel := { s.tel with writing := none } })
  else
    let w := putF (v &&& 0xC0000000001F) F.BKG_TRING_CFG_log2n (max 4 (min 20 (getF v F.BKG_TRING_CFG_log2n)))
    let s1 := wr s a w
    if on then wr { s1 with tel := TelS.reset } Reg.BKG_TRING_WP 0 else s1

/-- BKG_CTL.clr (R553). -/
def bkgClr (s : State) : State :=
  let s1 := wr (wr s Reg.BKG_OVR 0) Reg.BKG_TRING_LOST 0
  setFld (forEach (List.range 6) (fun k s => wr s (Reg.BKG_SCRUBCNT k) 0) s1) Reg.BKG_NLSSTAT F.BKG_NLSSTAT_refused 0

/-! ## Acting on a boundary -/

/-- The checks of boundary `k` that are still open are made. -/
def epcCatch (k ecc : Nat) (s : State) : State :=
  match s.epc.phase with
  | 0 => epcDecide k (epcCutoff k ecc s)
  | 1 => epcDecide k s
  | _ => s

/-- Boundary `k` in its NCLK, then what the NCLK after it does (R427, R428). -/
def boundaryAct (k : Nat) (s : State) : State :=
  let applied := s.epc.verdict == some 0
  let s1 := planBoundary applied (boundaryMark k (epcBoundary k s))
  planStage (releaseHeld (telCapture false (svcEpoch s1)))

/-- Domain time has stepped forward (R423): the highest boundary passed is acted on, and a cutoff or decision point passed
after it is made up for. -/
def epcJump (s : State) : State :=
  if !epcRun s then s
  else
    let t := domNow s
    let b := boundaryAt s s.epc.next
    let s1 := if t < b then s
      else
        let n := (t - b) / epcNs s
        let k := s.epc.next + n
        let s1 := if n = 0 then s
          else
            let s1 := raise (bumpBy s Reg.EPC_CNT1 F.EPC_CNT1_jumps n) 1541
            { s1 with tel := { s1.tel with jump := true } }
        boundaryAct k (epcCatch k 0 (if n = 0 then s1 else { s1 with epc := { s1.epc with phase := 0 } }))
    let c := boundaryAt s1 s1.epc.next
    let s2 := if s1.epc.phase = 0 ∧ c ≤ t + 4000 then epcCutoff s1.epc.next 0 s1 else s1
    if s2.epc.phase = 1 ∧ c ≤ t + 1000 then epcDecide s2.epc.next s2 else s2

/-! ## Rows: Strum -/

/-- EPOCH_RUN_START (R421): a write of EPC_CTL with run set. -/
def execEpochRunStart (v : Word) (s : State) : Out :=
  if getF v F.EPC_CTL_run = 1 then .next (epcCtlWrite v s) else .refused .illFormed

/-- SW_REGISTER_WRITE (R424, R422, R428) of the register at CSR offset `a`. -/
def execSwRegisterWrite (a : Nat) (v : Word) (s : State) : Out :=
  if swMask a = 0 then .refused .illFormed else .next (swWrite a v s)

/-- COMMIT_REQUEST (R425). -/
def execCommitRequest (nwr : Nat) (dom : Bool) (s : State) : Out :=
  if 65536 ≤ nwr then .refused .illFormed else .next (commitWrite (toW (2 ^ 17 + b2n dom * 2 ^ 18 + nwr)) s)

def execCommitWithdraw (s : State) : Out := .next (planStage (commitWrite (toW (2 ^ 19)) s))
def execCommitDiscard (s : State) : Out := .next (planStage (commitWrite (toW (2 ^ 20)) s))

/-- EPOCH_CUTOFF (R426): `ecc` is the outcome of a gate read of the own memory. -/
def execEpochCutoff (ecc : Nat) (s : State) : Out :=
  if 3 ≤ ecc then .refused .illFormed
  else .next (if epcRun s && s.epc.phase == 0 then epcCutoff s.epc.next ecc s else s)

def execEpochDecisionPoint (s : State) : Out :=
  .next (if epcRun s && s.epc.phase == 1 then epcDecide s.epc.next s else s)

def execEpochBoundary (s : State) : Out :=
  .next (if epcRun s then boundaryAct s.epc.next (epcCatch s.epc.next 0 s) else s)

def execTelemetryWriteComplete (s : State) : Out := .next (telWritten s)
def execEpcCtlClr (s : State) : Out := .next (wr s Reg.EPC_CNT1 0)

/-! ## Rows: live images (R48–R59) -/

def execVerify (s : State) : Out := .next (stageVerify s)
def execVerifyComplete (s : State) : Out := .next (stageVerified s)
def execArm (s : State) : Out := .next (stageArm s)
def execPreloadComplete (s : State) : Out := .next (epcPreloaded s)
def execDisarm (s : State) : Out := .next (stageDisarm s)

/-! ## Rows: pairs (R434–R448) -/

/-- PAIR_ENABLE (R435): a write of DST_CFG with en set. -/
def execPairEnable (v : Word) (s : State) : Out :=
  if getF v F.DST_CFG_en = 1 then .next (dstCfgWrite v s) else .refused .illFormed

def execMirrorSend (s : State) : Out := .next (mirrorSend s)
def execMarkerSend (s : State) : Out := .next (markerSend s)
def execMarkerReceive (s : State) : Out := .next (markerReceive s)
def execHeartbeatSend (s : State) : Out := .next (heartbeatSend s)
def execHeartbeatPeriodEnd (s : State) : Out := .next (heartbeatPeriodEnd s)
def execFailover (s : State) : Out := .next (if dstRole s = 2 then failover s else s)
def execHandover (s : State) : Out := .next (dstHandover s)
def execHandoverComplete (s : State) : Out := .next (handoverComplete s)
def execResync (s : State) : Out := .next (startSync s)
def execDstCnt1Zero (s : State) : Out := .next (wr s Reg.DST_CNT1 0)

/-! ## Rows: domain time (R414, R415) -/

/-- One correction of a follower by its parent (R415). -/
def timeCorrect (l : Nat) (t : TimeIn) (etsid res : Nat) (s : State) : State :=
  let t1 : Nat := Tab.get 0 (olink s l).stamps etsid
  let a := sextN 16 (fld s (Reg.OBX_LCFG l) F.OBX_LCFG_asym)
  let d := ((t.t4 : Int) - t1 - res - a) / 2
  let off := (t.t3 : Int) + d - t.t4
  let now_ := domNow s
  let s1 := if 1000 < off.natAbs && flag s Reg.OBX_TIME_CTL F.OBX_TIME_CTL_step_en
    then raise (setDom s (((now_ : Int) + off).toNat % 2 ^ 64) 0) 1423
    else setDom s now_ off
  let shown : Int := max (-32768) (min 32767 off)
  let good := if off.natAbs < 20 then min 16 (s1.obx.good + 1) else 0
  let s2 := setFld { s1 with obx := { s1.obx with good := good } } Reg.OBX_TIME_STAT F.OBX_TIME_STAT_off
    (shown % 65536).toNat
  let was := fld s2 Reg.OBX_TIME_STAT F.OBX_TIME_STAT_locked
  let s3 := setFld s2 Reg.OBX_TIME_STAT F.OBX_TIME_STAT_locked (b2n (good == 16))
  epcJump (if was = b2n (good == 16) then s3 else raise s3 1424)

/-- TIMESTAMP_RECEIVE (R415): the stamp a link last received; only the parent's corrects. -/
def execTimestampReceive (l : Nat) (s : State) : Out :=
  onObx l (fun s =>
    match (olink s l).tsIn with
    | none => s
    | some t =>
      let s1 := updOlink s l (fun x => { x with tsIn := none })
      match t.echo with
      | some (etsid, res) => if timeParent s1 = some l then timeCorrect l t etsid res s1 else s1
      | none => s1) s

/-- A write of OBX_TIME_SET, ignored but on the master. -/
def timeSet (v : Nat) (s : State) : State :=
  if flag s Reg.OBX_TIME_CTL F.OBX_TIME_CTL_master then epcJump (setDom s v 0) else s

def execTimeSet (v : Word) (s : State) : Out := .next (timeSet v.toNat s)

/-! ## Rows: background (R550, R553, R519) -/

/-- TRING_ENABLE (R553): a write of BKG_TRING_CFG with en set. -/
def execTringEnable (v : Word) (s : State) : Out :=
  if getF v F.BKG_TRING_CFG_en = 1 then .next (tringWrite v s) else .refused .illFormed

def execBkgCtlClr (s : State) : Out := .next (bkgClr s)

/-- AONCLK_EPOCH_WINDOW: 250,000 AONCLK in place of an epoch while run is 0. -/
def execAonclkEpochWindow (s : State) : Out :=
  .next (if epcRun s || s.svc.porst then s else telCapture true (svcEpoch s))

end Sys2Proof.Machine
end

