-- ==== Sys2Proof/Machine/SitOps.lean ====
section
/-! DEFINITION. The service port and Service Image Transfer: messages, replies, sessions, refusals, Axolotl mode, and the
IPv6 answers (R521–R525, R531–R534). -/

namespace Sys2Proof.Machine

/-! ## Messages (R522, R532) -/

/-- A message: header, payload and CRC-32C. -/
def sitMsg (typ session seq status : Nat) (p : List Byte) : List Byte :=
  let m := leBytes 2 0x5349 ++ leBytes 1 1 ++ leBytes 1 typ ++ leBytes 4 session ++ leBytes 4 seq ++ leBytes 2 p.length ++
    leBytes 1 status ++ leBytes 1 0 ++ p
  m ++ leBytes 4 (crcPlain m)

/-- A frame of the UART. -/
def uartFrame (l : List Byte) : List Byte :=
  0x7E :: l.flatMap (fun b => if b = 0x7E ∨ b = 0x7D then [0x7D, b ^^^ 0x20] else [b]) ++ [0x7E]

/-- Axolotl mode (R531). -/
def axolotl (s : State) : Bool := decide (s.svc.mode = .axolotl)

/-- Where Service Image Transfer is accepted: the service port (0) at run time and in Axolotl mode, the UART (1) in
Axolotl mode only. -/
def sitOpen (port : Nat) (s : State) : Bool :=
  if port = 0 then flag s Reg.SVC_PORT F.SVC_PORT_up && (axolotl s || decide (s.svc.mode = .rt)) else axolotl s

/-- Where a message goes back to: its port, session and seq. -/
structure SitFrom where
  port : Nat
  session : Nat
  seq : Nat
deriving DecidableEq, Repr

/-- A reply, and SVC_UPD.last. -/
def sitReply (m : SitFrom) (typ status : Nat) (p : List Byte) (s : State) : State :=
  let l := sitMsg typ m.session m.seq status p
  emit (setFld s Reg.SVC_UPD F.SVC_UPD_last status) (.svc m.port (if m.port = 1 then uartFrame l else l))

def sitBad (s : State) : State := bump s Reg.SVC_SITCNT F.SVC_SITCNT_bad

/-! ## Configuration and refusal (R525) -/

/-- Domain mode: joined, with more than 2 members. -/
def domainMode (s : State) : Bool :=
  flag s Reg.OBX_ID F.OBX_ID_joined && decide (2 < (List.range 1024).countP (isMember s))

/-- 0 standalone, 1 pair, 2 domain; 0 in Axolotl mode (R533). -/
def sitConfig (s : State) : Nat :=
  if axolotl s then 0 else if domainMode s then 2 else if flag s Reg.DST_CFG F.DST_CFG_en then 1 else 0

/-- The first check of a list that fails. -/
def firstFail (l : List (Bool × Nat)) : Nat := ((l.find? (fun e => e.1)).map (fun e => e.2)).getD 0

/-- Checks of the table by row; the supply, traffic and owner checks hold where the columns say. -/
def tamperCheck (s : State) : Bool × Nat := (tampered s, 0x0C)
def trafficCheck (s : State) : Bool × Nat := (s.svc.lastTraffic && !domainMode s && !axolotl s, 0x09)
def holdupRule (s : State) : Bool × Nat := (holdup s && !domainMode s, 0x0A)
def ownerCheck (s : State) : Bool × Nat := (flag s Reg.SVC_SEC F.SVC_SEC_owner && !domainMode s && !axolotl s, 0x0B)

/-- Status of a BEGIN with an image header. -/
def beginStatus (h : List Byte) (s : State) : Nat :=
  firstFail [(s.svc.sess.isSome, 1), tamperCheck s, (hdrStatus s h != 0, hdrStatus s h),
    (decide (hdrFloor h < fld s Reg.SVC_OTP F.SVC_OTP_floor), 6), (runTrial s && !axolotl s, 7), trafficCheck s, holdupRule s,
    ownerCheck s]

/-- A refusal is counted and raised. -/
def sitRefused (s : State) : State := raise (bump s Reg.SVC_SITCNT F.SVC_SITCNT_refused) 1801

/-! ## Sessions (R523, R524) -/

/-- The target of a BEGIN. -/
def sitTarget (s : State) : Nat :=
  if axolotl s then
    if !candidate s 0 then 0 else if !candidate s 1 then 1
    else if hdrVersion (slotHdr s 1) < hdrVersion (slotHdr s 0) then 1 else 0
  else 1 - runFlash s

/-- The session is over; `st` is SVC_UPD.state. -/
def sitClose (st : Nat) (s : State) : State :=
  let s1 := setFld (setFld s Reg.SVC_UPD F.SVC_UPD_state st) Reg.SVC_UPD F.SVC_UPD_session 0
  slotStat { s1 with svc := { s1.svc with sess := none } }

/-- What a message that names a session finds: it, a LATE one, or none. -/
def withSession (m : SitFrom) (typ : Nat) (none_ : State → State) (f : Sess → State → State) (s : State) : State :=
  match s.svc.sess with
  | some x => if m.session = s.svc.lastSess then f x s else lateOr m typ s
  | none => lateOr m typ s
where
  lateOr (m : SitFrom) (_ : Nat) (s : State) : State :=
    if s.svc.expired.contains m.session then bump s Reg.SVC_SITCNT F.SVC_SITCNT_late else none_ s

def helloReply (m : SitFrom) (s : State) : State :=
  let six := fun (a : Nat) => leBytes 6 (rd s a).toNat
  let boot := if axolotl s then leBytes 6 0 else six Reg.SVC_BOOT
  sitReply m 0x81 0 (six Reg.IDN_PART ++ six Reg.IDN_STEP ++ six Reg.IDN_COMPAT ++ six (Reg.SVC_SLOT 0) ++ six (Reg.SVC_SLOT 1) ++
    six Reg.SVC_OTP ++ six Reg.SVC_SEC ++ boot ++ leBytes 1 (sitConfig s)) s

/-- When a session ends that accepts a message now (R524). -/
def sitTill (s : State) : Nat := s.now + 10000000 * 64

/-- BEGIN; `fail`: the erase of the status sector fails. -/
def sitBegin (m : SitFrom) (h dig : List Byte) (fail : Bool) (s : State) : State :=
  let st := beginStatus h s
  let t := sitTarget s
  if st ≠ 0 then sitReply m 0x82 st (leBytes 1 t ++ leBytes 1 16) (sitRefused s)
  else
    let s1 := flErase t slotMax 4096 s
    if fail then sitReply m 0x82 0x0E (leBytes 1 t ++ leBytes 1 16) (slotStat s1)
    else
      let n := if s.svc.lastSess + 1 < 2 ^ 32 then s.svc.lastSess + 1 else 1
      let s2 := { s1 with svc := { s1.svc with sess := some { target := t, header := h, digest := dig, till := sitTill s1 }, lastSess := n,
                                               expired := s1.svc.expired.filter (· != n), activated := false } }
      let s3 := wr s2 Reg.SVC_UPD (toW (1 * 2 ^ 45 + t * 2 ^ 44 + n))
      sitReply m 0x82 0 (leBytes 1 t ++ leBytes 1 16) (slotStat (wr s3 Reg.SVC_UPDOFF 0))

/-- A DATA within the session. -/
def sitData (m : SitFrom) (off : Nat) (l : List Byte) (fail : Bool) (x : Sess) (s : State) : State :=
  let next := fld s Reg.SVC_UPDOFF F.SVC_UPDOFF_next
  let ack := fun (st n : Nat) (s : State) => sitReply m 0x83 st (leBytes 8 n) s
  if off ≠ next then ack 8 next s
  else if l.length ≠ min 1024 (hdrLen x.header - off) ∨ l.length = 0 then sitBad s
  else if (holdupRule s).1 then ack 0x0A next (sitClose 0 (sitRefused s))
  else
    let s1 := if off % 4096 = 0 then flErase x.target off 4096 s else s
    if fail then ack 0x0E next (sitClose 0 s1)
    else
      let n := off + l.length
      let s2 := setFld (flProg x.target off l s1) Reg.SVC_UPDOFF F.SVC_UPDOFF_next n
      ack 0 n { s2 with svc := { s2.svc with sess := some { x with till := sitTill s } } }

/-- Status of an END: the read-back, validity and floor, then the refusals. `true` marks a refusal of R525. -/
def endStatus (x : Sess) (s : State) : Nat × Bool :=
  let img := flBytes s x.target 0 (hdrLen x.header)
  let own := firstFail [(sha384 img != x.digest, 0x0F), (validStatus s x.target != 0, validStatus s x.target),
    (!aboveFloor s x.target, 6)]
  let ref := firstFail [tamperCheck s, holdupRule s, ownerCheck s]
  if own ≠ 0 then (own, false) else (ref, ref != 0)

def sitEnd (m : SitFrom) (fail : Bool) (x : Sess) (s : State) : State :=
  let st := endStatus x s
  if st.1 ≠ 0 then sitReply m 0x84 st.1 [] (sitClose 0 (if st.2 then sitRefused s else s))
  else if fail then sitReply m 0x84 0x0E [] (sitClose 0 s)
  else sitReply m 0x84 0 [] (raise (sitClose 3 (progMarker x.target mkWritten s)) 1800)

/-- ACTIVATE of a target that is WRITTEN. -/
def sitActivate (m : SitFrom) (s : State) : State :=
  let st := firstFail [tamperCheck s, trafficCheck s, ownerCheck s]
  if fld s Reg.SVC_UPD F.SVC_UPD_state ≠ 3 then sitReply m 0x86 2 [] s
  else if st ≠ 0 then sitReply m 0x86 st [] (sitRefused s)
  else sitReply m 0x86 0 [] { s with svc := { s.svc with activated := true } }

/-- COMMAND; a reset is answered before it happens. -/
def sitCommand (m : SitFrom) (c arg : Nat) (s : State) : State :=
  if axolotl s && c != 6 then sitReply m 0x87 0x11 [] s
  else if flag s Reg.SVC_CMDSTAT F.SVC_CMDSTAT_busy then sitReply m 0x87 1 [] s
  else if c = 0 ∨ c = 2 ∨ c = 3 ∨ 7 < c then svcCmd c arg (sitReply m 0x87 0 [] s)
  else
    let s1 := svcCmd c arg s
    sitReply m 0x87 (fld s1 Reg.SVC_CMDSTAT F.SVC_CMDSTAT_status) [] s1

/-- The session expires, 10,000,000 AONCLK after the last message it accepted. -/
def sitExpire (s : State) : State :=
  match s.svc.sess with
  | none => s
  | some x =>
    if s.now < x.till then s
    else
      let s1 := sitClose 0 s
      { s1 with svc := { s1.svc with expired := s1.svc.expired ++ [s1.svc.lastSess] } }

/-! ## IPv6 (R521); layouts of RFC 8200, 4861, 4443 and 4291 are PRESUMED -/

/-- The device's address: link-local, by modified EUI-64 from SVC_MAC, first octet in bits [47:40]. -/
def svcMac (s : State) : List Byte := beBytes 6 (rd s Reg.SVC_MAC).toNat
def svcAddr (s : State) : List Byte :=
  let m := svcMac s
  [0xFE, 0x80, 0, 0, 0, 0, 0, 0, m.headD 0 ^^^ 2] ++ (m.drop 1).take 2 ++ [0xFF, 0xFE] ++ m.drop 3

def isLinkLocal (a : List Byte) : Bool := a.length == 16 && a.headD 0 == 0xFE && (a.getD 1 0).toNat / 64 == 2

/-- The Internet checksum over a message of even or odd length. -/
def inetSum : List Byte → Nat
  | a :: b :: r => a.toNat * 256 + b.toNat + inetSum r
  | [a] => a.toNat * 256
  | [] => 0
def inetFold (n : Nat) : Nat := let m := n % 65536 + n / 65536; (m % 65536 + m / 65536) % 65536

/-- An IPv6 datagram with an ICMPv6 message of a type, code 0 and a body. -/
def icmp (src dst : List Byte) (typ : Nat) (body : List Byte) : List Byte :=
  let m := fun (c : Nat) => leBytes 1 typ ++ leBytes 1 0 ++ beBytes 2 c ++ body
  let ps := src ++ dst ++ beBytes 4 (body.length + 4) ++ beBytes 4 58
  [0x60, 0, 0, 0] ++ beBytes 2 (body.length + 4) ++ [58, 255] ++ src ++ dst ++ m (65535 - inetFold (inetSum (ps ++ m 0)))

/-- An answer on the service port to a datagram from a source with a hop limit. -/
def svcAnswer (src : List Byte) (hop : Nat) (ok : Bool) (typ : Nat) (body : List Byte) (s : State) : State :=
  if sitOpen 0 s && isLinkLocal src && hop == 255 && ok then emit s (.svc 0 (icmp (svcAddr s) src typ body)) else s

end Sys2Proof.Machine
end

