-- ==== Sys2Proof/Machine/SvcRows.lean ====
section
/-! DEFINITION. The rows of boot, update, recovery and the service port (R500–R538), but for RUNTIME_START and the board
management controller. -/

namespace Sys2Proof.Machine

/-! ## VAON and PORST_N -/

/-- PORST_N_ASSERT (R464, R564): it also ends a thermal trip (R480). -/
def execPorstNAssert (s : State) : Out :=
  .next (partReset false { s with svc := { s.svc with porstN := false } })

/-- PORST_N_RELEASE (R564): the third high sample, with PRES_N as sampled. -/
def execPorstNRelease (pres : Bool) (s : State) : Out :=
  let s1 := if pres then presLow s else { s with svc := { s.svc with presLow := false } }
  .next (svcRelease { s1 with svc := { s1.svc with porstN := true } })

/-- VAON_POWER_UP (R475, R478): VAON comes up with the part in reset, and PWR_RSTCAUSE records por. -/
def execVaonPowerUp (s : State) : Out :=
  if s.svc.vaon then .next s else .next (setFld { s with svc := { s.svc with vaon := true } } Reg.PWR_RSTCAUSE F.PWR_RSTCAUSE_por 1)

/-- VAON_POWER_LOSS (R478): every state but flash and OTP is lost. -/
def execVaonPowerLoss (s : State) : Out :=
  let s1 := partReset false s
  .next (wr { s1 with pwr := PwrS.reset, svc := { s1.svc with vaon := false, owedTset := 0 } } Reg.PWR_RSTCAUSE 0)

/-! ## Boot -/

def execRomHoldupTimeout (s : State) : Out := .next (romTimeout s)

/-- BOOT_CODE_START (R508) with what training of each unit gives: controller, unit, 5 DEGRADED or 6 RETIRED. -/
def execBootCodeStart (out : List (Nat × Nat × Nat)) (s : State) : Out :=
  if out.all (fun e => e.2.2 == 5 || e.2.2 == 6) then .next (bootCode out s) else .refused .illFormed

/-- CLUSTER_WAKE_COMPLETE (R189, R464, R467); slot RAM is unspecified after PARKED (R581). -/
def execClusterWakeComplete (c : Nat) (s : State) : Out :=
  onCluster c (fun s =>
    let x := clu s c
    match x.power with
    | .wakingG => wokenTo c (setClu s c { x with power := .run })
    | .wakingP => wokenTo c (setClu s c { x with power := .run, gen := x.gen + 1 })
    | _ => s) s

/-- BOOT_SEAL (R510): a write of 1 to PRT_SEAL.seal by a local agent. -/
def execBootSeal (agent : Nat) (s : State) : Out :=
  if knownAgent agent then .next (bootSeal agent s) else .refused .illFormed

/-! ## Nelistore (R547, R548) -/

def execNelistoreAppend (typ : Nat) (body : List Byte) (fail : Bool) (s : State) : Out :=
  if typ = 0 ∨ 5 < typ ∨ 1030 < body.length then .refused .illFormed else .next (nlsAppend (typ, body) fail s)

def execNelistoreRotation (fail : Bool) (s : State) : Out := .next (nlsRotate fail s)

/-! ## Commands of SVC_CMD -/

def execCommit (s : State) : Out := .next (svcCmd 1 0 s)
def execRejectSelf (s : State) : Out := .next (svcCmd 2 0 s)
def execReset (s : State) : Out := .next (svcCmd 3 0 s)
def execOwnerSet (s : State) : Out := .next (svcCmd 4 0 s)
def execOwnerClear (s : State) : Out := .next (svcCmd 5 0 s)
def execTamperClear (s : State) : Out := .next (svcCmd 6 0 s)
def execRevoke (k : Nat) (s : State) : Out := if k < 256 then .next (svcCmd 7 k s) else .refused .illFormed

/-! ## Service Image Transfer: `port` 0 the service port, 1 the UART -/

/-- A message where one is accepted. -/
def sitRow (port : Nat) (seq : Nat) (f : State → State) (s : State) : Out :=
  if 1 < port ∨ 2 ^ 32 ≤ seq then .refused .illFormed else .next (if sitOpen port s then f s else s)

def execHello (port seq : Nat) (s : State) : Out := sitRow port seq (helloReply ⟨port, 0, seq⟩) s

/-- BEGIN with an image header and a digest; another payload length is a bad message. -/
def execBegin (port seq : Nat) (hdr dig : List Byte) (fail : Bool) (s : State) : Out :=
  sitRow port seq (fun s => if hdr.length = 256 ∧ dig.length = 48 then sitBegin ⟨port, 0, seq⟩ hdr dig fail s else sitBad s) s

/-- DATA; without its session the next expected offset of the answer is open. -/
def execData (port session seq off : Nat) (l : List Byte) (fail : Bool) (s : State) : Out :=
  sitRow port seq (fun s =>
    let m : SitFrom := ⟨port, session, seq⟩
    if 1024 < l.length ∨ off % 1024 ≠ 0 then sitBad s
    else withSession m 0x83 (fun s => sitReply m 0x83 2 (leBytes 8 (draw s).1.toNat) (draw s).2) (sitData m off l fail) s) s

def execEnd (port session seq : Nat) (fail : Bool) (s : State) : Out :=
  sitRow port seq (fun s =>
    let m : SitFrom := ⟨port, session, seq⟩
    withSession m 0x84 (sitReply m 0x84 2 []) (sitEnd m fail) s) s

def execAbort (port session seq : Nat) (s : State) : Out :=
  sitRow port seq (fun s =>
    let m : SitFrom := ⟨port, session, seq⟩
    withSession m 0x85 (sitReply m 0x85 2 []) (fun _ s => sitReply m 0x85 0 [] (sitClose 0 s)) s) s

def execActivate (port session seq : Nat) (s : State) : Out := sitRow port seq (sitActivate ⟨port, session, seq⟩) s

/-- ACTIVATE_RESET (R522): 100 ms after an OK ACTIVATE. -/
def execActivateReset (s : State) : Out := .next (if s.svc.activated then svcReset s else s)

def execCommand (port session seq c arg : Nat) (s : State) : Out :=
  if 256 ≤ c ∨ 256 ≤ arg then .refused .illFormed else sitRow port seq (sitCommand ⟨port, session, seq⟩ c arg) s

def execSessionExpiry (s : State) : Out := .next (sitExpire s)

/-- SIT_BAD_MESSAGE (R522, R532). -/
def execSitBadMessage (port : Nat) (s : State) : Out :=
  if 1 < port then .refused .illFormed else .next (if sitOpen port s then sitBad s else s)

/-! ## Service port (R521) -/

/-- NEIGHBOR_SOLICITATION for `target`, answered by an advertisement that is solicited and overrides. -/
def execNeighborSolicitation (src target : List Byte) (hop : Nat) (s : State) : Out :=
  .next (svcAnswer src hop (target == svcAddr s) 136 ([0x60, 0, 0, 0] ++ svcAddr s ++ [2, 1] ++ svcMac s) s)

/-- ECHO_REQUEST: identifier, sequence and data come back. -/
def execEchoRequest (src body : List Byte) (hop : Nat) (s : State) : Out := .next (svcAnswer src hop true 129 body s)

/-- SVC_PORT_UP: the receiver locks, unless the port is in half-reset (R470). -/
def execSvcPortUp (s : State) : Out :=
  if s.svc.porst || flag s Reg.SVC_PORT F.SVC_PORT_up || flag s Reg.SVC_PORT F.SVC_PORT_half_reset then .next s
  else .next (raise (setFld s Reg.SVC_PORT F.SVC_PORT_up 1) 1805)

/-! ## Presence and the seal loop -/

def execPresenceWindowOpen (s : State) : Out := .next (presenceOpen s)

/-- PRESENCE_WINDOW_CLOSE (R526): the timeout after PRES_N returned high. -/
def execPresenceWindowClose (s : State) : Out := .next (if windowOpen s && !s.svc.presLow then closeWindow s else s)

def execPresNHigh (s : State) : Out := .next (if s.svc.porst then { s with svc := { s.svc with presLow := false } } else presenceHigh s)

/-- SEAL_CHECK (R528): SEAL_B as sampled. -/
def execSealCheck (b : Bool) (s : State) : Out := .next (sealCheck b s)

def execSvcCtlClr (s : State) : Out := .next (svcClr s)

end Sys2Proof.Machine
end

