-- ==== Sys2Proof/Machine/CsrOps.lean ====
section
/-! DEFINITION. Reads and writes of CSRs as their requesters make them (R7–R10, R13): the access type of each field, and
the registers a read or a write acts on. An agent here is a local agent of this device. -/

namespace Sys2Proof.Machine

/-! ## Reads -/

/-- Registers of an Ethernet port, an Obrex link or a pool (R248), which one the image does not assign lacks: they read 0
and ignore writes. -/
def absent (id : RegId) (i : Nat) (s : State) : Bool :=
  match id with
  | .MAC_PCFG | .MAC_PSTAT | .MAC_PRIMAP | .MAC_FCQ | .MAC_TSADJ | .MAC_RXPAUSE | .MAC_TXTS | .MAC_TXTS_LO | .MAC_TXTS_HI
  | .MAC_TXTSSTAT | .MAC_CTL | .MAC_PAUSESA | .MAC_CNT => !portAssigned s i
  | .OBX_LCFG | .OBX_LSTAT | .OBX_LCNT => !linkAssigned s i
  | .TBL_T_CFG => tKind s i == 0
  | .BPM_PCFG | .BPM_PHIGH | .BPM_PXON | .BPM_PAUDIT | .BPM_PAUDITC => !poolValid s i
  | _ => false

/-- State code of a thread (R131). -/
def tCode : TState → Nat
  | .idle => 0
  | .packet => 1
  | .start => 2
  | .service => 3
  | .killed => 4
  | .halted => 5
  | .double => 6
  | .reset => 7

/-- Power state code of a cluster (R189). -/
def pCode : CPower → Nat
  | .run => 0
  | .gated => 1
  | .parked => 2
  | .wakingG => 3
  | .wakingP => 4
  | .parking => 5

/-- CLU_THSTAT of a thread (R136); its pc is open in a state where it is not meaningful. -/
def thStat (t : Nat) (s : State) : Word × State :=
  let x := th s t
  let (pc, s1) := match x.state with
    | .killed | .halted | .double | .reset => (x.pc, s)
    | _ => let (w, s') := draw s; (w.toNat % 2 ^ 18, s')
  (toW (pc % 2 ^ 18 * 2 ^ 30 + privOf x * 2 ^ 28 + getF x.csr.tstat TS.th % 2 * 2 ^ 27 + b2n x.pkt.isSome * 2 ^ 26 +
    x.discard * 2 ^ 18 + x.cause * 2 ^ 12 + x.badcmd * 2 ^ 4 + b2n (inDoze x) * 8 + tCode x.state), s1)

/-- SPN_GRPSTAT of a group (R196). -/
def grpStat (s : State) (g : Nat) : Word :=
  let m := setBits 24 (grpMask s g)
  let run := m.filter (fun c => (clu s c).power == .run)
  let wak := m.filter (fun c => (clu s c).power == .wakingG || (clu s c).power == .wakingP || wakePending s c)
  toW (b2n (decide (0 < Tab.get 0 s.spawn.boost g)) * 2 ^ 47 + wak.length * 2 ^ 37 + run.length * 2 ^ 32 +
    min (2 ^ 18 - 1) (groupBacklog s g))

/-- One word of 48 sources' bits (R303). -/
def srcBits (p : Nat → Bool) (k : Nat) : Word :=
  toW ((List.range 48).foldl (fun n i => n + b2n (decide (48 * k + i < 2048) && p (48 * k + i)) * 2 ^ i) 0)

/-- R217: a thread with a packet. The turn reads and the passes of such threads are rows of their own. -/
def hasPacket (loc : Nat) (s : State) : Bool := decide (loc < 0xC00) && (th s loc).pkt.isSome

/-- CLU_LYABANDON counts the LYRs that had started when an older instruction's trap or a kill squashed them (R154); how
many of the instructions squashed since the last read were such LYRs is open. -/
def abandonCount (c : Nat) (s : State) : State :=
  let l := (List.range 16).map (fun k => c * 16 + k)
  let n := l.foldl (fun n k => n + (core s k).starts) 0
  let (w, s1) := draw s
  bumpBy (forEach l (fun k s => updCore s k (fun x => { x with starts := 0 })) s1) (Reg.CLU_LYABANDON c)
    F.CLU_LYABANDON_count (w.toNat % (n + 1))

/-- The value a register reads as; `none` where the read fails under R7. -/
def csrReadReg (loc : Nat) (r : RegDesc) (l : List Nat) (a : Nat) (s : State) : Option Word × State :=
  let i := l.headD 0
  let w := rd s a
  let pure_ := fun (v : Word) => (some v, s)
  let pop := fun (x : Word × State) => (some x.1, x.2)
  if absent r.id i s then (some 0, s)
  else
    match r.id with
    | .CLU_THSTAT => pop (thStat (i * 128 + l.getD 1 0) s)
    | .CLU_LYABANDON => let s1 := abandonCount i s; (some (rd s1 a), s1)
    | .CLU_PWRSTAT => pure_ (toW (b2n (wakePending s i) * 16 + b2n (cluIdle s i) * 8 + pCode (clu s i).power))
    | .SPN_GRPSTAT => pure_ (grpStat s i)
    | .BRG_STORE => pure_ (putF (putF w F.BRG_STORE_used (min 0x1FFF s.bridge.used)) F.BRG_STORE_waiting
        (min 0x3FFF s.bridge.waiting.length))
    | .BRG_CHILDSTAT => pure_ (putF w F.BRG_CHILDSTAT_used (if 16384 ≤ s.bridge.kidsUsed then 0x7FFF else s.bridge.kidsUsed))
    | .BRG_LANE_STAT =>
      let n := fld s Reg.BRG_LANE_SEL F.BRG_LANE_SEL_lane
      pure_ (toW (laneNext s n * 2 ^ 24 + laneHead s n))
    | .BRG_TURN => (none, s)
    | .BRG_PASS => if hasPacket loc s then pure_ 0 else (none, s)
    | .GKO_LOCK => pure_ (lockWord s i (agentId s loc))
    | .GKO_NOTIFY => pop (notifyPop i s)
    | .GKO_NOTSTAT => pure_ (putF w F.GKO_NOTSTAT_depth (Tab.get [] s.gecko.fifos i).length)
    | .EVT_PEND => pure_ (srcBits (fun n => evState s n != 0) i)
    | .EVT_OVR => pure_ (srcBits (fun n => flag s (Reg.EVT_CFG n) F.EVT_CFG_ovr) i)
    | .EVT_SVCQ => if loc = svcAgent then pop (svcqPop s) else (none, s)
    | .EVT_SVCQSTAT => pure_ (toW s.ev.svcq.length)
    | .HST_PFAULT => pop (pfaultPop s)
    | .HST_PFSTAT => pure_ (putF w F.HST_PFSTAT_depth s.host.pfault.length)
    | .HST_MBOXQ => pop (mboxqPop s)
    | .MC_REFLIMIT => pure_ (putF w F.MC_REFLIMIT_eff (refLimit s i))
    | .MAC_TXTS => pop (txtsPop i s)
    | .OBX_TIME_LO =>
      let n := domNow s
      (some (toW (n % 2 ^ 48)), { s with obx := { s.obx with hiLatch := n / 2 ^ 48 } })
    | .OBX_TIME_HI => pure_ (toW s.obx.hiLatch)
    | .CRS_PLLSTAT => pure_ (putF (putF w F.CRS_PLLSTAT_on (b2n (pllOn s i))) F.CRS_PLLSTAT_lock
        (b2n (s.clk.locked.contains i)))
    | .CRS_DOMSTAT => pure_ (putF w F.CRS_DOMSTAT_state (domState s i))
    | .BKG_NLSSTAT => pure_ (putF w F.BKG_NLSSTAT_today (erasesToday s))
    | _ => pure_ (w &&& ~~~(BitVec.ofNat 48 r.wo))

/-- A read of the CSR at an offset. -/
def csrRead (loc a : Nat) (s : State) : Option Word × State :=
  match findReg regTable a with
  | none => (none, s)
  | some (r, l) => csrReadReg loc r l a s

/-! ## Writes -/

/-- The access types RW, W1C and W1S (R13); reserved and read-only bits stay (R10). -/
def csrPlain (r : RegDesc) (a : Nat) (v : Word) (s : State) : State :=
  let m := fun (n : Nat) => BitVec.ofNat 48 n
  wr s a (((rd s a &&& ~~~(m r.rw) &&& ~~~(m r.w1c &&& v)) ||| (v &&& m r.rw)) ||| (v &&& m r.w1s))

/-- A BW write (R13, R510): the Service Newt's before BOOT_SEAL sets the value; any other is refused. -/
def csrBoot (loc : Nat) (r : RegDesc) (a : Nat) (v : Word) (s : State) : State :=
  if loc = svcAgent ∧ !isSealed s then
    if a = Reg.CRS_BOOT then (if getF v F.CRS_BOOT_dev_rel = 1 then devRelease s else s)
    else
      let m : Word := BitVec.ofNat 48 r.bw
      wr s a ((rd s a &&& ~~~m) ||| (v &&& m))
  else bwRefused (agentId s loc) (classOf s (agentId s loc)) s

/-- `v` with a field held between two limits. -/
def held (f : Fld) (lo hi : Nat) (v : Word) : Word := putF v f (max lo (min hi (getF v f)))

/-- A write to a register that only changes the register: its value after the limits its fields have, none where the
write is ignored. -/
def csrLimit (id : RegId) (i : Nat) (v : Word) (s : State) : Option Word :=
  let when_ := fun (b : Bool) => if b then some v else none
  match id with
  | .STR_LIVE_CTL => some (held F.STR_LIVE_CTL_max_defer 1 255 v)
  | .SPN_POLICY => some (held F.SPN_POLICY_quiet_max 1 24 v)
  | .SPN_QLIM => some (held F.SPN_QLIM_limit 1 131072 v)
  | .TBL_T_CFG =>
    let v1 := held F.TBL_T_CFG_period 1 65535 v
    some (if tKind s i ≠ 1 then putF v1 F.TBL_T_CFG_age_en (fld s (Reg.TBL_T_CFG i) F.TBL_T_CFG_age_en) else v1)
  | .TBL_CMD_D0 | .TBL_CMD_D1 | .TBL_CMD_D2 | .TBL_CMD_ACT | .TBL_CMD_LOC =>
    when_ (!flag s Reg.TBL_CMD_STAT F.TBL_CMD_STAT_busy)
  | .EVT_WG_CTL =>
    some (if getF v F.EVT_WG_CTL_cluster < 24 then v else putF v F.EVT_WG_CTL_cluster (fld s (Reg.EVT_WG_CTL i) F.EVT_WG_CTL_cluster))
  | .MC_PDTIMER => some (held F.MC_PDTIMER_timer 16 65535 v)
  | .HST_CTO => some (held F.HST_CTO_limit 50 65535 v)
  | .HST_TXQ_BASE => when_ (!flag s (Reg.HST_TXQ_CFG i) F.HST_TXQ_CFG_en)
  | .HST_RXQ_BASE | .HST_RXQ_CBASE => when_ (!flag s (Reg.HST_RXQ_CFG i) F.HST_RXQ_CFG_en)
  | .MAC_FCQ => some (held F.MAC_FCQ_quanta 2 65535 v)
  | .OBX_TAG => when_ (!obxJoined s)
  | .OBX_MEMBER => some (if i = 21 then v &&& 0xFFFF else v)
  | .EPC_T0_LO | .EPC_T0_HI | .EPC_ANCHOR => when_ (!epcRun s)
  | .DST_HB => some (held F.DST_HB_period 10 10000 v)
  | .DST_LOG | .DST_SHADOW | .DST_PSHADOW | .DST_LOCKS | .DST_RBASE | .DST_RLEN => when_ (!dstEn s)
  | .PWR_THERM => some (held F.PWR_THERM_trip 0 120 v)
  | .SVC_UART => some (held F.SVC_UART_baud 9600 3000000 v)
  | .BKG_SCRUB => some (held F.BKG_SCRUB_period 1 168 v)
  | .BKG_TRING_BASE => when_ (!flag s Reg.BKG_TRING_CFG F.BKG_TRING_CFG_en)
  | _ => some v

/-- Writes that act on the cores, Lyre, Spawn, Bridge, the BPM and the tables (R132–R134, R161, R196, R221, R247,
R267, R278); `none` for a register of another block. `p` is the state after the plain effect of the write. -/
def csrActA (r : RegDesc) (i j : Nat) (v : Word) (p s : State) : Option State :=
  let clr := fun (f : Fld) (g : State → State) => some (if getF v f = 1 then g p else p)
  match r.id with
  | .STR_STAGE_CMD => some (stageCmd v s)
  | .STR_STAGE_ADDR | .STR_STAGE_LEN => some (if stageShut s then stageBusy s else p)
  | .CLU_CTL =>
    let p1 := if flag p (Reg.CLU_CTL i) F.CLU_CTL_dchk_en == flag s (Reg.CLU_CTL i) F.CLU_CTL_dchk_en then p
      else updClu p i (fun c => { c with dchkAt := some p.now })
    some (if getF v F.CLU_CTL_clr = 1 then cluCtlClr i p1 else p1)
  | .CLU_CORE_RST => some (coreReset i v s)
  | .CLU_THCMD => some (thCommand (i * 128 + j) v s)
  | .CLU_LYCTL => clr F.CLU_LYCTL_clr (lyrClr i)
  | .CLU_LYFLUSH => some (lyrFlush i v s)
  | .SPN_CTL => clr F.SPN_CTL_clr spnClr
  | .SPN_STORE | .SPN_BP_ETH | .SPN_BP_HOST | .SPN_BP_FAB => some (bpUpdate (storeSet p p.spawn.stored))
  | .CLU_PWRCTL => some (pwrctlWrite i v s)
  | .BRG_CTL => clr F.BRG_CTL_clr brgClr
  | .BPM_CTL => clr F.BPM_CTL_clr bpmClr
  | .BPM_REBUILD_CMD =>
    some (if getF v F.BPM_REBUILD_CMD_go = 1 then bpUpdate (rebuildGo (getF v F.BPM_REBUILD_CMD_pool) s) else s)
  | .BPM_PXON => some (bpUpdate (xonCheck p i))
  | .TBL_CTL =>
    let p1 := if getF v F.TBL_CTL_max_path = 0 then setFld p Reg.TBL_CTL F.TBL_CTL_max_path 1 else p
    some (if getF v F.TBL_CTL_clr = 1 then tblClr p1 else p1)
  | .TBL_CMD => some (tableCommand v s)
  | _ => none

/-- Writes that act on Gecko, events, memory controllers, hosts and Ethernet (R281, R302, R303, R339, R364, R382).
`who` and `gen` are the requester's agent ID and generation. -/
def csrActB (who gen : Nat) (r : RegDesc) (i j : Nat) (v : Word) (p s : State) : Option State :=
  let clr := fun (f : Fld) (g : State → State) => some (if getF v f = 1 then g p else p)
  match r.id with
  | .GKO_LOCK => some (obxPump (gkoCommand i who gen v s))
  | .GKO_CTL =>
    let p1 := if getF v F.GKO_CTL_rsv_ext = 0 then setFld p Reg.GKO_CTL F.GKO_CTL_rsv_ext 1 else p
    some (if getF v F.GKO_CTL_clr = 1 then gkoClr p1 else p1)
  | .EVT_CFG => some (evCfgWrite i v s)
  | .EVT_CTL => clr F.EVT_CTL_clr (fun s => wr s Reg.EVT_STAT 0)
  | .EVT_RING => some (doorbell (getF v F.EVT_RING_bell) s)
  | .MC_CTL => clr F.MC_CTL_clr (mcClr i)
  | .MC_REFLIMIT => some (showLimit i p)
  | .MC_PEGCMD => some (pegCmd i v s)
  | .MC_RTCFG => some (rtcfgWrite i j v s)
  | .HST_CTL => clr F.HST_CTL_clr hstClr
  | .HST_LINK =>
    let a := Reg.HST_LINK i
    let s1 := setFld s a F.HST_LINK_mld (getF v F.HST_LINK_mld)
    let s2 := if getF v F.HST_LINK_vfs ≤ maxVfs s i then setFld s1 a F.HST_LINK_vfs (getF v F.HST_LINK_vfs) else s1
    some (if getF v F.HST_LINK_half_reset = 1 then halfRearm 2 i s2 else s2)
  | .HST_TXQ_CFG => some (txqCfgWrite i v s)
  | .HST_RXQ_CFG => some (rxqCfgWrite i v s)
  | .MAC_PCFG => some (pcfgWrite i 0 none v s)
  | .MAC_PSTAT => some (if getF v F.MAC_PSTAT_half_reset = 1 then portRearm i s else s)
  | .MAC_CTL => clr F.MAC_CTL_clr (macClr i)
  | _ => none

/-- Writes that act on Obrex, Strum and pairs (R418, R447, R448). -/
def csrActC (r : RegDesc) (i : Nat) (v : Word) (p s : State) : Option State :=
  let clr := fun (f : Fld) (g : State → State) => some (if getF v f = 1 then g p else p)
  match r.id with
  | .OBX_ID => some (obxIdWrite v s)
  | .OBX_CTL => clr F.OBX_CTL_clr obxClr
  | .OBX_NOTICE_CMD => some (noticeCmd v s)
  | .OBX_TIME_CTL => some (timeStat p)
  | .OBX_TIME_SET => some (timeSet v.toNat s)
  | .OBX_LCFG => some (lcfgWrite i v s)
  | .OBX_LSTAT => some (if getF v F.OBX_LSTAT_half_reset = 1 then linkRearm i s else s)
  | .EPC_CTL => some (epcCtlWrite v s)
  | .EPC_COMMIT =>
    let s1 := commitWrite v s
    some (if getF v F.EPC_COMMIT_withdraw = 1 ∨ getF v F.EPC_COMMIT_discard = 1 then planStage s1 else s1)
  | .DST_CFG => some (dstCfgWrite v s)
  | .DST_CMD => some (dstCmd v s)
  | _ => none

/-- SVC_BOOT: skip is RW; quar and settings_ok are W1S, settings_ok ignored while quar is 1 (R518). -/
def svcBootWrite (v : Word) (s : State) : State :=
  let a := Reg.SVC_BOOT
  let quar := flag s a F.SVC_BOOT_quar
  let s1 := setFld s a F.SVC_BOOT_skip (getF v F.SVC_BOOT_skip)
  let s2 := if getF v F.SVC_BOOT_quar = 1 then setFld s1 a F.SVC_BOOT_quar 1 else s1
  if getF v F.SVC_BOOT_settings_ok = 1 ∧ !quar then setFld s2 a F.SVC_BOOT_settings_ok 1 else s2

/-- Writes that act on clocks, power, boot and the background (R474, R499, R538, R539, R553). -/
def csrActD (loc : Nat) (r : RegDesc) (i : Nat) (v : Word) (p s : State) : Option State :=
  let clr := fun (f : Fld) (g : State → State) => some (if getF v f = 1 then g p else p)
  match r.id with
  | .CRS_CTL => clr F.CRS_CTL_clr crsClr
  | .CRS_CLURST => some (cluRst v s)
  | .CRS_CLUHOLD => some (cluHoldWrite v s)
  | .CRS_DOMSTAT => clr F.CRS_DOMSTAT_ovr (fun s => setFld s (Reg.CRS_DOMSTAT i) F.CRS_DOMSTAT_loss 0)
  | .PWR_CTL => clr F.PWR_CTL_clr pwrClr
  | .PWR_STATE => some (pwrStateWrite v s)
  | .PWR_VIN => some (if getF v F.PWR_VIN_holdup = 1 then holdupClear s else s)
  | .SVC_CTL => clr F.SVC_CTL_clr svcClr
  | .SVC_BOOT => some (svcBootWrite v s)
  | .SVC_CMD => some (svcCmd (getF v F.SVC_CMD_cmd) (getF v F.SVC_CMD_arg) s)
  | .SVC_PORT =>
    let s1 := setFld s Reg.SVC_PORT F.SVC_PORT_mode (getF v F.SVC_PORT_mode)
    some (if getF v F.SVC_PORT_half_reset = 1 then halfRearm 3 0 s1 else s1)
  | .PRT_SEAL => some (if getF v F.PRT_SEAL_seal = 1 then bootSeal loc s else s)
  | .BKG_CTL => clr F.BKG_CTL_clr bkgClr
  | .BKG_TRING_CFG => some (tringWrite v s)
  | _ => none

/-- A write of a register; `false` where it fails under R7. -/
def csrWriteReg (loc gen : Nat) (r : RegDesc) (l : List Nat) (a : Nat) (v : Word) (s : State) : Bool × State :=
  let i := l.headD 0
  let j := l.getD 1 0
  if absent r.id i s then (true, s)
  else if r.id = .BRG_TURN then (hasPacket loc s, s)
  else if r.id = .BRG_PASS then (false, s)
  else if r.bw ≠ 0 then (true, csrBoot loc r a v s)
  else if r.sw ≠ 0 then (true, swWrite a v s)
  else
    let p := csrPlain r a v s
    match csrActA r i j v p s with
    | some s1 => (true, s1)
    | none =>
      match csrActB (agentId s loc) gen r i j v p s with
      | some s1 => (true, s1)
      | none =>
        match csrActC r i v p s with
        | some s1 => (true, s1)
        | none =>
          match csrActD loc r i v p s with
          | some s1 => (true, s1)
          | none =>
            match csrLimit r.id i v s with
            | some w => (true, csrPlain r a w s)
            | none => (true, s)

/-- A write of the CSR at an offset. -/
def csrWrite (loc gen a : Nat) (v : Word) (s : State) : Bool × State :=
  match findReg regTable a with
  | none => (false, s)
  | some (r, l) => csrWriteReg loc gen r l a v s

/-- The CSR is reachable: AON's blocks always, the others once DEV is released (R464, R536). -/
def csrUp (a : Nat) (s : State) : Bool := aonReg a || devUp s

end Sys2Proof.Machine
end

