-- ==== Sys2Proof/Machine/NewtPacket.lean ====
section
/-! DEFINITION. Packet and helper operations of the Newt core (R99–R102, R205, R235, R238, R255, R268). -/

namespace Sys2Proof.Machine

/-! ## Packet operations -/

/-- A packet operation at a window offset (R99): NO_PACKET, then a range that leaves the window, then TOKEN_BUSY. `body`
gets the offset and the window's data buffers. -/
def packetOp (t : Nat) (w : Word) (undef : Bool) (acc : Acc) (n : Nat) (body : Nat → List (Nat × Nat) → State → State)
    (s : State) : State :=
  issue s t w undef false { acc with c := [0x400] } (fun s =>
    let (a, s1) := readG s t (iA w)
    let o := (a + iSimm17 w).toNat
    if (th s1 t).pkt.isNone then trapNoPacket s1 t w
    else
      let bufs := dataBufs s1 (slotBufs s1 t) (slotChain s1 t)
      if windowSize bufs < o + n then trapAddr s1 t o
      else if tokBusy s1 t (iTok w) then trapTokBusy s1 t (iTok w)
      else body o bufs s1)

/-- A PLD (R99): the tiles it is the thread's first to touch are verified when it executes. -/
def pldOp (t : Nat) (w : Word) (s : State) : State :=
  let n := widthOf (iOpcode w - 0x80)
  packetOp t w (iB w != 0 || !tokenOk w false) { g := [iA w], wg := [iD w] } n (fun o bufs s =>
    let x := th s t
    let first := (windowTiles bufs o n).filter (fun tl => !x.touched.contains tl)
    let links := linksFor (chainLinks s (slotBufs s t) (slotChain s t)) (windowIdx bufs (o + n - 1))
    let s1 := commitOp s t (iTok w) (iD w) .packet (.pld (windowAddrs bufs o n) links first)
    finishSeq (updTh s1 t (fun x => { x with touched := x.touched ++ first })) t) s

def execPld (t : Nat) (w : Word) (s : State) : Out := newt [0x80, 0x81, 0x82, 0x83, 0x84] t w (pldOp t w) s

/-- A PST (R99): d zero, token or posted. -/
def pstOp (t : Nat) (w : Word) (s : State) : State :=
  let n := widthOf (iOpcode w - 0x85)
  packetOp t w (iD w != 0 || !tokenOk w true) { g := [iA w, iB w] } n (fun o bufs s =>
    let (v, s1) := readG s t (iB w)
    finishSeq (commitOp s1 t (iTok w) 0 .packet (.pst (windowAddrs bufs o n) (v.toNat % 256 ^ n))) t) s

def execPst (t : Nat) (w : Word) (s : State) : Out := newt [0x85, 0x86, 0x87, 0x88, 0x89] t w (pstOp t w) s

/-- TSEAL (R99, R100): d and b zero; the first-touch record of its tile clears when it commits, and again when it seals
the tile (DESIGN CHOICE, log 86: R100 does not say when). -/
def tsealOp (t : Nat) (w : Word) (s : State) : State :=
  packetOp t w (iD w != 0 || iB w != 0 || !tokenOk w true) { g := [iA w] } 1 (fun o bufs s =>
    let tl := tileAt ((windowAddr bufs o).getD 0)
    let s1 := commitOp s t (iTok w) 0 .packet (.tseal tl)
    finishSeq (updTh s1 t (fun x => { x with touched := x.touched.filter (· != tl) })) t) s

def execTseal (t : Nat) (w : Word) (s : State) : Out := newt [0x8A] t w (tsealOp t w) s

/-- RELEASE (R101): d and [20:0] zero. -/
def execRelease (t : Nat) (w : Word) (s : State) : Out :=
  newt [0x8B] t w (fun s =>
    issue s t w (iD w != 0 || iFn w != 0) false { g := [iA w, iB w] } (fun s =>
      let (a, s1) := readG s t (iA w)
      let (b, s2) := readG s1 t (iB w)
      if (th s2 t).pkt.isNone then trapNoPacket s2 t w else endPacket s2 t true a b)) s

/-- DROP (R101): every operand field zero. -/
def execDrop (t : Nat) (w : Word) (s : State) : Out :=
  newt [0x8C] t w (fun s =>
    issue s t w (bitsN w.toNat 35 0 != 0) false {} (fun s =>
      if (th s t).pkt.isNone then trapNoPacket s t w else endPacket s t false 0 0)) s

/-- FORK (R205): the child is made, or refused, in commit order; the result is delivered at completion. -/
def execFork (t : Nat) (w : Word) (s : State) : Out :=
  newt [0x8D] t w (fun s =>
    issue s t w (bitsN w.toNat 16 0 != 0 || !(tokenOk w false || (iTok w == 8 && iD w == 0))) false
      { g := [iA w, iB w], c := [0x400], wg := [iD w] } (fun s =>
      let (a, s1) := readG s t (iA w)
      let (b, s2) := readG s1 t (iB w)
      match (th s2 t).pkt with
      | none => trapNoPacket s2 t w
      | some d =>
        if tokBusy s2 t (iTok w) then trapTokBusy s2 t (iTok w)
        else
          let (r, s3) := forkApply d a b s2
          finishSeq (commitOp s3 t (iTok w) (iD w) .packet (.known 0 r)) t)) s

/-! ## Helper operations (R102) -/

/-- Near operand of a helper operation at g[a] (R89, R102): its bytes, or the trap it raises, in the order of R122. An
operand of no bytes, that of a table no image defines, is checked as any other, so that its trap comes before the ERROR
of R102 (DESIGN CHOICE, log 87). -/
def helperNear (s : State) (t : Nat) (w : Word) (n : Nat) (body : List Byte → State → State) : State :=
  let (a, s1) := readG s t (iA w)
  match (if dchkOn s1 t then nearClose s1 t (nearBytes s1 t a.toNat n) else none) with
  | some h => trapDist s1 t (distHaz 6 0 h)
  | none =>
    match nearMap s1 t a.toNat n false with
    | .noPacket => trapNoPacket s1 t w
    | .addrError => trapAddr s1 t a.toNat
    | .priv => trapPrivAddr s1 t a.toNat
    | .bytes l =>
      if tokBusy s1 t (iTok w) then trapTokBusy s1 t (iTok w)
      else
        let (bs, s2) := nearLoad (if l.any (·.isCoreReg) then sampleCore (t / 8) s1 else s1) t l
        body bs s2

/-- LKUP (R255): b and [11:0] zero, token required. A table the image does not define completes with ERROR. -/
def execLkup (t : Nat) (w : Word) (s : State) : Out :=
  newt [0x90] t w (fun s =>
    issue s t w (iB w != 0 || bitsN w.toNat 11 0 != 0 || !tokenOk w false) false
      { g := [iA w], c := [0x400], wg := [iD w] } (fun s =>
      let k := iTable w
      helperNear s t w (tKeyBytes s k) (fun bs s =>
        finishSeq (commitOp s t (iTok w) (iD w) .helper (if tKind s k = 0 then .known 3 0 else .lkup k bs)) t))) s

/-- LEARN (R268): d, b and [11:0] zero, token or posted. An undefined or a prefix table completes with ERROR. -/
def execLearn (t : Nat) (w : Word) (s : State) : Out :=
  newt [0x91] t w (fun s =>
    issue s t w (iD w != 0 || iB w != 0 || bitsN w.toNat 11 0 != 0 || !tokenOk w true) false
      { g := [iA w], c := [0x400] } (fun s =>
      let k := iTable w
      helperNear s t w (tKeyBytes s k + tActBytes s k) (fun bs s =>
        finishSeq (commitOp s t (iTok w) 0 .helper (if tKind s k = 1 then .learn k bs else .known 3 0)) t))) s

/-- BALLOC (R102, R235, R237): b, table and [11:0] zero, token required. The chosen pool's request waits for
BPM_ALLOCATION; a size of 0, above 65,536, or no pool large enough completes with ERROR. -/
def execBalloc (t : Nat) (w : Word) (s : State) : Out :=
  newt [0x92] t w (fun s =>
    issue s t w (iB w != 0 || bitsN w.toNat 16 0 != 0 || !tokenOk w false) false
      { g := [iA w], c := [0x400], wg := [iD w] } (fun s =>
      let (a, s1) := readG s t (iA w)
      if tokBusy s1 t (iTok w) then trapTokBusy s1 t (iTok w)
      else
        let size := a.toNat
        let pool := if size = 0 ∨ 65536 < size then none else ballocPool s1 (quadOf (thCluster t)) size
        match pool with
        | none => finishSeq (commitOp s1 t (iTok w) (iD w) .helper (.known 3 0)) t
        | some p =>
          let id := s1.nextOp
          let s2 := commitOp s1 t (iTok w) (iD w) .helper (.balloc size)
          finishSeq { s2 with bpm := { s2.bpm with
            allocQ := s2.bpm.allocQ ++ [{ pool := p, port := thCluster t, op := id + 1 }] } } t)) s

/-- BFREE (R238, R511): d, b, table and [11:0] zero, token or posted. An address the map denies for writing, or one in
no pool, frees nothing and completes with ERROR; else the free waits for BPM_FREE. -/
def execBfree (t : Nat) (w : Word) (s : State) : Out :=
  newt [0x93] t w (fun s =>
    issue s t w (iD w != 0 || iB w != 0 || bitsN w.toNat 16 0 != 0 || !tokenOk w true) false
      { g := [iA w], c := [0x400] } (fun s =>
      let (a, s1) := readG s t (iA w)
      if tokBusy s1 t (iTok w) then trapTokBusy s1 t (iTok w)
      else
        let priv := privOf (th s1 t)
        if !allowed s1 priv a.toNat false true then
          finishSeq (commitOp (denied (agentId s1 t) priv a.toNat true s1) t (iTok w) 0 .helper (.known 3 0)) t
        else if (poolOf s1 a.toNat).isNone then
          finishSeq (commitOp (freeError s1 a.toNat) t (iTok w) 0 .helper (.known 3 0)) t
        else
          let id := s1.nextOp
          let s2 := commitOp s1 t (iTok w) 0 .helper (.bfree a.toNat)
          finishSeq (freeReq (thCluster t) (some id) a.toNat s2) t)) s

end Sys2Proof.Machine
end

