-- ==== Sys2Proof/Machine/AsyncRows.lean ====
section
/-! DEFINITION. Completion and timeout of asynchronous operations (R81–R86, R88, R99, R100, R313, R330). -/

namespace Sys2Proof.Machine

/-! ## What holds an operation back -/

/-- Two accesses to Gecko's locks keep their order within a thread (R284). -/
def bothLocks (a b : Nat) : Bool :=
  let lock := fun (x : Nat) => decide (0xF000000000 + Reg.GKO_LOCK 0 ≤ x) && decide (x ≤ 0xF000000000 + Reg.GKO_LOCK 4095)
  lock a && lock b

/-- An earlier operation that must be done first: a far access of the same source ID to the same controller, which is
accepted there in the order of issue (R313; log 93), and of the same thread a lock command (R284) or a use of its tile. -/
def ordered (s : State) (p o : AsyncOp) : Bool :=
  decide (p.id < o.id) &&
    ((p.kind.far.isSome && o.kind.far.isSome && (opRequests s p).any (fun x => (opRequests s o).any x.kept)) ||
      (p.thread == o.thread &&
        ((match p.kind.far, o.kind.far with
          | some a, some b => bothLocks a b
          | _, _ => false) || p.kind.tiles.any (fun tl => o.kind.tiles.contains tl))))

/-- A store that finds the held writes full waits (R428). -/
def heldBack (s : State) (k : OpKind) : Bool :=
  match k with
  | .store a _ _ =>
    match regionOf a with
    | .csr off => holdFull s && (decide (swMask off ≠ 0) || off == Reg.EPC_COMMIT)
    | _ => false
  | _ => false

def asyncWaits (s : State) (o : AsyncOp) : Bool :=
  s.ops.any (fun p => ordered s p o) || (opRequests s o).any (fun r => unitBusy s r.addr) || heldBack s o.kind

/-! ## Effects: status, value and state -/

/-- Bytes of memory as a thread's load sees them: one of a dst buffer of a Lyre operation is old or the result (R149). -/
def memSeen (s : State) : List Nat → List Byte × State
  | [] => ([], s)
  | a :: r =>
    let (b, s1) := lyrOldNew ((List.range 24).any (fun c => lyrWriting s c a)) (rdByte s.mem a) s
    let (bs, s2) := memSeen s1 r
    (b :: bs, s2)

/-- A far load (R98): of a CSR, or of memory. -/
def loadRun (t a n : Nat) (signed : Bool) (ecc : Nat) (s : State) : Nat × Word × State :=
  match regionOf a with
  | .csr off =>
    match csrRead t off s with
    | (some v, s1) => (0, v, s1)
    | (none, s1) => (3, 0, s1)
  | _ =>
    if !populated s a then (3, 0, s)
    else
      let (bad, s1) := memReadCheck s a n ecc
      if bad then (4, 0, s1)
      else
        let (l, s2) := memSeen s1 ((List.range n).map (a + ·))
        (0, extLoad signed n (leNat l), s2)

/-- A far store (R98): to a CSR, or to memory. -/
def storeRun (t gen a n v : Nat) (s : State) : Nat × Word × State :=
  match regionOf a with
  | .csr off =>
    let (ok, s1) := csrWrite t gen off (toW v) s
    (if ok then 0 else 3, 0, s1)
  | _ =>
    if !populated s a then (3, 0, s)
    else
      let (bad, s1) := memWrite s a (leBytes n v)
      (if bad then 4 else 0, 0, s1)

/-- A far atomic (R98): with an error in its slot it stores nothing. -/
def atomRun (fn a v c ecc : Nat) (s : State) : Nat × Word × State :=
  if !populated s a then (3, 0, s)
  else
    let (bad, s1) := memReadCheck s a 8 ecc
    if bad then (4, 0, s1)
    else
      let (old, s2) := memAtomic s1 a fn v c
      (0, old, s2)

/-- Reads of the 64-byte lines numbered; `ecc` is the outcome of the first. `true` is poison. -/
def readLines : Nat → List Nat → State → Bool × State
  | _, [], s => (false, s)
  | ecc, u :: r, s =>
    let (a, s1) := memReadCheck s (u * 64) 64 ecc
    let (b, s2) := readLines 0 r s1
    (a || b, s2)

/-- A PLD's verification of a sealed tile (R226): an error in its bytes fails it too (R228, R315). -/
def pldTile (link : Bool) (ecc tl : Nat) (s : State) : Bool × State :=
  let (v, s1) := tileRead s tl ecc
  if v.sealed && (v.bad || v.poison) then (true, tileFail 1 tl link (checkBad s1 tl) s1) else (false, s1)

/-- Verification of tiles; `ecc` is the error of the first one's read. -/
def pldTiles (link : Bool) : Nat → List Nat → State → Bool × State
  | _, [], s => (false, s)
  | ecc, tl :: r, s =>
    let (a, s1) := pldTile link ecc tl s
    let (b, s2) := pldTiles link 0 r s1
    (a || b, s2)

/-- What earlier PSTs of the thread, not yet done, would put at an address (R100). -/
def pstBytes (s : State) (o : AsyncOp) (a : Nat) : List Byte :=
  s.ops.filterMap (fun p =>
    match p.kind with
    | .pst as v =>
      if p.thread == o.thread && decide (p.id < o.id) then
        (as.idxOf? a).map (fun i => BitVec.ofNat 8 (v / 256 ^ i))
      else none
    | _ => none)

/-- The bytes a PLD returns: each is old or new while such a PST is pending. -/
def pldBytes (o : AsyncOp) : List Nat → State → List Byte × State
  | [], s => ([], s)
  | a :: r, s =>
    let (b, s1) := lyrOldNew ((List.range 24).any (fun c => lyrWriting s c a)) (rdByte s.mem a) s
    let (x, s2) := choose s1 b (pstBytes s o a)
    let (bs, s3) := pldBytes o r s2
    (x :: bs, s3)

/-- PLD (R99): the links that locate its buffers and the tiles it touches first are verified, and the lines of the others
it reads only read. -/
def pldRun (o : AsyncOp) (addrs links first : List Nat) (ecc : Nat) (s : State) : Nat × Word × State :=
  let rest := ((addrs.filter (fun a => !first.contains (tileAt a))).map (· / 64)).eraseDups
  let (lb, s1) := pldTiles true ecc links s
  let e1 := if links.isEmpty then ecc else 0
  let (tb, s2) := pldTiles false e1 first s1
  let (psn, s3) := readLines (if first.isEmpty then e1 else 0) rest s2
  let opn := addrs.filter (fun a => !(tileGet s3 (tileAt a)).1)
  let psn1 := psn || opn.any (fun a => poisoned s3 a 1 || retiredAt s3 a)
  let (bs, s4) := pldBytes o addrs s3
  (if lb || tb then 5 else if psn1 then 4 else b2n !opn.isEmpty, toW (leNat bs), s4)

/-- Consecutive addresses as runs. -/
def byteRuns : List (Nat × Byte) → List (Nat × List Byte)
  | [] => []
  | (a, b) :: r =>
    match byteRuns r with
    | (x, l) :: rs => if x = a + 1 then (a, b :: l) :: rs else (a, [b]) :: (x, l) :: rs
    | [] => [(a, [b])]

/-- PST (R99): stores and opens the tiles it stores to. -/
def pstRun (addrs : List Nat) (v : Nat) (s : State) : Nat × Word × State :=
  let (bad, s1) := (byteRuns (addrs.zip (leBytes addrs.length v))).foldl
    (fun (p : Bool × State) e => let q := memWrite p.2 e.1 e.2; (p.1 || q.1, q.2)) (false, s)
  let s2 := forEach ((addrs.map tileAt).eraseDups) (fun tl s => writeTile s tl) s1
  (if bad then 4 else 0, 0, s2)

/-- The work of an operation at its target; `none` while its target has not answered, and for the kinds that end by rows
of their own. -/
def asyncRun (o : AsyncOp) (ecc : Nat) (s : State) : Option (Nat × Word × State) :=
  match o.kind with
  | .load a n sg =>
    match regionOf a with
    | .csr off => if Reg.BRG_TURN 0 ≤ off ∧ off ≤ Reg.BRG_TURN 3 then none else some (loadRun o.thread a n sg ecc s)
    | _ => some (loadRun o.thread a n sg ecc s)
  | .store a n v => some (storeRun o.thread ((th s o.thread).gen + b2n o.dead) a n v s)
  | .atom fn a v c => some (atomRun fn a v c ecc s)
  | .pld as links first => some (pldRun o as links first ecc s)
  | .pst as v => some (pstRun as v s)
  | .tseal tl => some (0, 0, updTh (sealTile s tl) o.thread (fun x => { x with touched := x.touched.filter (· != tl) }))
  | .known st v => some (st, v, s)
  | .balloc _ => o.result.map (fun r => (r.1, r.2, s))
  | .bfree _ => o.result.map (fun r => (r.1, r.2, s))
  | .lkup t key => some (lookup (lookupError s t key ecc) t key)
  | .learn t img =>
    let k := tKeyBytes s t
    let (ok, s1) := pushLearn s t (img.take k) (leNat (img.drop k)) false (64 + o.thread)
    some (b2n !ok, 0, s1)
  | _ => none

/-- ASYNC_COMPLETION (R82) of operation `id`; `ecc` is the error its first memory read meets: 0 none, 1 corrected,
2 uncorrectable, 3 uncorrectable in the check entry of the first tile it verifies. -/
def execAsyncCompletion (id ecc : Nat) (s : State) : Out :=
  if 4 ≤ ecc then .refused .illFormed
  else
    match opOf s id with
    | none => .next s
    | some o =>
      if asyncWaits s o then .next s
      else
        match asyncRun o ecc s with
        | none => .next s
        | some (st, v, s1) =>
          match opOf s1 id with
          | none => .next s1
          | some o1 => .next (complete o1 st v s1)

/-- ASYNC_TIMEOUT (R85) of operation `id`; a turn read that times out leaves Bridge (R215). -/
def execAsyncTimeout (id : Nat) (s : State) : Out :=
  match opOf s id with
  | none => .next s
  | some o =>
    if o.late || o.dead then .next s
    else
      let s1 := expireOp s o
      let s2 := match o.kind with
        | .turn _ _ _ => dropOp s1 id
        | _ => s1
      .next (settle o.thread s2)

end Sys2Proof.Machine
end

