-- ==== Sys2Proof/Machine/CsrRows.lean ====
section
/-! DEFINITION. Register writes from outside the cores, the board management controller, and the start of run-time
firmware (R13, R344, R513, R518, R536). -/

namespace Sys2Proof.Machine

/-! ## CSR accesses of the Service Newt, host functions and the board management controller -/

/-- An access of `n` bytes to the CSR at an offset (R9, R511–R513, R536): its status, 0 OK, 1 denied, 2 failed under R7,
and its value. -/
def csrAccess (loc off n : Nat) (write : Bool) (f : State → Option Word × State) (s : State) : Nat × Word × State :=
  let who := agentId s loc
  let cls := classOf s who
  let a := 0xF000000000 + off
  if !allowed s cls a (!write) write then (1, 0, denied who cls a write s)
  else if n ≠ 8 ∨ off % 8 ≠ 0 ∨ !csrUp off s then (2, 0, s)
  else
    match f s with
    | (some v, s1) => (0, v, s1)
    | (none, s1) => (2, 0, s1)

/-- A write as an access. -/
def writing (loc off : Nat) (v : Word) (s : State) : Option Word × State :=
  let (ok, s1) := csrWrite loc 0 off v s
  (if ok then some 0 else none, s1)

/-- A write that finds the hold of R428 full: its access completes once the hold ends. -/
def mustWait (s : State) (off : Nat) (write : Bool) : Bool :=
  write && holdFull s && (swMask off != 0 || off == Reg.EPC_COMMIT)

/-- An access ends: what its requester is told. The Service Newt sees 3 for an ERROR, the board management controller the
status of R536, and a host Completer Abort as 1 and Unsupported Request as 2; a host's write is told only if it fails. -/
def csrTell (loc off : Nat) (write : Bool) (s : State) (r : Nat × Word × State) : State :=
  if r.1 = 0 ∧ mustWait s off write then
    if loc = svcAgent ∨ loc = bmcAgent then { r.2.2 with epc := { r.2.2.epc with late := r.2.2.epc.late ++ [loc] } } else r.2.2
  else if loc = svcAgent then emit r.2.2 (.reg loc (if r.1 = 0 then 0 else 3) r.2.1)
  else if loc = bmcAgent ∨ !write ∨ r.1 = 2 then emit r.2.2 (.reg loc r.1 r.2.1)
  else r.2.2

/-- An access by a requester: a host function reaches CSRs through BAR0, which only a physical function has (R344), and the
board management controller while PORST_N is high and its previous access has completed (R536). -/
def csrBy (loc off n : Nat) (write : Bool) (f : State → Option Word × State) (s : State) : State :=
  if loc = bmcAgent then
    if s.svc.porst then s
    else if s.epc.late.contains bmcAgent then emit s (.reg bmcAgent 3 0)
    else csrTell loc off write s (csrAccess loc off n write f s)
  else if loc = svcAgent then csrTell loc off write s (csrAccess loc off n write f s)
  else if !fnEnabled s loc then s
  else if loc ≠ pfOf s (hostLinkOfFn s loc) ∨ 0x1000000 ≤ off then emit s (.reg loc 2 0)
  else csrTell loc off write s (csrAccess loc off n write f s)

def csrReadBy (loc off n : Nat) (s : State) : State := csrBy loc off n false (csrRead loc off) s
def csrWriteBy (loc off n : Nat) (v : Word) (s : State) : State := csrBy loc off n true (writing loc off v) s

/-- Who reads and writes CSRs from outside the cores. -/
def outside (loc : Nat) : Bool := loc == svcAgent || loc == bmcAgent || (decide (0x1000 ≤ loc) && decide (loc < 0x1400))

/-! ## Function pages and the CXL component registers (R344, R345) -/

/-- A host's write of `n` bytes to a function's page: a doorbell's 8 bytes from their start, a mailbox byte by byte, dwords
of the MSI-X table. -/
def pageWrite (fn off n v : Nat) (s : State) : State :=
  if off % n ≠ 0 then s
  else if off < 0x1000 then
    if off % 8 ≠ 0 ∨ n < 4 then s
    else if off < 0x800 then txDoorbell fn (off / 8) (v % 2 ^ 32) s
    else rxDoorbell fn ((off - 0x800) / 8) (v % 2 ^ 32) s
  else if off < 0x1100 then
    let s1 := mboxWrite fn (off - 0x1000) (leBytes n v) s
    if 0x10F8 ≤ off then mboxRing fn s1 else s1
  else if 0x2000 ≤ off ∧ off < 0xA000 ∧ 4 ≤ n then
    forEach (List.range (n / 4)) (fun i s =>
      let d := (off - 0x2000) / 4 + i
      vecWrite fn (d / 4) (d % 4) (v / 2 ^ (32 * i) % 2 ^ 32) s) s
  else s

/-- Byte `off` of a function's page as a host reads it; doorbells and unused bytes read zero. -/
def pageByte (s : State) (fn off : Nat) : Byte :=
  if 0x1000 ≤ off ∧ off < 0x1100 then Tab.get 0 s.host.mbox (fn * 256 + (off - 0x1000))
  else if 0x2000 ≤ off ∧ off < 0xA000 then
    BitVec.ofNat 8 (vecRead s fn ((off - 0x2000) / 16) ((off - 0x2000) / 4 % 4) / 2 ^ (8 * (off % 4)))
  else if 0xA000 ≤ off ∧ off < 0xA100 then
    BitVec.ofNat 8 ((List.range 8).foldl (fun n i => n + b2n (vec s fn (8 * (off - 0xA000) + i)).pend * 2 ^ i) 0)
  else 0

/-- An aligned width of a host's or the Service Newt's access. -/
def widthOk (off n : Nat) : Bool := [1, 2, 4, 8].contains n && off % n == 0

/-- The function is the physical function of the CXL link that presents a logical device. -/
def ldOwner (s : State) (fn ld : Nat) : Bool :=
  let l := ldLink s ld
  fnEnabled s fn && fn == pfOf s l && hostLinkOfFn s fn == l && flag s (Reg.HST_LINK l) F.HST_LINK_cxl &&
    flag s (Reg.HST_LDCFG ld) F.HST_LDCFG_valid && ldShown s ld

/-- What an access is well-formed for. -/
def accessOk : RegAccess → Bool
  | .csrWrite loc off n _ | .csrRead loc off n => (loc == svcAgent || onHostFn loc) && decide (off < 2 ^ 32) && [1, 2, 4, 8].contains n
  | .pageWrite fn off n _ | .pageRead fn off n => onHostFn fn && decide (off < 0x10000) && widthOk off n
  | .hdmWrite fn ld k _ | .hdmRead fn ld k => onHostFn fn && decide (ld < 16) && decide (k < 64)
  | .mailWrite fn off n _ | .mailRead fn off n => onHostFn fn && decide (off < 256) && widthOk off n
  | .tableSize fn n => onHostFn fn && decide (n ≤ 2048)
  | .setdasa addr dyn => decide (addr < 128) && decide (dyn < 128)
  | .entdaa dyn => decide (dyn < 128)

/-- REGISTER_WRITE (R13): a register access from outside the cores that no other row is. -/
def execRegisterWrite (x : RegAccess) (s : State) : Out :=
  if !accessOk x then .refused .illFormed
  else
    .next (match x with
    | .csrWrite loc off n v => csrWriteBy loc off n (toW v) s
    | .csrRead loc off n => csrReadBy loc off n s
    | .pageWrite fn off n v => if fnEnabled s fn then pageWrite fn off n v s else s
    | .pageRead fn off n =>
      if fnEnabled s fn then emit s (.bytes fn ((List.range n).map (fun i => pageByte s fn (off + i)))) else s
    | .hdmWrite fn ld k v => if ldOwner s fn ld then hdmWrite ld k (v % 2 ^ 32) s else s
    | .hdmRead fn ld k => if ldOwner s fn ld then emit s (.bytes fn (leBytes 4 (hdmDw s ld k))) else s
    | .mailWrite fn off n v => mboxWrite fn off (leBytes n v) s
    | .mailRead fn off n => emit s (.bytes svcAgent ((List.range n).map (fun i => Tab.get 0 s.host.mbox (fn * 256 + off + i))))
    | .tableSize fn n => setVecCount fn n s
    | .setdasa addr dyn => if addr = bmcAddr ∧ !s.svc.porst then { s with svc := { s.svc with dynAddr := some dyn } } else s
    | .entdaa dyn =>
      if s.svc.dynAddr = none ∧ !s.svc.porst then { s with svc := { s.svc with dynAddr := some dyn } } else s)

/-! ## Reads that remove an entry (R302, R364, R378) -/

/-- A read of one register by an agent outside the cores. -/
def readRow (off loc : Nat) (s : State) : Out :=
  if outside loc then .next (csrReadBy loc off 8 s) else .refused .illFormed

def execNotifyRead (c agent : Nat) (s : State) : Out :=
  if c < 7 then readRow (Reg.GKO_NOTIFY c) agent s else .refused .illFormed
def execMboxqRead (agent : Nat) (s : State) : Out := readRow Reg.HST_MBOXQ agent s
def execPfaultRead (agent : Nat) (s : State) : Out := readRow Reg.HST_PFAULT agent s
def execTxtsRead (p agent : Nat) (s : State) : Out :=
  if p < 64 then readRow (Reg.MAC_TXTS p) agent s else .refused .illFormed

/-! ## The board management controller (R535, R536) -/

/-- The message reaches the target: at 0x4C with a good PEC over SMBus; over I3C at its dynamic address once it has one,
else at 0x4C. -/
def bmcHeard (s : State) : BmcBus → Bool
  | .smbus addr pec => addr == bmcAddr && pec
  | .i3c addr => addr == s.svc.dynAddr.getD bmcAddr

def execBmcRead (bus : BmcBus) (off : Nat) (s : State) : Out :=
  if 2 ^ 32 ≤ off then .refused .illFormed
  else .next (if bmcHeard s bus then csrReadBy bmcAgent off 8 s else s)

def execBmcWrite (bus : BmcBus) (off : Nat) (v : Word) (s : State) : Out :=
  if 2 ^ 32 ≤ off then .refused .illFormed
  else .next (if bmcHeard s bus then csrWriteBy bmcAgent off 8 v s else s)

/-! ## Run-time firmware (R518, R527) -/

/-- Owner as the OWNER record of this die tells. -/
def ownerRestore (s : State) : State :=
  match nlsOwner s with
  | some b => setFld s Reg.SVC_SEC F.SVC_SEC_owner (leNat (b.take 1) % 2)
  | none => s

/-- Run-time firmware starts: it compares the schema, and applies the settings or quarantines itself. -/
def runtimeStart (s : State) : State :=
  let s1 := ownerRestore (nlsStat (nlsErrors (setMode .rt s)))
  let sc := nlsSchema s1
  if (nlsHead s1).isNone || (decide (schemaMin s1 ≤ sc) && decide (sc ≤ schemaMax s1)) then
    let s2 := forEach (nlsReplay s1).sets (fun e s => (csrWrite svcAgent 0 e.1 e.2 s).2) s1
    svcBootWrite (putF (rd s2 Reg.SVC_BOOT) F.SVC_BOOT_settings_ok 1) s2
  else
    let s2 := raise (setFld s1 Reg.SVC_BOOT F.SVC_BOOT_quar 1) 1803
    rejectSelf s2

def execRuntimeStart (s : State) : Out :=
  match s.svc.mode with
  | .rtLoad => .next (runtimeStart s)
  | _ => .next s

end Sys2Proof.Machine
end

