-- ==== Sys2Proof/Machine/McRows.lean ====
section
/-! DEFINITION. The rows of the memory controllers (R316–R339) and of patrol scrub and calibration (R543, R546). -/

namespace Sys2Proof.Machine

/-- A row that names a controller, and a unit below a bound, of a controller in use. -/
def onMc (m : Nat) (f : State → State) (s : State) : Out := if m < 12 then .next (f s) else .refused .illFormed
def onMcUnit (m u : Nat) (units : State → Nat) (f : State → State) (s : State) : Out :=
  if 12 ≤ m ∨ 32 ≤ u then .refused .illFormed else .next (if mcUsed s m ∧ u < units s then f s else s)
def onTrain (m u : Nat) (f : State → State) (s : State) : Out := onMcUnit m u (fun _ => trainUnits m) f s
/-- A refresh unit of memory in use. -/
def onRef (m u : Nat) (f : State → State) (s : State) : Out :=
  onMcUnit m u (fun s => refUnits s m) (fun s => if unitAlive s m (refTrain m u) then f s else s) s
def onRtPort (m p : Nat) (f : State → State) (s : State) : Out := if 4 ≤ p then .refused .illFormed else onMc m f s

def execRefreshDue (m u : Nat) (prog rt : Bool) (s : State) : Out := onRef m u (refreshDue m u prog rt) s
def execMakeupRefresh (m u : Nat) (rt : Bool) (s : State) : Out := onRef m u (makeupRefresh m u rt) s
/-- TREFI_CHANGE (R323): `hot` says the sensor reads above 85 °C. -/
def execTrefiChange (m : Nat) (hot : Bool) (s : State) : Out := onMc m (treFiChange m hot) s
def execPowerDownEntry (m u : Nat) (s : State) : Out := onMcUnit m u (fun s => pdUnits s m) (powerDown m u) s
def execRtPortTake (m p : Nat) (s : State) : Out := onRtPort m p (rtTake m p) s
def execRtReadReturn (m p : Nat) (s : State) : Out := onRtPort m p (rtReturn m p) s

/-- A SerDes lane's tracking step (R493). -/
def laneTrack (margin : Nat) (s : State) : State :=
  if flag s Reg.PWR_CHM_CFG F.PWR_CHM_CFG_en && decide (margin < fld s Reg.PWR_CHM_CFG F.PWR_CHM_CFG_phy_alarm) then raise s 1735
  else s

/-- The temperature as it is recorded, two's complement, has moved 5 °C or more (R327). -/
def tempMoved (s : State) (m u temp : Nat) : Bool :=
  let d := sextN 8 temp - sextN 8 (fld s (Reg.MC_UNIT m u) F.MC_UNIT_temp)
  decide (5 ≤ d) || decide (d ≤ -5)

/-- TRACKING_STEP (R327, R329, R493): of a memory unit, periodically unless track_ms is 0, or on drift; it waits while a port is in panic, unless deferred for 1 ms; `m` 12
is SerDes lane `u`. -/
def execTrackingStep (m u temp margin : Nat) (deferred : Bool) (s : State) : Out :=
  if m = 12 then (if u < 64 then .next (laneTrack margin s) else .refused .illFormed) else
  onTrain m u (fun s =>
    if (anyPanic s m && !deferred) ||
        (fld s (Reg.MC_TRAINCTL m) F.MC_TRAINCTL_track_ms == 0 && !tempMoved s m u (temp % 256)) then s
    else trackStep m u (temp % 256) margin s) s

def execGrant (m u : Nat) (s : State) : Out :=
  onTrain m u (fun s => if unitState s m u = 3 then retrainStart m u false s else s) s
def execRetrain (m u : Nat) (s : State) : Out := onTrain m u (retrainRequest m u 3) s
def execTrack (m u temp margin : Nat) (s : State) : Out :=
  onTrain m u (fun s => if anyPanic s m then s else trackStep m u (temp % 256) margin s) s
def execRetire (m u : Nat) (s : State) : Out := onTrain m u (retireCmd m u) s
def execGrantWaitExpiry (m u : Nat) (s : State) : Out :=
  onTrain m u (fun s => if unitState s m u = 3 then retrainStart m u true s else s) s

/-- RETRAINING_COMPLETE (R331): whether a working setting was found, and whether the reduced check passes. -/
def execRetrainingComplete (m u temp : Nat) (ok check : Bool) (s : State) : Out :=
  onTrain m u (trainEnd m u (temp % 256) ok check) s

/-- DEGRADED_RETRY (R332): retry 0 means none. -/
def execDegradedRetry (m u : Nat) (s : State) : Out :=
  onTrain m u (fun s =>
    if unitState s m u = 5 ∧ fld s (Reg.MC_TRAINCTL m) F.MC_TRAINCTL_retry ≠ 0 then retrainRequest m u 4 s else s) s

def execHbmPurgeComplete (q u : Nat) (s : State) : Out :=
  if 4 ≤ q ∨ 32 ≤ u then .refused .illFormed else .next (purgeEnd q u s)

/-- ZQ_CALIBRATION (R546): it changes no architectural state. -/
def execZqCalibration (m u : Nat) (s : State) : Out := onMcUnit m u (fun s => pdUnits s m) (fun s => s) s

/-- SCRUB_READ (R543): `ecc` is the read's outcome; `over` says it ends a pass that outlasted its period. -/
def execScrubRead (k a ecc : Nat) (overrun : Bool) (s : State) : Out :=
  if 6 ≤ k ∨ 2 ^ 48 ≤ a ∨ 3 ≤ ecc then .refused .illFormed
  else .next (bkgPass F.BKG_OVR_scrub overrun (scrubRead k a ecc s))

def execMcCtlClr (m : Nat) (s : State) : Out := onMc m (mcClr m) s

end Sys2Proof.Machine
end

