-- ==== Sys2Proof/Machine/NewtRepeat.lean ====
section
/-! DEFINITION. The opcode map of the Newt core (R72, R75), iterations of a repeat (R115) and unassigned opcodes. -/

namespace Sys2Proof.Machine

/-- The meaning of an opcode of data processing (R92–R96); `none` where the opcode is not one of them. -/
def runAlu (o : Nat) : Option (Nat → Word → State → Out) :=
  if o = 0x00 then some execNop
  else if o ∈ [0x01, 0x41] then some execAdd
  else if o = 0x02 then some execSub
  else if o ∈ [0x03, 0x43] then some execAnd
  else if o ∈ [0x04, 0x44] then some execOr
  else if o ∈ [0x05, 0x45] then some execXor
  else if o = 0x06 then some execAndn
  else if o ∈ [0x07, 0x47] then some execShl
  else if o ∈ [0x08, 0x48] then some execShr
  else if o ∈ [0x09, 0x49] then some execSar
  else if o ∈ [0x0A, 0x4A] then some execRol
  else if o ∈ [0x0B, 0x4B] then some execRor
  else if o ∈ [0x0C, 0x4C] then some execMin
  else if o ∈ [0x0D, 0x4D] then some execMax
  else if o ∈ [0x0E, 0x4E] then some execMinu
  else if o ∈ [0x0F, 0x4F] then some execMaxu
  else if o ∈ [0x10, 0x50] then some execMul
  else if o = 0x11 then some execMulh
  else if o = 0x12 then some execMulhu
  else if o = 0x13 then some execClz
  else if o = 0x14 then some execPopc
  else if o = 0x15 then some execBext
  else if o = 0x16 then some execBexts
  else if o = 0x17 then some execBins
  else if o = 0x18 then some execBswap
  else if o = 0x19 then some execCmp
  else if o = 0x59 then some execCmpi
  else if o = 0x1A then some execPlog
  else if o = 0x1B then some execPget
  else if o = 0x1C then some execPset
  else if o = 0x1D then some execLi
  else if o = 0x1E then some execLui
  else if o = 0x20 then some execCsrr
  else if o = 0x21 then some execCsrw
  else if o = 0x22 then some execCsrs
  else if o = 0x23 then some execCsrc
  else none

/-- The meaning of an opcode of near memory (R97). -/
def runNear (o : Nat) : Option (Nat → Word → State → Out) :=
  if 0x28 ≤ o ∧ o ≤ 0x2C then some execLd
  else if 0x2D ≤ o ∧ o ≤ 0x30 then some execLds
  else if 0x31 ≤ o ∧ o ≤ 0x35 then some execSt
  else if o = 0x38 then some execAadd
  else if o = 0x39 then some execAand
  else if o = 0x3A then some execAor
  else if o = 0x3B then some execAxor
  else if o = 0x3C then some execAswp
  else if o = 0x3D then some execAcas
  else none

/-- The meaning of an opcode of an asynchronous operation (R87, R88, R98–R102, R138). -/
def runAsync (o : Nat) : Option (Nat → Word → State → Out) :=
  if 0x60 ≤ o ∧ o ≤ 0x64 then some execLdf
  else if 0x65 ≤ o ∧ o ≤ 0x68 then some execLdfs
  else if 0x69 ≤ o ∧ o ≤ 0x6D then some execStf
  else if o = 0x6E then some execAfadd
  else if o = 0x6F then some execAfswp
  else if o = 0x70 then some execAfcas
  else if 0x80 ≤ o ∧ o ≤ 0x84 then some execPld
  else if 0x85 ≤ o ∧ o ≤ 0x89 then some execPst
  else if o = 0x8A then some execTseal
  else if o = 0x8B then some execRelease
  else if o = 0x8C then some execDrop
  else if o = 0x8D then some execFork
  else if o = 0x90 then some execLkup
  else if o = 0x91 then some execLearn
  else if o = 0x92 then some execBalloc
  else if o = 0x93 then some execBfree
  else if o = 0x98 then some execWaitc
  else if o = 0x99 then some execFence
  else if o = 0xC0 then some execLyr
  else none

/-- The meaning of a control opcode (R108). -/
def runControl (o : Nat) : Option (Nat → Word → State → Out) :=
  if o = 0xA0 then some execBr
  else if o = 0xA1 then some execCall
  else if o = 0xA2 then some execJmpr
  else if o = 0xA8 then some execRepi
  else if o = 0xA9 then some execRepn
  else if o = 0xB0 then some execDoze
  else if o = 0xB1 then some execExit
  else if o = 0xB4 then some execTrap
  else if o = 0xB5 then some execEret
  else none

/-- The meaning of an opcode; `none` for an unassigned one (R75). -/
def runOp (o : Nat) : Option (Nat → Word → State → Out) :=
  runAlu o <|> runNear o <|> runAsync o <|> runControl o

/-- REPEAT_ITERATION (R115): the repeated instruction issues again. -/
def execRepeatIteration (t : Nat) (s : State) : Out :=
  if 3072 ≤ t then .refused .illFormed
  else
    match (th s t).rep with
    | none => .next s
    | some r =>
      match r.word with
      | none => .next s
      | some w =>
        match runOp (iOpcode w) with
        | some f => f t w s
        | none => .next s

/-- UNASSIGNED_OPCODE (R75): UNDEF, even when guarded off. -/
def execUnassignedOpcode (t : Nat) (w : Word) (s : State) : Out :=
  if 3072 ≤ t ∨ (runOp (iOpcode w)).isSome then .refused .illFormed
  else .next (issue s t w true false {} (fun s => s))

end Sys2Proof.Machine
end

