-- ==== Sys2Proof/Machine/PwrRows.lean ====
section
/-! DEFINITION. The rows of supply, power states and Chameleon (R475–R499). -/

namespace Sys2Proof.Machine

/-- VIN_SAMPLE (R476, R478, R564): millivolts, and current and power in the units of PWR_VINSTAT. -/
def execVinSample (mv amps watts : Nat) (s : State) : Out :=
  if 65536 ≤ mv ∨ 65536 ≤ amps ∨ 65536 ≤ watts then .refused .illFormed else .next (svcRelease (vinSample mv amps watts s))

def execHoldupOkChange (level : Bool) (s : State) : Out := .next (hokChange level s)

/-- HOLDUP_CLEAR (R477): a write of 1, and what waited for it. -/
def execHoldupClear (s : State) : Out := .next (holdupClear s)

/-- TEMP_SAMPLE (R479, R480): six readings in °C, two's complement bytes. -/
def execTempSample (t0 t1 t2 t3 t4 t5 : Nat) (s : State) : Out :=
  if [t0, t1, t2, t3, t4, t5].all (fun t => decide (t < 256)) then
    .next (if s.svc.porst then s else tempSample [t0, t1, t2, t3, t4, t5] s)
  else .refused .illFormed

def execThermalTrip (s : State) : Out := .next (thermalTrip s)

/-- POWER_STATE_REQUEST (R482, R485): a write of PWR_STATE that asks for a state but STANDBY. -/
def execPowerStateRequest (v : Word) (s : State) : Out :=
  if getF v F.PWR_STATE_req = 3 then .refused .illFormed else .next (pwrStateWrite v s)

def execStandbyRequest (v : Word) (s : State) : Out :=
  if getF v F.PWR_STATE_req = 3 then .next (pwrStateWrite v s) else .refused .illFormed

def execStandbyDrained (s : State) : Out := .next (standbyDrained s)
def execStandbyAbort (s : State) : Out := .next (standbyAbort s)
def execStandbyExitComplete (s : State) : Out := .next (standbyExit s)

/-- CHAMELEON_SAMPLE (R488): 96 pairs as frequency and degradation, 48 slacks as 16-bit numbers; `over` says it ends a
pass that outlasted its period (R542). -/
def execChameleonSample (ros : List (Nat × Nat)) (reps : List Nat) (overrun : Bool) (s : State) : Out :=
  if ros.length = 96 ∧ reps.length = 48 then .next (bkgPass F.BKG_OVR_chameleon overrun (chmSample ros reps s)) else .refused .illFormed

def execChameleonRecordDaily (s : State) : Out := .next (chmRecord s)
def execPwrCtlClr (s : State) : Out := .next (pwrClr s)

end Sys2Proof.Machine
end

