-- ==== Sys2Proof/Machine/Dispatch.lean ====
section
/-! DEFINITION. The meaning of every command: one direct call for each constructor of Instr. -/

namespace Sys2Proof.Machine

/-- The effect of a command on everything but the queue of commands. -/
def exec (i : Instr) (s : State) : Host.Outcome State Fault Refusal :=
  match i with
  | .nop t w => Sys2Proof.Machine.execNop t w s
  | .add t w => Sys2Proof.Machine.execAdd t w s
  | .sub t w => Sys2Proof.Machine.execSub t w s
  | .and t w => Sys2Proof.Machine.execAnd t w s
  | .or t w => Sys2Proof.Machine.execOr t w s
  | .xor t w => Sys2Proof.Machine.execXor t w s
  | .andn t w => Sys2Proof.Machine.execAndn t w s
  | .shl t w => Sys2Proof.Machine.execShl t w s
  | .shr t w => Sys2Proof.Machine.execShr t w s
  | .sar t w => Sys2Proof.Machine.execSar t w s
  | .rol t w => Sys2Proof.Machine.execRol t w s
  | .ror t w => Sys2Proof.Machine.execRor t w s
  | .min t w => Sys2Proof.Machine.execMin t w s
  | .max t w => Sys2Proof.Machine.execMax t w s
  | .minu t w => Sys2Proof.Machine.execMinu t w s
  | .maxu t w => Sys2Proof.Machine.execMaxu t w s
  | .mul t w => Sys2Proof.Machine.execMul t w s
  | .mulh t w => Sys2Proof.Machine.execMulh t w s
  | .mulhu t w => Sys2Proof.Machine.execMulhu t w s
  | .clz t w => Sys2Proof.Machine.execClz t w s
  | .popc t w => Sys2Proof.Machine.execPopc t w s
  | .bext t w => Sys2Proof.Machine.execBext t w s
  | .bexts t w => Sys2Proof.Machine.execBexts t w s
  | .bins t w => Sys2Proof.Machine.execBins t w s
  | .bswap t w => Sys2Proof.Machine.execBswap t w s
  | .li t w => Sys2Proof.Machine.execLi t w s
  | .lui t w => Sys2Proof.Machine.execLui t w s
  | .cmp t w => Sys2Proof.Machine.execCmp t w s
  | .cmpi t w => Sys2Proof.Machine.execCmpi t w s
  | .plog t w => Sys2Proof.Machine.execPlog t w s
  | .pget t w => Sys2Proof.Machine.execPget t w s
  | .pset t w => Sys2Proof.Machine.execPset t w s
  | .csrr t w => Sys2Proof.Machine.execCsrr t w s
  | .csrw t w => Sys2Proof.Machine.execCsrw t w s
  | .csrs t w => Sys2Proof.Machine.execCsrs t w s
  | .csrc t w => Sys2Proof.Machine.execCsrc t w s
  | .ld t w => Sys2Proof.Machine.execLd t w s
  | .lds t w => Sys2Proof.Machine.execLds t w s
  | .st t w => Sys2Proof.Machine.execSt t w s
  | .aadd t w => Sys2Proof.Machine.execAadd t w s
  | .aand t w => Sys2Proof.Machine.execAand t w s
  | .aor t w => Sys2Proof.Machine.execAor t w s
  | .axor t w => Sys2Proof.Machine.execAxor t w s
  | .aswp t w => Sys2Proof.Machine.execAswp t w s
  | .acas t w => Sys2Proof.Machine.execAcas t w s
  | .ldf t w => Sys2Proof.Machine.execLdf t w s
  | .ldfs t w => Sys2Proof.Machine.execLdfs t w s
  | .stf t w => Sys2Proof.Machine.execStf t w s
  | .afadd t w => Sys2Proof.Machine.execAfadd t w s
  | .afswp t w => Sys2Proof.Machine.execAfswp t w s
  | .afcas t w => Sys2Proof.Machine.execAfcas t w s
  | .pld t w => Sys2Proof.Machine.execPld t w s
  | .pst t w => Sys2Proof.Machine.execPst t w s
  | .tseal t w => Sys2Proof.Machine.execTseal t w s
  | .release t w => Sys2Proof.Machine.execRelease t w s
  | .drop t w => Sys2Proof.Machine.execDrop t w s
  | .fork t w => Sys2Proof.Machine.execFork t w s
  | .lkup t w => Sys2Proof.Machine.execLkup t w s
  | .learn t w => Sys2Proof.Machine.execLearn t w s
  | .balloc t w => Sys2Proof.Machine.execBalloc t w s
  | .bfree t w => Sys2Proof.Machine.execBfree t w s
  | .waitc t w => Sys2Proof.Machine.execWaitc t w s
  | .fence t w => Sys2Proof.Machine.execFence t w s
  | .br t w => Sys2Proof.Machine.execBr t w s
  | .call t w => Sys2Proof.Machine.execCall t w s
  | .jmpr t w => Sys2Proof.Machine.execJmpr t w s
  | .repi t w => Sys2Proof.Machine.execRepi t w s
  | .repn t w => Sys2Proof.Machine.execRepn t w s
  | .doze t w => Sys2Proof.Machine.execDoze t w s
  | .exit t w => Sys2Proof.Machine.execExit t w s
  | .trap t w => Sys2Proof.Machine.execTrap t w s
  | .eret t w => Sys2Proof.Machine.execEret t w s
  | .lyr t w => Sys2Proof.Machine.execLyr t w s
  | .repeatIteration t => Sys2Proof.Machine.execRepeatIteration t s
  | .interruptEntry t => Sys2Proof.Machine.execInterruptEntry t s
  | .ttimerExpiry t => Sys2Proof.Machine.execTtimerExpiry t s
  | .dozeTimeout t => Sys2Proof.Machine.execDozeTimeout t s
  | .asyncCompletion id ecc => Sys2Proof.Machine.execAsyncCompletion id ecc s
  | .asyncTimeout id => Sys2Proof.Machine.execAsyncTimeout id s
  | .kill t => Sys2Proof.Machine.execKill t s
  | .killComplete t => Sys2Proof.Machine.execKillComplete t s
  | .restart t => Sys2Proof.Machine.execRestart t s
  | .service t pc priv => Sys2Proof.Machine.execService t pc priv s
  | .softint t => Sys2Proof.Machine.execSoftint t s
  | .halt t => Sys2Proof.Machine.execHalt t s
  | .threadHalted t => Sys2Proof.Machine.execThreadHalted t s
  | .resume t => Sys2Proof.Machine.execResume t s
  | .wake t => Sys2Proof.Machine.execWake t s
  | .coreReset c v => Sys2Proof.Machine.execCoreReset c v s
  | .cluCtlClr c => Sys2Proof.Machine.execCluCtlClr c s
  | .lyrBusyRetry t => Sys2Proof.Machine.execLyrBusyRetry t s
  | .lyreOperationComplete id ecc => Sys2Proof.Machine.execLyreOperationComplete id ecc s
  | .lyreFlush c v => Sys2Proof.Machine.execLyreFlush c v s
  | .lyreFlushComplete c => Sys2Proof.Machine.execLyreFlushComplete c s
  | .cluLyctlClr c => Sys2Proof.Machine.execCluLyctlClr c s
  | .frameReceive p l corr uncor => Sys2Proof.Machine.execFrameReceive p l corr uncor s
  | .descriptorAdmit u => Sys2Proof.Machine.execDescriptorAdmit u s
  | .slotGrant => Sys2Proof.Machine.execSlotGrant s
  | .slotFillComplete t k ecc => Sys2Proof.Machine.execSlotFillComplete t k ecc s
  | .wakeRequestScan => Sys2Proof.Machine.execWakeRequestScan s
  | .wakeStart => Sys2Proof.Machine.execWakeStart s
  | .wakePaced c => Sys2Proof.Machine.execWakePaced c s
  | .clusterWakeComplete c => Sys2Proof.Machine.execClusterWakeComplete c s
  | .clusterGate c => Sys2Proof.Machine.execClusterGate c s
  | .clusterParkDecision c => Sys2Proof.Machine.execClusterParkDecision c s
  | .parkingComplete c => Sys2Proof.Machine.execParkingComplete c s
  | .cluPwrctlWrite c v => Sys2Proof.Machine.execCluPwrctlWrite c v s
  | .spnCtlClr => Sys2Proof.Machine.execSpnCtlClr s
  | .endingArrival => Sys2Proof.Machine.execEndingArrival s
  | .laneRetirement => Sys2Proof.Machine.execLaneRetirement s
  | .laneHoldExpiry l => Sys2Proof.Machine.execLaneHoldExpiry l s
  | .brgTurnRead id => Sys2Proof.Machine.execBrgTurnRead id s
  | .turnComplete id => Sys2Proof.Machine.execTurnComplete id s
  | .brgPass id => Sys2Proof.Machine.execBrgPass id s
  | .brgCtlClr => Sys2Proof.Machine.execBrgCtlClr s
  | .ethTransmit p ecc => Sys2Proof.Machine.execEthTransmit p ecc s
  | .hostRxWrite fn idx addr blen ecc => Sys2Proof.Machine.execHostRxWrite fn idx addr blen ecc s
  | .fabricPktSend vc dev ecc => Sys2Proof.Machine.execFabricPktSend vc dev ecc s
  | .bpmAllocation p => Sys2Proof.Machine.execBpmAllocation p s
  | .bpmFree p => Sys2Proof.Machine.execBpmFree p s
  | .ringFetchComplete p => Sys2Proof.Machine.execRingFetchComplete p s
  | .auditStart => Sys2Proof.Machine.execAuditStart s
  | .auditStep => Sys2Proof.Machine.execAuditStep s
  | .rebuildGo p => Sys2Proof.Machine.execRebuildGo p s
  | .rebuildComplete ecc => Sys2Proof.Machine.execRebuildComplete ecc s
  | .bpmCtlClr => Sys2Proof.Machine.execBpmCtlClr s
  | .tableAdd w => Sys2Proof.Machine.execTableAdd w s
  | .tableSet w => Sys2Proof.Machine.execTableSet w s
  | .tableDelete w => Sys2Proof.Machine.execTableDelete w s
  | .tableFind w => Sys2Proof.Machine.execTableFind w s
  | .readSlot w => Sys2Proof.Machine.execReadSlot w s
  | .writeSlot w => Sys2Proof.Machine.execWriteSlot w s
  | .flush w => Sys2Proof.Machine.execFlush w s
  | .bulkSet w => Sys2Proof.Machine.execBulkSet w s
  | .pfxAdd w => Sys2Proof.Machine.execPfxAdd w s
  | .pfxDel w => Sys2Proof.Machine.execPfxDel w s
  | .pfxRead w => Sys2Proof.Machine.execPfxRead w s
  | .pfxFix w => Sys2Proof.Machine.execPfxFix w s
  | .tblCmdDone => Sys2Proof.Machine.execTblCmdDone s
  | .relocationStep => Sys2Proof.Machine.execRelocationStep s
  | .learnApply => Sys2Proof.Machine.execLearnApply s
  | .candidateExpiry k => Sys2Proof.Machine.execCandidateExpiry k s
  | .ageingSweepStep t overrun => Sys2Proof.Machine.execAgeingSweepStep t overrun s
  | .paritySweepStep t bucket slot bad overrun => Sys2Proof.Machine.execParitySweepStep t bucket slot bad overrun s
  | .tblCtlClr => Sys2Proof.Machine.execTblCtlClr s
  | .claim n w req => Sys2Proof.Machine.execClaim n w req s
  | .free n w req => Sys2Proof.Machine.execFree n w req s
  | .withdraw n w req => Sys2Proof.Machine.execWithdraw n w req s
  | .reservationExpiry n => Sys2Proof.Machine.execReservationExpiry n s
  | .registrationExpiry n agent => Sys2Proof.Machine.execRegistrationExpiry n agent s
  | .notifyRead c agent => Sys2Proof.Machine.execNotifyRead c agent s
  | .gkoCtlClr => Sys2Proof.Machine.execGkoCtlClr s
  | .eventOccurrence n => Sys2Proof.Machine.execEventOccurrence n s
  | .eventDelivery n => Sys2Proof.Machine.execEventDelivery n s
  | .eventAck n => Sys2Proof.Machine.execEventAck n s
  | .softwareDoorbell n => Sys2Proof.Machine.execSoftwareDoorbell n s
  | .svcqRead => Sys2Proof.Machine.execSvcqRead s
  | .evtCtlClr => Sys2Proof.Machine.execEvtCtlClr s
  | .refreshDue m u prog rt => Sys2Proof.Machine.execRefreshDue m u prog rt s
  | .makeupRefresh m u rt => Sys2Proof.Machine.execMakeupRefresh m u rt s
  | .trefiChange m hot => Sys2Proof.Machine.execTrefiChange m hot s
  | .powerDownEntry m u => Sys2Proof.Machine.execPowerDownEntry m u s
  | .rtPortTake m p => Sys2Proof.Machine.execRtPortTake m p s
  | .rtReadReturn m p => Sys2Proof.Machine.execRtReadReturn m p s
  | .trackingStep m u temp margin deferred => Sys2Proof.Machine.execTrackingStep m u temp margin deferred s
  | .grant m u => Sys2Proof.Machine.execGrant m u s
  | .retrain m u => Sys2Proof.Machine.execRetrain m u s
  | .track m u temp margin => Sys2Proof.Machine.execTrack m u temp margin s
  | .retire m u => Sys2Proof.Machine.execRetire m u s
  | .grantWaitExpiry m u => Sys2Proof.Machine.execGrantWaitExpiry m u s
  | .retrainingComplete m u temp ok check => Sys2Proof.Machine.execRetrainingComplete m u temp ok check s
  | .degradedRetry m u => Sys2Proof.Machine.execDegradedRetry m u s
  | .hbmPurgeComplete q u => Sys2Proof.Machine.execHbmPurgeComplete q u s
  | .zqCalibration m u => Sys2Proof.Machine.execZqCalibration m u s
  | .scrubRead k a ecc overrun => Sys2Proof.Machine.execScrubRead k a ecc overrun s
  | .mcCtlClr m => Sys2Proof.Machine.execMcCtlClr m s
  | .hostLinkUp l cxl flit speed width => Sys2Proof.Machine.execHostLinkUp l cxl flit speed width s
  | .hostLinkDown l => Sys2Proof.Machine.execHostLinkDown l s
  | .functionLevelReset fn => Sys2Proof.Machine.execFunctionLevelReset fn s
  | .mailboxRing fn v => Sys2Proof.Machine.execMailboxRing fn v s
  | .mboxqRead agent => Sys2Proof.Machine.execMboxqRead agent s
  | .txqEnable q v => Sys2Proof.Machine.execTxqEnable q v s
  | .txDoorbell fn idx tail => Sys2Proof.Machine.execTxDoorbell fn idx tail s
  | .rxDoorbell fn idx tail => Sys2Proof.Machine.execRxDoorbell fn idx tail s
  | .txFetch q k => Sys2Proof.Machine.execTxFetch q k s
  | .txFetchComplete q tag ds data => Sys2Proof.Machine.execTxFetchComplete q tag ds data s
  | .hostCompletionTimeout q tag => Sys2Proof.Machine.execHostCompletionTimeout q tag s
  | .rxNobufExpiry fn idx => Sys2Proof.Machine.execRxNobufExpiry fn idx s
  | .cxlMemRequest ld hpa write mask data ecc => Sys2Proof.Machine.execCxlMemRequest ld hpa write mask data ecc s
  | .pfaultRead agent => Sys2Proof.Machine.execPfaultRead agent s
  | .hstCtlClr => Sys2Proof.Machine.execHstCtlClr s
  | .portEnable p v => Sys2Proof.Machine.execPortEnable p v s
  | .portDisable p rx cut v => Sys2Proof.Machine.execPortDisable p rx cut v s
  | .portUp p => Sys2Proof.Machine.execPortUp p s
  | .portLinkLoss p rx cut => Sys2Proof.Machine.execPortLinkLoss p rx cut s
  | .remoteFaultHeld p rx cut => Sys2Proof.Machine.execRemoteFaultHeld p rx cut s
  | .pauseFrameReceive p pfc mask quanta => Sys2Proof.Machine.execPauseFrameReceive p pfc mask quanta s
  | .pauseTimerExpiry p c => Sys2Proof.Machine.execPauseTimerExpiry p c s
  | .pauseRepeat p => Sys2Proof.Machine.execPauseRepeat p s
  | .txtsRead p agent => Sys2Proof.Machine.execTxtsRead p agent s
  | .macCtlClr p => Sys2Proof.Machine.execMacCtlClr p s
  | .obxLinkEnable l v => Sys2Proof.Machine.execObxLinkEnable l v s
  | .obxLinkDisable l v => Sys2Proof.Machine.execObxLinkDisable l v s
  | .obxTrainingComplete l => Sys2Proof.Machine.execObxTrainingComplete l s
  | .initFlitSend l => Sys2Proof.Machine.execInitFlitSend l s
  | .initReceive l seq ack devid tag joined num half => Sys2Proof.Machine.execInitReceive l seq ack devid tag joined num half s
  | .flitReceive l b => Sys2Proof.Machine.execFlitReceive l b s
  | .nakRepeat l => Sys2Proof.Machine.execNakRepeat l s
  | .replayTimeout l => Sys2Proof.Machine.execReplayTimeout l s
  | .obxLinkLoss l => Sys2Proof.Machine.execObxLinkLoss l s
  | .pkt l => Sys2Proof.Machine.execPkt l s
  | .rd l ecc => Sys2Proof.Machine.execRd l ecc s
  | .wr l => Sys2Proof.Machine.execWr l s
  | .atom l ecc => Sys2Proof.Machine.execAtom l ecc s
  | .lock l => Sys2Proof.Machine.execLock l s
  | .intr l => Sys2Proof.Machine.execIntr l s
  | .resp l => Sys2Proof.Machine.execResp l s
  | .member l => Sys2Proof.Machine.execMember l s
  | .obxRequestTimeout tag => Sys2Proof.Machine.execObxRequestTimeout tag s
  | .mute l => Sys2Proof.Machine.execMute l s
  | .unmute l => Sys2Proof.Machine.execUnmute l s
  | .leave l => Sys2Proof.Machine.execLeave l s
  | .join l => Sys2Proof.Machine.execJoin l s
  | .originateMute w => Sys2Proof.Machine.execOriginateMute w s
  | .originateUnmute w => Sys2Proof.Machine.execOriginateUnmute w s
  | .originateLeave w => Sys2Proof.Machine.execOriginateLeave w s
  | .originateJoin w => Sys2Proof.Machine.execOriginateJoin w s
  | .muteExpiry k => Sys2Proof.Machine.execMuteExpiry k s
  | .recentPairExpiry origin id => Sys2Proof.Machine.execRecentPairExpiry origin id s
  | .joinDomain v => Sys2Proof.Machine.execJoinDomain v s
  | .leaveDomain v => Sys2Proof.Machine.execLeaveDomain v s
  | .timestampSend l => Sys2Proof.Machine.execTimestampSend l s
  | .timestampReceive l => Sys2Proof.Machine.execTimestampReceive l s
  | .timeSet v => Sys2Proof.Machine.execTimeSet v s
  | .obxCtlClr => Sys2Proof.Machine.execObxCtlClr s
  | .epochRunStart v => Sys2Proof.Machine.execEpochRunStart v s
  | .swRegisterWrite a v => Sys2Proof.Machine.execSwRegisterWrite a v s
  | .commitRequest nwr dom => Sys2Proof.Machine.execCommitRequest nwr dom s
  | .commitWithdraw => Sys2Proof.Machine.execCommitWithdraw s
  | .commitDiscard => Sys2Proof.Machine.execCommitDiscard s
  | .epochCutoff ecc => Sys2Proof.Machine.execEpochCutoff ecc s
  | .epochDecisionPoint => Sys2Proof.Machine.execEpochDecisionPoint s
  | .epochBoundary => Sys2Proof.Machine.execEpochBoundary s
  | .telemetryWriteComplete => Sys2Proof.Machine.execTelemetryWriteComplete s
  | .epcCtlClr => Sys2Proof.Machine.execEpcCtlClr s
  | .verify => Sys2Proof.Machine.execVerify s
  | .verifyComplete => Sys2Proof.Machine.execVerifyComplete s
  | .arm => Sys2Proof.Machine.execArm s
  | .preloadComplete => Sys2Proof.Machine.execPreloadComplete s
  | .disarm => Sys2Proof.Machine.execDisarm s
  | .pairEnable v => Sys2Proof.Machine.execPairEnable v s
  | .mirrorSend => Sys2Proof.Machine.execMirrorSend s
  | .markerSend => Sys2Proof.Machine.execMarkerSend s
  | .markerReceive => Sys2Proof.Machine.execMarkerReceive s
  | .heartbeatSend => Sys2Proof.Machine.execHeartbeatSend s
  | .heartbeatPeriodEnd => Sys2Proof.Machine.execHeartbeatPeriodEnd s
  | .failover => Sys2Proof.Machine.execFailover s
  | .handover => Sys2Proof.Machine.execHandover s
  | .handoverComplete => Sys2Proof.Machine.execHandoverComplete s
  | .resync => Sys2Proof.Machine.execResync s
  | .dstCnt1Zero => Sys2Proof.Machine.execDstCnt1Zero s
  | .refclkMonitorWindow n => Sys2Proof.Machine.execRefclkMonitorWindow n s
  | .pllUnlock p => Sys2Proof.Machine.execPllUnlock p s
  | .pllLock p => Sys2Proof.Machine.execPllLock p s
  | .clockStop d => Sys2Proof.Machine.execClockStop d s
  | .handshakeDelivery n => Sys2Proof.Machine.execHandshakeDelivery n s
  | .fifoCrossingDelivery c => Sys2Proof.Machine.execFifoCrossingDelivery c s
  | .porstNAssert => Sys2Proof.Machine.execPorstNAssert s
  | .porstNRelease pres => Sys2Proof.Machine.execPorstNRelease pres s
  | .romHoldupTimeout => Sys2Proof.Machine.execRomHoldupTimeout s
  | .devRelease agent => Sys2Proof.Machine.execDevRelease agent s
  | .clusterReset v => Sys2Proof.Machine.execClusterReset v s
  | .clusterHoldWrite v => Sys2Proof.Machine.execClusterHoldWrite v s
  | .clusterResetRelease c => Sys2Proof.Machine.execClusterResetRelease c s
  | .halfResetTrigger kind n => Sys2Proof.Machine.execHalfResetTrigger kind n s
  | .halfResetRearm kind n => Sys2Proof.Machine.execHalfResetRearm kind n s
  | .crsCtlClr => Sys2Proof.Machine.execCrsCtlClr s
  | .vinSample mv amps watts => Sys2Proof.Machine.execVinSample mv amps watts s
  | .holdupOkChange level => Sys2Proof.Machine.execHoldupOkChange level s
  | .holdupClear => Sys2Proof.Machine.execHoldupClear s
  | .tempSample t0 t1 t2 t3 t4 t5 => Sys2Proof.Machine.execTempSample t0 t1 t2 t3 t4 t5 s
  | .thermalTrip => Sys2Proof.Machine.execThermalTrip s
  | .powerStateRequest v => Sys2Proof.Machine.execPowerStateRequest v s
  | .standbyRequest v => Sys2Proof.Machine.execStandbyRequest v s
  | .standbyDrained => Sys2Proof.Machine.execStandbyDrained s
  | .standbyAbort => Sys2Proof.Machine.execStandbyAbort s
  | .standbyExitComplete => Sys2Proof.Machine.execStandbyExitComplete s
  | .chameleonSample ros reps overrun => Sys2Proof.Machine.execChameleonSample ros reps overrun s
  | .chameleonRecordDaily => Sys2Proof.Machine.execChameleonRecordDaily s
  | .pwrCtlClr => Sys2Proof.Machine.execPwrCtlClr s
  | .bootCodeStart out => Sys2Proof.Machine.execBootCodeStart out s
  | .bootSeal agent => Sys2Proof.Machine.execBootSeal agent s
  | .runtimeStart => Sys2Proof.Machine.execRuntimeStart s
  | .nelistoreAppend typ body fail => Sys2Proof.Machine.execNelistoreAppend typ body fail s
  | .nelistoreRotation fail => Sys2Proof.Machine.execNelistoreRotation fail s
  | .commit => Sys2Proof.Machine.execCommit s
  | .rejectSelf => Sys2Proof.Machine.execRejectSelf s
  | .reset => Sys2Proof.Machine.execReset s
  | .ownerSet => Sys2Proof.Machine.execOwnerSet s
  | .ownerClear => Sys2Proof.Machine.execOwnerClear s
  | .tamperClear => Sys2Proof.Machine.execTamperClear s
  | .revoke k => Sys2Proof.Machine.execRevoke k s
  | .sitHello port seq => Sys2Proof.Machine.execHello port seq s
  | .sitBegin port seq hdr dig fail => Sys2Proof.Machine.execBegin port seq hdr dig fail s
  | .sitData port session seq off l fail => Sys2Proof.Machine.execData port session seq off l fail s
  | .sitEnd port session seq fail => Sys2Proof.Machine.execEnd port session seq fail s
  | .sitAbort port session seq => Sys2Proof.Machine.execAbort port session seq s
  | .sitActivate port session seq => Sys2Proof.Machine.execActivate port session seq s
  | .activateReset => Sys2Proof.Machine.execActivateReset s
  | .sitCommand port session seq c arg => Sys2Proof.Machine.execCommand port session seq c arg s
  | .sessionExpiry => Sys2Proof.Machine.execSessionExpiry s
  | .neighborSolicitation src target hop => Sys2Proof.Machine.execNeighborSolicitation src target hop s
  | .echoRequest src body hop => Sys2Proof.Machine.execEchoRequest src body hop s
  | .presenceWindowOpen => Sys2Proof.Machine.execPresenceWindowOpen s
  | .presenceWindowClose => Sys2Proof.Machine.execPresenceWindowClose s
  | .sealCheck b => Sys2Proof.Machine.execSealCheck b s
  | .bmcRead bus off => Sys2Proof.Machine.execBmcRead bus off s
  | .bmcWrite bus off v => Sys2Proof.Machine.execBmcWrite bus off v s
  | .svcCtlClr => Sys2Proof.Machine.execSvcCtlClr s
  | .tringEnable v => Sys2Proof.Machine.execTringEnable v s
  | .bkgCtlClr => Sys2Proof.Machine.execBkgCtlClr s
  | .registerWrite x => Sys2Proof.Machine.execRegisterWrite x s
  | .vaonPowerUp => Sys2Proof.Machine.execVaonPowerUp s
  | .vaonPowerLoss => Sys2Proof.Machine.execVaonPowerLoss s
  | .presNHigh => Sys2Proof.Machine.execPresNHigh s
  | .perstpNRelease p => Sys2Proof.Machine.execPerstpNRelease p s
  | .svcPortUp => Sys2Proof.Machine.execSvcPortUp s
  | .aonclkEpochWindow => Sys2Proof.Machine.execAonclkEpochWindow s
  | .sitBadMessage port => Sys2Proof.Machine.execSitBadMessage port s
  | .unassignedOpcode t w => Sys2Proof.Machine.execUnassignedOpcode t w s
  | .pcRangeFetch t => Sys2Proof.Machine.execPcRangeFetch t s
  | .cxlMailboxCommand l op => Sys2Proof.Machine.execCxlMailboxCommand l op s

end Sys2Proof.Machine
end

