-- ==== Sys2Proof/WellFormed.lean ====
section
/-! DEFINITION. Which commands are well-formed: every operand names something the part has, and a row's operands are of
the row. -/

namespace Sys2Proof

open Machine

/-- A local thread index (R3). -/
def onThread (t : Nat) : Bool := decide (t < 3072)
/-- The outcome of a memory read: no error, corrected, uncorrectable (R315). -/
def eccOk (ecc : Nat) : Bool := decide (ecc < 3)
/-- The error outcome of a read that may be of a tile: 3 is its check entry's (R226). -/
def tileEcc (ecc : Nat) : Bool := decide (ecc < 4)
/-- A host function (R340). -/
def onFn (fn : Nat) : Bool := decide (0x1000 ≤ fn) && decide (fn < 0x1400)
/-- An agent that reads CSRs from outside the cores (R9, R536). -/
def onReader (a : Nat) : Bool := a == 0x0C00 || a == 0x3000 || onFn a
/-- A controller and a unit of it (R306, R307). -/
def onUnit (m u : Nat) : Bool := decide (m < 12) && decide (u < 32)
/-- A Service Image Transfer message: its port and its seq (R522). -/
def onSit (port seq : Nat) : Bool := decide (port < 2) && decide (seq < 2 ^ 32)
/-- A lock command of one operation (R281). -/
def lockCmd (op n : Nat) (w : Word) (req : Nat) : Bool :=
  decide (n < 4096) && decide (req < 2 ^ 24) && knownAgent (agentLoc req) && bitsN w.toNat 29 28 == op
/-- A register with SW fields (R13). -/
def swReg (a : Nat) : Bool :=
  match findReg regTable a with
  | some (r, _) => r.sw != 0
  | none => false
/-- A width of 1 to 8 bytes. -/
def onWidth (n : Nat) : Bool := [1, 2, 4, 8].contains n
/-- A register access from outside the cores: who may reach what. -/
def regAccess : RegAccess → Bool
  | .csrWrite a off n _ | .csrRead a off n => (a == 0x0C00 || onFn a) && decide (off < 2 ^ 32) && onWidth n
  | .pageWrite fn off n _ | .pageRead fn off n => onFn fn && decide (off < 0x10000) && onWidth n && off % n == 0
  | .hdmWrite fn ld k _ | .hdmRead fn ld k => onFn fn && decide (ld < 16) && decide (k < 64)
  | .mailWrite fn off n _ | .mailRead fn off n => onFn fn && decide (off < 256) && onWidth n && off % n == 0
  | .tableSize fn n => onFn fn && decide (n ≤ 2048)
  | .setdasa addr dyn => decide (addr < 128) && decide (dyn < 128)
  | .entdaa dyn => decide (dyn < 128)
/-- A Newt row: a thread, and a word with one of the row's opcodes. -/
def newtRow (t : Nat) (w : Word) (ops : List Nat) : Bool := onThread t && ops.contains (iOpcode w)

/-- The opcodes the spec assigns (R92–R104, R138). -/
def opcodes : List Nat :=
  [0x00, 0x01, 0x02, 0x03, 0x04, 0x05, 0x06, 0x07, 0x08, 0x09, 0x0A, 0x0B, 0x0C, 0x0D, 0x0E, 0x0F,
   0x10, 0x11, 0x12, 0x13, 0x14, 0x15, 0x16, 0x17, 0x18, 0x19, 0x1A, 0x1B, 0x1C, 0x1D, 0x1E, 0x20,
   0x21, 0x22, 0x23, 0x28, 0x29, 0x2A, 0x2B, 0x2C, 0x2D, 0x2E, 0x2F, 0x30, 0x31, 0x32, 0x33, 0x34,
   0x35, 0x38, 0x39, 0x3A, 0x3B, 0x3C, 0x3D, 0x41, 0x43, 0x44, 0x45, 0x47, 0x48, 0x49, 0x4A, 0x4B,
   0x4C, 0x4D, 0x4E, 0x4F, 0x50, 0x59, 0x60, 0x61, 0x62, 0x63, 0x64, 0x65, 0x66, 0x67, 0x68, 0x69,
   0x6A, 0x6B, 0x6C, 0x6D, 0x6E, 0x6F, 0x70, 0x80, 0x81, 0x82, 0x83, 0x84, 0x85, 0x86, 0x87, 0x88,
   0x89, 0x8A, 0x8B, 0x8C, 0x8D, 0x90, 0x91, 0x92, 0x93, 0x98, 0x99, 0xA0, 0xA1, 0xA2, 0xA8, 0xA9,
   0xB0, 0xB1, 0xB4, 0xB5, 0xC0]
def assigned (o : Nat) : Bool := opcodes.contains o

/-- The command is well-formed. -/
def wellFormed : Instr → Bool
  | .nop t w => newtRow t w [0x00]
  | .add t w => newtRow t w [0x01, 0x41]
  | .sub t w => newtRow t w [0x02]
  | .and t w => newtRow t w [0x03, 0x43]
  | .or t w => newtRow t w [0x04, 0x44]
  | .xor t w => newtRow t w [0x05, 0x45]
  | .andn t w => newtRow t w [0x06]
  | .shl t w => newtRow t w [0x07, 0x47]
  | .shr t w => newtRow t w [0x08, 0x48]
  | .sar t w => newtRow t w [0x09, 0x49]
  | .rol t w => newtRow t w [0x0A, 0x4A]
  | .ror t w => newtRow t w [0x0B, 0x4B]
  | .min t w => newtRow t w [0x0C, 0x4C]
  | .max t w => newtRow t w [0x0D, 0x4D]
  | .minu t w => newtRow t w [0x0E, 0x4E]
  | .maxu t w => newtRow t w [0x0F, 0x4F]
  | .mul t w => newtRow t w [0x10, 0x50]
  | .mulh t w => newtRow t w [0x11]
  | .mulhu t w => newtRow t w [0x12]
  | .clz t w => newtRow t w [0x13]
  | .popc t w => newtRow t w [0x14]
  | .bext t w => newtRow t w [0x15]
  | .bexts t w => newtRow t w [0x16]
  | .bins t w => newtRow t w [0x17]
  | .bswap t w => newtRow t w [0x18]
  | .li t w => newtRow t w [0x1D]
  | .lui t w => newtRow t w [0x1E]
  | .cmp t w => newtRow t w [0x19]
  | .cmpi t w => newtRow t w [0x59]
  | .plog t w => newtRow t w [0x1A]
  | .pget t w => newtRow t w [0x1B]
  | .pset t w => newtRow t w [0x1C]
  | .csrr t w => newtRow t w [0x20]
  | .csrw t w => newtRow t w [0x21]
  | .csrs t w => newtRow t w [0x22]
  | .csrc t w => newtRow t w [0x23]
  | .ld t w => newtRow t w [0x28, 0x29, 0x2A, 0x2B, 0x2C]
  | .lds t w => newtRow t w [0x2D, 0x2E, 0x2F, 0x30]
  | .st t w => newtRow t w [0x31, 0x32, 0x33, 0x34, 0x35]
  | .aadd t w => newtRow t w [0x38]
  | .aand t w => newtRow t w [0x39]
  | .aor t w => newtRow t w [0x3A]
  | .axor t w => newtRow t w [0x3B]
  | .aswp t w => newtRow t w [0x3C]
  | .acas t w => newtRow t w [0x3D]
  | .ldf t w => newtRow t w [0x60, 0x61, 0x62, 0x63, 0x64]
  | .ldfs t w => newtRow t w [0x65, 0x66, 0x67, 0x68]
  | .stf t w => newtRow t w [0x69, 0x6A, 0x6B, 0x6C, 0x6D]
  | .afadd t w => newtRow t w [0x6E]
  | .afswp t w => newtRow t w [0x6F]
  | .afcas t w => newtRow t w [0x70]
  | .pld t w => newtRow t w [0x80, 0x81, 0x82, 0x83, 0x84]
  | .pst t w => newtRow t w [0x85, 0x86, 0x87, 0x88, 0x89]
  | .tseal t w => newtRow t w [0x8A]
  | .release t w => newtRow t w [0x8B]
  | .drop t w => newtRow t w [0x8C]
  | .fork t w => newtRow t w [0x8D]
  | .lkup t w => newtRow t w [0x90]
  | .learn t w => newtRow t w [0x91]
  | .balloc t w => newtRow t w [0x92]
  | .bfree t w => newtRow t w [0x93]
  | .waitc t w => newtRow t w [0x98]
  | .fence t w => newtRow t w [0x99]
  | .br t w => newtRow t w [0xA0]
  | .call t w => newtRow t w [0xA1]
  | .jmpr t w => newtRow t w [0xA2]
  | .repi t w => newtRow t w [0xA8]
  | .repn t w => newtRow t w [0xA9]
  | .doze t w => newtRow t w [0xB0]
  | .exit t w => newtRow t w [0xB1]
  | .trap t w => newtRow t w [0xB4]
  | .eret t w => newtRow t w [0xB5]
  | .lyr t w => newtRow t w [0xC0]
  | .repeatIteration t => onThread t
  | .interruptEntry t => onThread t
  | .ttimerExpiry t => onThread t
  | .dozeTimeout t => onThread t
  | .asyncCompletion _ ecc => tileEcc ecc
  | .asyncTimeout _ => true
  | .kill t => onThread t
  | .killComplete t => onThread t
  | .restart t => onThread t
  | .service t pc priv => onThread t && decide (pc < 2 ^ 18) && decide (priv < 4)
  | .softint t => onThread t
  | .halt t => onThread t
  | .threadHalted t => onThread t
  | .resume t => onThread t
  | .wake t => onThread t
  | .coreReset c _ => decide (c < 24)
  | .cluCtlClr c => decide (c < 24)
  | .lyrBusyRetry t => onThread t
  | .lyreOperationComplete _ ecc => tileEcc ecc
  | .lyreFlush c _ => decide (c < 24)
  | .lyreFlushComplete c => decide (c < 24)
  | .cluLyctlClr c => decide (c < 24)
  | .frameReceive p _ _ _ => decide (p < 64)
  | .descriptorAdmit _ => true
  | .slotGrant => true
  | .slotFillComplete t k ecc => onThread t && decide (k < 2) && tileEcc ecc
  | .wakeRequestScan => true
  | .wakeStart => true
  | .wakePaced c => decide (c < 24)
  | .clusterWakeComplete c => decide (c < 24)
  | .clusterGate c => decide (c < 24)
  | .clusterParkDecision c => decide (c < 24)
  | .parkingComplete c => decide (c < 24)
  | .cluPwrctlWrite c _ => decide (c < 24)
  | .spnCtlClr => true
  | .endingArrival => true
  | .laneRetirement => true
  | .laneHoldExpiry l => decide (l < 65536)
  | .brgTurnRead _ => true
  | .turnComplete _ => true
  | .brgPass _ => true
  | .brgCtlClr => true
  | .ethTransmit p ecc => decide (p < 64) && tileEcc ecc
  | .hostRxWrite fn idx _ blen ecc => onFn fn && decide (idx < 256) && decide (256 ≤ blen) && decide (blen ≤ 65536) && tileEcc ecc
  | .fabricPktSend vc dev ecc => decide (vc < 8) && decide (dev < 1024) && tileEcc ecc
  | .bpmAllocation p => decide (p < 16)
  | .bpmFree p => decide (p < 16)
  | .ringFetchComplete p => decide (p < 16)
  | .auditStart => true
  | .auditStep => true
  | .rebuildGo p => decide (p < 16)
  | .rebuildComplete ecc => eccOk ecc
  | .bpmCtlClr => true
  | .tableAdd w => getF w F.TBL_CMD_op == 1
  | .tableSet w => getF w F.TBL_CMD_op == 2
  | .tableDelete w => getF w F.TBL_CMD_op == 3
  | .tableFind w => getF w F.TBL_CMD_op == 4
  | .readSlot w => getF w F.TBL_CMD_op == 5
  | .writeSlot w => getF w F.TBL_CMD_op == 6
  | .flush w => getF w F.TBL_CMD_op == 7
  | .bulkSet w => getF w F.TBL_CMD_op == 8
  | .pfxAdd w => getF w F.TBL_CMD_op == 9
  | .pfxDel w => getF w F.TBL_CMD_op == 10
  | .pfxRead w => getF w F.TBL_CMD_op == 11
  | .pfxFix w => getF w F.TBL_CMD_op == 12
  | .tblCmdDone => true
  | .relocationStep => true
  | .learnApply => true
  | .candidateExpiry _ => true
  | .ageingSweepStep t _ => decide (t < 32)
  | .paritySweepStep t _ slot _ _ => decide (t < 32) && (decide (slot < 4) || (decide (8 ≤ slot) && decide (slot < 16)))
  | .tblCtlClr => true
  | .claim n w req => lockCmd 0 n w req
  | .free n w req => lockCmd 1 n w req
  | .withdraw n w req => lockCmd 2 n w req
  | .reservationExpiry n => decide (n < 4096)
  | .registrationExpiry n agent => decide (n < 4096) && decide (agent < 2 ^ 24)
  | .notifyRead c agent => decide (c < 7) && onReader agent
  | .gkoCtlClr => true
  | .eventOccurrence n => decide (n < 2048)
  | .eventDelivery n => decide (n < 2048)
  | .eventAck n => decide (n < 2048)
  | .softwareDoorbell i => decide (i < 128)
  | .svcqRead => true
  | .evtCtlClr => true
  | .refreshDue m u _ _ => onUnit m u
  | .makeupRefresh m u _ => onUnit m u
  | .trefiChange m _ => decide (m < 12)
  | .powerDownEntry m u => onUnit m u
  | .rtPortTake m p => decide (m < 12) && decide (p < 4)
  | .rtReadReturn m p => decide (m < 12) && decide (p < 4)
  | .trackingStep m u _ _ _ => onUnit m u || (m == 12 && decide (u < 64))
  | .grant m u => onUnit m u
  | .retrain m u => onUnit m u
  | .track m u _ _ => onUnit m u
  | .retire m u => onUnit m u
  | .grantWaitExpiry m u => onUnit m u
  | .retrainingComplete m u _ _ _ => onUnit m u
  | .degradedRetry m u => onUnit m u
  | .hbmPurgeComplete q u => decide (q < 4) && decide (u < 32)
  | .zqCalibration m u => onUnit m u
  | .scrubRead k a ecc _ => decide (k < 6) && decide (a < 2 ^ 48) && eccOk ecc
  | .mcCtlClr m => decide (m < 12)
  | .hostLinkUp l cxl flit speed width =>
    decide (l < 16) && decide (cxl < 2) && decide (flit < 2) && decide (1 ≤ speed) && decide (speed ≤ 6) && [1, 2, 4, 8, 16].contains width
  | .hostLinkDown l => decide (l < 16)
  | .functionLevelReset fn => onFn fn
  | .mailboxRing fn _ => onFn fn
  | .mboxqRead agent => onReader agent
  | .txqEnable q v => decide (q < 4096) && getF v F.HST_TXQ_CFG_en == 1
  | .txDoorbell fn idx _ => onFn fn && decide (idx < 256)
  | .rxDoorbell fn idx _ => onFn fn && decide (idx < 256)
  | .txFetch q _ => decide (q < 4096)
  | .txFetchComplete q _ _ _ => decide (q < 4096)
  | .hostCompletionTimeout q _ => decide (q < 4096)
  | .rxNobufExpiry fn _ => onFn fn
  | .cxlMemRequest ld _ _ mask _ ecc => decide (ld < 16) && decide (mask < 2 ^ 64) && eccOk ecc
  | .pfaultRead agent => onReader agent
  | .hstCtlClr => true
  | .portEnable p v => decide (p < 64) && getF v F.MAC_PCFG_en == 1
  | .portDisable p rx _ v => decide (p < 64) && getF v F.MAC_PCFG_en == 0 && decide (rx < 2)
  | .portUp p => decide (p < 64)
  | .portLinkLoss p rx _ => decide (p < 64) && decide (rx < 2)
  | .remoteFaultHeld p rx _ => decide (p < 64) && decide (rx < 2)
  | .pauseFrameReceive p _ _ _ => decide (p < 64)
  | .pauseTimerExpiry p c => decide (p < 64) && decide (c < 8)
  | .pauseRepeat p => decide (p < 64)
  | .txtsRead p agent => decide (p < 64) && onReader agent
  | .macCtlClr p => decide (p < 64)
  | .obxLinkEnable l v => decide (l < 8) && getF v F.OBX_LCFG_en == 1
  | .obxLinkDisable l v => decide (l < 8) && getF v F.OBX_LCFG_en == 0
  | .obxTrainingComplete l => decide (l < 8)
  | .initFlitSend l => decide (l < 8)
  | .initReceive l seq ack devid tag _ num _ => decide (l < 8) && decide (seq < 4096) && decide (ack < 4096) && decide (devid < 1024) && decide (tag < 2 ^ 32) && decide (num < 8)
  | .flitReceive l _ => decide (l < 8)
  | .nakRepeat l => decide (l < 8)
  | .replayTimeout l => decide (l < 8)
  | .obxLinkLoss l => decide (l < 8)
  | .pkt l => decide (l < 8)
  | .rd l ecc => decide (l < 8) && eccOk ecc
  | .wr l => decide (l < 8)
  | .atom l ecc => decide (l < 8) && eccOk ecc
  | .lock l => decide (l < 8)
  | .intr l => decide (l < 8)
  | .resp l => decide (l < 8)
  | .member l => decide (l < 8)
  | .obxRequestTimeout _ => true
  | .mute l => decide (l < 8)
  | .unmute l => decide (l < 8)
  | .leave l => decide (l < 8)
  | .join l => decide (l < 8)
  | .originateMute w => bitsN w.toNat 47 44 == 1
  | .originateUnmute w => bitsN w.toNat 47 44 == 2
  | .originateLeave w => bitsN w.toNat 47 44 == 3
  | .originateJoin w => bitsN w.toNat 47 44 == 4
  | .muteExpiry _ => true
  | .recentPairExpiry _ _ => true
  | .joinDomain v => getF v F.OBX_ID_joined == 1
  | .leaveDomain v => getF v F.OBX_ID_joined == 0
  | .timestampSend l => decide (l < 8)
  | .timestampReceive l => decide (l < 8)
  | .timeSet _ => true
  | .obxCtlClr => true
  | .epochRunStart v => getF v F.EPC_CTL_run == 1
  | .swRegisterWrite a _ => swReg a
  | .commitRequest nwr _ => decide (nwr < 65536)
  | .commitWithdraw => true
  | .commitDiscard => true
  | .epochCutoff ecc => eccOk ecc
  | .epochDecisionPoint => true
  | .epochBoundary => true
  | .telemetryWriteComplete => true
  | .epcCtlClr => true
  | .verify => true
  | .verifyComplete => true
  | .arm => true
  | .preloadComplete => true
  | .disarm => true
  | .pairEnable v => getF v F.DST_CFG_en == 1
  | .mirrorSend => true
  | .markerSend => true
  | .markerReceive => true
  | .heartbeatSend => true
  | .heartbeatPeriodEnd => true
  | .failover => true
  | .handover => true
  | .handoverComplete => true
  | .resync => true
  | .dstCnt1Zero => true
  | .refclkMonitorWindow _ => true
  | .pllUnlock p => decide (p < 45)
  | .pllLock p => decide (p < 45)
  | .clockStop d => decide (d < 227)
  | .handshakeDelivery n => decide (n < 2048)
  | .fifoCrossingDelivery c => decide (c < 25)
  | .porstNAssert => true
  | .porstNRelease _ => true
  | .romHoldupTimeout => true
  | .devRelease agent => knownAgent agent
  | .clusterReset _ => true
  | .clusterHoldWrite _ => true
  | .clusterResetRelease c => decide (c < 24)
  | .halfResetTrigger kind _ => decide (kind < 5)
  | .halfResetRearm kind _ => decide (kind < 4)
  | .crsCtlClr => true
  | .vinSample mv amps watts => decide (mv < 65536) && decide (amps < 65536) && decide (watts < 65536)
  | .holdupOkChange _ => true
  | .holdupClear => true
  | .tempSample t0 t1 t2 t3 t4 t5 => [t0, t1, t2, t3, t4, t5].all (fun t => decide (t < 256))
  | .thermalTrip => true
  | .powerStateRequest v => getF v F.PWR_STATE_req != 3
  | .standbyRequest v => getF v F.PWR_STATE_req == 3
  | .standbyDrained => true
  | .standbyAbort => true
  | .standbyExitComplete => true
  | .chameleonSample ros reps _ => ros.length == 96 && reps.length == 48
  | .chameleonRecordDaily => true
  | .pwrCtlClr => true
  | .bootCodeStart out => out.all (fun e => e.2.2 == 5 || e.2.2 == 6)
  | .bootSeal agent => knownAgent agent
  | .runtimeStart => true
  | .nelistoreAppend typ body _ => typ != 0 && decide (typ ≤ 5) && decide (body.length ≤ 1030)
  | .nelistoreRotation _ => true
  | .commit => true
  | .rejectSelf => true
  | .reset => true
  | .ownerSet => true
  | .ownerClear => true
  | .tamperClear => true
  | .revoke k => decide (k < 256)
  | .sitHello port seq => onSit port seq
  | .sitBegin port seq _ _ _ => onSit port seq
  | .sitData port _ seq _ _ _ => onSit port seq
  | .sitEnd port _ seq _ => onSit port seq
  | .sitAbort port _ seq => onSit port seq
  | .sitActivate port _ seq => onSit port seq
  | .activateReset => true
  | .sitCommand port _ seq c arg => onSit port seq && decide (c < 256) && decide (arg < 256)
  | .sessionExpiry => true
  | .neighborSolicitation _ _ _ => true
  | .echoRequest _ _ _ => true
  | .presenceWindowOpen => true
  | .presenceWindowClose => true
  | .sealCheck _ => true
  | .bmcRead _ off => decide (off < 2 ^ 32)
  | .bmcWrite _ off _ => decide (off < 2 ^ 32)
  | .svcCtlClr => true
  | .tringEnable v => getF v F.BKG_TRING_CFG_en == 1
  | .bkgCtlClr => true
  | .registerWrite x => regAccess x
  | .vaonPowerUp => true
  | .vaonPowerLoss => true
  | .presNHigh => true
  | .perstpNRelease p => decide (p < 4)
  | .svcPortUp => true
  | .aonclkEpochWindow => true
  | .sitBadMessage port => decide (port < 2)
  | .unassignedOpcode t w => onThread t && !assigned (iOpcode w)
  | .pcRangeFetch t => onThread t
  | .cxlMailboxCommand l op => decide (l < 16) && decide (op < 65536)

end Sys2Proof
end

