-- ==== Sys2Proof/Safety.lean ====
section
/-! DEFINITION. The words claims are made in: the canonical form of State, a thread with nothing in its way, what an
instruction leaves of a thread, and what a command may not touch. -/

namespace Sys2Proof.Machine

/-! ## Canonical form -/

/-- The register map is in canonical form: offsets rise strictly, and no register at its reset value is listed. -/
def regsWf (t : Tab Word) : Prop :=
  (t.map (fun e => e.1)).Pairwise (· < ·) ∧ ∀ e ∈ t, e.2 ≠ resetWord e.1

/-- Equal registers, memories and ready queues are equal data: every one of them is in its
canonical form, and the image's Ethernet ports are among the 64. -/
structure Canonical (s : State) : Prop where
  csr : regsWf s.csr
  mem : Memory.wf s.mem
  scratch : Memory.wf s.scratch
  code : Memory.wf s.code
  queues : Tab.wf [] s.spawn.queues = true ∧ ∀ e ∈ s.spawn.queues, e.1 < 1024
  ports : ∀ e ∈ s.img.ports, e.1 < 64

/-! ## A thread about to run an instruction -/

/-- An operation of thread `t` may yet write a register of it. -/
def mayWrite (t : Nat) (o : AsyncOp) : Bool := o.thread == t && o.dest != 0 && !o.dead && !o.late

/-- Thread `t` exists and is ready; it repeats nothing, stands far enough from all it has written (R77), and no operation
of it is to write a register. -/
def settled (s : State) (t : Nat) : Bool :=
  decide (t < 3072) && ready s t && (th s t).rep.isNone && (th s t).hist.all Haz.met && !s.ops.any (mayWrite t)

/-- Value of predicate `i` (R68). -/
def predVal (s : State) (t i : Nat) : Bool := i == 0 || (th s t).p.testBit i

/-- The guard of a word is true (R73). -/
def guardOn (s : State) (t : Nat) (w : Word) : Bool := Bool.xor (predVal s t (iGuardP w)) (iNeg w)

/-- Value of general register `r` (R67). -/
def regVal (s : State) (t r : Nat) : Word := if r = 0 then 0 else Tab.get 0 (th s t).g r

/-! ## What an instruction leaves of its thread -/

/-- Register `r` written with `v`, `need` the distance its readers keep (R67, R77): register 0 discards. -/
def wroteG (x : Thread) (r : Nat) (v : Word) (need : Nat) : Thread :=
  if r = 0 then x
  else { x with g := Tab.set 0 x.g r v,
                hist := { kind := .g, key := r, need := need, age := 0, rep := false, before := Tab.get 0 x.g r,
                          after := v, pc := x.pc } :: x.hist }

/-- Predicate `i` written (R68): predicate 0 discards. -/
def wroteP (x : Thread) (i : Nat) (v : Bool) : Thread :=
  if i = 0 then x
  else { x with p := putN x.p i i (b2n v),
                hist := { kind := .p, key := i, need := 2, age := 0, rep := false,
                          before := toW (b2n (x.p.testBit i)), after := toW (b2n v), pc := x.pc } :: x.hist }

/-- The commit of an instruction that goes on at `npc`: one more is counted, and distances advance (R71, R76);
a BUSY run ends (R157). -/
def wentTo (x : Thread) (npc : Nat) : Thread :=
  { x with instret := x.instret + 1, hist := ageHist x.hist, pc := npc, lyrRun := lyrRunAfter x }

/-- The commit of an instruction that goes on at the next word. -/
def advanced (x : Thread) : Thread := wentTo x (x.pc + 6)

/-- `n` bytes from near address `ea` are where the near map of R89 puts them for a load (or a store) of the thread. -/
def nearAt (s : State) (t ea n : Nat) (store : Bool) (l : List NearByte) : Prop := nearMap s t ea n store = .bytes l

/-- The address a near instruction names (R97): g[a], moved by the immediate unless it increments g[a] afterwards. -/
def nearEa (s : State) (t : Nat) (w : Word) : Nat :=
  (if w.getLsbD 20 then regVal s t (iA w) else regVal s t (iA w) + (w.extractLsb' 0 20).signExtend 48).toNat

/-- The increment of g[a] after a post-increment access (R97). -/
def increased (s : State) (t : Nat) (w : Word) (x : Thread) : Thread :=
  if w.getLsbD 20 then wroteG x (iA w) (regVal s t (iA w) + (w.extractLsb' 0 20).signExtend 48) 2 else x

/-- The address a far or packet instruction names (R98, R99). -/
def farEa (s : State) (t : Nat) (w : Word) : Nat := (regVal s t (iA w) + (w.extractLsb' 0 17).signExtend 48).toNat

/-- The state after an instruction of thread `t` that changes its thread alone, as `f` says. -/
def ran (s : State) (t : Nat) (f : Thread → Thread) : State := setTh (issued s t) t (f (th (issued s t) t))

/-- A near byte that nothing but threads changes now: no fill, no Lyre operation, and no counter (R91, R149, R581). -/
def steady (s : State) (t : Nat) : NearByte → Bool
  | .scratch k => !lyrWriting s (thCluster t) (k % 0x100000)
  | .slot k => (filling s k).isEmpty
  | .coreReg _ => false

/-- The operation a commit of thread `t` hands to its unit (R81, R82): the next identifier, the token or none, the
destination, and the timer of THR_FTO. -/
def handed (s : State) (t : Nat) (w : Word) (dest : Nat) (cls : OpClass) (k : OpKind) : AsyncOp :=
  { id := s.nextOp, thread := t, cls := cls, tok := if iTok w < 8 then some (iTok w) else none, dest := dest, kind := k,
    pc := (th s t).pc, limit := (th s t).csr.fto.toNat % 2 ^ 16, dead := false, late := false, clobber := [],
    result := none }

/-- The thread of a commit: its token goes PENDING, if it names one. -/
def tokPending (w : Word) (x : Thread) : Thread :=
  if iTok w < 8 then { x with tok := Tab.set Tok.idle x.tok (iTok w) .pending } else x

/-- The commit of an asynchronous operation, `x` the thread but for its token, its pc and its count: the operation joins
the others, and the thread goes on. -/
def committedAs (s : State) (x : Thread) (t : Nat) (w : Word) (dest : Nat) (cls : OpClass) (k : OpKind) : State :=
  { setTh (issued s t) t (advanced (tokPending w x)) with
    ops := s.ops ++ [handed s t w dest cls k], nextOp := s.nextOp + 1 }

/-- The same where the thread is otherwise as it was. -/
def committed (s : State) (t : Nat) (w : Word) (dest : Nat) (cls : OpClass) (k : OpKind) : State :=
  committedAs s (th (issued s t) t) t w dest cls k

/-- The token named is free, or none is (R74, R83): `posted` allows none. -/
def tokFree (s : State) (t : Nat) (w : Word) (posted : Bool) : Prop :=
  (iTok w < 8 ∧ Tab.get Tok.idle (th s t).tok (iTok w) ≠ .pending) ∨ (posted = true ∧ iTok w = 8)

/-- A trap's or interrupt's entry from TSTAT.th 0 (R124), to return to `r`: a repeat it breaks goes to TREP, TSTAT keeps ie
and priv in pie and ppriv, K is entered at TVEC with interrupts off and th set. -/
def entered (x : Thread) (code detail : Nat) (v : Word) (r : Nat) : Thread :=
  { x with
    csr := { x.csr with
      tstat := putF (putF (putF (putF (putF x.csr.tstat TS.ppriv (getF x.csr.tstat TS.priv)) TS.pie
        (getF x.csr.tstat TS.ie)) TS.ie 0) TS.th 1) TS.priv 2,
      tepc := toW (r % 2 ^ 18), tcause := toW (detail * 2 ^ 8 + code), tval := v, trep := trepAtEntry x r },
    pc := x.csr.tvec.toNat % 2 ^ 18, rep := none, wait := .none, hist := drainHist x.hist }

/-- A trap of an instruction that has issued, from TSTAT.th 0, to return to `r`: the younger ones are squashed (R65). -/
def trapped (s : State) (t : Nat) (code detail : Nat) (v : Word) (r : Nat) : State :=
  setTh (squashed (issued s t) t 6 3) t (entered (th (issued s t) t) code detail v r)

/-! ## What stays -/

/-- Every register but those named reads as before. -/
def RegsKept (s u : State) (l : List Nat) : Prop := ∀ a, a ∉ l → rd u a = rd s a

/-- Every thread but `t` is as before. -/
def OthersKept (s u : State) (t : Nat) : Prop := ∀ k, k ≠ t → th u k = th s k

/-- A counter that saturates has counted `k` more; one that wraps has. -/
def CountsBy (s u : State) (a : Nat) (f : Fld) (k : Nat) : Prop := fld u a f = Min.min (2 ^ f.width - 1) (fld s a f + k)
def WrapsBy (s u : State) (a : Nat) (f : Fld) (k : Nat) : Prop := fld u a f = (fld s a f + k) % 2 ^ f.width

/-- `u` is `s` but for registers and the crossings of event sources. -/
def Counted (s u : State) : Prop := ∃ c e, u = { s with csr := c, ev := e }

/-- Every byte of every memory reads as before. -/
def BytesKept (s u : State) : Prop := u.mem = s.mem ∧ u.scratch = s.scratch ∧ u.code = s.code ∧ u.slotRam = s.slotRam

end Sys2Proof.Machine
end

