-- ==== Sys2Proof/Certificates/Slice0/Obligations.lean ====
section
/-! DEFINITION. The statements about the model, from the numbered rules of the spec. -/

open Sys2Proof Sys2Proof.Machine

/-! ## Newt: data processing -/

namespace Sys2Proof.Machine

/-- A two-operand instruction of R92: its command, its opcodes, whether an immediate is a count of 0–47, its distance and
its operation. -/
structure AluRow where
  cmd : Nat → Word → Instr
  reg : Nat
  imm : Option Nat
  count : Bool
  need : Nat
  f : Word → Word → Word

/-- The two-operand rows of R92, operations as its table words them. -/
def aluTable : List AluRow := [
  ⟨.add, 0x01, some 0x41, false, 2, fun a b => BitVec.ofNat 48 (a.toNat + b.toNat)⟩,
  ⟨.sub, 0x02, none, false, 2, fun a b => BitVec.ofInt 48 (a.toNat - b.toNat)⟩,
  ⟨.and, 0x03, some 0x43, false, 2, fun a b => a &&& b⟩,
  ⟨.or, 0x04, some 0x44, false, 2, fun a b => a ||| b⟩,
  ⟨.xor, 0x05, some 0x45, false, 2, fun a b => a ^^^ b⟩,
  ⟨.andn, 0x06, none, false, 2, fun a b => a &&& ~~~b⟩,
  ⟨.shl, 0x07, some 0x47, true, 2, fun a b => BitVec.ofNat 48 (a.toNat * 2 ^ b.toNat)⟩,
  ⟨.shr, 0x08, some 0x48, true, 2, fun a b => BitVec.ofNat 48 (a.toNat / 2 ^ b.toNat)⟩,
  ⟨.sar, 0x09, some 0x49, true, 2, fun a b => BitVec.ofInt 48 (a.toInt / 2 ^ b.toNat)⟩,
  ⟨.rol, 0x0A, some 0x4A, true, 2, fun a b => a.rotateLeft (b.toNat % 48)⟩,
  ⟨.ror, 0x0B, some 0x4B, true, 2, fun a b => a.rotateRight (b.toNat % 48)⟩,
  ⟨.min, 0x0C, some 0x4C, false, 2, fun a b => BitVec.ofInt 48 (Min.min a.toInt b.toInt)⟩,
  ⟨.max, 0x0D, some 0x4D, false, 2, fun a b => BitVec.ofInt 48 (Max.max a.toInt b.toInt)⟩,
  ⟨.minu, 0x0E, some 0x4E, false, 2, fun a b => BitVec.ofNat 48 (Min.min a.toNat b.toNat)⟩,
  ⟨.maxu, 0x0F, some 0x4F, false, 2, fun a b => BitVec.ofNat 48 (Max.max a.toNat b.toNat)⟩,
  ⟨.mul, 0x10, some 0x50, false, 4, fun a b => BitVec.ofNat 48 (a.toNat * b.toNat)⟩,
  ⟨.mulh, 0x11, none, false, 4, fun a b => (a.signExtend 96 * b.signExtend 96).extractLsb' 48 48⟩,
  ⟨.mulhu, 0x12, none, false, 4, fun a b => (a.setWidth 96 * b.setWidth 96).extractLsb' 48 48⟩]

/-- A one-operand instruction of R92 and R93: its command, opcode, the words it allows, and its operation. -/
structure BitRow where
  cmd : Nat → Word → Instr
  op : Nat
  ok : Word → Prop
  f : Word → Word → Word

/-- The function field holds pos in [17:12] and len in [5:0], with 1 ≤ len and pos + len ≤ 48 (R92). -/
def fieldWord (w : Word) : Prop :=
  ∃ pos len, iFn w = pos * 2 ^ 12 + len ∧ 1 ≤ len ∧ pos + len ≤ 48 ∧ pos < 64 ∧ len < 64

/-- pos and len of such a word. -/
def posOf (w : Word) : Nat := iFn w / 2 ^ 12 % 64
def lenOf (w : Word) : Nat := iFn w % 64

/-- The one-operand rows of R92 and LUI of R93; the first argument of an operation is the instruction word. -/
def bitTable : List BitRow := [
  ⟨.clz, 0x13, fun w => iFn w = 0, fun _ a => a.clz⟩,
  ⟨.popc, 0x14, fun w => iFn w = 0, fun _ a => a.cpop⟩,
  ⟨.bext, 0x15, fieldWord, fun w a => BitVec.ofNat 48 (a.toNat / 2 ^ posOf w % 2 ^ lenOf w)⟩,
  ⟨.bexts, 0x16, fieldWord, fun w a => BitVec.ofInt 48 (((a.toNat / 2 ^ posOf w : Nat) : Int).bmod (2 ^ lenOf w))⟩,
  ⟨.bswap, 0x18, fun w => iFn w = 0, fun _ a => (a.extractLsb' 0 8 ++ a.extractLsb' 8 8).setWidth 48⟩,
  ⟨.bswap, 0x18, fun w => iFn w = 1, fun _ a =>
    (a.extractLsb' 0 8 ++ a.extractLsb' 8 8 ++ a.extractLsb' 16 8 ++ a.extractLsb' 24 8).setWidth 48⟩,
  ⟨.bswap, 0x18, fun w => iFn w = 2, fun _ a =>
    a.extractLsb' 0 8 ++ a.extractLsb' 8 8 ++ a.extractLsb' 16 8 ++ a.extractLsb' 24 8 ++ a.extractLsb' 32 8 ++
      a.extractLsb' 40 8⟩,
  ⟨.lui, 0x1E, fun _ => True, fun w a => (a <<< 21) ||| (w.extractLsb' 0 21).setWidth 48⟩]

end Sys2Proof.Machine

/-- R72 and R74: where the fields of an instruction word lie, and the sign extension of its immediates. -/
def Obligations.InstructionFields : Prop :=
  ∀ w : Word,
    iOpcode w = (w.extractLsb' 36 8).toNat ∧ iNeg w = w.getLsbD 47 ∧ iGuardP w = (w.extractLsb' 44 3).toNat ∧
    iD w = (w.extractLsb' 31 5).toNat ∧ iA w = (w.extractLsb' 26 5).toNat ∧ iB w = (w.extractLsb' 21 5).toNat ∧
    iFn w = (w.extractLsb' 0 21).toNat ∧ iTok w = (w.extractLsb' 17 4).toNat ∧
    iTable w = (w.extractLsb' 12 5).toNat ∧ iSimm21 w = (w.extractLsb' 0 21).signExtend 48 ∧
    iSimm20 w = (w.extractLsb' 0 20).signExtend 48 ∧ iSimm17 w = (w.extractLsb' 0 17).signExtend 48

/-- R92: each two-operand instruction writes the result of its row to g[d], in REG form with g[b] and the function field
zero, in IMM form with the immediate and b zero; nothing but its thread's d, pc, count and distances changes. R92, R93:
NOP, the one-operand instructions, BINS and LI. -/
def Obligations.AluOperations : Prop :=
  (∀ r ∈ aluTable, ∀ (s : State) (t : Nat) (w : Word), settled s t = true → guardOn s t w = true →
    (iOpcode w = r.reg → iFn w = 0 →
      exec (r.cmd t w) s = .next (ran s t (fun x => advanced
        (wroteG x (iD w) (r.f (regVal s t (iA w)) (regVal s t (iB w))) r.need)))) ∧
    (∀ o, r.imm = some o → iOpcode w = o → iB w = 0 → (r.count = true → iFn w < 48) →
      exec (r.cmd t w) s = .next (ran s t (fun x => advanced
        (wroteG x (iD w) (r.f (regVal s t (iA w)) ((w.extractLsb' 0 21).signExtend 48)) r.need))))) ∧
  ((∀ r ∈ bitTable, ∀ (s : State) (t : Nat) (w : Word), settled s t = true → guardOn s t w = true →
    iOpcode w = r.op → iB w = 0 → r.ok w →
      exec (r.cmd t w) s = .next (ran s t (fun x => advanced
        (wroteG x (iD w) (r.f w (regVal s t (iA w))) 2)))) ∧
  (∀ (s : State) (t : Nat) (w : Word), settled s t = true → guardOn s t w = true →
    (iOpcode w = 0x00 → w.toNat % 2 ^ 36 = 0 → exec (.nop t w) s = .next (ran s t advanced)) ∧
    (iOpcode w = 0x1D → iA w = 0 → iB w = 0 →
      exec (.li t w) s = .next (ran s t (fun x => advanced
        (wroteG x (iD w) ((w.extractLsb' 0 21).signExtend 48) 2)))) ∧
    (iOpcode w = 0x17 → iB w = 0 → fieldWord w →
      exec (.bins t w) s = .next (ran s t (fun x => advanced (wroteG x (iD w)
        (let m : Word := BitVec.ofNat 48 (2 ^ lenOf w - 1)
         (regVal s t (iD w) &&& ~~~(m <<< posOf w)) ||| ((regVal s t (iA w) &&& m) <<< posOf w)) 2))))))
/-! ## Newt: predicates and CSRs -/

namespace Sys2Proof.Machine

/-- The conditions of R94 by code. -/
def condTable : List (Word → Word → Prop) := [
  fun a b => a = b, fun a b => a ≠ b, fun a b => a.toInt < b.toInt, fun a b => b.toInt ≤ a.toInt,
  fun a b => a.toNat < b.toNat, fun a b => b.toNat ≤ a.toNat, fun a b => a &&& b ≠ 0, fun a b => a &&& b = 0]

/-- The predicate operations of R95 by code. -/
def plogTable : List (Bool → Bool → Bool) := [
  fun a b => a && b, fun a b => a || b, fun a b => a != b, fun a b => a && !b,
  fun a b => !(a && b), fun a b => !(a || b), fun a _ => a, fun a _ => !a]

/-- The combine of R94 in bits [35:34], applied to p[pd]; pd is in bits [33:31]. -/
def combined (s : State) (t : Nat) (w : Word) (c : Bool) : Bool :=
  if iD w / 8 = 0 then c
  else if iD w / 8 = 1 then predVal s t (iD w % 8) && c
  else predVal s t (iD w % 8) || c

/-- A CSR with a writable field, and the bits of it that are not RO (R71, R135). -/
def csrRw : List (Nat × Nat) := [
  (0x400, 0xFFFF), (0x401, 0x3FFFF), (0x402, 0xFFFFFFFFFC07), (0x800, 0xECC), (0x801, 0x3FFFF), (0x802, 0x3FFFF),
  (0x803, 0xFF3F), (0x804, 0xFFFFFFFFFFFF), (0x805, 0xC003FFFFFFFF), (0x806, 0xFFFFFFFFFFFF), (0x807, 0x707),
  (0x808, 0xFFFFFFFFFF)]

/-- What a CSR holds after a write of `v` over `old` (R71): RO bits stay; a 0b11 leaves ppriv or pkt_priv of TSTAT
(R135). -/
def csrAfter (n m : Nat) (old v : Word) : Word :=
  let v1 := (old &&& ~~~BitVec.ofNat 48 m) ||| (v &&& BitVec.ofNat 48 m)
  if n ≠ 0x800 then v1
  else
    let keep (f : Fld) (x : Word) : Word := if getF x f = 3 then putF x f (getF old f) else x
    keep TS.pktPriv (keep TS.ppriv v1)

/-- CSRW, CSRS and CSRC: command, opcode, whether the old value is read, and the value made of it and g[a] (R96). -/
def csrTable : List ((Nat → Word → Instr) × Nat × (Word → Word → Word)) := [
  (.csrw, 0x21, fun _ a => a), (.csrs, 0x22, fun c a => c ||| a), (.csrc, 0x23, fun c a => c &&& ~~~a)]

end Sys2Proof.Machine

/-- R94: CMP and CMPI combine their condition into p[pd], and nothing else changes. R95: PLOG combines its operation
into p[pd]; PGET reads the eight predicates; PSET writes p1 to p7. -/
def Obligations.PredicatesSet : Prop :=
  (∀ (s : State) (t : Nat) (w : Word) (k : Nat) (c : Word → Word → Prop), settled s t = true → guardOn s t w = true →
    iD w / 8 < 3 → condTable[k]? = some c →
    (∀ r : Bool, iOpcode w = 0x19 → iFn w = k → (r = true ↔ c (regVal s t (iA w)) (regVal s t (iB w))) →
      exec (.cmp t w) s = .next (ran s t (fun x => advanced (wroteP x (iD w % 8) (combined s t w r))))) ∧
    (∀ r : Bool, iOpcode w = 0x59 → iB w = k → (r = true ↔ c (regVal s t (iA w)) ((w.extractLsb' 0 21).signExtend 48)) →
      exec (.cmpi t w) s = .next (ran s t (fun x => advanced (wroteP x (iD w % 8) (combined s t w r)))))) ∧
  (∀ (s : State) (t : Nat) (w : Word), settled s t = true → guardOn s t w = true →
    (∀ f, iOpcode w = 0x1A → iD w / 8 < 3 → iA w < 8 → iB w < 8 → plogTable[iFn w]? = some f →
      exec (.plog t w) s = .next (ran s t (fun x => advanced (wroteP x (iD w % 8)
        (combined s t w (f (predVal s t (iA w)) (predVal s t (iB w)))))))) ∧
    (iOpcode w = 0x1B → iA w = 0 → iB w = 0 → iFn w = 0 →
      exec (.pget t w) s = .next (ran s t (fun x => advanced (wroteG x (iD w)
        (BitVec.ofNat 48 ((th s t).p % 256) ||| 1) 2)))) ∧
    (iOpcode w = 0x1C → iD w = 0 → iB w = 0 → iFn w = 0 →
      exec (.pset t w) s = .next (ran s t (fun x => advanced
        ([1, 2, 3, 4, 5, 6, 7].foldl (fun x i => wroteP x i ((regVal s t (iA w)).getLsbD i)) x)))))
/-- R71, R96: CSRR reads an assigned CSR the thread's privilege reaches; CSRW, CSRS and CSRC give a writable one its new
value, but for its RO bits; every other CSR but the instruction count stays, and so does the rest of the machine. A read of
THR_CYCLE gives the count it has reached. -/
def Obligations.CsrAccess : Prop :=
  (∀ (s : State) (t : Nat) (w v : Word), settled s t = true → guardOn s t w = true → iOpcode w = 0x20 → iA w = 0 →
    iB w = 0 → iFn w < 4096 → csrGet s t (iFn w) = some v → iFn w / 0x400 ≤ privOf (th s t) →
      (iFn w ≠ 0x001 → exec (.csrr t w) s = .next (ran s t (fun x => advanced (wroteG x (iD w) v 2)))) ∧
      (iFn w = 0x001 → ∃ u, exec (.csrr t w) s = .next u ∧ (th u t).pc = (th s t).pc + 6 ∧
        (∀ k, regVal u t k = if k = iD w ∧ k ≠ 0 then (core u (t / 8)).cycle else regVal s t k) ∧
        OthersKept s u t ∧ RegsKept s u [] ∧ BytesKept s u ∧ u.ops = s.ops)) ∧
  (∀ r ∈ csrTable, ∀ e ∈ csrRw, ∀ (s : State) (t : Nat) (w old : Word), settled s t = true → guardOn s t w = true →
    iOpcode w = r.2.1 → iD w = 0 → iB w = 0 → iFn w = e.1 → e.1 / 0x400 ≤ privOf (th s t) → csrGet s t e.1 = some old →
    (e.1 = 0x401 ∨ e.1 = 0x801 → (r.2.2 old (regVal s t (iA w))).toNat % 2 ^ 18 % 6 = 0 ∧
      (r.2.2 old (regVal s t (iA w))).toNat % 2 ^ 18 < 262140) →
    ∃ x, exec (r.1 t w) s = .next (setTh (issued s t) t x) ∧
      csrGet (setTh (issued s t) t x) t e.1 = some (csrAfter e.1 e.2 old (r.2.2 old (regVal s t (iA w)))) ∧
      (∀ k, k ≠ e.1 → k ≠ 0x002 → csrGet (setTh (issued s t) t x) t k = csrGet s t k) ∧
      x.g = (th s t).g ∧ x.p = (th s t).p ∧ x.tok = (th s t).tok ∧ x.pc = (th s t).pc + 6 ∧
      x.instret = (th s t).instret + 1 ∧ x.state = (th s t).state)

/-! ## Newt: near memory -/

/-- R89, R91, R97: a near load of 1, 2, 3, 4 or 6 bytes gives g[d] their little-endian value, zero-extended by LD and
sign-extended by LDS; a post-increment moves g[a]; no byte changes. A byte that a fill or Lyre changes meanwhile is not
told (R149, R581); of a counter of the core the load gives what it has reached. R97: a near store puts the low bytes of
g[b] at its address, least significant first; every other near byte reads as before, and nothing changes but near memory
and its thread. R91, R97: a near atomic works on an aligned 8-byte slot of cluster scratch: its low 48 bits become the
operation's result, g[d] gets the old value, and every other near byte reads as before. -/
def Obligations.NearAccesses : Prop :=
  (∀ (s : State) (t : Nat) (w : Word) (n : Nat) (l : List NearByte), settled s t = true → guardOn s t w = true →
    iB w = 0 → (w.getLsbD 20 = true → iA w ≠ 0 ∧ iD w ≠ iA w) → nearAt s t (nearEa s t w) n false l →
    ∀ r ∈ ([(.ld, [(0x28, 1), (0x29, 2), (0x2A, 3), (0x2B, 4), (0x2C, 6)], fun v => BitVec.ofNat 48 v),
        (.lds, [(0x2D, 1), (0x2E, 2), (0x2F, 3), (0x30, 4)], fun v => (BitVec.ofNat (8 * n) v).signExtend 48)] :
          List ((Nat → Word → Instr) × List (Nat × Nat) × (Nat → Word))),
      (iOpcode w, n) ∈ r.2.1 → ∃ u, exec (r.1 t w) s = .next u ∧
        ((∀ b ∈ l, steady s t b = true ∨ ∃ o, b = .coreReg o) → (th u t) = advanced (increased s t w
          (wroteG (th (issued s t) t) (iD w) (r.2.2 (leNat (l.map (nearRd u t)))) 5))) ∧
        (th u t).pc = (th s t).pc + 6 ∧ (∀ k, k ≠ iD w → k ≠ iA w → regVal u t k = regVal s t k) ∧
        OthersKept s u t ∧ RegsKept s u [] ∧ BytesKept s u ∧ u.ops = s.ops) ∧
  (∀ (s : State) (t : Nat) (w : Word) (n : Nat) (l : List NearByte), settled s t = true → guardOn s t w = true →
    iD w = 0 → (w.getLsbD 20 = true → iA w ≠ 0) → nearAt s t (nearEa s t w) n true l →
    (iOpcode w, n) ∈ [(0x31, 1), (0x32, 2), (0x33, 3), (0x34, 4), (0x35, 6)] →
    ∃ u, exec (.st t w) s = .next u ∧
      (∀ i b, l[i]? = some b → nearRd u t b = BitVec.ofNat 8 ((regVal s t (iB w)).toNat / 256 ^ i)) ∧
      (∀ k b, b ∉ l → (∀ o, b ≠ .coreReg o) → nearRd u k b = nearRd s k b) ∧
      (th u t).g = (advanced (increased s t w (th s t))).g ∧ (th u t).pc = (th s t).pc + 6 ∧
      (th u t).p = (th s t).p ∧ (th u t).tok = (th s t).tok ∧ (th u t).csr = (th s t).csr ∧
      OthersKept s u t ∧ RegsKept s u [] ∧ u.mem = s.mem ∧ u.code = s.code ∧ u.ops = s.ops ∧ u.bridge = s.bridge) ∧
  (∀ r ∈ ([(.aadd, 0x38, fun m b _ => m + b), (.aand, 0x39, fun m b _ => m &&& b), (.aor, 0x3A, fun m b _ => m ||| b),
      (.axor, 0x3B, fun m b _ => m ^^^ b), (.aswp, 0x3C, fun _ b _ => b),
      (.acas, 0x3D, fun m b d => if m = d then b else m)] :
        List ((Nat → Word → Instr) × Nat × (Word → Word → Word → Word))),
    ∀ (s : State) (t : Nat) (w : Word) (l : List NearByte), settled s t = true → guardOn s t w = true →
    iOpcode w = r.2.1 → w.getLsbD 20 = false → nearEa s t w + 6 ≤ 0x100000 → nearEa s t w % 8 = 0 →
    nearAt s t (nearEa s t w) 6 true l →
    let old : Word := BitVec.ofNat 48 (leNat (l.map (nearRd s t)))
    ∃ u, exec (r.1 t w) s = .next u ∧
      BitVec.ofNat 48 (leNat (l.map (nearRd u t))) = r.2.2 old (regVal s t (iB w)) (regVal s t (iD w)) ∧
      (∀ k b, b ∉ l → (∀ o, b ≠ .coreReg o) → nearRd u k b = nearRd s k b) ∧
      (∀ k, regVal u t k = if k = iD w ∧ k ≠ 0 then old else regVal s t k) ∧
      (th u t).pc = (th s t).pc + 6 ∧ (th u t).p = (th s t).p ∧ (th u t).tok = (th s t).tok ∧
      (th u t).csr = (th s t).csr ∧ OthersKept s u t ∧ RegsKept s u [] ∧ u.mem = s.mem ∧ u.slotRam = s.slotRam ∧
      u.code = s.code ∧ u.ops = s.ops)
/-! ## Newt: asynchronous operations -/

namespace Sys2Proof.Machine

/-- A far instruction of R98: its command, opcode, bytes, kind, and the operation its address and data make. -/
structure FarRow where
  cmd : Nat → Word → Instr
  op : Nat
  bytes : Nat
  kind : FarKind
  work : Nat → Word → Word → OpKind

/-- The rows of R98: loads, sign-extending loads, stores, atomics. The data of a store is the low bytes of g[b]; of an
atomic g[b], and g[d] for AFCAS. -/
def farTable : List FarRow :=
  ([(0x60, 1), (0x61, 2), (0x62, 3), (0x63, 4), (0x64, 6)].map
    (fun e => ⟨.ldf, e.1, e.2, .load, fun ea _ _ => .load ea e.2 false⟩)) ++
  ([(0x65, 1), (0x66, 2), (0x67, 3), (0x68, 4)].map
    (fun e => ⟨.ldfs, e.1, e.2, .load, fun ea _ _ => .load ea e.2 true⟩)) ++
  ([(0x69, 1), (0x6A, 2), (0x6B, 3), (0x6C, 4), (0x6D, 6)].map
    (fun e => ⟨.stf, e.1, e.2, .store, fun ea b _ => .store ea e.2 (b.toNat % 256 ^ e.2)⟩)) ++
  [⟨.afadd, 0x6E, 6, .atom, fun ea b _ => .atom 0 ea b.toNat 0⟩,
   ⟨.afswp, 0x6F, 6, .atom, fun ea b _ => .atom 4 ea b.toNat 0⟩,
   ⟨.afcas, 0x70, 6, .atom, fun ea b d => .atom 5 ea b.toNat d.toNat⟩]

/-- Fields and token of a far instruction (R74, R98): a load has b zero, a store d zero and may be posted. -/
def farWord (s : State) (t : Nat) (w : Word) : FarKind → Prop
  | .load => iB w = 0 ∧ tokFree s t w false
  | .store => iD w = 0 ∧ tokFree s t w true
  | .atom => tokFree s t w false

/-- A far access that R98 and R512 let pass: its range, its alignment, and the protection map. -/
def farAllowed (s : State) (t ea n : Nat) (k : FarKind) : Prop :=
  farBad k (n == 6 && k != .atom) ea n = false ∧ ¬(privOf (th s t) = 0 ∧ inPstore ea = true) ∧
  (if k = .atom then ea % 8 = 0 else ea % 64 + n ≤ 64) ∧ allowed s (privOf (th s t)) ea k.reads k.writes = true

end Sys2Proof.Machine

/-- R81, R82, R98: a far instruction that no rule stops hands its operation to its unit, its token goes PENDING and the
thread goes on; a store to BRG_PASS takes its packet's lane and sequence along, and fails without a packet (R216, R217).
R397: a far access to another device sends it an RD, WR or ATOM of its bytes at the window offset. -/
def Obligations.FarAccesses : Prop :=
  (∀ r ∈ farTable, ∀ (s : State) (t : Nat) (w : Word), settled s t = true → guardOn s t w = true → iOpcode w = r.op →
    farWord s t w r.kind → farAllowed s t (farEa s t w) r.bytes r.kind →
    let ea := farEa s t w
    let k := r.work ea (regVal s t (iB w)) (regVal s t (iD w))
    ((∀ d, regionOf ea ≠ .remote d) →
      (r.kind = .store → ∀ off, regionOf ea = .csr off → off < Reg.BRG_PASS 0 ∨ Reg.BRG_PASS 3 < off) →
      exec (r.cmd t w) s = .next (committed s t w (iD w) .far k)) ∧
    (∀ p, r.kind = .store → p < 4 → regionOf ea = .csr (Reg.BRG_PASS p) →
      exec (r.cmd t w) s = .next (committed s t w 0 .far (match (th s t).pkt with
        | some d => .pass p d.lane d.seq
        | none => .known 3 0))) ∧
    (∀ d, regionOf ea = .remote d → remoteBad s d = true →
      exec (r.cmd t w) s = .next (committed s t w (iD w) .far (.known 3 0)))) ∧
  (∀ r ∈ farTable, ∀ (s : State) (t d : Nat) (w : Word), settled s t = true → guardOn s t w = true → iOpcode w = r.op →
    farWord s t w r.kind → farAllowed s t (farEa s t w) r.bytes r.kind → regionOf (farEa s t w) = .remote d →
    remoteBad s d = false →
    let b := regVal s t (iB w)
    let send (typ size : Nat) (data : List Byte) (n : Nat) (sg : Bool) : State :=
      obxPump (remoteSend (committed s t w (iD w) .far (.remote n sg)) t s.nextOp d typ size (farEa s t w % 2 ^ 37) data)
    (r.kind = .load → exec (r.cmd t w) s = .next (send opRd r.bytes [] r.bytes (decide (0x65 ≤ r.op)))) ∧
    (r.kind = .store → exec (r.cmd t w) s = .next (send opWr r.bytes (leBytes r.bytes b.toNat) 0 false)) ∧
    (r.op = 0x6E → exec (r.cmd t w) s = .next (send opAtom 1 (leBytes 6 b.toNat) 6 false)) ∧
    (r.op = 0x6F → exec (r.cmd t w) s = .next (send opAtom 2 (leBytes 6 b.toNat) 6 false)) ∧
    (r.op = 0x70 → exec (r.cmd t w) s = .next
      (send opAtom 3 (leBytes 6 b.toNat ++ leBytes 6 (regVal s t (iD w)).toNat) 6 false)))
/-- R99, R100: a packet operation within the window of its packet is handed over with the addresses of its bytes; PLD
adds the tiles it is first to touch to the thread's record, TSEAL takes its tile out. -/
def Obligations.PacketOperations : Prop :=
  ∀ (s : State) (t : Nat) (w : Word) (d : Desc) (n : Nat), settled s t = true → guardOn s t w = true →
    (th s t).pkt = some d →
    let o := farEa s t w
    let bufs := dataBufs s (slotBufs s t) (slotChain s t)
    let x := th s t
    let x1 := th (issued s t) t
    ((iOpcode w, n) ∈ [(0x80, 1), (0x81, 2), (0x82, 3), (0x83, 4), (0x84, 6)] → iB w = 0 → tokFree s t w false →
      o + n ≤ windowSize bufs →
      let first := (windowTiles bufs o n).filter (fun tl => !x.touched.contains tl)
      exec (.pld t w) s = .next (committedAs s { x1 with touched := x.touched ++ first } t w (iD w) .packet
        (.pld (windowAddrs bufs o n) (linksFor (chainLinks s (slotBufs s t) (slotChain s t)) (windowIdx bufs (o + n - 1))) first))) ∧
    ((iOpcode w, n) ∈ [(0x85, 1), (0x86, 2), (0x87, 3), (0x88, 4), (0x89, 6)] → iD w = 0 → tokFree s t w true →
      o + n ≤ windowSize bufs →
      exec (.pst t w) s = .next (committed s t w 0 .packet
        (.pst (windowAddrs bufs o n) ((regVal s t (iB w)).toNat % 256 ^ n)))) ∧
    (∀ a, iOpcode w = 0x8A → iD w = 0 → iB w = 0 → tokFree s t w true → o < windowSize bufs →
      windowAddr bufs o = some a →
      exec (.tseal t w) s = .next (committedAs s { x1 with touched := x.touched.filter (· != a / 256 * 256) } t w 0 .packet
        (.tseal (a / 256 * 256))))

/-- R205: FORK makes a child record of its packet's sequence with destination g[a] and edit g[b], counts it, and returns
its number with bit 47 set; a sequence skipped, with 64 children, or with no record free refuses it with its code. -/
def Obligations.ForkMakesChild : Prop :=
  ∀ (s : State) (t : Nat) (w : Word) (d : Desc), settled s t = true → guardOn s t w = true → (th s t).pkt = some d →
    iOpcode w = 0x8D → iFn w % 2 ^ 17 = 0 → (tokFree s t w false ∨ (iTok w = 8 ∧ iD w = 0)) →
    let r := seqRec s (seqKey d.lane d.seq)
    (∃ u, exec (.fork t w) s = .next u ∧ th u t = advanced (tokPending w (th (issued s t) t)) ∧ OthersKept s u t ∧
      u.nextOp = s.nextOp + 1 ∧ BytesKept s u) ∧
    (∀ u, exec (.fork t w) s = .next u → r.skipped = false → r.kids.length < 64 → s.bridge.kidsUsed < 16384 →
      u.ops = s.ops ++ [handed s t w (iD w) .packet (.known 0 (BitVec.ofNat 48 (2 ^ 47 + r.kids.length)))] ∧
      (seqRec u (seqKey d.lane d.seq)).kids = r.kids ++ [(regVal s t (iA w), regVal s t (iB w))] ∧
      u.bridge.kidsUsed = s.bridge.kidsUsed + 1) ∧
    (∀ u why, exec (.fork t w) s = .next u →
      (why = if r.skipped then 3 else if 64 ≤ r.kids.length then 1 else if 16384 ≤ s.bridge.kidsUsed then 2 else 0) →
      why ≠ 0 → u.bridge = s.bridge ∧
      u.ops = s.ops ++ [handed s t w (iD w) .packet (.known 0 (BitVec.ofNat 48 (why * 2 ^ 40)))])

/-- R102: the helper operations: LKUP and LEARN take their near operand along, and complete with ERROR on a table of no
fitting kind; BALLOC asks the pool R235 chooses; BFREE hands its address to the pool that holds it. R87, R88: WAITC
whose tokens have all completed returns their statuses, three bits each, or traps on the failed ones and leaves those
IDLE; it waits while one is PENDING. FENCE goes on once no operation of its kinds is left. -/
def Obligations.HelpersAndFences : Prop :=
  (∀ (s : State) (t : Nat) (w : Word) (l : List NearByte), settled s t = true → guardOn s t w = true →
    let k := iTable w
    let a := (regVal s t (iA w)).toNat
    let handed_ (c : Instr) (dest : Nat) (ok : Bool) (f : List Byte → OpKind) : Prop := ∃ u bs, exec c s = .next u ∧
      u.ops = s.ops ++ [handed s t w dest .helper (if ok then f bs else .known 3 0)] ∧ u.nextOp = s.nextOp + 1 ∧
      th u t = advanced (tokPending w (th (issued s t) t)) ∧ OthersKept s u t ∧ BytesKept s u ∧ RegsKept s u [] ∧
      bs.length = l.length ∧ ((∀ b ∈ l, steady s t b = true) → bs = l.map (nearRd s t))
    (iOpcode w = 0x90 → iB w = 0 → iFn w % 2 ^ 12 = 0 → tokFree s t w false → nearAt s t a (tKeyBytes s k) false l →
      handed_ (.lkup t w) (iD w) (tKind s k != 0) (.lkup k)) ∧
    (iOpcode w = 0x91 → iD w = 0 → iB w = 0 → iFn w % 2 ^ 12 = 0 → tokFree s t w true →
      nearAt s t a (tKeyBytes s k + tActBytes s k) false l →
      handed_ (.learn t w) 0 (tKind s k == 1) (.learn k)) ∧
    (iOpcode w = 0x92 → iB w = 0 → iFn w % 2 ^ 17 = 0 → tokFree s t w false →
      (a = 0 ∨ 65536 < a ∨ ballocPool s (t / 128 / 6) a = none →
        exec (.balloc t w) s = .next (committed s t w (iD w) .helper (.known 3 0))) ∧
      (∀ p, 0 < a → a ≤ 65536 → ballocPool s (t / 128 / 6) a = some p →
        exec (.balloc t w) s = .next { committed s t w (iD w) .helper (.balloc a) with
          bpm := { s.bpm with allocQ := s.bpm.allocQ ++ [{ pool := p, port := t / 128, op := s.nextOp + 1 }] } })) ∧
    (iOpcode w = 0x93 → iD w = 0 → iB w = 0 → iFn w % 2 ^ 17 = 0 → tokFree s t w true →
      (∀ p, allowed s (privOf (th s t)) a false true = true → poolOf s a = some p →
        exec (.bfree t w) s = .next { committed s t w 0 .helper (.bfree a) with
          bpm := { s.bpm with freeQ := s.bpm.freeQ ++ [{ addr := a, port := t / 128, op := some s.nextOp }] } }) ∧
      (allowed s (privOf (th s t)) a false true = false →
        exec (.bfree t w) s = .next (committed (denied (agentId s t) (privOf (th s t)) a true s) t w 0 .helper
          (.known 3 0))) ∧
      (allowed s (privOf (th s t)) a false true = true → poolOf s a = none →
        exec (.bfree t w) s = .next (committed (freeError s a) t w 0 .helper (.known 3 0))))) ∧
  (∀ (s : State) (t : Nat) (w : Word), settled s t = true → guardOn s t w = true →
    let x := th s t
    let named (k : Nat) : Bool := k < 8 && (iFn w).testBit k
    let v := ((List.range 8).map (fun k => if named k then tokStatus x k * 8 ^ k else 0)).sum
    let failed (k : Nat) : Bool := named k && (tokStatus x k == 3 || tokStatus x k == 5 ||
      (!(iFn w).testBit 8 && (tokStatus x k == 2 || tokStatus x k == 4)))
    let bad := (List.range 8).filter failed
    (iOpcode w = 0x98 → iA w = 0 → iB w = 0 → iFn w < 2 ^ 9 →
      ((∀ k, named k = true → Tab.get Tok.idle x.tok k ≠ .pending) → bad = [] →
        exec (.waitc t w) s = .next (ran s t (fun x => advanced (wroteG x (iD w) (BitVec.ofNat 48 v) 2)))) ∧
      ((∀ k, named k = true → Tab.get Tok.idle x.tok k ≠ .pending) → bad ≠ [] → getF x.csr.tstat TS.th = 0 →
        ∃ y, exec (.waitc t w) s = .next (setTh (squashed (issued s t) t 6 3) t y) ∧
          (∀ k, Tab.get Tok.idle y.tok k = if failed k then .idle else Tab.get Tok.idle x.tok k) ∧
          y.csr.tval = BitVec.ofNat 48 (v + (bad.map (fun k => 2 ^ k)).sum * 2 ^ 24) ∧
          y.csr.tcause = (if bad.any (fun k => tokStatus x k == 5) then 0x009
            else if bad.any (fun k => tokStatus x k == 3) then 0x103 else 0x008) ∧
          y.csr.tepc = BitVec.ofNat 48 (x.pc % 2 ^ 18) ∧ y.pc = x.csr.tvec.toNat % 2 ^ 18 ∧ y.g = x.g) ∧
      (∀ k, named k = true → Tab.get Tok.idle x.tok k = .pending →
        exec (.waitc t w) s = .next (ran s t (fun x => { x with wait := .waitc w })))) ∧
    (iOpcode w = 0x99 → w.toNat % 2 ^ 36 < 8 →
      let mine := (s.ops.filter (fun o => o.thread == t && !o.dead && !o.late && fenceSel (iFn w) o.cls)).map (·.id)
      (mine = [] → exec (.fence t w) s = .next (ran s t advanced)) ∧
      (mine ≠ [] → exec (.fence t w) s = .next (ran s t (fun x => { x with wait := .fence w mine })))))
/-- R101, R201, R202: with nothing pending, RELEASE and DROP hand the ending of the thread's packet to Bridge: RELEASE with
destination g[a] and edit g[b]; len and buffers as the slot's descriptor holds them, the chain flag as it was granted. Else
they wait. -/
def Obligations.PacketEndings : Prop :=
  ∀ (s : State) (t : Nat) (w : Word) (d : Desc), settled s t = true → guardOn s t w = true → (th s t).pkt = some d →
    let ending (rel : Bool) (dest edit : Word) : Ending :=
      { rel := rel, dest := dest, edit := edit, len := slotLen s t, win := winOf s (slotBufs s t) (d.flags.testBit 2),
        hash := d.hash, thread := t, sure := entryFree s (d.lane * 2 ^ 24 + d.seq) }
    let a := regVal s t (iA w)
    let b := regVal s t (iB w)
    (iOpcode w = 0x8B → iD w = 0 → iFn w = 0 →
      (opsPending s t = false → ∃ u, exec (.release t w) s = .next u ∧
        u.bridge.inbound = s.bridge.inbound ++ [(d.lane * 2 ^ 24 + d.seq, ending true a b)] ∧
        u.ops = s.ops ∧ OthersKept s u t) ∧
      (opsPending s t = true → exec (.release t w) s = .next (ran s t (fun x => { x with wait := .ending true a b })))) ∧
    (iOpcode w = 0x8C → w.toNat % 2 ^ 36 = 0 →
      (opsPending s t = false → ∃ u, exec (.drop t w) s = .next u ∧
        u.bridge.inbound = s.bridge.inbound ++ [(d.lane * 2 ^ 24 + d.seq, ending false 0 0)] ∧
        u.ops = s.ops ∧ OthersKept s u t ∧ u.mem = s.mem ∧ u.tiles = s.tiles) ∧
      (opsPending s t = true → exec (.drop t w) s = .next (ran s t (fun x => { x with wait := .ending false 0 0 }))))

/-! ## Newt: control -/

/-- R109: BR, CALL and JMPR go to a target that is a multiple of 6 below 262,140; CALL and JMPR leave pc + 6 in g[d], and
JMPR reads g[a] first. Any other target traps PC_RANGE with the target in TVAL. -/
def Obligations.BranchesGo : Prop :=
  ∀ (s : State) (t : Nat) (w : Word), settled s t = true → guardOn s t w = true →
    let x := th s t
    let target : Int := x.pc + 6 * ((w.extractLsb' 0 21).signExtend 48).toInt
    let a := regVal s t (iA w)
    (∀ n : Nat, target = n → n % 6 = 0 → n < 262140 →
      (iOpcode w = 0xA0 → iD w = 0 → iA w = 0 → iB w = 0 → exec (.br t w) s = .next (ran s t (fun x => wentTo x n))) ∧
      (iOpcode w = 0xA1 → iA w = 0 → iB w = 0 →
        exec (.call t w) s = .next (ran s t (fun x => wentTo (wroteG x (iD w) (BitVec.ofNat 48 (x.pc + 6)) 2) n)))) ∧
    (a.toNat % 6 = 0 → a.toNat < 262140 → iOpcode w = 0xA2 → iB w = 0 → iFn w = 0 →
      exec (.jmpr t w) s = .next (ran s t (fun x => wentTo (wroteG x (iD w) (BitVec.ofNat 48 (x.pc + 6)) 2) a.toNat))) ∧
    (getF x.csr.tstat TS.th = 0 →
      ((∀ n : Nat, target = n → n % 6 = 0 → 262140 ≤ n) →
        (iOpcode w = 0xA0 → iD w = 0 → iA w = 0 → iB w = 0 →
          exec (.br t w) s = .next (trapped s t 0x0C 0 (BitVec.ofInt 48 target) x.pc)) ∧
        (iOpcode w = 0xA1 → iA w = 0 → iB w = 0 →
          exec (.call t w) s = .next (trapped s t 0x0C 0 (BitVec.ofInt 48 target) x.pc))) ∧
      (a.toNat % 6 ≠ 0 ∨ 262140 ≤ a.toNat → iOpcode w = 0xA2 → iB w = 0 → iFn w = 0 →
        exec (.jmpr t w) s = .next (trapped s t 0x0C 0 a x.pc)))

/-- R113, R114: REPI and REPN latch a count from 1 to 65,535 or 256, from the function field or g[a][15:0], and begin a
repeat of the next word; a count of 0 or above traps ILLEGAL_REPEAT with detail 1 or 2. R115: an iteration of a repeat
issues its word again, as the instruction itself; a repeated ADD adds once more, one iteration is counted off, and after
the last the thread goes on behind it. -/
def Obligations.Repeats : Prop :=
  (∀ (s : State) (t : Nat) (w : Word) (n : Nat), settled s t = true → guardOn s t w = true → iD w = 0 → iB w = 0 →
    ((iFn w = n ∧ n < 2 ^ 16 ∧ iA w = 0) ∨ (iFn w = 2 ^ 20 ∧ n = (regVal s t (iA w)).toNat % 2 ^ 16)) →
    ∀ r ∈ ([(.repi, 0xA8, false, 65535), (.repn, 0xA9, true, 256)] : List ((Nat → Word → Instr) × Nat × Bool × Nat)),
    iOpcode w = r.2.1 →
    let x := th s t
    (1 ≤ n → n ≤ r.2.2.2 → exec (r.1 t w) s = .next (ran s t (fun x => { x with
      instret := x.instret + 1, pc := x.pc + 6,
      rep := some { noInt := r.2.2.1, left := n, word := none, fresh := true } }))) ∧
    (getF x.csr.tstat TS.th = 0 → n = 0 →
      exec (r.1 t w) s = .next (trapped s t 0x0B 1 0 x.pc)) ∧
    (getF x.csr.tstat TS.th = 0 → r.2.2.2 < n →
      exec (r.1 t w) s = .next (trapped s t 0x0B 2 (BitVec.ofNat 48 n) x.pc))) ∧
  (∀ (s : State) (t : Nat) (r : Rep) (w : Word), t < 3072 → ready s t = true → (th s t).rep = some r → r.word = some w →
    (iOpcode w = 0x01 → exec (.repeatIteration t) s = exec (.add t w) s) ∧
    (iOpcode w = 0x31 → exec (.repeatIteration t) s = exec (.st t w) s) ∧
    (iOpcode w = 0x01 → iFn w = 0 → guardOn s t w = true → (th s t).hist.all Haz.met = true →
      s.ops.any (mayWrite t) = false → ∃ x, exec (.repeatIteration t) s = .next (setTh (issued s t) t x) ∧
        (∀ k, regVal (setTh (issued s t) t x) t k =
          if k = iD w ∧ k ≠ 0 then regVal s t (iA w) + regVal s t (iB w) else regVal s t k) ∧
        x.rep = (if r.left ≤ 1 then none else some { r with left := r.left - 1 }) ∧
        x.pc = (if r.left ≤ 1 then (th s t).pc + 6 else (th s t).pc) ∧ x.instret = (th s t).instret + 1 ∧
        x.p = (th s t).p ∧ x.csr = (th s t).csr ∧ x.tok = (th s t).tok))
/-- R128, R130: DOZE with a wake latched returns 0 at once and clears the latch, else the thread dozes; a DOZE whose limit
is not 0 ends with 1; EXIT with no packet leaves the thread IDLE, at S or K. -/
def Obligations.DozeAndExit : Prop :=
  ∀ (s : State) (t : Nat) (w : Word),
    (settled s t = true → guardOn s t w = true → iOpcode w = 0xB0 → iB w = 0 → iFn w = 0 →
      ((th s t).wake = true →
        exec (.doze t w) s = .next (ran s t (fun x => advanced (wroteG { x with wake := false } (iD w) 0 2)))) ∧
      ((th s t).wake = false → exec (.doze t w) s = .next (ran s t (fun x => { x with
        wait := .doze (iD w) ((regVal s t (iA w)).toNat % 2 ^ 16) x.pc })))) ∧
    (∀ d limit pc, t < 3072 → (th s t).wait = .doze d limit pc → (th s t).rep = none →
      (th s t).hist.all Haz.met = true → s.ops.any (mayWrite t) = false →
      (limit ≠ 0 → exec (.dozeTimeout t) s = .next (setTh s t (advanced (wroteG { th s t with wait := .none } d 1 2)))) ∧
      (limit = 0 → exec (.dozeTimeout t) s = .next s) ∧
      ((th s t).state ≠ .killed → (th s t).state ≠ .reset → (th s t).state ≠ .double → (th s t).state ≠ .halted →
        exec (.wake t) s = .next (setTh s t
          (advanced (wroteG { th s t with wait := .none, wake := false } d 0 2))))) ∧
    (settled s t = true → guardOn s t w = true → iOpcode w = 0xB1 → w.toNat % 2 ^ 36 = 0 → privOf (th s t) ≠ 0 →
      (th s t).pkt = none → (∀ d, (th s t).slot0 ≠ .full d) → (∀ d, (th s t).slot1 ≠ .full d) →
      exec (.exit t w) s = .next (ran s t (fun x => { advanced x with state := .idle })))

/-- R124, R127: TRAP raises code 0x20 with its immediate in TVAL, and TEPC after it; with TSTAT.th set the thread halts
in DOUBLE. R75: an unassigned opcode traps UNDEF, whatever its guard. R112: a fetch at 262,140 traps PC_RANGE. R126:
ERET at K takes priv from ppriv and ie from pie, clears th, and goes to a TEPC that keeps R109, where a repeat that TREP
holds goes on; one with nothing left is passed (R119). -/
def Obligations.TrapsEnterAndReturn : Prop :=
  (∀ (s : State) (t : Nat) (w : Word),
    let x := th s t
    (settled s t = true → guardOn s t w = true → iOpcode w = 0xB4 → iD w = 0 → iA w = 0 → iB w = 0 →
      (getF x.csr.tstat TS.th = 0 → exec (.trap t w) s = .next
        (trapped s t 0x20 0 (BitVec.ofNat 48 (iFn w)) (x.pc + 6))) ∧
      (getF x.csr.tstat TS.th = 1 → ∃ u, exec (.trap t w) s = .next u ∧ (th u t).state = .double ∧
        (th u t).csr = x.csr ∧ (th u t).cause = 0x20 ∧ OthersKept s u t ∧ BytesKept s u)) ∧
    (t < 3072 → ready s t = true → runOp (iOpcode w) = none → getF x.csr.tstat TS.th = 0 →
      exec (.unassignedOpcode t w) s = .next (trapped s t 0x01 0 w x.pc)) ∧
    (t < 3072 → ready s t = true → x.pc = 262140 → getF x.csr.tstat TS.th = 0 →
      exec (.pcRangeFetch t) s = .next (setTh (squashed s t 6 3) t (entered x 0x0C 0 0x3FFFC 262140)))) ∧
  (∀ (s : State) (t : Nat) (w : Word), settled s t = true → guardOn s t w = true → iOpcode w = 0xB5 →
    w.toNat % 2 ^ 36 = 0 → privOf (th s t) = 2 → (th s t).csr.tepc.toNat % 6 = 0 → (th s t).csr.tepc.toNat < 262140 →
    let c := (th s t).csr
    let go := getF c.trep TS.repValid = 1 ∧ getF c.trep TS.repTarget = c.tepc.toNat
    ∃ x, exec (.eret t w) s = .next (setTh (issued s t) t x) ∧
      x.pc = (if go ∧ getF c.trep TS.repLeft = 0 then c.tepc.toNat + 6 else c.tepc.toNat) ∧
      getF x.csr.tstat TS.priv = getF c.tstat TS.ppriv ∧ getF x.csr.tstat TS.ie = getF c.tstat TS.pie ∧
      getF x.csr.tstat TS.th = 0 ∧ getF x.csr.tstat TS.pie = getF c.tstat TS.pie ∧
      getF x.csr.tstat TS.ppriv = getF c.tstat TS.ppriv ∧ getF x.csr.tstat TS.pktPriv = getF c.tstat TS.pktPriv ∧
      getF x.csr.trep TS.repValid = 0 ∧ x.csr.tepc = c.tepc ∧ x.csr.tvec = c.tvec ∧
      x.rep = (if go ∧ getF c.trep TS.repLeft ≠ 0
        then some { noInt := getF c.trep TS.repKind == 1, left := getF c.trep TS.repLeft, word := none, fresh := true }
        else none) ∧
      x.g = (th s t).g ∧ x.p = (th s t).p ∧ x.tok = (th s t).tok ∧ x.state = (th s t).state)
/-- R125: an interrupt that is pending and enabled is taken, the lowest code first, with the three pending bits in TVAL
and TEPC at the instruction that would have issued next. R135: TTIMER's last step sets TINT.tp. -/
def Obligations.Interrupts : Prop :=
  ∀ (s : State) (t : Nat), t < 3072 →
    let x := th s t
    let on (p e : Fld) : Prop := getF x.csr.tint p = 1 ∧ getF x.csr.tint e = 1
    (∀ code, running x = true → clusterRuns s t = true → x.pendKill = false → inRepn x = false → inEnding x = false →
      x.hist.all Haz.met = true → getF x.csr.tstat TS.ie = 1 → getF x.csr.tstat TS.th = 0 →
      ((code = 0x30 ∧ on TS.sp TS.sie) ∨ (code = 0x31 ∧ ¬on TS.sp TS.sie ∧ on TS.tp TS.tie) ∨
        (code = 0x32 ∧ ¬on TS.sp TS.sie ∧ ¬on TS.tp TS.tie ∧ on TS.ep TS.eie)) →
      exec (.interruptEntry t) s = .next (setTh s t
        (entered x code 0 (BitVec.ofNat 48 (x.csr.tint.toNat % 8)) x.pc))) ∧
    (x.csr.ttimer ≠ 0 → ∃ y, exec (.ttimerExpiry t) s = .next (setTh s t y) ∧ y.csr.ttimer = 0 ∧
      getF y.csr.tint TS.tp = 1 ∧ y.g = x.g ∧ y.pc = x.pc ∧ y.csr.tstat = x.csr.tstat ∧ y.state = x.state ∧
      y.wait = x.wait ∧ getF y.csr.tint TS.tie = getF x.csr.tint TS.tie)

/-- R73, R75: an instruction that is guarded off either traps UNDEF, because its word is one R75 forbids, or commits and
does nothing else, whatever its opcode. -/
def Obligations.GuardedOffDoesNothing : Prop :=
  ∀ (s : State) (t : Nat) (w : Word) (f : Nat → Word → State → Out), settled s t = true → guardOn s t w = false →
    runOp (iOpcode w) = some f → f t w s = .next (ran s t advanced) ∨ f t w s = .next (trapUndef (issued s t) t w)

/-- R104–R106: with the checker on, an instruction that reads a register closer to its producer than its distance traps
DISTANCE; TVAL names the kind, the register, the shortfall and the producer, CLU_DVIOL counts it, and nothing else
happens. R78, R580: a read closer than its distance gives the value after the last write whose distance is met, or the
value of one of the later writes, and nothing else. -/
def Obligations.TooCloseUses : Prop :=
  (∀ r ∈ aluTable, ∀ (s : State) (t : Nat) (w : Word) (h : Haz) (l : List Haz), t < 3072 → ready s t = true →
    (th s t).rep = none → flag s (Reg.CLU_CTL (t / 128)) F.CLU_CTL_dchk_en = true → dchkOpen s t = false → iGuardP w = 0 → iNeg w = false → iOpcode w = r.reg → iFn w = 0 →
    (th s t).hist = h :: l → h.kind = .g → h.key = iA w → iA w ≠ 0 → h.age < h.need → h.rep = false →
    h.tok = none →
    getF (th s t).csr.tstat TS.th = 0 →
    ∃ u, exec (r.cmd t w) s = .next u ∧
      th u t = entered (th (issued s t) t) 0x0A 0
        (BitVec.ofNat 48 (iA w % 32 * 2 ^ 40 + (h.need - h.age) % 16 * 2 ^ 36 + h.pc % 2 ^ 18)) (th s t).pc ∧
      fld u (Reg.CLU_DVIOL (t / 128)) F.CLU_DVIOL_count =
        Min.min (2 ^ F.CLU_DVIOL_count.width - 1) (fld s (Reg.CLU_DVIOL (t / 128)) F.CLU_DVIOL_count + 1) ∧
      RegsKept s u [Reg.CLU_DVIOL (t / 128)] ∧ OthersKept s u t ∧ BytesKept s u ∧ u.ops = s.ops) ∧
  (∀ (s : State) (t r : Nat), r ≠ 0 → pendingDest s t r = false →
    let later := ((th s t).hist.filter (fun h => decide (h.kind = .g) && h.key == r)).takeWhile (fun h => !h.met)
    (later = [] → readG s t r = (Tab.get 0 (th s t).g r, s)) ∧
    (∀ h, later.getLast? = some h → ((readG s t r).1 = h.before ∨ ∃ k ∈ later, (readG s t r).1 = k.after) ∧
      (readG s t r).2 = { s with freeCtr := s.freeCtr + 1 }))
/-- R82, R84–R86, R133: the completion of an operation whose result is known writes its destination and its token
together; a posted one that failed is counted; one of a killed thread is discarded and counted; one that comes after its
timer counts as LATE. R85: an expired timer completes the token with TIMEOUT and the operation's answer is still to come. -/
def Obligations.CompletionsDelivered : Prop :=
  ∀ (s : State) (id ecc : Nat) (o : AsyncOp), ecc < 3 → opOf s id = some o → o.thread < 3072 →
    asyncWaits s o = false → (th s o.thread).wait = .none →
    let x := th s o.thread
    (∀ st v, o.kind = .known st v →
      (∀ k, o.dead = false → o.late = false → o.tok = some k → o.clobber = [] →
        ∃ u, exec (.asyncCompletion id ecc) s = .next u ∧ opOf u id = none ∧ Tab.get Tok.idle (th u o.thread).tok k = .done st ∧
          (∀ r, regVal u o.thread r = if r = o.dest ∧ r ≠ 0 ∧ st ≤ 1 then v else regVal s o.thread r) ∧
          (th u o.thread).pc = x.pc ∧ OthersKept s u o.thread ∧ RegsKept s u [] ∧ BytesKept s u) ∧
      (o.dead = false → o.late = false → o.tok = none → st ≤ 1 →
        exec (.asyncCompletion id ecc) s = .next (dropOp s id)) ∧
      (o.dead = false → o.late = false → o.tok = none → 1 < st →
        ∃ u, exec (.asyncCompletion id ecc) s = .next u ∧ opOf u id = none ∧ u.threads = s.threads ∧
          fld u (Reg.CLU_POSTERR (o.thread / 128)) F.CLU_POSTERR_last = st % 2 ^ F.CLU_POSTERR_last.width) ∧
      (o.dead = true → ∃ u, exec (.asyncCompletion id ecc) s = .next u ∧ opOf u id = none ∧
        (th u o.thread).discard = Min.min 255 (x.discard + 1) ∧ (th u o.thread).g = x.g ∧ (th u o.thread).tok = x.tok) ∧
      (o.dead = false → o.late = true → ∃ u, exec (.asyncCompletion id ecc) s = .next u ∧ opOf u id = none ∧
        u.threads = s.threads ∧ fld u (Reg.CLU_LATE (o.thread / 128)) F.CLU_LATE_count =
          Min.min (2 ^ F.CLU_LATE_count.width - 1) (fld s (Reg.CLU_LATE (o.thread / 128)) F.CLU_LATE_count + 1))) ∧
    (∀ k, o.dead = false → o.late = false → o.tok = some k → (∀ p l q, o.kind ≠ .turn p l q) →
      ∃ u, exec (.asyncTimeout id) s = .next u ∧ opOf u id = some { o with late := true } ∧
        Tab.get Tok.idle (th u o.thread).tok k = .done 2 ∧ (th u o.thread).g = x.g ∧ (th u o.thread).pc = x.pc ∧
        OthersKept s u o.thread ∧ RegsKept s u [] ∧ BytesKept s u)

/-- R98, R333: a far store to populated memory whose unit is not retired changes the bytes it names and no other; a far load
there gives their little-endian value; an atomic stores its function of the slot's low 48 bits and returns them. -/
def Obligations.FarMemory : Prop :=
  ∀ (s : State) (id k : Nat) (o : AsyncOp), opOf s id = some o → asyncWaits s o = false → o.dead = false →
    o.late = false → o.clobber = [] → o.tok = some k → (th s o.thread).wait = .none →
    (∀ a n v, o.kind = .store a n v → populated s a = true → retiredIn s a n = false → (∀ off, regionOf a ≠ .csr off) →
      ∃ u, exec (.asyncCompletion id 0) s = .next u ∧ u.mem = wrBytes s.mem a (leBytes n v) ∧
        Tab.get Tok.idle (th u o.thread).tok k = .done 0 ∧ OthersKept s u o.thread ∧ u.scratch = s.scratch ∧
        u.slotRam = s.slotRam) ∧
    (∀ a n sg, o.kind = .load a n sg → populated s a = true → retiredIn s a n = false → poisoned s a n = false →
      (∀ off, regionOf a ≠ .csr off) →
      ∃ u, exec (.asyncCompletion id 0) s = .next u ∧ BytesKept s u ∧ OthersKept s u o.thread ∧
        Tab.get Tok.idle (th u o.thread).tok k = .done 0 ∧
        (o.dest ≠ 0 → (∀ i c, i < n → c < 24 → lyrWriting s c (a + i) = false) →
          regVal u o.thread o.dest = extLoad sg n (leNat (rdBytes s.mem a n)))) ∧
    (∀ fn a v c, o.kind = .atom fn a v c → populated s a = true → retiredIn s a 8 = false → retiredAt s a = false →
      poisoned s a 8 = false → (∀ off, regionOf a ≠ .csr off) →
      let old : Word := BitVec.ofNat 48 (leNat (rdBytes s.mem a 6))
      ∃ u, exec (.asyncCompletion id 0) s = .next u ∧
        u.mem = wrBytes s.mem a (leBytes 6 (atomNew fn old (BitVec.ofNat 48 v) (BitVec.ofNat 48 c)).toNat) ∧
        OthersKept s u o.thread ∧ Tab.get Tok.idle (th u o.thread).tok k = .done 0 ∧
        (o.dest ≠ 0 → regVal u o.thread o.dest = old))

/-! ## Newt: commands to threads -/

/-- R131–R134: the commands of CLU_THCMD in the states that allow them; in another state each is ignored and counted.
R133, R134: KILL discards the thread's operations, tokens, wake and pending interrupts; it shows KILLED once no ending
and no fill of it is owed; RESTART of a KILLED thread gives every register, predicate and token its reset value and
enters START at the program's entry; a core reset does that of a core whose threads are all KILLED. -/
def Obligations.ThreadControl : Prop :=
  (∀ (s : State) (t : Nat), t < 3072 →
    let x := th s t
    let counted : Host.Outcome State Fault Refusal :=
      .next (setTh s t { x with badcmd := Min.min 255 (x.badcmd + 1) })
    let live : Prop := x.state ≠ .killed ∧ x.state ≠ .reset
    (∀ pc priv, pc < 2 ^ 18 → priv < 4 →
      (x.state = .idle → x.pendKill = false → x.pendHalt = false → pc % 6 = 0 → pc < 262140 → (priv = 1 ∨ priv = 2) →
        (clu s (t / 128)).power = .run →
        exec (.service t pc priv) s = .next (setTh s t { x with
          state := .service, pc := pc, csr := { x.csr with tstat := putF x.csr.tstat TS.priv priv } })) ∧
      (x.state ≠ .idle ∨ pc % 6 ≠ 0 ∨ 262140 ≤ pc ∨ priv = 0 ∨ priv = 3 → exec (.service t pc priv) s = counted)) ∧
    (live → ∃ y, exec (.softint t) s = .next (setTh s t y) ∧ getF y.csr.tint TS.sp = 1 ∧ y.state = x.state ∧ y.g = x.g) ∧
    (¬live → exec (.softint t) s = counted ∧ exec (.kill t) s = counted ∧ exec (.wake t) s = counted) ∧
    (running x = true ∨ x.state = .idle → ∃ y, exec (.halt t) s = .next (setTh s t y) ∧ y.pendHalt = true ∧
      y.state = x.state ∧ y.g = x.g ∧ y.pc = x.pc ∧ y.csr = x.csr) ∧
    (running x = false → x.state ≠ .idle → exec (.halt t) s = counted) ∧
    (x.state = .halted → x.pendKill = false → x.prior ≠ .idle →
      exec (.resume t) s = .next (setTh s t { x with state := x.prior, prior := .idle })) ∧
    (x.state ≠ .halted → exec (.resume t) s = counted) ∧
    (live → (x.state = .double ∨ x.state = .halted ∨ ∀ d l p, x.wait ≠ .doze d l p) →
      exec (.wake t) s = .next (setTh s t { x with wake := true })) ∧
    (x.state ≠ .killed → x.state ≠ .halted → x.state ≠ .double → exec (.restart t) s = counted) ∧
    (x.pendHalt = true → x.pendKill = false → inRepn x = false → inEnding x = false → (running x = true ∨ x.state = .idle) →
      ∃ u, exec (.threadHalted t) s = .next u ∧ (th u t).state = .halted ∧ (th u t).prior = x.state ∧
        (th u t).pendHalt = false ∧ (th u t).g = x.g ∧ (th u t).pc = x.pc ∧ OthersKept s u t ∧ u.mem = s.mem)) ∧
  (∀ (s : State) (t : Nat), t < 3072 →
    let x := th s t
    (x.state ≠ .killed → x.state ≠ .reset → x.pendKill = false →
      ∃ u, exec (.kill t) s = .next u ∧ (th u t).pendKill = true ∧ (th u t).tok = [] ∧ (th u t).wake = false ∧
        (th u t).hist = [] ∧ (th u t).pkt = none ∧ (th u t).csr.ttimer = 0 ∧ getF (th u t).csr.tint TS.sp = 0 ∧
        (∀ o ∈ u.ops, o.thread = t → o.dead = true)) ∧
    (x.pendKill = true → killDone s t = true → x.restart = 0 →
      exec (.killComplete t) s = .next (setTh s t { x with state := .killed, pendKill := false, wait := .none })) ∧
    (x.state = .killed → cluHasProg s (t / 128) = true → (clu s (t / 128)).power = .run →
      ∃ u, exec (.restart t) s = .next u ∧ (th u t).state = .start ∧ (th u t).g = [] ∧ (th u t).p = 1 ∧
        (th u t).tok = [] ∧ (th u t).pc = Tab.get 0 s.img.entry (t / 128) ∧
        (th u t).csr = { TCsr.reset with entry := BitVec.ofNat 48 (Tab.get 0 s.img.entry (t / 128)) } ∧
        (th u t).discard = 0 ∧ (th u t).badcmd = 0) ∧
    (∀ k, (∀ i, i < 8 → (th s (t / 8 * 8 + i)).state = .killed ∧ (th s (t / 8 * 8 + i)).pendKill = false) →
      cluHasProg s (t / 128) = true → k = t / 8 % 16 →
      ∃ u, exec (.coreReset (t / 128) (BitVec.ofNat 48 (2 ^ k))) s = .next u ∧ (th u t).state = .start ∧ (th u t).g = []))
/-! ## Counters -/

namespace Sys2Proof.Machine

/-- Every bit of a register, and the bits of a field. -/
def wholeReg : Nat := 2 ^ 48 - 1
def fieldBits (f : Fld) : Nat := (2 ^ f.width - 1) * 2 ^ f.lo

/-- The bits of register `a` that a list of registers and bits names. -/
def bitsNamed (l : List (Nat × Nat)) (a : Nat) : Nat := (l.filter (fun e => e.1 == a)).foldl (fun n e => n ||| e.2) 0

/-- The command of every clr bit with what it zeroes, for cluster `c`, Ethernet port `p` and memory controller `m`. -/
def clearTable (c p m : Nat) : List (Instr × List (Nat × Nat)) := [
  (.cluCtlClr c, [(Reg.CLU_DVIOL c, wholeReg), (Reg.CLU_LATE c, wholeReg), (Reg.CLU_POSTERR c, wholeReg)]),
  (.cluLyctlClr c, [(Reg.CLU_LYBUSY c, wholeReg), (Reg.CLU_LYABANDON c, wholeReg), (Reg.CLU_LYSWITCH c, wholeReg),
    (Reg.CLU_LYPOISON c, wholeReg), (Reg.CLU_LYREFCNT c, wholeReg)]),
  (.spnCtlClr, [(Reg.SPN_CNT_CHK, wholeReg), (Reg.SPN_CNT_WAKE, wholeReg)] ++
    (List.range 24).map (fun k => (Reg.CLU_PWRCNT k, wholeReg)) ++
    (List.range 1024).map (fun q => (Reg.SPN_QSTAT q, fieldBits F.SPN_QSTAT_hwm))),
  (.brgCtlClr, [(Reg.BRG_CNT_SKIP, wholeReg), (Reg.BRG_CNT_LATE, wholeReg), (Reg.BRG_CNT_BAD, wholeReg),
    (Reg.BRG_CNT_CHILD, fieldBits F.BRG_CNT_CHILD_refused), (Reg.BRG_STORE, fieldBits F.BRG_STORE_hwm),
    (Reg.BRG_CHILDSTAT, fieldBits F.BRG_CHILDSTAT_hwm)]),
  (.bpmCtlClr, [(Reg.BPM_TCHK0, wholeReg), (Reg.BPM_TCHK1, wholeReg), (Reg.BPM_UNCHK, wholeReg),
    (Reg.BPM_FREEERR, wholeReg), (Reg.BPM_REBUILD_STAT, fieldBits F.BPM_REBUILD_STAT_discarded)]),
  (.tblCtlClr, [(Reg.TBL_LRN_CNT0, wholeReg), (Reg.TBL_LRN_CNT1, wholeReg)] ++
    (List.range 32).flatMap (fun t => [(Reg.TBL_T_STAT t, wholeReg), (Reg.TBL_T_AGE t, fieldBits F.TBL_T_AGE_aged)])),
  (.gkoCtlClr, [(Reg.GKO_CNT0, wholeReg), (Reg.GKO_CNT1, wholeReg), (Reg.GKO_CNT2, wholeReg), (Reg.GKO_CNT3, wholeReg),
    (Reg.GKO_WAITERS, fieldBits F.GKO_WAITERS_hwm)]),
  (.evtCtlClr, [(Reg.EVT_STAT, wholeReg)]),
  (.mcCtlClr m, [(Reg.MC_ERRCNT m, wholeReg)] ++
    (List.range 4).flatMap (fun k => [(Reg.MC_RTSTAT m k, fieldBits F.MC_RTSTAT_underruns),
      (Reg.MC_RTSTAT m k, fieldBits F.MC_RTSTAT_panics)]) ++
    (List.range (if m < 4 then 32 else 8)).map (fun u => (Reg.MC_REFSTAT m u, fieldBits F.MC_REFSTAT_forced)) ++
    (if m < 4 then [(Reg.MC_RETLOSS m, fieldBits F.MC_RETLOSS_purged),
      (Reg.MC_RETLOSS m, fieldBits F.MC_RETLOSS_discarded)] else [])),
  (.hstCtlClr, [(Reg.HST_CNT, wholeReg)] ++
    (List.range 4096).flatMap (fun q => [(Reg.HST_RXQ_STAT q, fieldBits F.HST_RXQ_STAT_nobuf),
      (Reg.HST_RXQ_STAT q, fieldBits F.HST_RXQ_STAT_toolong)])),
  (.macCtlClr p, (List.range 18).map (fun k => (Reg.MAC_CNT p k, wholeReg))),
  (.obxCtlClr, [(Reg.OBX_CNT0, wholeReg), (Reg.OBX_CNT1, wholeReg)] ++
    (List.range 8).flatMap (fun l => (List.range 6).map (fun k => (Reg.OBX_LCNT l k, wholeReg)))),
  (.epcCtlClr, [(Reg.EPC_CNT1, wholeReg)]),
  (.dstCnt1Zero, [(Reg.DST_CNT1, wholeReg)]),
  (.bkgCtlClr, [(Reg.BKG_OVR, wholeReg), (Reg.BKG_TRING_LOST, wholeReg), (Reg.BKG_NLSSTAT, fieldBits F.BKG_NLSSTAT_refused)] ++
    (List.range 6).map (fun k => (Reg.BKG_SCRUBCNT k, wholeReg))),
  (.crsCtlClr, [(Reg.CRS_CNT, wholeReg)] ++
    (List.range 45).map (fun k => (Reg.CRS_PLLSTAT k, fieldBits F.CRS_PLLSTAT_unlocks))),
  (.pwrCtlClr, [(Reg.PWR_CHM_STAT, fieldBits F.PWR_CHM_STAT_errors), (Reg.PWR_VINSTAT, fieldBits F.PWR_VINSTAT_min_mv)] ++
    (List.range 6).map (fun d => (Reg.PWR_TEMP d, fieldBits F.PWR_TEMP_max))),
  (.svcCtlClr, [(Reg.SVC_SITCNT, wholeReg), (Reg.SVC_NLS, fieldBits F.SVC_NLS_errors)])]

end Sys2Proof.Machine

/-- R140, R165, R196, R221, R247, R278, R302, R303, R339, R364, R382, R418, R447, R474, R499, R539, R553: a clr bit zeroes
the counters its block lists and leaves every other register. SPN_CTL.clr sets min_free to the free count, and PWR_CTL.clr
lets the statistics begin again (log entry on PWR_CTL.clr). -/
def Obligations.CounterClears : Prop :=
  ∀ (s : State) (c p m : Nat), c < 24 → p < 64 → m < 12 → ∀ r ∈ clearTable c p m,
    ∃ u, exec r.1 s = .next u ∧
      (∀ a, r.1 ≠ .spnCtlClr ∨ a ≠ Reg.SPN_STORESTAT → rd u a = rd s a &&& ~~~BitVec.ofNat 48 (bitsNamed r.2 a)) ∧
      (r.1 = .spnCtlClr → fld u Reg.SPN_STORESTAT F.SPN_STORESTAT_min_free = fld s Reg.SPN_STORESTAT F.SPN_STORESTAT_free) ∧
      (∀ n, core u n = (if r.1 = .cluLyctlClr (n / 16) then { core s n with starts := 0 } else core s n)) ∧
      u = { s with csr := u.csr, cores := u.cores,
                   pwr := if r.1 = .pwrCtlClr then { s.pwr with fresh := List.range 7 } else s.pwr }

/-! ## Lyre -/

namespace Sys2Proof.Machine

/-- A Lyre instruction that reaches Lyre (R138, R139): its fields and token, LYR_EN, and an aligned descriptor that no
near store of the thread is too close to. -/
def lyrReaches (s : State) (t : Nat) (w : Word) : Prop :=
  settled s t = true ∧ guardOn s t w = true ∧ iOpcode w = 0xC0 ∧ iB w = 0 ∧ (iTok w < 8 ∨ (iTok w = 8 ∧ iD w = 0)) ∧
  (th s t).csr.lyrEn.getLsbD (privOf (th s t)) = true ∧ farEa s t w ≤ 0xFFFC0 ∧ farEa s t w % 64 = 0 ∧
  ∀ h ∈ (th s t).hist, h.kind = .near → 5 ≤ h.age

/-- The descriptor it names, and the save address of LYR_EN. -/
def lyrDesc (s : State) (t : Nat) (w : Word) : List Byte := rdBytes s.scratch (t / 128 * 0x100000 + farEa s t w) 64
def lyrSave (s : State) (t : Nat) : Nat := (th s t).csr.lyrEn.toNat / 2 ^ 10 * 2 ^ 10

/-- Its reasons of R156. -/
def lyrReasons (s : State) (t : Nat) (w : Word) : List Nat :=
  refusals s t (privOf (th s t)) (lyrSave s t) (lyrDesc s t w)

/-- The hash part of a Lyre context has the sizes of R159; so has its cipher part. -/
def hashSized (x : LyrCtx) : Prop :=
  x.phase < 3 ∧ x.hashed < 2 ^ 128 ∧ x.part.length ≤ 136 ∧
  (if x.hashAlg = 0 then x.hstate = []
   else if x.hashAlg = 0x10 then x.hstate.length = 8 ∧ ∀ v ∈ x.hstate, v < 2 ^ 32
   else if x.hashAlg = 0x11 then x.hstate.length = 8 ∧ ∀ v ∈ x.hstate, v < 2 ^ 64
   else x.hashAlg = 0x12 ∧ x.hstate.length = 25 ∧ ∀ v ∈ x.hstate, v < 2 ^ 64)
def cipherSized (x : LyrCtx) : Prop :=
  x.keyValid = true ∧ x.alg ∈ [0x01, 0x02, 0x03] ∧ x.key.length = keyLen x.alg ∧
  x.ctr.length = 16 ∧ x.mask.length = 16 ∧ x.authKey.length = 16 ∧ x.acc < 2 ^ 192 ∧ x.aadLen < 2 ^ 64 ∧
  x.textLen < 2 ^ 64 ∧ x.stream.length ≤ 64

end Sys2Proof.Machine

/-- R138, R151, R156, R157: an LYR that Lyre accepts joins its operations and commits, and while no other thread runs
and fewer than 32 are in flight one with a slot is accepted; one with a reason of R156 is recorded, counted and
abandoned and traps UNDEF; one that finds no context slot is BUSY, counted, and is retried. R141, R142, R147: an
operation outside its regions or denied ends with ERROR and stores nothing; COPY within the cluster's scratch stores its
source bytes, and COMPARE answers where its operands differ; both end with the token DONE and the completion word in
g[d]. R158, R159, R161: a flush waits for the accepted operations of the threads it names, then writes their contexts to
their save areas and frees their slots; and a context that a save area keeps is the context that is loaded again. -/
def Obligations.LyreRuns : Prop :=
  (∀ (s : State) (t : Nat) (w : Word), lyrReaches s t w →
    let c := t / 128
    let x := th (issued s t) t
    let d := lyrDesc s t w
    let h := getF x.csr.tstat TS.th == 1
    let accepts (u : State) : Prop :=
      ∃ o, th u t = advanced (tokPending w { x with lyrRun := 0 }) ∧
        u.ops = s.ops ++ [handed s t w (iD w) .lyr .lyr] ∧ (clu u c).lyrOps = (clu s c).lyrOps ++ [o] ∧ o.id = s.nextOp ∧
        o.thread = t ∧ o.desc = d ∧ o.priv = privOf x ∧ o.own = none ∧ o.atoms = [] ∧ o.dstLen = dDstLen d ∧
        (o.bad = true ↔ ∃ r ∈ lyrRanges d (dDstLen d),
          rangeOk s t (privOf x) r = false ∨ (rangeDenied s (privOf x) r).isSome = true) ∧
        OthersKept s u t ∧ BytesKept s u
    let busy (u : State) : Prop :=
      th u t = { x with lyrRun := (if x.lyrPc = x.pc ∧ x.lyrTh = h then x.lyrRun else 0) + 1, lyrPc := x.pc, lyrTh := h,
                        wait := .lyrBusy } ∧
        CountsBy s u (Reg.CLU_LYBUSY c) F.CLU_LYBUSY_count 1 ∧ RegsKept s u [Reg.CLU_LYBUSY c] ∧ OthersKept s u t ∧
        BytesKept s u ∧ u.ops = s.ops ∧ u.clusters = s.clusters ∧
        exec (.lyrBusyRetry t) u = .next (setTh u t { th u t with wait := .none })
    (lyrReasons s t w = [] → Tab.get Tok.idle (th s t).tok (iTok w) ≠ .pending → (slotOfThread s t).isSome = true →
      ∃ u, exec (.lyr t w) s = .next u ∧ (accepts u ∨ busy u) ∧
        ((clu s c).lyrOps.length < 32 → (∀ i, i < 128 → c * 128 + i ≠ t → running (th s (c * 128 + i)) = false) → accepts u)) ∧
    (lyrReasons s t w ≠ [] → getF x.csr.tstat TS.th = 0 →
      ∃ u, ∃ r ∈ lyrReasons s t w, exec (.lyr t w) s = .next u ∧ th u t = entered x 0x01 0 w x.pc ∧
        rd u (Reg.CLU_LYREFUSE c (t % 128)) = BitVec.ofNat 48 (dAlg d * 2 ^ 16 + dOp d * 2 ^ 8 + r) ∧
        CountsBy s u (Reg.CLU_LYREFCNT c) F.CLU_LYREFCNT_count 1 ∧
        CountsBy s u (Reg.CLU_LYABANDON c) F.CLU_LYABANDON_count 1 ∧
        OthersKept s u t ∧ BytesKept s u ∧ u.ops = s.ops ∧ u.clusters = s.clusters) ∧
    (lyrReasons s t w = [] → Tab.get Tok.idle (th s t).tok (iTok w) ≠ .pending → slotOfThread s t = none →
      freeSlots s c = [] → victimSlot s c = none → ∃ u, exec (.lyr t w) s = .next u ∧ busy u)) ∧
  (∀ (s : State) (id ecc k : Nat) (o : AsyncOp) (l : LyrOp), ecc < 2 → opOf s id = some o → o.thread < 3072 →
    o.dead = false → o.late = false → o.clobber = [] → o.tok = some k → (th s o.thread).wait = .none →
    (clu s (o.thread / 128)).lyrOps.find? (fun e => e.thread == o.thread) = some l → l.id = id → l.thread = o.thread →
    l.atoms = [] → l.dstLen = dDstLen l.desc →
    let d := l.desc
    let near (a n : Nat) : List Byte := rdBytes s.scratch (o.thread / 128 * 0x100000 + a) n
    let ended (u : State) (st : Nat) : Prop := opOf u id = none ∧ (∀ e ∈ (clu u (o.thread / 128)).lyrOps, e.id ≠ id) ∧
      Tab.get Tok.idle (th u o.thread).tok k = .done st ∧ OthersKept s u o.thread ∧ u.mem = s.mem
    (l.bad = true → ∃ u, exec (.lyreOperationComplete id ecc) s = .next u ∧ ended u 3 ∧ BytesKept s u ∧
      (th u o.thread).g = (th s o.thread).g) ∧
    (l.bad = false → dOp d = 0x10 → dSrc d + dSrcLen d ≤ 0x100000 → dDst d + dSrcLen d ≤ 0x100000 →
      l.snap = [[], [], near (dSrc d) (dSrcLen d)] → ∃ u, exec (.lyreOperationComplete id ecc) s = .next u ∧ ended u 0 ∧
        u.scratch = wrBytes s.scratch (o.thread / 128 * 0x100000 + dDst d) (near (dSrc d) (dSrcLen d)) ∧
        (o.dest ≠ 0 → regVal u o.thread o.dest = BitVec.ofNat 48 (dSrcLen d))) ∧
    (l.bad = false → dOp d = 0x11 → dSrc d + dSrcLen d ≤ 0x100000 → dAux d + dAuxLen d ≤ 0x100000 →
      dAuxLen d = dSrcLen d → l.snap = [near (dAux d) (dSrcLen d), [], near (dSrc d) (dSrcLen d)] →
      (near (dSrc d) (dSrcLen d) = near (dAux d) (dSrcLen d) →
        ∃ u, exec (.lyreOperationComplete id ecc) s = .next u ∧ ended u 0 ∧ BytesKept s u ∧
          (o.dest ≠ 0 → regVal u o.thread o.dest = BitVec.ofNat 48 (dSrcLen d))) ∧
      (∀ n, n < dSrcLen d → near (dSrc d) n = near (dAux d) n → near (dSrc d) (n + 1) ≠ near (dAux d) (n + 1) →
        ∃ u, exec (.lyreOperationComplete id ecc) s = .next u ∧ ended u 1 ∧ BytesKept s u ∧
          (o.dest ≠ 0 → regVal u o.thread o.dest = BitVec.ofNat 48 (2 * 2 ^ 40 + n))))) ∧
  ((∀ x, hashSized x → (saveBytes x).length = 1024 ∧ (cipherSized x → loadBytes (saveBytes x) = x) ∧
    (x.keyValid = false → let y := loadBytes (saveBytes x)
      y.keyValid = false ∧ y.phase = x.phase ∧ y.hashAlg = x.hashAlg ∧ y.hstate = x.hstate ∧ y.hashed = x.hashed ∧
      y.part = x.part)) ∧
  (∀ (s : State) (c n : Nat) (v : Word), c < 24 →
    ((clu s c).lyrFlush = none → n = (if v.getLsbD 8 then 128 else (v.extractLsb' 0 7).toNat) →
      ∃ u, exec (.lyreFlush c v) s = .next u ∧ (clu u c).lyrFlush = some n ∧
        fld u (Reg.CLU_LYFLUSH c) F.CLU_LYFLUSH_busy = 1 ∧ (clu u c).lyrSlots = (clu s c).lyrSlots ∧ BytesKept s u ∧
        u.threads = s.threads) ∧
    ((clu s c).lyrFlush ≠ none → exec (.lyreFlush c v) s = .next s) ∧
    ((clu s c).lyrFlush = some n →
      ((∃ o ∈ (clu s c).lyrOps, n = 128 ∨ o.thread % 128 = n) → exec (.lyreFlushComplete c) s = .next s) ∧
      ((∀ o ∈ (clu s c).lyrOps, n ≠ 128 ∧ o.thread % 128 ≠ n) →
        ∃ u, exec (.lyreFlushComplete c) s = .next u ∧ (clu u c).lyrFlush = none ∧
          fld u (Reg.CLU_LYFLUSH c) F.CLU_LYFLUSH_busy = 0 ∧
          (clu u c).lyrSlots = (clu s c).lyrSlots.filter (fun e => n != 128 && e.owner != n) ∧
          u.threads = s.threads ∧ u.ops = s.ops ∧
          (∀ e, (clu s c).lyrSlots.filter (fun e => n == 128 || e.owner == n) = [e] → e.save + 1024 ≤ 0x100000 →
            u.scratch = wrBytes s.scratch (c * 0x100000 + e.save) (saveBytes e.ctx) ∧ u.mem = s.mem)))))
/-! ## Ingress and dispatch -/

namespace Sys2Proof.Machine

/-- What back-pressure and its pause frames may change (R173, R371). -/
def BpKept (s u : State) : Prop :=
  u = { s with csr := u.csr, ev := u.ev, outbox := u.outbox, spawn := { s.spawn with asserted := u.spawn.asserted, qover := u.spawn.qover } }

/-- The pool of port `p`'s frames (R236). -/
def poolAt (s : State) (p pool : Nat) : Prop := ∃ c, Tab.find? s.img.ports p = some c ∧ c.pool = pool

/-- A packet-store pool with a buffer `h` at the head of its list, whose bytes are the pool's alone, and nothing that
holds the pool or writes its ring. -/
def headReady (s : State) (pool h : Nat) : Prop :=
  poolHold s pool = false ∧ poolHead s pool = h ∧ h ≠ 0 ∧ h % 256 = 0 ∧ poolHbm s pool = false ∧
  (sideW s pool).length < 16 ∧ poisoned s h 8 = false ∧
  (∀ a, h ≤ a → a < h + poolSize s pool → poolOf s a = some pool ∧ regionOf a = .pstore)

end Sys2Proof.Machine

/-- R15, R166–R172, R224, R236, R237, R368–R370: a whole frame at a port that is UP. One too short, one with a wrong FCS or
an uncorrectable codeword, and one too long are discarded and counted, the first cause alone; another is counted and waits
for buffers of its port's pool. A frame that waits alone for one buffer takes the head of the pool's list, its bytes are
stored there with zeros to the end of their last tile and their tiles sealed, and its descriptor, from the parser and the
flow hash, waits for admission. -/
def Obligations.FramesArrive : Prop :=
  (∀ (s : State) (p corr uncor pool : Nat) (l : List Byte), p < 64 → poolAt s p pool →
    fld s (Reg.MAC_PSTAT p) F.MAC_PSTAT_state = 2 →
    let body := l.take (l.length - 4)
    let fcs := leNat (l.drop (l.length - 4)) = crc32e body ∧ uncor = 0
    let long := fld s (Reg.MAC_PCFG p) F.MAC_PCFG_maxlen < l.length ∨ tooLong s pool body.length = true
    let cause (k : Nat) : Prop := (k = 2 ∧ l.length < 64) ∨ (k = 3 ∧ 64 ≤ l.length ∧ ¬fcs) ∨
      (k = 4 ∧ 64 ≤ l.length ∧ fcs ∧ long)
    (∀ k, cause k → ∃ u, exec (.frameReceive p l corr uncor) s = .next u ∧ BpKept s u ∧
      CountsBy s u (Reg.MAC_CNT p k) F.MAC_CNT_count 1 ∧ CountsBy s u (Reg.MAC_CNT p 16) F.MAC_CNT_count corr ∧
      CountsBy s u (Reg.MAC_CNT p 17) F.MAC_CNT_count uncor) ∧
    (64 ≤ l.length → fcs → ¬long → beNat ((l.drop 12).take 2) ≠ 0x8808 → rxHeld s p + l.length ≤ rxBufSize s p →
      let prio := ethPrio s p body
      ∃ u g, exec (.frameReceive p l corr uncor) s = .next u ∧ u.bpm.staged = s.bpm.staged ++ [g] ∧
        g.unit = ethUnit s p prio ∧ g.pool = pool ∧ g.port = ethDie s p ∧ g.srcKind = 0 ∧ g.src = p + prio * 256 ∧
        g.bytes = body ∧ g.bufs = [] ∧ WrapsBy s u (Reg.MAC_CNT p 0) F.MAC_CNT_count 1 ∧
        WrapsBy s u (Reg.MAC_CNT p 1) F.MAC_CNT_count l.length ∧ u.threads = s.threads ∧
        (fld s Reg.TBL_LRN_CTL F.TBL_LRN_CTL_en = 0 → BytesKept s u ∧ u.tbl = s.tbl))) ∧
  (∀ (s : State) (pool h : Nat) (g : Staged), pool < 16 → headReady s pool h →
    s.bpm.staged.filter (fun e => e.pool == pool) = [g] → s.bpm.allocQ.filter (fun e => e.pool == pool) = [] →
    g.port = 24 ∨ g.port = 25 → g.bufs = [] → 0 < g.bytes.length → g.bytes.length ≤ poolSize s pool →
    let n := g.bytes.length
    let hash := flowHash (fld s Reg.SPN_HSEED F.SPN_HSEED_seed) (parse g.bytes).key
    let queue := Tab.get 0 s.img.steer (hash / 2 ^ 16 % 2 ^ 12)
    ∃ u d, exec (.bpmAllocation pool) s = .next u ∧ u.spawn.hold = s.spawn.hold ++ [d] ∧
      d.hash = hash ∧ d.lane = hash % 2 ^ 16 ∧ d.len = n ∧ d.srcKind = g.srcKind ∧ d.src = g.src ∧ d.sub = g.sub ∧
      d.ts = g.ts ∧ d.unit = g.unit ∧ d.queue = queue + queueGroup s queue * 1024 ∧
      d.buf0 = h + pool * 2 ^ 48 + 2 ^ 56 ∧ d.buf1 = 0 ∧ d.buf2 = 0 ∧ d.l3 = (parse g.bytes).l3 ∧ d.l4 = (parse g.bytes).l4 ∧
      d.etype = (parse g.bytes).etype ∧ d.vlan = (parse g.bytes).vlan ∧
      u.mem = wrBytes s.mem h (g.bytes ++ List.replicate ((256 - n % 256) % 256) 0) ∧
      (∀ tl ∈ tilesOf h n, tileGet u tl = (true, tileCheck u tl)) ∧ poolHead u pool = memNat s h 6 ∧
      WrapsBy s u (Reg.BPM_POUT pool) F.BPM_POUT_out 1 ∧ u.bpm.staged = s.bpm.staged.erase g ∧ u.threads = s.threads)

/-- R172, R199: the descriptor in the hold stage of its unit enters its queue once the queue, the store and the unit's
quota have room and no unit before it may enter that lane in this NCLK, with the lane's next sequence; else nothing
changes. R178–R182: a NCLK of grants gives at most one packet to a cluster and ten in all. A granted packet is the
oldest of a queue of a group of the cluster that has a weight, and it begins to fill the slot of the thread Spawn chose;
a cluster that may be granted, while one of its groups holds a packet that did not come into an empty queue in this
NCLK, keeps the NCLK from ending with no grant. -/
def Obligations.SpawnGrants : Prop :=
  (∀ (s : State) (n : Nat),
    (s.spawn.hold.find? (fun d => d.unit == n) = none → exec (.descriptorAdmit n) s = .next s) ∧
    (∀ d, s.spawn.hold.find? (fun d => d.unit == n) = some d →
      let q := d.queue % 1024
      let room := (queueOf s q).length < Max.max 1 (fld s (Reg.SPN_QLIM q) F.SPN_QLIM_limit) ∧ s.spawn.stored < 0x20000 ∧
        Tab.get 0 s.spawn.out n < fld s (bpReg n) F.SPN_BP_ETH_quota ∧ fld s Reg.PWR_STATE F.PWR_STATE_cur < 3
      (¬(room ∧ admitTurn s d = true) → exec (.descriptorAdmit n) s = .next s) ∧
      (room → admitTurn s d = true → ∃ u, exec (.descriptorAdmit n) s = .next u ∧
        queueOf u q = queueOf s q ++ [{ d with seq := laneNext s d.lane }] ∧ (∀ k, k ≠ q → queueOf u k = queueOf s k) ∧
        laneNext u d.lane = (laneNext s d.lane + 1) % 2 ^ 24 ∧ (∀ l, l ≠ d.lane → laneNext u l = laneNext s l) ∧
        u.spawn.hold = s.spawn.hold.erase d ∧ u.spawn.stored = s.spawn.stored + 1 ∧
        Tab.get 0 u.spawn.out n = Tab.get 0 s.spawn.out n + 1 ∧ u.threads = s.threads ∧ BytesKept s u))) ∧
  (∀ s : State, Canonical s → ∃ u, exec .slotGrant s = .next u ∧
    BytesKept s u ∧ u.clusters = s.clusters ∧ u.bridge = s.bridge ∧ u.spawn.hold = s.spawn.hold ∧
    (∀ t, th u t ≠ th s t → ∃ k d q, bestCand s (t / 128) = some (t, k) ∧ cluGrantable s (t / 128) = true ∧
      th u t = setSlot (th s t) k (.filling d false) ∧ q ∉ newQueues s ∧ (queueOf s q).head? = some d ∧ queueOf u q = (queueOf s q).drop 1 ∧
      0 < grpWeight s (queueGroup s q) ∧ (grpMask s (queueGroup s q)).testBit (t / 128) = true) ∧
    (∀ l : List Nat, l.Nodup → (∀ t ∈ l, th u t ≠ th s t) → l.length ≤ 10 ∧ (l.map (· / 128)).Nodup) ∧
    (∀ c t k g q, c < 24 → s.spawn.gStart < 24 → g < 64 → cluGrantable s c = true → bestCand s c = some (t, k) →
      (grpMask s g).testBit c = true → 0 < grpWeight s g → queueGroup s q = g → queueOf s q ≠ [] → q ∉ newQueues s →
      ∃ t', th u t' ≠ th s t'))
/-- R170, R183–R186, R226: a fill whose tile verifies gives its slot the descriptor and up to 256 header bytes, with hdr_bad
and unchecked clear, and an IDLE thread starts on the packet at THR_ENTRY, with its privilege from pkt_priv and a store
entry freed; a slot that Spawn takes back goes to the head of its queue with returned set. A fill whose tile fails is
counted and its packet is dropped at Bridge, or with chk_mode 1 delivered with hdr_bad and no header bytes. -/
def Obligations.FillsComplete : Prop :=
  ∀ (s : State) (t k : Nat) (d0 : Desc) (back : Bool), t < 3072 → k < 2 → slotOf (th s t) k = .filling d0 back →
    let x := th s t
    let d : Desc := { d0 with flags := d0.flags / 4 * 4 }
    let tile := d.buf0 % 2 ^ 48 / 256 * 256
    let clean := retiredIn s tile 256 = false ∧ poisoned s tile 256 = false ∧ busyIn s tile 256 = false ∧ (tileGet s tile).1 = true
    let holds (u : State) (l : List Byte) : Prop := ∀ i, i < 320 →
      Tab.find? u.slotRam (slotKey (t / 8) (t % 8) k i) = some ((clu s (t / 128)).gen, (descBytes d ++ l).getD i 0)
    let still := running x = true ∧ x.pendKill = false ∧ x.pendHalt = false ∧ x.state ≠ .idle
    (busyIn s tile 256 = true → exec (.slotFillComplete t k 0) s = .next s) ∧
    (clean → tileGood s tile = true →
      ∃ u, exec (.slotFillComplete t k 0) s = .next u ∧ holds u (rdBytes s.mem tile (Min.min d.len 256)) ∧
        OthersKept s u t ∧ u.mem = s.mem ∧ u.scratch = s.scratch ∧ u.bridge = s.bridge ∧
        (back = false → x.state = .idle → x.cur = k → x.pendKill = false → x.pendHalt = false →
          (th u t).state = .packet ∧ (th u t).pkt = some d ∧ (th u t).pc = x.csr.entry.toNat % 2 ^ 18 ∧
          slotOf (th u t) k = .full d ∧ privOf (th u t) = getF x.csr.tstat TS.pktPriv ∧ (th u t).g = x.g ∧
          (th u t).p = x.p ∧ (th u t).tok = x.tok ∧ u.spawn.stored = s.spawn.stored - 1) ∧
        (back = false → still → th u t = setSlot x k (.full d) ∧ u.spawn = s.spawn) ∧
        (back = true → x.pkt = none ∨ k ≠ x.cur → th u t = setSlot x k .empty ∧
          queueOf u (d.queue % 1024) =
            { d with flags := d.flags - d.flags / 32 % 2 * 32 + 32 } :: queueOf s (d.queue % 1024))) ∧
    (clean → tileGood s tile = false →
      ∃ u, exec (.slotFillComplete t k 0) s = .next u ∧ OthersKept s u t ∧ u.mem = s.mem ∧
        CountsBy s u Reg.SPN_CNT_CHK F.SPN_CNT_CHK_count 1 ∧ CountsBy s u Reg.BPM_TCHK0 F.BPM_TCHK0_fill 1 ∧
        (fld s Reg.SPN_CTL F.SPN_CTL_chk_mode = 0 → ∃ e, th u t = setSlot x k .empty ∧ BytesKept s u ∧
          u.bridge = { s.bridge with inbound := s.bridge.inbound ++ [(d.lane * 2 ^ 24 + d.seq, e)] } ∧
          e.rel = false ∧ e.win = winOf s [d.buf0, d.buf1, d.buf2] (d.flags.testBit 2) ∧
          u.spawn.stored = s.spawn.stored) ∧
        (fld s Reg.SPN_CTL F.SPN_CTL_chk_mode = 1 → back = false → still →
          th u t = setSlot x k (.full { d with flags := d.flags + 1 }) ∧ u.bridge = s.bridge ∧
          ∀ i, 64 ≤ i → i < 320 →
            Tab.find? u.slotRam (slotKey (t / 8) (t % 8) k i) = some ((clu s (t / 128)).gen, 0)))

/-! ## Cluster power -/

/-- R18, R189, R193, R194: a scan asks for wakes until each group with a weight has as many members running, waking or
asked as its backlog needs, or none left to ask; zero-run wakes start first, two at most in 400 NCLK; a wake that has
waited is counted as paced, once; and a woken cluster is in RUN. R189–R192: an idle cluster in RUN is gated in
PROPORTIONAL, parks in mode 2, QUIET or STANDBY, and stays in mode 1; a gated one parks after park_time; PARKED follows
PARKING with its Lyre contexts written back; CLU_PWRCTL sets the mode, wakes a cluster in mode 1, and ignores 3. A
cluster that is not idle stays. -/
def Obligations.ClusterPower : Prop :=
  (∀ (s : State) (c : Nat), c < 24 →
    (fld s Reg.PWR_STATE F.PWR_STATE_cur < 3 → ∃ u, exec .wakeRequestScan s = .next u ∧ u.threads = s.threads ∧
      BytesKept s u ∧ (∀ a, (∀ k, k < 24 → a ≠ Reg.CLU_PWRCNT k) → rd u a = rd s a) ∧
      (∀ w ∈ s.spawn.wakes, ∃ v ∈ u.spawn.wakes, v.cluster = w.cluster ∧ (w.zero = true → v.zero = true)) ∧
      ∀ g, g < 64 → 0 < grpWeight s g →
        let thr := fld s (Reg.SPN_GRPWAKE g) F.SPN_GRPWAKE_thr
        let need := if thr = 0 then (groupBacklog s g + 65535) / 65536 else (groupBacklog s g + thr - 1) / thr
        let asked (k : Nat) : Bool := cluCounted u k || wakePending u k
        need ≤ ((List.range 24).filter (fun k => (grpMask s g).testBit k && asked k)).length ∨
          ∀ k, k < 24 → (grpMask s g).testBit k = true → cluMode s k ≠ 2 → asked k = true) ∧
    (3 ≤ fld s Reg.PWR_STATE F.PWR_STATE_cur → exec .wakeRequestScan s = .next s) ∧
    (s.spawn.wakes.all (quietBars s) = true → exec .wakeStart s = .next s) ∧
    (∀ w, (s.spawn.wakes.filter (fun v => !quietBars s v && (v.zero || !s.spawn.wakes.any (fun e => e.zero && !quietBars s e)))).head? = some w →
      let recent := s.spawn.starts.filter (fun n => decide (s.now < n + 400))
      (2 ≤ recent.length → exec .wakeStart s = .next s) ∧
      (recent.length < 2 → w.cluster < 24 → ∃ u, exec .wakeStart s = .next u ∧
        (clu u w.cluster).power = (if (clu s w.cluster).power = .parked then .wakingP else .wakingG) ∧
        (∀ k, k ≠ w.cluster → clu u k = clu s k) ∧ u.spawn.wakes = s.spawn.wakes.filter (fun v => v.cluster != w.cluster) ∧
        u.spawn.starts = recent ++ [s.now] ∧ CountsBy s u Reg.SPN_CNT_WAKE F.SPN_CNT_WAKE_started 1 ∧
        CountsBy s u (Reg.CLU_PWRCNT w.cluster) F.CLU_PWRCNT_wakes 1 ∧ u.threads = s.threads)) ∧
    (∀ w ∈ s.spawn.wakes, w.cluster = c → w.paced = false → ∃ u, exec (.wakePaced c) s = .next u ∧
      u.spawn.wakes = s.spawn.wakes.map (fun v => if v.cluster = c then { v with paced := true } else v) ∧
      CountsBy s u Reg.SPN_CNT_WAKE F.SPN_CNT_WAKE_paced 1 ∧ exec (.wakePaced c) u = .next u) ∧
    ((clu s c).inReset = false → (clu s c).resetting = false → s.str.boot = none →
      ((clu s c).power = .wakingG →
        exec (.clusterWakeComplete c) s = .next (setClu s c { clu s c with power := .run })) ∧
      ((clu s c).power = .wakingP →
        exec (.clusterWakeComplete c) s = .next (setClu s c { clu s c with power := .run, gen := (clu s c).gen + 1 }))) ∧
    ((clu s c).power ≠ .wakingG → (clu s c).power ≠ .wakingP → exec (.clusterWakeComplete c) s = .next s)) ∧
  (∀ (s : State) (c : Nat), c < 24 →
    let x := clu s c
    let mode := fld s (Reg.CLU_PWRCTL c) F.CLU_PWRCTL_mode
    let cur := fld s Reg.PWR_STATE F.PWR_STATE_cur
    let idle := cluIdle s c = true ∧ wakePending s c = false ∧ x.inReset = false ∧ x.resetting = false
    let direct := 3 ≤ cur ∨ mode = 2 ∨ (mode ≠ 1 ∧ cur = 2)
    let parking : Host.Outcome State Fault Refusal := .next (setClu s c { x with power := .parking })
    (x.power = .run → idle → mode = 0 → cur = 1 → ∃ u, exec (.clusterGate c) s = .next u ∧
      u = { setClu s c { x with power := .gated } with csr := u.csr } ∧
      CountsBy s u (Reg.CLU_PWRCNT c) F.CLU_PWRCNT_gates 1 ∧ RegsKept s u [Reg.CLU_PWRCNT c]) ∧
    (x.power = .run → idle → direct → exec (.clusterGate c) s = parking) ∧
    (x.power ≠ .run ∨ ¬idle ∨ (mode = 1 ∧ cur < 3) → exec (.clusterGate c) s = .next s) ∧
    (x.power = .gated → idle → direct ∨ (mode = 0 ∧ cur = 1 ∧ fld s Reg.SPN_POLICY F.SPN_POLICY_park_time ≠ 0) →
      exec (.clusterParkDecision c) s = parking) ∧
    (x.power ≠ .gated ∨ ¬idle ∨ (¬direct ∧ fld s Reg.SPN_POLICY F.SPN_POLICY_park_time = 0) →
      exec (.clusterParkDecision c) s = .next s) ∧
    (x.power = .parking → ∃ u, exec (.parkingComplete c) s = .next u ∧ (clu u c).power = .parked ∧ (clu u c).lyrSlots = [] ∧
      CountsBy s u (Reg.CLU_PWRCNT c) F.CLU_PWRCNT_parks 1 ∧ u.threads = s.threads ∧
      (x.lyrSlots = [] → u.mem = s.mem ∧ u.scratch = s.scratch) ∧
      (∀ e, x.lyrSlots = [e] → e.save + 1024 ≤ 0x100000 →
        u.scratch = wrBytes s.scratch (c * 0x100000 + e.save) (saveBytes e.ctx) ∧ u.mem = s.mem)) ∧
    (x.power ≠ .parking → exec (.parkingComplete c) s = .next s) ∧
    (∀ v : Word, (v.extractLsb' 0 2 = 3 → exec (.cluPwrctlWrite c v) s = .next s) ∧
      (v.extractLsb' 0 2 ≠ 3 → ∃ u, exec (.cluPwrctlWrite c v) s = .next u ∧
        fld u (Reg.CLU_PWRCTL c) F.CLU_PWRCTL_mode = (v.extractLsb' 0 2).toNat ∧ u.threads = s.threads ∧ BytesKept s u ∧
        (∀ k, k ≠ c → clu u k = clu s k) ∧
        (v.extractLsb' 0 2 = 2 → x.power = .run → idle → (clu u c).power = .parking) ∧
        (v.extractLsb' 0 2 = 1 → cur < 3 → x.power = .gated ∨ x.power = .parked → wakePending s c = false →
          ∃ w, u.spawn.wakes = s.spawn.wakes ++ [w] ∧ w.cluster = c))))
/-! ## Bridge -/

/-- R208: the oldest ending handed off reaches Bridge: at its lane's head it is recorded without an entry and the ending
that has waited longest takes a free one; behind the head it is recorded with an entry, kept for it or free, and waits
while there is none. R212–R214: a head whose hold timer expires before its ending is skipped, counted and reported, and
its ending is late. R215–R217: a turn read waits at Bridge and completes with OK and its sequence once every earlier
sequence of the lane has ended, passed the point or been skipped, and not before; a pass sets its point, while its
sequence is held. R209, R210: in a NCLK with one lane whose head has ended and whose next sequence has not: a RELEASE to
a good destination joins that destination's egress and is counted, a DROP is counted and its buffers go back, a bad
destination is reported; and the head moves on. -/
def Obligations.BridgeOrders : Prop :=
  ((∀ (s : State) (key : Nat) (e : Ending) (r : List (Nat × Ending)), s.bridge.inbound = (key, e) :: r →
    let head := laneHead s (key / 2 ^ 24) = key % 2 ^ 24
    let free := s.bridge.used + (r.filter (fun i => i.2.sure)).length < 8192
    let kept := e.sure = true ∨ (free ∧ s.bridge.waiting = [])
    let recorded (u : State) (k : Nat) (v : Ending) (b : Bool) : Prop :=
      seqRec u k = { seqRec s k with ending := some v, entry := b, passed := 15 }
    ∃ u, exec .endingArrival s = .next u ∧ u.bridge.inbound = r ∧ u.mem = s.mem ∧ u.bridge.head = s.bridge.head ∧
      ((seqRec s key).skipped = false → head →
        (s.bridge.waiting = [] → recorded u key e false ∧ u.bridge.used = s.bridge.used) ∧
        (∀ k v w, s.bridge.waiting = (k, v) :: w → k ≠ key → recorded u key e false ∧
          (free → recorded u k v true ∧ u.bridge.waiting = w ∧ u.bridge.used = s.bridge.used + 1))) ∧
      ((seqRec s key).skipped = false → ¬head → kept →
        recorded u key e true ∧ u.bridge.used = s.bridge.used + 1 ∧ u.bridge.waiting = s.bridge.waiting) ∧
      ((seqRec s key).skipped = false → ¬head → ¬kept →
        u.bridge.waiting = s.bridge.waiting ++ [(key, e)] ∧ u.bridge.recs = s.bridge.recs ∧ u.threads = s.threads) ∧
      ((seqRec s key).skipped = true → CountsBy s u Reg.BRG_CNT_LATE F.BRG_CNT_LATE_count 1 ∧
        (s.bridge.waiting = [] → seqRec u key = SeqRec.reset))) ∧
  (∀ s : State, s.bridge.inbound = [] → exec .endingArrival s = .next s) ∧
  (∀ (s : State) (l : Nat), l < 65536 →
    let h := laneHead s l
    let key := l * 2 ^ 24 + h
    (h = laneNext s l ∨ (seqRec s key).ending.isSome = true ∨ s.now < Tab.get 0 s.bridge.till l →
      exec (.laneHoldExpiry l) s = .next s) ∧
    (h ≠ laneNext s l → (seqRec s key).ending = none → Tab.get 0 s.bridge.till l ≤ s.now → s.bridge.waiting = [] →
      h < 2 ^ 24 →
      ∃ u, exec (.laneHoldExpiry l) s = .next u ∧ laneHead u l = (h + 1) % 2 ^ 24 ∧
        (∀ k, k ≠ l → laneHead u k = laneHead s k) ∧
        seqRec u key = { seqRec s key with skipped := true, passed := 15, kids := [] } ∧
        u.bridge.kidsUsed = s.bridge.kidsUsed - (seqRec s key).kids.length ∧
        CountsBy s u Reg.BRG_CNT_SKIP F.BRG_CNT_SKIP_count 1 ∧
        rd u Reg.BRG_LASTSKIP = BitVec.ofNat 48 (2 ^ 47 + key) ∧ u.threads = s.threads ∧ BytesKept s u))) ∧
  (∀ (s : State) (id n : Nat) (o : AsyncOp), opOf s id = some o → o.thread < 3072 → o.dead = false → o.late = false →
    o.clobber = [] → o.tok = some n → (th s o.thread).wait = .none →
    let ended (u : State) (st : Nat) : Prop := opOf u id = none ∧ OthersKept s u o.thread ∧ BytesKept s u ∧
      Tab.get Tok.idle (th u o.thread).tok n = .done st
    (∀ a k b sg, o.kind = .load a b sg → k < 4 → a = 0xF000000000 + Reg.BRG_TURN k →
      (∀ d, (th s o.thread).pkt = some d →
        exec (.brgTurnRead id) s = .next (updOp s id (fun o => { o with kind := .turn k d.lane d.seq }))) ∧
      ((th s o.thread).pkt = none → ∃ u, exec (.brgTurnRead id) s = .next u ∧ ended u 3)) ∧
    (∀ k l q, o.kind = .turn k l q →
      let before (i : Nat) : Prop := i < (q + 2 ^ 24 - laneHead s l) % 2 ^ 24
      let clear (i : Nat) : Prop :=
        let key := l * 2 ^ 24 + (laneHead s l + i) % 2 ^ 24
        (seqRec s key).ending.isSome = true ∨ (seqRec s key).skipped = true ∨ (seqRec s key).passed.testBit k = true
      let me := (seqRec s (l * 2 ^ 24 + q)).skipped
      ((me = true ∨ ∀ i, before i → clear i) → ∃ u, exec (.turnComplete id) s = .next u ∧ ended u 0 ∧
        (o.dest ≠ 0 → regVal u o.thread o.dest = BitVec.ofNat 48 ((if me then 2 ^ 47 else 0) + q))) ∧
      (∀ i, me = false → before i → ¬clear i → exec (.turnComplete id) s = .next s)) ∧
    (∀ k l q, o.kind = .pass k l q → (∀ p ∈ s.ops, p.thread = o.thread → p.id < id → ∀ a b c, p.kind ≠ .pass a b c) →
      ∃ u, exec (.brgPass id) s = .next u ∧ ended u 0 ∧
        (let held := (q + 2 ^ 24 - laneHead s l) % 2 ^ 24 < (laneNext s l + 2 ^ 24 - laneHead s l) % 2 ^ 24
         seqRec u (l * 2 ^ 24 + q) = (if held then
           { seqRec s (l * 2 ^ 24 + q) with passed := (seqRec s (l * 2 ^ 24 + q)).passed ||| 2 ^ k }
           else seqRec s (l * 2 ^ 24 + q)) ∧
         ∀ key, key ≠ l * 2 ^ 24 + q → seqRec u key = seqRec s key))) ∧
  (∀ (s : State) (l : Nat) (e : Ending), readyLanes s = [l] → s.bridge.waiting = [] → l < 65536 → laneHead s l < 2 ^ 24 →
    let h := laneHead s l
    let key := l * 2 ^ 24 + h
    let r := seqRec s key
    r.ending = some e → r.kids = [] → r.kidsDone = 0 → r.parentDone = false → r.entry = false →
    (seqRec s (l * 2 ^ 24 + (h + 1) % 2 ^ 24)).ending = none → Tab.find? s.bridge.refs key = none →
    ∃ u, exec .laneRetirement s = .next u ∧ laneHead u l = (h + 1) % 2 ^ 24 ∧ seqRec u key = SeqRec.reset ∧
      u.bridge.rStart = (l + 1) % 65536 ∧ u.threads = s.threads ∧ u.mem = s.mem ∧
      (e.rel = false → WrapsBy s u Reg.BRG_CNT_DROP F.BRG_CNT_DROP_count 1 ∧ u.bridge.egress = s.bridge.egress ∧
        ((∀ a ∈ e.win.rets, (poolOf s a).isSome = true) →
          u.bpm.freeQ = s.bpm.freeQ ++ e.win.rets.map (fun a => { addr := a, port := 26, op := none }))) ∧
      (∀ off n, e.rel = true → destBad s e.dest = none →
        editRange e.edit e.dest e.len (windowSize e.win.data) = some (off, n) →
        WrapsBy s u Reg.BRG_CNT_REL F.BRG_CNT_REL_count 1 ∧ u.bpm = s.bpm ∧
        egressQ u e.dest.toNat = egressQ s e.dest.toNat ++
          [{ key := key, child := none, dest := e.dest, off := off, len := n, ts := e.edit.getLsbD 32, win := e.win,
             hash := e.hash }] ∧
        (∀ k, k ≠ e.dest.toNat → egressQ u k = egressQ s k)) ∧
      (∀ why, e.rel = true → destBad s e.dest = some why → u.bridge.egress = s.bridge.egress ∧
        CountsBy s u Reg.BRG_CNT_BAD F.BRG_CNT_BAD_count 1 ∧
        rd u Reg.BRG_LASTBAD = BitVec.ofNat 48 (2 ^ 47 + why * 2 ^ 44 + (e.dest.extractLsb' 44 4).toNat * 2 ^ 40 + key)))
/-! ## Egress -/

namespace Sys2Proof.Machine

/-- Every tile a departure sends can be read, and is sealed; `b`, `n` is its one data buffer. -/
def sealedDeparture (s : State) (d : Depart) (b n : Nat) : Prop :=
  d.win.data = [(b, n)] ∧ d.win.links = [] ∧ 0 < d.len ∧ d.off + d.len ≤ n ∧
  ∀ tl ∈ windowTiles [(b, n)] d.off d.len, retiredIn s tl 256 = false ∧ poisoned s tl 256 = false ∧
    busyIn s tl 256 = false ∧ (tileGet s tl).1 = true

/-- Every tile of it matches its check (R226). -/
def goodDeparture (s : State) (d : Depart) (b n : Nat) : Prop :=
  ∀ tl ∈ windowTiles [(b, n)] d.off d.len, tileGood s tl = true

/-- A frame as it leaves a port (R376): padded to 60 bytes, then its FCS, complemented for a stomped one. -/
def onWire (l : List Byte) (stomp : Bool) : List Byte :=
  let body := l ++ List.replicate (60 - l.length) 0
  body ++ leBytes 4 (if stomp then 2 ^ 32 - 1 - crc32e body else crc32e body)

end Sys2Proof.Machine

/-- R226, R227, R367, R374–R377: a port that is UP sends the oldest departure of its highest class that is not paused,
with its FCS, or stomped and counted when a tile fails its check; one asked for leaves a transmit timestamp record. A
port that is not UP drops and counts the oldest departure of its highest class. R351, R352: a departure to a host queue
with a buffer posted reads the buffer's ring entry and is written there, then its completion entry; one longer than the
buffer is lost, its entry has length 0, and it is counted. With no buffer posted it waits, or is dropped and counted at
once where the hold limit is 0, and when the limit expires. -/
def Obligations.FramesDepart : Prop :=
  (∀ (s : State) (p c : Nat) (d : Depart) (rest : List Depart), p < 64 → c < 8 →
    egressQ s (2 ^ 44 + c * 2 ^ 8 + p) = d :: rest →
    (fld s (Reg.MAC_PSTAT p) F.MAC_PSTAT_state = 2 → Tab.get 0 (ethP s p).pause c = 0 →
      (∀ k, c < k → k < 8 → Tab.get 0 (ethP s p).pause k ≠ 0 ∨ egressQ s (2 ^ 44 + k * 2 ^ 8 + p) = []) →
      ∀ b n, sealedDeparture s d b n →
        let bytes := rdBytes s.mem (b + d.off) d.len
        (goodDeparture s d b n → ∃ u, exec (.ethTransmit p 0) s = .next u ∧
          u.outbox = s.outbox ++ [.frame p (onWire bytes false) true] ∧ egressQ u (2 ^ 44 + c * 2 ^ 8 + p) = rest ∧
          WrapsBy s u (Reg.MAC_CNT p 9) F.MAC_CNT_count 1 ∧
          WrapsBy s u (Reg.MAC_CNT p 10) F.MAC_CNT_count (Max.max 60 d.len + 4) ∧ u.mem = s.mem ∧ u.threads = s.threads ∧
          (d.ts = false → ethP u p = ethP s p) ∧
          (d.ts = true → d.child = none → (ethP s p).txts.length < 64 → ∃ time, (ethP u p).txts = (ethP s p).txts ++
            [(BitVec.ofNat 48 (2 ^ 47 + d.key), time)])) ∧
        (¬goodDeparture s d b n → ∃ u, exec (.ethTransmit p 0) s = .next u ∧
          u.outbox = s.outbox ++ [.frame p (onWire bytes true) false] ∧ egressQ u (2 ^ 44 + c * 2 ^ 8 + p) = rest ∧
          CountsBy s u (Reg.MAC_CNT p 11) F.MAC_CNT_count 1)) ∧
    (fld s (Reg.MAC_PSTAT p) F.MAC_PSTAT_state ≠ 2 → (∀ k, c < k → k < 8 → egressQ s (2 ^ 44 + k * 2 ^ 8 + p) = []) →
      ∃ u, exec (.ethTransmit p 0) s = .next u ∧ u.outbox = s.outbox ∧ egressQ u (2 ^ 44 + c * 2 ^ 8 + p) = rest ∧
        CountsBy s u (Reg.MAC_CNT p 13) F.MAC_CNT_count 1 ∧ u.mem = s.mem)) ∧
  (∀ (s : State) (fn idx addr blen q : Nat) (d : Depart) (rest : List Depart), 0x1000 ≤ fn → fn < 0x1400 → idx < 256 →
    256 ≤ blen → blen ≤ 65536 → rxqOf s fn idx = some q → egressQ s (2 ^ 45 + idx * 2 ^ 16 + fn) = d :: rest →
    let x := hrx s q
    let size := 2 ^ fld s (Reg.HST_RXQ_CFG q) F.HST_RXQ_CFG_log2size
    let entry := (rd s (Reg.HST_RXQ_CBASE q)).toNat + x.head % size * 32
    let ring := Output.hostReadReq fn ((rd s (Reg.HST_RXQ_BASE q)).toNat + x.head % size * 16) 16
    let phase := if x.head / size % 2 = 0 then 1 else 0
    let done (n : Nat) : List Byte := leBytes 4 n ++ leBytes 1 0 ++ leBytes 1 phase ++ leBytes 2 0 ++ leBytes 4 x.head ++
      leBytes 4 d.hash ++ leBytes 8 (domNow s) ++ leBytes 8 0
    let lost : Prop := ∀ u, (exec (.hostRxWrite fn idx addr blen 0) s = .next u ∨ exec (.rxNobufExpiry fn idx) s = .next u) →
      egressQ u (2 ^ 45 + idx * 2 ^ 16 + fn) = rest ∧ u.outbox = s.outbox ∧ hrx u q = x ∧
      CountsBy s u (Reg.HST_RXQ_STAT q) F.HST_RXQ_STAT_nobuf 1
    (x.head ≠ x.tail →
      exec (.rxNobufExpiry fn idx) s = .next s ∧
      (∀ b n, d.len ≤ blen → sealedDeparture s d b n → goodDeparture s d b n →
        ∃ u, exec (.hostRxWrite fn idx addr blen 0) s = .next u ∧ egressQ u (2 ^ 45 + idx * 2 ^ 16 + fn) = rest ∧
          u.outbox = s.outbox ++ [ring, .hostWrite fn addr (rdBytes s.mem (b + d.off) d.len), .hostWrite fn entry (done d.len)] ∧
          hrx u q = { x with head := (x.head + 1) % 2 ^ 32 } ∧ u.mem = s.mem ∧ u.threads = s.threads) ∧
      (blen < d.len → departWaits s d = false → ∃ u, exec (.hostRxWrite fn idx addr blen 0) s = .next u ∧
        egressQ u (2 ^ 45 + idx * 2 ^ 16 + fn) = rest ∧ u.outbox = s.outbox ++ [ring, .hostWrite fn entry (done 0)] ∧
        hrx u q = { x with head := (x.head + 1) % 2 ^ 32 } ∧
        CountsBy s u (Reg.HST_RXQ_STAT q) F.HST_RXQ_STAT_toolong 1)) ∧
    (x.head = x.tail →
      (∃ u, exec (.rxNobufExpiry fn idx) s = .next u) ∧ (∃ u, exec (.hostRxWrite fn idx addr blen 0) s = .next u) ∧
      (fld s Reg.HST_RXHOLD F.HST_RXHOLD_limit = 0 → lost) ∧
      (fld s Reg.HST_RXHOLD F.HST_RXHOLD_limit ≠ 0 → exec (.hostRxWrite fn idx addr blen 0) s = .next s ∧
        ∀ u, exec (.rxNobufExpiry fn idx) s = .next u → egressQ u (2 ^ 45 + idx * 2 ^ 16 + fn) = rest ∧
          u.outbox = s.outbox ∧ CountsBy s u (Reg.HST_RXQ_STAT q) F.HST_RXQ_STAT_nobuf 1)))
/-! ## Buffer pools -/

/-- R235, R237–R240: an allocation takes the head of the pool's list, opens its tiles and gives BALLOC its address; an
empty pool gives POOL_EMPTY and sets the exhausted flag. A free pushes its buffer at the head and completes its BFREE. A
ring fetch appends what it read to the read side. R243, R244: an audit walks a pool's list from its head and reports
whether its length is the count; a rebuild empties the pool, reads the bitmap, and leaves a list of the buffers whose
bit is 0, the lowest at the head. -/
def Obligations.BuffersAndAudits : Prop :=
  (∀ (s : State) (p : Nat), p < 16 →
    (∀ r id, s.bpm.allocQ = [r] → r.pool = p → r.op = id + 1 → (∀ g ∈ s.bpm.staged, g.pool ≠ p) →
      (∀ h o, headReady s p h → opOf s id = some o →
        ∃ u, exec (.bpmAllocation p) s = .next u ∧ u.bpm.allocQ = [] ∧
          opOf u id = some { o with result := some (0, BitVec.ofNat 48 h) } ∧ poolHead u p = memNat s h 6 ∧
          poolList u p = poolList s p - 1 ∧ WrapsBy s u (Reg.BPM_POUT p) F.BPM_POUT_out 1 ∧
          Tab.get 25 u.bpm.rp p = r.port ∧ (∀ tl ∈ tilesOf h (poolSize s p), (tileGet u tl).1 = false) ∧ u.mem = s.mem ∧
          u.threads = s.threads) ∧
      (∀ o, poolHold s p = false → poolHead s p = 0 → sideR s p = [] → sideW s p = [] → opOf s id = some o →
        poolList s p < fld s (Reg.BPM_PXON p) F.BPM_PXON_xon →
        ∃ u, exec (.bpmAllocation p) s = .next u ∧ u.bpm.allocQ = [] ∧
          opOf u id = some { o with result := some (1, 0) } ∧ fld u (Reg.BPM_POUT p) F.BPM_POUT_exhausted = 1 ∧
          u.mem = s.mem)) ∧
    (∀ r id o, s.bpm.freeQ = [r] → poolOf s r.addr = some p → r.op = some id → opOf s id = some o → poolHold s p = false →
      unitBusy s r.addr = false → bufRetired s p (bufStart s p r.addr) = false → retiredIn s (bufStart s p r.addr) 8 = false →
      poolList s p ≤ fld s (Reg.BPM_PHIGH p) F.BPM_PHIGH_high →
      (sideW s p).length < 16 → poolList s p + 1 < 2 ^ 32 → bufStart s p r.addr < 2 ^ 48 →
      let x := bufStart s p r.addr
      ∃ u, exec (.bpmFree p) s = .next u ∧ u.bpm.freeQ = [] ∧ opOf u id = some { o with result := some (0, 0) } ∧
        poolHead u p = x ∧ u.mem = wrBytes s.mem x (leBytes 8 (poolHead s p)) ∧ poolList u p = poolList s p + 1 ∧
        WrapsBy s u (Reg.BPM_POUT p) F.BPM_POUT_out (2 ^ 32 - 1) ∧ Tab.get 26 u.bpm.fp p = r.port ∧
        u.tiles = s.tiles) ∧
    (∀ l, Tab.get [] s.bpm.fetching p = l → l ≠ [] → ∃ u, exec (.ringFetchComplete p) s = .next u ∧
      sideR u p = sideR s p ++ l ∧ u.threads = s.threads ∧ ((sideW s p).length < 16 → u.mem = s.mem ∧
        fld u (Reg.BPM_PRING p) F.BPM_PRING_entries = fld s (Reg.BPM_PRING p) F.BPM_PRING_entries - l.length)) ∧
    (Tab.get [] s.bpm.fetching p = [] → ∃ u, exec (.ringFetchComplete p) s = .next u ∧ BpKept s u)) ∧
  (∀ (s : State) (p : Nat), p < 16 →
    (flag s Reg.BPM_CTL F.BPM_CTL_audit_en = true → s.bpm.audit = none → nextAudit s = some p →
      isBufStart s p (poolHead s p) = true → poolHead s p ≠ 0 →
      ∃ u a, exec .auditStart s = .next u ∧ u = { s with bpm := { s.bpm with audit := some a, auditNext := p + 1 } } ∧
        a.pool = p ∧ a.cur = poolHead s p ∧ a.steps = 0 ∧ a.diff = 0 ∧ a.count = poolList s p) ∧
    (flag s Reg.BPM_CTL F.BPM_CTL_audit_en = false → exec .auditStart s = .next s) ∧
    (∀ a, s.bpm.audit = some a → a.pool = p → a.steps < poolBufs s p → unitBusy s a.cur = false →
      retiredIn s a.cur 8 = false → poisoned s a.cur 8 = false →
      let n := memNat s a.cur 6
      (n ≠ 0 → isBufStart s p n = true → ∃ u, exec .auditStep s = .next u ∧ BytesKept s u ∧ u.csr = s.csr ∧
        u.bpm = { s.bpm with audit := some { a with cur := n, steps := a.steps + 1 } }) ∧
      (n = 0 → a.steps + 1 < 2 ^ 32 → ∃ u, exec .auditStep s = .next u ∧ u.bpm = { s.bpm with audit := none } ∧
        u.mem = s.mem ∧ rd u (Reg.BPM_PAUDIT p) = BitVec.ofNat 48 ((if a.steps + 1 = a.count then 1 else 2) * 2 ^ 45 +
          (if a.range then 2 ^ 44 else 0) + (a.steps + 1)))) ∧
    (∀ a, s.bpm.audit = some a → unitBusy s a.cur = true → exec .auditStep s = .next s) ∧
    (s.bpm.audit = none → exec .auditStep s = .next s) ∧
    (poolValid s p = true → fld s Reg.BPM_REBUILD_STAT F.BPM_REBUILD_STAT_state ≠ 1 →
      (bitmapOk s p (rd s Reg.BPM_REBUILD).toNat = true → ∃ u, exec (.rebuildGo p) s = .next u ∧ u.mem = s.mem ∧
        fld u Reg.BPM_REBUILD_STAT F.BPM_REBUILD_STAT_state = 1 ∧ fld u Reg.BPM_REBUILD_STAT F.BPM_REBUILD_STAT_pool = p ∧
        poolHead u p = 0 ∧ poolTail u p = 0 ∧ poolList u p = 0 ∧ sideR u p = [] ∧ sideW u p = [] ∧
        fld u (Reg.BPM_PRING p) F.BPM_PRING_entries = 0) ∧
      (bitmapOk s p (rd s Reg.BPM_REBUILD).toNat = false → ∃ u, exec (.rebuildGo p) s = .next u ∧ u.mem = s.mem ∧
        u.bpm = s.bpm ∧ fld u Reg.BPM_REBUILD_STAT F.BPM_REBUILD_STAT_state = 3)) ∧
    (fld s Reg.BPM_REBUILD_STAT F.BPM_REBUILD_STAT_state = 1 → fld s Reg.BPM_REBUILD_STAT F.BPM_REBUILD_STAT_pool = p →
      s.bpm.held = [] → s.bpm.purge = [] → sideR s p = [] → sideW s p = [] → ringHeld s p = 0 → poolHead s p = 0 →
      retiredIn s (rd s Reg.BPM_REBUILD).toNat ((poolBufs s p + 7) / 8) = false →
      poisoned s (rd s Reg.BPM_REBUILD).toNat ((poolBufs s p + 7) / 8) = false →
      busyIn s (rd s Reg.BPM_REBUILD).toNat ((poolBufs s p + 7) / 8) = false →
      (∀ i, i < poolBufs s p → retiredIn s (poolBase s p + i * poolSize s p) 8 = false) →
      256 ≤ poolSize s p → 0 < poolBase s p → poolBase s p + poolBufs s p * poolSize s p ≤ 2 ^ 48 → poolBufs s p < 2 ^ 32 →
      let free := (List.range (poolBufs s p)).filter (fun i => !bitmapBit s i)
      let at_ (i : Nat) : Nat := poolBase s p + i * poolSize s p
      ∃ u, exec (.rebuildComplete 0) s = .next u ∧ fld u Reg.BPM_REBUILD_STAT F.BPM_REBUILD_STAT_state = 2 ∧
        poolList u p = free.length ∧ poolHead u p = (free.head?.map at_).getD 0 ∧
        poolTail u p = (free.getLast?.map at_).getD (poolTail s p) ∧
        fld u (Reg.BPM_POUT p) F.BPM_POUT_out = poolBufs s p - free.length ∧
        (∀ k i, free[k]? = some i → memNat u (at_ i) 8 = (free[k + 1]?.map at_).getD 0)) ∧
    (fld s Reg.BPM_REBUILD_STAT F.BPM_REBUILD_STAT_state = 1 → fld s Reg.BPM_REBUILD_STAT F.BPM_REBUILD_STAT_pool = p →
      s.bpm.held = [] → busyIn s (rd s Reg.BPM_REBUILD).toNat ((poolBufs s p + 7) / 8) = false →
      ∃ u, exec (.rebuildComplete 2) s = .next u ∧ u.mem = s.mem ∧
        fld u Reg.BPM_REBUILD_STAT F.BPM_REBUILD_STAT_state = 3 ∧
        fld u (Reg.BPM_POUT p) F.BPM_POUT_out = poolBufs s p % 2 ^ F.BPM_POUT_out.width))
/-! ## Memory controllers -/

/-- R326–R332: a request takes a NORMAL or DEGRADED unit to PENDING with its cause, and on at once where grant_wait is 0; a
grant, or the expiry of grant_wait, starts its retraining; its end is NORMAL, DEGRADED or RETIRED. Every other state
ignores them. R334: RETIRE leaves a purge of the stack, which its completion ends. -/
def Obligations.TrainingMoves : Prop :=
  ∀ (s : State) (m u : Nat), m < 12 → (if m < 4 then u < 32 else u = 0) → mcUsed s m = true →
    let a := Reg.MC_UNIT m u
    let st (v : State) : Nat := fld v a F.MC_UNIT_state
    let still := s.bpm.staged = [] ∧ s.tbl.bulk = none ∧ ∀ q ∈ s.tbl.queue, q ≠ .cmd
    let wait := fld s (Reg.MC_TRAINCTL m) F.MC_TRAINCTL_grant_wait
    let asked (c : Instr) (why : Nat) : Prop := ∃ v, exec c s = .next v ∧ BytesKept s v ∧
      fld v a F.MC_UNIT_why = why ∧ st v = (if wait = 0 then 4 else 3) ∧
      (wait = 0 → fld v a F.MC_UNIT_forced = 1 ∧ CountsBy s v a F.MC_UNIT_retrains 1)
    (st s = 2 ∨ st s = 5 → asked (.retrain m u) 3) ∧
    (st s = 5 → fld s (Reg.MC_TRAINCTL m) F.MC_TRAINCTL_retry ≠ 0 → asked (.degradedRetry m u) 4) ∧
    (st s ≠ 2 → st s ≠ 5 → exec (.retrain m u) s = .next s ∧ exec (.degradedRetry m u) s = .next s ∧
      ∀ temp margin, exec (.trackingStep m u temp margin true) s = .next s) ∧
    (st s = 3 → ∀ c ∈ [(Instr.grant m u, 0), (Instr.grantWaitExpiry m u, 1)], ∃ v, exec c.1 s = .next v ∧ st v = 4 ∧
      fld v a F.MC_UNIT_forced = c.2 ∧ CountsBy s v a F.MC_UNIT_retrains 1 ∧ RegsKept s v [a] ∧ v = { s with csr := v.csr }) ∧
    (st s ≠ 3 → exec (.grant m u) s = .next s ∧ exec (.grantWaitExpiry m u) s = .next s) ∧
    (∀ temp margin d, fld s (Reg.MC_TRAINCTL m) F.MC_TRAINCTL_track_ms = 0 → tempMoved s m u (temp % 256) = false →
      exec (.trackingStep m u temp margin d) s = .next s) ∧
    (∀ temp margin, st s = 2 ∨ st s = 5 →
      fld s (Reg.MC_TRAINCTL m) F.MC_TRAINCTL_track_ms ≠ 0 ∨ tempMoved s m u (temp % 256) = true →
      let alarm := flag s Reg.PWR_CHM_CFG F.PWR_CHM_CFG_en = true ∧ margin < fld s Reg.PWR_CHM_CFG F.PWR_CHM_CFG_phy_alarm
      ((∃ k, k < 4 ∧ fld s (Reg.MC_RTSTAT m k) F.MC_RTSTAT_panic = 1) →
        exec (.track m u temp margin) s = .next s ∧ exec (.trackingStep m u temp margin false) s = .next s) ∧
      (∃ v, exec (.trackingStep m u temp margin true) s = .next v ∧ fld v a F.MC_UNIT_temp = temp % 256 ∧
        (alarm → fld v a F.MC_UNIT_why = 2 ∧ st v = (if wait = 0 then 4 else 3)) ∧ (¬alarm → st v = st s)) ∧
      ((∀ k, k < 4 → fld s (Reg.MC_RTSTAT m k) F.MC_RTSTAT_panic = 0) →
        exec (.track m u temp margin) s = exec (.trackingStep m u temp margin true) s ∧
        exec (.trackingStep m u temp margin false) s = exec (.trackingStep m u temp margin true) s)) ∧
    (∀ temp ok check, st s = 1 ∨ st s = 4 → still → ∃ v, exec (.retrainingComplete m u temp ok check) s = .next v ∧
      fld v a F.MC_UNIT_temp = temp % 256 ∧
      st v = (if ok then 2 else if (mcUnit s m u).good && check then 5 else 6) ∧
      (ok = true → (mcUnit v m u).good = true ∧ (mcUnit v m u).half = false ∧
        ((mcUnit s m u).half = true → ∀ k, k < refUnits s m → fld v (Reg.MC_REFSTAT m k) F.MC_REFSTAT_owed = 0) ∧
        ((mcUnit s m u).half = false → ∀ k, k < refUnits s m → rd v (Reg.MC_REFSTAT m k) = rd s (Reg.MC_REFSTAT m k)))) ∧
    (st s = 0 ∨ st s = 6 → exec (.retire m u) s = .next s) ∧
    (st s ≠ 0 → st s ≠ 6 → still → ∃ v, exec (.retire m u) s = .next v ∧ st v = 6 ∧ BytesKept s v ∧
      (m < 4 → v.bpm = { s.bpm with purge := s.bpm.purge ++ [m * 32 + u] })) ∧
    (m < 4 → m * 32 + u ∉ s.bpm.purge → exec (.hbmPurgeComplete m u) s = .next s) ∧
    (m < 4 → m * 32 + u ∈ s.bpm.purge → s.bpm.held = [] → (∀ p, p < 16 → poolValid s p = true → poolOnStack s p m = false) →
      ∃ v, exec (.hbmPurgeComplete m u) s = .next v ∧ v.bpm = { s.bpm with purge := s.bpm.purge.erase (m * 32 + u) } ∧
        v.mem = s.mem) ∧
    (∀ p l, m < 4 → s.bpm.purge = [m * 32 + u] → s.bpm.held = [] → s.bpm.audit = none → p < 16 → poolValid s p = true →
      poolOnStack s p m = true → (∀ k, k < 16 → k ≠ p → poolValid s k = true → poolOnStack s k m = false) →
      (listWalk (poolBufs s p) (poolHead s p) s).1 = l → (listWalk (poolBufs s p) (poolHead s p) s).2.1 = false →
      (∀ x ∈ l, unitBusy s x = false) → ringHeld s p = 0 → sideR s p = [] → sideW s p = [] →
      l.length < 2 ^ 32 → (∀ x ∈ l, x < 2 ^ 48) →
      let kept := l.filter (fun x => !bufRetired s p x)
      ∃ v, exec (.hbmPurgeComplete m u) s = .next v ∧ poolHead v p = kept.head?.getD 0 ∧
        poolTail v p = kept.getLast?.getD 0 ∧ poolList v p = kept.length ∧
        CountsBy s v (Reg.MC_RETLOSS m) F.MC_RETLOSS_purged (l.length - kept.length))

/-- R315, R543: patrol scrub counts a corrected unit, and records, counts and reports one it cannot correct; it reads
nothing while it is off. R316, R317, R320–R324: a refresh that falls due is issued, or postponed up to the limit, or
inserted and counted when real-time reads hold it off; owed refreshes are made up when nothing holds them off, and
issued at a change of tREFI; an idle unit that no request waits for powers down; a port's client takes entries and its
reads return, those of ports in panic first. -/
def Obligations.PatrolAndRefresh : Prop :=
  (∀ (s : State) (k a : Nat), k < 6 → a < 2 ^ 48 → (k < 4 → scrubMem a = some k ∧ populated s a = true ∧ retiredAt s a = false ∧
      unitBusy s a = false ∧
      retiredIn s (a / 64 * 64) 64 = false ∧ poisoned s (a / 64 * 64) 64 = false) →
    (fld s Reg.BKG_CTL F.BKG_CTL_scrub_en = 0 → exec (.scrubRead k a 0 false) s = .next s) ∧
    (fld s Reg.BKG_CTL F.BKG_CTL_scrub_en = 1 →
      (∃ u, exec (.scrubRead k a 0 false) s = .next u ∧ u.csr = s.csr ∧ BytesKept s u) ∧
      (∃ u, exec (.scrubRead k a 1 false) s = .next u ∧ BytesKept s u ∧
        CountsBy s u (Reg.BKG_SCRUBCNT k) F.BKG_SCRUBCNT_ce 1) ∧
      (∃ u, exec (.scrubRead k a 2 false) s = .next u ∧ BytesKept s u ∧
        CountsBy s u (Reg.BKG_SCRUBCNT k) F.BKG_SCRUBCNT_ue 1 ∧
        rd u Reg.BKG_SCRUB_LAST = BitVec.ofNat 48 (2 ^ 47 + k * 2 ^ 44 + a / 64)) ∧
      (∃ u, exec (.scrubRead k a 0 true) s = .next u ∧ CountsBy s u Reg.BKG_OVR F.BKG_OVR_scrub 1))) ∧
  (∀ (s : State) (m u : Nat), m < 12 → u < 32 → mcUsed s m = true → u < refUnits s m → unitAlive s m (refTrain m u) = true →
    let owedAt (v : State) : Nat := fld v (Reg.MC_REFSTAT m u) F.MC_REFSTAT_owed
    let reads := ∃ k, k < 4 ∧ portReads s m k = true
    let panic := ∃ k, k < 4 ∧ fld s (Reg.MC_RTSTAT m k) F.MC_RTSTAT_panic = 1
    (∀ prog rt, ∃ v, exec (.refreshDue m u prog rt) s = .next v ∧
      (mcCtl v m).pd = (mcCtl s m).pd.filter (fun k => k != (if m < 4 then u else u / 2)) ∧ BytesKept s v ∧
      owedAt v = (if owedAt s < refLimit s m ∧ (prog = true ∨ (rt = true ∧ (List.range 4).any (portReads s m) = true))
        then owedAt s + 1 else owedAt s) ∧
      (prog = false → rt = true → reads → refLimit s m ≤ owedAt s →
        CountsBy s v (Reg.MC_REFSTAT m u) F.MC_REFSTAT_forced 1)) ∧
    (∀ rt, (owedAt s = 0 ∨ (rt = true ∧ reads) ∨ panic → exec (.makeupRefresh m u rt) s = .next s) ∧
      (owedAt s ≠ 0 → ¬(rt = true ∧ reads) → ¬panic → ∃ v, exec (.makeupRefresh m u rt) s = .next v ∧
        owedAt v = owedAt s - 1 ∧ v = { s with csr := v.csr })) ∧
    (∀ hot, ∃ v, exec (.trefiChange m hot) s = .next v ∧ BytesKept s v ∧
      (mcCtl v m).refmode = flag s (Reg.MC_CTL m) F.MC_CTL_refmode ∧ (mcCtl v m).hot = hot ∧
      (mcCtl v m).fgr = (decide (4 ≤ m) && flag s (Reg.MC_CTL m) F.MC_CTL_fgr) ∧ (mcCtl v m).pd = (mcCtl s m).pd ∧
      (mcCtl v m ≠ mcCtl s m → ∀ k, k < refUnits s m → fld v (Reg.MC_REFSTAT m k) F.MC_REFSTAT_owed = 0)) ∧
    (∀ k, k < pdUnits s m → k < 32 →
      let idle := flag s (Reg.MC_CTL m) F.MC_CTL_pd_en = true ∧ k ∉ (mcCtl s m).pd ∧ pdWanted s m k = false ∧
        ∀ r, r < refUnits s m → refPd m r = k → fld s (Reg.MC_REFSTAT m r) F.MC_REFSTAT_owed = 0
      (idle → exec (.powerDownEntry m k) s = .next (setMcCtl m { mcCtl s m with pd := (mcCtl s m).pd ++ [k] } s)) ∧
      (¬idle → exec (.powerDownEntry m k) s = .next s) ∧ exec (.zqCalibration m k) s = .next s) ∧
    (∀ k, k < 4 →
      let a := Reg.MC_RTSTAT m k
      let lv := fld s a F.MC_RTSTAT_level
      let held (j : Nat) : Bool := fld s (Reg.MC_RTSTAT m j) F.MC_RTSTAT_panic == 1 && portReads s m j
      let first := ∀ j, j < 4 → j ≠ k → held j = true → held k = true ∧
        (lv < fld s (Reg.MC_RTSTAT m j) F.MC_RTSTAT_level ∨ (lv = fld s (Reg.MC_RTSTAT m j) F.MC_RTSTAT_level ∧ k < j))
      let cfg (f : Fld) : Nat := fld s (Reg.MC_RTCFG m k) f
      (portEn s m k = false → exec (.rtPortTake m k) s = .next s ∧ exec (.rtReadReturn m k) s = .next s) ∧
      (portEn s m k = true → lv = 0 → ∃ v, exec (.rtPortTake m k) s = .next v ∧
        CountsBy s v a F.MC_RTSTAT_underruns 1 ∧ fld v a F.MC_RTSTAT_level = 0) ∧
      (portEn s m k = true → lv ≠ 0 → ∃ v, exec (.rtPortTake m k) s = .next v ∧ fld v a F.MC_RTSTAT_level = lv - 1 ∧
        (fld v a F.MC_RTSTAT_panic = if lv = cfg F.MC_RTCFG_enter ∧ lv - 1 < cfg F.MC_RTCFG_depth then 1
          else fld s a F.MC_RTSTAT_panic)) ∧
      (¬first → exec (.rtReadReturn m k) s = .next s) ∧
      (portEn s m k = true → lv < cfg F.MC_RTCFG_depth → first → ∃ v, exec (.rtReadReturn m k) s = .next v ∧
        fld v a F.MC_RTSTAT_level = lv + 1 ∧
        (fld v a F.MC_RTSTAT_panic = if cfg F.MC_RTCFG_exit ≤ lv + 1 then 0 else fld s a F.MC_RTSTAT_panic) ∧
        RegsKept s v [a] ∧ v = { s with csr := v.csr })))
/-! ## Tables -/

namespace Sys2Proof.Machine

/-- The update unit has nothing to do, no command runs, and table `t` is neither held nor waiting for a unit in RETRAINING
(R57, R267, R270, R330). -/
def tblFree (s : State) (t : Nat) : Prop :=
  flag s Reg.TBL_CMD_STAT F.TBL_CMD_STAT_busy = false ∧ s.tbl.steps = [] ∧ s.tbl.bulk = none ∧ s.tbl.queue = [] ∧
  s.tbl.held.contains t = false ∧ tableWaits s t = false

/-- What a check of a location would find: no valid entry with bad parity (R263). -/
def soundAt (s : State) (t : Nat) (l : Loc) : Prop :=
  let e := entryAt s t l
  isValid e = true → isQuar e = false → parityGood e = true

/-- Bucket `b` can be read and written: no line of it is poisoned or on a retired unit (R335). -/
def bucketUp (s : State) (t b : Nat) : Prop :=
  bucketPoisoned s t b = false ∧ ∀ k, k < 4 → retiredAt s (entryAddrOf s t ⟨b, k⟩) = false ∧
    retiredIn s (entryAddrOf s t ⟨b, k⟩) 16 = false

/-- The places a key may be in are all sound. -/
def cleanKey (s : State) (t : Nat) (key : List Byte) : Prop :=
  (∀ b ∈ bucketsOf s t key, bucketUp s t b ∧ ∀ k, k < 4 → soundAt s t ⟨b, k⟩) ∧ ∀ l ∈ stashLocs, soundAt s t l

/-- A location whose read finds nothing to report: its whole bucket is up and sound, or the stash entry is sound. -/
def cleanLoc (s : State) (t : Nat) (l : Loc) : Prop :=
  (l.slot < 8 → bucketUp s t l.bucket ∧ ∀ k, k < 4 → soundAt s t ⟨l.bucket, k⟩) ∧ (8 ≤ l.slot → soundAt s t l)

/-- Location `l` holds a good entry of `key` with action `a`, static or not, its hit bit 1. -/
def entryIs (s : State) (t : Nat) (l : Loc) (key : List Byte) (a : Nat) (st : Bool) : Prop :=
  let e := entryAt s t l
  isValid e = true ∧ isQuar e = false ∧ isHit e = true ∧ isStatic e = st ∧ parityGood e = true ∧ keyOf s t e = key ∧
  actOf s t e = a

/-- A location of the table: a bucket slot or a stash entry. -/
def locOf (s : State) (t : Nat) (l : Loc) : Prop :=
  (8 ≤ l.slot ∧ l.slot < 16) ∨ (l.slot < 4 ∧ l.bucket < tBuckets s t)

/-- The state with the word of a command in TBL_CMD. -/
def withCmd (s : State) (w : Word) : State := wr s Reg.TBL_CMD (w &&& 0xFFFC00F)

/-- The first free slot of the candidate buckets of a key (R258). -/
def freeSlotFor (s : State) (t : Nat) (key : List Byte) : Option Loc := (bucketsOf s t key).findSome? (firstFreeSlot s t)

/-- The command answered by `st` with nothing stored. -/
def tblNo (s u : State) (st : Nat) : Prop := u.tbl.result = some st ∧ u.mem = s.mem ∧ u.tbl.stash = s.tbl.stash

/-- The controller takes an occurrence of a source of its own domain: an enabled IDLE source is PENDING (R297). -/
def Raised (s u : State) (n : Nat) : Prop :=
  flag s (Reg.EVT_CFG n) F.EVT_CFG_en = true → evState s n = 0 → evState u n = 1

end Sys2Proof.Machine

/-- R252–R258, R267: what ADD, SET, DELETE, FIND, READ_SLOT, WRITE_SLOT, FLUSH and BULK_SET do to an exact table when
the update unit is free, and the status each then waits to complete with. A command written while busy is ignored.
R264–R267: what PFX_ADD, PFX_DEL, PFX_READ and PFX_FIX do to a prefix table; a command for the other kind of table
answers BAD_REQUEST (4). -/
def Obligations.TableCommands : Prop :=
  (∀ (s : State) (w : Word), let x := withCmd s w; let t := cmdTable x; let img := cmdImg s; let key := imgKey s t img
    let act := actOf s t (img % 2 ^ 116); let st := isStatic img; let l := cmdLoc s
    let acts (c : Instr) (op : Nat) (P : State → Prop) : Prop := getF w F.TBL_CMD_op = op → ∃ u, exec c s = .next u ∧
      flag u Reg.TBL_CMD_STAT F.TBL_CMD_STAT_busy = true ∧ u.threads = s.threads ∧ P u
    let ok (u : State) : Prop := u.tbl.result = some 0
    (flag s Reg.TBL_CMD_STAT F.TBL_CMD_STAT_busy = true → ∀ c ∈ [(1, Instr.tableAdd w), (2, .tableSet w),
      (3, .tableDelete w), (4, .tableFind w), (5, .readSlot w), (6, .writeSlot w), (7, .flush w), (8, .bulkSet w),
      (9, .pfxAdd w), (10, .pfxDel w), (11, .pfxRead w), (12, .pfxFix w)], getF w F.TBL_CMD_op = c.1 →
      exec c.2 s = .next s) ∧
    (tblFree s t → tKind s t = 1 → tKeyBytes s t + tActBytes s t ≤ 14 →
      (imgBad s t img = true → ∀ c ∈ [(1, Instr.tableAdd w), (2, .tableSet w), (3, .tableDelete w), (4, .tableFind w)],
        acts c.2 c.1 (fun u => tblNo s u 4)) ∧
      (imgBad s t img = false → cleanKey s t key →
        (matchesOf s t key ≠ [] → acts (.tableAdd w) 1 (fun u => tblNo s u 1)) ∧
        (matchesOf s t key = [] → acts (.tableDelete w) 3 (fun u => tblNo s u 2) ∧
          acts (.tableFind w) 4 (fun u => tblNo s u 2) ∧
          (∀ f, freeSlotFor s t key = some f →
            let put (u : State) : Prop := ok u ∧ entryIs u t f key act st ∧
              WrapsBy s u (Reg.TBL_T_COUNT t) F.TBL_T_COUNT_count 1 ∧ u.tbl.steps = [] ∧
              fld u Reg.TBL_CMD_STAT F.TBL_CMD_STAT_steps = 0
            acts (.tableAdd w) 1 put ∧ acts (.tableSet w) 2 put)) ∧
        (∀ m r, matchesOf s t key = m :: r →
          acts (.tableSet w) 2 (fun u => ok u ∧ entryIs u t m key act st) ∧
          acts (.tableDelete w) 3 (fun u => ok u ∧ (∀ k ∈ m :: r, isUsed (entryAt u t k) = false) ∧
            u.tbl.steps = ((m :: r).filter (fun k => decide (k.slot < 8))).map (fun k => (t, TStep.refill k)) ∧
            ∀ c ∈ u.tbl.cands, c.table = t → c.key ≠ key) ∧
          acts (.tableFind w) 4 (fun u => ok u ∧ cmdImg u = entryAt s t m % 2 ^ 128 ∧
            rd u Reg.TBL_CMD_LOC = BitVec.ofNat 48 (m.bucket * 16 + m.slot) ∧ u.mem = s.mem))) ∧
      (locOf s t l → cleanLoc s t l → acts (.readSlot w) 5 (fun u => ok u ∧ cmdImg u = entryAt s t l % 2 ^ 128 ∧
        flag u Reg.TBL_CMD_STAT F.TBL_CMD_STAT_quar = isQuar (entryAt s t l) ∧ u.mem = s.mem)) ∧
      (locOf s t l → imgBad s t img = false → (l.slot < 4 → bucketUp s t l.bucket) →
        acts (.writeSlot w) 6 (fun u => ok u ∧ isHit (entryAt u t l) = true ∧
          mainBits (entryAt u t l) = (img % 2 ^ 116, isValid img, isStatic img, false))) ∧
      (¬locOf s t l → acts (.readSlot w) 5 (fun u => tblNo s u 4) ∧ acts (.writeSlot w) 6 (fun u => tblNo s u 4)) ∧
      ((∀ b, b < tBuckets s t → bucketUp s t b) → acts (.flush w) 7 (fun u => ok u ∧
        ∀ k, locOf s t k → (8 ≤ k.slot → k.bucket = 0) →
          flag x Reg.TBL_CMD F.TBL_CMD_all = true ∨ (isStatic (entryAt s t k) = false ∧ isQuar (entryAt s t k) = false ∧ soundAt s t k) →
          isUsed (entryAt u t k) = false)) ∧
      ((rd s Reg.TBL_CMD_D1).toNat % 2 ^ 32 = 0 → acts (.bulkSet w) 8 (fun u => tblNo s u 0 ∧ u.tbl.bulk = none)) ∧
      ((rd s Reg.TBL_CMD_D1).toNat % 2 ^ 32 = 1 →
        let a := (rd s Reg.TBL_CMD_D0).toNat
        let one := memNat s a 16
        let k1 := imgKey s t one
        (populated s a = false → busyIn s a 16 = false → acts (.bulkSet w) 8 (fun u => tblNo s u 5 ∧ u.tbl.bulk = none ∧
          fld u Reg.TBL_CMD_LOC F.TBL_CMD_LOC_bucket = 0)) ∧
        (populated s a = true → populated s (a + 15) = true → poisoned s a 16 = false → retiredIn s a 16 = false →
          busyIn s a 16 = false → imgBad s t one = false →
          cleanKey s t k1 → ∀ f, (matchesOf s t k1).head? = some f ∨ (matchesOf s t k1 = [] ∧ freeSlotFor s t k1 = some f) →
          acts (.bulkSet w) 8 (fun u => ok u ∧ u.tbl.bulk = none ∧
            entryIs u t f k1 (actOf s t (one % 2 ^ 116)) (isStatic one)))))) ∧
  (∀ (s : State) (w : Word), let x := withCmd s w; let t := cmdTable x; let at_ := (cmdLoc s).bucket
    let acts (c : Instr) (op : Nat) (P : State → Prop) : Prop := getF w F.TBL_CMD_op = op → ∃ u, exec c s = .next u ∧
      flag u Reg.TBL_CMD_STAT F.TBL_CMD_STAT_busy = true ∧ u.threads = s.threads ∧ u.mem = s.mem ∧ P u
    let no (st : Nat) (u : State) : Prop := u.tbl.result = some st ∧ u.tbl.prefixes = s.tbl.prefixes
    let ok (u : State) : Prop := u.tbl.result = some 0
    let new : Prefix := { len := cmdPlen x, addr := cmdAddr x t, action := cmdAction x t, quar := false, bad := false }
    let counted (u : State) : Prop := fld u (Reg.TBL_T_COUNT t) F.TBL_T_COUNT_count =
      (prefixesOf u t).length % 2 ^ F.TBL_T_COUNT_count.width
    tblFree s t →
    (tKind s t ≠ 1 → ∀ c ∈ [(1, Instr.tableAdd w), (2, .tableSet w), (3, .tableDelete w), (4, .tableFind w),
      (5, .readSlot w), (6, .writeSlot w), (7, .flush w), (8, .bulkSet w)], acts c.2 c.1 (no 4)) ∧
    (tKind s t < 2 → ∀ c ∈ [(9, Instr.pfxAdd w), (10, .pfxDel w), (11, .pfxRead w), (12, .pfxFix w)],
      acts c.2 c.1 (no 4)) ∧
    (2 ≤ tKind s t →
      (pfxBad x t = true → acts (.pfxAdd w) 9 (no 4) ∧ acts (.pfxDel w) 10 (no 4)) ∧
      (pfxBad x t = false →
        (pfxFind x t = none → acts (.pfxDel w) 10 (no 2) ∧
          (tBuckets s t ≤ (prefixesOf s t).length → acts (.pfxAdd w) 9 (no 3)) ∧
          ((prefixesOf s t).length < tBuckets s t → acts (.pfxAdd w) 9 (fun u => ok u ∧ counted u ∧
            ∃ i, i < tBuckets s t ∧ Tab.find? (prefixesOf s t) i = none ∧
              prefixesOf u t = Tab.put (prefixesOf s t) i new))) ∧
        (∀ i p, pfxFind x t = some (i, p) →
          acts (.pfxAdd w) 9 (fun u => ok u ∧
            prefixesOf u t = Tab.put (prefixesOf s t) i { p with action := cmdAction x t }) ∧
          acts (.pfxDel w) 10 (fun u => ok u ∧ counted u ∧ prefixesOf u t = Tab.del i (prefixesOf s t))) ∧
        (at_ < tBuckets s t → acts (.pfxFix w) 12 (fun u => ok u ∧ counted u ∧
          prefixesOf u t = Tab.put (prefixesOf s t) at_ new))) ∧
      (tBuckets s t ≤ at_ → acts (.pfxRead w) 11 (no 4) ∧ acts (.pfxFix w) 12 (no 4)) ∧
      (at_ < tBuckets s t → (Tab.find? (prefixesOf s t) at_ = none → acts (.pfxRead w) 11 (no 2)) ∧
        ∀ p, Tab.find? (prefixesOf s t) at_ = some p → acts (.pfxRead w) 11 (fun u => ok u ∧
          u.tbl.prefixes = s.tbl.prefixes ∧ cmdAddr u t = p.addr % 2 ^ pfxBits s t ∧
          fld u Reg.TBL_CMD F.TBL_CMD_plen = p.len % 256 ∧ rd u Reg.TBL_CMD_ACT = BitVec.ofNat 48 p.action))))
/-- R259, R261, R267, R271, R273–R275, R545: a command completes with its status and event 613; the update unit's next
write lands; a learn inserts, refreshes, records or moves; a candidate expires; the ageing sweep clears a hit bit or
deletes the entry; and the parity sweep quarantines what it finds bad. -/
def Obligations.TableUpkeep : Prop :=
  ∀ (s : State) (t : Nat), t < 32 →
    (s.tbl.result = none → exec .tblCmdDone s = .next s) ∧
    (∀ st, s.tbl.result = some st → s.tbl.steps = [] → ∃ u, exec .tblCmdDone s = .next u ∧
      flag u Reg.TBL_CMD_STAT F.TBL_CMD_STAT_busy = false ∧
      fld u Reg.TBL_CMD_STAT F.TBL_CMD_STAT_status = st % 256 ∧ u.tbl.result = none ∧ Raised s u 613 ∧
      (∀ l, s.tbl.last = some l →
        fld u Reg.TBL_CMD_STAT F.TBL_CMD_STAT_ver = versionOf s (cmdTable s) l % 2 ^ 16) ∧ BytesKept s u) ∧
    (∀ i, s.tbl.steps = [(t, .clear i)] → i < 8 → s.tbl.queue = [] → s.tbl.bulk = none →
      ∃ u, exec .relocationStep s = .next u ∧ u.tbl.steps = [] ∧ isUsed (entryAt u t ⟨0, 8 + i⟩) = false ∧ u.mem = s.mem) ∧
    (∀ d m img, s.tbl.steps = [(t, .shift d m none img)] → tableWaits s t = false → s.tbl.queue = [] → s.tbl.bulk = none →
      d.slot < 4 → m.slot < 4 → bucketUp s t d.bucket → bucketUp s t m.bucket → d.bucket ≠ m.bucket → img < 2 ^ 128 →
      mainBits (entryAt s t d) ≠ mainBits img →
      ∃ u, exec .relocationStep s = .next u ∧ u.tbl.steps = [] ∧ mainBits (entryAt u t d) = mainBits img ∧
        parityGood (entryAt u t d) = true ∧
        (isHit (entryAt s t d) = true → isHit (entryAt u t m) = true) ∧
        mainBits (entryAt u t m) = mainBits (entryAt s t m)) ∧
    (s.tbl.steps = [] → s.tbl.bulk = none → s.tbl.queue = [] → exec .learnApply s = .next s) ∧
    (∀ key a p n k, s.tbl.steps = [] → s.tbl.bulk = none → s.tbl.result = none → tableWaits s t = false →
      s.tbl.queue = [.learn t key a p n k] → s.tbl.held.contains t = false →
      tKind s t = 1 → key.length = tKeyBytes s t → a < 256 ^ tActBytes s t → tKeyBytes s t + tActBytes s t ≤ 14 →
      cleanKey s t key →
      (∀ f, matchesOf s t key = [] → freeSlotFor s t key = some f → ∃ u, exec .learnApply s = .next u ∧
        u.tbl.queue = [] ∧ entryIs u t f key a false ∧ CountsBy s u Reg.TBL_LRN_CNT0 F.TBL_LRN_CNT0_inserted 1 ∧
        ∀ c ∈ u.tbl.cands, c.table = t → c.key ≠ key) ∧
      (∀ m, (matchesOf s t key).head? = some m →
        let e := entryAt s t m
        (isStatic e = true ∨ actOf s t e = a → ∃ u, exec .learnApply s = .next u ∧ u.tbl.queue = [] ∧
          mainBits (entryAt u t m) = mainBits e ∧ isHit (entryAt u t m) = true ∧ u.tbl.cands = s.tbl.cands) ∧
        (isStatic e = false → actOf s t e ≠ a →
          let c := s.tbl.cands.find? (fun c => c.table == t && c.key == key && c.action == a)
          let others := s.tbl.cands.filter (fun c => !(c.table == t && c.key == key))
          (c = none → others.length < 256 → ∃ u, exec .learnApply s = .next u ∧ u.tbl.queue = [] ∧ u.mem = s.mem ∧
            u.tbl.stash = s.tbl.stash ∧
            u.tbl.cands = others ++ [{ table := t, key := key, action := a, time := domNow s }]) ∧
          (c = none → 256 ≤ others.length → ∃ u, exec .learnApply s = .next u ∧ u.tbl.queue = [] ∧ u.mem = s.mem ∧
            u.tbl.cands = others ∧ CountsBy s u Reg.TBL_LRN_CNT1 F.TBL_LRN_CNT1_nocand 1) ∧
          (∀ r, c = some r → holddownNs s ≤ domNow s - r.time → ∃ u, exec .learnApply s = .next u ∧
            entryIs u t m key a false ∧ u.tbl.cands = others ∧ CountsBy s u Reg.TBL_LRN_CNT1 F.TBL_LRN_CNT1_moves 1 ∧
            Raised s u 611) ∧
          (∀ r, c = some r → domNow s - r.time < holddownNs s → ∃ u, exec .learnApply s = .next u ∧
            u.mem = s.mem ∧ u.tbl.stash = s.tbl.stash ∧ u.tbl.cands = s.tbl.cands)))) ∧
    (∀ k c, s.tbl.cands[k]? = some c →
      (domNow s - c.time < 4 * holddownNs s → exec (.candidateExpiry k) s = .next s) ∧
      (4 * holddownNs s ≤ domNow s - c.time → ∃ u, exec (.candidateExpiry k) s = .next u ∧
        u.tbl = { s.tbl with cands := s.tbl.cands.eraseIdx k } ∧ u.mem = s.mem)) ∧
    (∀ late, tKind s t = 1 → flag s (Reg.TBL_T_CFG t) F.TBL_T_CFG_age_en = true → s.tbl.steps = [] →
      tableWaits s t = false →
      let n := tBuckets s t
      let pos := Tab.get 0 s.tbl.agePos t
      let l := sweepLoc n pos
      let e := entryAt s t l
      pos < 4 * n + 8 → cleanLoc s t l →
      ∃ u, exec (.ageingSweepStep t late) s = .next u ∧
        Tab.get 0 u.tbl.agePos t = (if pos + 1 < 4 * n + 8 then pos + 1 else 0) ∧
        (isValid e = true → isStatic e = false → isQuar e = false →
          (isHit e = true → isHit (entryAt u t l) = false ∧ mainBits (entryAt u t l) = mainBits e ∧
            u.tbl.cands = s.tbl.cands) ∧
          (isHit e = false → isUsed (entryAt u t l) = false ∧ CountsBy s u (Reg.TBL_T_AGE t) F.TBL_T_AGE_aged 1 ∧
            ∀ c ∈ u.tbl.cands, c.table = t → c.key ≠ keyOf s t e)) ∧
        (isValid e = false ∨ isStatic e = true ∨ isQuar e = true → u.mem = s.mem ∧ u.tbl.stash = s.tbl.stash) ∧
        (late = true → CountsBy s u Reg.BKG_OVR F.BKG_OVR_ageing 1)) ∧
    (∀ b slot bad late, slot < 4 ∨ (8 ≤ slot ∧ slot < 16) → flag s Reg.BKG_CTL F.BKG_CTL_psweep_en = true →
      (tableWaits s t = false → tKind s t = 1 → b < tBuckets s t → bucketUp s t b → isValid (entryAt s t ⟨b, slot⟩) = true →
        isQuar (entryAt s t ⟨b, slot⟩) = false → bad = true → ∃ u, exec (.paritySweepStep t b slot bad late) s = .next u ∧
        isQuar (entryAt u t ⟨b, slot⟩) = true ∧ CountsBy s u (Reg.TBL_T_STAT t) F.TBL_T_STAT_parity 1 ∧
        rd u Reg.TBL_LASTPAR = BitVec.ofNat 48 (2 ^ 47 + t * 2 ^ 42 + slot * 2 ^ 38 + b % 2 ^ 28) ∧ Raised s u 608) ∧
      (∀ p, 2 ≤ tKind s t → Tab.find? (prefixesOf s t) b = some p → bad = true → p.quar = false →
        ∃ u, exec (.paritySweepStep t b slot bad late) s = .next u ∧
          Tab.find? (prefixesOf u t) b = some { p with bad := true, quar := true } ∧
          CountsBy s u (Reg.TBL_T_STAT t) F.TBL_T_STAT_parity 1 ∧ Raised s u 608)) ∧
    (∀ b slot bad, slot < 4 ∨ (8 ≤ slot ∧ slot < 16) → flag s Reg.BKG_CTL F.BKG_CTL_psweep_en = false →
      exec (.paritySweepStep t b slot bad false) s = .next s)

/-! ## Locks and events -/

namespace Sys2Proof.Machine

/-- An occurrence of a source of another clock domain enters its crossing (R459, R460): a pulse, unless two are under way;
in level mode a bit, unless one is. -/
def Crossed (s u : State) (n : Nat) : Prop :=
  (fld s (Reg.EVT_CFG n) F.EVT_CFG_mode ≠ 0 → Tab.get 0 s.ev.xing n < 2 →
    Tab.get 0 u.ev.xing n = Tab.get 0 s.ev.xing n + 1) ∧
  (fld s (Reg.EVT_CFG n) F.EVT_CFG_mode = 0 → Tab.get 0 s.ev.bits n = 0 → Tab.get 0 u.ev.bits n = 1)

/-- The Service Newt's access to a CSR is let through: the map allows it and the CSR is up (R464, R511). -/
def svcMay (s : State) (off : Nat) (write : Bool) : Prop :=
  allowed s 3 (0xF000000000 + off) (!write) write = true ∧ csrUp off s = true

/-- Nothing waits to leave on an Obrex link. -/
def fabricIdle (s : State) : Prop := s.obx.tx = [] ∧ ∀ l, l < 8 → (olink s l).txq = [] ∧ (olink s l).notices = []

/-- What waits on lock `n` but for agent `a`. -/
def waitersBut (s : State) (n a : Nat) : List Waiter := s.gecko.regs.filter (fun r => !(r.lock == n && r.agent == a))

/-- Lock `n` has passed on (R289): reserved to the best of its waiters `l`, who is registered on it no more, or free. -/
def PassedOn (u : State) (n : Nat) (l : List Waiter) : Prop :=
  (lock u n).owner = none ∧
  (bestWaiter (l.filter (fun r => r.lock == n)) = none → (lock u n).rsv = none ∧ u.gecko.regs = l) ∧
  ∀ r, bestWaiter (l.filter (fun r => r.lock == n)) = some r → (lock u n).rsv = some (r.agent, r.prio) ∧
    u.gecko.regs = l.filter (fun x => !(x.lock == n && x.agent == r.agent))

end Sys2Proof.Machine

/-- R281–R294, R302: a lock command whose agent field is not the requester is counted and does nothing, and one of a
device that has left does nothing. CLAIM takes a lock that is free or reserved to the claimer, and registers a claimer
that waits; FREE and an expiring reservation pass the lock on; FREE by another is recorded; WITHDRAW and an expiring
registration remove the registration; a read of a notify FIFO takes its oldest record. R296–R303, R458–R460: what has
come through a source's crossing makes it PENDING; a due source in its turn is delivered by its route and goes to
INSERVICE, or IDLE with autoack, or is undeliverable; an ack ends its service; a doorbell is an occurrence; a transfer
of a crossing arrives, a bit with its value; and EVT_SVCQ gives up its oldest entry. -/
def Obligations.LocksAndEvents : Prop :=
  (∀ (s : State) (n req : Nat) (w : Word), n < 4096 → req < 2 ^ 24 → knownAgent (agentLoc req) = true → fabricIdle s →
    let a := bitsN w.toNat 23 0
    let prio := bitsN w.toNat 26 24
    let wait := w.toNat.testBit 27
    let op := bitsN w.toNat 29 28
    let l := lock s n
    (a ≠ req → ∀ c ∈ [(0, Instr.claim n w req), (1, .free n w req), (2, .withdraw n w req)], op = c.1 →
      ∃ u, exec c.2 s = .next u ∧ u.gecko = s.gecko ∧ CountsBy s u Reg.GKO_CNT0 F.GKO_CNT0_badid 1 ∧ Raised s u 737) ∧
    (a = req → s.gecko.left.contains (agentDev a) = true →
      ∀ c ∈ [(0, Instr.claim n w req), (1, .free n w req), (2, .withdraw n w req)], op = c.1 → exec c.2 s = .next s) ∧
    (a = req → s.gecko.left.contains (agentDev a) = false →
      (op = 0 → mirrorLoses s n = false →
        (l.owner = none → (l.rsv = none ∨ ∃ p, l.rsv = some (a, p)) → ∃ u, exec (.claim n w req) s = .next u ∧
          (lock u n).owner = some a ∧ (lock u n).prio = prio ∧ (lock u n).rsv = none ∧
          (lock u n).abandoned = l.abandoned ∧ u.gecko.regs = waitersBut s n a ∧
          (∀ k, k ≠ n → lock u k = lock s k) ∧ BytesKept s u) ∧
        (l.owner = some a → exec (.claim n w req) s = .next s) ∧
        ((∃ o, l.owner = some o ∧ o ≠ a) ∨ (l.owner = none ∧ ∃ o p, l.rsv = some (o, p) ∧ o ≠ a) →
          (wait = false → exec (.claim n w req) s = .next s) ∧
          (wait = true → s.gecko.regs.length < 8192 → (∀ r ∈ s.gecko.regs, r.agent ≠ a) →
            ∃ u, exec (.claim n w req) s = .next u ∧
              u.gecko.regs = s.gecko.regs ++ [{ lock := n, agent := a, prio := prio, till := regTill s }] ∧
              (lock u n).owner = l.owner ∧ (lock u n).rsv = l.rsv ∧
              fld u Reg.GKO_WAITERS F.GKO_WAITERS_used = s.gecko.regs.length + 1) ∧
          (wait = true → 8192 ≤ s.gecko.regs.length → (∀ r ∈ s.gecko.regs, r.agent ≠ a) →
            ∃ u, exec (.claim n w req) s = .next u ∧ u.gecko = s.gecko ∧
              CountsBy s u Reg.GKO_CNT2 F.GKO_CNT2_regfull 1 ∧ Raised s u 739))) ∧
      (op = 1 →
        (l.owner = some a → ∃ u, exec (.free n w req) s = .next u ∧ PassedOn u n s.gecko.regs ∧
          (lock u n).abandoned = false ∧ (∀ k, k ≠ n → lock u k = lock s k) ∧ BytesKept s u) ∧
        (l.owner ≠ some a → ∃ u, exec (.free n w req) s = .next u ∧ u.gecko = s.gecko ∧
          CountsBy s u Reg.GKO_CNT0 F.GKO_CNT0_foreign 1 ∧ Raised s u 736 ∧
          rd u Reg.GKO_LASTFOREIGN = BitVec.ofNat 48 (2 ^ 47 + n * 2 ^ 24 + a))) ∧
      (op = 2 →
        ((∀ p, l.rsv ≠ some (a, p)) → ∃ u, exec (.withdraw n w req) s = .next u ∧ u.gecko.regs = waitersBut s n a ∧
          (lock u n).owner = l.owner ∧ (lock u n).rsv = l.rsv) ∧
        (∀ p, l.rsv = some (a, p) → l.owner = none → ∃ u, exec (.withdraw n w req) s = .next u ∧
          PassedOn u n (waitersBut s n a)))) ∧
    (l.rsv = none ∨ s.now < l.till → exec (.reservationExpiry n) s = .next s) ∧
    (∀ p, l.rsv = some p → l.till ≤ s.now → l.owner = none → ∃ u, exec (.reservationExpiry n) s = .next u ∧
      PassedOn u n s.gecko.regs ∧ CountsBy s u Reg.GKO_CNT1 F.GKO_CNT1_lapsed 1) ∧
    ((∀ r ∈ s.gecko.regs, r.lock = n → r.agent = req → ∀ x, r.till = some x → s.now < x) → exec (.registrationExpiry n req) s = .next s) ∧
    ((∃ r ∈ s.gecko.regs, r.lock = n ∧ r.agent = req ∧ ∃ x, r.till = some x ∧ x ≤ s.now) → ∃ u, exec (.registrationExpiry n req) s = .next u ∧
      u.gecko.regs = waitersBut s n req ∧ (lock u n).owner = l.owner ∧ CountsBy s u Reg.GKO_CNT2 F.GKO_CNT2_timeout 1) ∧
    (∀ c, c < 7 → svcMay s (Reg.GKO_NOTIFY c) false →
      (Tab.get [] s.gecko.fifos c = [] →
        exec (.notifyRead c 0xC00) s = .next { s with outbox := s.outbox ++ [.reg 0xC00 0 0] }) ∧
      ∀ r q, Tab.get [] s.gecko.fifos c = r :: q →
        ∃ u, exec (.notifyRead c 0xC00) s = .next u ∧ Tab.get [] u.gecko.fifos c = q ∧
          u = { s with gecko := u.gecko, outbox := s.outbox ++ [.reg 0xC00 0 r] } ∧ u.gecko.regs = s.gecko.regs ∧
          u.gecko.locks = s.gecko.locks)) ∧
  (∀ (s : State) (n : Nat), n < 2048 →
    let a := Reg.EVT_CFG n
    let on := flag s a F.EVT_CFG_en = true
    let level := fld s a F.EVT_CFG_mode = 0
    let high := flag s a F.EVT_CFG_raw = true
    let tgt := fld s (Reg.EVT_DST n) F.EVT_DST_target
    let sub := fld s (Reg.EVT_DST n) F.EVT_DST_sub
    let settles (u : State) : Prop := flag s a F.EVT_CFG_autoack = false → evState u n = 2
    let ends (u : State) : Prop := flag s a F.EVT_CFG_autoack = true → evState u n = (if level ∧ high then 1 else 0)
    let pulsed (u : State) : Prop :=
      (on → evState s n = 0 → evState u n = 1 ∧ fld u a F.EVT_CFG_merged = 1) ∧
      (on → ¬level → evState s n = 1 → evState u n = 1 ∧ CountsBy s u a F.EVT_CFG_merged 1) ∧
      (on → ¬level → evState s n = 2 → evState u n = 3) ∧
      (on → ¬level → evState s n = 3 → evState u n = 3 ∧ flag u a F.EVT_CFG_ovr = true ∧ CountsBy s u a F.EVT_CFG_loss 1) ∧
      (¬on ∨ (level ∧ evState s n ≠ 0) → evState u n = evState s n)
    (Tab.get 0 s.ev.arrived n = 0 → Tab.get [] s.ev.levels n = [] → exec (.eventOccurrence n) s = .next s) ∧
    (∀ k, Tab.get 0 s.ev.arrived n = k + 1 → ∃ u, exec (.eventOccurrence n) s = .next u ∧
      Tab.get 0 u.ev.arrived n = k ∧ pulsed u ∧ u = { s with csr := u.csr, ev := u.ev } ∧ RegsKept s u [a]) ∧
    (∀ v r, Tab.get 0 s.ev.arrived n = 0 → Tab.get [] s.ev.levels n = v :: r → ∃ u, exec (.eventOccurrence n) s = .next u ∧
      Tab.get [] u.ev.levels n = r ∧ flag u a F.EVT_CFG_raw = v ∧ (v = true → pulsed u) ∧
      (v = false → evState u n = evState s n) ∧ u = { s with csr := u.csr, ev := u.ev } ∧ RegsKept s u [a]) ∧
    (evDue s n = true → evTurn s n = true →
      (fld s a F.EVT_CFG_route = 2 →
        (fnEnabled s tgt = true → sub < vecCount s tgt → ∃ u, exec (.eventDelivery n) s = .next u ∧ settles u ∧ ends u ∧
          WrapsBy s u Reg.EVT_STAT F.EVT_STAT_delivered 1 ∧
          ((vec s tgt sub).masked = false → u.outbox = s.outbox ++ [.msix tgt sub] ∧ u.host = s.host) ∧
          ((vec s tgt sub).masked = true → u.outbox = s.outbox ∧ (vec u tgt sub).pend = true)) ∧
        (fnEnabled s tgt = false ∨ vecCount s tgt ≤ sub → ∃ u, exec (.eventDelivery n) s = .next u ∧ settles u ∧ ends u ∧ u.outbox = s.outbox ∧
          CountsBy s u Reg.EVT_STAT F.EVT_STAT_undeliv 1)) ∧
      (fld s a F.EVT_CFG_route = 3 →
        (512 ≤ s.ev.svcq.length → exec (.eventDelivery n) s = .next s) ∧
        (s.ev.svcq.length < 512 → ∃ u, exec (.eventDelivery n) s = .next u ∧ settles u ∧ ends u ∧
          u.ev.svcq = s.ev.svcq ++ [n] ∧ u.ev.svcIrq = true ∧ WrapsBy s u Reg.EVT_STAT F.EVT_STAT_delivered 1)) ∧
      (fld s a F.EVT_CFG_route = 4 → routeCands s (tgt % 1024) = [] → ∃ u, exec (.eventDelivery n) s = .next u ∧
        settles u ∧ ends u ∧ u.obx = s.obx ∧ CountsBy s u Reg.EVT_STAT F.EVT_STAT_undeliv 1) ∧
      (fld s a F.EVT_CFG_route = 1 → let g := tgt % 256; let c := fld s (Reg.EVT_WG_CTL g) F.EVT_WG_CTL_cluster
        let awake (i : Nat) : Bool := (th s (c * 128 + i)).state != .killed && (th s (c * 128 + i)).state != .reset
        c < 24 → (clu s c).power = .run → flag s (Reg.EVT_WG_CTL g) F.EVT_WG_CTL_one = false →
        (∀ i ∈ wgThreads s g, awake i = true → inDoze (th s (c * 128 + i)) = false) →
        ∃ u, exec (.eventDelivery n) s = .next u ∧ settles u ∧ WrapsBy s u Reg.EVT_STAT F.EVT_STAT_delivered 1 ∧
          (∀ i ∈ wgThreads s g, awake i = true → (th u (c * 128 + i)).wake = true) ∧
          ∀ t, (∀ i ∈ wgThreads s g, t ≠ c * 128 + i) → th u t = th s t) ∧
      (fld s a F.EVT_CFG_route = 0 ∨ 5 ≤ fld s a F.EVT_CFG_route → exec (.eventDelivery n) s = .next s)) ∧
    (evDue s n = false ∨ evTurn s n = false → exec (.eventDelivery n) s = .next s) ∧
    (evState s n < 2 → exec (.eventAck n) s = .next s) ∧
    (2 ≤ evState s n → ∃ u, exec (.eventAck n) s = .next u ∧ u = { s with csr := u.csr, ev := u.ev } ∧ RegsKept s u [a] ∧
      evState u n = (if evState s n = 3 ∨ (level ∧ high) then 1 else 0)) ∧
    (∀ i, i < 128 → ∃ u, exec (.softwareDoorbell i) s = .next u ∧ Raised s u (1920 + i) ∧ u = { s with csr := u.csr, ev := u.ev }) ∧
    (∀ k, s.clk.dead = false → Tab.get 0 s.ev.xing n = k + 1 → ∃ u, exec (.handshakeDelivery n) s = .next u ∧
      Tab.get 0 u.ev.xing n = k ∧ Tab.get 0 u.ev.arrived n = Tab.get 0 s.ev.arrived n + 1 ∧ u = { s with ev := u.ev }) ∧
    (∀ k, s.clk.dead = false → Tab.get 0 s.ev.bits n = k + 1 → ∃ u, exec (.handshakeDelivery n) s = .next u ∧
      Tab.get 0 u.ev.bits n = (if k = 0 then 2 else 0) ∧
      Tab.get [] u.ev.levels n = Tab.get [] s.ev.levels n ++ [k == 0] ∧ u = { s with ev := u.ev }) ∧
    (s.clk.dead = true ∨ (Tab.get 0 s.ev.xing n = 0 ∧ Tab.get 0 s.ev.bits n = 0) → exec (.handshakeDelivery n) s = .next s) ∧
    (s.ev.svcq = [] → exec .svcqRead s = .next { s with outbox := s.outbox ++ [.reg 0xC00 0 0] }) ∧
    (∀ r, s.ev.svcq = n :: r → exec .svcqRead s = .next { s with
      ev := { s.ev with svcq := r, svcIrq := !r.isEmpty },
      outbox := s.outbox ++ [.reg 0xC00 0 (BitVec.ofNat 48 (2 ^ 47 + n))] }))
/-! ## Host and Ethernet ports -/

namespace Sys2Proof.Machine

/-- The enabled transmit queue of a function under its own number (R349). -/
def txqNamed (s : State) (fn idx : Nat) : Option Nat :=
  (txqWhere s (fun w => getF w F.HST_TXQ_CFG_en == 1 && getF w F.HST_TXQ_CFG_func == fn &&
    getF w F.HST_TXQ_CFG_idx == idx)).head?

/-- The writeback word of a transmit queue (R349), as the device writes it. -/
def writebackOf (s : State) (q head credit : Nat) : Output :=
  .hostWrite (txqFn s q) ((rd s (Reg.HST_TXQ_BASE q)).toNat + txqSize s q * 16) (leBytes 4 head ++ leBytes 4 credit)

/-- The address of the pool an entry gives a DPA (R356). -/
def poolAddr (e : Word) (dpa : Nat) : Nat := 0x100000000000 + getF e F.HST_POOLMAP_seg * 2 ^ 30 + dpa % 2 ^ 30 / 64 * 64

/-- A pool fault record (R357, R364). -/
def faultWord (kind wr_ ld dpa : Nat) : Word :=
  BitVec.ofNat 48 (2 ^ 47 + kind * 2 ^ 45 + wr_ * 2 ^ 44 + ld * 2 ^ 36 + bitsN dpa 41 6)

end Sys2Proof.Machine

/-- R343, R345–R347: a link that trains is up and its functions count as enabled again; one that goes down is half-reset
and its functions are reset. A function reset stops its queues, frees its locks and clears its vectors. A mailbox that
rings is queued for the Service Newt. R348–R351, R353: a transmit queue enabled is RUNNING with its credits written
back; a doorbell moves a tail within the ring and the credits, and is rejected beyond them; a fetch reads the next
descriptors, and completes by moving the head, or in ERROR when its descriptors break R348; a timeout stops the queue,
and what comes later is counted. -/
def Obligations.HostSide : Prop :=
  (∀ (s : State) (l fn : Nat), Canonical s → l < 16 → 0x1000 ≤ fn → fn < 0x1400 →
    let a := Reg.HST_LINK l
    let away (u : State) (f : Nat) : Prop :=
      f ∈ u.host.flr ∧ (∀ v, v < 2048 → vec u f v = Vec.reset) ∧ (∀ r ∈ u.gecko.regs, r.agent ≠ agentId s f) ∧
      (∀ n, n < 4096 → (lock s n).owner = some (agentId s f) → (lock u n).owner = none ∧ (lock u n).abandoned = true) ∧
      (∀ q, q < 4096 → fld s (Reg.HST_TXQ_CFG q) F.HST_TXQ_CFG_func = f → flag s (Reg.HST_TXQ_CFG q) F.HST_TXQ_CFG_en = true →
        txqState u q = 0 ∧ fld u (Reg.HST_TXQ_STAT q) F.HST_TXQ_STAT_cause = 3 ∧ (htx u q).fetch = none ∧
        ∀ g, (htx s q).fetch = some g → g.tag ∈ (htx u q).orphans) ∧
      (∀ q, q < 4096 → fld s (Reg.HST_RXQ_CFG q) F.HST_RXQ_CFG_func = f → flag s (Reg.HST_RXQ_CFG q) F.HST_RXQ_CFG_en = true →
        fld u (Reg.HST_RXQ_STAT q) F.HST_RXQ_STAT_state = 0 ∧ hrx u q = HRxq.reset)
    (∀ cxl flit speed width, cxl < 2 → flit < 2 → 1 ≤ speed → speed ≤ 6 → width ∈ [1, 2, 4, 8, 16] →
      (linkPresent s l = true → flag s a F.HST_LINK_up = false → flag s a F.HST_LINK_half_reset = false →
        s.host.perst.contains (l / 4) = true → trainingOk s l cxl flit speed width = true →
        ∃ u, exec (.hostLinkUp l cxl flit speed width) s = .next u ∧ flag u a F.HST_LINK_up = true ∧
          fld u a F.HST_LINK_cxl = cxl ∧ fld u a F.HST_LINK_flit = flit ∧ fld u a F.HST_LINK_speed = speed ∧
          fld u a F.HST_LINK_width = width ∧ Raised s u (1280 + l) ∧
          u.host = { s.host with
            flr := s.host.flr.filter (fun f => !(hostLinkOfFn s f == l)),
            mld := s.host.mld.filter (· != l) ++ (if flag s a F.HST_LINK_mld then [l] else []) } ∧ BytesKept s u) ∧
      (flag s a F.HST_LINK_up = true ∨ flag s a F.HST_LINK_half_reset = true ∨ linkPresent s l = false ∨
          s.host.perst.contains (l / 4) = false ∨ trainingOk s l cxl flit speed width = false →
        exec (.hostLinkUp l cxl flit speed width) s = .next s)) ∧
    (flag s a F.HST_LINK_up = false → exec (.hostLinkDown l) s = .next s) ∧
    (flag s a F.HST_LINK_up = true → ∃ u, exec (.hostLinkDown l) s = .next u ∧ flag u a F.HST_LINK_up = false ∧
      flag u a F.HST_LINK_half_reset = true ∧ CountsBy s u Reg.CRS_CNT F.CRS_CNT_half_resets 1 ∧
      pfOf s l ∈ u.host.flr ∧ u.mem = s.mem) ∧
    (fnEnabled s fn = false → exec (.functionLevelReset fn) s = .next s) ∧
    (fnEnabled s fn = true → ∃ u, exec (.functionLevelReset fn) s = .next u ∧ away u fn ∧ fnEnabled u fn = false) ∧
    (∀ v, fnEnabled s fn = false → exec (.mailboxRing fn v) s = .next s) ∧
    (∀ v, fnEnabled s fn = true → ∃ u, exec (.mailboxRing fn v) s = .next u ∧ Raised s u 1301 ∧
      u.host.mboxq = (if s.host.mboxq.length < 1024 then s.host.mboxq ++ [fn] else s.host.mboxq) ∧
      rdBytes u.host.mbox (fn * 256 + 248) 8 = leBytes 8 v ∧
      u = { s with csr := u.csr, ev := u.ev, host := { s.host with mboxq := u.host.mboxq, mbox := u.host.mbox } }) ∧
    (∀ op, op < 0x10000 →
      (flag s a F.HST_LINK_up = true → flag s a F.HST_LINK_cxl = true → s.host.mboxq.length < 1024 →
        ∃ u, exec (.cxlMailboxCommand l op) s = .next u ∧ Raised s u 1301 ∧
          u = { s with csr := u.csr, ev := u.ev, host := { s.host with mboxq := s.host.mboxq ++ [pfOf s l], media := u.host.media },
                       outbox := s.outbox ++ [.cxlCmd l op (if op ∈ cxlOps then 0 else 0x15)] } ∧
          u.host.media = if op = 0x0101 then [] else s.host.media) ∧
      (flag s a F.HST_LINK_up = false ∨ flag s a F.HST_LINK_cxl = false → exec (.cxlMailboxCommand l op) s = .next s)) ∧
    (svcMay s Reg.HST_MBOXQ false →
      (s.host.mboxq = [] → exec (.mboxqRead 0xC00) s = .next { s with outbox := s.outbox ++ [.reg 0xC00 0 0] }) ∧
      (∀ f r, s.host.mboxq = f :: r → exec (.mboxqRead 0xC00) s = .next { s with
        host := { s.host with mboxq := r }, outbox := s.outbox ++ [.reg 0xC00 0 (BitVec.ofNat 48 (2 ^ 47 + f))] }))) ∧
  (∀ (s : State) (q fn idx : Nat), Canonical s → q < 4096 → 0x1000 ≤ fn → fn < 0x1400 → idx < 256 →
    let cfg := Reg.HST_TXQ_CFG q
    let st := Reg.HST_TXQ_STAT q
    let x := htx s q
    (∀ v, getF v F.HST_TXQ_CFG_en = 1 → flag s cfg F.HST_TXQ_CFG_en = true → exec (.txqEnable q v) s = .next s) ∧
    (∀ v, getF v F.HST_TXQ_CFG_en = 1 → flag s cfg F.HST_TXQ_CFG_en = false →
      (queueFn (getF v F.HST_TXQ_CFG_func) = true → ∃ u more, exec (.txqEnable q v) s = .next u ∧
        rd u cfg = putF (v &&& 0x1FFFF8FF3FFF) F.HST_TXQ_CFG_en 1 ∧ txqState u q = 1 ∧ txqHead u q = 0 ∧
        htx u q = { x with tail := 0, credit := getF v F.HST_TXQ_CFG_credits, fetch := none } ∧
        u.outbox = s.outbox ++ writebackOf u q 0 (getF v F.HST_TXQ_CFG_credits) :: more ∧ BytesKept s u) ∧
      (queueFn (getF v F.HST_TXQ_CFG_func) = false → exec (.txqEnable q v) s = .next (wr s cfg (v &&& 0x1FFFF8FF3FFF)))) ∧
    (∀ tail, fnEnabled s fn = true → txqNamed s fn idx = some q → tail < 2 ^ 32 → txqState s q = 1 →
      ((tail + 2 ^ 32 - txqHead s q) % 2 ^ 32 ≤ txqSize s q → (x.credit + 2 ^ 32 - tail) % 2 ^ 32 < 2 ^ 31 →
        ∃ u, exec (.txDoorbell fn idx tail) s = .next u ∧ htx u q = { x with tail := tail } ∧ u.csr = s.csr ∧
          ∀ k, k ≠ q → htx u k = htx s k) ∧
      (txqSize s q < (tail + 2 ^ 32 - txqHead s q) % 2 ^ 32 ∨ 2 ^ 31 ≤ (x.credit + 2 ^ 32 - tail) % 2 ^ 32 →
        ∃ u, exec (.txDoorbell fn idx tail) s = .next u ∧ u.host = s.host ∧ CountsBy s u Reg.HST_CNT F.HST_CNT_dbrej 1 ∧
          Raised s u 1300)) ∧
    (∀ tail, fnEnabled s fn = false ∨ txqNamed s fn idx = none → exec (.txDoorbell fn idx tail) s = .next s) ∧
    (∀ tail, fnEnabled s fn = true → rxqOf s fn idx = some q → tail < 2 ^ 32 →
      ((tail + 2 ^ 32 - (hrx s q).head) % 2 ^ 32 ≤ rxqSize s q → ∃ u, exec (.rxDoorbell fn idx tail) s = .next u ∧
        hrx u q = { hrx s q with tail := tail } ∧ u.csr = s.csr) ∧
      (rxqSize s q < (tail + 2 ^ 32 - (hrx s q).head) % 2 ^ 32 → ∃ u, exec (.rxDoorbell fn idx tail) s = .next u ∧
        u.host = s.host ∧ CountsBy s u Reg.HST_CNT F.HST_CNT_dbrej 1 ∧ Raised s u 1300)) ∧
    (∀ k, txqState s q = 1 → x.fetch = none → 1 ≤ k → k ≤ (x.tail + 2 ^ 32 - txqHead s q) % 2 ^ 32 →
      (txqHeld s q = false → linkOutstanding s (hostLinkOfFn s (txqFn s q)) < 1024 →
        ∃ u, exec (.txFetch q k) s = .next u ∧ u.csr = s.csr ∧
          htx u q = { x with fetch := some { tag := x.nextTag, k := k, ts := domNow s, descs := none }, nextTag := x.nextTag + 1 } ∧
          (txqHead s q % txqSize s q + k ≤ txqSize s q → k ≤ 256 → u.outbox = s.outbox ++ [.hostReadReq (txqFn s q)
            ((rd s (Reg.HST_TXQ_BASE q)).toNat + txqHead s q % txqSize s q * 16) (16 * k)])) ∧
      (txqHeld s q = true → exec (.txFetch q k) s = .next s)) ∧
    (∀ g, x.fetch = some g → g.tag ∉ x.lost → g.tag ∉ x.orphans →
      (∀ ds data, let l := ds.map (fun d : Nat × Nat × Nat × Nat => TxDesc.mk d.1 d.2.1 d.2.2.1 d.2.2.2);
        (g.descs = none → l.length = g.k →
          (txDescsOk l = false → ∃ u, exec (.txFetchComplete q g.tag ds data) s = .next u ∧ txqState u q = 2 ∧
            fld u st F.HST_TXQ_STAT_cause = 2 ∧ htx u q = { x with fetch := none } ∧ Raised s u 1298 ∧ BytesKept s u) ∧
          (txDescsOk l = true → ∃ u, exec (.txFetchComplete q g.tag ds data) s = .next u ∧
            htx u q = { x with fetch := some { g with descs := some l } } ∧ u.csr = s.csr ∧
            (∀ d ∈ l, d.len ≤ 4096 → .hostReadReq (txqFn s q) d.addr d.len ∈ u.outbox))) ∧
        (∀ ls, g.descs = some ls → data.length = (ls.map (fun d => d.len)).sum →
          tooLong s ((unitPool s (unitHost q)).getD 0) data.length = false →
          let head := (txqHead s q + g.k) % 2 ^ 32
          let credit := if txqHeld s q then x.credit
            else (head + fld s cfg F.HST_TXQ_CFG_credits) % 2 ^ 32
          ∃ u f, exec (.txFetchComplete q g.tag ds data) s = .next u ∧ txqHead u q = head ∧
            htx u q = { x with credit := credit, fetch := none } ∧
            u.outbox = s.outbox ++ [writebackOf s q head credit] ∧ u.bpm.staged = s.bpm.staged ++ [f] ∧
            f.unit = unitHost q ∧ f.srcKind = 1 ∧ f.src = agentId s (txqFn s q) ∧
            f.sub = fld s cfg F.HST_TXQ_CFG_idx ∧ f.ts = g.ts ∧ f.bytes = data ∧ u.threads = s.threads)) ∧
      (∃ u, exec (.hostCompletionTimeout q g.tag) s = .next u ∧ txqState u q = 2 ∧ fld u st F.HST_TXQ_STAT_cause = 1 ∧
        htx u q = { x with fetch := none, lost := x.lost ++ [g.tag] } ∧ hostLinkOfFn s (txqFn s q) ∈ u.host.aer ∧
        Raised s u 1298)) ∧
    (∀ tag, x.fetch = none →
      (tag ∈ x.lost → ∀ ds data, ∃ u, exec (.txFetchComplete q tag ds data) s = .next u ∧
        htx u q = { x with lost := x.lost.filter (· != tag) } ∧ CountsBy s u Reg.HST_CNT F.HST_CNT_late 1 ∧ BytesKept s u) ∧
      (tag ∉ x.lost → tag ∈ x.orphans →
        (∀ ds data, ∃ u, exec (.txFetchComplete q tag ds data) s = .next u ∧
          htx u q = { x with orphans := x.orphans.filter (· != tag) } ∧ u.csr = s.csr) ∧
        ∃ u, exec (.hostCompletionTimeout q tag) s = .next u ∧ hostLinkOfFn s (txqFn s q) ∈ u.host.aer ∧ u.csr = s.csr ∧
          htx u q = { x with orphans := x.orphans.filter (· != tag), lost := x.lost ++ [tag] }) ∧
      (tag ∉ x.lost → tag ∉ x.orphans → exec (.hostCompletionTimeout q tag) s = .next s ∧
        ∀ ds data, exec (.txFetchComplete q tag ds data) s = .next s)))
/-- R355–R358, R364: a pool request of a logical device whose link is up goes through its decoders and the pool map. A
read answers the 64 bytes, a write stores the bytes enabled; a request the map refuses is answered and recorded as a
fault; a read of HST_PFAULT takes the oldest record. -/
def Obligations.PoolRequests : Prop :=
  ∀ (s : State) (ld hpa mask : Nat) (data : List Byte), ld < 16 → mask < 2 ^ 64 → data.length = 64 →
    let l := fld s (Reg.HST_LDCFG ld) F.HST_LDCFG_link
    let ready := flag s (Reg.HST_LDCFG ld) F.HST_LDCFG_valid = true ∧ flag s (Reg.HST_LINK l) F.HST_LINK_cxl = true ∧
      flag s (Reg.HST_LINK l) F.HST_LINK_up = true ∧ ldShown s ld = true
    let fault (u : State) (kind w : Nat) : Prop := Raised s u 1297 ∧ u.mem = s.mem ∧
      (s.host.pfault.length < 64 → u.host.pfault = s.host.pfault ++ [faultWord kind w ld (((hdmDpa s ld hpa).getD 0))]) ∧
      (64 ≤ s.host.pfault.length → u.host.pfault = s.host.pfault ∧ fld u Reg.HST_PFSTAT F.HST_PFSTAT_ovf = 1)
    let answers (u : State) (st : Nat) (d : List Byte) : Prop := u.outbox = s.outbox ++ [.cxl l st d] ∧
      u.svc.traffic = true ∧ u.threads = s.threads
    let read (P : State → Prop) : Prop := ∃ u, exec (.cxlMemRequest ld hpa false mask data 0) s = .next u ∧ P u
    let write (P : State → Prop) : Prop := ∃ u, exec (.cxlMemRequest ld hpa true mask data 0) s = .next u ∧ P u
    (¬ready → exec (.cxlMemRequest ld hpa false mask data 0) s = .next s ∧
      exec (.cxlMemRequest ld hpa true mask data 0) s = .next s) ∧
    (ready → hdmDpa s ld hpa = none → read (fun u => answers u 2 [] ∧ u.mem = s.mem) ∧
      write (fun u => answers u 2 [] ∧ u.mem = s.mem)) ∧
    (∀ dpa, ready → hdmDpa s ld hpa = some dpa →
      (poolEntry s ld dpa = none → read (fun u => answers u 1 (List.replicate 64 0) ∧ fault u 0 0) ∧
        write (fun u => answers u 0 [] ∧ fault u 0 1)) ∧
      (∀ e, poolEntry s ld dpa = some e →
        (getF e F.HST_POOLMAP_rd = 0 → read (fun u => answers u 1 (List.replicate 64 0) ∧ fault u 1 0)) ∧
        (getF e F.HST_POOLMAP_wr = 0 → write (fun u => answers u 0 [] ∧ fault u 2 1)) ∧
        (let a := poolAddr e dpa;
          (populated s a = false → (getF e F.HST_POOLMAP_rd = 1 → read (fun u => answers u 3 [] ∧ u.mem = s.mem)) ∧
            (getF e F.HST_POOLMAP_wr = 1 → write (fun u => answers u 3 [] ∧ u.mem = s.mem))) ∧
          (populated s a = true → unitBusy s a = false → retiredAt s a = false → retiredIn s a 64 = false → poisoned s a 64 = false →
          (getF e F.HST_POOLMAP_rd = 1 → read (fun u => answers u 0 (rdBytes s.mem a 64) ∧ u.mem = s.mem)) ∧
          (getF e F.HST_POOLMAP_wr = 1 → write (fun u => answers u 0 [] ∧
            (∀ i, i < 64 → rdByte u.mem (a + i) = if mask.testBit i then data.getD i 0 else rdByte s.mem (a + i)) ∧
            ∀ b, b < a ∨ a + 64 ≤ b → rdByte u.mem b = rdByte s.mem b)))))) ∧
    (svcMay s Reg.HST_PFAULT false →
      (s.host.pfault = [] → exec (.pfaultRead 0xC00) s = .next { s with outbox := s.outbox ++ [.reg 0xC00 0 0] }) ∧
      (∀ r q, s.host.pfault = r :: q → exec (.pfaultRead 0xC00) s = .next { s with
        host := { s.host with pfault := q }, outbox := s.outbox ++ [.reg 0xC00 0 r] }))

/-- R366, R371, R373, R374, R377, R378: a port assigned by the image trains when it is enabled, comes up, goes to
HALF_RESET when its link is lost or a remote fault holds, and is disposed of when it is disabled; a pause frame of the
kind it honours loads its timers, which expire; an asserted pause repeats; MAC_TXTS gives up its oldest record. -/
def Obligations.EthernetPorts : Prop :=
  ∀ (s : State) (p : Nat), Canonical s → p < 64 → portAssigned s p = true →
    let cfg := Reg.MAC_PCFG p
    let st := Reg.MAC_PSTAT p
    let cleared (u : State) (rx : Nat) : Prop := (∀ c, c < 8 → Tab.get 0 (ethP u p).pause c = 0) ∧
      fld u (Reg.MAC_RXPAUSE p) F.MAC_RXPAUSE_paused = 0 ∧ (∀ g ∈ u.bpm.staged, stagedOf p g = false) ∧
      CountsBy s u (Reg.MAC_CNT p 8) F.MAC_CNT_count ((s.bpm.staged.filter (stagedOf p)).length + rx)
    (∀ v, getF v F.MAC_PCFG_en = 1 → flag s cfg F.MAC_PCFG_en = false → ∃ u, exec (.portEnable p v) s = .next u ∧
      portState u p = 1 ∧ flag u cfg F.MAC_PCFG_en = true ∧
      fld u cfg F.MAC_PCFG_maxlen = Max.max 64 (getF v F.MAC_PCFG_maxlen) ∧
      fld u cfg F.MAC_PCFG_fc = (if getF v F.MAC_PCFG_fc = 3 then fld s cfg F.MAC_PCFG_fc else getF v F.MAC_PCFG_fc) ∧
      fld u cfg F.MAC_PCFG_defprio = getF v F.MAC_PCFG_defprio ∧ BytesKept s u) ∧
    (∀ v rx, getF v F.MAC_PCFG_en = 0 → rx ≤ 1 → flag s cfg F.MAC_PCFG_en = true →
      ∃ u, exec (.portDisable p rx none v) s = .next u ∧ portState u p = 0 ∧ flag u cfg F.MAC_PCFG_en = false ∧
        fld u st F.MAC_PSTAT_pcs_lock = 0 ∧ fld u st F.MAC_PSTAT_fec_align = 0 ∧
        cleared u (if portState s p = 2 then rx else 0) ∧ (portState s p = 2 → Crossed s u (1024 + p)) ∧ BytesKept s u) ∧
    (portState s p ≠ 1 ∨ isSealed s = false → exec (.portUp p) s = .next s) ∧
    (portState s p = 1 → isSealed s = true → ∃ u, exec (.portUp p) s = .next u ∧ portState u p = 2 ∧ fld u st F.MAC_PSTAT_pcs_lock = 1 ∧
      fld u st F.MAC_PSTAT_fec_align = 1 ∧ fld u st F.MAC_PSTAT_rfault = 0 ∧ Crossed s u (1024 + p) ∧ BytesKept s u) ∧
    (∀ rx, rx ≤ 1 → portState s p = 2 →
      (∃ u, exec (.portLinkLoss p rx none) s = .next u ∧ portState u p = 3 ∧ fld u st F.MAC_PSTAT_half_reset = 1 ∧
        fld u st F.MAC_PSTAT_pcs_lock = 0 ∧ cleared u rx ∧ CountsBy s u Reg.CRS_CNT F.CRS_CNT_half_resets 1 ∧
        Crossed s u (1024 + p)) ∧
      (∃ u, exec (.remoteFaultHeld p rx none) s = .next u ∧ portState u p = 3 ∧ fld u st F.MAC_PSTAT_half_reset = 1 ∧
        fld u st F.MAC_PSTAT_rfault = 1 ∧ cleared u rx ∧ CountsBy s u Reg.CRS_CNT F.CRS_CNT_half_resets 1)) ∧
    (∀ pfc mask quanta, portState s p = 2 →
      (portFc s p = (if pfc then 2 else 1) → ∃ u, exec (.pauseFrameReceive p pfc mask quanta) s = .next u ∧
        (∀ c, c < 8 → Tab.get 0 (ethP u p).pause c = (if pfc = false then quanta.getD 0 0 % 65536
          else if mask.testBit c then quanta.getD c 0 % 65536 else Tab.get 0 (ethP s p).pause c)) ∧
        CountsBy s u (Reg.MAC_CNT p 6) F.MAC_CNT_count 1 ∧ BytesKept s u) ∧
      (portFc s p ≠ (if pfc then 2 else 1) → ∃ u, exec (.pauseFrameReceive p pfc mask quanta) s = .next u ∧
        u = { s with csr := u.csr } ∧ CountsBy s u (Reg.MAC_CNT p 7) F.MAC_CNT_count 1)) ∧
    (∀ pfc mask quanta, portState s p ≠ 2 → exec (.pauseFrameReceive p pfc mask quanta) s = .next s) ∧
    (∀ c, c < 8 → ∃ u, exec (.pauseTimerExpiry p c) s = .next u ∧
      (∀ k, Tab.get 0 (ethP u p).pause k = if k = c then 0 else Tab.get 0 (ethP s p).pause k) ∧
      (fld u (Reg.MAC_RXPAUSE p) F.MAC_RXPAUSE_paused).testBit c = false ∧ u = { s with csr := u.csr, eth := u.eth }) ∧
    ((∀ k, k < 8 → s.spawn.asserted.contains (unitEth p k) = false) → exec (.pauseRepeat p) s = .next s) ∧
    (∀ k, k < 8 → s.spawn.asserted.contains (unitEth p k) = true → portState s p = 2 → portFc s p ≠ 0 →
      ∃ u mask, exec (.pauseRepeat p) s = .next u ∧ mask.testBit k = true ∧
        u.outbox = s.outbox ++ [.pause p mask (fld s (Reg.MAC_FCQ p) F.MAC_FCQ_quanta)] ∧
        u = { s with csr := u.csr, ev := u.ev, outbox := u.outbox }) ∧
    (svcMay s (Reg.MAC_TXTS p) false →
      ((ethP s p).txts = [] → exec (.txtsRead p 0xC00) s = .next { s with outbox := s.outbox ++ [.reg 0xC00 0 0] }) ∧
      (∀ r t q, (ethP s p).txts = (r, t) :: q → ∃ u, exec (.txtsRead p 0xC00) s = .next u ∧
        u.outbox = s.outbox ++ [.reg 0xC00 0 r] ∧ (ethP u p).txts = q ∧ rd u (Reg.MAC_TXTS_LO p) = BitVec.ofNat 48 t ∧
        rd u (Reg.MAC_TXTS_HI p) = BitVec.ofNat 48 (t / 2 ^ 48)))

/-! ## Obrex -/

namespace Sys2Proof.Machine

/-- No link may start a transaction now. -/
def noneOpen (s : State) : Prop := ∀ l, l < 8 → ∀ v n, linkOpen s l v n = false

/-- The oldest transaction of a type received on a link, whole, from a device that has not left; no unit it needs is in
RETRAINING. -/
def received (s : State) (l typ : Nat) (r : ObxRx) : Prop :=
  s.obx.rx.find? (fun r => r.link == l && rxType r == typ) = some r ∧ fromLeft s r = false ∧ rxWaits s r = false ∧
  (typ ≠ 1 → r.stomp = false)

/-- The RESP to a received request on virtual channel `v` (R395, R397). -/
def respTo (r : ObxRx) (v status : Nat) (data : List Byte) : ObxMsg :=
  { vc := v, typ := 7, size := 0, dst := agentDev (rxAgent r), agent := rxAgent r, tag := rxTag r, arg := status, data := data,
    op := none, wantTag := false, link := none, stomp := false, transit := none }

/-- A remote access of `n` bytes reaches address `a`, whose bytes are good, and is allowed (R397, R511, R512). -/
def reaches (s : State) (r : ObxRx) (a n : Nat) (rd_ wr_ : Bool) : Prop :=
  windowTarget s (bitsN (rxArg r) 36 0) = some a ∧ populated s a = true ∧ populated s (a + n - 1) = true ∧
  allowed s 6 a rd_ wr_ = true ∧ retiredIn s a n = false ∧ retiredAt s a = false ∧ poisoned s a n = false

end Sys2Proof.Machine

/-- R384–R391: a link trains when enabled, exchanges INIT records and follows them to LINK_UP and ACTIVE, accepts flits in
sequence, asks again for one that is bad or out of sequence, replays what is not acknowledged, and goes to HALF_RESET
after eight replays in a row or when it is lost. -/
def Obligations.ObrexLinks : Prop :=
  ∀ (s : State) (l : Nat), l < 8 → linkAssigned s l = true → fabricIdle s →
    let x := olink s l
    let st (u : State) : Nat := linkState u l
    let stat := Reg.OBX_LSTAT l
    let live := 2 ≤ st s ∧ st s ≤ 4
    let halved (u : State) (reason : Nat) : Prop := st u = 5 ∧ flag u stat F.OBX_LSTAT_half_reset = true ∧
      fld u stat F.OBX_LSTAT_reason = reason ∧ CountsBy s u Reg.CRS_CNT F.CRS_CNT_half_resets 1 ∧
      (olink u l).retry = [] ∧ (olink u l).txq = []
    (∀ v, getF v F.OBX_LCFG_en = 1 → ∃ u, exec (.obxLinkEnable l v) s = .next u ∧
      rd u (Reg.OBX_LCFG l) = v &&& 0x80000000FFFF ∧ st u = (if st s = 0 then 1 else st s) ∧ u.obx = s.obx) ∧
    (∀ v, getF v F.OBX_LCFG_en = 0 → ∃ u, exec (.obxLinkDisable l v) s = .next u ∧ st u = 0 ∧
      flag u (Reg.OBX_LCFG l) F.OBX_LCFG_en = false ∧
      (st s ≠ 0 → (olink u l).retry = [] ∧ ∀ r ∈ u.obx.rx, r.link ≠ l)) ∧
    (st s ≠ 1 ∨ isSealed s = false → exec (.obxTrainingComplete l) s = .next s) ∧
    (st s = 1 → isSealed s = true → ∃ u, exec (.obxTrainingComplete l) s = .next u ∧ st u = 2 ∧
      olink u l = { ObxLink.reset with credit := linkCredits s } ∧ BytesKept s u) ∧
    (st s = 2 ∨ st s = 3 → x.retry.length < 496 → ∃ u, exec (.initFlitSend l) s = .next u ∧
      u.outbox = s.outbox ++ [.obxInit l (fld s Reg.OBX_ID F.OBX_ID_devid) (fld s Reg.OBX_TAG F.OBX_TAG_tag) (obxJoined s) l
        (flag s stat F.OBX_LSTAT_half)] ∧
      olink u l = { x with
        txSeq := (x.txSeq + 1) % 4096, retry := x.retry ++ [{ idleFlit with seq := x.txSeq, ftype := 4 }],
        turn := (x.turn + 1) % 9, since := Min.min 3 (x.since + 1) } ∧
      WrapsBy s u (Reg.OBX_LCNT l 0) F.OBX_LCNT_count 1) ∧
    (st s ≠ 2 → st s ≠ 3 → exec (.initFlitSend l) s = .next s) ∧
    (∀ ack devid tag joined num half, x.expect < 4096 → ack < 4096 → devid < 1024 → tag < 2 ^ 32 → num < 8 → live →
      let r := initReason s l devid tag joined half
      let both := obxJoined s && joined && tag == fld s Reg.OBX_TAG F.OBX_TAG_tag
      ∃ u, exec (.initReceive l x.expect ack devid tag joined num half) s = .next u ∧
        fld u stat F.OBX_LSTAT_peer = devid ∧ (olink u l).expect = (x.expect + 1) % 4096 ∧
        (st s = 2 → fld u stat F.OBX_LSTAT_reason = r ∧ st u = (if r ≠ 0 then 2 else if both then 4 else 3) ∧
          (r = 2 → Crossed s u 1416) ∧ (r = 3 → Crossed s u 1417)) ∧
        (st s = 3 → st u = if both then 4 else 3) ∧ (st s = 4 → st u = if obxJoined s && joined then 4 else 3)) ∧
    (∀ b, live → flitGood b = false → ∃ u, exec (.flitReceive l b) s = .next u ∧
      WrapsBy s u (Reg.OBX_LCNT l 1) F.OBX_LCNT_count 1 ∧ CountsBy s u (Reg.OBX_LCNT l 2) F.OBX_LCNT_count 1 ∧
      (olink u l).nak = true ∧ (olink u l).expect = x.expect ∧ u.obx.rx = s.obx.rx) ∧
    (∀ b, live → flitGood b = true →
      let w := fNat b 2 2
      let r : ObxRx := { link := l, vc := fNat b 4 1 / 16, flits := 1, stomp := w.testBit 12,
                         at_ := domNow s, bytes := (b.drop 32).take (fNat b 5 1) }
      (fNat b 1 1 / 16 = 0 → s.obx.noticeIn = [] → ∃ u, exec (.flitReceive l b) s = .next u ∧
        (olink u l).retry = x.retry.drop (ackCount x (w % 4096)) ∧ (olink u l).expect = x.expect ∧ u.obx.rx = s.obx.rx) ∧
      (fNat b 1 1 / 16 = 1 → fNat b 0 2 % 4096 = x.expect → w.testBit 14 = true → w.testBit 13 = true →
        nKind (fNat b 16 8) = 0 → rxType r = 8 ∨ rxDst r = devId s → ∃ u, exec (.flitReceive l b) s = .next u ∧
        u.obx.rx = s.obx.rx ++ [r] ∧ (olink u l).expect = (x.expect + 1) % 4096 ∧ (olink u l).nak = false ∧
        WrapsBy s u (Reg.OBX_LCNT l 1) F.OBX_LCNT_count 1) ∧
      (fNat b 1 1 / 16 = 1 → fNat b 0 2 % 4096 ≠ x.expect → ∃ u, exec (.flitReceive l b) s = .next u ∧
        (olink u l).nak = true ∧ (olink u l).expect = x.expect ∧ u.obx.rx = s.obx.rx)) ∧
    (∀ b, ¬live → exec (.flitReceive l b) s = .next s) ∧
    (live → x.nak = true → x.expect < 4096 → ∃ u b, exec (.nakRepeat l) s = .next u ∧ u.outbox = s.outbox ++ [.flit l b] ∧
      fNat b 1 1 / 16 = 3 ∧ fNat b 0 2 % 4096 = x.expect ∧ CountsBy s u (Reg.OBX_LCNT l 3) F.OBX_LCNT_count 1) ∧
    (¬live ∨ x.nak = false → exec (.nakRepeat l) s = .next s) ∧
    (∀ f r, x.retry = f :: r → live → (x.replays < 7 → ∃ u, exec (.replayTimeout l) s = .next u ∧
        (olink u l).replays = x.replays + 1 ∧ (olink u l).retry = x.retry ∧
        u.outbox.length = s.outbox.length + x.retry.length ∧ CountsBy s u (Reg.OBX_LCNT l 4) F.OBX_LCNT_count 1) ∧
      (7 ≤ x.replays → ∃ u, exec (.replayTimeout l) s = .next u ∧ halved u 5)) ∧
    (¬live ∨ x.retry = [] → exec (.replayTimeout l) s = .next s) ∧
    (live → ∃ u, exec (.obxLinkLoss l) s = .next u ∧ halved u 6) ∧ (¬live → exec (.obxLinkLoss l) s = .next s)

/-- R395–R399, R402, R411, R413: the oldest received transaction of each type is taken, its buffer freed, and acted on.
An RD answers the bytes of the window, a WR stores them, an ATOM changes six bytes and answers what they were, a LOCK
answers the lock word, an INTR rings, a RESP ends its request, a MEMBER shows the peer's bits, and a PKT comes in as a
frame; an access outside the window or not allowed answers ERROR. Answers wait while no link is open. R19, R396, R402,
R406, R411: the oldest departure toward a device leaves as a PKT on the link its route picks and takes its credits; one
to a device that has left is a bad destination; a DROP mute drops and counts it, and a HOLD mute or no open link keeps
it. -/
def Obligations.FabricTransactions : Prop :=
  (∀ (s : State) (l v : Nat) (r : ObxRx), l < 8 → linkAssigned s l = true → r.link = l → fabricIdle s → noneOpen s →
    vcOfClass s 2 = some v → dstEn s = false →
    let taken (u : State) : Prop := u.obx.rx = s.obx.rx.erase r ∧
      Tab.get 0 (olink u l).freed r.vc = (Tab.get 0 (olink s l).freed r.vc + r.flits) % 4096
    let n := rxSize r
    let d := rxData r
    let word (k : Nat) : Word := BitVec.ofNat 48 (leNat ((d.drop k).take 6))
    let tells (u : State) (status : Nat) (data : List Byte) : Prop := taken u ∧ u.obx.tx = [respTo r v status data]
    let ctl (u : State) (data : List Byte) : Prop := taken u ∧ u.obx.tx = [respTo r 8 0 data]
    (received s l 2 r →
      (n = 0 ∨ 64 < n ∨ windowTarget s (bitsN (rxArg r) 36 0) = none →
        ∃ u, exec (.rd l 0) s = .next u ∧ tells u 3 [] ∧ u.mem = s.mem) ∧
      (∀ a, 1 ≤ n → n ≤ 64 → reaches s r a n true false →
        ∃ u, exec (.rd l 0) s = .next u ∧ tells u 0 (rdBytes s.mem a n) ∧ u.mem = s.mem) ∧
      (∀ a, 1 ≤ n → n ≤ 64 → windowTarget s (bitsN (rxArg r) 36 0) = some a → populated s a = true →
        populated s (a + n - 1) = true → allowed s 6 a true false = false → ∃ u, exec (.rd l 0) s = .next u ∧ tells u 3 [] ∧
        CountsBy s u Reg.PRT_CNT F.PRT_CNT_denied 1 ∧ Crossed s u 1793 ∧ u.mem = s.mem)) ∧
    (received s l 3 r →
      (n = 0 ∨ 64 < n ∨ windowTarget s (bitsN (rxArg r) 36 0) = none →
        ∃ u, exec (.wr l) s = .next u ∧ tells u 3 [] ∧ u.mem = s.mem) ∧
      (∀ a, 1 ≤ n → n ≤ 64 → reaches s r a n false true →
        ∃ u, exec (.wr l) s = .next u ∧ tells u 0 [] ∧ u.mem = wrBytes s.mem a (d.take n))) ∧
    (received s l 4 r →
      (n = 0 ∨ 3 < n → ∃ u, exec (.atom l 0) s = .next u ∧ tells u 3 [] ∧ u.mem = s.mem) ∧
      (∀ a, 1 ≤ n → n ≤ 3 → reaches s r a 6 true true →
        let old := BitVec.ofNat 48 (memNat s a 6)
        let new := if n = 1 then old + word 0 else if n = 2 then word 0 else if old = word 6 then word 0 else old
        ∃ u, exec (.atom l 0) s = .next u ∧ tells u 0 (leBytes 6 old.toNat) ∧
          u.mem = wrBytes s.mem a (leBytes 6 new.toNat))) ∧
    (received s l 5 r → agentDev (rxAgent r) ≠ devId s →
      let k := bitsN (rxArg r) 11 0
      rxDenied s (Reg.GKO_LOCK k) = false → bitsN (word 0).toNat 23 0 = rxAgent r → bitsN (word 0).toNat 29 28 = 0 → mirrorLoses s k = false →
      (lock s k).owner = none → (lock s k).rsv = none →
      ∃ u, exec (.lock l) s = .next u ∧ (lock u k).owner = some (rxAgent r) ∧ ctl u (leBytes 6 (lockWord u k (rxAgent r)).toNat)) ∧
    (received s l 5 r → rxDenied s (Reg.GKO_LOCK (bitsN (rxArg r) 11 0)) = true → ∃ u, exec (.lock l) s = .next u ∧
      taken u ∧ u.obx.tx = [respTo r 8 3 []] ∧ u.gecko = s.gecko ∧ CountsBy s u Reg.PRT_CNT F.PRT_CNT_denied 1) ∧
    (received s l 6 r →
      (rxArg r = 0 → rxDenied s Reg.EVT_RING = false → leNat (d.take 1) < 128 → ∃ u, exec (.intr l) s = .next u ∧ ctl u [] ∧
        Raised s u (1920 + leNat (d.take 1))) ∧
      (rxArg r = 0 → rxDenied s Reg.EVT_RING = true → ∃ u, exec (.intr l) s = .next u ∧ taken u ∧
        u.obx.tx = [respTo r 8 3 []] ∧ CountsBy s u Reg.PRT_CNT F.PRT_CNT_denied 1) ∧
      (rxArg r = 1 → (Tab.get [] s.gecko.fifos 6).length < 256 → ∃ u, exec (.intr l) s = .next u ∧ ctl u [] ∧
        Tab.get [] u.gecko.fifos 6 = Tab.get [] s.gecko.fifos 6 ++ [word 0] ∧ Raised s u 747)) ∧
    (received s l 7 r → let k := rxTag r
      (Tab.find? s.obx.reqs k = none → ∃ u, exec (.resp l) s = .next u ∧ taken u ∧
        CountsBy s u Reg.OBX_CNT0 F.OBX_CNT0_late 1 ∧ u.ops = s.ops) ∧
      (∀ q id o i, Tab.find? s.obx.reqs k = some q → q.late = false → q.op = some id → opOf s id = some o → o.thread < 3072 →
        o.dead = false → o.late = false → o.tok = some i → o.clobber = [] → (th s o.thread).wait = .none →
        let st := bitsN (rxArg r) 7 0
        ∃ u, exec (.resp l) s = .next u ∧ taken u ∧ Tab.find? u.obx.reqs k = none ∧ opOf u id = none ∧
          Tab.get Tok.idle (th u o.thread).tok i = .done st ∧ ∀ g, regVal u o.thread g =
            if g = o.dest ∧ g ≠ 0 ∧ st ≤ 1 then remoteValue o d else regVal s o.thread g)) ∧
    (received s l 8 r → ∃ u, exec (.member l) s = .next u ∧ taken u ∧
      ∀ k, k < 22 → rd u (Reg.OBX_PEERMEM l k) = BitVec.ofNat 48 (leNat (d.take 128) / 2 ^ (48 * k))) ∧
    (received s l 1 r →
      (r.stomp = true → ∃ u, exec (.pkt l) s = .next u ∧ taken u ∧ CountsBy s u Reg.OBX_CNT1 F.OBX_CNT1_stomped 1 ∧
        u.spawn = s.spawn ∧ u.mem = s.mem) ∧
      (r.stomp = false → let bytes := d.take (bitsN (rxArg r) 31 0)
        let pool := (unitPool s (unitObx l r.vc)).getD 0
        (tooLong s pool bytes.length = true → ∃ u, exec (.pkt l) s = .next u ∧ taken u ∧ u.bpm = s.bpm ∧ u.mem = s.mem) ∧
        (tooLong s pool bytes.length = false → ∃ u g, exec (.pkt l) s = .next u ∧ taken u ∧
          u.bpm = { s.bpm with staged := s.bpm.staged ++ [g] } ∧ g.srcKind = 2 ∧ g.bytes = bytes ∧ g.pool = pool ∧
          g.src = agentDev (rxAgent r) + l * 2 ^ 12 + r.vc * 2 ^ 16 ∧ g.unit = unitObx l r.vc ∧ g.ts = r.at_ ∧ u.mem = s.mem))) ∧
    (∀ c ∈ [(1, Instr.pkt l), (2, .rd l 0), (3, .wr l), (4, .atom l 0), (5, .lock l), (6, .intr l), (7, .resp l),
        (8, .member l)],
      (s.obx.rx.find? (fun r => r.link == l && rxType r == c.1) = none → exec c.2 s = .next s) ∧
      (c.1 ≠ 1 → s.obx.rx.find? (fun r => r.link == l && rxType r == c.1) = some r → fromLeft s r = false →
        rxWaits s r = false → r.stomp = true → ∃ u, exec c.2 s = .next u ∧ taken u ∧ u.obx.tx = [] ∧ BytesKept s u) ∧
      (s.obx.rx.find? (fun r => r.link == l && rxType r == c.1) = some r → fromLeft s r = true → rxWaits s r = false →
        ∃ u, exec c.2 s = .next u ∧ taken u ∧ u.obx.tx = [] ∧ CountsBy s u Reg.OBX_CNT1 F.OBX_CNT1_nonmember 1 ∧
          BytesKept s u)) ∧
    (∀ tag q, Tab.find? s.obx.reqs tag = some q → q.op = none → q.late = false →
      ∃ u, exec (.obxRequestTimeout tag) s = .next u ∧ Tab.find? u.obx.reqs tag = some { q with late := true } ∧
        u = { s with obx := u.obx })) ∧
  (∀ (s : State) (vc dev : Nat) (d : Depart) (rest : List Depart), vc < 8 → dev < 1024 → fabricIdle s →
    let dst := 3 * 2 ^ 44 + vc * 2 ^ 16 + dev
    egressQ s dst = d :: rest →
    (s.gecko.left.contains dev = true ∨ routeCands s dev = [] → ∃ u, exec (.fabricPktSend vc dev 0) s = .next u ∧ egressQ u dst = rest ∧
      CountsBy s u Reg.BRG_CNT_BAD F.BRG_CNT_BAD_count 1 ∧ u.obx = s.obx) ∧
    (s.gecko.left.contains dev = false → routeCands s dev ≠ [] → muteDrops s vc dev = true → ∃ u, exec (.fabricPktSend vc dev 0) s = .next u ∧
      egressQ u dst = rest ∧ CountsBy s u Reg.OBX_CNT0 F.OBX_CNT0_mutedrop 1 ∧ u.obx = s.obx) ∧
    (s.gecko.left.contains dev = false → routeCands s dev ≠ [] → muteDrops s vc dev = false → muted s vc dev = true ∨ noneOpen s →
      exec (.fabricPktSend vc dev 0) s = .next s) ∧
    (∀ l b n, s.gecko.left.contains dev = false → muted s vc dev = false →
      pickLink s (pktMsg s vc dev (List.replicate d.len 0) false) = some l → sealedDeparture s d b n → goodDeparture s d b n →
      ∃ u, exec (.fabricPktSend vc dev 0) s = .next u ∧ egressQ u dst = rest ∧ u.obx.tx = [] ∧
        Tab.get 0 (olink u l).sent vc = (Tab.get 0 (olink s l).sent vc + (d.len + 16 + 223) / 224) % 4096 ∧
        u.threads = s.threads ∧ u.mem = s.mem))
/-! ## Notices, membership, domain time -/

namespace Sys2Proof.Machine

/-- The notice a write of OBX_NOTICE_CMD originates: the device's hops, origin and next id (R404). -/
def noticeOf (s : State) (w : Word) : Nat :=
  putN (putN (w.toNat * 65536 + s.obx.nextId) 59 56 (Max.max 1 (fld s Reg.OBX_CTL F.OBX_CTL_max_hops))) 55 46
    (fld s Reg.OBX_ID F.OBX_ID_devid)

/-- What `n` does at the device (R405, R407, R408, R411): a Mute is in force from the 16th NCLK on and takes the lowest
free entry, or is applied as DOMAIN; an UNMUTE ends its Mute, or is remembered; a LEAVE removes a device and a JOIN adds
one. -/
def NoticeActs (s u : State) (n : Nat) : Prop :=
  (nKind n = 1 → Tab.get 0 u.obx.muteFrom n = s.now + 16) ∧
  (nKind n = 1 → ∀ k, muteFree s = some k → Tab.find? u.obx.mutes k = some n ∧
    rd u (Reg.OBX_MUTE k) = BitVec.ofNat 48 (bitsN n 55 8) ∧ Crossed s u 1420) ∧
  (nKind n = 1 → muteFree s = none → u.obx.overflow = s.obx.overflow ++ [n] ∧ u.obx.mutes = s.obx.mutes ∧
    flag u Reg.OBX_MUTESTAT F.OBX_MUTESTAT_overflow = true ∧ Crossed s u 1421) ∧
  (nKind n = 2 → s.obx.overflow = [] →
    let e := List.find? (fun e => nOrigin e.2 == nTarget n && nId e.2 == bitsN n 35 20) s.obx.mutes
    (∀ k m, e = some (k, m) → k < 64 → u.obx.mutes = Tab.del k s.obx.mutes ∧ rd u (Reg.OBX_MUTE k) = 0) ∧
    (e = none → u.obx.mutes = s.obx.mutes ∧ u.obx.recent.contains (nTarget n, bitsN n 35 20) = true)) ∧
  (nKind n = 3 → isMember u (nTarget n) = false ∧ u.gecko.left.contains (nTarget n) = true ∧ Crossed s u 1418 ∧
    (∀ k, k < 4096 → ∀ a, (lock s k).owner = some a → agentDev a = nTarget n → (lock u k).owner = none) ∧
    (∀ m ∈ u.obx.mutes, nOrigin m.2 ≠ nTarget n)) ∧
  (nKind n = 4 → isMember u (nTarget n) = true ∧ u.gecko.left.contains (nTarget n) = false ∧ Crossed s u 1419)

end Sys2Proof.Machine

/-- R403–R412: an accepted notice is discarded where its pair is recent; else the pair is recorded, the notice acts, and
it is sent on with one hop less. A write of OBX_NOTICE_CMD originates a notice, which acts here too. A Mute ends with its
life. Joining and leaving the domain set the device's own state and originate the notice. -/
def Obligations.NoticesAndMembership : Prop :=
  ∀ (s : State) (l : Nat), l < 8 → linkAssigned s l = true → fabricIdle s →
    let rows := [(1, Instr.mute l), (2, .unmute l), (3, .leave l), (4, .join l)]
    (∀ c ∈ rows, s.obx.noticeIn.find? (fun e => e.1 == l && nKind e.2 == c.1) = none → exec c.2 s = .next s) ∧
    (∀ c ∈ rows, ∀ n, s.obx.noticeIn.find? (fun e => e.1 == l && nKind e.2 == c.1) = some (l, n) →
      (s.obx.recent.contains (nOrigin n, nId n) = true → exec c.2 s = .next { s with
        obx := { s.obx with noticeIn := s.obx.noticeIn.erase (l, n) } }) ∧
      (s.obx.recent.contains (nOrigin n, nId n) = false → dstRole s ≠ 1 → ∃ u, exec c.2 s = .next u ∧
        u.obx.noticeIn = s.obx.noticeIn.erase (l, n) ∧ u.obx.recent.contains (nOrigin n, nId n) = true ∧
        NoticeActs s u n ∧
        (∀ k, c.1 ≤ 2 → k < 8 → k ≠ l → linkState s k = 3 ∨ linkState s k = 4 → (olink s k).retry.length < 512 →
          1 < nHops n → (olink u k).txSeq = ((olink s k).txSeq + 1) % 4096 ∧
          CountsBy s u (Reg.OBX_LCNT k 5) F.OBX_LCNT_count 1))) ∧
    (∀ w, s.obx.nextId < 65536 → ∀ c ∈ [(1, Instr.originateMute w), (2, .originateUnmute w), (3, .originateLeave w),
        (4, .originateJoin w)], bitsN w.toNat 47 44 = c.1 → ∃ u, exec c.2 s = .next u ∧
      u.obx.nextId = (s.obx.nextId + 1) % 65536 ∧ fld u Reg.OBX_NOTICE_LAST F.OBX_NOTICE_LAST_id = s.obx.nextId ∧
      u.obx.recent.contains (fld s Reg.OBX_ID F.OBX_ID_devid, s.obx.nextId) = true ∧ NoticeActs s u (noticeOf s w) ∧
      ∀ k, c.1 ≤ 2 → k < 8 → linkState s k = 3 ∨ linkState s k = 4 → (olink s k).retry.length < 512 →
        (olink u k).txSeq = ((olink s k).txSeq + 1) % 4096 ∧ CountsBy s u (Reg.OBX_LCNT k 5) F.OBX_LCNT_count 1) ∧
    (∀ k, k < 64 → (Tab.find? s.obx.mutes k = none → exec (.muteExpiry k) s = .next s) ∧
      (∀ n, Tab.find? s.obx.mutes k = some n → (nLife n = 0 → exec (.muteExpiry k) s = .next s) ∧
        (nLife n ≠ 0 → s.obx.overflow = [] → ∃ u, exec (.muteExpiry k) s = .next u ∧
          u.obx = { s.obx with mutes := Tab.del k s.obx.mutes } ∧ rd u (Reg.OBX_MUTE k) = 0 ∧ BytesKept s u))) ∧
    (∀ o i, ∃ u, exec (.recentPairExpiry o i) s = .next u ∧ u.obx.recent.contains (o, i) = false ∧
      (∀ e ∈ s.obx.recent, e ≠ (o, i) → e ∈ u.obx.recent) ∧ u = { s with obx := { s.obx with recent := u.obx.recent } }) ∧
    (∀ v, getF v F.OBX_ID_joined = 1 → let own := getF v F.OBX_ID_devid
      (obxJoined s = true → exec (.joinDomain v) s = .next s) ∧
      (obxJoined s = false → ∃ u, exec (.joinDomain v) s = .next u ∧ obxJoined u = true ∧
        fld u Reg.OBX_ID F.OBX_ID_devid = own ∧ isMember u own = true ∧
        ((∀ k, k < 8 → linkState s k ≠ 4) → fld u Reg.OBX_ID F.OBX_ID_isolated = 0) ∧
        u.obx.everJoined = true ∧ devId u = own ∧
        ∀ k, k < 8 → linkState s k = 3 → (olink s k).peerJoined = true →
          (olink s k).peerTag = fld s Reg.OBX_TAG F.OBX_TAG_tag → linkState u k = 4)) ∧
    (∀ v, getF v F.OBX_ID_joined = 0 →
      (obxJoined s = false → ∃ u, exec (.leaveDomain v) s = .next u ∧
        fld u Reg.OBX_ID F.OBX_ID_devid = getF v F.OBX_ID_devid ∧ u = { s with csr := u.csr }) ∧
      (obxJoined s = true → ∃ u, exec (.leaveDomain v) s = .next u ∧ obxJoined u = false ∧
        isMember u (fld s Reg.OBX_ID F.OBX_ID_devid) = false ∧
        fld u Reg.OBX_ID F.OBX_ID_devid = fld s Reg.OBX_ID F.OBX_ID_devid ∧
        ∀ k, k < 8 → linkState s k = 4 → linkState u k = 3))

/-- R414, R415: a link that is up sends time stamps under the next identifier; the parent's echo corrects domain time, by
a step where one is allowed, else by a slew; the master's time is as it is set, and no other's. -/
def Obligations.DomainTimeKept : Prop :=
  ∀ (s : State) (l : Nat) (v : Word), l < 8 → linkAssigned s l = true → epcRun s = false →
    let x := olink s l
    (linkState s l = 3 ∨ linkState s l = 4 → ∃ u b, exec (.timestampSend l) s = .next u ∧
      u.outbox = s.outbox ++ [.flit l b] ∧ (olink u l).tsid = (x.tsid + 1) % 16 ∧
      Tab.get 0 (olink u l).stamps ((x.tsid + 1) % 16) = domNow s ∧ (fNat b 2 2).testBit 15 = true ∧
      fNat b 8 8 = domNow s) ∧
    (linkState s l ≠ 3 → linkState s l ≠ 4 → exec (.timestampSend l) s = .next s) ∧
    (x.tsIn = none → exec (.timestampReceive l) s = .next s) ∧
    (∀ t, x.tsIn = some t → t.echo = none ∨ timeParent s ≠ some l → ∃ u, exec (.timestampReceive l) s = .next u ∧
      olink u l = { x with tsIn := none } ∧ u.csr = s.csr ∧ domNow u = domNow s) ∧
    (∀ t id res, x.tsIn = some t → t.echo = some (id, res) → timeParent s = some l →
      let t1 : Nat := Tab.get 0 x.stamps id
      let away : Int := (t.t4 : Int) - t1 - res - sextN 16 (fld s (Reg.OBX_LCFG l) F.OBX_LCFG_asym)
      let off : Int := (t.t3 : Int) + away / 2 - t.t4
      ∃ u, exec (.timestampReceive l) s = .next u ∧ olink u l = { x with tsIn := none } ∧
        fld u Reg.OBX_TIME_STAT F.OBX_TIME_STAT_off = ((Max.max (-32768) (Min.min 32767 off)) % 65536).toNat ∧
        (1000 < off.natAbs → flag s Reg.OBX_TIME_CTL F.OBX_TIME_CTL_step_en = true →
          domNow u = (((domNow s : Int) + off).toNat % 2 ^ 64) ∧ Crossed s u 1423) ∧
        (off.natAbs ≤ 1000 ∨ flag s Reg.OBX_TIME_CTL F.OBX_TIME_CTL_step_en = false →
          domNow u = domNow s ∧ u.obx.slew = off) ∧
        (20 ≤ off.natAbs → fld u Reg.OBX_TIME_STAT F.OBX_TIME_STAT_locked = 0) ∧
        (off.natAbs < 20 → 15 ≤ s.obx.good → fld u Reg.OBX_TIME_STAT F.OBX_TIME_STAT_locked = 1)) ∧
    (flag s Reg.OBX_TIME_CTL F.OBX_TIME_CTL_master = true → ∃ u, exec (.timeSet v) s = .next u ∧ domNow u = v.toNat ∧
      u = { s with clkBase := v.toNat, clkAt := s.now, obx := { s.obx with slew := 0 } }) ∧
    (flag s Reg.OBX_TIME_CTL F.OBX_TIME_CTL_master = false → exec (.timeSet v) s = .next s)

/-! ## Strum, live images, pairs -/

namespace Sys2Proof.Machine

/-- What register `a` reads once `v` is in effect: its SW bits are of `v`, the others stay (R422). -/
def inEffect (s : State) (a v : Nat) : Word :=
  BitVec.ofNat 48 (Nat.lor (Nat.land (rd s a).toNat (2 ^ 48 - 1 - swMask a)) (Nat.land v (swMask a)))

/-- A set defers at boundary `k` for a reason (R429): it is counted, shown and raised. -/
def deferred (s u : State) (k reason : Nat) : Prop :=
  u.epc.verdict = some reason ∧ CountsBy s u Reg.EPC_STAGE F.EPC_STAGE_defers 1 ∧
  CountsBy s u Reg.EPC_CNT1 F.EPC_CNT1_deferred 1 ∧ Raised s u 1538 ∧ u.shadow = s.shadow ∧
  rd u Reg.EPC_LAST = BitVec.ofNat 48 (reason * 2 ^ 45 + k % 2 ^ 40) ∧ epcPending u = true

/-- From a boundary's cutoff to the boundary a write is held (R428). -/
def holdsWrite (s : State) (c : Instr) (a : Nat) (v : Word) : Prop :=
  epcHolding s = true → exec c s = .next { s with epc := { s.epc with held := s.epc.held ++ [(a, v)] } }

/-- The update unit has nothing to take up. -/
def tableIdle (s : State) : Prop := s.tbl.bulk = none ∧ s.tbl.queue = []

end Sys2Proof.Machine

/-- R420–R425, R428: setting run plans the first boundary whose cutoff lies ahead; a write of an SW register takes
effect at once while run is 0, is staged and counted otherwise, and is held after a cutoff; a request, a withdrawal and
a discard set and clear what is pending. R423, R426–R429, R432: at the cutoff the pending set is counted, at the
decision point the gate of a domain set is judged, and at the boundary the whole set takes effect, or none of it. -/
def Obligations.EpochsRun : Prop :=
  (∀ (s : State),
    let st := Reg.EPC_STAGE
    (∀ v, getF v F.EPC_CTL_run = 1 → ∃ u, exec (.epochRunStart v) s = .next u ∧ epcRun u = true ∧
      fld u Reg.EPC_CTL F.EPC_CTL_max_defer = Max.max 1 (getF v F.EPC_CTL_max_defer) ∧
      u = { s with csr := u.csr, epc := u.epc } ∧ RegsKept s u [Reg.EPC_CTL, Reg.EPC_CNT1] ∧
      rd u Reg.EPC_CNT1 = (if getF v F.EPC_CTL_clr = 1 then 0 else rd s Reg.EPC_CNT1) ∧
      (epcRun s = true → u.epc = s.epc) ∧
      (epcRun s = false → u.epc = { EpcS.reset with next := firstBoundary s })) ∧
    (∀ a v, swMask a ≠ 0 →
      (epcRun s = false → ∃ u, exec (.swRegisterWrite a v) s = .next u ∧ rd u a = inEffect s a (swClamp s a v.toNat) ∧
        u.shadow = s.shadow ∧ (a < 0x81000 ∨ 0x81400 ≤ a → RegsKept s u [a] ∧ u = { s with csr := u.csr })) ∧
      (epcRun s = true → s.epc.phase = 0 → ∃ u, exec (.swRegisterWrite a v) s = .next u ∧ rd u a = rd s a ∧
        u.shadow = Tab.put s.shadow a (BitVec.ofNat 48 (swClamp s a v.toNat)) ∧ CountsBy s u st F.EPC_STAGE_landed 1 ∧
        RegsKept s u [st] ∧ u = { s with csr := u.csr, shadow := u.shadow }) ∧
      holdsWrite s (.swRegisterWrite a v) a v) ∧
    (∀ n dom, n < 65536 → holdsWrite s (.commitRequest n dom) Reg.EPC_COMMIT
        (BitVec.ofNat 48 (2 ^ 17 + b2n dom * 2 ^ 18 + n)) ∧
      (epcHolding s = false → ∃ u, exec (.commitRequest n dom) s = .next u ∧ epcPending u = true ∧ epcDomain u = dom ∧
        fld u st F.EPC_STAGE_nwr = n ∧ fld u st F.EPC_STAGE_defers = 0 ∧ epcLanded u = epcLanded s ∧
        RegsKept s u [st] ∧ u = { s with csr := u.csr })) ∧
    (flag s Reg.PWR_CHM_CFG F.PWR_CHM_CFG_en = false ∨ s.pwr.plan = [] → epcHolding s = false →
      (∃ u, exec .commitWithdraw s = .next u ∧ epcPending u = false ∧ epcLanded u = epcLanded s ∧
        RegsKept s u [st] ∧ u = { s with csr := u.csr }) ∧
      (∃ u, exec .commitDiscard s = .next u ∧ epcPending u = false ∧ epcLanded u = 0 ∧ u.shadow = [] ∧
        RegsKept s u [st, Reg.PWR_CHM_STAT]))) ∧
  (∀ (s : State), epcRun s = true → tableIdle s →
    let k := s.epc.next
    let st := Reg.EPC_STAGE
    let limit := fld s Reg.EPC_CTL F.EPC_CTL_max_defer
    let defers := fld s st F.EPC_STAGE_defers
    let landed := epcLanded s
    let nwr := fld s st F.EPC_STAGE_nwr
    let cut (v : Option Nat) : EpcS := { s.epc with phase := 1, verdict := v, gate := 0, gateWord := 0 }
    (∀ ecc, ecc < 3 →
      (s.epc.phase ≠ 0 → exec (.epochCutoff ecc) s = .next s) ∧
      (s.epc.phase = 0 →
        (epcPending s = false → exec (.epochCutoff ecc) s = .next { s with epc := cut none }) ∧
        (epcPending s = true → landed = nwr → stageState s ≠ 4 → epcDomain s = false →
          exec (.epochCutoff ecc) s = .next { s with epc := cut (some 0) }) ∧
        (epcPending s = true → landed ≠ nwr → ∃ u, exec (.epochCutoff ecc) s = .next u ∧ u.epc.phase = 1 ∧
          (defers + 1 < limit → deferred s u k (if landed < nwr then 1 else 2)) ∧
          (defers + 1 = limit → epcPending u = false ∧ Raised s u 1538 ∧ Raised s u 1539 ∧ u.shadow = s.shadow ∧
            rd u Reg.EPC_LAST = BitVec.ofNat 48 (6 * 2 ^ 45 + k % 2 ^ 40))))) ∧
    (s.epc.phase ≠ 1 → exec .epochDecisionPoint s = .next s) ∧
    (s.epc.phase = 1 →
      (s.epc.verdict ≠ some 0 ∨ epcDomain s = false ∨ (s.epc.gate = 2 ∧ s.epc.gateWord = k) →
        exec .epochDecisionPoint s = .next { s with epc := { s.epc with phase := 2, gate := 0 } }) ∧
      (s.epc.verdict = some 0 → epcDomain s = true → epcPending s = true → defers + 1 < limit →
        (s.epc.gate = 2 → s.epc.gateWord ≠ k → ∃ u, exec .epochDecisionPoint s = .next u ∧ u.epc.phase = 2 ∧ deferred s u k 4) ∧
        (s.epc.gate ≠ 2 → ∃ u, exec .epochDecisionPoint s = .next u ∧ u.epc.phase = 2 ∧ deferred s u k 5 ∧
          Raised s u 1540))) ∧
    (s.epc.phase = 2 → s.epc.held = [] → capturing s = false → s.dst.handover = 0 → s.pwr.plan = [] → stageState s ≠ 4 →
      ∃ u, exec .epochBoundary s = .next u ∧ rd u Reg.EPC_NUM = BitVec.ofNat 48 k ∧ Raised s u 1536 ∧
        u.epc = { s.epc with next := k + 1, phase := 0, verdict := none, gate := 0, gateWord := 0, late := [] } ∧
        u.svc.lastTraffic = s.svc.traffic ∧ u.svc.traffic = false ∧ u.mem = s.mem ∧
        (s.epc.verdict ≠ some 0 → u.shadow = s.shadow ∧ (∀ a, swMask a ≠ 0 → rd u a = rd s a) ∧ rd u st = rd s st) ∧
        (s.epc.verdict = some 0 → (s.shadow.map (fun e => e.1)).Nodup → (∀ e ∈ s.shadow, swMask e.1 ≠ 0) →
          (∀ e ∈ s.shadow, rd u e.1 = inEffect s e.1 e.2.toNat) ∧ u.shadow = [] ∧ epcPending u = false ∧
          epcLanded u = 0 ∧ rd u Reg.EPC_CNT0 = rd s Reg.EPC_CNT0 + 1 ∧ Raised s u 1537 ∧
          (∀ a, swMask a ≠ 0 → (∀ e ∈ s.shadow, e.1 ≠ a) → rd u a = rd s a) ∧
          rd u Reg.EPC_LAST = BitVec.ofNat 48 (k % 2 ^ 40))))

/-- R48–R53, R58, R59: the stage of a live image: a buffer is verified, its clusters are held, its programs are loaded
with its settings kept for the boundary, and a stage is given up. A command out of its state is ignored and counted. -/
def Obligations.LiveImagesStaged : Prop :=
  ∀ (s : State), s.epc.phase = 0 →
    let st (u : State) : Nat := fld u Reg.STR_STAGE F.STR_STAGE_state
    let busy (u : State) : Prop := CountsBy s u Reg.STR_STAGE F.STR_STAGE_busy_cnt 1 ∧ st u = st s ∧ u = { s with csr := u.csr } ∧
      RegsKept s u [Reg.STR_STAGE]
    let failed (u : State) (code : Nat) : Prop := st u = 6 ∧ fld u Reg.STR_STAGE F.STR_STAGE_code = code ∧
      u.str.seeds = [] ∧ u.str.weights = none
    let l := rdBytes s.mem (fld s Reg.STR_STAGE_ADDR F.STR_STAGE_ADDR_addr * 64) (fld s Reg.STR_STAGE_LEN F.STR_STAGE_LEN_len)
    (st s = 0 ∨ st s = 5 ∨ st s = 6 → ∃ u, exec .verify s = .next u ∧ st u = 1 ∧ u.str.hash = sha384 l ∧
      ((stageRead s).1 = true → u.str.code = ((partialBad s l).getD (0, 0)).1) ∧
      fld u Reg.STR_STAGE F.STR_STAGE_code = 0 ∧ fld u Reg.STR_STAGE F.STR_STAGE_defers = 0 ∧ BytesKept s u) ∧
    (st s ≠ 0 → st s ≠ 5 → st s ≠ 6 → ∃ u, exec .verify s = .next u ∧ busy u) ∧
    (st s ≠ 1 → exec .verifyComplete s = .next s) ∧
    (st s = 1 → (s.str.code = 0 → ∃ u, exec .verifyComplete s = .next u ∧ st u = 2 ∧ u.str = s.str) ∧
      (s.str.code ≠ 0 → s.str.code < 256 → ∃ u, exec .verifyComplete s = .next u ∧ failed u s.str.code)) ∧
    (st s ≠ 2 → ∃ u, exec .arm s = .next u ∧ busy u) ∧
    (st s = 2 →
      (∀ e ∈ s.str.clusters, liveIdle s e.1 = false → ∃ u, exec .arm s = .next u ∧ failed u 0x11) ∧
      ((∀ e ∈ s.str.clusters, e.1 < 24 ∧ liveIdle s e.1 = true) → ∃ u, exec .arm s = .next u ∧ st u = 3 ∧
        (∀ e ∈ s.str.clusters, (clu u e.1).liveHold = true ∧ flag u (Reg.STR_PROG e.1) F.STR_PROG_held = true))) ∧
    (st s ≠ 3 ∨ preloadReady s = false → exec .preloadComplete s = .next s) ∧
    (st s = 3 → preloadReady s = true → (stageRead s).1 = true →
      (sha384 l ≠ s.str.hash → ∃ u, exec .preloadComplete s = .next u ∧ failed u 0x12 ∧
        ∀ e ∈ s.str.clusters, e.1 < 24 → flag u (Reg.STR_PROG e.1) F.STR_PROG_valid = false) ∧
      (sha384 l = s.str.hash → ∃ u, exec .preloadComplete s = .next u ∧ st u = 4 ∧ u.mem = s.mem ∧
        u.str.progs = ((imgSecs l).filter (fun e => e.typ == 2)).map (fun e => (e.inst, leAt (secBytes l e) 12 4)) ∧
        u.str.seeds.map (fun e => e.1) = ((imgSecs l).filter (fun e => e.typ == 6)).map (fun e => e.inst))) ∧
    (st s = 1 ∨ st s = 3 → ∃ u, exec .disarm s = .next u ∧ busy u) ∧
    (st s = 2 ∨ st s = 4 → ∃ u, exec .disarm s = .next u ∧ st u = 0 ∧ u.clusters = s.clusters ∧
      u.str = { s.str with seeds := [], weights := none, progs := [] }) ∧
    (st s = 0 ∨ 5 ≤ st s → exec .disarm s = .next s)

namespace Sys2Proof.Machine

/-- A WR of the mirror into the partner's shadow at an offset, on virtual channel `v` (R434). -/
def mirrorMsg (s : State) (v note off : Nat) (data : List Byte) : ObxMsg :=
  { vc := v, typ := 3, size := data.length, dst := dstPartner s, agent := agentId s 0x20F0, tag := 0,
    arg := (pshadowOff s + off) % 2 ^ 37, data := data, op := none, wantTag := true,
    link := some (fld s Reg.DST_CFG F.DST_CFG_link), stomp := false, transit := none, note := note }

end Sys2Proof.Machine

/-- R434–R445: a pair is enabled in a role; the active device mirrors captured lines, the walk of a copy, and a marker for
each epoch whose lines are all sent; the standby commits an epoch whose lines all came; heartbeats go out and their loss
counts; a standby takes over by failover or handover. What the mirror sends waits while no link is open. -/
def Obligations.PairsKept : Prop :=
  ∀ (s : State) (v : Nat), Canonical s → fabricIdle s → noneOpen s → vcOfClass s 1 = some v →
    s.gecko.left.contains (dstPartner s) = false → muteDrops s v (dstPartner s) = false →
    let d := s.dst
    let active := dstRole s = 1
    let standby := dstRole s = 2
    let misses := fld s Reg.DST_STAT F.DST_STAT_misses
    (∀ w, getF w F.DST_CFG_en = 1 → (dstEn s = true → exec (.pairEnable w) s = .next s) ∧
      (dstEn s = false → ∃ u, exec (.pairEnable w) s = .next u ∧ dstEn u = true ∧ dstSync u = 0 ∧ u.dst = DstS.reset ∧
        dstRole u = (if getF w F.DST_CFG_active = 1 then 1 else 2) ∧ rd u Reg.DST_CFG = w &&& 0xFF0000001FFF ∧
        BytesKept s u)) ∧
    (capturing s = false → exec .mirrorSend s = .next s ∧ exec .markerSend s = .next s) ∧
    (capturing s = true →
      (∀ c r, d.log = c :: r → (captureOpen s c = false → exec .mirrorSend s = .next s) ∧
        (∀ o, captureOpen s c = true → lineOff s c.addr = some o → ∃ u, exec .mirrorSend s = .next u ∧
          u.obx.tx = [mirrorMsg s v 0 o c.line] ∧ u.dst = { d with log := r, sent := d.sent + 1 } ∧
          WrapsBy s u Reg.DST_CNT0 F.DST_CNT0_lines 1 ∧ BytesKept s u)) ∧
      (d.log = [] → (d.walk = none → exec .mirrorSend s = .next s) ∧
        (∀ n a, d.walk = some n → lineAddr s (shLines + 64 * n) = some a → ∃ u, exec .mirrorSend s = .next u ∧
          u.obx.tx = [mirrorMsg s v 0 (shLines + 64 * n) (rdBytes s.mem a 64)] ∧ u.dst.sent = d.sent + 1 ∧
          u.dst.walk = (if mirrorLen s ≤ 64 * (n + 1) then none else some (n + 1)))) ∧
      (∀ m, markDue s = some m → m.handover = false → ∃ u, exec .markerSend s = .next u ∧
        u.obx.tx.getLast? = some (mirrorMsg s v (b2n (d.walked && dstSync s == 1)) shMarker (markerBytes m d.sent s)) ∧
        u.dst = { d with sent := 0, marks := d.marks.drop 1 } ∧ rd u Reg.DST_COMMITTED = BitVec.ofNat 48 m.epoch)) ∧
    (markDue s = none → exec .markerSend s = .next s ∧ exec .handoverComplete s = .next s) ∧
    (∀ m, markDue s = some m → (m.handover = true → exec .markerSend s = .next s ∧
        ∃ u, exec .handoverComplete s = .next u ∧ dstRole u = 2 ∧ u.dst.handover = 0 ∧ Raised s u 1557 ∧
          rd u Reg.DST_COMMITTED = BitVec.ofNat 48 m.epoch) ∧
      (m.handover = false → exec .handoverComplete s = .next s)) ∧
    (d.markers = [] → exec .markerReceive s = .next s) ∧
    (∀ m lines r, d.markers = (m, lines) :: r →
      (¬standby → exec .markerReceive s = .next { s with dst := { d with markers := r } }) ∧
      (standby → leAt m 6 4 ≠ lines.length → dstSync s ≠ 3 → ∃ u, exec .markerReceive s = .next u ∧ dstSync u = 3 ∧
        u.dst.markers = r ∧ u.mem = s.mem ∧ CountsBy s u Reg.DST_CNT1 F.DST_CNT1_unsynced 1 ∧ Raised s u 1554) ∧
      (standby → leAt m 6 4 = lines.length → (leAt m 11 1).testBit 0 = false →
        (∀ e ∈ lines, ∀ a, lineAddr s e.1 = some a → retiredIn s a e.2.length = false) → ∃ u, exec .markerReceive s = .next u ∧
        u.mem = lines.foldl (fun x e => match lineAddr s e.1 with
          | some a => wrBytes x a e.2
          | none => x) s.mem ∧
        rd u Reg.DST_COMMITTED = BitVec.ofNat 48 (leAt m 0 6) ∧ u.dst = { d with markers := r, bank := leAt m 10 1 % 2 } ∧
        fld u Reg.DST_NLS F.DST_NLS_gen = leAt m 12 4 % 2 ^ 32 ∧
        WrapsBy s u Reg.DST_CNT0 F.DST_CNT0_lines lines.length)) ∧
    (active ∨ standby → ∃ u, exec .heartbeatSend s = .next u ∧
      u.obx.tx = [mirrorMsg s v 0 shHeartbeat (heartbeatBytes s)] ∧ u.dst = { d with hbSeq := (d.hbSeq + 1) % 2 ^ 32 } ∧
      u.csr = s.csr) ∧
    (¬active → ¬standby → exec .heartbeatSend s = .next s) ∧
    ((¬active ∧ ¬standby) ∨ d.hbSeen = true →
      exec .heartbeatPeriodEnd s = .next { s with dst := { d with hbSeen := false } }) ∧
    (active ∨ standby → d.hbSeen = false →
      (misses ≠ 2 → ∃ u, exec .heartbeatPeriodEnd s = .next u ∧ u.dst = d ∧ dstRole u = dstRole s ∧
        fld u Reg.DST_STAT F.DST_STAT_misses = Min.min 3 (misses + 1) ∧ Raised s u 1552) ∧
      (misses = 2 → active → ∃ u, exec .heartbeatPeriodEnd s = .next u ∧ dstSync u = 3 ∧ u.dst.log = [] ∧
        fld u Reg.DST_STAT F.DST_STAT_misses = 3 ∧ Raised s u 1552) ∧
      (misses = 2 → standby → dstSync s ≠ 2 → ∃ u, exec .heartbeatPeriodEnd s = .next u ∧ dstRole u = 2 ∧
        fld u Reg.DST_STAT F.DST_STAT_misses = 3 ∧ Raised s u 1552)) ∧
    (¬standby → exec .failover s = .next s) ∧
    (standby → d.markers = [] → mirroredLocks s = [] → let leaves := flag s Reg.DST_CFG F.DST_CFG_leave
      ∃ u, exec .failover s = .next u ∧ dstRole u = 1 ∧ dstSync u = 0 ∧ u.bridge.next = u.bridge.head ∧ u.dst.rx = [] ∧
        CountsBy s u Reg.DST_CNT1 F.DST_CNT1_failovers 1 ∧ Raised s u 1553 ∧ u.mem = s.mem ∧
        (leaves = false → u.obx.nextId = s.obx.nextId) ∧
        (leaves = true → u.obx.nextId = (s.obx.nextId + 1) % 65536 ∧ isMember u (dstPartner s) = false)) ∧
    (active → dstSync s = 2 → d.handover = 0 → ∃ u, exec .handover s = .next u ∧ u.dst = { d with handover := 1 } ∧
      fld u Reg.DST_STAT F.DST_STAT_handover = 1 ∧ RegsKept s u [Reg.DST_STAT] ∧ dstRole u = 1) ∧
    (¬active ∨ dstSync s ≠ 2 ∨ d.handover ≠ 0 → exec .handover s = .next s) ∧
    (¬active → exec .resync s = .next s) ∧
    (active → ∃ u, exec .resync s = .next u ∧ dstSync u = 1 ∧ dstRole u = 1 ∧
      u.dst = { d with log := [], marks := [], walk := some 0, walked := false } ∧
      fld u Reg.DST_BACKLOG F.DST_BACKLOG_entries = 0 ∧ RegsKept s u [Reg.DST_STAT, Reg.DST_BACKLOG])

/-- R450–R456, R461: the monitor counts REFCLK, trims once, and two bad windows in a row are a failure; a PLL that loses
lock stops what it feeds, and locks again when powered; an unneeded, idle domain stops; a crossing delivers its oldest
ending. R464–R470: a write of CRS_CLURST resets clusters, CRS_CLUHOLD also holds them, and a cluster leaves reset once
nothing holds it; losing a partner puts a port or a link in half-reset, and writing 1 to its flag arms it again; DEV is
released once. -/
def Obligations.ClocksAndResets : Prop :=
  (∀ (s : State),
    let mon := Reg.CRS_REFMON
    let trimmed := flag s mon F.CRS_REFMON_trimmed
    (∀ n, trimmed = false → ∃ u, exec (.refclkMonitorWindow n) s = .next u ∧
      fld u mon F.CRS_REFMON_count = Min.min n 65535 ∧
      (flag u mon F.CRS_REFMON_trimmed = true ↔ 23000 ≤ n ∧ n ≤ 27000) ∧ RegsKept s u [mon] ∧ u = { s with csr := u.csr }) ∧
    (∀ n, trimmed = true →
      let miss := n < 24500 ∨ 25500 < n
      (¬miss ∨ s.clk.miss = false ∨ flag s mon F.CRS_REFMON_fail = true → ∃ u, exec (.refclkMonitorWindow n) s = .next u ∧
        fld u mon F.CRS_REFMON_count = Min.min n 65535 ∧ (u.clk.miss = true ↔ miss) ∧ u.clk.dead = s.clk.dead ∧
        RegsKept s u [mon] ∧ u.threads = s.threads) ∧
      (miss → s.clk.miss = true → flag s mon F.CRS_REFMON_fail = false → ∃ u, exec (.refclkMonitorWindow n) s = .next u ∧
        flag u mon F.CRS_REFMON_fail = true ∧ u.clk.dead = true ∧ u.clk.irq = true ∧ devUp u = false ∧
        (∀ p ∈ u.clk.locked, p = 0) ∧ flag u (Reg.CRS_PLLSTAT 0) F.CRS_PLLSTAT_holdover = true ∧ u.svc = s.svc ∧
        u.threads = [] ∧ u.mem = State.reset.mem)) ∧
    (∀ p, p < 45 →
      (s.clk.locked.contains p = false → exec (.pllUnlock p) s = .next s) ∧
      (s.clk.locked.contains p = true → (1 ≤ p ∧ p ≤ 8) → ∃ u, exec (.pllUnlock p) s = .next u ∧
        u.clk.locked.contains p = false ∧ CountsBy s u (Reg.CRS_PLLSTAT p) F.CRS_PLLSTAT_unlocks 1 ∧ Crossed s u 1602 ∧
        ∀ c ∈ quadClusters ((p - 1) % 4), (clu u c).pllHold = true) ∧
      (s.clk.locked.contains p = true → 31 ≤ p ∧ p ≤ 42 → ∃ u, exec (.pllUnlock p) s = .next u ∧
        u.clk = { s.clk with locked := s.clk.locked.filter (· != p) }) ∧
      (s.clk.locked.contains p = true → p = 0 ∨ (9 ≤ p ∧ p ≤ 30) ∨ 43 ≤ p → ∃ u, exec (.pllUnlock p) s = .next u ∧
        u.clk.dead = true ∧ (∀ q ∈ u.clk.locked, q = 0) ∧
        CountsBy s u (Reg.CRS_PLLSTAT p) F.CRS_PLLSTAT_unlocks 1) ∧
      (pllOn s p = false ∨ s.clk.locked.contains p = true ∨ (s.clk.dead = true ∧ p ≠ 0) → exec (.pllLock p) s = .next s) ∧
      (pllOn s p = true → s.clk.locked.contains p = false → s.clk.dead = false ∨ p = 0 → ∃ u, exec (.pllLock p) s = .next u ∧
        u.clk = { s.clk with locked := s.clk.locked ++ [p] } ∧ u.csr = s.csr ∧
        (1 ≤ p → p ≤ 8 → let q := (p - 1) % 4
          u.clk.locked.contains (1 + q) = true → u.clk.locked.contains (5 + q) = true →
          ∀ c ∈ quadClusters q, (clu u c).pllHold = false))) ∧
    (∀ d, d < 227 → (domReq s d = true ∨ domIdle s d = false → exec (.clockStop d) s = .next s) ∧
      (domReq s d = false → domIdle s d = true → exec (.clockStop d) s = .next { s with
        clk := { s.clk with runs := s.clk.runs.filter (· != d) } })) ∧
    (∀ c, c < 25 → (s.bridge.inbound.find? (fun e => e.2.thread / 128 == c) = none →
        exec (.fifoCrossingDelivery c) s = .next s) ∧
      (∀ e, s.bridge.inbound.find? (fun e => e.2.thread / 128 == c) = some e → ∃ u,
        exec (.fifoCrossingDelivery c) s = .next u ∧ u.bridge.inbound = s.bridge.inbound.erase e ∧ u.scratch = s.scratch ∧
        u.code = s.code))) ∧
  (∀ (s : State),
    let off (u : State) (c : Nat) : Prop := (clu u c).inReset = true ∨ (clu u c).resetting = true
    (∀ v c, c < 24 → v.toNat.testBit c = true →
      (∃ u, exec (.clusterReset v) s = .next u ∧ off u c ∧ u.code = s.code ∧ u.scratch = s.scratch ∧
        rd u Reg.CRS_CLUHOLD = rd s Reg.CRS_CLUHOLD) ∧
      (∃ u, exec (.clusterHoldWrite v) s = .next u ∧ off u c ∧ u.code = s.code ∧ u.scratch = s.scratch ∧
        rd u Reg.CRS_CLUHOLD = BitVec.ofNat 48 (v.toNat % 2 ^ 24))) ∧
    (exec (.clusterReset 0) s = .next s) ∧
    (∀ c, c < 24 →
      ((clu s c).inReset = false ∨ cluHeld s c = true ∨ (clu s c).power ≠ .run → exec (.clusterResetRelease c) s = .next s) ∧
      ((clu s c).inReset = true → cluHeld s c = false → (clu s c).power = .run → ∃ u,
        exec (.clusterResetRelease c) s = .next u ∧ (clu u c).inReset = false ∧ (clu u c).everRun = true ∧
        ((clu s c).everRun = true → Crossed s u 1603) ∧ u.code = s.code)) ∧
    (∀ p, p < 4 →
      (s.host.perst.contains p = true → exec (.perstpNRelease p) s = .next s) ∧
      (s.host.perst.contains p = false →
        exec (.perstpNRelease p) s = .next { s with host := { s.host with perst := s.host.perst ++ [p] } }) ∧
      (∃ u, exec (.halfResetTrigger 4 p) s = .next u ∧ u.host.perst = s.host.perst.filter (· != p) ∧
        (Canonical s → ∀ k, k < 4 → flag u (Reg.HST_LINK (p * 4 + k)) F.HST_LINK_up = false))) ∧
    (∀ l, l < 8 → linkLive s l = false → exec (.halfResetTrigger 1 l) s = .next s) ∧
    (∀ l, l < 8 → linkLive s l = true → fabricIdle s → ∃ u, exec (.halfResetTrigger 1 l) s = .next u ∧
      flag u (Reg.OBX_LSTAT l) F.OBX_LSTAT_half_reset = true ∧ linkState u l = 5 ∧
      CountsBy s u Reg.CRS_CNT F.CRS_CNT_half_resets 1) ∧
    (∀ l, l < 16 → (Canonical s → ∃ u, exec (.halfResetTrigger 2 l) s = .next u ∧
        flag u (Reg.HST_LINK l) F.HST_LINK_up = false) ∧
      (∃ u, exec (.halfResetRearm 2 l) s = .next u ∧ flag u (Reg.HST_LINK l) F.HST_LINK_half_reset = false ∧
        RegsKept s u [Reg.HST_LINK l] ∧ u = { s with csr := u.csr })) ∧
    (flag s Reg.SVC_PORT F.SVC_PORT_up = false → exec (.halfResetTrigger 3 0) s = .next s) ∧
    (flag s Reg.SVC_PORT F.SVC_PORT_up = true → ∃ u, exec (.halfResetTrigger 3 0) s = .next u ∧
      flag u Reg.SVC_PORT F.SVC_PORT_up = false ∧ flag u Reg.SVC_PORT F.SVC_PORT_half_reset = true ∧
      CountsBy s u Reg.CRS_CNT F.CRS_CNT_half_resets 1 ∧ Crossed s u 1805) ∧
    (∃ u, exec (.halfResetRearm 3 0) s = .next u ∧ flag u Reg.SVC_PORT F.SVC_PORT_half_reset = false ∧
      RegsKept s u [Reg.SVC_PORT] ∧ u = { s with csr := u.csr }) ∧
    (isSealed s = false →
      (flag s Reg.CRS_BOOT F.CRS_BOOT_dev_rel = true → exec (.devRelease svcAgent) s = .next s) ∧
      (flag s Reg.CRS_BOOT F.CRS_BOOT_dev_rel = false → ∃ u, exec (.devRelease svcAgent) s = .next u ∧
        flag u Reg.CRS_BOOT F.CRS_BOOT_dev_rel = true ∧ u.ev = Ev.reset ∧ domNow u = 0 ∧ BytesKept s u)) ∧
    (∀ a, knownAgent a = true → a ≠ svcAgent ∨ isSealed s = true → ∃ u, exec (.devRelease a) s = .next u ∧
      rd u Reg.CRS_BOOT = rd s Reg.CRS_BOOT ∧ CountsBy s u Reg.PRT_CNT F.PRT_CNT_bw 1 ∧ BytesKept s u))
/-! ## Supply, heat, power states, Chameleon -/

namespace Sys2Proof.Machine

/-- Nothing waits for the holdup flag to clear. -/
def nothingWaits (s : State) : Prop :=
  (∀ f, s.svc.mode ≠ .romHold f) ∧ s.svc.commitDue = false ∧ s.svc.owedTset = 0 ∧ s.svc.due = []

end Sys2Proof.Machine

/-- R475–R480, R564: VIN samples, the warning, the holdup flag, two samples out of range in a row, the release; the
temperatures, their warning and the trip. R481–R485: a request of a state takes it at once, or leads out of STANDBY
through EXITING; STANDBY is reached through ENTERING once queues are empty and clusters may park, or is given up at its
limit; every change of state is raised. -/
def Obligations.PowerKept : Prop :=
  (∀ (s : State),
    let vin := Reg.PWR_VIN
    let lit (u : State) (f : Fld) : Prop := flag u vin f = true
    (∀ mv amps watts, mv < 65536 → amps < 65536 → watts < 65536 →
      let c := Instr.vinSample mv amps watts
      let bad := mv < 10200 ∨ 13800 < mv
      let up := if 10200 ≤ mv then Min.min 2 (s.pwr.vinUp + 1) else 0
      (s.svc.porst = true → s.svc.porstN = false →
        exec c s = .next { s with pwr := { s.pwr with vinUp := up, out := decide bad } }) ∧
      (s.svc.porst = true → s.svc.porstN = true → s.svc.vaon = true → s.pwr.tripped = false → 10200 ≤ mv →
        1 ≤ s.pwr.vinUp → ∃ u, exec c s = .next u ∧ u.svc.porst = false ∧ u.svc.mode ≠ .off) ∧
      (s.svc.porst = false → ¬(bad ∧ s.pwr.out = true) → ∃ u, exec c s = .next u ∧ fld u vin F.PWR_VIN_mv = mv ∧
        fld u Reg.PWR_VINSTAT F.PWR_VINSTAT_amps = amps ∧ fld u Reg.PWR_VINSTAT F.PWR_VINSTAT_watts = watts ∧
        fld u Reg.PWR_VINSTAT F.PWR_VINSTAT_min_mv = (if s.pwr.fresh.contains 6 then mv
          else Min.min mv (fld s Reg.PWR_VINSTAT F.PWR_VINSTAT_min_mv)) ∧
        u.pwr.out = decide bad ∧ BytesKept s u ∧ u.threads = s.threads ∧
        (mv < 11000 → lit u F.PWR_VIN_warn ∧ lit u F.PWR_VIN_holdup ∧ Crossed s u 1728 ∧
          (holdup s = false → Crossed s u 1729)) ∧
        (11000 ≤ mv → mv < 11200 → flag u vin F.PWR_VIN_warn = flag s vin F.PWR_VIN_warn) ∧
        (11200 ≤ mv → 9999 ≤ s.pwr.good → flag u vin F.PWR_VIN_warn = false)) ∧
      (s.svc.porst = false → bad → s.pwr.out = true → ∃ u, exec c s = .next u ∧ u.svc.porst = true ∧ devUp u = false ∧
        flag u Reg.PWR_RSTCAUSE (if 13800 < mv then F.PWR_RSTCAUSE_ov else F.PWR_RSTCAUSE_brownout) = true ∧
        u.mem = State.reset.mem ∧ u.pwr.vinUp = 0)) ∧
    (∀ b, ∃ u, exec (.holdupOkChange b) s = .next u ∧ flag u vin F.PWR_VIN_hok = b ∧ BytesKept s u ∧
      (b = false → s.svc.porst = false → lit u F.PWR_VIN_holdup ∧ (holdup s = false → Crossed s u 1729)) ∧
      (s.svc.porst = true ∨ (b = true ∧ flag s vin F.PWR_VIN_warn = false) → holdup u = holdup s)) ∧
    (flag s vin F.PWR_VIN_warn = true ∨ flag s vin F.PWR_VIN_hok = false ∨ s.svc.porst = true ∨ holdup s = false →
      exec .holdupClear s = .next s) ∧
    (flag s vin F.PWR_VIN_warn = false → flag s vin F.PWR_VIN_hok = true → s.svc.porst = false → holdup s = true →
      (nothingWaits s → ∃ u, exec .holdupClear s = .next u ∧ holdup u = false ∧ RegsKept s u [vin] ∧
        u = { s with csr := u.csr }) ∧
      (s.svc.mode = .rt → s.svc.commitDue = true → ∃ u, exec .holdupClear s = .next u ∧ holdup u = false ∧
        flag u Reg.SVC_BOOT F.SVC_BOOT_committed = true ∧ Crossed s u 1802)) ∧
    (∀ t0 t1 t2 t3 t4 t5, (∀ t ∈ [t0, t1, t2, t3, t4, t5], t < 256) →
      let c := Instr.tempSample t0 t1 t2 t3 t4 t5
      let l := [t0, t1, t2, t3, t4, t5]
      let warn : Int := fld s Reg.PWR_THERM F.PWR_THERM_warn
      (s.svc.porst = true → exec c s = .next s) ∧
      (s.svc.porst = false → ∃ u, exec c s = .next u ∧ fld u Reg.PWR_THERM F.PWR_THERM_hot = hottest l ∧
        (∀ d, d < 6 → fld u (Reg.PWR_TEMP d) F.PWR_TEMP_temp = l.getD d 0 ∧
          fld u (Reg.PWR_TEMP d) F.PWR_TEMP_max =
            (if s.pwr.fresh.contains d || hotter (l.getD d 0) (fld s (Reg.PWR_TEMP d) F.PWR_TEMP_max) then l.getD d 0
              else fld s (Reg.PWR_TEMP d) F.PWR_TEMP_max)) ∧
        (s.pwr.armed = true → warn ≤ sbyte (hottest l) → u.pwr.armed = false ∧ Crossed s u 1731) ∧
        (sbyte (hottest l) ≤ warn - 2 → u.pwr.armed = true) ∧ BytesKept s u)) ∧
    (let cool := sbyte (fld s Reg.PWR_THERM F.PWR_THERM_hot) < (fld s Reg.PWR_THERM F.PWR_THERM_trip : Int);
      (s.svc.porst = true ∨ cool → exec .thermalTrip s = .next s) ∧
      (s.svc.porst = false → ¬cool → ∃ u, exec .thermalTrip s = .next u ∧ u.pwr.tripped = true ∧ devUp u = false ∧
        flag u Reg.PWR_RSTCAUSE F.PWR_RSTCAUSE_thermal = true ∧ u.svc.mode = .off ∧ u.threads = [] ∧
        u.mem = State.reset.mem))) ∧
  (∀ (s : State), Canonical s →
    let cur (u : State) : Nat := fld u Reg.PWR_STATE F.PWR_STATE_cur
    (∀ v, getF v F.PWR_STATE_req ≠ 3 →
      let q := getF v F.PWR_STATE_req
      ∃ u, exec (.powerStateRequest v) s = .next u ∧ fld u Reg.PWR_STATE F.PWR_STATE_req = q ∧
        (getF v F.PWR_STATE_sby_abort = 1 → flag u Reg.PWR_STATE F.PWR_STATE_sby_abort = false) ∧
        (cur s ≤ 2 → cur u = q ∧ (cur s ≠ q → Crossed s u 1730) ∧ u.pwr = s.pwr) ∧
        (cur s = 3 ∨ cur s = 4 → cur u = 5 ∧ u.pwr.target = q ∧ u.pwr.again = false ∧ Crossed s u 1730) ∧
        (cur s = 5 → cur u = 5 ∧ u.pwr.target = q ∧ u.pwr.again = false)) ∧
    (∀ v, getF v F.PWR_STATE_req = 3 → ∃ u, exec (.standbyRequest v) s = .next u ∧
        fld u Reg.PWR_STATE F.PWR_STATE_req = 3 ∧
        (cur s ≤ 2 → cur u = 4 ∧ u.pwr.before = cur s ∧ Crossed s u 1730) ∧
        (cur s = 3 ∨ cur s = 4 → cur u = cur s ∧ u.pwr = s.pwr) ∧
        (cur s = 5 → cur u = 5 ∧ u.pwr.again = true)) ∧
    (cur s ≠ 4 ∨ standbyReady s = false → exec .standbyDrained s = .next s) ∧
    (cur s = 4 → standbyReady s = true → ∃ u, exec .standbyDrained s = .next u ∧ cur u = 3 ∧ Crossed s u 1730 ∧
      (∀ c, c < 24 → (clu u c).power = .parked) ∧ (∀ m, m < 4 → mcUsed s m = true → (mcCtl u m).selfRef = true) ∧
      ∀ p ∈ u.clk.locked, p = 0 ∨ 8 < p) ∧
    (cur s ≠ 4 → exec .standbyAbort s = .next s) ∧
    (cur s = 4 → standbyReady s = true → exec .standbyAbort s = exec .standbyDrained s) ∧
    (cur s = 4 → standbyReady s = false → s.pwr.before ≤ 2 → ∃ u, exec .standbyAbort s = .next u ∧ cur u = s.pwr.before ∧ Crossed s u 1730 ∧
      fld u Reg.PWR_STATE F.PWR_STATE_req = s.pwr.before ∧ flag u Reg.PWR_STATE F.PWR_STATE_sby_abort = true) ∧
    (cur s ≠ 5 → exec .standbyExitComplete s = .next s) ∧
    (cur s = 5 → s.pwr.target ≤ 2 → s.pwr.again = false → ∃ u, exec .standbyExitComplete s = .next u ∧
      cur u = s.pwr.target ∧ Crossed s u 1730 ∧ ∀ m, m < 12 → (mcCtl u m).selfRef = false))
/-- R488, R490, R495, R516, R542: a sample of every sensor fills the registers of ring oscillators and of the replicas of
running clusters, and counts; a slack of 0 or less is an error. The daily record waits for holdup. -/
def Obligations.ChameleonSamples : Prop :=
  ∀ (s : State) (ros : List (Nat × Nat)) (reps : List Nat), ros.length = 96 → reps.length = 48 →
    let en := flag s Reg.PWR_CHM_CFG F.PWR_CHM_CFG_en
    let st := Reg.PWR_CHM_STAT
    (en = false → exec (.chameleonSample ros reps false) s = .next s ∧
      ∃ u, exec (.chameleonSample ros reps true) s = .next u ∧ CountsBy s u Reg.BKG_OVR F.BKG_OVR_chameleon 1 ∧
        Raised s u 1857 ∧ u = { s with csr := u.csr, ev := u.ev }) ∧
    (en = true → ∃ u, exec (.chameleonSample ros reps false) s = .next u ∧ WrapsBy s u st F.PWR_CHM_STAT_samples 1 ∧
      BytesKept s u ∧ u.clusters = s.clusters ∧
      (∀ k, k < 96 → fld u (Reg.PWR_RO k) F.PWR_RO_fu = (ros.getD k (0, 0)).1 % 2 ^ 16 ∧
        fld u (Reg.PWR_RO k) F.PWR_RO_d = (ros.getD k (0, 0)).2 % 2 ^ 24) ∧
      (∀ k, k < 48 → (clu s (k / 2)).power ≠ .run → flag u (Reg.PWR_REP k) F.PWR_REP_valid = false) ∧
      (∀ k, k < 48 → (clu s (k / 2)).power = .run → flag u (Reg.PWR_REP k) F.PWR_REP_valid = true ∧
        fld u (Reg.PWR_REP k) F.PWR_REP_slack = reps.getD k 0 % 65536 ∧
        (sextN 16 (reps.getD k 0 % 65536) ≤ 0 → fld s st F.PWR_CHM_STAT_errors < 255 →
          fld s st F.PWR_CHM_STAT_errors < fld u st F.PWR_CHM_STAT_errors)) ∧
      u.pwr.seen = s.pwr.seen + Max.max 1 (fld s Reg.PWR_CHM_CFG F.PWR_CHM_CFG_sample_ms) ∧ s.pwr.eqh ≤ u.pwr.eqh) ∧
    (holdup s = true → exec .chameleonRecordDaily s = .next { s with svc := { s.svc with
      due := s.svc.due ++ [(3, chmBody s)] } }) ∧
    (holdup s = false → exec .chameleonRecordDaily s = exec (.nelistoreAppend 3 (chmBody s) false) s)

/-! ## Boot, the settings store, service commands -/

namespace Sys2Proof.Machine

/-- The part is in reset as PORST_N leaves it: DEV not released, no thread, memories as after reset, OTP as it was. -/
def partOff (s u : State) : Prop :=
  devUp u = false ∧ u.threads = [] ∧ u.mem = State.reset.mem ∧ u.scratch = State.reset.scratch ∧ u.pending = s.pending ∧
  rd u Reg.SVC_OTP = rd s Reg.SVC_OTP ∧ u.svc.flash0 = s.svc.flash0 ∧ u.svc.flash1 = s.svc.flash1

/-- SVC_CMDSTAT after a command that is over (R538). -/
def ended (u : State) (c status : Nat) : Prop := rd u Reg.SVC_CMDSTAT = BitVec.ofNat 48 (c * 256 + status)

/-- The window was open and the command took it: it is closed (R526). -/
def windowTaken (u : State) : Prop := windowOpen u = false

end Sys2Proof.Machine

/-- R464, R475, R478, R506–R510, R518, R564: PORST_N and VAON put the part in reset; released, the ROM waits for presence,
boots the preferred slot, or enters Axolotl mode; boot code applies the structure image or gives the slot up; sealing ends
boot writes; run-time firmware applies its settings, or is quarantined. That an image is valid stands in conclusions only:
the key hashes of OTP are open. -/
def Obligations.BootRuns : Prop :=
  ∀ (s : State),
    let z : State := { s with svc := { s.svc with dropped := [] } }
    let f := runFlash s
    (∃ u, exec .porstNAssert s = .next u ∧ partOff s u ∧ u.svc.porst = true ∧ u.svc.porstN = false ∧ u.svc.mode = .off ∧
      rd u Reg.PWR_RSTCAUSE = rd s Reg.PWR_RSTCAUSE ∧ fld u Reg.PWR_VIN F.PWR_VIN_hok = fld s Reg.PWR_VIN F.PWR_VIN_hok ∧
      tampered u = tamperFuses s) ∧
    (∀ b, ∃ u, exec (.porstNRelease b) s = .next u ∧ u.svc.porstN = true ∧ u.svc.presLow = b ∧
      (s.svc.porst = true → s.svc.vaon = true → 2 ≤ s.pwr.vinUp → s.pwr.tripped = false → u.svc.porst = false ∧
        (b = true → u.svc.mode = .romPres) ∧
        (b = false → preferred z (candidate z) = none → u.svc.mode = .axolotl) ∧
        (b = false → ∀ g, preferred z (candidate z) = some g →
          ((slotState s g).1 = 1 → holdup s = true → u.svc.mode = .romHold g) ∧
          ((slotState s g).1 = 2 → validStatus s g = 0 → u.svc.mode = .boot ∧
            fld u Reg.SVC_BOOT F.SVC_BOOT_slot = g + 1 ∧ flag u Reg.SVC_BOOT F.SVC_BOOT_committed = true))) ∧
      (s.svc.porst = false ∨ s.svc.vaon = false ∨ s.pwr.vinUp < 2 ∨ s.pwr.tripped = true →
        u.svc.porst = s.svc.porst ∧ u.svc.mode = s.svc.mode)) ∧
    (s.svc.vaon = true → exec .vaonPowerUp s = .next s) ∧
    (s.svc.vaon = false → ∃ u, exec .vaonPowerUp s = .next u ∧ u.svc.vaon = true ∧
      flag u Reg.PWR_RSTCAUSE F.PWR_RSTCAUSE_por = true ∧ RegsKept s u [Reg.PWR_RSTCAUSE]) ∧
    (∃ u, exec .vaonPowerLoss s = .next u ∧ partOff s u ∧ u.svc.vaon = false ∧ rd u Reg.PWR_RSTCAUSE = 0 ∧
      u.pwr = PwrS.reset) ∧
    (holdup s = false ∨ (∀ g, s.svc.mode ≠ .romHold g) → exec .romHoldupTimeout s = .next s) ∧
    (∀ g, s.svc.mode = .romHold g → g < 2 → holdup s = true → ∃ u, exec .romHoldupTimeout s = .next u ∧
      (candidate s (1 - g) = false → validStatus s g ≠ 0 → u.svc.mode = .axolotl ∧ u.svc.dropped = s.svc.dropped ++ [g]) ∧
      (candidate s (1 - g) = false → validStatus s g = 0 → u.svc.mode = .boot ∧
        fld u Reg.SVC_BOOT F.SVC_BOOT_slot = g + 1 ∧ u.svc.flash0 = s.svc.flash0 ∧ u.svc.flash1 = s.svc.flash1)) ∧
    (∀ out : TrainOut, out.all (fun e => e.2.2 == 5 || e.2.2 == 6) = true →
      (s.svc.mode ≠ .boot ∨ s.str.boot.isSome = true → exec (.bootCodeStart out) s = .next s) ∧
      (s.svc.mode = .boot → s.str.boot = none → ∃ u, exec (.bootCodeStart out) s = .next u ∧
        flag u Reg.CRS_BOOT F.CRS_BOOT_dev_rel = true ∧
        (∀ b, fullBad s (slotStr s) = some b → u.svc.mode = .failed ∧
          (if fld s (Reg.EVT_CFG 1796) F.EVT_CFG_mode = 0 then Tab.get 0 u.ev.bits 1796 ≠ 0 else Tab.get 0 u.ev.xing 1796 ≠ 0) ∧
          rd u Reg.STR_STATUS = BitVec.ofNat 48 (b.2 * 65536 + b.1 * 256 + 3) ∧
          (runTrial s = false → fld u Reg.SVC_BOOT F.SVC_BOOT_skip = (f + 1) % 4)) ∧
        (fullBad s (slotStr s) = none → out = [] →
          let l := slotStr s
          let waits := (List.range 24).any (fun c => (secInst l 2 c).isSome && !flag s (Reg.STR_PROG c) F.STR_PROG_valid)
          (waits = true → u.svc.mode = .boot ∧ rd u Reg.STR_STATUS = 1 ∧ u.str.boot = some l ∧
            ∀ c, c < 24 → (rd u Reg.CRS_CLUHOLD).toNat.testBit c = (secInst l 2 c).isSome) ∧
          (waits = false → u.svc.mode = .seal_ ∧ rd u Reg.STR_STATUS = 2 ∧ rd u Reg.STR_LEVEL = BitVec.ofNat 48 (imgLevel l))))) ∧
    (∀ c l e, c < 24 → (clu s c).power = .wakingP → s.str.boot = some l → secInst l 2 c = some e →
      ∃ u, exec (.clusterWakeComplete c) s = .next u ∧ (clu u c).power = .run ∧
        flag u (Reg.STR_PROG c) F.STR_PROG_valid = true ∧ (rd u Reg.CRS_CLUHOLD).toNat.testBit c = false) ∧
    (∀ a, knownAgent a = true → (a ≠ svcAgent → ∃ u, exec (.bootSeal a) s = .next u ∧ isSealed u = isSealed s ∧
        CountsBy s u Reg.PRT_CNT F.PRT_CNT_bw 1 ∧ Crossed s u 1794) ∧
      (a = svcAgent → isSealed s = true → exec (.bootSeal a) s = .next s) ∧
      (a = svcAgent → isSealed s = false → ∃ u, exec (.bootSeal a) s = .next u ∧ isSealed u = true ∧ Crossed s u 1792 ∧
        u.svc.mode = (if s.svc.mode = .seal_ then .rtLoad else s.svc.mode))) ∧
    (s.svc.mode ≠ .rtLoad → exec .runtimeStart s = .next s) ∧
    (s.svc.mode = .rtLoad → nlsHead s = none → flag s Reg.SVC_BOOT F.SVC_BOOT_quar = false →
      ∃ u, exec .runtimeStart s = .next u ∧ u.svc.mode = .rt ∧ flag u Reg.SVC_BOOT F.SVC_BOOT_settings_ok = true ∧
        BytesKept s u) ∧
    (s.svc.mode = .rtLoad → (nlsHead s).isSome = true → nlsSchema s < schemaMin s ∨ schemaMax s < nlsSchema s →
      fld s Reg.SVC_BOOT F.SVC_BOOT_slot = 0 → ∃ u, exec .runtimeStart s = .next u ∧ u.svc.mode = .rt ∧
        flag u Reg.SVC_BOOT F.SVC_BOOT_quar = true ∧ Crossed s u 1803 ∧
        flag u Reg.SVC_BOOT F.SVC_BOOT_settings_ok = flag s Reg.SVC_BOOT F.SVC_BOOT_settings_ok)

/-- R550, R551, R553: enabling the ring empties it; a window while no epochs run takes a snapshot, which is lost where
the ring is full or one is being written; a written snapshot stands in its entry, and the write index moves on. R515,
R518, R547, R548: a record is appended at the head where it fits; without room it is refused; while holdup is set it
waits; a failed program or erase leaves a block out of rotation. A rotation, when due and allowed, erases a block that
is not valid and makes it the head. -/
def Obligations.BackgroundRecords : Prop :=
  (∀ (s : State), Canonical s →
    let cfg := Reg.BKG_TRING_CFG
    let wp := fld s Reg.BKG_TRING_WP F.BKG_TRING_WP_index
    let on := flag s cfg F.BKG_TRING_CFG_en
    (∀ v, getF v F.BKG_TRING_CFG_en = 1 → (on = true → exec (.tringEnable v) s = .next s) ∧
      (on = false → ∃ u, exec (.tringEnable v) s = .next u ∧ flag u cfg F.BKG_TRING_CFG_en = true ∧ u.tel = TelS.reset ∧
        fld u cfg F.BKG_TRING_CFG_log2n = Max.max 4 (Min.min 20 (getF v F.BKG_TRING_CFG_log2n)) ∧
        fld u cfg F.BKG_TRING_CFG_stop = getF v F.BKG_TRING_CFG_stop ∧ rd u Reg.BKG_TRING_WP = 0 ∧
        RegsKept s u [cfg, Reg.BKG_TRING_WP] ∧ u = { s with csr := u.csr, tel := u.tel })) ∧
    (epcRun s = true ∨ s.svc.porst = true → exec .aonclkEpochWindow s = .next s) ∧
    (epcRun s = false → s.svc.porst = false → ∃ u, exec .aonclkEpochWindow s = .next u ∧
      u.svc.lastTraffic = s.svc.traffic ∧ u.svc.traffic = false ∧
      (∀ n, n = fld s Reg.SVC_BOOT F.SVC_BOOT_epochs → n < 63 → flag s Reg.SVC_BOOT F.SVC_BOOT_settings_ok = true →
        fld u Reg.SVC_BOOT F.SVC_BOOT_epochs = n + 1) ∧
      (on = false → u.tel = s.tel) ∧
      (on = true → s.tel.writing = none → flag s cfg F.BKG_TRING_CFG_stop = false → ∃ l : List Byte, l.length = 256 ∧
        u.tel = { writing := some (wp % tringN s, l), lost := 0, seq := (s.tel.seq + 1) % 2 ^ 32, jump := false } ∧
        leNat (l.take 8) = (rd s Reg.EPC_NUM).toNat ∧ l.drop 252 = leBytes 4 (crcPlain (l.take 252))) ∧
      (on = true → s.tel.writing.isSome = true → u.tel = { s.tel with seq := (s.tel.seq + 1) % 2 ^ 32, lost := s.tel.lost + 1, jump := false } ∧ CountsBy s u Reg.BKG_TRING_LOST F.BKG_TRING_LOST_count 1 ∧
        (fld s Reg.BKG_TRING_LOST F.BKG_TRING_LOST_count = 0 → Raised s u 1858))) ∧
    (s.tel.writing = none → exec .telemetryWriteComplete s = .next s) ∧
    (∀ e l, s.tel.writing = some (e, l) → l.length = 256 → capturing s = false →
      let a := fld s Reg.BKG_TRING_BASE F.BKG_TRING_BASE_addr * 256 + 256 * e
      (busyIn s a 256 = true → exec .telemetryWriteComplete s = .next s) ∧ (busyIn s a 256 = false → ∃ u, exec .telemetryWriteComplete s = .next u ∧ u.tel = { s.tel with writing := none } ∧
        WrapsBy s u Reg.BKG_TRING_WP F.BKG_TRING_WP_index 1 ∧
        (populated s a = true → populated s (a + 255) = true → (∀ i, i < 4 → retiredAt s (a + 64 * i) = false) →
          rdBytes u.mem a 256 = l)))) ∧
  (∀ (s : State) (typ : Nat) (body : List Byte) (fail : Bool), 1 ≤ typ → typ ≤ 5 → body.length ≤ 1030 →
    let quar := flag s Reg.SVC_BOOT F.SVC_BOOT_quar
    let c := Instr.nelistoreAppend typ body fail
    let n := (nlsBytes (typ, body)).length
    let out (u : State) (b : Nat) : Prop := nlsBad u b = true ∧ Raised s u 1859 ∧ u.svc.flash1 = s.svc.flash1
    let limit := Max.max 1 (fld s Reg.BKG_NLSCFG F.BKG_NLSCFG_max_erase)
    (holdup s = true ∨ (quar = true ∧ typ ≤ 2) → exec c s = .next s) ∧
    (∀ h, nlsHead s = some h → holdup s = false → quar = false ∨ 2 < typ →
      let a := nlsBlock h + (nlsRead s h).2.1
      (headFree s < n → ∃ u, exec c s = .next u ∧ CountsBy s u Reg.BKG_NLSSTAT F.BKG_NLSSTAT_refused 1 ∧
        Raised s u 1860 ∧ u.svc = s.svc ∧ BytesKept s u) ∧
      (n ≤ headFree s → fail = false → flBytes s 0 a n = List.replicate n 0xFF → ∃ u, exec c s = .next u ∧
        flBytes u 0 a n = nlsBytes (typ, body) ∧ (∀ k, k < a ∨ a + n ≤ k → flBytes u 0 k 1 = flBytes s 0 k 1) ∧
        u.svc.flash1 = s.svc.flash1 ∧ BytesKept s u) ∧
      (n ≤ headFree s → fail = true → 4 ≤ (inRotation s).length → ∃ u, exec c s = .next u ∧ out u h ∧
        u.svc.flash0 = s.svc.flash0)) ∧
    (nlsHead s = none ∨ holdup s = true ∨ limit ≤ erasesToday s ∨ 16384 ≤ headFree s →
      exec (.nelistoreRotation fail) s = .next s) ∧
    (∀ h b, nlsHead s = some h → rotVictim s = some b → nlsValid s b = false → holdup s = false → erasesToday s < limit →
      headFree s < 16384 → ∃ u, exec (.nelistoreRotation fail) s = .next u ∧
        CountsBy s u Reg.BKG_NLSSTAT F.BKG_NLSSTAT_erases 1 ∧
        fld u Reg.BKG_NLSSTAT F.BKG_NLSSTAT_today = Min.min 255 (erasesToday s + 1) ∧
        (fail = true → 4 ≤ (inRotation s).length → nlsBad s b = false → out u b ∧ u.svc.flash0 = s.svc.flash0) ∧
        (fail = false → flBytes u 0 (nlsBlock b) 32 = nlsHeader (nlsSeq s h + 1) (nlsSchema s) (nlsGen s) ∧
          flBytes u 0 (nlsBlock b + 32) 65504 = List.replicate 65504 0xFF ∧
          ∀ k, k < nlsBlock b ∨ nlsBlock b + 65536 ≤ k → flBytes u 0 k 1 = flBytes s 0 k 1)))

/-- R519, R520, R526–R530, R538: the commands of SVC_CMD. One written while a command is in progress, or in reset, does
nothing. Commit waits for holdup; a reset leaves the part as PORST_N does; the others need the presence window, which
they close. Which status a refused COMMIT or TAMPER_CLEAR shows where no rule names it is open. R526, R528: the presence
window opens after PRES_N stood low and closes at its timeout; a ROM that waits leaves for Axolotl mode, or boots when
PRES_N returns high. The seal loop steps its LFSR; two mismatches in a row are tamper, and a thousand matches show the
loop sound. -/
def Obligations.ServiceActs : Prop :=
  (∀ (s : State) (k : Nat), k < 256 →
    let rows := [Instr.commit, .rejectSelf, .reset, .ownerSet, .ownerClear, .tamperClear, .revoke k]
    let blocked := s.svc.porst = true ∨ flag s Reg.SVC_CMDSTAT F.SVC_CMDSTAT_busy = true
    let slot := fld s Reg.SVC_BOOT F.SVC_BOOT_slot
    let quar := flag s Reg.SVC_BOOT F.SVC_BOOT_quar
    let opened := windowOpen s = true
    let tclr := fld s Reg.SVC_OTP F.SVC_OTP_tclr
    let keys := fld s Reg.SVC_OTP F.SVC_OTP_keys
    let gone := fld s Reg.SVC_OTP F.SVC_OTP_revoked
    let kept := k ≥ 4 ∨ (slot ≠ 0 ∧ s.svc.key = k) ∨
      (List.range 4).filter (fun i => keys.testBit i && !gone.testBit i) = [k]
    let justEnds (c : Instr) (n status : Nat) : Prop := ∃ u, exec c s = .next u ∧ ended u n status ∧
      RegsKept s u [Reg.SVC_CMDSTAT] ∧ u.svc = s.svc ∧ BytesKept s u
    (blocked → ∀ c ∈ rows, exec c s = .next s) ∧
    (¬blocked →
      (quar = true → s.svc.commitDue = false → ∃ u st, exec .commit s = .next u ∧ 1 ≤ st ∧ st ≤ 0x11 ∧ ended u 1 st ∧ u.svc = s.svc) ∧
      (quar = false → runTrial s = false → s.svc.commitDue = false → justEnds .commit 1 0) ∧
      (quar = false → runTrial s = true → holdup s = true → ∃ u, exec .commit s = .next u ∧
        rd u Reg.SVC_CMDSTAT = BitVec.ofNat 48 (2 ^ 47 + 1 * 256) ∧ u.svc = { s.svc with commitDue := true }) ∧
      (quar = false → runTrial s = true → holdup s = false → ∃ u, exec .commit s = .next u ∧ ended u 1 0 ∧
        flag u Reg.SVC_BOOT F.SVC_BOOT_committed = true ∧ Crossed s u 1802 ∧ u.svc.commitDue = false ∧
        fld s Reg.SVC_OTP F.SVC_OTP_floor ≤ fld u Reg.SVC_OTP F.SVC_OTP_floor) ∧
      (slot = 0 → s.svc.commitDue = false → justEnds .rejectSelf 2 0) ∧
      (slot ≠ 0 → ∃ u, exec .rejectSelf s = .next u ∧ devUp u = false ∧ u.threads = [] ∧ u.mem = State.reset.mem ∧
        u.svc.relAt = s.now) ∧
      (∃ u, exec .reset s = .next u ∧ devUp u = false ∧ u.threads = [] ∧ u.mem = State.reset.mem ∧ u.svc.relAt = s.now ∧
        tampered u = tampered s) ∧
      (s.svc.commitDue = false →
        (¬opened → justEnds .ownerSet 4 0x0D ∧ justEnds .ownerClear 5 0x0D ∧ justEnds .tamperClear 6 0x0D ∧
          justEnds (.revoke k) 7 0x0D) ∧
        (opened → tampered s = true → justEnds .ownerSet 4 0x0C ∧ justEnds .ownerClear 5 0x0C) ∧
        (opened → tampered s = false →
          (∃ u, exec .ownerSet s = .next u ∧ ended u 4 0 ∧ windowTaken u ∧ flag u Reg.SVC_SEC F.SVC_SEC_owner = true) ∧
          (∃ u, exec .ownerClear s = .next u ∧ ended u 5 0 ∧ windowTaken u ∧ flag u Reg.SVC_SEC F.SVC_SEC_owner = false)) ∧
        (opened → tclr = 15 → justEnds .tamperClear 6 0x10) ∧
        (opened → tclr < 15 → flag s Reg.SVC_SEC F.SVC_SEC_loop_ok = false → ∃ u st, exec .tamperClear s = .next u ∧
          1 ≤ st ∧ st ≤ 0x11 ∧ ended u 6 st ∧ tampered u = tampered s ∧ windowOpen u = true) ∧
        (opened → tclr < 15 → flag s Reg.SVC_SEC F.SVC_SEC_loop_ok = true → ∃ u, exec .tamperClear s = .next u ∧
          ended u 6 0 ∧ tampered u = (if s.svc.mismAt = s.now + 1 then tampered s else false) ∧ windowTaken u ∧ fld u Reg.SVC_OTP F.SVC_OTP_tclr = tclr + 1) ∧
        (opened → kept → justEnds (.revoke k) 7 0x11) ∧
        (opened → ¬kept → ∃ u, exec (.revoke k) s = .next u ∧ ended u 7 0 ∧ windowTaken u ∧
          fld u Reg.SVC_OTP F.SVC_OTP_revoked = Nat.lor gone (2 ^ k))))) ∧
  (∀ (s : State) (b : Bool),
    let sec := Reg.SVC_SEC
    let up := s.svc.porst = false
    let l := lfsrNext s.svc.lfsr
    let match_ := l.testBit 0 = b
    let tset := fld s Reg.SVC_OTP F.SVC_OTP_tset
    (¬up → exec .presenceWindowOpen s = .next s ∧ exec (.sealCheck b) s = .next s ∧
      exec .presNHigh s = .next { s with svc := { s.svc with presLow := false } }) ∧
    (up → ∃ u, exec .presenceWindowOpen s = .next u ∧ windowOpen u = true ∧ flag u sec F.SVC_SEC_pres = true ∧
      u.svc.presLow = true ∧ Crossed s u 1799 ∧ BytesKept s u ∧
      u.svc.mode = (if s.svc.mode = .romPres then .axolotl else s.svc.mode)) ∧
    (windowOpen s = false ∨ s.svc.presLow = true → exec .presenceWindowClose s = .next s) ∧
    (windowOpen s = true → s.svc.presLow = false → ∃ u, exec .presenceWindowClose s = .next u ∧ windowOpen u = false ∧
      RegsKept s u [sec] ∧ u = { s with csr := u.csr }) ∧
    (up → ∃ u, exec .presNHigh s = .next u ∧ u.svc.presLow = false ∧ flag u sec F.SVC_SEC_pres = false ∧
      (s.svc.mode ≠ .romPres → u.svc = { s.svc with presLow := false }) ∧
      (s.svc.mode = .romPres → preferred { s with svc := { s.svc with dropped := [] } }
        (candidate { s with svc := { s.svc with dropped := [] } }) = none → u.svc.mode = .axolotl)) ∧
    (up → match_ → ∃ u, exec (.sealCheck b) s = .next u ∧
      u.svc = { s.svc with lfsr := l, mism := 0, same := Min.min 1000 (s.svc.same + 1) } ∧
      (999 ≤ s.svc.same → flag u sec F.SVC_SEC_loop_ok = true) ∧ (s.svc.same < 999 → u.csr = s.csr)) ∧
    (up → ¬match_ → ∃ u, exec (.sealCheck b) s = .next u ∧ u.svc.lfsr = l ∧ u.svc.same = 0 ∧
      u.svc.mism = Min.min 2 (s.svc.mism + 1) ∧ flag u sec F.SVC_SEC_loop_ok = false ∧
      (s.svc.clearAt = s.now + 1 → tampered u = true ∧ fld u Reg.SVC_OTP F.SVC_OTP_tset = tset) ∧
      (s.svc.clearAt ≠ s.now + 1 → s.svc.mism ≠ 1 → tampered u = tampered s ∧ fld u Reg.SVC_OTP F.SVC_OTP_tset = tset) ∧
      (s.svc.clearAt ≠ s.now + 1 → s.svc.mism = 1 → tampered u = true ∧ (tampered s = false → Crossed s u 1795 ∧
        (holdup s = false → fld u Reg.SVC_OTP F.SVC_OTP_tset = Min.min 31 (tset + 1)) ∧
        (holdup s = true → u.svc.owedTset = s.svc.owedTset + 1 ∧ fld u Reg.SVC_OTP F.SVC_OTP_tset = tset)))))
/-! ## Service Image Transfer and the service port -/

namespace Sys2Proof.Machine

/-- A reply leaves on a port: SVC_UPD.last shows its status (R522, R532, R538). -/
def replied (s u : State) (port typ session seq status : Nat) (p : List Byte) : Prop :=
  let l := sitMsg typ session seq status p
  u.outbox = s.outbox ++ [.svc port (if port = 1 then uartFrame l else l)] ∧
  fld u Reg.SVC_UPD F.SVC_UPD_last = status

/-- No session is open, and SVC_UPD shows a state (R523, R538). -/
def sessionOver (u : State) (st : Nat) : Prop :=
  u.svc.sess = none ∧ fld u Reg.SVC_UPD F.SVC_UPD_state = st ∧ fld u Reg.SVC_UPD F.SVC_UPD_session = 0

end Sys2Proof.Machine

/-- R522–R525, R531–R534: HELLO and BEGIN are answered; BEGIN opens a session or is refused; the messages of a session
carry the image to flash, end it, or give it up; one of a session that has expired counts as late, and one of no session
is answered so. Where no transfer is accepted, messages do nothing. Validity is a conclusion's premise: key hashes are
open. R521, R522, R531, R534, R538: a COMMAND runs a command of SVC_CMD and answers its status; Axolotl mode takes no
other than TAMPER_CLEAR, and a command in progress answers BUSY. The service port answers a neighbor solicitation for
its address and an echo request, from a link-local source at hop limit 255. -/
def Obligations.ServiceTransfers : Prop :=
  (∀ (s : State) (port session seq : Nat) (hdr dig l : List Byte) (off : Nat) (fail : Bool), port < 2 → seq < 2 ^ 32 →
    let rows := [Instr.sitHello port seq, .sitBegin port seq hdr dig fail, .sitData port session seq off l fail,
      .sitEnd port session seq fail, .sitAbort port session seq, .sitActivate port session seq, .sitBadMessage port]
    let opened := sitOpen port s = true
    let cnt := Reg.SVC_SITCNT
    let next := fld s Reg.SVC_UPDOFF F.SVC_UPDOFF_next
    let named := [(Instr.sitData port session seq off l fail, 0x83), (.sitEnd port session seq fail, 0x84),
      (.sitAbort port session seq, 0x85)]
    let dataFit := l.length ≤ 1024 ∧ off % 1024 = 0
    let badOne (c : Instr) : Prop := ∃ u, exec c s = .next u ∧ CountsBy s u cnt F.SVC_SITCNT_bad 1 ∧ RegsKept s u [cnt] ∧
      u = { s with csr := u.csr }
    (¬opened → ∀ c ∈ rows, exec c s = .next s) ∧
    (opened →
      badOne (.sitBadMessage port) ∧
      (∃ u p, exec (.sitHello port seq) s = .next u ∧ p.length = 49 ∧ replied s u port 0x81 0 seq 0 p ∧
        p.take 6 = leBytes 6 (rd s Reg.IDN_PART).toNat) ∧
      (hdr.length ≠ 256 ∨ dig.length ≠ 48 → badOne (.sitBegin port seq hdr dig fail)) ∧
      (hdr.length = 256 → dig.length = 48 →
        let st := beginStatus hdr s
        let t := sitTarget s
        (st ≠ 0 → ∃ u, exec (.sitBegin port seq hdr dig fail) s = .next u ∧
          replied s u port 0x82 0 seq st (leBytes 1 t ++ leBytes 1 16) ∧ CountsBy s u cnt F.SVC_SITCNT_refused 1 ∧
          Crossed s u 1801 ∧ u.svc = s.svc) ∧
        (st = 0 → fail = true → ∃ u, exec (.sitBegin port seq hdr dig fail) s = .next u ∧
          replied s u port 0x82 0 seq 0x0E (leBytes 1 t ++ leBytes 1 16) ∧ u.svc.sess = none) ∧
        (st = 0 → fail = false → ∃ u, exec (.sitBegin port seq hdr dig fail) s = .next u ∧
          replied s u port 0x82 0 seq 0 (leBytes 1 t ++ leBytes 1 16) ∧
          u.svc.sess = some { target := t, header := hdr, digest := dig, till := sitTill s } ∧ fld u Reg.SVC_UPD F.SVC_UPD_state = 1 ∧
          fld u Reg.SVC_UPD F.SVC_UPD_target = t % 2 ∧ fld u Reg.SVC_UPDOFF F.SVC_UPDOFF_next = 0 ∧
          u.svc.lastSess ≠ 0 ∧ flBytes u t slotMax 4096 = List.replicate 4096 0xFF)) ∧
      (¬dataFit → badOne (.sitData port session seq off l fail)) ∧
      (s.svc.sess = none ∨ session ≠ s.svc.lastSess → dataFit → ∀ c ∈ named,
        (s.svc.expired.contains session = true → ∃ u, exec c.1 s = .next u ∧ CountsBy s u cnt F.SVC_SITCNT_late 1 ∧
          u = { s with csr := u.csr }) ∧
        (s.svc.expired.contains session = false → ∃ u p, exec c.1 s = .next u ∧ replied s u port c.2 session seq 2 p ∧
          (p = [] ∨ (c.2 = 0x83 ∧ p.length = 8)) ∧ u.svc = s.svc)) ∧
      (∀ x, s.svc.sess = some x → session = s.svc.lastSess → x.target < 2 →
        (dataFit → off ≠ next → ∃ u, exec (.sitData port session seq off l fail) s = .next u ∧
          replied s u port 0x83 session seq 8 (leBytes 8 next) ∧ u.svc = s.svc) ∧
        (dataFit → off = next → l.length ≠ Min.min 1024 (hdrLen x.header - off) ∨ l = [] →
          badOne (.sitData port session seq off l fail)) ∧
        (dataFit → off = next → l.length = Min.min 1024 (hdrLen x.header - off) → l ≠ [] →
          ((holdupRule s).1 = true → ∃ u, exec (.sitData port session seq off l fail) s = .next u ∧
            replied s u port 0x83 session seq 0x0A (leBytes 8 next) ∧ sessionOver u 0 ∧ Crossed s u 1801) ∧
          ((holdupRule s).1 = false → fail = true → ∃ u, exec (.sitData port session seq off l fail) s = .next u ∧
            replied s u port 0x83 session seq 0x0E (leBytes 8 next) ∧ sessionOver u 0) ∧
          ((holdupRule s).1 = false → fail = false → off + l.length < 2 ^ 32 →
            ∃ u, exec (.sitData port session seq off l fail) s = .next u ∧
              replied s u port 0x83 session seq 0 (leBytes 8 (off + l.length)) ∧
              fld u Reg.SVC_UPDOFF F.SVC_UPDOFF_next = off + l.length ∧ u.svc.sess = some { x with till := sitTill s } ∧
              (off % 4096 = 0 ∨ flBytes s x.target off l.length = List.replicate l.length 0xFF →
                flBytes u x.target off l.length = l))) ∧
        (∃ u, exec (.sitEnd port session seq fail) s = .next u ∧ u.svc.sess = none ∧
          ((endStatus x s).1 ≠ 0 → replied s u port 0x84 session seq (endStatus x s).1 [] ∧ sessionOver u 0 ∧
            ((endStatus x s).2 = true → CountsBy s u cnt F.SVC_SITCNT_refused 1 ∧ Crossed s u 1801)) ∧
          ((endStatus x s).1 = 0 → fail = true → replied s u port 0x84 session seq 0x0E [] ∧ sessionOver u 0) ∧
          ((endStatus x s).1 = 0 → fail = false → replied s u port 0x84 session seq 0 [] ∧ sessionOver u 3 ∧
            Crossed s u 1800)) ∧
        (∃ u, exec (.sitAbort port session seq) s = .next u ∧ replied s u port 0x85 session seq 0 [] ∧ sessionOver u 0)) ∧
      (let st := firstFail [tamperCheck s, trafficCheck s, ownerCheck s]
        let ready := fld s Reg.SVC_UPD F.SVC_UPD_state = 3;
        (¬ready → ∃ u, exec (.sitActivate port session seq) s = .next u ∧ replied s u port 0x86 session seq 2 [] ∧
          u.svc = s.svc) ∧
        (ready → st ≠ 0 → ∃ u, exec (.sitActivate port session seq) s = .next u ∧ replied s u port 0x86 session seq st [] ∧
          Crossed s u 1801 ∧ u.svc = s.svc) ∧
        (ready → st = 0 → ∃ u, exec (.sitActivate port session seq) s = .next u ∧ replied s u port 0x86 session seq 0 [] ∧
          u.svc = { s.svc with activated := true }))) ∧
    (s.svc.activated = false → exec .activateReset s = .next s) ∧
    (s.svc.activated = true → ∃ u, exec .activateReset s = .next u ∧ devUp u = false ∧ u.threads = [] ∧
      u.mem = State.reset.mem ∧ u.svc.relAt = s.now ∧ u.outbox = s.outbox) ∧
    (s.svc.sess = none → exec .sessionExpiry s = .next s) ∧
    (∀ x, s.svc.sess = some x → s.now < x.till → exec .sessionExpiry s = .next s) ∧
    (∀ x, s.svc.sess = some x → x.till ≤ s.now → ∃ u, exec .sessionExpiry s = .next u ∧ sessionOver u 0 ∧
      u.svc.expired = s.svc.expired ++ [s.svc.lastSess] ∧ u.svc.flash0 = s.svc.flash0 ∧ u.svc.flash1 = s.svc.flash1)) ∧
  (∀ (s : State) (port session seq c arg : Nat) (src target body : List Byte) (hop : Nat), port < 2 → seq < 2 ^ 32 →
    c < 256 → arg < 256 →
    let row := Instr.sitCommand port session seq c arg
    let opened := sitOpen port s = true
    let busy := flag s Reg.SVC_CMDSTAT F.SVC_CMDSTAT_busy = true
    let heard := sitOpen 0 s = true ∧ isLinkLocal src = true ∧ hop = 255
    (¬opened → exec row s = .next s) ∧
    (opened → axolotl s = true → c ≠ 6 → ∃ u, exec row s = .next u ∧ replied s u port 0x87 session seq 0x11 [] ∧
      u.svc = s.svc) ∧
    (opened → axolotl s = false ∨ c = 6 → busy → ∃ u, exec row s = .next u ∧ replied s u port 0x87 session seq 1 [] ∧
      u.svc = s.svc) ∧
    (opened → axolotl s = false → ¬busy → c = 0 ∨ 7 < c → ∃ u, exec row s = .next u ∧
      replied s u port 0x87 session seq 0 [] ∧ u.svc = s.svc) ∧
    (opened → axolotl s = false ∨ c = 6 → ¬busy → ∀ q, (c, q) ∈ [(1, Instr.commit), (4, .ownerSet), (5, .ownerClear),
        (6, .tamperClear), (7, .revoke arg)] → ∃ w u, exec q s = .next w ∧ exec row s = .next u ∧
      replied w u port 0x87 session seq (fld w Reg.SVC_CMDSTAT F.SVC_CMDSTAT_status) [] ∧ u.svc = w.svc ∧
      RegsKept w u [Reg.SVC_UPD]) ∧
    (opened → axolotl s = false → ¬busy → s.svc.porst = false → c = 3 → ∃ u, exec row s = .next u ∧ devUp u = false ∧
      u.threads = [] ∧ u.mem = State.reset.mem ∧
      u.outbox = s.outbox ++ [.svc port (if port = 1 then uartFrame (sitMsg 0x87 session seq 0 []) else
        sitMsg 0x87 session seq 0 [])]) ∧
    (heard → target = svcAddr s → exec (.neighborSolicitation src target hop) s = .next { s with outbox := s.outbox ++
      [.svc 0 (icmp (svcAddr s) src 136 ([0x60, 0, 0, 0] ++ svcAddr s ++ [2, 1] ++ svcMac s))] }) ∧
    (¬heard ∨ target ≠ svcAddr s → exec (.neighborSolicitation src target hop) s = .next s) ∧
    (heard → exec (.echoRequest src body hop) s = .next { s with outbox := s.outbox ++
      [.svc 0 (icmp (svcAddr s) src 129 body)] }) ∧
    (¬heard → exec (.echoRequest src body hop) s = .next s) ∧
    (let p := Reg.SVC_PORT;
      (s.svc.porst = true ∨ flag s p F.SVC_PORT_up = true ∨ flag s p F.SVC_PORT_half_reset = true →
        exec .svcPortUp s = .next s) ∧
      (s.svc.porst = false → flag s p F.SVC_PORT_up = false → flag s p F.SVC_PORT_half_reset = false →
        ∃ u, exec .svcPortUp s = .next u ∧ flag u p F.SVC_PORT_up = true ∧ Crossed s u 1805 ∧ BytesKept s u)))
/-! ## Registers -/

namespace Sys2Proof.Machine

/-- Registers a read of which gives more than the bits last in effect (R7, R13 and the registers' own chapters). -/
def liveRegs : List RegId :=
  [.CLU_THSTAT, .CLU_LYABANDON, .CLU_PWRSTAT, .SPN_GRPSTAT, .BRG_STORE, .BRG_CHILDSTAT, .BRG_LANE_STAT, .BRG_TURN, .BRG_PASS, .GKO_LOCK,
   .GKO_NOTIFY, .GKO_NOTSTAT, .EVT_PEND, .EVT_OVR, .EVT_SVCQ, .EVT_SVCQSTAT, .HST_PFAULT, .HST_PFSTAT, .HST_MBOXQ,
   .MC_REFLIMIT, .MAC_TXTS, .OBX_TIME_LO, .OBX_TIME_HI, .CRS_PLLSTAT, .CRS_DOMSTAT, .BKG_NLSSTAT]

/-- Registers whose writes only set their RW fields, whatever is written. -/
def plainRegs : List RegId :=
  [.LYC_ALGEN, .SPN_GRPWAKE, .BRG_HOLD, .BRG_LANE_SEL, .BPM_REBUILD, .TBL_LRN_CTL, .TBL_LRN_PORTS0, .TBL_LRN_PORTS1, .TBL_LRN_ACT,
   .EVT_DST, .EVT_WG_M0, .EVT_WG_M1, .EVT_WG_M2, .MC_TRAINCTL, .HST_RXHOLD, .OBX_RTO, .OBX_EXPWIN, .OBX_VCCFG, .EPC_GATE,
   .DST_SEQGAP, .PWR_CHM_CFG, .PWR_LIFE_CFG, .SVC_PRES, .BKG_PSWEEP, .BKG_NLSCFG, .BKG_AUDIT, .BKG_TRING_RP]

end Sys2Proof.Machine

/-- R7, R9, R10, R13, R344, R345, R355, R510–R513, R535, R536: a register access from outside the cores is judged by the
protection map, then by its width and by whether a register stands there and is reachable; a read gives the register's
readable bits, a write sets RW fields, stages SW fields, sets BW fields before BOOT_SEAL and only for the Service Newt, or is
the command its register takes. Function pages hold vectors and mailboxes; HDM decoders hold what is written unless
locked. -/
def Obligations.RegisterAccess : Prop :=
  ∀ (s : State) (off : Nat) (v : Word), off < 2 ^ 32 →
    let a := 0xF000000000 + off
    let answers (c : Instr) (agent status : Nat) (x : Word) : Prop :=
      exec c s = .next { s with outbox := s.outbox ++ [.reg agent status x] }
    let denies (c : Instr) (agent status : Nat) : Prop := ∃ u, exec c s = .next u ∧
      u.outbox = s.outbox ++ [.reg agent status 0] ∧ CountsBy s u Reg.PRT_CNT F.PRT_CNT_denied 1 ∧ Crossed s u 1793 ∧
      BytesKept s u ∧ rd u Reg.PRT_VIOLA = BitVec.ofNat 48 a
    let cls := classOf s (agentId s svcAgent)
    let wSvc := Instr.registerWrite (.csrWrite svcAgent off 8 v.toNat)
    let rSvc := Instr.registerWrite (.csrRead svcAgent off 8)
    let there := off % 8 = 0 ∧ csrUp off s = true
    let told (w u : State) : Prop := u = { w with outbox := w.outbox ++ [.reg svcAgent 0 0] }
    (∀ bus, bmcHeard s bus = false ∨ s.svc.porst = true →
      exec (.bmcRead bus off) s = .next s ∧ exec (.bmcWrite bus off v) s = .next s) ∧
    (∀ bus, bmcHeard s bus = true → s.svc.porst = false → bmcAgent ∈ s.epc.late →
      answers (.bmcRead bus off) bmcAgent 3 0 ∧ answers (.bmcWrite bus off v) bmcAgent 3 0) ∧
    (∀ bus, bmcHeard s bus = true → s.svc.porst = false → bmcAgent ∉ s.epc.late →
      (allowed s 5 a true false = false → denies (.bmcRead bus off) bmcAgent 1) ∧
      (allowed s 5 a false true = false → denies (.bmcWrite bus off v) bmcAgent 1) ∧
      (allowed s 5 a true false = true → ¬there ∨ findReg regTable off = none → answers (.bmcRead bus off) bmcAgent 2 0) ∧
      (allowed s 5 a false true = true → ¬there ∨ findReg regTable off = none → answers (.bmcWrite bus off v) bmcAgent 2 0) ∧
      (∀ r i, findReg regTable off = some (r, i) → there → allowed s 5 a true false = true →
        (absent r.id (i.headD 0) s = true → answers (.bmcRead bus off) bmcAgent 0 0) ∧
        (absent r.id (i.headD 0) s = false → r.id ∉ liveRegs →
          answers (.bmcRead bus off) bmcAgent 0 (rd s off &&& ~~~(BitVec.ofNat 48 r.wo)))) ∧
      (∀ r i, findReg regTable off = some (r, i) → there → allowed s 5 a false true = true → r.id ∈ plainRegs →
        ∃ u, exec (.bmcWrite bus off v) s = .next u ∧ u.outbox = s.outbox ++ [.reg bmcAgent 0 0] ∧ RegsKept s u [off] ∧
          rd u off = (rd s off &&& ~~~(BitVec.ofNat 48 r.rw)) ||| (v &&& BitVec.ofNat 48 r.rw))) ∧
    (allowed s cls a false true = false → denies wSvc svcAgent 3) ∧
    (allowed s cls a true false = false → denies rSvc svcAgent 3) ∧
    (allowed s cls a false true = true → ¬there ∨ findReg regTable off = none → answers wSvc svcAgent 3 0) ∧
    (allowed s cls a false true = true → ∀ n ∈ [1, 2, 4], ∀ x,
      answers (.registerWrite (.csrWrite svcAgent off n x)) svcAgent 3 0) ∧
    (∀ r i, findReg regTable off = some (r, i) → there → allowed s cls a true false = true →
      absent r.id (i.headD 0) s = false → r.id ∉ liveRegs →
      answers rSvc svcAgent 0 (rd s off &&& ~~~(BitVec.ofNat 48 r.wo))) ∧
    (∀ r i, findReg regTable off = some (r, i) → there → allowed s cls a false true = true →
      (r.id ∈ plainRegs → ∃ u, exec wSvc s = .next u ∧ u.outbox = s.outbox ++ [.reg svcAgent 0 0] ∧ RegsKept s u [off] ∧
        u = { s with csr := u.csr, outbox := u.outbox } ∧
        rd u off = (rd s off &&& ~~~(BitVec.ofNat 48 r.rw)) ||| (v &&& BitVec.ofNat 48 r.rw)) ∧
      (r.bw ≠ 0 → off ≠ Reg.CRS_BOOT → isSealed s = false → ∃ u, exec wSvc s = .next u ∧ RegsKept s u [off] ∧
        rd u off = (rd s off &&& ~~~(BitVec.ofNat 48 r.bw)) ||| (v &&& BitVec.ofNat 48 r.bw)) ∧
      (r.bw ≠ 0 → isSealed s = true → ∃ u, exec wSvc s = .next u ∧ rd u off = rd s off ∧
        CountsBy s u Reg.PRT_CNT F.PRT_CNT_bw 1 ∧ Crossed s u 1794) ∧
      (r.bw = 0 → r.sw ≠ 0 → absent r.id (i.headD 0) s = false → mustWait s off true = false →
        ∃ w u, exec (.swRegisterWrite off v) s = .next w ∧ exec wSvc s = .next u ∧ told w u)) ∧
    (∀ e : Nat × Word × Instr, e ∈ [(Reg.STR_STAGE_CMD, (1 : Word), Instr.verify), (Reg.STR_STAGE_CMD, 2, .arm),
        (Reg.STR_STAGE_CMD, 4, .disarm), (Reg.EPC_COMMIT, BitVec.ofNat 48 (2 ^ 17 + 5), .commitRequest 5 false),
        (Reg.EPC_COMMIT, BitVec.ofNat 48 (2 ^ 19), .commitWithdraw), (Reg.EPC_COMMIT, BitVec.ofNat 48 (2 ^ 20), .commitDiscard),
        (Reg.DST_CMD, putF 0 F.DST_CMD_cmd 1, .failover), (Reg.DST_CMD, putF 0 F.DST_CMD_cmd 2, .handover),
        (Reg.DST_CMD, putF 0 F.DST_CMD_cmd 3, .resync), (Reg.CRS_CLURST, 5, .clusterReset 5),
        (Reg.CRS_CLUHOLD, 9, .clusterHoldWrite 9), (Reg.SVC_CMD, putF 0 F.SVC_CMD_cmd 1, .commit),
        (Reg.SVC_CMD, putF 0 F.SVC_CMD_cmd 4, .ownerSet), (Reg.SVC_CMD, putF 0 F.SVC_CMD_cmd 6, .tamperClear),
        (Reg.PWR_VIN, putF 0 F.PWR_VIN_holdup 1, .holdupClear), (Reg.PRT_SEAL, putF 0 F.PRT_SEAL_seal 1, .bootSeal svcAgent)] →
      allowed s cls (0xF000000000 + e.1) false true = true → csrUp e.1 s = true → mustWait s e.1 true = false →
      ∃ w u, exec e.2.2 s = .next w ∧ exec (.registerWrite (.csrWrite svcAgent e.1 8 e.2.1.toNat)) s = .next u ∧ told w u) ∧
    (∀ fn x, 0x1000 ≤ fn → fn < 0x1400 →
      (fnEnabled s fn = false → ∀ o n k, o < 0x10000 → widthOk o n = true → k < 64 →
        ∀ y ∈ [RegAccess.pageWrite fn o n x, .pageRead fn o n, .csrWrite fn o 8 x, .csrRead fn o 8, .hdmWrite fn 0 k x,
          .hdmRead fn 0 k], exec (.registerWrite y) s = .next s) ∧
      (fnEnabled s fn = true → fn ≠ pfOf s (hostLinkOfFn s fn) →
        answers (.registerWrite (.csrRead fn off 8)) fn 2 0 ∧ answers (.registerWrite (.csrWrite fn off 8 x)) fn 2 0) ∧
      (∀ o, fnEnabled s fn = true → 0x1000 ≤ o → o < 0x10F8 → o % 8 = 0 →
        (∃ u, exec (.registerWrite (.pageWrite fn o 8 x)) s = .next u ∧
          (∀ k, k < 8 → Tab.get 0 u.host.mbox (fn * 256 + (o - 0x1000) + k) = (leBytes 8 x).getD k 0) ∧
          u = { s with host := { s.host with mbox := u.host.mbox } }) ∧
        exec (.registerWrite (.pageRead fn o 8)) s = .next { s with outbox := s.outbox ++
          [.bytes fn ((List.range 8).map (fun k => Tab.get 0 s.host.mbox (fn * 256 + (o - 0x1000 + k))))] }) ∧
      (∀ o, o < 256 → o % 8 = 0 →
        (∃ u, exec (.registerWrite (.mailWrite fn o 8 x)) s = .next u ∧
          (∀ k, k < 8 → Tab.get 0 u.host.mbox (fn * 256 + o + k) = (leBytes 8 x).getD k 0) ∧
          u = { s with host := { s.host with mbox := u.host.mbox } }) ∧
        exec (.registerWrite (.mailRead fn o 8)) s = .next { s with outbox := s.outbox ++
          [.bytes svcAgent ((List.range 8).map (fun k => Tab.get 0 s.host.mbox (fn * 256 + o + k)))] }) ∧
      (∀ k, fnEnabled s fn = true → k < 2048 → k < vecCount s fn →
        ∃ u, exec (.registerWrite (.pageWrite fn (0x2000 + 16 * k + 8) 4 x)) s = .next u ∧
          vec u fn k = { vec s fn k with data := x % 2 ^ 32 } ∧ u = { s with host := { s.host with vecs := u.host.vecs } }) ∧
      (∀ ld k i, ld < 16 → k < 4 → i < 4 → ldOwner s fn ld = true →
        let c := hdmDw s ld (8 + 8 * k)
        let cmd := Instr.registerWrite (.hdmWrite fn ld (4 + 8 * k + i) x)
        (c.testBit 8 = true → c.testBit 10 = true → exec cmd s = .next s) ∧
        (c.testBit 8 = false ∨ c.testBit 10 = false → ∃ u, exec cmd s = .next u ∧
          hdmDw u ld (4 + 8 * k + i) = x % 2 ^ 32 ∧ u = { s with host := { s.host with hdm := u.host.hdm } }) ∧
        exec (.registerWrite (.hdmRead fn ld (4 + 8 * k + i))) s = .next { s with outbox := s.outbox ++
          [.bytes fn (leBytes 4 (hdmDw s ld (4 + 8 * k + i)))] })) ∧
    (∀ d, d < 128 → s.svc.porst = false →
      exec (.registerWrite (.setdasa bmcAddr d)) s = .next { s with svc := { s.svc with dynAddr := some d } } ∧
      (s.svc.dynAddr = none → exec (.registerWrite (.entdaa d)) s = .next { s with svc := { s.svc with dynAddr := some d } }))

/-! ## The whole machine -/

/-- One step takes the command at the front of the queue and does it with the rest of the queue; when none waits, one NCLK
passes (the model's choice: assumption 1). -/
def Obligations.StepRunsFront : Prop :=
  ∀ (s : State),
    (∀ c r, s.pending = c :: r → step s = exec c { s with pending := r }) ∧
    (s.pending = [] → ∃ u, step s = .next u ∧ u.now = s.now + 1 ∧ u = { s with now := u.now, clk := u.clk } ∧
      u.clk.dead = s.clk.dead ∧ u.clk.irq = s.clk.irq ∧ ∀ p ∈ u.clk.locked, p ∈ s.clk.locked)

/-- What reset leaves (R10 and the register tables): every register at its reset value; and, by R464, DEV and every cluster
in reset, no thread out of RESET, nothing queued. -/
def Obligations.ResetState : Prop :=
  let z := State.reset
  z.pending = [] ∧ (∀ a, rd z a = resetWord a) ∧ devUp z = false ∧ isSealed z = false ∧ z.ops = [] ∧
    (∀ t, (th z t).state = .reset) ∧ (∀ c, (clu z c).inReset = true ∧ (clu z c).power = .parked) ∧
    (∀ e : Nat × Word, e ∈ [(Reg.STR_LIVE_CTL, 0x10), (Reg.LYC_CAPS, 0x3FF),
      (Reg.LYC_ALGEN, 0x3FF), (Reg.SPN_CTL, 0x4), (Reg.SPN_HSEED, 0x6C1E5A2D), (Reg.SPN_STORE, 0x100002000),
      (Reg.SPN_STORESTAT, 0x800020000), (Reg.SPN_BP_ETH, 0x100008000400), (Reg.SPN_BP_HOST, 0x20001000080),
      (Reg.SPN_BP_FAB, 0x100008000400), (Reg.SPN_POLICY, 0x800C80032), (Reg.BRG_HOLD, 0x4E2), (Reg.BPM_CTL, 0x2),
      (Reg.TBL_CTL, 0x4), (Reg.TBL_LRN_CTL, 0x3E800000020), (Reg.GKO_CTL, 0x61A800004000), (Reg.HST_CTO, 0x2710),
      (Reg.HST_RXHOLD, 0x64), (Reg.OBX_CTL, 0x1E), (Reg.OBX_RTO, 0x271), (Reg.OBX_EXPWIN, 0x100000000000),
      (Reg.OBX_TIME_CTL, 0x2), (Reg.OBX_TIME_STAT, 0x7FF0000000), (Reg.EPC_CTL, 0x1000), (Reg.EPC_PERIOD, 0xFA),
      (Reg.DST_CFG, 0x390000000000), (Reg.DST_HB, 0x64), (Reg.DST_SEQGAP, 0x400000), (Reg.CRS_CLUSTAT, 0xFFFFFF),
      (Reg.PWR_STATE, 0x101), (Reg.PWR_VINSTAT, 0xFFFF00000000), (Reg.PWR_THERM, 0x736400000000),
      (Reg.PWR_CHM_CFG, 0x83E85A280006), (Reg.PWR_LIFE, 0xFFFFFF), (Reg.PWR_LIFE_CFG, 0x2238), (Reg.SVC_PRES, 0x3C),
      (Reg.SVC_UART, 0x1C200), (Reg.PRT_DEFAULT, 0x4F0), (Reg.BKG_CTL, 0x6), (Reg.BKG_SCRUB, 0x18),
      (Reg.BKG_PSWEEP, 0x3E8), (Reg.BKG_NLSCFG, 0x10), (Reg.BKG_AUDIT, 0x64), (Reg.BKG_TRING_CFG, 0xA)] → rd z e.1 = e.2) ∧
    (∀ i j, i < 24 → j < 128 → rd z (Reg.CLU_THSTAT i j) = 0x20000007) ∧
    (∀ i, i < 64 → rd z (Reg.SPN_GRPWAKE i) = 0x100) ∧
    (∀ i, i < 1024 → rd z (Reg.SPN_QLIM i) = 0x2000) ∧
    (∀ i, i < 24 → rd z (Reg.CLU_PWRSTAT i) = 0x2) ∧
    (∀ i, i < 16 → rd z (Reg.BPM_PXON i) = 0x40) ∧
    (∀ i, i < 2048 → rd z (Reg.EVT_CFG i) = 0x80) ∧
    (∀ i, i < 4096 → rd z (Reg.HST_TXQ_CFG i) = 0x60200000000) ∧
    (∀ i, i < 4096 → rd z (Reg.HST_RXQ_CFG i) = 0x60000000000) ∧
    (∀ i, i < 64 → rd z (Reg.MAC_PCFG i) = 0x612000000000) ∧
    (∀ i, i < 64 → rd z (Reg.MAC_PRIMAP i) = 0xFAC688) ∧
    (∀ i, i < 64 → rd z (Reg.MAC_FCQ i) = 0xFFFF) ∧
    (∀ i, i < 8 → rd z (Reg.OBX_VCCFG i) = if i = 6 then 0x60FC else if i = 7 then 0xA0FC else 0x20FC) ∧
    (∀ i, i < 6 → rd z (Reg.PWR_TEMP i) = 0x8000) ∧
    (rd z Reg.IDN_PART = if Config.longLife then 0xAB0A96480200 else 0xAB0A96480100) ∧ fld z Reg.IDN_COMPAT F.IDN_COMPAT_level_min = 1 ∧
    (∀ i, i < 4 → fld z (Reg.PWR_PLAN i) F.PWR_PLAN_bin = 2 ∧ fld z (Reg.PWR_PLAN i) F.PWR_PLAN_vmin = fld z (Reg.PWR_FUSE i) F.PWR_FUSE_vcal) ∧
    (∀ m, m < 12 → rd z (Reg.MC_CTL m) = 0xC) ∧
    (∀ m, m < 12 → rd z (Reg.MC_PDTIMER m) = 0x400) ∧
    (∀ m, m < 12 → rd z (Reg.MC_REFLIMIT m) = 0x88) ∧
    (∀ m, m < 12 → rd z (Reg.MC_TRAINCTL m) = 0x64640A1000) ∧
    (∀ m i, m < 12 → i < 4 → rd z (Reg.MC_RTCFG m i) = 0x400700C0) ∧
    (∀ m i, m < 12 → (if m < 4 then i < 32 else i = 0) → rd z (Reg.MC_UNIT m i) = 0x11)

/-- The canonical form holds at reset. -/
def Obligations.CanonicalAtReset : Prop := Canonical State.reset

/-- Every step keeps the canonical form: registers and memories that read alike are equal data after any command. -/
def Obligations.StepKeepsCanonical : Prop := ∀ s u : State, Canonical s → step s = .next u → Canonical u

/-- Every command that is well-formed has an effect in every state: it answers a next state. One that is not is refused by
name, and nothing faults. -/
def Obligations.WellFormedRuns : Prop :=
  ∀ (c : Instr) (s : State), (wellFormed c = true → ∃ u, exec c s = .next u) ∧
    (wellFormed c = false → exec c s = .refused .illFormed)

/-! ## Completions, row by row -/

/-- R131–R134, R151–R161, R81, R155: each command to a thread, a core or Lyre completes with its own effect, under
conditions on its operands and the state alone. R163–R236: each packet row (arrival, admission, grant, fill, cluster
power, endings, Bridge, departure and buffers) completes with its own effect, under conditions on its operands and the
state alone. -/
def Obligations.CoreRowsComplete : Prop :=
  (∀ (s : State) (t c id : Nat) (v : Word), t < 3072 → c < 24 →
    (∀ o, opOf s id = some o → o.late = false → o.dead = false → (∀ p l q, o.kind ≠ .turn p l q) →
      exec (.asyncTimeout id) s = .next (settle o.thread (expireOp s o))) ∧
    exec (.kill t) s = .next (cmdKill t s) ∧ exec (.killComplete t) s = .next (killFinish t s) ∧
    exec (.restart t) s = .next (cmdRestart t s) ∧
    (∀ pc priv, pc < 2 ^ 18 → priv < 4 → exec (.service t pc priv) s = .next (cmdService t pc priv s)) ∧
    exec (.softint t) s = .next (cmdSoftint t s) ∧ exec (.halt t) s = .next (cmdHalt t s) ∧
    exec (.threadHalted t) s = .next (haltFinish t s) ∧ exec (.resume t) s = .next (cmdResume t s) ∧
    exec (.wake t) s = .next (cmdWake t s) ∧ exec (.coreReset c v) s = .next (coreReset c v s) ∧
    exec (.cluCtlClr c) s = .next (cluCtlClr c s) ∧
    ((th s t).wait = .lyrBusy → exec (.lyrBusyRetry t) s = .next (updTh s t (fun x => { x with wait := .none }))) ∧
    (∀ o l ecc, opOf s id = some o → (clu s (thCluster o.thread)).lyrOps.find? (fun l => l.thread == o.thread) = some l →
      l.id = id → ecc < 4 → ∃ u, exec (.lyreOperationComplete id ecc) s = .next u ∧
        u = complete o (lyrFinish l o.late ecc s).1 (lyrFinish l o.late ecc s).2.1
          (updClu (lyrFinish l o.late ecc s).2.2 (thCluster o.thread)
            (fun x => { x with lyrOps := x.lyrOps.filter (fun y => y.id != id) }))) ∧
    exec (.lyreFlush c v) s = .next (lyrFlush c v s) ∧
    (∀ n, (clu s c).lyrFlush = some n → (clu s c).lyrOps.any (fun o => n == 128 || thNum o.thread == n) = false →
      ∃ u, exec (.lyreFlushComplete c) s = .next u ∧ fld u (Reg.CLU_LYFLUSH c) F.CLU_LYFLUSH_busy = 0 ∧
        (clu u c).lyrFlush = none) ∧
    exec (.cluLyctlClr c) s = .next (lyrClr c s)) ∧
  (∀ (s : State) (c p : Nat), c < 24 → p < 16 →
    (∀ e l corr uncor, e < 64 → portAssigned s e = true → portUp s e = true →
      exec (.frameReceive e l corr uncor) s =
        .next (bpUpdate (frameReceive e l uncor (macSat e 17 uncor (macSat e 16 corr s))))) ∧
    (∀ u d, holdOf s u = some d → canLetIn s d = true → admitTurn s d = true →
      exec (.descriptorAdmit u) s = .next (letIn s d)) ∧
    exec .slotGrant s = .next (grantNclk s) ∧
    (∀ t k ecc d back, t < 3072 → k < 2 → ecc < 4 → slotOf (th s t) k = .filling d back →
      let tile := tileAt (entryAddr d.buf0)
      let r := tileRead s tile ecc
      busyIn s tile 256 = false → r.1.poison = false → r.1.bad = false →
      ∃ d1, exec (.slotFillComplete t k ecc) s = .next (fillSlot t k back d1 (rdBytes r.2.mem tile (min d.len 256)) r.2) ∧
        d1 = { d with flags := putN (putN d.flags flUnchecked flHdrBad 0) flUnchecked flUnchecked (b2n !r.1.sealed) }) ∧
    (standing s = false → exec .wakeRequestScan s = .next (forEach (List.range 64) scanGroup s)) ∧
    (∀ w, (s.spawn.wakes.filter (fun w => !quietBars s w)).head? = some w → w.zero = true → wakeWindowClear s = true →
      exec .wakeStart s = .next (startWake w.cluster s)) ∧
    (∀ w ∈ s.spawn.wakes, w.cluster = c → w.paced = false →
      ∃ u, exec (.wakePaced c) s = .next u ∧ (∀ x ∈ u.spawn.wakes, x.cluster = c → x.paced = true)) ∧
    ((clu s c).power = .wakingG →
      exec (.clusterWakeComplete c) s = .next (wokenTo c (setClu s c { clu s c with power := .run }))) ∧
    ((clu s c).power = .run → quietIdle s c = true → parksDirectly s c = true →
      exec (.clusterGate c) s = .next (cluPower c .parking s)) ∧
    ((clu s c).power = .gated → quietIdle s c = true → parksDirectly s c = true →
      exec (.clusterParkDecision c) s = .next (cluPower c .parking s)) ∧
    ((clu s c).power = .parking → exec (.parkingComplete c) s = .next (parkDone c s)) ∧
    (∀ v, exec (.cluPwrctlWrite c v) s = .next (pwrctlWrite c v s)) ∧ exec .spnCtlClr s = .next (spnClr s) ∧
    (∀ key e r, s.bridge.inbound = (key, e) :: r →
      exec .endingArrival s = .next (bpUpdate (endingArrives key e { s with bridge := { s.bridge with inbound := r } }))) ∧
    exec .laneRetirement s = .next (retireNclk s) ∧
    (∀ l, l < 65536 → exec (.laneHoldExpiry l) s = .next (skipHead l s)) ∧
    (∀ id o ea n sg k d, opOf s id = some o → o.kind = .load ea n sg → k < 4 → regionOf ea = .csr (Reg.BRG_TURN k) →
      o.late = false → (th s o.thread).pkt = some d → ∃ u, exec (.brgTurnRead id) s = .next u ∧
        opOf u id = some { o with kind := .turn k d.lane d.seq }) ∧
    (∀ id o k l q, opOf s id = some o → o.kind = .turn k l q → o.late = false → turnHolds s k l q = true →
      exec (.turnComplete id) s = .next (complete o 0 (turnWord s l q) s)) ∧
    (∀ id o k l q, opOf s id = some o → o.kind = .pass k l q → earlierPass s o = false → laneHolds s l q = true →
      exec (.brgPass id) s = .next (complete o 0 0 (passPoint k l q s))) ∧
    exec .brgCtlClr s = .next (brgClr s) ∧
    (∀ e ecc, e < 64 → ecc < 4 → exec (.ethTransmit e ecc) s = .next (ethTransmit e ecc s)) ∧
    (∀ fn idx a n ecc, 0x1000 ≤ fn → fn < 0x1400 → idx < 256 → 256 ≤ n → n ≤ 65536 → ecc < 4 →
      exec (.hostRxWrite fn idx a n ecc) s = .next (rxWrite fn idx a n ecc s)) ∧
    (∀ vc dev ecc, vc < 8 → dev < 1024 → ecc < 4 → exec (.fabricPktSend vc dev ecc) s = .next (fabricSend vc dev ecc s)) ∧
    exec (.bpmAllocation p) s = .next (allocNclk p s) ∧
    exec (.bpmFree p) s = .next (bpUpdate (freeStep p (freeStep p s))) ∧
    exec (.ringFetchComplete p) s = .next (bpUpdate (ringLand p s)) ∧
    (∀ k, flag s Reg.BPM_CTL F.BPM_CTL_audit_en = true → s.bpm.audit = none → nextAudit s = some k →
      ∃ u, exec .auditStart s = .next u ∧ u.bpm.auditNext = k + 1) ∧
    (∀ a, s.bpm.audit = some a → unitBusy s a.cur = false → ∃ u, exec .auditStep s = .next u ∧
      u = auditAt { a with cur := (ptrRead s a.cur).1, steps := a.steps + 1 } (ptrRead s a.cur).2) ∧
    exec (.rebuildGo p) s = .next (bpUpdate (rebuildGo p s)) ∧
    (∀ ecc, ecc < 3 → exec (.rebuildComplete ecc) s = .next (bpUpdate (rebuildEnd ecc s))) ∧
    exec .bpmCtlClr s = .next (bpmClr s))

/-- R251–R340: each row of Epoch's tables, of Gecko, of the events and of the memory controllers completes with its own
effect, under conditions on its operands and the state alone. R341–R445: each row of the host side, of the Ethernet
ports, of Obrex, of Strum's epochs and live images and of the pair completes with its own effect, under conditions on
its operands and the state alone. -/
def Obligations.MemoryAndLinkRowsComplete : Prop :=
  (∀ (s : State) (m u : Nat) (w : Word), m < 12 →
    let op := getF w F.TBL_CMD_op
    (op = 1 → exec (.tableAdd w) s = .next (tableCommand w s)) ∧ (op = 2 → exec (.tableSet w) s = .next (tableCommand w s)) ∧
    (op = 3 → exec (.tableDelete w) s = .next (tableCommand w s)) ∧
    (op = 4 → exec (.tableFind w) s = .next (tableCommand w s)) ∧
    (op = 5 → exec (.readSlot w) s = .next (tableCommand w s)) ∧
    (op = 6 → exec (.writeSlot w) s = .next (tableCommand w s)) ∧
    (op = 7 → exec (.flush w) s = .next (tableCommand w s)) ∧ (op = 8 → exec (.bulkSet w) s = .next (tableCommand w s)) ∧
    (op = 9 → exec (.pfxAdd w) s = .next (tableCommand w s)) ∧ (op = 10 → exec (.pfxDel w) s = .next (tableCommand w s)) ∧
    (op = 11 → exec (.pfxRead w) s = .next (tableCommand w s)) ∧
    (op = 12 → exec (.pfxFix w) s = .next (tableCommand w s)) ∧
    exec .tblCmdDone s = .next (commandDone s) ∧ exec .relocationStep s = .next (unitRun (stepLands s)) ∧
    exec .learnApply s = .next (learnNext s) ∧
    (∀ k cand, s.tbl.cands[k]? = some cand → 4 * holddownNs s ≤ domNow s - cand.time →
      ∃ v, exec (.candidateExpiry k) s = .next v ∧ v.tbl.cands = s.tbl.cands.eraseIdx k) ∧
    (∀ t, t < 32 → exec (.ageingSweepStep t false) s = .next (candStat (ageStep t s)) ∧
      ∀ b k bad, k < 4 ∨ (8 ≤ k ∧ k < 16) → exec (.paritySweepStep t b k bad false) s = .next (paritySweep t b k bad s)) ∧
    exec .tblCtlClr s = .next (tblClr s) ∧
    (∀ n a, n < 4096 → a < 2 ^ 24 →
      (knownAgent (agentLoc a) = true → localThread? s a = none →
        (bitsN w.toNat 29 28 = 0 → exec (.claim n w a) s = .next (obxPump (gkoCommand n a 0 w s))) ∧
        (bitsN w.toNat 29 28 = 1 → exec (.free n w a) s = .next (obxPump (gkoCommand n a 0 w s))) ∧
        (bitsN w.toNat 29 28 = 2 → exec (.withdraw n w a) s = .next (obxPump (gkoCommand n a 0 w s)))) ∧
      exec (.reservationExpiry n) s = .next (obxPump (gkoLapse n s)) ∧
      exec (.registrationExpiry n a) s = .next (obxPump (gkoExpire n a s))) ∧
    (∀ k a, k < 7 → outside a = true → exec (.notifyRead k a) s = .next (csrReadBy a (Reg.GKO_NOTIFY k) 8 s)) ∧
    exec .gkoCtlClr s = .next (gkoClr s) ∧
    (∀ n, n < 2048 → exec (.eventOccurrence n) s = .next (evOccur n s) ∧
      exec (.eventDelivery n) s = .next (evDeliver n s) ∧ exec (.eventAck n) s = .next (evAck n s)) ∧
    (∀ n, n < 128 → exec (.softwareDoorbell n) s = .next (doorbell n s)) ∧
    exec .svcqRead s = .next (emit (svcqPop s).2 (.reg svcAgent 0 (svcqPop s).1)) ∧
    exec .evtCtlClr s = .next (wr s Reg.EVT_STAT 0) ∧
    (mcUsed s m = true → u < 32 →
      (u < refUnits s m → unitAlive s m (refTrain m u) = true →
        (∀ prog rt, exec (.refreshDue m u prog rt) s = .next (refreshDue m u prog rt s)) ∧
        ∀ rt, exec (.makeupRefresh m u rt) s = .next (makeupRefresh m u rt s)) ∧
      (u < pdUnits s m → exec (.powerDownEntry m u) s = .next (powerDown m u s) ∧ exec (.zqCalibration m u) s = .next s) ∧
      (u < trainUnits m →
        (∀ temp margin, anyPanic s m = false → tempMoved s m u (temp % 256) = true →
          exec (.trackingStep m u temp margin false) s = .next (trackStep m u (temp % 256) margin s)) ∧
        (unitState s m u = 3 → exec (.grant m u) s = .next (retrainStart m u false s) ∧
          exec (.grantWaitExpiry m u) s = .next (retrainStart m u true s)) ∧
        exec (.retrain m u) s = .next (retrainRequest m u 3 s) ∧
        (∀ temp margin, anyPanic s m = false →
          exec (.track m u temp margin) s = .next (trackStep m u (temp % 256) margin s)) ∧
        exec (.retire m u) s = .next (retireCmd m u s) ∧
        (∀ temp ok ck, exec (.retrainingComplete m u temp ok ck) s = .next (trainEnd m u (temp % 256) ok ck s)) ∧
        (unitState s m u = 5 → fld s (Reg.MC_TRAINCTL m) F.MC_TRAINCTL_retry ≠ 0 →
          exec (.degradedRetry m u) s = .next (retrainRequest m u 4 s)))) ∧
    (∀ hot, exec (.trefiChange m hot) s = .next (treFiChange m hot s)) ∧
    (∀ p, p < 4 → exec (.rtPortTake m p) s = .next (rtTake m p s) ∧ exec (.rtReadReturn m p) s = .next (rtReturn m p s)) ∧
    (∀ q, q < 4 → u < 32 → exec (.hbmPurgeComplete q u) s = .next (purgeEnd q u s)) ∧
    (∀ k a ecc, k < 6 → a < 2 ^ 48 → ecc < 3 → exec (.scrubRead k a ecc false) s = .next (scrubRead k a ecc s)) ∧
    exec (.mcCtlClr m) s = .next (mcClr m s)) ∧
  (∀ (s : State) (v : Word),
    (∀ l, l < 16 →
      (∀ cxl flit speed width, cxl < 2 → flit < 2 → 0 < speed → speed ≤ 6 → [1, 2, 4, 8, 16].contains width = true →
        linkPresent s l = true → flag s (Reg.HST_LINK l) F.HST_LINK_up = false →
        flag s (Reg.HST_LINK l) F.HST_LINK_half_reset = false → s.host.perst.contains (l / 4) = true →
        trainingOk s l cxl flit speed width = true →
        exec (.hostLinkUp l cxl flit speed width) s = .next (hostUp l cxl flit speed width s)) ∧
      exec (.hostLinkDown l) s = .next (hostDown l s)) ∧
    (∀ fn, 0x1000 ≤ fn → fn < 0x1400 → fnEnabled s fn = true →
      exec (.functionLevelReset fn) s = .next (fnReset fn s) ∧
      (∀ n, exec (.mailboxRing fn n) s = .next (mboxRing fn (mboxWrite fn 248 (leBytes 8 n) s))) ∧
      ∀ idx tail, idx < 256 → exec (.txDoorbell fn idx tail) s = .next (txDoorbell fn idx (tail % 2 ^ 32) s) ∧
        exec (.rxDoorbell fn idx tail) s = .next (rxDoorbell fn idx (tail % 2 ^ 32) s)) ∧
    (∀ fn idx q d r, 0x1000 ≤ fn → fn < 0x1400 → rxqOf s fn idx = some q → egressQ s (hostDest fn idx) = d :: r →
      (hrx s q).head = (hrx s q).tail → exec (.rxNobufExpiry fn idx) s = .next (rxNoBuf fn idx q d s)) ∧
    (∀ a, outside a = true → exec (.mboxqRead a) s = .next (csrReadBy a Reg.HST_MBOXQ 8 s) ∧
      exec (.pfaultRead a) s = .next (csrReadBy a Reg.HST_PFAULT 8 s) ∧
      ∀ p, p < 64 → exec (.txtsRead p a) s = .next (csrReadBy a (Reg.MAC_TXTS p) 8 s)) ∧
    (∀ q, q < 4096 → (getF v F.HST_TXQ_CFG_en = 1 → exec (.txqEnable q v) s = .next (txqCfgWrite q v s)) ∧
      (∀ k, txqState s q = 1 → (htx s q).fetch = none → 1 ≤ k →
        k ≤ ((htx s q).tail + 2 ^ 32 - txqHead s q) % 2 ^ 32 → txqHeld s q = false →
        linkOutstanding s (hostLinkOfFn s (txqFn s q)) < 1024 → ∃ u, exec (.txFetch q k) s = .next u ∧
          (htx u q).fetch = some { tag := (htx s q).nextTag, k := k, ts := domNow s, descs := none }) ∧
      (∀ tag ds data, exec (.txFetchComplete q tag ds data) s = .next (txComplete q tag
        (ds.map (fun d => { addr := d.1, len := d.2.1, flags := d.2.2.1, rsv := d.2.2.2 })) data s)) ∧
      ∀ tag, exec (.hostCompletionTimeout q tag) s = .next (txTimeout q tag s)) ∧
    (∀ ld a w mask data ecc, ld < 16 → mask < 2 ^ 64 → ecc < 3 →
      exec (.cxlMemRequest ld a w mask data ecc) s = .next (cxlRequest ld a w mask data ecc s)) ∧
    exec .hstCtlClr s = .next (hstClr s) ∧
    (∀ p, p < 64 → (getF v F.MAC_PCFG_en = 1 → exec (.portEnable p v) s = .next (pcfgWrite p 0 none v s)) ∧
      (∀ rx cut, rx < 2 → (getF v F.MAC_PCFG_en = 0 → exec (.portDisable p rx cut v) s = .next (pcfgWrite p rx cut v s)) ∧
        exec (.portLinkLoss p rx cut) s = .next (bpUpdate (portHalf p rx cut false s)) ∧
        exec (.remoteFaultHeld p rx cut) s = .next (bpUpdate (portHalf p rx cut true s))) ∧
      exec (.portUp p) s = .next (portTrained p s) ∧
      (portAssigned s p = true → portUp s p = true → ∀ pfc mask qs,
        exec (.pauseFrameReceive p pfc mask qs) s = .next (pauseReceive p pfc mask qs s)) ∧
      (∀ c, c < 8 → exec (.pauseTimerExpiry p c) s = .next (showPause p (setPause p c 0 s)) ∧
        (s.spawn.asserted.contains (unitEth p c) = true → exec (.pauseRepeat p) s = .next (sendPause p s))) ∧
      exec (.macCtlClr p) s = .next (macClr p s)) ∧
    (∀ l, l < 8 → linkAssigned s l = true →
      (getF v F.OBX_LCFG_en = 1 → exec (.obxLinkEnable l v) s = .next (lcfgWrite l v s)) ∧
      (getF v F.OBX_LCFG_en = 0 → exec (.obxLinkDisable l v) s = .next (lcfgWrite l v s)) ∧
      exec (.obxTrainingComplete l) s = .next (linkTrained l s) ∧
      (linkState s l = 2 ∨ linkState s l = 3 → (olink s l).retry.length < 496 →
        exec (.initFlitSend l) s = .next (sendSeq l { idleFlit with ftype := 4 } s)) ∧
      (linkLive s l = true →
        (∀ seq ack dev tag joined num half, seq < 4096 → ack < 4096 → dev < 1024 → tag < 2 ^ 32 → num < 8 →
          exec (.initReceive l seq ack dev tag joined num half) s =
            .next (obxPump (initArrives l seq ack dev tag joined half s))) ∧
        (∀ b, exec (.flitReceive l b) s = .next (obxPump (takeUnknown (flitArrives l b s)))) ∧
        ((olink s l).nak = true → exec (.nakRepeat l) s = .next (sendNak l s)) ∧
        (∀ f r, (olink s l).retry = f :: r → exec (.replayTimeout l) s = .next (obxPump (replay l f.seq s))) ∧
        exec (.obxLinkLoss l) s = .next (obxPump (linkHalfReset l 6 s))) ∧
      (∀ typ r s1, takeRx s l typ = some (r, s1) → rxWaits s r = false → fromLeft s1 r = false → r.stomp = false →
        (typ = opPkt → exec (.pkt l) s = .next (obxPump (rxPkt r s1))) ∧
        (typ = opRd → exec (.rd l 0) s = .next (obxPump (rxRd 0 r s1))) ∧
        (typ = opWr → exec (.wr l) s = .next (obxPump (rxWr r s1))) ∧
        (typ = opAtom → exec (.atom l 0) s = .next (obxPump (rxAtom 0 r s1))) ∧
        (typ = opLock → exec (.lock l) s = .next (obxPump (rxLock r s1))) ∧
        (typ = opIntr → exec (.intr l) s = .next (obxPump (rxIntr r s1))) ∧
        (typ = opResp → exec (.resp l) s =
          .next (obxPump (takeResp s1 (rxTag r) (bitsN (rxArg r) 7 0) (rxData r)))) ∧
        (typ = opMember → exec (.member l) s = .next (obxPump (rxMember r s1)))) ∧
      (∀ k e, s.obx.noticeIn.find? (fun e => e.1 == l && nKind e.2 == k) = some e →
        let next : Host.Outcome State Fault Refusal :=
          .next (obxPump (takeNotice e.2 l { s with obx := { s.obx with noticeIn := s.obx.noticeIn.erase e } }))
        (k = 1 → exec (.mute l) s = next) ∧ (k = 2 → exec (.unmute l) s = next) ∧ (k = 4 → exec (.join l) s = next) ∧
        (k = 3 → nTarget e.2 ≠ devId s → exec (.leave l) s = next)) ∧
      (linkState s l = 3 ∨ linkState s l = 4 → ∃ u, exec (.timestampSend l) s = .next u) ∧
      (∀ t, (olink s l).tsIn = some t → t.echo = none →
        exec (.timestampReceive l) s = .next (updOlink s l (fun x => { x with tsIn := none })))) ∧
    (∀ tag r, Tab.find? s.obx.reqs tag = some r → r.op = none → r.late = false → ∃ u,
      exec (.obxRequestTimeout tag) s = .next u ∧
        u = obxPump { s with obx := { s.obx with reqs := Tab.put s.obx.reqs tag { r with late := true } } }) ∧
    (bitsN v.toNat 47 44 = 1 → exec (.originateMute v) s = .next (noticeCmd v s)) ∧
    (bitsN v.toNat 47 44 = 2 → exec (.originateUnmute v) s = .next (noticeCmd v s)) ∧
    (bitsN v.toNat 47 44 = 3 → exec (.originateLeave v) s = .next (noticeCmd v s)) ∧
    (bitsN v.toNat 47 44 = 4 → exec (.originateJoin v) s = .next (noticeCmd v s)) ∧
    (∀ k n, k < 64 → Tab.find? s.obx.mutes k = some n → nLife n ≠ 0 →
      exec (.muteExpiry k) s = .next (obxPump (muteEnd k s))) ∧
    (∀ o i, ∃ u, exec (.recentPairExpiry o i) s = .next u ∧ (o, i) ∉ u.obx.recent) ∧
    (getF v F.OBX_ID_joined = 1 → exec (.joinDomain v) s = .next (obxIdWrite v s)) ∧
    (getF v F.OBX_ID_joined = 0 → exec (.leaveDomain v) s = .next (obxIdWrite v s)) ∧
    exec (.timeSet v) s = .next (timeSet v.toNat s) ∧ exec .obxCtlClr s = .next (obxClr s) ∧
    (getF v F.EPC_CTL_run = 1 → exec (.epochRunStart v) s = .next (epcCtlWrite v s)) ∧
    (∀ a, swMask a ≠ 0 → exec (.swRegisterWrite a v) s = .next (swWrite a v s)) ∧
    (∀ n dom, n < 65536 →
      exec (.commitRequest n dom) s = .next (commitWrite (toW (2 ^ 17 + b2n dom * 2 ^ 18 + n)) s)) ∧
    exec .commitWithdraw s = .next (planStage (commitWrite (toW (2 ^ 19)) s)) ∧
    exec .commitDiscard s = .next (planStage (commitWrite (toW (2 ^ 20)) s)) ∧
    (epcRun s = true → (∀ ecc, ecc < 3 → s.epc.phase = 0 →
        exec (.epochCutoff ecc) s = .next (epcCutoff s.epc.next ecc s)) ∧
      (s.epc.phase = 1 → exec .epochDecisionPoint s = .next (epcDecide s.epc.next s)) ∧
      exec .epochBoundary s = .next (boundaryAct s.epc.next (epcCatch s.epc.next 0 s))) ∧
    exec .telemetryWriteComplete s = .next (telWritten s) ∧ exec .epcCtlClr s = .next (wr s Reg.EPC_CNT1 0) ∧
    exec .verify s = .next (stageVerify s) ∧ exec .verifyComplete s = .next (stageVerified s) ∧
    exec .arm s = .next (stageArm s) ∧ exec .preloadComplete s = .next (epcPreloaded s) ∧
    exec .disarm s = .next (stageDisarm s) ∧
    (getF v F.DST_CFG_en = 1 → exec (.pairEnable v) s = .next (dstCfgWrite v s)) ∧
    exec .mirrorSend s = .next (mirrorSend s) ∧ exec .markerSend s = .next (markerSend s) ∧
    exec .markerReceive s = .next (markerReceive s) ∧ exec .heartbeatSend s = .next (heartbeatSend s) ∧
    exec .heartbeatPeriodEnd s = .next (heartbeatPeriodEnd s) ∧
    (dstRole s = 2 → exec .failover s = .next (failover s)) ∧ exec .handover s = .next (dstHandover s) ∧
    exec .handoverComplete s = .next (handoverComplete s) ∧ exec .resync s = .next (startSync s) ∧
    exec .dstCnt1Zero s = .next (wr s Reg.DST_CNT1 0))
/-- R446–R584: each row of the clocks and resets, of power, of boot, of the service port and of the registers completes
with its own effect, under conditions on its operands and the state alone. -/
def Obligations.DeviceRowsComplete : Prop :=
  ∀ (s : State) (v : Word),
    (∀ n, exec (.refclkMonitorWindow n) s = .next (refWindow n s)) ∧
    (∀ p, p < 45 → exec (.pllUnlock p) s = .next (pllUnlock p s) ∧ exec (.pllLock p) s = .next (pllLock p s)) ∧
    (∀ d, d < 227 → exec (.clockStop d) s = .next (clockStop d s)) ∧
    (∀ n, n < 2048 → s.clk.dead = false → exec (.handshakeDelivery n) s = .next (xingDeliver s n)) ∧
    (∀ c, c < 25 → exec (.fifoCrossingDelivery c) s = .next (fifoDeliver c s)) ∧
    exec .porstNAssert s = .next (partReset false { s with svc := { s.svc with porstN := false } }) ∧
    exec (.porstNRelease false) s =
      .next (svcRelease { s with svc := { s.svc with presLow := false, porstN := true } }) ∧
    exec .romHoldupTimeout s = .next (romTimeout s) ∧
    (isSealed s = false → exec (.devRelease svcAgent) s = .next (devRelease s)) ∧
    exec (.clusterReset v) s = .next (cluRst v s) ∧ exec (.clusterHoldWrite v) s = .next (cluHoldWrite v s) ∧
    (∀ c, c < 24 → exec (.clusterResetRelease c) s = .next (cluRelease c s)) ∧
    (∀ k n, (k < 5 → exec (.halfResetTrigger k n) s = .next (halfTrigger k n s)) ∧
      (k < 4 → exec (.halfResetRearm k n) s = .next (halfRearm k n s))) ∧
    exec .crsCtlClr s = .next (crsClr s) ∧
    (∀ mv a w, mv < 65536 → a < 65536 → w < 65536 →
      exec (.vinSample mv a w) s = .next (svcRelease (vinSample mv a w s))) ∧
    (∀ b, exec (.holdupOkChange b) s = .next (hokChange b s)) ∧ exec .holdupClear s = .next (holdupClear s) ∧
    (∀ a b c d e f, a < 256 → b < 256 → c < 256 → d < 256 → e < 256 → f < 256 → s.svc.porst = false →
      exec (.tempSample a b c d e f) s = .next (tempSample [a, b, c, d, e, f] s)) ∧
    exec .thermalTrip s = .next (thermalTrip s) ∧
    (getF v F.PWR_STATE_req ≠ 3 → exec (.powerStateRequest v) s = .next (pwrStateWrite v s)) ∧
    (getF v F.PWR_STATE_req = 3 → exec (.standbyRequest v) s = .next (pwrStateWrite v s)) ∧
    exec .standbyDrained s = .next (standbyDrained s) ∧ exec .standbyAbort s = .next (standbyAbort s) ∧
    exec .standbyExitComplete s = .next (standbyExit s) ∧
    (∀ ros reps, ros.length = 96 → reps.length = 48 →
      exec (.chameleonSample ros reps false) s = .next (chmSample ros reps s)) ∧
    exec .chameleonRecordDaily s = .next (chmRecord s) ∧ exec .pwrCtlClr s = .next (pwrClr s) ∧
    (∀ out, out.all (fun e => e.2.2 == 5 || e.2.2 == 6) = true → exec (.bootCodeStart out) s = .next (bootCode out s)) ∧
    (∀ a, knownAgent a = true → exec (.bootSeal a) s = .next (bootSeal a s)) ∧
    (s.svc.mode = .rtLoad → exec .runtimeStart s = .next (runtimeStart s)) ∧
    (∀ typ body fail, 0 < typ → typ ≤ 5 → body.length ≤ 1030 →
      exec (.nelistoreAppend typ body fail) s = .next (nlsAppend (typ, body) fail s)) ∧
    (∀ fail, exec (.nelistoreRotation fail) s = .next (nlsRotate fail s)) ∧
    exec .commit s = .next (svcCmd 1 0 s) ∧ exec .rejectSelf s = .next (svcCmd 2 0 s) ∧
    exec .reset s = .next (svcCmd 3 0 s) ∧ exec .ownerSet s = .next (svcCmd 4 0 s) ∧
    exec .ownerClear s = .next (svcCmd 5 0 s) ∧ exec .tamperClear s = .next (svcCmd 6 0 s) ∧
    (∀ k, k < 256 → exec (.revoke k) s = .next (svcCmd 7 k s)) ∧
    (∀ port seq, port ≤ 1 → seq < 2 ^ 32 → sitOpen port s = true →
      exec (.sitHello port seq) s = .next (helloReply ⟨port, 0, seq⟩ s) ∧
      (∀ hdr dig fail, hdr.length = 256 → dig.length = 48 →
        exec (.sitBegin port seq hdr dig fail) s = .next (sitBegin ⟨port, 0, seq⟩ hdr dig fail s)) ∧
      (∀ x, exec (.sitActivate port x seq) s = .next (sitActivate ⟨port, x, seq⟩ s)) ∧
      (∀ x c a, c < 256 → a < 256 → exec (.sitCommand port x seq c a) s = .next (sitCommand ⟨port, x, seq⟩ c a s)) ∧
      exec (.sitBadMessage port) s = .next (sitBad s) ∧
      ∀ ss, s.svc.sess = some ss →
        let m : SitFrom := ⟨port, s.svc.lastSess, seq⟩
        (∀ off l fail, l.length ≤ 1024 → off % 1024 = 0 →
          exec (.sitData port m.session seq off l fail) s = .next (sitData m off l fail ss s)) ∧
        (∀ fail, exec (.sitEnd port m.session seq fail) s = .next (sitEnd m fail ss s)) ∧
        exec (.sitAbort port m.session seq) s = .next (sitReply m 0x85 0 [] (sitClose 0 s))) ∧
    (s.svc.activated = true → exec .activateReset s = .next (svcReset s)) ∧
    exec .sessionExpiry s = .next (sitExpire s) ∧
    (∀ src target hop, exec (.neighborSolicitation src target hop) s = .next (svcAnswer src hop (target == svcAddr s) 136
      ([0x60, 0, 0, 0] ++ svcAddr s ++ [2, 1] ++ svcMac s) s)) ∧
    (∀ src body hop, exec (.echoRequest src body hop) s = .next (svcAnswer src hop true 129 body s)) ∧
    exec .presenceWindowOpen s = .next (presenceOpen s) ∧
    (windowOpen s = true → s.svc.presLow = false → exec .presenceWindowClose s = .next (closeWindow s)) ∧
    (∀ b, exec (.sealCheck b) s = .next (sealCheck b s)) ∧
    (∀ bus off, off < 2 ^ 32 → bmcHeard s bus = true →
      exec (.bmcRead bus off) s = .next (csrReadBy bmcAgent off 8 s) ∧
      exec (.bmcWrite bus off v) s = .next (csrWriteBy bmcAgent off 8 v s)) ∧
    exec .svcCtlClr s = .next (svcClr s) ∧
    (getF v F.BKG_TRING_CFG_en = 1 → exec (.tringEnable v) s = .next (tringWrite v s)) ∧
    exec .bkgCtlClr s = .next (bkgClr s) ∧
    (∀ loc off n x, accessOk (.csrWrite loc off n x) = true →
      exec (.registerWrite (.csrWrite loc off n x)) s = .next (csrWriteBy loc off n (toW x) s)) ∧
    (s.svc.vaon = false → ∃ u, exec .vaonPowerUp s = .next u ∧ u.svc.vaon = true ∧ flag u Reg.PWR_RSTCAUSE F.PWR_RSTCAUSE_por = true) ∧
    (∃ u, exec .vaonPowerLoss s = .next u ∧ u.svc.vaon = false ∧ u.pwr = PwrS.reset) ∧
    (s.svc.porst = false → exec .presNHigh s = .next (presenceHigh s)) ∧
    (∀ p, p < 4 → ∃ u, exec (.perstpNRelease p) s = .next u ∧ u.host.perst.contains p = true) ∧
    (s.svc.porst = false → flag s Reg.SVC_PORT F.SVC_PORT_up = false → flag s Reg.SVC_PORT F.SVC_PORT_half_reset = false →
      exec .svcPortUp s = .next (raise (setFld s Reg.SVC_PORT F.SVC_PORT_up 1) 1805)) ∧
    (epcRun s = false → s.svc.porst = false → exec .aonclkEpochWindow s = .next (telCapture true (svcEpoch s))) ∧
    (∀ l op, l < 16 → op < 0x10000 → flag s (Reg.HST_LINK l) F.HST_LINK_up = true →
      flag s (Reg.HST_LINK l) F.HST_LINK_cxl = true → exec (.cxlMailboxCommand l op) s = .next (cxlCommand l op s)) ∧
    (∀ t, t < 3072 → (∀ w, runOp (iOpcode w) = none →
        exec (.unassignedOpcode t w) s = .next (issue s t w true false {} (fun s => s))) ∧
      (ready s t = true → (th s t).pc = 262140 → exec (.pcRangeFetch t) s = .next (trapAt s t 0x0C 0 0x3FFFC)))
end

