-- ==== Sys2Proof/Laws/Bits.lean ====
section
/-! SUPPORT. Laws of bit fields, byte lists and sparse tables: read after write, and the canonical form. -/

namespace Sys2Proof.Machine

/-! ## Sparse tables -/

section Tables

variable {α : Type}

theorem Tab.get_del_same (d : α) (t : Tab α) (i : Nat) : Tab.get d (Tab.del i t) i = d := by
  induction t with
  | nil => rfl
  | cons e r ih =>
    obtain ⟨k, w⟩ := e
    by_cases h : k = i
    · simp [Tab.del, h, ih]
    · simp [Tab.del, h, Tab.get, ih]

theorem Tab.get_del_ne (d : α) (t : Tab α) {i j : Nat} (h : j ≠ i) : Tab.get d (Tab.del i t) j = Tab.get d t j := by
  induction t with
  | nil => rfl
  | cons e r ih =>
    obtain ⟨k, w⟩ := e
    by_cases hk : k = i
    · subst hk; simp [Tab.del, Tab.get, ih, Ne.symm h]
    · simp only [Tab.del, hk, if_false, Tab.get, ih]

theorem Tab.get_ins_same (d v : α) (t : Tab α) (i : Nat) (h : ∀ e ∈ t, e.1 ≠ i) : Tab.get d (Tab.ins i v t) i = v := by
  induction t with
  | nil => simp [Tab.ins, Tab.get]
  | cons e r ih =>
    obtain ⟨k, w⟩ := e
    have hk : k ≠ i := h (k, w) (by simp)
    by_cases hlt : i < k
    · simp [Tab.ins, hlt, Tab.get]
    · simp only [Tab.ins, hlt, if_false, Tab.get, hk]
      exact ih (fun e he => h e (by simp [he]))

theorem Tab.get_ins_ne (d v : α) (t : Tab α) {i j : Nat} (h : j ≠ i) : Tab.get d (Tab.ins i v t) j = Tab.get d t j := by
  induction t with
  | nil => simp [Tab.ins, Tab.get, Ne.symm h]
  | cons e r ih =>
    obtain ⟨k, w⟩ := e
    by_cases hlt : i < k
    · simp [Tab.ins, hlt, Tab.get, Ne.symm h]
    · simp only [Tab.ins, hlt, if_false, Tab.get, ih]

theorem Tab.del_no_key (t : Tab α) (i : Nat) : ∀ e ∈ Tab.del i t, e.1 ≠ i := by
  induction t with
  | nil => simp [Tab.del]
  | cons e r ih =>
    obtain ⟨k, w⟩ := e
    by_cases h : k = i
    · simpa [Tab.del, h] using ih
    · intro e he
      simp only [Tab.del, h, if_false, List.mem_cons] at he
      rcases he with rfl | he
      · exact h
      · exact ih e he

theorem Tab.del_of_no_key (t : Tab α) (i : Nat) (h : ∀ e ∈ t, e.1 ≠ i) : Tab.del i t = t := by
  induction t with
  | nil => rfl
  | cons e r ih =>
    obtain ⟨k, w⟩ := e
    have hk : k ≠ i := h (k, w) (by simp)
    simp only [Tab.del, hk, if_false]
    rw [ih (fun e he => h e (by simp [he]))]

theorem Tab.del_ins (t : Tab α) (i : Nat) (v : α) (h : ∀ e ∈ t, e.1 ≠ i) : Tab.del i (Tab.ins i v t) = t := by
  induction t with
  | nil => simp [Tab.ins, Tab.del]
  | cons e r ih =>
    obtain ⟨k, w⟩ := e
    have hk : k ≠ i := h (k, w) (by simp)
    have hr : ∀ e ∈ r, e.1 ≠ i := fun e he => h e (by simp [he])
    by_cases hlt : i < k
    · simp [Tab.ins, hlt, Tab.del, hk, Tab.del_of_no_key r i hr]
    · simp [Tab.ins, hlt, Tab.del, hk, ih hr]

@[simp] theorem Tab.get_set_same [DecidableEq α] (d v : α) (t : Tab α) (i : Nat) : Tab.get d (Tab.set d t i v) i = v := by
  unfold Tab.set
  by_cases h : v = d
  · rw [if_pos h, Tab.get_del_same, h]
  · rw [if_neg h, Tab.get_ins_same d v _ i (Tab.del_no_key t i)]

theorem Tab.get_set_ne [DecidableEq α] (d v : α) (t : Tab α) {i j : Nat} (h : j ≠ i) :
    Tab.get d (Tab.set d t i v) j = Tab.get d t j := by
  unfold Tab.set
  by_cases hv : v = d
  · rw [if_pos hv, Tab.get_del_ne d t h]
  · rw [if_neg hv, Tab.get_ins_ne d v _ h, Tab.get_del_ne d t h]

theorem Tab.get_set [DecidableEq α] (d v : α) (t : Tab α) (i j : Nat) :
    Tab.get d (Tab.set d t i v) j = if j = i then v else Tab.get d t j := by
  by_cases h : j = i
  · subst h; simp
  · rw [if_neg h, Tab.get_set_ne d v t h]

@[simp] theorem Tab.set_set [DecidableEq α] (d v w : α) (t : Tab α) (i : Nat) :
    Tab.set d (Tab.set d t i v) i w = Tab.set d t i w := by
  have key : Tab.del i (Tab.set d t i v) = Tab.del i t := by
    unfold Tab.set
    by_cases h : v = d
    · rw [if_pos h, Tab.del_of_no_key _ i (Tab.del_no_key t i)]
    · rw [if_neg h, Tab.del_ins _ i v (Tab.del_no_key t i)]
  show (if w = d then Tab.del i (Tab.set d t i v) else Tab.ins i w (Tab.del i (Tab.set d t i v))) = _
  rw [key]
  rfl

/-- Presence, as `Tab.find?` tells it, follows the same laws. -/
theorem Tab.find?_del_same (t : Tab α) (i : Nat) : Tab.find? (Tab.del i t) i = none := by
  induction t with
  | nil => rfl
  | cons e r ih =>
    obtain ⟨k, w⟩ := e
    by_cases h : k = i <;> simp [Tab.del, h, Tab.find?, ih]

theorem Tab.find?_del_ne (t : Tab α) {i j : Nat} (h : j ≠ i) : Tab.find? (Tab.del i t) j = Tab.find? t j := by
  induction t with
  | nil => rfl
  | cons e r ih =>
    obtain ⟨k, w⟩ := e
    by_cases hk : k = i
    · subst hk; simp [Tab.del, Tab.find?, ih, Ne.symm h]
    · simp only [Tab.del, hk, if_false, Tab.find?, ih]

theorem Tab.find?_ins_same (v : α) (t : Tab α) (i : Nat) (h : ∀ e ∈ t, e.1 ≠ i) : Tab.find? (Tab.ins i v t) i = some v := by
  induction t with
  | nil => simp [Tab.ins, Tab.find?]
  | cons e r ih =>
    obtain ⟨k, w⟩ := e
    have hk : k ≠ i := h (k, w) (by simp)
    by_cases hlt : i < k
    · simp [Tab.ins, hlt, Tab.find?]
    · simp only [Tab.ins, hlt, if_false, Tab.find?, hk]
      exact ih (fun e he => h e (by simp [he]))

theorem Tab.find?_ins_ne (v : α) (t : Tab α) {i j : Nat} (h : j ≠ i) : Tab.find? (Tab.ins i v t) j = Tab.find? t j := by
  induction t with
  | nil => simp [Tab.ins, Tab.find?, Ne.symm h]
  | cons e r ih =>
    obtain ⟨k, w⟩ := e
    by_cases hlt : i < k
    · simp [Tab.ins, hlt, Tab.find?, Ne.symm h]
    · simp only [Tab.ins, hlt, if_false, Tab.find?, ih]

@[simp] theorem Tab.find?_put_same (v : α) (t : Tab α) (i : Nat) : Tab.find? (Tab.put t i v) i = some v :=
  Tab.find?_ins_same v _ i (Tab.del_no_key t i)

theorem Tab.find?_put_ne (v : α) (t : Tab α) {i j : Nat} (h : j ≠ i) : Tab.find? (Tab.put t i v) j = Tab.find? t j := by
  unfold Tab.put
  rw [Tab.find?_ins_ne v _ h, Tab.find?_del_ne t h]

/-! ## The canonical form -/

/-- Keys rise strictly: the form `Tab.wf` adds to it that no entry is the default. -/
theorem Tab.wf_iff [DecidableEq α] (d : α) (t : Tab α) :
    Tab.wf d t = true ↔ (t.map (fun e => e.1)).Pairwise (· < ·) ∧ ∀ e ∈ t, e.2 ≠ d := by
  induction t with
  | nil => simp [Tab.wf]
  | cons e r ih =>
    obtain ⟨k, v⟩ := e
    cases r with
    | nil => simp [Tab.wf]
    | cons e' r' =>
      obtain ⟨k', v'⟩ := e'
      have hw : Tab.wf d ((k, v) :: (k', v') :: r') = true ↔ (k < k' ∧ v ≠ d) ∧ Tab.wf d ((k', v') :: r') = true := by
        simp [Tab.wf]
      rw [hw, ih]
      constructor
      · intro ⟨⟨hk, hv⟩, h1, h2⟩
        refine ⟨List.pairwise_cons.2 ⟨?_, h1⟩, fun e he => ?_⟩
        · intro a ha
          rcases List.mem_cons.1 ha with h | h
          · rw [h]; exact hk
          · exact lt_trans hk ((List.pairwise_cons.1 h1).1 a h)
        · rcases List.mem_cons.1 he with h | h
          · rw [h]; exact hv
          · exact h2 e h
      · intro ⟨h1, h2⟩
        have h3 := List.pairwise_cons.1 h1
        exact ⟨⟨h3.1 k' (by simp), h2 (k, v) (by simp)⟩, h3.2, fun e he => h2 e (List.mem_cons_of_mem _ he)⟩

theorem Tab.mem_del (t : Tab α) (i : Nat) (e : Nat × α) : e ∈ Tab.del i t ↔ e ∈ t ∧ e.1 ≠ i := by
  induction t with
  | nil => simp [Tab.del]
  | cons a r ih =>
    obtain ⟨k, w⟩ := a
    by_cases h : k = i
    · subst h
      simp only [Tab.del, if_true, ih, List.mem_cons]
      constructor
      · rintro ⟨h1, h2⟩; exact ⟨Or.inr h1, h2⟩
      · rintro ⟨rfl | h1, h2⟩
        · exact absurd rfl h2
        · exact ⟨h1, h2⟩
    · simp only [Tab.del, h, if_false, List.mem_cons, ih]
      constructor
      · rintro (rfl | ⟨h1, h2⟩)
        · exact ⟨Or.inl rfl, h⟩
        · exact ⟨Or.inr h1, h2⟩
      · rintro ⟨rfl | h1, h2⟩
        · exact Or.inl rfl
        · exact Or.inr ⟨h1, h2⟩

theorem Tab.mem_ins (t : Tab α) (i : Nat) (v : α) (e : Nat × α) : e ∈ Tab.ins i v t ↔ e = (i, v) ∨ e ∈ t := by
  induction t with
  | nil => simp [Tab.ins]
  | cons a r ih =>
    obtain ⟨k, w⟩ := a
    by_cases h : i < k
    · simp [Tab.ins, h]
    · simp only [Tab.ins, h, if_false, List.mem_cons, ih]
      tauto

theorem Tab.keys_del (t : Tab α) (i : Nat) (h : (t.map (fun e => e.1)).Pairwise (· < ·)) :
    ((Tab.del i t).map (fun e => e.1)).Pairwise (· < ·) := by
  induction t with
  | nil => simp [Tab.del]
  | cons a r ih =>
    obtain ⟨k, w⟩ := a
    simp only [List.map_cons, List.pairwise_cons] at h
    by_cases hk : k = i
    · simpa [Tab.del, hk] using ih h.2
    · simp only [Tab.del, hk, if_false, List.map_cons, List.pairwise_cons]
      refine ⟨?_, ih h.2⟩
      intro x hx
      obtain ⟨e, he, rfl⟩ := List.mem_map.1 hx
      exact h.1 _ (List.mem_map.2 ⟨e, ((Tab.mem_del r i e).1 he).1, rfl⟩)

theorem Tab.keys_ins (t : Tab α) (i : Nat) (v : α) (h : (t.map (fun e => e.1)).Pairwise (· < ·))
    (hi : ∀ e ∈ t, e.1 ≠ i) : ((Tab.ins i v t).map (fun e => e.1)).Pairwise (· < ·) := by
  induction t with
  | nil => simp [Tab.ins]
  | cons a r ih =>
    obtain ⟨k, w⟩ := a
    have hk : k ≠ i := hi (k, w) (by simp)
    by_cases hlt : i < k
    · simp only [Tab.ins, hlt, if_true, List.map_cons, List.pairwise_cons]
      simp only [List.map_cons, List.pairwise_cons] at h
      refine ⟨?_, h⟩
      intro x hx
      rcases List.mem_cons.1 hx with rfl | hx
      · exact hlt
      · exact lt_trans hlt (h.1 x hx)
    · simp only [List.map_cons, List.pairwise_cons] at h
      simp only [Tab.ins, hlt, if_false, List.map_cons, List.pairwise_cons]
      refine ⟨?_, ih h.2 (fun e he => hi e (by simp [he]))⟩
      intro x hx
      obtain ⟨e, he, rfl⟩ := List.mem_map.1 hx
      rcases (Tab.mem_ins r i v e).1 he with rfl | he
      · dsimp; omega
      · exact h.1 _ (List.mem_map.2 ⟨e, he, rfl⟩)

/-- Setting a key keeps the canonical form. -/
theorem Tab.wf_set [DecidableEq α] (d v : α) (t : Tab α) (i : Nat) (h : Tab.wf d t = true) :
    Tab.wf d (Tab.set d t i v) = true := by
  rw [Tab.wf_iff] at h ⊢
  unfold Tab.set
  by_cases hv : v = d
  · rw [if_pos hv]
    exact ⟨Tab.keys_del t i h.1, fun e he => h.2 e ((Tab.mem_del t i e).1 he).1⟩
  · rw [if_neg hv]
    refine ⟨Tab.keys_ins _ i v (Tab.keys_del t i h.1) (Tab.del_no_key t i), ?_⟩
    intro e he
    rcases (Tab.mem_ins _ i v e).1 he with rfl | he
    · exact hv
    · exact h.2 e ((Tab.mem_del t i e).1 he).1

end Tables

/-! ## Fields of numbers and words -/

/-- A bit of a number with a field replaced. -/
theorem testBit_putN (n hi lo v i : Nat) :
    (putN n hi lo v).testBit i = if lo ≤ i ∧ i ≤ hi then v.testBit (i - lo) else n.testBit i := by
  unfold putN bitsN
  generalize hm : hi + 1 - lo = m
  have hn : n = 2 ^ lo * (n >>> lo) + n % 2 ^ lo := by
    rw [Nat.shiftRight_eq_div_pow]; exact (Nat.div_add_mod n (2 ^ lo)).symm
  have hq : n >>> lo = 2 ^ m * (n >>> lo / 2 ^ m) + n >>> lo % 2 ^ m := (Nat.div_add_mod _ _).symm
  have key : n - n >>> lo % 2 ^ m * 2 ^ lo + v % 2 ^ m * 2 ^ lo
      = 2 ^ lo * (2 ^ m * (n >>> lo / 2 ^ m) + v % 2 ^ m) + n % 2 ^ lo := by
    have e : n = 2 ^ lo * (2 ^ m * (n >>> lo / 2 ^ m)) + 2 ^ lo * (n >>> lo % 2 ^ m) + n % 2 ^ lo := by
      rw [← Nat.mul_add, ← hq]; exact hn
    rw [Nat.mul_add, Nat.mul_comm (n >>> lo % 2 ^ m), Nat.mul_comm (v % 2 ^ m)]
    omega
  rw [key, Nat.testBit_two_pow_mul_add _ (Nat.mod_lt _ (Nat.two_pow_pos lo)),
    Nat.testBit_two_pow_mul_add _ (Nat.mod_lt _ (Nat.two_pow_pos m))]
  by_cases h1 : i < lo
  · rw [if_pos h1, if_neg (by omega), Nat.testBit_mod_two_pow]; simp [h1]
  · rw [if_neg h1]
    by_cases h2 : i - lo < m
    · rw [if_pos h2, if_pos (by omega), Nat.testBit_mod_two_pow]; simp [h2]
    · rw [if_neg h2, if_neg (by omega), ← Nat.shiftRight_eq_div_pow, Nat.testBit_shiftRight, Nat.testBit_shiftRight]
      congr 1; omega

theorem testBit_bitsN (n hi lo i : Nat) : (bitsN n hi lo).testBit i = (decide (i < hi + 1 - lo) && n.testBit (lo + i)) := by
  unfold bitsN
  rw [Nat.testBit_mod_two_pow, Nat.testBit_shiftRight]

/-- A field replaced reads as the value given, cut to the field's width. -/
theorem bitsN_putN (n hi lo v : Nat) : bitsN (putN n hi lo v) hi lo = v % 2 ^ (hi + 1 - lo) := by
  apply Nat.eq_of_testBit_eq
  intro i
  rw [testBit_bitsN, testBit_putN, Nat.testBit_mod_two_pow]
  by_cases h : i < hi + 1 - lo
  · rw [if_pos (by omega), Nat.add_sub_cancel_left]
  · simp [h]

/-- A field apart from the one replaced reads as before. -/
theorem bitsN_putN_ne (n hi lo v hi' lo' : Nat) (h : hi' < lo ∨ hi < lo') :
    bitsN (putN n hi lo v) hi' lo' = bitsN n hi' lo' := by
  apply Nat.eq_of_testBit_eq
  intro i
  rw [testBit_bitsN, testBit_bitsN, testBit_putN]
  by_cases h' : i < hi' + 1 - lo'
  · rw [if_neg (by omega)]
  · simp [h']

theorem putN_lt (n hi lo v : Nat) (hn : n < 2 ^ 48) (hh : hi < 48) : putN n hi lo v < 2 ^ 48 := by
  apply Nat.lt_pow_two_of_testBit
  intro i hi'
  rw [testBit_putN, if_neg (by omega)]
  exact Nat.testBit_lt_two_pow (lt_of_lt_of_le hn (Nat.pow_le_pow_right (by decide) hi'))

/-- A field of a word replaced reads as the value given, cut to the field's width. -/
theorem getF_putF (w : BitVec 48) (f : Fld) (v : Nat) (hf : f.hi < 48) : getF (putF w f v) f = v % 2 ^ f.width := by
  unfold getF putF
  rw [BitVec.toNat_ofNat, Nat.mod_eq_of_lt (putN_lt _ _ _ _ w.isLt hf), bitsN_putN]
  rfl

/-- Another field of the word reads as before. -/
theorem getF_putF_ne (w : BitVec 48) (f f' : Fld) (v : Nat) (hf : f.hi < 48) (h : f'.hi < f.lo ∨ f.hi < f'.lo) :
    getF (putF w f v) f' = getF w f' := by
  unfold getF putF
  rw [BitVec.toNat_ofNat, Nat.mod_eq_of_lt (putN_lt _ _ _ _ w.isLt hf), bitsN_putN_ne _ _ _ _ _ _ h]

theorem getF_lt (w : BitVec 48) (f : Fld) : getF w f < 2 ^ f.width := Nat.mod_lt _ (Nat.two_pow_pos _)

@[simp] theorem leBytes_length (n v : Nat) : (leBytes n v).length = n := by
  induction n generalizing v with
  | zero => rfl
  | succ n ih => simp [leBytes, ih]

/-- Bytes written little-endian read back as the number, cut to their width (R64). -/
theorem leNat_leBytes (n v : Nat) : leNat (leBytes n v) = v % 256 ^ n := by
  induction n generalizing v with
  | zero => simp [leBytes, leNat, Nat.mod_one]
  | succ n ih =>
    rw [leBytes, leNat, ih, BitVec.toNat_ofNat, show 256 ^ (n + 1) = 256 * 256 ^ n by ring, Nat.mod_mul]

end Sys2Proof.Machine
end

