-- ==== Sys2Proof/Laws/State.lean ====
section
/-! SUPPORT. What the updates of State leave: one lemma for each field and each update, true by definition. -/

namespace Sys2Proof.Machine

/-! ## wr -/

@[simp] theorem wr_now (s : State) (a : Nat) (w : Word) : (wr s a w).now = s.now := rfl
@[simp] theorem wr_freeCtr (s : State) (a : Nat) (w : Word) : (wr s a w).freeCtr = s.freeCtr := rfl
@[simp] theorem wr_pending (s : State) (a : Nat) (w : Word) : (wr s a w).pending = s.pending := rfl
@[simp] theorem wr_shadow (s : State) (a : Nat) (w : Word) : (wr s a w).shadow = s.shadow := rfl
@[simp] theorem wr_mem (s : State) (a : Nat) (w : Word) : (wr s a w).mem = s.mem := rfl
@[simp] theorem wr_scratch (s : State) (a : Nat) (w : Word) : (wr s a w).scratch = s.scratch := rfl
@[simp] theorem wr_code (s : State) (a : Nat) (w : Word) : (wr s a w).code = s.code := rfl
@[simp] theorem wr_slotRam (s : State) (a : Nat) (w : Word) : (wr s a w).slotRam = s.slotRam := rfl
@[simp] theorem wr_threads (s : State) (a : Nat) (w : Word) : (wr s a w).threads = s.threads := rfl
@[simp] theorem wr_cores (s : State) (a : Nat) (w : Word) : (wr s a w).cores = s.cores := rfl
@[simp] theorem wr_ops (s : State) (a : Nat) (w : Word) : (wr s a w).ops = s.ops := rfl
@[simp] theorem wr_nextOp (s : State) (a : Nat) (w : Word) : (wr s a w).nextOp = s.nextOp := rfl
@[simp] theorem wr_clusters (s : State) (a : Nat) (w : Word) : (wr s a w).clusters = s.clusters := rfl
@[simp] theorem wr_spawn (s : State) (a : Nat) (w : Word) : (wr s a w).spawn = s.spawn := rfl
@[simp] theorem wr_bridge (s : State) (a : Nat) (w : Word) : (wr s a w).bridge = s.bridge := rfl
@[simp] theorem wr_bpm (s : State) (a : Nat) (w : Word) : (wr s a w).bpm = s.bpm := rfl
@[simp] theorem wr_tiles (s : State) (a : Nat) (w : Word) : (wr s a w).tiles = s.tiles := rfl
@[simp] theorem wr_poison (s : State) (a : Nat) (w : Word) : (wr s a w).poison = s.poison := rfl
@[simp] theorem wr_img (s : State) (a : Nat) (w : Word) : (wr s a w).img = s.img := rfl
@[simp] theorem wr_eth (s : State) (a : Nat) (w : Word) : (wr s a w).eth = s.eth := rfl
@[simp] theorem wr_clkBase (s : State) (a : Nat) (w : Word) : (wr s a w).clkBase = s.clkBase := rfl
@[simp] theorem wr_clkAt (s : State) (a : Nat) (w : Word) : (wr s a w).clkAt = s.clkAt := rfl
@[simp] theorem wr_gecko (s : State) (a : Nat) (w : Word) : (wr s a w).gecko = s.gecko := rfl
@[simp] theorem wr_ev (s : State) (a : Nat) (w : Word) : (wr s a w).ev = s.ev := rfl
@[simp] theorem wr_obx (s : State) (a : Nat) (w : Word) : (wr s a w).obx = s.obx := rfl
@[simp] theorem wr_tbl (s : State) (a : Nat) (w : Word) : (wr s a w).tbl = s.tbl := rfl
@[simp] theorem wr_host (s : State) (a : Nat) (w : Word) : (wr s a w).host = s.host := rfl
@[simp] theorem wr_mc (s : State) (a : Nat) (w : Word) : (wr s a w).mc = s.mc := rfl
@[simp] theorem wr_clk (s : State) (a : Nat) (w : Word) : (wr s a w).clk = s.clk := rfl
@[simp] theorem wr_str (s : State) (a : Nat) (w : Word) : (wr s a w).str = s.str := rfl
@[simp] theorem wr_epc (s : State) (a : Nat) (w : Word) : (wr s a w).epc = s.epc := rfl
@[simp] theorem wr_dst (s : State) (a : Nat) (w : Word) : (wr s a w).dst = s.dst := rfl
@[simp] theorem wr_pwr (s : State) (a : Nat) (w : Word) : (wr s a w).pwr = s.pwr := rfl
@[simp] theorem wr_svc (s : State) (a : Nat) (w : Word) : (wr s a w).svc = s.svc := rfl
@[simp] theorem wr_tel (s : State) (a : Nat) (w : Word) : (wr s a w).tel = s.tel := rfl
@[simp] theorem wr_outbox (s : State) (a : Nat) (w : Word) : (wr s a w).outbox = s.outbox := rfl

/-! ## setFld -/

@[simp] theorem setFld_now (s : State) (a : Nat) (f : Fld) (v : Nat) : (setFld s a f v).now = s.now := rfl
@[simp] theorem setFld_freeCtr (s : State) (a : Nat) (f : Fld) (v : Nat) : (setFld s a f v).freeCtr = s.freeCtr := rfl
@[simp] theorem setFld_pending (s : State) (a : Nat) (f : Fld) (v : Nat) : (setFld s a f v).pending = s.pending := rfl
@[simp] theorem setFld_shadow (s : State) (a : Nat) (f : Fld) (v : Nat) : (setFld s a f v).shadow = s.shadow := rfl
@[simp] theorem setFld_mem (s : State) (a : Nat) (f : Fld) (v : Nat) : (setFld s a f v).mem = s.mem := rfl
@[simp] theorem setFld_scratch (s : State) (a : Nat) (f : Fld) (v : Nat) : (setFld s a f v).scratch = s.scratch := rfl
@[simp] theorem setFld_code (s : State) (a : Nat) (f : Fld) (v : Nat) : (setFld s a f v).code = s.code := rfl
@[simp] theorem setFld_slotRam (s : State) (a : Nat) (f : Fld) (v : Nat) : (setFld s a f v).slotRam = s.slotRam := rfl
@[simp] theorem setFld_threads (s : State) (a : Nat) (f : Fld) (v : Nat) : (setFld s a f v).threads = s.threads := rfl
@[simp] theorem setFld_cores (s : State) (a : Nat) (f : Fld) (v : Nat) : (setFld s a f v).cores = s.cores := rfl
@[simp] theorem setFld_ops (s : State) (a : Nat) (f : Fld) (v : Nat) : (setFld s a f v).ops = s.ops := rfl
@[simp] theorem setFld_nextOp (s : State) (a : Nat) (f : Fld) (v : Nat) : (setFld s a f v).nextOp = s.nextOp := rfl
@[simp] theorem setFld_clusters (s : State) (a : Nat) (f : Fld) (v : Nat) : (setFld s a f v).clusters = s.clusters := rfl
@[simp] theorem setFld_spawn (s : State) (a : Nat) (f : Fld) (v : Nat) : (setFld s a f v).spawn = s.spawn := rfl
@[simp] theorem setFld_bridge (s : State) (a : Nat) (f : Fld) (v : Nat) : (setFld s a f v).bridge = s.bridge := rfl
@[simp] theorem setFld_bpm (s : State) (a : Nat) (f : Fld) (v : Nat) : (setFld s a f v).bpm = s.bpm := rfl
@[simp] theorem setFld_tiles (s : State) (a : Nat) (f : Fld) (v : Nat) : (setFld s a f v).tiles = s.tiles := rfl
@[simp] theorem setFld_poison (s : State) (a : Nat) (f : Fld) (v : Nat) : (setFld s a f v).poison = s.poison := rfl
@[simp] theorem setFld_img (s : State) (a : Nat) (f : Fld) (v : Nat) : (setFld s a f v).img = s.img := rfl
@[simp] theorem setFld_eth (s : State) (a : Nat) (f : Fld) (v : Nat) : (setFld s a f v).eth = s.eth := rfl
@[simp] theorem setFld_clkBase (s : State) (a : Nat) (f : Fld) (v : Nat) : (setFld s a f v).clkBase = s.clkBase := rfl
@[simp] theorem setFld_clkAt (s : State) (a : Nat) (f : Fld) (v : Nat) : (setFld s a f v).clkAt = s.clkAt := rfl
@[simp] theorem setFld_gecko (s : State) (a : Nat) (f : Fld) (v : Nat) : (setFld s a f v).gecko = s.gecko := rfl
@[simp] theorem setFld_ev (s : State) (a : Nat) (f : Fld) (v : Nat) : (setFld s a f v).ev = s.ev := rfl
@[simp] theorem setFld_obx (s : State) (a : Nat) (f : Fld) (v : Nat) : (setFld s a f v).obx = s.obx := rfl
@[simp] theorem setFld_tbl (s : State) (a : Nat) (f : Fld) (v : Nat) : (setFld s a f v).tbl = s.tbl := rfl
@[simp] theorem setFld_host (s : State) (a : Nat) (f : Fld) (v : Nat) : (setFld s a f v).host = s.host := rfl
@[simp] theorem setFld_mc (s : State) (a : Nat) (f : Fld) (v : Nat) : (setFld s a f v).mc = s.mc := rfl
@[simp] theorem setFld_clk (s : State) (a : Nat) (f : Fld) (v : Nat) : (setFld s a f v).clk = s.clk := rfl
@[simp] theorem setFld_str (s : State) (a : Nat) (f : Fld) (v : Nat) : (setFld s a f v).str = s.str := rfl
@[simp] theorem setFld_epc (s : State) (a : Nat) (f : Fld) (v : Nat) : (setFld s a f v).epc = s.epc := rfl
@[simp] theorem setFld_dst (s : State) (a : Nat) (f : Fld) (v : Nat) : (setFld s a f v).dst = s.dst := rfl
@[simp] theorem setFld_pwr (s : State) (a : Nat) (f : Fld) (v : Nat) : (setFld s a f v).pwr = s.pwr := rfl
@[simp] theorem setFld_svc (s : State) (a : Nat) (f : Fld) (v : Nat) : (setFld s a f v).svc = s.svc := rfl
@[simp] theorem setFld_tel (s : State) (a : Nat) (f : Fld) (v : Nat) : (setFld s a f v).tel = s.tel := rfl
@[simp] theorem setFld_outbox (s : State) (a : Nat) (f : Fld) (v : Nat) : (setFld s a f v).outbox = s.outbox := rfl

/-! ## bumpBy -/

@[simp] theorem bumpBy_now (s : State) (a : Nat) (f : Fld) (k : Nat) : (bumpBy s a f k).now = s.now := rfl
@[simp] theorem bumpBy_freeCtr (s : State) (a : Nat) (f : Fld) (k : Nat) : (bumpBy s a f k).freeCtr = s.freeCtr := rfl
@[simp] theorem bumpBy_pending (s : State) (a : Nat) (f : Fld) (k : Nat) : (bumpBy s a f k).pending = s.pending := rfl
@[simp] theorem bumpBy_shadow (s : State) (a : Nat) (f : Fld) (k : Nat) : (bumpBy s a f k).shadow = s.shadow := rfl
@[simp] theorem bumpBy_mem (s : State) (a : Nat) (f : Fld) (k : Nat) : (bumpBy s a f k).mem = s.mem := rfl
@[simp] theorem bumpBy_scratch (s : State) (a : Nat) (f : Fld) (k : Nat) : (bumpBy s a f k).scratch = s.scratch := rfl
@[simp] theorem bumpBy_code (s : State) (a : Nat) (f : Fld) (k : Nat) : (bumpBy s a f k).code = s.code := rfl
@[simp] theorem bumpBy_slotRam (s : State) (a : Nat) (f : Fld) (k : Nat) : (bumpBy s a f k).slotRam = s.slotRam := rfl
@[simp] theorem bumpBy_threads (s : State) (a : Nat) (f : Fld) (k : Nat) : (bumpBy s a f k).threads = s.threads := rfl
@[simp] theorem bumpBy_cores (s : State) (a : Nat) (f : Fld) (k : Nat) : (bumpBy s a f k).cores = s.cores := rfl
@[simp] theorem bumpBy_ops (s : State) (a : Nat) (f : Fld) (k : Nat) : (bumpBy s a f k).ops = s.ops := rfl
@[simp] theorem bumpBy_nextOp (s : State) (a : Nat) (f : Fld) (k : Nat) : (bumpBy s a f k).nextOp = s.nextOp := rfl
@[simp] theorem bumpBy_clusters (s : State) (a : Nat) (f : Fld) (k : Nat) : (bumpBy s a f k).clusters = s.clusters := rfl
@[simp] theorem bumpBy_spawn (s : State) (a : Nat) (f : Fld) (k : Nat) : (bumpBy s a f k).spawn = s.spawn := rfl
@[simp] theorem bumpBy_bridge (s : State) (a : Nat) (f : Fld) (k : Nat) : (bumpBy s a f k).bridge = s.bridge := rfl
@[simp] theorem bumpBy_bpm (s : State) (a : Nat) (f : Fld) (k : Nat) : (bumpBy s a f k).bpm = s.bpm := rfl
@[simp] theorem bumpBy_tiles (s : State) (a : Nat) (f : Fld) (k : Nat) : (bumpBy s a f k).tiles = s.tiles := rfl
@[simp] theorem bumpBy_poison (s : State) (a : Nat) (f : Fld) (k : Nat) : (bumpBy s a f k).poison = s.poison := rfl
@[simp] theorem bumpBy_img (s : State) (a : Nat) (f : Fld) (k : Nat) : (bumpBy s a f k).img = s.img := rfl
@[simp] theorem bumpBy_eth (s : State) (a : Nat) (f : Fld) (k : Nat) : (bumpBy s a f k).eth = s.eth := rfl
@[simp] theorem bumpBy_clkBase (s : State) (a : Nat) (f : Fld) (k : Nat) : (bumpBy s a f k).clkBase = s.clkBase := rfl
@[simp] theorem bumpBy_clkAt (s : State) (a : Nat) (f : Fld) (k : Nat) : (bumpBy s a f k).clkAt = s.clkAt := rfl
@[simp] theorem bumpBy_gecko (s : State) (a : Nat) (f : Fld) (k : Nat) : (bumpBy s a f k).gecko = s.gecko := rfl
@[simp] theorem bumpBy_ev (s : State) (a : Nat) (f : Fld) (k : Nat) : (bumpBy s a f k).ev = s.ev := rfl
@[simp] theorem bumpBy_obx (s : State) (a : Nat) (f : Fld) (k : Nat) : (bumpBy s a f k).obx = s.obx := rfl
@[simp] theorem bumpBy_tbl (s : State) (a : Nat) (f : Fld) (k : Nat) : (bumpBy s a f k).tbl = s.tbl := rfl
@[simp] theorem bumpBy_host (s : State) (a : Nat) (f : Fld) (k : Nat) : (bumpBy s a f k).host = s.host := rfl
@[simp] theorem bumpBy_mc (s : State) (a : Nat) (f : Fld) (k : Nat) : (bumpBy s a f k).mc = s.mc := rfl
@[simp] theorem bumpBy_clk (s : State) (a : Nat) (f : Fld) (k : Nat) : (bumpBy s a f k).clk = s.clk := rfl
@[simp] theorem bumpBy_str (s : State) (a : Nat) (f : Fld) (k : Nat) : (bumpBy s a f k).str = s.str := rfl
@[simp] theorem bumpBy_epc (s : State) (a : Nat) (f : Fld) (k : Nat) : (bumpBy s a f k).epc = s.epc := rfl
@[simp] theorem bumpBy_dst (s : State) (a : Nat) (f : Fld) (k : Nat) : (bumpBy s a f k).dst = s.dst := rfl
@[simp] theorem bumpBy_pwr (s : State) (a : Nat) (f : Fld) (k : Nat) : (bumpBy s a f k).pwr = s.pwr := rfl
@[simp] theorem bumpBy_svc (s : State) (a : Nat) (f : Fld) (k : Nat) : (bumpBy s a f k).svc = s.svc := rfl
@[simp] theorem bumpBy_tel (s : State) (a : Nat) (f : Fld) (k : Nat) : (bumpBy s a f k).tel = s.tel := rfl
@[simp] theorem bumpBy_outbox (s : State) (a : Nat) (f : Fld) (k : Nat) : (bumpBy s a f k).outbox = s.outbox := rfl

/-! ## bump -/

@[simp] theorem bump_now (s : State) (a : Nat) (f : Fld) : (bump s a f).now = s.now := rfl
@[simp] theorem bump_freeCtr (s : State) (a : Nat) (f : Fld) : (bump s a f).freeCtr = s.freeCtr := rfl
@[simp] theorem bump_pending (s : State) (a : Nat) (f : Fld) : (bump s a f).pending = s.pending := rfl
@[simp] theorem bump_shadow (s : State) (a : Nat) (f : Fld) : (bump s a f).shadow = s.shadow := rfl
@[simp] theorem bump_mem (s : State) (a : Nat) (f : Fld) : (bump s a f).mem = s.mem := rfl
@[simp] theorem bump_scratch (s : State) (a : Nat) (f : Fld) : (bump s a f).scratch = s.scratch := rfl
@[simp] theorem bump_code (s : State) (a : Nat) (f : Fld) : (bump s a f).code = s.code := rfl
@[simp] theorem bump_slotRam (s : State) (a : Nat) (f : Fld) : (bump s a f).slotRam = s.slotRam := rfl
@[simp] theorem bump_threads (s : State) (a : Nat) (f : Fld) : (bump s a f).threads = s.threads := rfl
@[simp] theorem bump_cores (s : State) (a : Nat) (f : Fld) : (bump s a f).cores = s.cores := rfl
@[simp] theorem bump_ops (s : State) (a : Nat) (f : Fld) : (bump s a f).ops = s.ops := rfl
@[simp] theorem bump_nextOp (s : State) (a : Nat) (f : Fld) : (bump s a f).nextOp = s.nextOp := rfl
@[simp] theorem bump_clusters (s : State) (a : Nat) (f : Fld) : (bump s a f).clusters = s.clusters := rfl
@[simp] theorem bump_spawn (s : State) (a : Nat) (f : Fld) : (bump s a f).spawn = s.spawn := rfl
@[simp] theorem bump_bridge (s : State) (a : Nat) (f : Fld) : (bump s a f).bridge = s.bridge := rfl
@[simp] theorem bump_bpm (s : State) (a : Nat) (f : Fld) : (bump s a f).bpm = s.bpm := rfl
@[simp] theorem bump_tiles (s : State) (a : Nat) (f : Fld) : (bump s a f).tiles = s.tiles := rfl
@[simp] theorem bump_poison (s : State) (a : Nat) (f : Fld) : (bump s a f).poison = s.poison := rfl
@[simp] theorem bump_img (s : State) (a : Nat) (f : Fld) : (bump s a f).img = s.img := rfl
@[simp] theorem bump_eth (s : State) (a : Nat) (f : Fld) : (bump s a f).eth = s.eth := rfl
@[simp] theorem bump_clkBase (s : State) (a : Nat) (f : Fld) : (bump s a f).clkBase = s.clkBase := rfl
@[simp] theorem bump_clkAt (s : State) (a : Nat) (f : Fld) : (bump s a f).clkAt = s.clkAt := rfl
@[simp] theorem bump_gecko (s : State) (a : Nat) (f : Fld) : (bump s a f).gecko = s.gecko := rfl
@[simp] theorem bump_ev (s : State) (a : Nat) (f : Fld) : (bump s a f).ev = s.ev := rfl
@[simp] theorem bump_obx (s : State) (a : Nat) (f : Fld) : (bump s a f).obx = s.obx := rfl
@[simp] theorem bump_tbl (s : State) (a : Nat) (f : Fld) : (bump s a f).tbl = s.tbl := rfl
@[simp] theorem bump_host (s : State) (a : Nat) (f : Fld) : (bump s a f).host = s.host := rfl
@[simp] theorem bump_mc (s : State) (a : Nat) (f : Fld) : (bump s a f).mc = s.mc := rfl
@[simp] theorem bump_clk (s : State) (a : Nat) (f : Fld) : (bump s a f).clk = s.clk := rfl
@[simp] theorem bump_str (s : State) (a : Nat) (f : Fld) : (bump s a f).str = s.str := rfl
@[simp] theorem bump_epc (s : State) (a : Nat) (f : Fld) : (bump s a f).epc = s.epc := rfl
@[simp] theorem bump_dst (s : State) (a : Nat) (f : Fld) : (bump s a f).dst = s.dst := rfl
@[simp] theorem bump_pwr (s : State) (a : Nat) (f : Fld) : (bump s a f).pwr = s.pwr := rfl
@[simp] theorem bump_svc (s : State) (a : Nat) (f : Fld) : (bump s a f).svc = s.svc := rfl
@[simp] theorem bump_tel (s : State) (a : Nat) (f : Fld) : (bump s a f).tel = s.tel := rfl
@[simp] theorem bump_outbox (s : State) (a : Nat) (f : Fld) : (bump s a f).outbox = s.outbox := rfl

/-! ## setTh -/

@[simp] theorem setTh_now (s : State) (t : Nat) (x : Thread) : (setTh s t x).now = s.now := rfl
@[simp] theorem setTh_freeCtr (s : State) (t : Nat) (x : Thread) : (setTh s t x).freeCtr = s.freeCtr := rfl
@[simp] theorem setTh_pending (s : State) (t : Nat) (x : Thread) : (setTh s t x).pending = s.pending := rfl
@[simp] theorem setTh_csr (s : State) (t : Nat) (x : Thread) : (setTh s t x).csr = s.csr := rfl
@[simp] theorem setTh_shadow (s : State) (t : Nat) (x : Thread) : (setTh s t x).shadow = s.shadow := rfl
@[simp] theorem setTh_mem (s : State) (t : Nat) (x : Thread) : (setTh s t x).mem = s.mem := rfl
@[simp] theorem setTh_scratch (s : State) (t : Nat) (x : Thread) : (setTh s t x).scratch = s.scratch := rfl
@[simp] theorem setTh_code (s : State) (t : Nat) (x : Thread) : (setTh s t x).code = s.code := rfl
@[simp] theorem setTh_slotRam (s : State) (t : Nat) (x : Thread) : (setTh s t x).slotRam = s.slotRam := rfl
@[simp] theorem setTh_cores (s : State) (t : Nat) (x : Thread) : (setTh s t x).cores = s.cores := rfl
@[simp] theorem setTh_ops (s : State) (t : Nat) (x : Thread) : (setTh s t x).ops = s.ops := rfl
@[simp] theorem setTh_nextOp (s : State) (t : Nat) (x : Thread) : (setTh s t x).nextOp = s.nextOp := rfl
@[simp] theorem setTh_clusters (s : State) (t : Nat) (x : Thread) : (setTh s t x).clusters = s.clusters := rfl
@[simp] theorem setTh_spawn (s : State) (t : Nat) (x : Thread) : (setTh s t x).spawn = s.spawn := rfl
@[simp] theorem setTh_bridge (s : State) (t : Nat) (x : Thread) : (setTh s t x).bridge = s.bridge := rfl
@[simp] theorem setTh_bpm (s : State) (t : Nat) (x : Thread) : (setTh s t x).bpm = s.bpm := rfl
@[simp] theorem setTh_tiles (s : State) (t : Nat) (x : Thread) : (setTh s t x).tiles = s.tiles := rfl
@[simp] theorem setTh_poison (s : State) (t : Nat) (x : Thread) : (setTh s t x).poison = s.poison := rfl
@[simp] theorem setTh_img (s : State) (t : Nat) (x : Thread) : (setTh s t x).img = s.img := rfl
@[simp] theorem setTh_eth (s : State) (t : Nat) (x : Thread) : (setTh s t x).eth = s.eth := rfl
@[simp] theorem setTh_clkBase (s : State) (t : Nat) (x : Thread) : (setTh s t x).clkBase = s.clkBase := rfl
@[simp] theorem setTh_clkAt (s : State) (t : Nat) (x : Thread) : (setTh s t x).clkAt = s.clkAt := rfl
@[simp] theorem setTh_gecko (s : State) (t : Nat) (x : Thread) : (setTh s t x).gecko = s.gecko := rfl
@[simp] theorem setTh_ev (s : State) (t : Nat) (x : Thread) : (setTh s t x).ev = s.ev := rfl
@[simp] theorem setTh_obx (s : State) (t : Nat) (x : Thread) : (setTh s t x).obx = s.obx := rfl
@[simp] theorem setTh_tbl (s : State) (t : Nat) (x : Thread) : (setTh s t x).tbl = s.tbl := rfl
@[simp] theorem setTh_host (s : State) (t : Nat) (x : Thread) : (setTh s t x).host = s.host := rfl
@[simp] theorem setTh_mc (s : State) (t : Nat) (x : Thread) : (setTh s t x).mc = s.mc := rfl
@[simp] theorem setTh_clk (s : State) (t : Nat) (x : Thread) : (setTh s t x).clk = s.clk := rfl
@[simp] theorem setTh_str (s : State) (t : Nat) (x : Thread) : (setTh s t x).str = s.str := rfl
@[simp] theorem setTh_epc (s : State) (t : Nat) (x : Thread) : (setTh s t x).epc = s.epc := rfl
@[simp] theorem setTh_dst (s : State) (t : Nat) (x : Thread) : (setTh s t x).dst = s.dst := rfl
@[simp] theorem setTh_pwr (s : State) (t : Nat) (x : Thread) : (setTh s t x).pwr = s.pwr := rfl
@[simp] theorem setTh_svc (s : State) (t : Nat) (x : Thread) : (setTh s t x).svc = s.svc := rfl
@[simp] theorem setTh_tel (s : State) (t : Nat) (x : Thread) : (setTh s t x).tel = s.tel := rfl
@[simp] theorem setTh_outbox (s : State) (t : Nat) (x : Thread) : (setTh s t x).outbox = s.outbox := rfl

/-! ## updTh -/

@[simp] theorem updTh_now (s : State) (t : Nat) (g : Thread → Thread) : (updTh s t g).now = s.now := rfl
@[simp] theorem updTh_freeCtr (s : State) (t : Nat) (g : Thread → Thread) : (updTh s t g).freeCtr = s.freeCtr := rfl
@[simp] theorem updTh_pending (s : State) (t : Nat) (g : Thread → Thread) : (updTh s t g).pending = s.pending := rfl
@[simp] theorem updTh_csr (s : State) (t : Nat) (g : Thread → Thread) : (updTh s t g).csr = s.csr := rfl
@[simp] theorem updTh_shadow (s : State) (t : Nat) (g : Thread → Thread) : (updTh s t g).shadow = s.shadow := rfl
@[simp] theorem updTh_mem (s : State) (t : Nat) (g : Thread → Thread) : (updTh s t g).mem = s.mem := rfl
@[simp] theorem updTh_scratch (s : State) (t : Nat) (g : Thread → Thread) : (updTh s t g).scratch = s.scratch := rfl
@[simp] theorem updTh_code (s : State) (t : Nat) (g : Thread → Thread) : (updTh s t g).code = s.code := rfl
@[simp] theorem updTh_slotRam (s : State) (t : Nat) (g : Thread → Thread) : (updTh s t g).slotRam = s.slotRam := rfl
@[simp] theorem updTh_cores (s : State) (t : Nat) (g : Thread → Thread) : (updTh s t g).cores = s.cores := rfl
@[simp] theorem updTh_ops (s : State) (t : Nat) (g : Thread → Thread) : (updTh s t g).ops = s.ops := rfl
@[simp] theorem updTh_nextOp (s : State) (t : Nat) (g : Thread → Thread) : (updTh s t g).nextOp = s.nextOp := rfl
@[simp] theorem updTh_clusters (s : State) (t : Nat) (g : Thread → Thread) : (updTh s t g).clusters = s.clusters := rfl
@[simp] theorem updTh_spawn (s : State) (t : Nat) (g : Thread → Thread) : (updTh s t g).spawn = s.spawn := rfl
@[simp] theorem updTh_bridge (s : State) (t : Nat) (g : Thread → Thread) : (updTh s t g).bridge = s.bridge := rfl
@[simp] theorem updTh_bpm (s : State) (t : Nat) (g : Thread → Thread) : (updTh s t g).bpm = s.bpm := rfl
@[simp] theorem updTh_tiles (s : State) (t : Nat) (g : Thread → Thread) : (updTh s t g).tiles = s.tiles := rfl
@[simp] theorem updTh_poison (s : State) (t : Nat) (g : Thread → Thread) : (updTh s t g).poison = s.poison := rfl
@[simp] theorem updTh_img (s : State) (t : Nat) (g : Thread → Thread) : (updTh s t g).img = s.img := rfl
@[simp] theorem updTh_eth (s : State) (t : Nat) (g : Thread → Thread) : (updTh s t g).eth = s.eth := rfl
@[simp] theorem updTh_clkBase (s : State) (t : Nat) (g : Thread → Thread) : (updTh s t g).clkBase = s.clkBase := rfl
@[simp] theorem updTh_clkAt (s : State) (t : Nat) (g : Thread → Thread) : (updTh s t g).clkAt = s.clkAt := rfl
@[simp] theorem updTh_gecko (s : State) (t : Nat) (g : Thread → Thread) : (updTh s t g).gecko = s.gecko := rfl
@[simp] theorem updTh_ev (s : State) (t : Nat) (g : Thread → Thread) : (updTh s t g).ev = s.ev := rfl
@[simp] theorem updTh_obx (s : State) (t : Nat) (g : Thread → Thread) : (updTh s t g).obx = s.obx := rfl
@[simp] theorem updTh_tbl (s : State) (t : Nat) (g : Thread → Thread) : (updTh s t g).tbl = s.tbl := rfl
@[simp] theorem updTh_host (s : State) (t : Nat) (g : Thread → Thread) : (updTh s t g).host = s.host := rfl
@[simp] theorem updTh_mc (s : State) (t : Nat) (g : Thread → Thread) : (updTh s t g).mc = s.mc := rfl
@[simp] theorem updTh_clk (s : State) (t : Nat) (g : Thread → Thread) : (updTh s t g).clk = s.clk := rfl
@[simp] theorem updTh_str (s : State) (t : Nat) (g : Thread → Thread) : (updTh s t g).str = s.str := rfl
@[simp] theorem updTh_epc (s : State) (t : Nat) (g : Thread → Thread) : (updTh s t g).epc = s.epc := rfl
@[simp] theorem updTh_dst (s : State) (t : Nat) (g : Thread → Thread) : (updTh s t g).dst = s.dst := rfl
@[simp] theorem updTh_pwr (s : State) (t : Nat) (g : Thread → Thread) : (updTh s t g).pwr = s.pwr := rfl
@[simp] theorem updTh_svc (s : State) (t : Nat) (g : Thread → Thread) : (updTh s t g).svc = s.svc := rfl
@[simp] theorem updTh_tel (s : State) (t : Nat) (g : Thread → Thread) : (updTh s t g).tel = s.tel := rfl
@[simp] theorem updTh_outbox (s : State) (t : Nat) (g : Thread → Thread) : (updTh s t g).outbox = s.outbox := rfl

/-! ## updCore -/

@[simp] theorem updCore_now (s : State) (n : Nat) (g : CoreCnt → CoreCnt) : (updCore s n g).now = s.now := rfl
@[simp] theorem updCore_freeCtr (s : State) (n : Nat) (g : CoreCnt → CoreCnt) : (updCore s n g).freeCtr = s.freeCtr := rfl
@[simp] theorem updCore_pending (s : State) (n : Nat) (g : CoreCnt → CoreCnt) : (updCore s n g).pending = s.pending := rfl
@[simp] theorem updCore_csr (s : State) (n : Nat) (g : CoreCnt → CoreCnt) : (updCore s n g).csr = s.csr := rfl
@[simp] theorem updCore_shadow (s : State) (n : Nat) (g : CoreCnt → CoreCnt) : (updCore s n g).shadow = s.shadow := rfl
@[simp] theorem updCore_mem (s : State) (n : Nat) (g : CoreCnt → CoreCnt) : (updCore s n g).mem = s.mem := rfl
@[simp] theorem updCore_scratch (s : State) (n : Nat) (g : CoreCnt → CoreCnt) : (updCore s n g).scratch = s.scratch := rfl
@[simp] theorem updCore_code (s : State) (n : Nat) (g : CoreCnt → CoreCnt) : (updCore s n g).code = s.code := rfl
@[simp] theorem updCore_slotRam (s : State) (n : Nat) (g : CoreCnt → CoreCnt) : (updCore s n g).slotRam = s.slotRam := rfl
@[simp] theorem updCore_threads (s : State) (n : Nat) (g : CoreCnt → CoreCnt) : (updCore s n g).threads = s.threads := rfl
@[simp] theorem updCore_ops (s : State) (n : Nat) (g : CoreCnt → CoreCnt) : (updCore s n g).ops = s.ops := rfl
@[simp] theorem updCore_nextOp (s : State) (n : Nat) (g : CoreCnt → CoreCnt) : (updCore s n g).nextOp = s.nextOp := rfl
@[simp] theorem updCore_clusters (s : State) (n : Nat) (g : CoreCnt → CoreCnt) : (updCore s n g).clusters = s.clusters := rfl
@[simp] theorem updCore_spawn (s : State) (n : Nat) (g : CoreCnt → CoreCnt) : (updCore s n g).spawn = s.spawn := rfl
@[simp] theorem updCore_bridge (s : State) (n : Nat) (g : CoreCnt → CoreCnt) : (updCore s n g).bridge = s.bridge := rfl
@[simp] theorem updCore_bpm (s : State) (n : Nat) (g : CoreCnt → CoreCnt) : (updCore s n g).bpm = s.bpm := rfl
@[simp] theorem updCore_tiles (s : State) (n : Nat) (g : CoreCnt → CoreCnt) : (updCore s n g).tiles = s.tiles := rfl
@[simp] theorem updCore_poison (s : State) (n : Nat) (g : CoreCnt → CoreCnt) : (updCore s n g).poison = s.poison := rfl
@[simp] theorem updCore_img (s : State) (n : Nat) (g : CoreCnt → CoreCnt) : (updCore s n g).img = s.img := rfl
@[simp] theorem updCore_eth (s : State) (n : Nat) (g : CoreCnt → CoreCnt) : (updCore s n g).eth = s.eth := rfl
@[simp] theorem updCore_clkBase (s : State) (n : Nat) (g : CoreCnt → CoreCnt) : (updCore s n g).clkBase = s.clkBase := rfl
@[simp] theorem updCore_clkAt (s : State) (n : Nat) (g : CoreCnt → CoreCnt) : (updCore s n g).clkAt = s.clkAt := rfl
@[simp] theorem updCore_gecko (s : State) (n : Nat) (g : CoreCnt → CoreCnt) : (updCore s n g).gecko = s.gecko := rfl
@[simp] theorem updCore_ev (s : State) (n : Nat) (g : CoreCnt → CoreCnt) : (updCore s n g).ev = s.ev := rfl
@[simp] theorem updCore_obx (s : State) (n : Nat) (g : CoreCnt → CoreCnt) : (updCore s n g).obx = s.obx := rfl
@[simp] theorem updCore_tbl (s : State) (n : Nat) (g : CoreCnt → CoreCnt) : (updCore s n g).tbl = s.tbl := rfl
@[simp] theorem updCore_host (s : State) (n : Nat) (g : CoreCnt → CoreCnt) : (updCore s n g).host = s.host := rfl
@[simp] theorem updCore_mc (s : State) (n : Nat) (g : CoreCnt → CoreCnt) : (updCore s n g).mc = s.mc := rfl
@[simp] theorem updCore_clk (s : State) (n : Nat) (g : CoreCnt → CoreCnt) : (updCore s n g).clk = s.clk := rfl
@[simp] theorem updCore_str (s : State) (n : Nat) (g : CoreCnt → CoreCnt) : (updCore s n g).str = s.str := rfl
@[simp] theorem updCore_epc (s : State) (n : Nat) (g : CoreCnt → CoreCnt) : (updCore s n g).epc = s.epc := rfl
@[simp] theorem updCore_dst (s : State) (n : Nat) (g : CoreCnt → CoreCnt) : (updCore s n g).dst = s.dst := rfl
@[simp] theorem updCore_pwr (s : State) (n : Nat) (g : CoreCnt → CoreCnt) : (updCore s n g).pwr = s.pwr := rfl
@[simp] theorem updCore_svc (s : State) (n : Nat) (g : CoreCnt → CoreCnt) : (updCore s n g).svc = s.svc := rfl
@[simp] theorem updCore_tel (s : State) (n : Nat) (g : CoreCnt → CoreCnt) : (updCore s n g).tel = s.tel := rfl
@[simp] theorem updCore_outbox (s : State) (n : Nat) (g : CoreCnt → CoreCnt) : (updCore s n g).outbox = s.outbox := rfl

/-! ## setClu -/

@[simp] theorem setClu_now (s : State) (c : Nat) (x : Cluster) : (setClu s c x).now = s.now := rfl
@[simp] theorem setClu_freeCtr (s : State) (c : Nat) (x : Cluster) : (setClu s c x).freeCtr = s.freeCtr := rfl
@[simp] theorem setClu_pending (s : State) (c : Nat) (x : Cluster) : (setClu s c x).pending = s.pending := rfl
@[simp] theorem setClu_csr (s : State) (c : Nat) (x : Cluster) : (setClu s c x).csr = s.csr := rfl
@[simp] theorem setClu_shadow (s : State) (c : Nat) (x : Cluster) : (setClu s c x).shadow = s.shadow := rfl
@[simp] theorem setClu_mem (s : State) (c : Nat) (x : Cluster) : (setClu s c x).mem = s.mem := rfl
@[simp] theorem setClu_scratch (s : State) (c : Nat) (x : Cluster) : (setClu s c x).scratch = s.scratch := rfl
@[simp] theorem setClu_code (s : State) (c : Nat) (x : Cluster) : (setClu s c x).code = s.code := rfl
@[simp] theorem setClu_slotRam (s : State) (c : Nat) (x : Cluster) : (setClu s c x).slotRam = s.slotRam := rfl
@[simp] theorem setClu_threads (s : State) (c : Nat) (x : Cluster) : (setClu s c x).threads = s.threads := rfl
@[simp] theorem setClu_cores (s : State) (c : Nat) (x : Cluster) : (setClu s c x).cores = s.cores := rfl
@[simp] theorem setClu_ops (s : State) (c : Nat) (x : Cluster) : (setClu s c x).ops = s.ops := rfl
@[simp] theorem setClu_nextOp (s : State) (c : Nat) (x : Cluster) : (setClu s c x).nextOp = s.nextOp := rfl
@[simp] theorem setClu_spawn (s : State) (c : Nat) (x : Cluster) : (setClu s c x).spawn = s.spawn := rfl
@[simp] theorem setClu_bridge (s : State) (c : Nat) (x : Cluster) : (setClu s c x).bridge = s.bridge := rfl
@[simp] theorem setClu_bpm (s : State) (c : Nat) (x : Cluster) : (setClu s c x).bpm = s.bpm := rfl
@[simp] theorem setClu_tiles (s : State) (c : Nat) (x : Cluster) : (setClu s c x).tiles = s.tiles := rfl
@[simp] theorem setClu_poison (s : State) (c : Nat) (x : Cluster) : (setClu s c x).poison = s.poison := rfl
@[simp] theorem setClu_img (s : State) (c : Nat) (x : Cluster) : (setClu s c x).img = s.img := rfl
@[simp] theorem setClu_eth (s : State) (c : Nat) (x : Cluster) : (setClu s c x).eth = s.eth := rfl
@[simp] theorem setClu_clkBase (s : State) (c : Nat) (x : Cluster) : (setClu s c x).clkBase = s.clkBase := rfl
@[simp] theorem setClu_clkAt (s : State) (c : Nat) (x : Cluster) : (setClu s c x).clkAt = s.clkAt := rfl
@[simp] theorem setClu_gecko (s : State) (c : Nat) (x : Cluster) : (setClu s c x).gecko = s.gecko := rfl
@[simp] theorem setClu_ev (s : State) (c : Nat) (x : Cluster) : (setClu s c x).ev = s.ev := rfl
@[simp] theorem setClu_obx (s : State) (c : Nat) (x : Cluster) : (setClu s c x).obx = s.obx := rfl
@[simp] theorem setClu_tbl (s : State) (c : Nat) (x : Cluster) : (setClu s c x).tbl = s.tbl := rfl
@[simp] theorem setClu_host (s : State) (c : Nat) (x : Cluster) : (setClu s c x).host = s.host := rfl
@[simp] theorem setClu_mc (s : State) (c : Nat) (x : Cluster) : (setClu s c x).mc = s.mc := rfl
@[simp] theorem setClu_clk (s : State) (c : Nat) (x : Cluster) : (setClu s c x).clk = s.clk := rfl
@[simp] theorem setClu_str (s : State) (c : Nat) (x : Cluster) : (setClu s c x).str = s.str := rfl
@[simp] theorem setClu_epc (s : State) (c : Nat) (x : Cluster) : (setClu s c x).epc = s.epc := rfl
@[simp] theorem setClu_dst (s : State) (c : Nat) (x : Cluster) : (setClu s c x).dst = s.dst := rfl
@[simp] theorem setClu_pwr (s : State) (c : Nat) (x : Cluster) : (setClu s c x).pwr = s.pwr := rfl
@[simp] theorem setClu_svc (s : State) (c : Nat) (x : Cluster) : (setClu s c x).svc = s.svc := rfl
@[simp] theorem setClu_tel (s : State) (c : Nat) (x : Cluster) : (setClu s c x).tel = s.tel := rfl
@[simp] theorem setClu_outbox (s : State) (c : Nat) (x : Cluster) : (setClu s c x).outbox = s.outbox := rfl

/-! ## updClu -/

@[simp] theorem updClu_now (s : State) (c : Nat) (g : Cluster → Cluster) : (updClu s c g).now = s.now := rfl
@[simp] theorem updClu_freeCtr (s : State) (c : Nat) (g : Cluster → Cluster) : (updClu s c g).freeCtr = s.freeCtr := rfl
@[simp] theorem updClu_pending (s : State) (c : Nat) (g : Cluster → Cluster) : (updClu s c g).pending = s.pending := rfl
@[simp] theorem updClu_csr (s : State) (c : Nat) (g : Cluster → Cluster) : (updClu s c g).csr = s.csr := rfl
@[simp] theorem updClu_shadow (s : State) (c : Nat) (g : Cluster → Cluster) : (updClu s c g).shadow = s.shadow := rfl
@[simp] theorem updClu_mem (s : State) (c : Nat) (g : Cluster → Cluster) : (updClu s c g).mem = s.mem := rfl
@[simp] theorem updClu_scratch (s : State) (c : Nat) (g : Cluster → Cluster) : (updClu s c g).scratch = s.scratch := rfl
@[simp] theorem updClu_code (s : State) (c : Nat) (g : Cluster → Cluster) : (updClu s c g).code = s.code := rfl
@[simp] theorem updClu_slotRam (s : State) (c : Nat) (g : Cluster → Cluster) : (updClu s c g).slotRam = s.slotRam := rfl
@[simp] theorem updClu_threads (s : State) (c : Nat) (g : Cluster → Cluster) : (updClu s c g).threads = s.threads := rfl
@[simp] theorem updClu_cores (s : State) (c : Nat) (g : Cluster → Cluster) : (updClu s c g).cores = s.cores := rfl
@[simp] theorem updClu_ops (s : State) (c : Nat) (g : Cluster → Cluster) : (updClu s c g).ops = s.ops := rfl
@[simp] theorem updClu_nextOp (s : State) (c : Nat) (g : Cluster → Cluster) : (updClu s c g).nextOp = s.nextOp := rfl
@[simp] theorem updClu_spawn (s : State) (c : Nat) (g : Cluster → Cluster) : (updClu s c g).spawn = s.spawn := rfl
@[simp] theorem updClu_bridge (s : State) (c : Nat) (g : Cluster → Cluster) : (updClu s c g).bridge = s.bridge := rfl
@[simp] theorem updClu_bpm (s : State) (c : Nat) (g : Cluster → Cluster) : (updClu s c g).bpm = s.bpm := rfl
@[simp] theorem updClu_tiles (s : State) (c : Nat) (g : Cluster → Cluster) : (updClu s c g).tiles = s.tiles := rfl
@[simp] theorem updClu_poison (s : State) (c : Nat) (g : Cluster → Cluster) : (updClu s c g).poison = s.poison := rfl
@[simp] theorem updClu_img (s : State) (c : Nat) (g : Cluster → Cluster) : (updClu s c g).img = s.img := rfl
@[simp] theorem updClu_eth (s : State) (c : Nat) (g : Cluster → Cluster) : (updClu s c g).eth = s.eth := rfl
@[simp] theorem updClu_clkBase (s : State) (c : Nat) (g : Cluster → Cluster) : (updClu s c g).clkBase = s.clkBase := rfl
@[simp] theorem updClu_clkAt (s : State) (c : Nat) (g : Cluster → Cluster) : (updClu s c g).clkAt = s.clkAt := rfl
@[simp] theorem updClu_gecko (s : State) (c : Nat) (g : Cluster → Cluster) : (updClu s c g).gecko = s.gecko := rfl
@[simp] theorem updClu_ev (s : State) (c : Nat) (g : Cluster → Cluster) : (updClu s c g).ev = s.ev := rfl
@[simp] theorem updClu_obx (s : State) (c : Nat) (g : Cluster → Cluster) : (updClu s c g).obx = s.obx := rfl
@[simp] theorem updClu_tbl (s : State) (c : Nat) (g : Cluster → Cluster) : (updClu s c g).tbl = s.tbl := rfl
@[simp] theorem updClu_host (s : State) (c : Nat) (g : Cluster → Cluster) : (updClu s c g).host = s.host := rfl
@[simp] theorem updClu_mc (s : State) (c : Nat) (g : Cluster → Cluster) : (updClu s c g).mc = s.mc := rfl
@[simp] theorem updClu_clk (s : State) (c : Nat) (g : Cluster → Cluster) : (updClu s c g).clk = s.clk := rfl
@[simp] theorem updClu_str (s : State) (c : Nat) (g : Cluster → Cluster) : (updClu s c g).str = s.str := rfl
@[simp] theorem updClu_epc (s : State) (c : Nat) (g : Cluster → Cluster) : (updClu s c g).epc = s.epc := rfl
@[simp] theorem updClu_dst (s : State) (c : Nat) (g : Cluster → Cluster) : (updClu s c g).dst = s.dst := rfl
@[simp] theorem updClu_pwr (s : State) (c : Nat) (g : Cluster → Cluster) : (updClu s c g).pwr = s.pwr := rfl
@[simp] theorem updClu_svc (s : State) (c : Nat) (g : Cluster → Cluster) : (updClu s c g).svc = s.svc := rfl
@[simp] theorem updClu_tel (s : State) (c : Nat) (g : Cluster → Cluster) : (updClu s c g).tel = s.tel := rfl
@[simp] theorem updClu_outbox (s : State) (c : Nat) (g : Cluster → Cluster) : (updClu s c g).outbox = s.outbox := rfl

/-! ## setLock -/

@[simp] theorem setLock_now (s : State) (n : Nat) (x : Lock) : (setLock s n x).now = s.now := rfl
@[simp] theorem setLock_freeCtr (s : State) (n : Nat) (x : Lock) : (setLock s n x).freeCtr = s.freeCtr := rfl
@[simp] theorem setLock_pending (s : State) (n : Nat) (x : Lock) : (setLock s n x).pending = s.pending := rfl
@[simp] theorem setLock_csr (s : State) (n : Nat) (x : Lock) : (setLock s n x).csr = s.csr := rfl
@[simp] theorem setLock_shadow (s : State) (n : Nat) (x : Lock) : (setLock s n x).shadow = s.shadow := rfl
@[simp] theorem setLock_mem (s : State) (n : Nat) (x : Lock) : (setLock s n x).mem = s.mem := rfl
@[simp] theorem setLock_scratch (s : State) (n : Nat) (x : Lock) : (setLock s n x).scratch = s.scratch := rfl
@[simp] theorem setLock_code (s : State) (n : Nat) (x : Lock) : (setLock s n x).code = s.code := rfl
@[simp] theorem setLock_slotRam (s : State) (n : Nat) (x : Lock) : (setLock s n x).slotRam = s.slotRam := rfl
@[simp] theorem setLock_threads (s : State) (n : Nat) (x : Lock) : (setLock s n x).threads = s.threads := rfl
@[simp] theorem setLock_cores (s : State) (n : Nat) (x : Lock) : (setLock s n x).cores = s.cores := rfl
@[simp] theorem setLock_ops (s : State) (n : Nat) (x : Lock) : (setLock s n x).ops = s.ops := rfl
@[simp] theorem setLock_nextOp (s : State) (n : Nat) (x : Lock) : (setLock s n x).nextOp = s.nextOp := rfl
@[simp] theorem setLock_clusters (s : State) (n : Nat) (x : Lock) : (setLock s n x).clusters = s.clusters := rfl
@[simp] theorem setLock_spawn (s : State) (n : Nat) (x : Lock) : (setLock s n x).spawn = s.spawn := rfl
@[simp] theorem setLock_bridge (s : State) (n : Nat) (x : Lock) : (setLock s n x).bridge = s.bridge := rfl
@[simp] theorem setLock_bpm (s : State) (n : Nat) (x : Lock) : (setLock s n x).bpm = s.bpm := rfl
@[simp] theorem setLock_tiles (s : State) (n : Nat) (x : Lock) : (setLock s n x).tiles = s.tiles := rfl
@[simp] theorem setLock_poison (s : State) (n : Nat) (x : Lock) : (setLock s n x).poison = s.poison := rfl
@[simp] theorem setLock_img (s : State) (n : Nat) (x : Lock) : (setLock s n x).img = s.img := rfl
@[simp] theorem setLock_eth (s : State) (n : Nat) (x : Lock) : (setLock s n x).eth = s.eth := rfl
@[simp] theorem setLock_clkBase (s : State) (n : Nat) (x : Lock) : (setLock s n x).clkBase = s.clkBase := rfl
@[simp] theorem setLock_clkAt (s : State) (n : Nat) (x : Lock) : (setLock s n x).clkAt = s.clkAt := rfl
@[simp] theorem setLock_ev (s : State) (n : Nat) (x : Lock) : (setLock s n x).ev = s.ev := rfl
@[simp] theorem setLock_obx (s : State) (n : Nat) (x : Lock) : (setLock s n x).obx = s.obx := rfl
@[simp] theorem setLock_tbl (s : State) (n : Nat) (x : Lock) : (setLock s n x).tbl = s.tbl := rfl
@[simp] theorem setLock_host (s : State) (n : Nat) (x : Lock) : (setLock s n x).host = s.host := rfl
@[simp] theorem setLock_mc (s : State) (n : Nat) (x : Lock) : (setLock s n x).mc = s.mc := rfl
@[simp] theorem setLock_clk (s : State) (n : Nat) (x : Lock) : (setLock s n x).clk = s.clk := rfl
@[simp] theorem setLock_str (s : State) (n : Nat) (x : Lock) : (setLock s n x).str = s.str := rfl
@[simp] theorem setLock_epc (s : State) (n : Nat) (x : Lock) : (setLock s n x).epc = s.epc := rfl
@[simp] theorem setLock_dst (s : State) (n : Nat) (x : Lock) : (setLock s n x).dst = s.dst := rfl
@[simp] theorem setLock_pwr (s : State) (n : Nat) (x : Lock) : (setLock s n x).pwr = s.pwr := rfl
@[simp] theorem setLock_svc (s : State) (n : Nat) (x : Lock) : (setLock s n x).svc = s.svc := rfl
@[simp] theorem setLock_tel (s : State) (n : Nat) (x : Lock) : (setLock s n x).tel = s.tel := rfl
@[simp] theorem setLock_outbox (s : State) (n : Nat) (x : Lock) : (setLock s n x).outbox = s.outbox := rfl

/-! ## emit -/

@[simp] theorem emit_now (s : State) (o : Output) : (emit s o).now = s.now := rfl
@[simp] theorem emit_freeCtr (s : State) (o : Output) : (emit s o).freeCtr = s.freeCtr := rfl
@[simp] theorem emit_pending (s : State) (o : Output) : (emit s o).pending = s.pending := rfl
@[simp] theorem emit_csr (s : State) (o : Output) : (emit s o).csr = s.csr := rfl
@[simp] theorem emit_shadow (s : State) (o : Output) : (emit s o).shadow = s.shadow := rfl
@[simp] theorem emit_mem (s : State) (o : Output) : (emit s o).mem = s.mem := rfl
@[simp] theorem emit_scratch (s : State) (o : Output) : (emit s o).scratch = s.scratch := rfl
@[simp] theorem emit_code (s : State) (o : Output) : (emit s o).code = s.code := rfl
@[simp] theorem emit_slotRam (s : State) (o : Output) : (emit s o).slotRam = s.slotRam := rfl
@[simp] theorem emit_threads (s : State) (o : Output) : (emit s o).threads = s.threads := rfl
@[simp] theorem emit_cores (s : State) (o : Output) : (emit s o).cores = s.cores := rfl
@[simp] theorem emit_ops (s : State) (o : Output) : (emit s o).ops = s.ops := rfl
@[simp] theorem emit_nextOp (s : State) (o : Output) : (emit s o).nextOp = s.nextOp := rfl
@[simp] theorem emit_clusters (s : State) (o : Output) : (emit s o).clusters = s.clusters := rfl
@[simp] theorem emit_spawn (s : State) (o : Output) : (emit s o).spawn = s.spawn := rfl
@[simp] theorem emit_bridge (s : State) (o : Output) : (emit s o).bridge = s.bridge := rfl
@[simp] theorem emit_bpm (s : State) (o : Output) : (emit s o).bpm = s.bpm := rfl
@[simp] theorem emit_tiles (s : State) (o : Output) : (emit s o).tiles = s.tiles := rfl
@[simp] theorem emit_poison (s : State) (o : Output) : (emit s o).poison = s.poison := rfl
@[simp] theorem emit_img (s : State) (o : Output) : (emit s o).img = s.img := rfl
@[simp] theorem emit_eth (s : State) (o : Output) : (emit s o).eth = s.eth := rfl
@[simp] theorem emit_clkBase (s : State) (o : Output) : (emit s o).clkBase = s.clkBase := rfl
@[simp] theorem emit_clkAt (s : State) (o : Output) : (emit s o).clkAt = s.clkAt := rfl
@[simp] theorem emit_gecko (s : State) (o : Output) : (emit s o).gecko = s.gecko := rfl
@[simp] theorem emit_ev (s : State) (o : Output) : (emit s o).ev = s.ev := rfl
@[simp] theorem emit_obx (s : State) (o : Output) : (emit s o).obx = s.obx := rfl
@[simp] theorem emit_tbl (s : State) (o : Output) : (emit s o).tbl = s.tbl := rfl
@[simp] theorem emit_host (s : State) (o : Output) : (emit s o).host = s.host := rfl
@[simp] theorem emit_mc (s : State) (o : Output) : (emit s o).mc = s.mc := rfl
@[simp] theorem emit_clk (s : State) (o : Output) : (emit s o).clk = s.clk := rfl
@[simp] theorem emit_str (s : State) (o : Output) : (emit s o).str = s.str := rfl
@[simp] theorem emit_epc (s : State) (o : Output) : (emit s o).epc = s.epc := rfl
@[simp] theorem emit_dst (s : State) (o : Output) : (emit s o).dst = s.dst := rfl
@[simp] theorem emit_pwr (s : State) (o : Output) : (emit s o).pwr = s.pwr := rfl
@[simp] theorem emit_svc (s : State) (o : Output) : (emit s o).svc = s.svc := rfl
@[simp] theorem emit_tel (s : State) (o : Output) : (emit s o).tel = s.tel := rfl

/-! ## draw -/

@[simp] theorem draw_now (s : State) : (draw s).2.now = s.now := rfl
@[simp] theorem draw_pending (s : State) : (draw s).2.pending = s.pending := rfl
@[simp] theorem draw_csr (s : State) : (draw s).2.csr = s.csr := rfl
@[simp] theorem draw_shadow (s : State) : (draw s).2.shadow = s.shadow := rfl
@[simp] theorem draw_mem (s : State) : (draw s).2.mem = s.mem := rfl
@[simp] theorem draw_scratch (s : State) : (draw s).2.scratch = s.scratch := rfl
@[simp] theorem draw_code (s : State) : (draw s).2.code = s.code := rfl
@[simp] theorem draw_slotRam (s : State) : (draw s).2.slotRam = s.slotRam := rfl
@[simp] theorem draw_threads (s : State) : (draw s).2.threads = s.threads := rfl
@[simp] theorem draw_cores (s : State) : (draw s).2.cores = s.cores := rfl
@[simp] theorem draw_ops (s : State) : (draw s).2.ops = s.ops := rfl
@[simp] theorem draw_nextOp (s : State) : (draw s).2.nextOp = s.nextOp := rfl
@[simp] theorem draw_clusters (s : State) : (draw s).2.clusters = s.clusters := rfl
@[simp] theorem draw_spawn (s : State) : (draw s).2.spawn = s.spawn := rfl
@[simp] theorem draw_bridge (s : State) : (draw s).2.bridge = s.bridge := rfl
@[simp] theorem draw_bpm (s : State) : (draw s).2.bpm = s.bpm := rfl
@[simp] theorem draw_tiles (s : State) : (draw s).2.tiles = s.tiles := rfl
@[simp] theorem draw_poison (s : State) : (draw s).2.poison = s.poison := rfl
@[simp] theorem draw_img (s : State) : (draw s).2.img = s.img := rfl
@[simp] theorem draw_eth (s : State) : (draw s).2.eth = s.eth := rfl
@[simp] theorem draw_clkBase (s : State) : (draw s).2.clkBase = s.clkBase := rfl
@[simp] theorem draw_clkAt (s : State) : (draw s).2.clkAt = s.clkAt := rfl
@[simp] theorem draw_gecko (s : State) : (draw s).2.gecko = s.gecko := rfl
@[simp] theorem draw_ev (s : State) : (draw s).2.ev = s.ev := rfl
@[simp] theorem draw_obx (s : State) : (draw s).2.obx = s.obx := rfl
@[simp] theorem draw_tbl (s : State) : (draw s).2.tbl = s.tbl := rfl
@[simp] theorem draw_host (s : State) : (draw s).2.host = s.host := rfl
@[simp] theorem draw_mc (s : State) : (draw s).2.mc = s.mc := rfl
@[simp] theorem draw_clk (s : State) : (draw s).2.clk = s.clk := rfl
@[simp] theorem draw_str (s : State) : (draw s).2.str = s.str := rfl
@[simp] theorem draw_epc (s : State) : (draw s).2.epc = s.epc := rfl
@[simp] theorem draw_dst (s : State) : (draw s).2.dst = s.dst := rfl
@[simp] theorem draw_pwr (s : State) : (draw s).2.pwr = s.pwr := rfl
@[simp] theorem draw_svc (s : State) : (draw s).2.svc = s.svc := rfl
@[simp] theorem draw_tel (s : State) : (draw s).2.tel = s.tel := rfl
@[simp] theorem draw_outbox (s : State) : (draw s).2.outbox = s.outbox := rfl

end Sys2Proof.Machine
end

