-- ==== Sys2Proof/Laws/Ops.lean ====
section
/-! SUPPORT. What the shared operations can do, said once: registers, threads, event sources and memory. -/

namespace Sys2Proof.Machine

/-! ## Registers -/

@[simp] theorem rd_wr_same (s : State) (a : Nat) (w : Word) : rd (wr s a w) a = w := by
  unfold rd wr
  by_cases h : w = resetWord a
  · simp [h, Tab.find?_del_same]
  · simp [h]

theorem rd_wr_ne (s : State) {a b : Nat} (w : Word) (h : b ≠ a) : rd (wr s a w) b = rd s b := by
  unfold rd wr
  by_cases hw : w = resetWord a
  · simp only [hw, if_true, Tab.find?_del_ne s.csr h]
  · simp only [hw, if_false, Tab.find?_put_ne w s.csr h]

theorem rd_wr (s : State) (a b : Nat) (w : Word) : rd (wr s a w) b = if b = a then w else rd s b := by
  by_cases h : b = a
  · subst h; simp
  · rw [if_neg h, rd_wr_ne s w h]

theorem fld_wr_ne (s : State) {a b : Nat} (w : Word) (f : Fld) (h : b ≠ a) : fld (wr s a w) b f = fld s b f := by
  unfold fld; rw [rd_wr_ne s w h]

theorem rd_setFld_ne (s : State) {a b : Nat} (f : Fld) (v : Nat) (h : b ≠ a) : rd (setFld s a f v) b = rd s b :=
  rd_wr_ne s _ h

theorem fld_setFld_same (s : State) (a : Nat) (f : Fld) (v : Nat) (hf : f.hi < 48) :
    fld (setFld s a f v) a f = v % 2 ^ f.width := by
  unfold fld setFld; rw [rd_wr_same, getF_putF _ _ _ hf]

theorem fld_setFld_ne (s : State) {a b : Nat} (f f' : Fld) (v : Nat) (h : b ≠ a) :
    fld (setFld s a f v) b f' = fld s b f' := by
  unfold fld; rw [rd_setFld_ne s f v h]

theorem fld_setFld_apart (s : State) (a : Nat) (f f' : Fld) (v : Nat) (hf : f.hi < 48)
    (h : f'.hi < f.lo ∨ f.hi < f'.lo) : fld (setFld s a f v) a f' = fld s a f' := by
  unfold fld setFld; rw [rd_wr_same, getF_putF_ne _ _ _ _ hf h]

/-- `rd` looks at the register map alone. -/
theorem rd_congr {s u : State} (h : u.csr = s.csr) (a : Nat) : rd u a = rd s a := by unfold rd; rw [h]

theorem fld_congr {s u : State} (h : u.csr = s.csr) (a : Nat) (f : Fld) : fld u a f = fld s a f := by
  unfold fld; rw [rd_congr h]

/-- A write of a register keeps the register map canonical. -/
theorem regsWf_wr (s : State) (a : Nat) (w : Word) (h : regsWf s.csr) : regsWf (wr s a w).csr := by
  unfold wr
  by_cases hw : w = resetWord a
  · simp only [hw, if_true]
    exact ⟨Tab.keys_del _ a h.1, fun e he => h.2 e ((Tab.mem_del _ a e).1 he).1⟩
  · simp only [hw, if_false]
    refine ⟨Tab.keys_ins _ a w (Tab.keys_del _ a h.1) (Tab.del_no_key _ a), fun e he => ?_⟩
    rcases (Tab.mem_ins _ a w e).1 he with rfl | he
    · exact hw
    · exact h.2 e ((Tab.mem_del _ a e).1 he).1

theorem regsWf_filter (t : Tab Word) (p : Nat × Word → Bool) (h : regsWf t) : regsWf (t.filter p) :=
  ⟨h.1.sublist (List.Sublist.map _ List.filter_sublist), fun e he => h.2 e (List.mem_filter.1 he).1⟩

/-! ## Threads, clusters, locks -/

@[simp] theorem th_setTh_same (s : State) (t : Nat) (x : Thread) : th (setTh s t x) t = x := by
  unfold th setTh; simp

theorem th_setTh_ne (s : State) {t k : Nat} (x : Thread) (h : k ≠ t) : th (setTh s t x) k = th s k := by
  unfold th setTh; exact Tab.get_set_ne _ _ _ h

@[simp] theorem setTh_setTh (s : State) (t : Nat) (x y : Thread) : setTh (setTh s t x) t y = setTh s t y := by
  unfold setTh; simp

@[simp] theorem th_updTh_same (s : State) (t : Nat) (f : Thread → Thread) : th (updTh s t f) t = f (th s t) :=
  th_setTh_same s t _

@[simp] theorem updTh_setTh (s : State) (t : Nat) (x : Thread) (f : Thread → Thread) :
    updTh (setTh s t x) t f = setTh s t (f x) := by
  unfold updTh; simp

@[simp] theorem setTh_updTh (s : State) (t : Nat) (x : Thread) (f : Thread → Thread) :
    setTh (updTh s t f) t x = setTh s t x := by
  unfold updTh; simp

theorem th_congr {s u : State} (h : u.threads = s.threads) (t : Nat) : th u t = th s t := by unfold th; rw [h]

@[simp] theorem th_wr (s : State) (a : Nat) (w : Word) (t : Nat) : th (wr s a w) t = th s t := rfl

@[simp] theorem clu_setClu_same (s : State) (c : Nat) (x : Cluster) : clu (setClu s c x) c = x := by
  unfold clu setClu; simp

theorem clu_setClu_ne (s : State) {c k : Nat} (x : Cluster) (h : k ≠ c) : clu (setClu s c x) k = clu s k := by
  unfold clu setClu; exact Tab.get_set_ne _ _ _ h

@[simp] theorem clu_updClu_same (s : State) (c : Nat) (f : Cluster → Cluster) : clu (updClu s c f) c = f (clu s c) :=
  clu_setClu_same s c _

@[simp] theorem lock_setLock_same (s : State) (n : Nat) (x : Lock) : lock (setLock s n x) n = x := by
  unfold lock setLock; simp

theorem lock_setLock_ne (s : State) {n k : Nat} (x : Lock) (h : k ≠ n) : lock (setLock s n x) k = lock s k := by
  unfold lock setLock; exact Tab.get_set_ne _ _ _ h

/-! ## Event sources -/

theorem Counted.refl (s : State) : Counted s s := ⟨s.csr, s.ev, rfl⟩

theorem Counted.trans {s u v : State} (h : Counted s u) (k : Counted u v) : Counted s v := by
  obtain ⟨c, e, rfl⟩ := h
  obtain ⟨c', e', rfl⟩ := k
  exact ⟨c', e', rfl⟩

theorem Counted.wr {s u : State} (h : Counted s u) (a : Nat) (w : Word) : Counted s (wr u a w) := by
  obtain ⟨c, e, rfl⟩ := h
  exact ⟨_, e, rfl⟩

theorem Counted.setFld {s u : State} (h : Counted s u) (a : Nat) (f : Fld) (v : Nat) : Counted s (setFld u a f v) :=
  h.wr a _

theorem Counted.bump {s u : State} (h : Counted s u) (a : Nat) (f : Fld) : Counted s (bump u a f) := h.wr a _

theorem Counted.bumpBy {s u : State} (h : Counted s u) (a : Nat) (f : Fld) (k : Nat) : Counted s (bumpBy u a f k) := h.wr a _

theorem Counted.ev {s u : State} (h : Counted s u) (e : Ev) : Counted s { u with ev := e } := by
  obtain ⟨c, _, rfl⟩ := h
  exact ⟨c, e, rfl⟩

theorem Counted.markHigh {s u : State} (h : Counted s u) (a : Nat) (f : Fld) (v : Nat) : Counted s (markHigh u a f v) := by
  unfold Machine.markHigh
  split
  · exact h.setFld a f v
  · exact h

theorem Counted.evPending {s u : State} (h : Counted s u) (n at_ : Nat) (held : Bool) :
    Counted s (evPending n at_ held u) := ((h.ev _).setFld _ _ _).setFld _ _ _

theorem rd_evPending (s : State) (n at_ a : Nat) (held : Bool) (h : a ≠ Reg.EVT_CFG n) :
    rd (evPending n at_ held s) a = rd s a := by
  unfold evPending
  dsimp only
  rw [rd_setFld_ne _ _ _ h, rd_setFld_ne _ _ _ h]
  rfl

/-- A pulse taken by the controller changes the register of its source, and when it became PENDING. -/
theorem Counted.evPulse {s u : State} (h : Counted s u) (n : Nat) : Counted s (evPulse u n) := by
  unfold Machine.evPulse
  dsimp only
  split
  · exact h
  · split
    · exact h.evPending _ _ _
    all_goals
      split
      · exact h
      · first
        | with_reducible exact h.setFld _ _ _
        | with_reducible exact h.bump _ _
        | with_reducible exact (h.setFld _ _ _).bump _ _

theorem rd_evPulse (s : State) (n a : Nat) (h : a ≠ Reg.EVT_CFG n) : rd (evPulse s n) a = rd s a := by
  unfold evPulse
  dsimp only [bump, bumpBy]
  split
  · rfl
  · split
    · exact rd_evPending _ _ _ _ _ h
    all_goals
      split
      · rfl
      · first
        | with_reducible exact rd_setFld_ne _ _ _ h
        | rw [rd_setFld_ne _ _ _ h, rd_setFld_ne _ _ _ h]

/-- A pulse at a handshake crossing changes the crossings, or the register of its clock domain. -/
theorem Counted.xingPulse {s u : State} (h : Counted s u) (n : Nat) : Counted s (xingPulse u n).1 := by
  unfold Machine.xingPulse
  split
  · exact h.ev _
  · exact h.ev _
  · exact (h.setFld _ _ _).bump _ _

theorem rd_xingPulse (s : State) (n a : Nat) (h : a ≠ Reg.CRS_DOMSTAT (srcDomain s n)) :
    rd (xingPulse s n).1 a = rd s a := by
  unfold xingPulse
  generalize Reg.CRS_DOMSTAT (srcDomain s n) = b at h ⊢
  split
  · rfl
  · rfl
  · dsimp only [bump, bumpBy]; rw [rd_setFld_ne _ _ _ h, rd_setFld_ne _ _ _ h]

/-- Raising an event source changes registers and crossings alone. -/
theorem Counted.raise {s u : State} (h : Counted s u) (n : Nat) : Counted s (raise u n) := by
  unfold Machine.raise
  split
  · exact h.evPulse n
  · split
    · split
      · exact h.ev _
      · exact h
    · have hx := h.xingPulse n
      generalize Machine.xingPulse u n = x at hx
      obtain ⟨s1, b⟩ := x
      dsimp only at hx ⊢
      split
      · exact hx.xingPulse 1600
      · exact hx

theorem raise_frame (s : State) (n : Nat) : ∃ c e, raise s n = { s with csr := c, ev := e } := (Counted.refl s).raise n

/-- A pulse leaves the places that clock domains are read from. -/
@[simp] theorem xingPulse_img (s : State) (n : Nat) : (xingPulse s n).1.img = s.img := by
  obtain ⟨_, _, h⟩ := (Counted.refl s).xingPulse n; rw [h]

/-- Registers apart from the event sources' and the clock domains' are untouched by an event. -/
theorem rd_raise (s : State) (n a : Nat) (h1 : a ≠ Reg.EVT_CFG n) (h2 : a ≠ Reg.CRS_DOMSTAT (srcDomain s n))
    (h3 : a ≠ Reg.CRS_DOMSTAT (srcDomain s 1600)) : rd (raise s n) a = rd s a := by
  unfold raise
  split
  · exact rd_evPulse s n a h1
  · split
    · split <;> rfl
    · have hx := rd_xingPulse s n a h2
      have hi := xingPulse_img s n
      generalize xingPulse s n = x at hx hi
      obtain ⟨s1, b⟩ := x
      dsimp only at hx hi ⊢
      split
      · rw [rd_xingPulse s1 1600 a (by simpa [srcDomain, hi] using h3), hx]
      · exact hx

@[simp] theorem raise_now (s : State) (n : Nat) : (raise s n).now = s.now := by
  obtain ⟨_, _, h⟩ := raise_frame s n; rw [h]
@[simp] theorem raise_freeCtr (s : State) (n : Nat) : (raise s n).freeCtr = s.freeCtr := by
  obtain ⟨_, _, h⟩ := raise_frame s n; rw [h]
@[simp] theorem raise_pending (s : State) (n : Nat) : (raise s n).pending = s.pending := by
  obtain ⟨_, _, h⟩ := raise_frame s n; rw [h]
@[simp] theorem raise_shadow (s : State) (n : Nat) : (raise s n).shadow = s.shadow := by
  obtain ⟨_, _, h⟩ := raise_frame s n; rw [h]
@[simp] theorem raise_mem (s : State) (n : Nat) : (raise s n).mem = s.mem := by
  obtain ⟨_, _, h⟩ := raise_frame s n; rw [h]
@[simp] theorem raise_scratch (s : State) (n : Nat) : (raise s n).scratch = s.scratch := by
  obtain ⟨_, _, h⟩ := raise_frame s n; rw [h]
@[simp] theorem raise_code (s : State) (n : Nat) : (raise s n).code = s.code := by
  obtain ⟨_, _, h⟩ := raise_frame s n; rw [h]
@[simp] theorem raise_slotRam (s : State) (n : Nat) : (raise s n).slotRam = s.slotRam := by
  obtain ⟨_, _, h⟩ := raise_frame s n; rw [h]
@[simp] theorem raise_threads (s : State) (n : Nat) : (raise s n).threads = s.threads := by
  obtain ⟨_, _, h⟩ := raise_frame s n; rw [h]
@[simp] theorem raise_ops (s : State) (n : Nat) : (raise s n).ops = s.ops := by
  obtain ⟨_, _, h⟩ := raise_frame s n; rw [h]
@[simp] theorem raise_nextOp (s : State) (n : Nat) : (raise s n).nextOp = s.nextOp := by
  obtain ⟨_, _, h⟩ := raise_frame s n; rw [h]
@[simp] theorem raise_clusters (s : State) (n : Nat) : (raise s n).clusters = s.clusters := by
  obtain ⟨_, _, h⟩ := raise_frame s n; rw [h]
@[simp] theorem raise_spawn (s : State) (n : Nat) : (raise s n).spawn = s.spawn := by
  obtain ⟨_, _, h⟩ := raise_frame s n; rw [h]
@[simp] theorem raise_bridge (s : State) (n : Nat) : (raise s n).bridge = s.bridge := by
  obtain ⟨_, _, h⟩ := raise_frame s n; rw [h]
@[simp] theorem raise_bpm (s : State) (n : Nat) : (raise s n).bpm = s.bpm := by
  obtain ⟨_, _, h⟩ := raise_frame s n; rw [h]
@[simp] theorem raise_tiles (s : State) (n : Nat) : (raise s n).tiles = s.tiles := by
  obtain ⟨_, _, h⟩ := raise_frame s n; rw [h]
@[simp] theorem raise_poison (s : State) (n : Nat) : (raise s n).poison = s.poison := by
  obtain ⟨_, _, h⟩ := raise_frame s n; rw [h]
@[simp] theorem raise_img (s : State) (n : Nat) : (raise s n).img = s.img := by
  obtain ⟨_, _, h⟩ := raise_frame s n; rw [h]
@[simp] theorem raise_eth (s : State) (n : Nat) : (raise s n).eth = s.eth := by
  obtain ⟨_, _, h⟩ := raise_frame s n; rw [h]
@[simp] theorem raise_clkBase (s : State) (n : Nat) : (raise s n).clkBase = s.clkBase := by
  obtain ⟨_, _, h⟩ := raise_frame s n; rw [h]
@[simp] theorem raise_clkAt (s : State) (n : Nat) : (raise s n).clkAt = s.clkAt := by
  obtain ⟨_, _, h⟩ := raise_frame s n; rw [h]
@[simp] theorem raise_gecko (s : State) (n : Nat) : (raise s n).gecko = s.gecko := by
  obtain ⟨_, _, h⟩ := raise_frame s n; rw [h]
@[simp] theorem raise_obx (s : State) (n : Nat) : (raise s n).obx = s.obx := by
  obtain ⟨_, _, h⟩ := raise_frame s n; rw [h]
@[simp] theorem raise_tbl (s : State) (n : Nat) : (raise s n).tbl = s.tbl := by
  obtain ⟨_, _, h⟩ := raise_frame s n; rw [h]
@[simp] theorem raise_host (s : State) (n : Nat) : (raise s n).host = s.host := by
  obtain ⟨_, _, h⟩ := raise_frame s n; rw [h]
@[simp] theorem raise_mc (s : State) (n : Nat) : (raise s n).mc = s.mc := by
  obtain ⟨_, _, h⟩ := raise_frame s n; rw [h]
@[simp] theorem raise_clk (s : State) (n : Nat) : (raise s n).clk = s.clk := by
  obtain ⟨_, _, h⟩ := raise_frame s n; rw [h]
@[simp] theorem raise_str (s : State) (n : Nat) : (raise s n).str = s.str := by
  obtain ⟨_, _, h⟩ := raise_frame s n; rw [h]
@[simp] theorem raise_epc (s : State) (n : Nat) : (raise s n).epc = s.epc := by
  obtain ⟨_, _, h⟩ := raise_frame s n; rw [h]
@[simp] theorem raise_dst (s : State) (n : Nat) : (raise s n).dst = s.dst := by
  obtain ⟨_, _, h⟩ := raise_frame s n; rw [h]
@[simp] theorem raise_pwr (s : State) (n : Nat) : (raise s n).pwr = s.pwr := by
  obtain ⟨_, _, h⟩ := raise_frame s n; rw [h]
@[simp] theorem raise_svc (s : State) (n : Nat) : (raise s n).svc = s.svc := by
  obtain ⟨_, _, h⟩ := raise_frame s n; rw [h]
@[simp] theorem raise_tel (s : State) (n : Nat) : (raise s n).tel = s.tel := by
  obtain ⟨_, _, h⟩ := raise_frame s n; rw [h]
@[simp] theorem raise_outbox (s : State) (n : Nat) : (raise s n).outbox = s.outbox := by
  obtain ⟨_, _, h⟩ := raise_frame s n; rw [h]

/-! ## Memory -/

theorem rdByte_wrByte (m : List Host.Cell) (a x : Nat) (b : Byte) :
    rdByte (wrByte m a b) x = if x = a then b else rdByte m x := Tab.get_set 0 b m a x

/-- A read after a write: the bytes written, and every other byte as before. -/
theorem rdByte_wrBytes (m : List Host.Cell) (a x : Nat) (l : List Byte) :
    rdByte (wrBytes m a l) x = if a ≤ x ∧ x < a + l.length then l.getD (x - a) 0 else rdByte m x := by
  induction l generalizing m a with
  | nil => rw [wrBytes, if_neg (by simp)]
  | cons b r ih =>
    rw [wrBytes, ih, rdByte_wrByte, List.length_cons]
    by_cases h : x = a
    · subst h; simp
    · by_cases h1 : a + 1 ≤ x ∧ x < a + 1 + r.length
      · rw [if_pos h1, if_pos (by omega), show x - a = (x - (a + 1)) + 1 by omega, List.getD_cons_succ]
      · rw [if_neg h1, if_neg h, if_neg (by omega)]

@[simp] theorem rdBytes_length (m : List Host.Cell) (a n : Nat) : (rdBytes m a n).length = n := by
  induction n generalizing a with
  | zero => rfl
  | succ n ih => simp [rdBytes, ih]

/-- A read of the very bytes written gives them back. -/
theorem rdBytes_wrBytes (m : List Host.Cell) (a : Nat) (l : List Byte) : rdBytes (wrBytes m a l) a l.length = l := by
  suffices h : ∀ n b k, k + n = l.length → b = a + k → rdBytes (wrBytes m a l) b n = l.drop k by
    simpa using h l.length a 0 (by omega) (by omega)
  intro n
  induction n with
  | zero => intro b k hk _; rw [rdBytes, List.drop_eq_nil_of_le (by omega)]
  | succ n ih =>
    intro b k hk hb
    rw [rdBytes, ih (b + 1) (k + 1) (by omega) (by omega), rdByte_wrBytes, if_pos (by omega),
      show b - a = k by omega, List.getD_eq_getElem _ _ (by omega), ← List.drop_eq_getElem_cons]

/-- A read that meets none of the bytes written gives what it gave before. -/
theorem rdBytes_wrBytes_apart (m : List Host.Cell) (a b n : Nat) (l : List Byte)
    (h : b + n ≤ a ∨ a + l.length ≤ b) : rdBytes (wrBytes m a l) b n = rdBytes m b n := by
  induction n generalizing b with
  | zero => rfl
  | succ n ih => rw [rdBytes, rdBytes, ih (b + 1) (by omega), rdByte_wrBytes, if_neg (by omega)]

theorem wf_wrByte (m : List Host.Cell) (a : Nat) (b : Byte) (h : Memory.wf m) : Memory.wf (wrByte m a b) :=
  Tab.wf_set 0 b m a h

/-- Every memory operation keeps the canonical form. -/
theorem wf_wrBytes (m : List Host.Cell) (a : Nat) (l : List Byte) (h : Memory.wf m) : Memory.wf (wrBytes m a l) := by
  induction l generalizing m a with
  | nil => exact h
  | cons b r ih => exact ih _ _ (wf_wrByte m a b h)

/-! ## Repeated operations -/

/-- What each application keeps, a sequence of them keeps. -/
theorem forEach_keeps {α : Type} (P : State → Prop) (l : List α) (f : α → State → State) (s : State)
    (hf : ∀ a ∈ l, ∀ s, P s → P (f a s)) (h : P s) : P (forEach l f s) := by
  unfold forEach
  induction l generalizing s with
  | nil => exact h
  | cons a r ih =>
    exact ih _ (fun b hb => hf b (List.mem_cons_of_mem _ hb)) (hf a (by simp) s h)

/-- The same of a value read from the state. -/
theorem forEach_const {α β : Type} (p : State → β) (l : List α) (f : α → State → State) (s : State)
    (hf : ∀ a ∈ l, ∀ s, p (f a s) = p s) : p (forEach l f s) = p s :=
  forEach_keeps (fun u => p u = p s) l f s (fun a ha u h => (hf a ha u).trans h) rfl

/-! ## The mirror log -/

/-- `u` is `s` but for registers, the crossings of event sources, and the pair's engine. -/
def Logged (s u : State) : Prop := ∃ c d e, u = { s with csr := c, dst := d, ev := e }

theorem Logged.counted {s u v : State} (h : Logged s u) (k : Counted u v) : Logged s v := by
  obtain ⟨c, d, e, rfl⟩ := h
  obtain ⟨c', e', rfl⟩ := k
  exact ⟨c', d, e', rfl⟩

theorem Logged.dst {s u : State} (h : Logged s u) (d : DstS) : Logged s { u with dst := d } := by
  obtain ⟨c, _, e, rfl⟩ := h
  exact ⟨c, d, e, rfl⟩

theorem Logged.unsync {s u : State} (h : Logged s u) : Logged s (unsync u) := by
  unfold Machine.unsync
  dsimp only
  split
  · exact (h.dst _).counted ((Counted.refl _).setFld _ _ _)
  · exact (h.dst _).counted (((((Counted.refl _).setFld _ _ _).setFld _ _ _).bump _ _).raise _)

theorem Logged.capture {s u : State} (h : Logged s u) (a : Nat) : Logged s (capture a u) := by
  unfold Machine.capture
  split
  · exact h
  · split
    · exact h.unsync
    · exact (h.dst _).counted (((Counted.refl _).setFld _ _ _).markHigh _ _ _)

/-- A store changes the memory as `wrBytes` says, and beside it the mirror log and what it counts and raises. -/
theorem storeMem_frame (s : State) (a : Nat) (l : List Byte) :
    Logged { s with mem := wrBytes s.mem a l } (storeMem s a l) := by
  unfold storeMem
  dsimp only
  split
  · exact ⟨s.csr, s.dst, s.ev, rfl⟩
  · refine forEach_keeps (fun u => Logged { s with mem := wrBytes s.mem a l } u) _ _ _ ?_ ⟨s.csr, s.dst, s.ev, rfl⟩
    intro i _ u hu
    show Logged _ (if _ then _ else _)
    split
    · exact hu.capture _
    · exact hu

@[simp] theorem storeMem_mem (s : State) (a : Nat) (l : List Byte) : (storeMem s a l).mem = wrBytes s.mem a l := by
  obtain ⟨c, d, e, h⟩ := storeMem_frame s a l
  rw [h]

end Sys2Proof.Machine
end

