-- ==== Sys2Proof/Laws/Newt.lean ====
section
/-! SUPPORT. What the operand forms, issue and commit do for a thread with nothing in its way. -/

namespace Sys2Proof.Machine

theorem unmet_of_met (l : List Haz) (k : HazKind) (key : Nat) (h : l.all Haz.met = true) : unmet l k key = [] := by
  unfold unmet
  rw [List.all_eq_true] at h
  cases hf : l.filter (fun e => decide (e.kind = k) && e.key == key) with
  | nil => rfl
  | cons e r =>
    have he : e ∈ l := (List.mem_filter.1 (hf ▸ List.mem_cons_self)).1
    simp [h e he]

/-! ## A settled thread -/

section Settled

variable {s : State} {t : Nat}

theorem settled_iff : settled s t = true ↔ t < 3072 ∧ ready s t = true ∧ (th s t).rep = none ∧
    (th s t).hist.all Haz.met = true ∧ ∀ o ∈ s.ops, mayWrite t o = false := by
  unfold settled
  simp only [Bool.and_eq_true, decide_eq_true_eq, Option.isNone_iff_eq_none, Bool.not_eq_true', List.any_eq_false,
    Bool.not_eq_true, and_assoc]

theorem settled_lt (h : settled s t = true) : t < 3072 := (settled_iff.1 h).1
theorem settled_ready (h : settled s t = true) : ready s t = true := (settled_iff.1 h).2.1
theorem settled_rep (h : settled s t = true) : (th s t).rep = none := (settled_iff.1 h).2.2.1
theorem settled_met (h : settled s t = true) : (th s t).hist.all Haz.met = true := (settled_iff.1 h).2.2.2.1
theorem settled_ops (h : settled s t = true) : ∀ o ∈ s.ops, mayWrite t o = false := (settled_iff.1 h).2.2.2.2

theorem settled_newest (h : settled s t = true) (k : HazKind) (key : Nat) : newestUnmet s t k key = none := by
  unfold newestUnmet; rw [unmet_of_met _ _ _ (settled_met h)]; rfl

theorem settled_readHaz (h : settled s t = true) (k : HazKind) (key : Nat) (v : Word) : readHaz s t k key v = (v, s) := by
  unfold readHaz; rw [unmet_of_met _ _ _ (settled_met h)]; rfl

theorem settled_dest (h : settled s t = true) (r : Nat) (o : AsyncOp) (ho : o ∈ s.ops) (hr : r ≠ 0) :
    (o.thread == t && o.dest == r && !o.dead && !o.late) = false := by
  have := settled_ops h o ho
  unfold mayWrite at this
  by_cases hd : o.dest = r
  · subst hd
    have hb : (o.dest != 0) = true := by simpa using hr
    rw [hb, Bool.and_true] at this
    simpa using this
  · have : (o.dest == r) = false := by simpa using hd
    simp [this]

theorem settled_readG (h : settled s t = true) (r : Nat) : readG s t r = (regVal s t r, s) := by
  unfold readG regVal
  by_cases hr : r = 0
  · simp [hr]
  · have hp : pendingDest s t r = false := by
      unfold pendingDest
      rw [Bool.and_eq_false_iff, List.any_eq_false]
      exact Or.inr (fun o ho => by simpa using settled_dest h r o ho hr)
    rw [if_neg hr, if_neg hr]
    simp [hp, settled_readHaz h]

theorem settled_readP (h : settled s t = true) (i : Nat) : readP s t i = (predVal s t i, s) := by
  unfold readP predVal
  by_cases hi : i = 0
  · simp [hi]
  · rw [if_neg hi, settled_readHaz h]
    cases hb : (th s t).p.testBit i <;> simp [hi, b2n, toW]

theorem settled_readCsr (h : settled s t = true) (n : Nat) : readCsr s t n = ((csrGet s t n).getD 0, s) := by
  unfold readCsr; rw [settled_readHaz h]

theorem settled_distCheck (h : settled s t = true) (a : Acc) : distCheck s t a = none := by
  have hp : ∀ r, pendingOp s t r = none := by
    intro r
    unfold pendingOp
    rw [List.find?_eq_none]
    intro o ho
    by_cases hr : r = 0
    · simp [hr]
    · have := settled_dest h r o ho hr
      rw [Bool.not_eq_true]
      revert this
      cases o.thread == t <;> cases o.dest == r <;> cases o.dead <;> cases o.late <;> simp
  unfold distCheck
  simp only [settled_newest h, hp, Option.map_none, ite_self]
  simp [List.findSome?_eq_none_iff]

theorem rep_map_none (x : Thread) (h : x.rep = none) (f : Rep → Rep) : { x with rep := x.rep.map f } = x := by
  cases x; simp_all

theorem updTh_const (f : Thread → Thread) (hf : f (th s t) = th s t) : updTh s t f = setTh s t (th s t) := by
  unfold updTh; rw [hf]

/-! ## Issue -/

/-- The same state with the thread's own entry stored again. -/
@[simp] theorem settled_refl : settled (setTh s t (th s t)) t = settled s t := by
  unfold settled ready intMust intChoices csrCands csrGet clusterRuns
  simp only [th_setTh_same, setTh_ops]
  rfl

/-- What an instruction that issues changes before its own effect: the thread's `checked`, CORE_ISSUE, and a free value
where the checker's change is still settling. -/
theorem issued_frame (s : State) (t : Nat) : ∃ x c f, issued s t = { s with threads := x, cores := c, freeCtr := f } := by
  unfold issued dchkPick updCore updTh setTh choose draw
  split
  · exact ⟨_, _, _, rfl⟩
  · split
    · exact ⟨_, _, _, rfl⟩
    · exact ⟨_, _, _, rfl⟩

theorem th_issued (s : State) (t : Nat) : ∃ b, th (issued s t) t = { th s t with checked := b } := by
  unfold issued dchkPick choose draw
  split
  · exact ⟨_, (th_congr (updCore_threads _ _ _) t).trans (th_updTh_same _ _ _)⟩
  · split
    · exact ⟨_, (th_congr (updCore_threads _ _ _) t).trans (th_updTh_same _ _ _)⟩
    · exact ⟨(th s t).checked, rfl⟩

theorem th_issued_ne (s : State) {t k : Nat} (h : k ≠ t) : th (issued s t) k = th s k := by
  unfold issued dchkPick choose draw
  split
  · exact (th_congr (updCore_threads _ _ _) k).trans (th_setTh_ne _ _ h)
  · split
    · exact (th_congr (updCore_threads _ _ _) k).trans (th_setTh_ne _ _ h)
    · rfl

@[simp] theorem issued_ops (s : State) (t : Nat) : (issued s t).ops = s.ops := by
  obtain ⟨_, _, _, h⟩ := issued_frame s t; rw [h]
@[simp] theorem issued_nextOp (s : State) (t : Nat) : (issued s t).nextOp = s.nextOp := by
  obtain ⟨_, _, _, h⟩ := issued_frame s t; rw [h]
@[simp] theorem issued_clusters (s : State) (t : Nat) : (issued s t).clusters = s.clusters := by
  obtain ⟨_, _, _, h⟩ := issued_frame s t; rw [h]
@[simp] theorem issued_csr (s : State) (t : Nat) : (issued s t).csr = s.csr := by
  obtain ⟨_, _, _, h⟩ := issued_frame s t; rw [h]
@[simp] theorem issued_mem (s : State) (t : Nat) : (issued s t).mem = s.mem := by
  obtain ⟨_, _, _, h⟩ := issued_frame s t; rw [h]
@[simp] theorem issued_scratch (s : State) (t : Nat) : (issued s t).scratch = s.scratch := by
  obtain ⟨_, _, _, h⟩ := issued_frame s t; rw [h]
@[simp] theorem issued_code (s : State) (t : Nat) : (issued s t).code = s.code := by
  obtain ⟨_, _, _, h⟩ := issued_frame s t; rw [h]
@[simp] theorem issued_slotRam (s : State) (t : Nat) : (issued s t).slotRam = s.slotRam := by
  obtain ⟨_, _, _, h⟩ := issued_frame s t; rw [h]
@[simp] theorem issued_now (s : State) (t : Nat) : (issued s t).now = s.now := by
  obtain ⟨_, _, _, h⟩ := issued_frame s t; rw [h]

@[simp] theorem issued_regVal (s : State) (t r : Nat) : regVal (issued s t) t r = regVal s t r := by
  obtain ⟨_, h⟩ := th_issued s t; unfold regVal; rw [h]
@[simp] theorem issued_predVal (s : State) (t i : Nat) : predVal (issued s t) t i = predVal s t i := by
  obtain ⟨_, h⟩ := th_issued s t; unfold predVal; rw [h]

@[simp] theorem settled_issued (s : State) (t : Nat) : settled (issued s t) t = settled s t := by
  obtain ⟨_, h⟩ := th_issued s t
  have hc : ∀ c, clu (issued s t) c = clu s c := fun c => by unfold clu; rw [issued_clusters]
  unfold settled ready intMust intChoices csrCands csrGet clusterRuns
  simp only [h, hc, issued_ops]
  rfl

/-- A settled thread's instruction that is well formed, guarded on and within its privilege runs its body. -/
theorem settled_issue (h : settled s t = true) {w : Word} (hg : guardOn s t w = true) (a : Acc) (body : State → State) :
    issue s t w false false a body = body (setTh (issued s t) t (th (issued s t) t)) := by
  have h1 : settled (issued s t) t = true := (settled_issued s t).trans h
  unfold issue
  rw [settled_ready h]
  generalize hi : issued s t = i at h1 ⊢
  have hgd : Bool.xor (predVal i t (iGuardP w)) (iNeg w) = true := by rw [← hi, issued_predVal]; exact hg
  have hr : repFresh (th i t) = false := by unfold repFresh; rw [settled_rep h1]; rfl
  have hu : updTh i t (fun x => { x with rep := x.rep.map (fun r => { r with word := some w }) }) = setTh i t (th i t) :=
    updTh_const (s := i) _ (rep_map_none _ (settled_rep h1) _)
  simp only [settled_newest h1, settled_readP h1, hgd, hr, hu, Option.map_none, ite_self, Bool.and_false, Bool.false_and,
    Bool.not_true, Bool.false_eq_true, if_false]
  rw [settled_distCheck (by rw [settled_refl]; exact h1)]
  simp

theorem finish_norep (hr : (th s t).rep = none) (npc : Nat) : finish s t npc = setTh s t (wentTo (th s t) npc) := by
  unfold finish updTh
  congr 1
  generalize th s t = x at hr
  cases x
  simp only at hr
  subst hr
  rfl

theorem finishSeq_norep (hr : (th s t).rep = none) : finishSeq s t = setTh s t (advanced (th s t)) :=
  finish_norep hr _

/-- A guarded-off instruction commits and does nothing else (R73). -/
theorem settled_issue_off (h : settled s t = true) {w : Word} (hg : guardOn s t w = false) (priv : Bool) (a : Acc)
    (body : State → State) :
    issue s t w false priv a body = setTh (issued s t) t (advanced (th (issued s t) t)) := by
  have h1 : settled (issued s t) t = true := (settled_issued s t).trans h
  unfold issue
  rw [settled_ready h]
  generalize hi : issued s t = i at h1 ⊢
  have hgd : Bool.xor (predVal i t (iGuardP w)) (iNeg w) = false := by rw [← hi, issued_predVal]; exact hg
  have hu : updTh i t (fun x => { x with rep := x.rep.map (fun r => { r with word := some w }) }) = setTh i t (th i t) :=
    updTh_const (s := i) _ (rep_map_none _ (settled_rep h1) _)
  simp only [settled_newest h1, settled_readP h1, hgd, hu, Option.map_none, ite_self, Bool.false_and, Bool.not_true,
    Bool.not_false, if_true, Bool.false_eq_true, if_false]
  rw [finishSeq_norep (by simpa using settled_rep h1)]
  simp

/-- A reserved field or unassigned opcode traps UNDEF, whatever the guard (R75). -/
theorem ready_issue_undef (h : ready s t = true) (w : Word) (priv : Bool) (a : Acc) (body : State → State) :
    issue s t w true priv a body = trapUndef (issued s t) t w := by
  unfold issue; simp [h]

/-- The write of a settled thread's register. -/
theorem settled_writeG (h : settled s t = true) (r : Nat) (v : Word) (need : Nat) :
    writeG s t r v need = if r = 0 then s else setTh s t (wroteG (th s t) r v need) := by
  unfold writeG
  by_cases hr : r = 0
  · simp [hr]
  · have hops : s.ops.map (fun o => if o.thread == t && o.dest == r && !o.dead && !o.late then { o with clobber := v :: o.clobber } else o)
        = s.ops := by
      conv_rhs => rw [← List.map_id s.ops]
      apply List.map_congr_left
      intro o ho
      rw [settled_dest h r o ho hr]; rfl
    simp only [hr, if_false, unmet_of_met _ _ _ (settled_met h), List.isEmpty_nil, Bool.not_true, Bool.false_eq_true,
      updTh_ops, hops, settled_rep h, Option.isSome_none]
    unfold wroteG
    rw [if_neg hr]
    rfl

theorem writeG_then_finish (h : settled s t = true) (r : Nat) (v : Word) (need : Nat) :
    finishSeq (writeG s t r v need) t = setTh s t (advanced (wroteG (th s t) r v need)) := by
  rw [settled_writeG h]
  by_cases hr : r = 0
  · rw [if_pos hr, finishSeq_norep (settled_rep h)]; simp [wroteG, hr]
  · rw [if_neg hr, finishSeq_norep (by simp [wroteG, hr, settled_rep h])]; simp

/-- The write of a settled thread's predicate. -/
theorem settled_writeP (h : settled s t = true) (i : Nat) (v : Bool) :
    writeP s t i v = if i = 0 then s else setTh s t (wroteP (th s t) i v) := by
  unfold writeP
  by_cases hi : i = 0
  · simp [hi]
  · simp only [hi, if_false, unmet_of_met _ _ _ (settled_met h), List.isEmpty_nil, Bool.not_true, Bool.false_eq_true,
      settled_rep h, Option.isSome_none]
    unfold wroteP
    rw [if_neg hi]
    rfl

theorem writeP_then_finish (h : settled s t = true) (i : Nat) (v : Bool) :
    finishSeq (writeP s t i v) t = setTh s t (advanced (wroteP (th s t) i v)) := by
  rw [settled_writeP h]
  by_cases hi : i = 0
  · rw [if_pos hi, finishSeq_norep (settled_rep h)]; simp [wroteP, hi]
  · rw [if_neg hi, finishSeq_norep (by simp [wroteP, hi, settled_rep h])]; simp

@[simp] theorem regVal_setTh_self (r : Nat) : regVal (setTh s t (th s t)) t r = regVal s t r := by
  unfold regVal; simp

@[simp] theorem predVal_setTh_self (i : Nat) : predVal (setTh s t (th s t)) t i = predVal s t i := by
  unfold predVal; simp

end Settled

end Sys2Proof.Machine
end

