-- ==== Sys2Proof/Tests/Slice0.lean ====
section
/-! SUPPORT. Tests: ill-formed commands are refused, single steps give what the spec's tables say, and for every statement
of Certificates/Slice0/Obligations a concrete state and operands that meet the hypotheses of each of its clauses. -/

open Sys2Proof Sys2Proof.Machine

namespace Sys2Proof.Tests

-- The kernel evaluates these one after another.
set_option Elab.async false

/-! ## Builders of small states -/

/-- An instruction word: opcode, d, a, b and the function field (R72), guard 0. -/
def ins (op d a b fn : Nat) : Word :=
  BitVec.ofNat 48 (op % 256 * 2 ^ 36 + d % 32 * 2 ^ 31 + a % 32 * 2 ^ 26 + b % 32 * 2 ^ 21 + fn % 2 ^ 21)

/-- A thread in a service context at K, with some registers. -/
def runK (g : List (Nat × Nat) := []) : Thread :=
  { Thread.reset with
    state := .service, g := g.map (fun e => (e.1, BitVec.ofNat 48 e.2)),
    csr := { TCsr.reset with tstat := putF (putF TCsr.reset.tstat TS.priv 2) TS.th 0 } }

/-- The same at U. -/
def runU (g : List (Nat × Nat) := []) : Thread :=
  let x := runK g
  { x with csr := { x.csr with tstat := putF x.csr.tstat TS.priv 0 } }

/-- A cluster in RUN. -/
def cluRun : Cluster := { Cluster.reset with power := .run, inReset := false }

/-- Cluster 0 in RUN, with thread 0 as given. -/
def one (x : Thread) : State := { State.reset with threads := [(0, x)], clusters := [(0, cluRun)] }

/-- Registers set. -/
def regs (l : List (Nat × Nat)) (s : State) : State := l.foldl (fun s e => wr s e.1 (BitVec.ofNat 48 e.2)) s

/-- Registers held as given, whatever their reset values (for those whose reset value the part fixes). -/
def lit (l : List (Nat × Word)) (s : State) : State := { s with csr := l.foldl (fun c e => Tab.put c e.1 e.2) s.csr }

/-- Fields set. -/
def flds (l : List (Nat × Fld × Nat)) (s : State) : State := l.foldl (fun s e => setFld s e.1 e.2.1 e.2.2) s

/-- Thread 0 may run the word. -/
def ok (s : State) (w : Word) : Prop := settled s 0 = true ∧ guardOn s 0 w = true

/-! ## Newt -/

theorem witness_aluTwoOperands :
    (∀ r ∈ aluTable, (settled (one runK) 0 = true ∧ guardOn (one runK) 0 (ins r.reg 31 1 2 0) = true) ∧
      iOpcode (ins r.reg 31 1 2 0) = r.reg ∧ iFn (ins r.reg 31 1 2 0) = 0) ∧
    (∀ r ∈ aluTable, ∀ o ∈ r.imm, (settled (one runK) 0 = true ∧ guardOn (one runK) 0 (ins o 3 1 0 47) = true) ∧
      iOpcode (ins o 3 1 0 47) = o ∧ iB (ins o 3 1 0 47) = 0 ∧ (r.count = true → iFn (ins o 3 1 0 47) < 48)) := by
  decide +kernel

theorem witness_aluOneOperand :
    (∀ o ∈ [0x13, 0x14, 0x18, 0x18, 0x18], settled (one runK) 0 = true ∧ guardOn (one runK) 0 (ins o 2 1 0 0) = true ∧
      iOpcode (ins o 2 1 0 0) = o ∧ iB (ins o 2 1 0 0) = 0 ∧ iFn (ins o 2 1 0 0) = 0) ∧
    iFn (ins 0x18 2 1 0 1) = 1 ∧ iFn (ins 0x18 2 1 0 2) = 2 ∧
    (∀ o ∈ [0x15, 0x16, 0x17], settled (one runK) 0 = true ∧ guardOn (one runK) 0 (ins o 2 1 0 (47 * 4096 + 1)) = true ∧
      iOpcode (ins o 2 1 0 (47 * 4096 + 1)) = o ∧ iB (ins o 2 1 0 (47 * 4096 + 1)) = 0 ∧
      iFn (ins o 2 1 0 (47 * 4096 + 1)) = 47 * 2 ^ 12 + 1) ∧
    (settled (one runK) 0 = true ∧ guardOn (one runK) 0 (ins 0x1E 2 1 0 0x1FFFFF) = true ∧
      iOpcode (ins 0x1E 2 1 0 0x1FFFFF) = 0x1E ∧ iB (ins 0x1E 2 1 0 0x1FFFFF) = 0) ∧
    (iOpcode (ins 0 0 0 0 0) = 0 ∧ (ins 0 0 0 0 0).toNat % 2 ^ 36 = 0 ∧ guardOn (one runK) 0 (ins 0 0 0 0 0) = true) ∧
    (iOpcode (ins 0x1D 2 0 0 5) = 0x1D ∧ iA (ins 0x1D 2 0 0 5) = 0 ∧ iB (ins 0x1D 2 0 0 5) = 0 ∧
      guardOn (one runK) 0 (ins 0x1D 2 0 0 5) = true) := by
  decide +kernel

theorem witness_fieldWord : fieldWord (ins 0x15 2 1 0 (47 * 4096 + 1)) :=
  ⟨47, 1, by decide +kernel, by decide, by decide, by decide, by decide⟩

theorem witness_compareSetsPredicate :
    (∀ k < 8, settled (one runK) 0 = true ∧ guardOn (one runK) 0 (ins 0x19 (2 * 8 + 7) 1 2 k) = true ∧
      iD (ins 0x19 (2 * 8 + 7) 1 2 k) / 8 < 3 ∧ (condTable[k]?).isSome = true ∧
      iOpcode (ins 0x19 (2 * 8 + 7) 1 2 k) = 0x19 ∧ iFn (ins 0x19 (2 * 8 + 7) 1 2 k) = k ∧
      guardOn (one runK) 0 (ins 0x59 7 1 k 9) = true ∧ iD (ins 0x59 7 1 k 9) / 8 < 3 ∧
      iOpcode (ins 0x59 7 1 k 9) = 0x59 ∧ iB (ins 0x59 7 1 k 9) = k) := by
  decide +kernel

theorem witness_predicateOperations :
    (∀ k < 8, settled (one runK) 0 = true ∧ guardOn (one runK) 0 (ins 0x1A 17 7 7 k) = true ∧
      iOpcode (ins 0x1A 17 7 7 k) = 0x1A ∧ iD (ins 0x1A 17 7 7 k) / 8 < 3 ∧ iA (ins 0x1A 17 7 7 k) < 8 ∧
      iB (ins 0x1A 17 7 7 k) < 8 ∧ (plogTable[iFn (ins 0x1A 17 7 7 k)]?).isSome = true) ∧
    (guardOn (one runK) 0 (ins 0x1B 1 0 0 0) = true ∧ iOpcode (ins 0x1B 1 0 0 0) = 0x1B ∧ iA (ins 0x1B 1 0 0 0) = 0 ∧
      iB (ins 0x1B 1 0 0 0) = 0 ∧ iFn (ins 0x1B 1 0 0 0) = 0) ∧
    (guardOn (one runK) 0 (ins 0x1C 0 1 0 0) = true ∧ iOpcode (ins 0x1C 0 1 0 0) = 0x1C ∧ iD (ins 0x1C 0 1 0 0) = 0 ∧
      iB (ins 0x1C 0 1 0 0) = 0 ∧ iFn (ins 0x1C 0 1 0 0) = 0) := by
  decide +kernel

theorem witness_csrAccess :
    (∀ n ∈ [0x000, 0x001, 0x002, 0x003, 0x400, 0x808], settled (one runK) 0 = true ∧
      guardOn (one runK) 0 (ins 0x20 1 0 0 n) = true ∧ iOpcode (ins 0x20 1 0 0 n) = 0x20 ∧ iA (ins 0x20 1 0 0 n) = 0 ∧
      iB (ins 0x20 1 0 0 n) = 0 ∧ iFn (ins 0x20 1 0 0 n) < 4096 ∧ (csrGet (one runK) 0 n).isSome = true ∧
      n / 0x400 ≤ privOf (th (one runK) 0)) ∧
    (∀ r ∈ csrTable, ∀ e ∈ csrRw, let s := one (runK [(1, 262134)])
      guardOn s 0 (ins r.2.1 0 1 0 e.1) = true ∧ settled s 0 = true ∧ iOpcode (ins r.2.1 0 1 0 e.1) = r.2.1 ∧
      iD (ins r.2.1 0 1 0 e.1) = 0 ∧ iB (ins r.2.1 0 1 0 e.1) = 0 ∧ iFn (ins r.2.1 0 1 0 e.1) = e.1 ∧
      e.1 / 0x400 ≤ privOf (th s 0) ∧ (csrGet s 0 e.1).isSome = true ∧
      (e.1 = 0x401 ∨ e.1 = 0x801 → (r.2.2 ((csrGet s 0 e.1).getD 0) (regVal s 0 1)).toNat % 2 ^ 18 % 6 = 0 ∧
        (r.2.2 ((csrGet s 0 e.1).getD 0) (regVal s 0 1)).toNat % 2 ^ 18 < 262140)) := by
  decide +kernel

/-- The scratch bytes of cluster 0 at 0xFFFFA, the last six. -/
def lastSix : List NearByte := (List.range 6).map (fun i => .scratch (0 * 0x100000 + 0xFFFFA + i))

theorem witness_nearAccesses :
    let s := one (runK [(1, 0xFFFFA), (2, 5), (4, 0xFFFF8)])
    settled s 0 = true ∧
    (∀ e ∈ [(0x28, 1), (0x29, 2), (0x2A, 3), (0x2B, 4), (0x2C, 6), (0x2D, 1), (0x2E, 2), (0x2F, 3), (0x30, 4)],
      let w := ins e.1 3 1 0 0
      guardOn s 0 w = true ∧ iOpcode w = e.1 ∧ iB w = 0 ∧ w.getLsbD 20 = false ∧
      nearMap s 0 (nearEa s 0 w) e.2 false = .bytes (lastSix.take e.2)) ∧
    (let w := ins 0x2C 3 1 0 (2 ^ 20 + 6)
     guardOn s 0 w = true ∧ w.getLsbD 20 = true ∧ iA w ≠ 0 ∧ iD w ≠ iA w ∧
      nearMap s 0 (nearEa s 0 w) 6 false = .bytes lastSix) ∧
    (∀ e ∈ [(0x31, 1), (0x32, 2), (0x33, 3), (0x34, 4), (0x35, 6)],
      let w := ins e.1 0 1 2 (2 ^ 20 + 6)
      guardOn s 0 w = true ∧ iOpcode w = e.1 ∧ iD w = 0 ∧ iA w ≠ 0 ∧
      nearMap s 0 (nearEa s 0 w) e.2 true = .bytes (lastSix.take e.2)) ∧
    (∀ o ∈ [0x38, 0x39, 0x3A, 0x3B, 0x3C, 0x3D],
      let w := ins o 3 4 2 0
      guardOn s 0 w = true ∧ iOpcode w = o ∧ w.getLsbD 20 = false ∧ nearEa s 0 w + 6 ≤ 0x100000 ∧
      nearEa s 0 w % 8 = 0 ∧ nearMap s 0 (nearEa s 0 w) 6 true =
        .bytes ((List.range 6).map (fun i => .scratch (0 * 0x100000 + 0xFFFF8 + i)))) := by
  decide +kernel

/-- A thread whose far accesses the protection map lets pass. -/
def farSt (g : List (Nat × Nat)) : State := one (runK g)

theorem witness_farOperations :
    (∀ r ∈ farTable, let s := farSt [(1, 0x10000000000), (2, 5)]
      let w := ins r.op (if r.kind = .store then 0 else 3) 1 (if r.kind = .load then 0 else 2) (7 * 2 ^ 17)
      settled s 0 = true ∧ guardOn s 0 w = true ∧ iOpcode w = r.op ∧ (r.kind = .load → iB w = 0) ∧
      (r.kind = .store → iD w = 0) ∧ iTok w < 8 ∧ Tab.get Tok.idle (th s 0).tok (iTok w) ≠ .pending ∧
      farBad r.kind (r.bytes == 6 && r.kind != .atom) (farEa s 0 w) r.bytes = false ∧
      ¬(privOf (th s 0) = 0 ∧ inPstore (farEa s 0 w) = true) ∧
      (if r.kind = .atom then farEa s 0 w % 8 = 0 else farEa s 0 w % 64 + r.bytes ≤ 64) ∧
      allowed s (privOf (th s 0)) (farEa s 0 w) r.kind.reads r.kind.writes = true ∧
      regionOf (farEa s 0 w) = .hbm 0 0) ∧
    (∀ p < 4, let s := farSt [(1, 0xF000000000 + Reg.BRG_PASS p), (2, 5)]
      let w := ins 0x6D 0 1 2 (8 * 2 ^ 17)
      settled s 0 = true ∧ guardOn s 0 w = true ∧ iOpcode w = 0x6D ∧ iD w = 0 ∧ iTok w = 8 ∧
      farBad .store true (farEa s 0 w) 6 = false ∧ farEa s 0 w % 64 + 6 ≤ 64 ∧
      inPstore (farEa s 0 w) = false ∧
      allowed s (privOf (th s 0)) (farEa s 0 w) false true = true ∧
      regionOf (farEa s 0 w) = .csr (Reg.BRG_PASS p)) ∧
    (∀ r ∈ farTable, let s := farSt [(1, 0x800000000000 + 5 * 2 ^ 37), (2, 5)]
      let w := ins r.op (if r.kind = .store then 0 else 3) 1 (if r.kind = .load then 0 else 2) 0
      settled s 0 = true ∧ guardOn s 0 w = true ∧
      farBad r.kind (r.bytes == 6 && r.kind != .atom) (farEa s 0 w) r.bytes = false ∧
      (if r.kind = .atom then farEa s 0 w % 8 = 0 else farEa s 0 w % 64 + r.bytes ≤ 64) ∧
      inPstore (farEa s 0 w) = false ∧
      allowed s (privOf (th s 0)) (farEa s 0 w) r.kind.reads r.kind.writes = true ∧
      regionOf (farEa s 0 w) = .remote 5 ∧ remoteBad s 5 = true) := by
  decide +kernel
/-- Device 5 is a member that link 0, ACTIVE, leads to; this device has joined as 0. -/
def twoDevices (s : State) : State :=
  flds [(Reg.OBX_MEMBER 0, ⟨5, 5⟩, 1), (Reg.OBX_LSTAT 0, F.OBX_LSTAT_state, 4)] (regs [(Reg.OBX_ROUTE 5, 8)]
    { s with obx := { s.obx with everJoined := true } })

theorem witness_remoteFarOperations :
    ∀ r ∈ farTable, let s := twoDevices (farSt [(1, 0x800000000000 + 5 * 2 ^ 37), (2, 5)])
      let w := ins r.op (if r.kind = .store then 0 else 3) 1 (if r.kind = .load then 0 else 2) 0
      settled s 0 = true ∧ guardOn s 0 w = true ∧ iOpcode w = r.op ∧ (r.kind = .load → iB w = 0) ∧
      (r.kind = .store → iD w = 0) ∧ iTok w < 8 ∧ Tab.get Tok.idle (th s 0).tok (iTok w) ≠ .pending ∧
      farBad r.kind (r.bytes == 6 && r.kind != .atom) (farEa s 0 w) r.bytes = false ∧
      ¬(privOf (th s 0) = 0 ∧ inPstore (farEa s 0 w) = true) ∧
      (if r.kind = .atom then farEa s 0 w % 8 = 0 else farEa s 0 w % 64 + r.bytes ≤ 64) ∧
      allowed s (privOf (th s 0)) (farEa s 0 w) r.kind.reads r.kind.writes = true ∧
      regionOf (farEa s 0 w) = .remote 5 ∧ remoteBad s 5 = false := by
  decide +kernel

/-- A packet of one buffer at 0x1_0000_0000 in lane 7, sequence 9. -/
def desc0 : Desc :=
  { hash := 0x70007, seq := 9, flags := 0, lane := 7, queue := 0, len := 100, srcKind := 0, src := 0, sub := 0, l3 := 14,
    l4 := 34, ts := 0, buf0 := 0x100000000 + 2 ^ 56, buf1 := 0, buf2 := 0, etype := 0x800, vlan := 0, kind := 0, unit := 0 }

/-- The bytes of a descriptor in slot 0 of thread 0. -/
def slotRam0 (d : Desc) : Tab (Nat × Byte) := (descBytes d).zipIdx.map (fun e => (e.2, (0, e.1)))

/-- Pool 0: 16 buffers of 2,048 bytes from 0x1_0000_0000, open to threads. -/
def pool0 (s : State) : State :=
  flds [(Reg.BPM_PCFG 0, F.BPM_PCFG_size_tiles, 8), (Reg.BPM_PCFG 0, F.BPM_PCFG_talloc, 1),
    (Reg.BPM_PCFG 0, F.BPM_PCFG_valid, 1)] (regs [(Reg.BPM_PBASE 0, 0x100000000), (Reg.BPM_PBUF 0, 16)] s)

/-- Thread 0 runs `desc0`. -/
def withPkt (x : Thread) : State :=
  pool0 { one { x with state := .packet, pkt := some desc0, slot0 := .full desc0 } with slotRam := slotRam0 desc0 }

theorem witness_packetOperations :
    let s := withPkt (runK [(1, 2042), (2, 5), (3, 2047)])
    settled s 0 = true ∧ (th s 0).pkt = some desc0 ∧
    windowSize (dataBufs s (slotBufs s 0) (slotChain s 0)) = 2048 ∧
    (∀ e ∈ [(0x80, 1), (0x81, 2), (0x82, 3), (0x83, 4), (0x84, 6)], let w := ins e.1 3 1 0 0
      guardOn s 0 w = true ∧ iOpcode w = e.1 ∧ iB w = 0 ∧ iTok w < 8 ∧
      Tab.get Tok.idle (th s 0).tok (iTok w) ≠ .pending ∧ farEa s 0 w + e.2 ≤ 2048) ∧
    (∀ e ∈ [(0x85, 1), (0x86, 2), (0x87, 3), (0x88, 4), (0x89, 6)], let w := ins e.1 0 1 2 (8 * 2 ^ 17)
      guardOn s 0 w = true ∧ iOpcode w = e.1 ∧ iD w = 0 ∧ iTok w = 8 ∧ farEa s 0 w + e.2 ≤ 2048) ∧
    (let w := ins 0x8A 0 3 0 (8 * 2 ^ 17)
     guardOn s 0 w = true ∧ iOpcode w = 0x8A ∧ iD w = 0 ∧ iB w = 0 ∧ iTok w = 8 ∧ farEa s 0 w < 2048 ∧
      windowAddr (dataBufs s (slotBufs s 0) (slotChain s 0)) (farEa s 0 w) = some 0x1000007FF) := by
  decide +kernel

theorem witness_forkMakesChild :
    let s := withPkt (runK [(1, 5), (2, 6)])
    let w := ins 0x8D 3 1 2 0
    let key := seqKey 7 9
    settled s 0 = true ∧ guardOn s 0 w = true ∧ (th s 0).pkt = some desc0 ∧ iOpcode w = 0x8D ∧ iFn w % 2 ^ 17 = 0 ∧
    iTok w < 8 ∧ Tab.get Tok.idle (th s 0).tok (iTok w) ≠ .pending ∧
    ((seqRec s key).skipped = false ∧ (seqRec s key).kids.length < 64 ∧ s.bridge.kidsUsed < 16384) ∧
    (let r := setRec s key { SeqRec.reset with skipped := true }
     settled r 0 = true ∧ (th r 0).pkt = some desc0 ∧ (seqRec r key).skipped = true) ∧
    (let r := setRec s key { SeqRec.reset with kids := List.replicate 64 (0, 0) }
     settled r 0 = true ∧ (seqRec r key).skipped = false ∧ 64 ≤ (seqRec r key).kids.length) ∧
    (let r := { s with bridge := { s.bridge with kidsUsed := 16384 } }
     settled r 0 = true ∧ (seqRec r key).skipped = false ∧ (seqRec r key).kids.length < 64 ∧ 16384 ≤ r.bridge.kidsUsed) := by
  decide +kernel

/-- Table 3 of a kind, keys of 8 bytes and actions of 4. -/
def tableK (k : Nat) (s : State) : State :=
  flds [(Reg.TBL_T_CFG 3, F.TBL_T_CFG_kind, k), (Reg.TBL_T_CFG 3, F.TBL_T_CFG_key_bits, 64),
    (Reg.TBL_T_CFG 3, F.TBL_T_CFG_action_bits, 32)] s

theorem witness_helperOperations :
    (∀ k ∈ [0, 1], let s := tableK k (one (runK [(1, 0xFFFF4)]))
      let w := ins 0x90 3 1 0 (3 * 2 ^ 12)
      settled s 0 = true ∧ guardOn s 0 w = true ∧ iOpcode w = 0x90 ∧ iB w = 0 ∧ iFn w % 2 ^ 12 = 0 ∧ iTok w < 8 ∧
      Tab.get Tok.idle (th s 0).tok (iTok w) ≠ .pending ∧ iTable w = 3 ∧ tKind s 3 = k ∧ tKeyBytes s 3 = 8 ∧
      nearMap s 0 0xFFFF4 8 false = .bytes ((List.range 8).map (fun i => .scratch (0 * 0x100000 + 0xFFFF4 + i)))) ∧
    (∀ k ∈ [0, 1], let s := tableK k (one (runK [(1, 0xFFFF4)]))
      let w := ins 0x91 0 1 0 (8 * 2 ^ 17 + 3 * 2 ^ 12)
      settled s 0 = true ∧ guardOn s 0 w = true ∧ iOpcode w = 0x91 ∧ iD w = 0 ∧ iB w = 0 ∧ iFn w % 2 ^ 12 = 0 ∧ iTok w = 8 ∧
      iTable w = 3 ∧ tKind s 3 = k ∧ tKeyBytes s 3 + tActBytes s 3 = 12 ∧
      nearMap s 0 0xFFFF4 12 false = .bytes ((List.range 12).map (fun i => .scratch (0 * 0x100000 + 0xFFFF4 + i)))) ∧
    (let s := pool0 (one (runK [(1, 0), (2, 65537), (3, 2049), (4, 1), (5, 2048)]))
     settled s 0 = true ∧ (∀ a ∈ [1, 2, 3, 4, 5], guardOn s 0 (ins 0x92 6 a 0 0) = true ∧ iOpcode (ins 0x92 6 a 0 0) = 0x92 ∧
      iB (ins 0x92 6 a 0 0) = 0 ∧ iFn (ins 0x92 6 a 0 0) % 2 ^ 17 = 0 ∧ iTok (ins 0x92 6 a 0 0) < 8) ∧
      ballocPool s (0 / 128 / 6) 2049 = none ∧ ballocPool s (0 / 128 / 6) 1 = some 0 ∧
      ballocPool s (0 / 128 / 6) 2048 = some 0) ∧
    (let s := pool0 (one (runK [(1, 0x100007FFF), (2, 0x100008000)]))
     settled s 0 = true ∧ (∀ a ∈ [1, 2], let w := ins 0x93 0 a 0 (8 * 2 ^ 17)
      guardOn s 0 w = true ∧ iOpcode w = 0x93 ∧ iD w = 0 ∧ iB w = 0 ∧ iFn w % 2 ^ 17 = 0 ∧ iTok w = 8) ∧
      allowed s 2 0x100007FFF false true = true ∧ poolOf s 0x100007FFF = some 0 ∧
      allowed s 2 0x100008000 false true = true ∧ poolOf s 0x100008000 = none) ∧
    (let s := regs [(Reg.PRT_DEFAULT, 0)] (pool0 (one (runU [(1, 0x100000000)])))
     settled s 0 = true ∧ privOf (th s 0) = 0 ∧ allowed s 0 0x100000000 false true = false) := by
  decide +kernel

/-- Tokens 0 and 7 DONE with the statuses given. -/
def doneToks (a b : Nat) : Thread := { runK with tok := [(0, .done a), (7, .done b)] }

theorem witness_waitAndFence :
    (∀ e ∈ [(0, 1), (2, 4)], let s := one (doneToks e.1 e.2)
      let w := ins 0x98 3 0 0 (if e.1 = 0 then 0x81 else 0x181)
      settled s 0 = true ∧ guardOn s 0 w = true ∧ iOpcode w = 0x98 ∧ iA w = 0 ∧ iB w = 0 ∧ iFn w < 2 ^ 9 ∧
      (∀ k < 8, (iFn w).testBit k = true → Tab.get Tok.idle (th s 0).tok k ≠ .pending) ∧
      (List.range 8).filter (fun k => (iFn w).testBit k && (tokStatus (th s 0) k == 3 || tokStatus (th s 0) k == 5 ||
        (!(iFn w).testBit 8 && (tokStatus (th s 0) k == 2 || tokStatus (th s 0) k == 4)))) = []) ∧
    (∀ e ∈ [(5, 3), (3, 2), (2, 4)], let s := one (doneToks e.1 e.2)
      let w := ins 0x98 3 0 0 0x81
      settled s 0 = true ∧ guardOn s 0 w = true ∧ iFn w < 2 ^ 9 ∧ getF (th s 0).csr.tstat TS.th = 0 ∧
      (∀ k < 8, (iFn w).testBit k = true → Tab.get Tok.idle (th s 0).tok k ≠ .pending) ∧
      (List.range 8).filter (fun k => (iFn w).testBit k && (tokStatus (th s 0) k == 3 || tokStatus (th s 0) k == 5 ||
        (!(iFn w).testBit 8 && (tokStatus (th s 0) k == 2 || tokStatus (th s 0) k == 4)))) ≠ []) ∧
    (let s := one { runK with tok := [(7, .pending)] }
     settled s 0 = true ∧ (iFn (ins 0x98 3 0 0 0x80)).testBit 7 = true ∧
      Tab.get Tok.idle (th s 0).tok 7 = .pending) := by
  decide +kernel

/-- A far load of thread 0 that is under way. -/
def opLoad : AsyncOp :=
  { id := 0, thread := 0, cls := .far, tok := some 1, dest := 0, kind := .load 0x10000000000 6 false, pc := 0, limit := 0x271,
    dead := false, late := false, clobber := [], result := none }

theorem witness_fence :
    let w := ins 0x99 0 0 0 7
    settled (one runK) 0 = true ∧ guardOn (one runK) 0 w = true ∧ iOpcode w = 0x99 ∧ w.toNat % 2 ^ 36 < 8 ∧
    ((one runK).ops.filter (fun o => o.thread == 0 && !o.dead && !o.late && fenceSel (iFn w) o.cls)).map (·.id) = [] ∧
    (let s := { one runK with ops := [opLoad] }
     settled s 0 = true ∧ (s.ops.filter (fun o => o.thread == 0 && !o.dead && !o.late && fenceSel (iFn w) o.cls)).map (·.id) = [0]) := by
  decide +kernel

theorem witness_packetEndings :
    let s := withPkt (runK [(1, 5), (2, 6)])
    let r := ins 0x8B 0 1 2 0
    let d := ins 0x8C 0 0 0 0
    let p := { s with ops := [opLoad] }
    settled s 0 = true ∧ settled p 0 = true ∧ guardOn s 0 r = true ∧ guardOn s 0 d = true ∧ (th s 0).pkt = some desc0 ∧
    (th p 0).pkt = some desc0 ∧ iOpcode r = 0x8B ∧ iD r = 0 ∧ iFn r = 0 ∧ iOpcode d = 0x8C ∧ d.toNat % 2 ^ 36 = 0 ∧
    opsPending s 0 = false ∧ opsPending p 0 = true := by
  decide +kernel

/-- The same thread at another pc. -/
def atPc (pc : Nat) (x : Thread) : Thread := { x with pc := pc }

theorem witness_branchesGo :
    (∀ o ∈ [0xA0, 0xA1], let s := one (atPc 262128 runK)
      let w := ins o (if o = 0xA0 then 0 else 3) 0 0 1
      settled s 0 = true ∧ guardOn s 0 w = true ∧ iOpcode w = o ∧ (o = 0xA0 → iD w = 0) ∧ iA w = 0 ∧ iB w = 0 ∧
      (((th s 0).pc + 6 * ((w.extractLsb' 0 21).signExtend 48).toInt : Int) = 262134) ∧ 262134 % 6 = 0 ∧ 262134 < 262140) ∧
    (∀ a ∈ [0, 262134], let s := one (runK [(1, a)])
      let w := ins 0xA2 3 1 0 0
      settled s 0 = true ∧ guardOn s 0 w = true ∧ iOpcode w = 0xA2 ∧ iB w = 0 ∧ iFn w = 0 ∧
      (regVal s 0 (iA w)).toNat % 6 = 0 ∧ (regVal s 0 (iA w)).toNat < 262140) ∧
    (∀ a ∈ [1, 262140], let s := one (runK [(1, a)])
      let w := ins 0xA2 3 1 0 0
      settled s 0 = true ∧ guardOn s 0 w = true ∧ getF (th s 0).csr.tstat TS.th = 0 ∧
      ((regVal s 0 (iA w)).toNat % 6 ≠ 0 ∨ 262140 ≤ (regVal s 0 (iA w)).toNat)) := by
  decide +kernel

/-- A branch from 262,134 to 262,140, and one from 0 to −6, have no good target. -/
theorem witness_badTarget :
    (∀ o ∈ [0xA0, 0xA1], let w := ins o 0 0 0 1
      settled (one (atPc 262134 runK)) 0 = true ∧ guardOn (one (atPc 262134 runK)) 0 w = true ∧ iOpcode w = o ∧
      getF (th (one (atPc 262134 runK)) 0).csr.tstat TS.th = 0) ∧
    (∀ n : Nat, ((th (one (atPc 262134 runK)) 0).pc + 6 * (((ins 0xA0 0 0 0 1).extractLsb' 0 21).signExtend 48).toInt : Int) = n →
      n % 6 = 0 → 262140 ≤ n) ∧
    (∀ n : Nat, ((th (one runK) 0).pc + 6 * (((ins 0xA0 0 0 0 0x1FFFFF).extractLsb' 0 21).signExtend 48).toInt : Int) = n →
      n % 6 = 0 → 262140 ≤ n) := by
  refine ⟨by decide +kernel, fun n h _ => ?_, fun n h _ => ?_⟩
  · have e : ((th (one (atPc 262134 runK)) 0).pc +
      6 * (((ins 0xA0 0 0 0 1).extractLsb' 0 21).signExtend 48).toInt : Int) = 262140 := by decide +kernel
    omega
  · have e : ((th (one runK) 0).pc +
      6 * (((ins 0xA0 0 0 0 0x1FFFFF).extractLsb' 0 21).signExtend 48).toInt : Int) = -6 := by decide +kernel
    omega
theorem witness_repeatPrefixes :
    (∀ e ∈ [(0xA8, 0), (0xA8, 1), (0xA8, 65535), (0xA9, 0), (0xA9, 1), (0xA9, 256), (0xA9, 257)],
      let w := ins e.1 0 0 0 e.2
      settled (one runK) 0 = true ∧ guardOn (one runK) 0 w = true ∧ iD w = 0 ∧ iB w = 0 ∧ iFn w = e.2 ∧ e.2 < 2 ^ 16 ∧
      iA w = 0 ∧ iOpcode w = e.1 ∧ getF (th (one runK) 0).csr.tstat TS.th = 0) ∧
    (∀ o ∈ [0xA8, 0xA9], let s := one (runK [(1, 0x30000)])
      let w := ins o 0 1 0 (2 ^ 20)
      settled s 0 = true ∧ guardOn s 0 w = true ∧ iD w = 0 ∧ iB w = 0 ∧ iFn w = 2 ^ 20 ∧
      (regVal s 0 (iA w)).toNat % 2 ^ 16 = 0 ∧ iOpcode w = o ∧ getF (th s 0).csr.tstat TS.th = 0) := by
  decide +kernel

/-- A repeat of a word with some iterations left. -/
def inRep (left : Nat) (w : Word) (g : List (Nat × Nat)) : Thread :=
  { runK g with rep := some { noInt := false, left := left, word := some w, fresh := true } }

theorem witness_repeatIterates :
    ∀ left ∈ [1, 2], ∀ o ∈ [0x01, 0x31], let w := ins o (if o = 1 then 3 else 0) 1 2 0
      let s := one (inRep left w [(1, 5), (2, 6)])
      ready s 0 = true ∧ (th s 0).rep = some { noInt := false, left := left, word := some w, fresh := true } ∧
      iOpcode w = o ∧ iFn w = 0 ∧ guardOn s 0 w = true ∧ (th s 0).hist.all Haz.met = true ∧
      s.ops.any (mayWrite 0) = false := by
  decide +kernel

/-- In a DOZE with destination 3 and a limit. -/
def dozing (limit : Nat) : Thread := { runK with wait := .doze 3 limit 0 }

theorem witness_dozeAndExit :
    (∀ b : Bool, let s := one { runK with wake := b }
      let w := ins 0xB0 3 1 0 0
      settled s 0 = true ∧ guardOn s 0 w = true ∧ iOpcode w = 0xB0 ∧ iB w = 0 ∧ iFn w = 0 ∧ (th s 0).wake = b) ∧
    (∀ l ∈ [0, 1], let s := one (dozing l)
      (th s 0).wait = .doze 3 l 0 ∧ (th s 0).rep = none ∧ (th s 0).hist.all Haz.met = true ∧
      s.ops.any (mayWrite 0) = false ∧ (th s 0).state = .service) ∧
    (let w := ins 0xB1 0 0 0 0
     settled (one runK) 0 = true ∧ guardOn (one runK) 0 w = true ∧ iOpcode w = 0xB1 ∧ w.toNat % 2 ^ 36 = 0 ∧
      privOf (th (one runK) 0) ≠ 0 ∧ (th (one runK) 0).pkt = none ∧ (th (one runK) 0).slot0 = .empty ∧
      (th (one runK) 0).slot1 = .empty) := by
  decide +kernel

/-- The same thread within a trap. -/
def inTrap (x : Thread) : Thread := { x with csr := { x.csr with tstat := putF x.csr.tstat TS.th 1 } }

theorem witness_trapEntry :
    (∀ x ∈ [runK, inTrap runK], let w := ins 0xB4 0 0 0 7
      settled (one x) 0 = true ∧ guardOn (one x) 0 w = true ∧ iOpcode w = 0xB4 ∧ iD w = 0 ∧ iA w = 0 ∧ iB w = 0) ∧
    getF (th (one runK) 0).csr.tstat TS.th = 0 ∧ getF (th (one (inTrap runK)) 0).csr.tstat TS.th = 1 ∧
    (ready (one runK) 0 = true ∧ (runOp (iOpcode (ins 0xFF 0 0 0 0))).isNone = true) ∧
    (ready (one (atPc 262140 runK)) 0 = true ∧ (th (one (atPc 262140 runK)) 0).pc = 262140 ∧
      getF (th (one (atPc 262140 runK)) 0).csr.tstat TS.th = 0) := by
  decide +kernel

/-- A trap to return from, at 60, where a repeat of `n` iterations goes on when `v` is 1. -/
def trappedIn (v n : Nat) : Thread :=
  let x := inTrap runK
  { x with csr := { x.csr with
      tepc := 60, trep := putF (putF (putF 0 TS.repValid v) TS.repTarget 60) TS.repLeft n } }

theorem witness_trapReturn :
    ∀ v ∈ [0, 1], ∀ n ∈ [0, 3], let s := one (trappedIn v n)
      let w := ins 0xB5 0 0 0 0
      settled s 0 = true ∧ guardOn s 0 w = true ∧ iOpcode w = 0xB5 ∧ w.toNat % 2 ^ 36 = 0 ∧ privOf (th s 0) = 2 ∧
      (th s 0).csr.tepc.toNat % 6 = 0 ∧ (th s 0).csr.tepc.toNat < 262140 ∧ getF (th s 0).csr.trep TS.repValid = v ∧
      getF (th s 0).csr.trep TS.repLeft = n := by
  decide +kernel

/-- Interrupts on, with TINT as given and TTIMER at 5. -/
def intOn (tint : Word) : Thread :=
  { runK with csr := { runK.csr with tstat := putF runK.csr.tstat TS.ie 1, tint := tint, ttimer := 5 } }

theorem witness_interrupts :
    (∀ v ∈ [0x701, 0x706, 0x404], let s := one (intOn (BitVec.ofNat 48 v))
      running (th s 0) = true ∧ clusterRuns s 0 = true ∧ (th s 0).pendKill = false ∧ inRepn (th s 0) = false ∧
      inEnding (th s 0) = false ∧ (th s 0).hist.all Haz.met = true ∧ getF (th s 0).csr.tstat TS.ie = 1 ∧
      getF (th s 0).csr.tstat TS.th = 0) ∧
    (let t (v : Nat) := (th (one (intOn (BitVec.ofNat 48 v))) 0).csr.tint
     (getF (t 0x701) TS.sp = 1 ∧ getF (t 0x701) TS.sie = 1) ∧
     (getF (t 0x706) TS.sp = 0 ∧ getF (t 0x706) TS.tp = 1 ∧ getF (t 0x706) TS.tie = 1) ∧
     (getF (t 0x404) TS.sp = 0 ∧ getF (t 0x404) TS.tp = 0 ∧ getF (t 0x404) TS.ep = 1 ∧ getF (t 0x404) TS.eie = 1)) ∧
    (th (one (intOn 0)) 0).csr.ttimer ≠ 0 := by
  decide +kernel

theorem witness_guardedOffDoesNothing :
    ∀ o ∈ opcodes, let w := ins o 1 1 1 0 ||| BitVec.ofNat 48 (2 ^ 47)
      settled (one runK) 0 = true ∧ guardOn (one runK) 0 w = false ∧ (runOp (iOpcode w)).isSome = true := by
  decide +kernel

/-- g1 written by the instruction before, its readers to keep `need`. -/
def justWrote (need : Nat) : Haz :=
  { kind := .g, key := 1, need := need, age := 1, rep := false, before := 3, after := 4, pc := 6 }

theorem witness_tooCloseTraps :
    ∀ r ∈ aluTable, let s := flds [(Reg.CLU_CTL 0, F.CLU_CTL_dchk_en, 1)] (one { runK [(1, 4)] with hist := [justWrote 2] })
      let w := ins r.reg 3 1 2 0
      ready s 0 = true ∧ (th s 0).rep = none ∧ flag s (Reg.CLU_CTL (0 / 128)) F.CLU_CTL_dchk_en = true ∧ dchkOpen s 0 = false ∧ iGuardP w = 0 ∧ iNeg w = false ∧ iOpcode w = r.reg ∧
      iFn w = 0 ∧ (th s 0).hist = [justWrote 2] ∧ (justWrote 2).key = iA w ∧ iA w ≠ 0 ∧ (justWrote 2).age < (justWrote 2).need ∧ (justWrote 2).tok = none ∧
      getF (th s 0).csr.tstat TS.th = 0 := by
  decide +kernel

theorem witness_tooCloseReads :
    (pendingDest (one runK) 0 1 = false ∧
      ((th (one runK) 0).hist.filter (fun h => decide (h.kind = .g) && h.key == 1)).takeWhile (fun h => !h.met) = []) ∧
    (let s := one { runK [(1, 4)] with hist := [justWrote 4, justWrote 2] }
     pendingDest s 0 1 = false ∧
      (((th s 0).hist.filter (fun h => decide (h.kind = .g) && h.key == 1)).takeWhile (fun h => !h.met)).getLast? =
        some (justWrote 2)) := by
  decide +kernel

/-- An operation of thread 0 with destination g3. -/
def opKnown (tok : Option Nat) (st : Nat) (dead late : Bool) : AsyncOp :=
  { opLoad with kind := .known st 9, tok := tok, dest := 3, dead := dead, late := late }

theorem witness_completionsDelivered :
    ∀ o ∈ [opKnown (some 1) 0 false false, opKnown (some 1) 3 false false, opKnown none 1 false false,
        opKnown none 2 false false, opKnown (some 1) 0 true false, opKnown none 0 false true, { opLoad with late := false }],
      let s := { one runK with ops := [o] }
      opOf s 0 = some o ∧ asyncWaits s o = false ∧ (th s o.thread).wait = .none ∧ o.clobber = [] ∧ o.thread < 3072 := by
  decide +kernel

theorem witness_farMemory :
    ∀ k ∈ [OpKind.store 0x10000000000 6 5, .load 0x10000000000 6 false, .load 0x1000000003F 1 true,
        .atom 5 0x10000000000 1 2], let o := { opLoad with kind := k, dest := 3 }
      let s := { one runK with ops := [o] }
      opOf s 0 = some o ∧ asyncWaits s o = false ∧ (th s 0).wait = .none ∧
      ∀ a ∈ k.far, populated s a = true ∧ retiredAt s a = false ∧ retiredIn s a 8 = false ∧ retiredIn s a 6 = false ∧
        poisoned s a 8 = false ∧ regionOf a = .hbm 0 (a - 0x10000000000) := by
  decide +kernel

/-- Thread 0 in a state, of a cluster that has a program with entry 120. -/
def inState (st : TState) : State :=
  flds [(Reg.STR_PROG 0, F.STR_PROG_valid, 1)]
    { one { runK with state := st, prior := if st = .halted then .service else .idle } with
      img := { State.reset.img with entry := [(0, 120)] } }

theorem witness_threadCommands :
    (∀ p ∈ [(0, 1), (262134, 2)], (th (inState .idle) 0).state = .idle ∧ (th (inState .idle) 0).pendKill = false ∧
      (th (inState .idle) 0).pendHalt = false ∧ p.1 % 6 = 0 ∧ p.1 < 262140 ∧ (p.2 = 1 ∨ p.2 = 2) ∧
      (clu (inState .idle) (0 / 128)).power = .run) ∧
    (∀ st ∈ [TState.killed, .reset], (th (inState st) 0).state = st ∧ running (th (inState st) 0) = false) ∧
    (running (th (inState .service) 0) = true ∧ (th (inState .service) 0).wait = .none) ∧
    ((th (inState .halted) 0).state = .halted ∧ (th (inState .halted) 0).pendKill = false ∧
      (th (inState .halted) 0).prior ≠ .idle) ∧
    (∀ st ∈ [TState.service, .idle], let s := setTh (inState st) 0 { th (inState st) 0 with pendHalt := true }
      (th s 0).pendHalt = true ∧ (th s 0).pendKill = false ∧ inRepn (th s 0) = false ∧ inEnding (th s 0) = false ∧
      (th s 0).state = st) := by
  decide +kernel

theorem witness_killAndReset :
    ((th (inState .service) 0).state ≠ .killed ∧ (th (inState .service) 0).state ≠ .reset ∧
      (th (inState .service) 0).pendKill = false) ∧
    (let s := setTh (inState .service) 0 { th (inState .service) 0 with pendKill := true }
     (th s 0).pendKill = true ∧ killDone s 0 = true ∧ (th s 0).restart = 0) ∧
    ((th (inState .killed) 0).state = .killed ∧ cluHasProg (inState .killed) (0 / 128) = true ∧
      (clu (inState .killed) (0 / 128)).power = .run) ∧
    (let s := { inState .killed with threads := (List.range 8).map (fun i => (i, { runK with state := .killed })) }
     cluHasProg s (7 / 128) = true ∧
      ∀ i < 8, (th s (7 / 8 * 8 + i)).state = .killed ∧ (th s (7 / 8 * 8 + i)).pendKill = false) := by
  decide +kernel

theorem witness_counterClears : (clearTable 23 63 11).length = 18 ∧ (clearTable 0 0 0).length = 18 := by decide +kernel

/-- A Lyre descriptor: operation, algorithm, and offset–value pairs of its 8-byte fields (R143). -/
def lyd (op alg : Nat) (f : List (Nat × Nat)) : List Byte :=
  (List.range 64).map (fun i => if i = 0 then BitVec.ofNat 8 op else if i = 1 then BitVec.ofNat 8 alg else
    match f.find? (fun e => e.1 == i / 8 * 8) with
    | some e => BitVec.ofNat 8 (e.2 / 256 ^ (i % 8))
    | none => 0)
/-- LYR_EN with the save area at 0x8000 of scratch, open to every privilege; the descriptor stands at 0x4000. -/
def lyrThread : Thread :=
  let x := runK [(1, 0x4000)]
  { x with csr := { x.csr with lyrEn := 0x8007 } }

/-- Context slot 0 of cluster 0, of thread 0. -/
def lyrSlot0 : LyrSlot := { idx := 0, owner := 0, save := 0x8000, ctx := LyrCtx.reset }

/-- COPY of 16 bytes from 0x100 to 0x200, COMPARE of 16 at 0x100 with 16 at 0x200 (R144). -/
def copyD : List Byte := lyd 0x10 0 [(0x08, 0x100), (0x10, 16), (0x20, 0x200)]
def compareD : List Byte := lyd 0x11 0 [(0x08, 0x100), (0x10, 16), (0x28, 0x200), (0x30, 16)]

/-- A cluster whose Lyre has the slots given, and the descriptor in scratch. -/
def lyrSt (slots : List LyrSlot) (d : List Byte) : State :=
  { one lyrThread with scratch := wrBytes [] 0x4000 d, clusters := [(0, { cluRun with lyrSlots := slots })] }

theorem witness_lyrAnswers :
    (∀ s ∈ [lyrSt [lyrSlot0] copyD, lyrSt [lyrSlot0] (lyd 0x77 0 [])], let w := ins 0xC0 3 1 0 0
      settled s 0 = true ∧ guardOn s 0 w = true ∧ iOpcode w = 0xC0 ∧ iB w = 0 ∧ iTok w < 8 ∧
      (th s 0).csr.lyrEn.getLsbD (privOf (th s 0)) = true ∧ farEa s 0 w ≤ 0xFFFC0 ∧ farEa s 0 w % 64 = 0 ∧
      (th s 0).hist = [] ∧ getF (th s 0).csr.tstat TS.th = 0 ∧ Tab.get Tok.idle (th s 0).tok (iTok w) ≠ .pending ∧
      (slotOfThread s 0).isSome = true ∧ (clu s 0).lyrOps.length < 32) ∧
    (∀ i < 128, i ≠ 0 → running (th (lyrSt [lyrSlot0] copyD) (0 / 128 * 128 + i)) = false) ∧
    lyrReasons (lyrSt [lyrSlot0] copyD) 0 (ins 0xC0 3 1 0 0) = [] ∧
    lyrReasons (lyrSt [lyrSlot0] (lyd 0x77 0 [])) 0 (ins 0xC0 3 1 0 0) ≠ [] := by
  decide +kernel

/-- Every context slot is taken by a thread with an operation accepted. -/
def lyrFull : State :=
  { (lyrSt [] copyD) with clusters := [(0, { cluRun with
      lyrSlots := (List.range 32).map (fun i => { lyrSlot0 with idx := i, owner := i + 1 }),
      lyrOps := (List.range 32).map (fun i =>
        { id := i, thread := i + 1, desc := copyD, priv := 2, snap := [], bad := false, own := none, dst := 0, dstLen := 0, atoms := [] }) })] }

theorem witness_lyrBusy :
    let w := ins 0xC0 3 1 0 0
    settled lyrFull 0 = true ∧ guardOn lyrFull 0 w = true ∧ lyrReasons lyrFull 0 w = [] ∧
    Tab.get Tok.idle (th lyrFull 0).tok (iTok w) ≠ .pending ∧ slotOfThread lyrFull 0 = none ∧ freeSlots lyrFull 0 = [] ∧
    victimSlot lyrFull 0 = none := by
  decide +kernel

/-- The asynchronous operation of an LYR, and the state in which Lyre holds it with its operand bytes. -/
def opLyr : AsyncOp := { opLoad with cls := .lyr, dest := 3, kind := .lyr }
def lyrWork (bad : Bool) (d : List Byte) (scr : List (Nat × Byte)) (snap : List (List Byte)) : State :=
  { lyrSt [lyrSlot0] d with
      ops := [opLyr], scratch := scr,
      clusters := [(0, { cluRun with
        lyrSlots := [lyrSlot0],
        lyrOps := [{ id := 0, thread := 0, desc := d, priv := 2, snap := snap, bad := bad, own := none, dst := dDst d, dstLen := dDstLen d, atoms := [] }] })] }

theorem witness_lyreOperations :
    let z := List.replicate 16 (0 : Byte)
    (∀ s ∈ [lyrWork true copyD [] [], lyrWork false copyD [] [[], [], z], lyrWork false compareD [] [z, [], z],
        lyrWork false compareD [(0x105, 1)] [z, [], rdBytes [(0x105, 1)] 0x100 16]],
      opOf s 0 = some opLyr ∧ opLyr.dead = false ∧ opLyr.late = false ∧ opLyr.clobber = [] ∧ opLyr.tok = some 1 ∧
      (th s 0).wait = .none ∧ ((clu s 0).lyrOps.find? (fun e => e.thread == 0)).isSome = true) ∧
    (∀ l ∈ (clu (lyrWork false copyD [] [[], [], z]) 0).lyrOps, l.atoms = [] ∧ l.dstLen = dDstLen l.desc) ∧
    (dOp copyD = 0x10 ∧ dSrc copyD + dSrcLen copyD ≤ 0x100000 ∧ dDst copyD + dSrcLen copyD ≤ 0x100000 ∧
      rdBytes [] (0 / 128 * 0x100000 + dSrc copyD) (dSrcLen copyD) = z) ∧
    (dOp compareD = 0x11 ∧ dSrc compareD + dSrcLen compareD ≤ 0x100000 ∧ dAux compareD + dAuxLen compareD ≤ 0x100000 ∧
      dAuxLen compareD = dSrcLen compareD ∧ dSrcLen compareD = 16) ∧
    (let m : List (Nat × Byte) := [(0x105, 1)]
     5 < 16 ∧ rdBytes m 0x100 5 = rdBytes m 0x200 5 ∧ rdBytes m 0x100 6 ≠ rdBytes m 0x200 6) := by
  decide +kernel

/-- An AES key with nothing begun, and a context with no key and a hash begun. -/
def ctxAes : LyrCtx :=
  { LyrCtx.reset with
    keyValid := true, alg := 0x01, key := List.replicate (keyLen 0x01) 7, ctr := List.replicate 16 1,
    mask := List.replicate 16 2, authKey := List.replicate 16 3, stream := [4] }
def ctxSha : LyrCtx := { LyrCtx.reset with hashAlg := 0x10, hstate := List.replicate 8 5, hashed := 64, part := [6] }

theorem witness_lyreContexts :
    (∀ x ∈ [ctxAes, ctxSha], x.phase < 3 ∧ x.hashed < 2 ^ 128 ∧ x.part.length ≤ 136) ∧
    (ctxAes.hashAlg = 0 ∧ ctxAes.hstate = []) ∧
    (ctxSha.hashAlg = 0x10 ∧ ctxSha.hstate.length = 8 ∧ ∀ v ∈ ctxSha.hstate, v < 2 ^ 32) ∧
    ctxSha.keyValid = false ∧
    (ctxAes.keyValid = true ∧ ctxAes.alg ∈ [0x01, 0x02, 0x03] ∧ ctxAes.key.length = keyLen ctxAes.alg ∧
      ctxAes.ctr.length = 16 ∧ ctxAes.mask.length = 16 ∧ ctxAes.authKey.length = 16 ∧ ctxAes.acc < 2 ^ 192 ∧
      ctxAes.aadLen < 2 ^ 64 ∧ ctxAes.textLen < 2 ^ 64 ∧ ctxAes.stream.length ≤ 64) ∧
    (let s := lyrSt [lyrSlot0] copyD
     (clu s 0).lyrFlush = none ∧ (∀ n ∈ [0, 128],
      let u := setClu s 0 { clu s 0 with lyrFlush := some n }
      (clu u 0).lyrFlush = some n ∧ (∀ o ∈ (clu u 0).lyrOps, n ≠ 128 ∧ o.thread % 128 ≠ n) ∧
      (clu u 0).lyrSlots.filter (fun e => n == 128 || e.owner == n) = [lyrSlot0] ∧ lyrSlot0.save + 1024 ≤ 0x100000)) ∧
    (let s := lyrWork false copyD [] []
     let u := setClu s 0 { clu s 0 with lyrFlush := some 0 }
     (clu u 0).lyrFlush = some 0 ∧ ∃ o ∈ (clu u 0).lyrOps, 0 = 128 ∨ o.thread % 128 = 0) := by
  decide +kernel

/-! ## Ingress and dispatch -/

/-- 60 bytes of an Ethernet frame of a local experimental type. -/
def body60 : List Byte := List.replicate 12 2 ++ [0x88, 0xB5] ++ List.replicate 46 0
/-- A frame with its FCS, or with another. -/
def framed (l : List Byte) : List Byte := l ++ leBytes 4 (crc32e l)
def misframed (l : List Byte) : List Byte := l ++ leBytes 4 (crc32e l + 1)

/-- Port 3 is UP with pool 0, whose list holds one buffer; frames of at most 64 bytes. -/
def portUp : State :=
  flds [(Reg.MAC_PSTAT 3, F.MAC_PSTAT_state, 2), (Reg.MAC_PCFG 3, F.MAC_PCFG_maxlen, 64),
      (Reg.BPM_PHEAD 0, F.BPM_PHEAD_head, 0x100000000), (Reg.BPM_PTAIL 0, F.BPM_PTAIL_tail, 0x100000000),
      (Reg.BPM_PCOUNT 0, F.BPM_PCOUNT_list, 1)]
    (pool0 { State.reset with img := { State.reset.img with
      ports := [(3, { group := 0, slot := 0, mode := 1, quad := 0, pool := 0 })] } })

theorem witness_framesArrive :
    let fcs (l : List Byte) : Prop := leNat (l.drop (l.length - 4)) = crc32e (l.take (l.length - 4))
    let l := framed body60
    (∃ c, Tab.find? portUp.img.ports 3 = some c ∧ c.pool = 0) ∧ fld portUp (Reg.MAC_PSTAT 3) F.MAC_PSTAT_state = 2 ∧
    (framed (body60.take 59)).length < 64 ∧
    (64 ≤ (misframed body60).length ∧ ¬fcs (misframed body60)) ∧
    (64 ≤ (framed (0 :: body60)).length ∧ fcs (framed (0 :: body60)) ∧
      fld portUp (Reg.MAC_PCFG 3) F.MAC_PCFG_maxlen < (framed (0 :: body60)).length) ∧
    (64 ≤ l.length ∧ fcs l ∧ ¬(fld portUp (Reg.MAC_PCFG 3) F.MAC_PCFG_maxlen < l.length) ∧ tooLong portUp 0 60 = false ∧
      beNat ((l.drop 12).take 2) ≠ 0x8808 ∧ rxHeld portUp 3 + l.length ≤ rxBufSize portUp 3 ∧ portUp.bpm.staged = [] ∧
      poolHold portUp 0 = false ∧ poolHead portUp 0 = 0x100000000 ∧ poolHbm portUp 0 = false ∧
      (sideW portUp 0).length < 16 ∧ poolSize portUp 0 = 2048 ∧
      (∀ i < 2048, poolOf portUp (0x100000000 + i) = some 0) ∧
      Tab.get 0 portUp.img.steer (flowHash (fld portUp Reg.SPN_HSEED F.SPN_HSEED_seed) (parse body60).key / 2 ^ 16 % 2 ^ 12)
        < 1024) := by
  decide +kernel
/-- A frame of the port waits alone for a buffer of pool 0. -/
def stagedFrame : Staged :=
  { unit := 3, pool := 0, port := 24, bytes := body60, srcKind := 0, src := 3, sub := 0, ts := 7, stomp := false, bufs := [] }
def stagedSt : State := { portUp with bpm := { portUp.bpm with staged := [stagedFrame] } }

theorem witness_framesStaged :
    let s := stagedSt
    (s.bpm.staged.filter (fun e => e.pool == 0) = [stagedFrame] ∧ s.bpm.allocQ = [] ∧ stagedFrame.port = 24 ∧
      stagedFrame.bufs = [] ∧ stagedFrame.bytes.length = 60 ∧ poolSize s 0 = 2048) ∧
    (poolHold s 0 = false ∧ poolHead s 0 = 0x100000000 ∧ poolHbm s 0 = false ∧ (sideW s 0).length < 16 ∧
      poisoned s 0x100000000 8 = false ∧
      (∀ i < 2048, poolOf s (0x100000000 + i) = some 0 ∧ regionOf (0x100000000 + i) = .pstore)) := by
  decide +kernel

/-- A descriptor in the hold stage of unit 5, for queue 1,023 of group 0. -/
def descHeld : Desc := { desc0 with unit := 5, queue := 1023, lane := 65535, seq := 0 }
def holdSt : State := { State.reset with spawn := { Spawn.reset with hold := [descHeld] } }

theorem witness_descriptorsAdmitted :
    (holdSt.spawn.hold.find? (fun d => d.unit == 4) = none ∧
      holdSt.spawn.hold.find? (fun d => d.unit == 5) = some descHeld) ∧
    ((queueOf holdSt 1023).length < Max.max 1 (fld holdSt (Reg.SPN_QLIM 1023) F.SPN_QLIM_limit) ∧
      admitTurn holdSt descHeld = true ∧ holdSt.spawn.stored < 0x20000 ∧ Tab.get 0 holdSt.spawn.out 5 < fld holdSt (bpReg 5) F.SPN_BP_ETH_quota ∧
      fld holdSt Reg.PWR_STATE F.PWR_STATE_cur < 3) ∧
    (let s := { holdSt with spawn := { holdSt.spawn with stored := 0x20000 } }
     s.spawn.hold.find? (fun d => d.unit == 5) = some descHeld ∧ ¬(s.spawn.stored < 0x20000)) ∧
    (let s := { holdSt with spawn := { holdSt.spawn with lastIn := (1, 6) } }
     s.spawn.hold.find? (fun d => d.unit == 5) = some descHeld ∧ admitTurn s descHeld = false) := by
  decide +kernel

/-- Queue 1,023 of group 0 holds a packet; group 0 has cluster 23, in RUN, whose last thread is idle. -/
def grantSt : State :=
  flds [(Reg.SPN_GRPWT 0, F.SPN_GRPWT_weight, 1), (Reg.SPN_GRPMEM 0, F.SPN_GRPMEM_mask, 2 ^ 23)]
    { State.reset with
      clusters := [(23, cluRun)], threads := [(3071, { runK with state := .idle })],
      spawn := { Spawn.reset with queues := [(1023, [descHeld])], stored := 1 } }

theorem witness_grantsEachNclk :
    Canonical grantSt ∧ bestCand grantSt 23 = some (3071, 0) ∧ cluGrantable grantSt 23 = true ∧ grantSt.spawn.gStart < 24 ∧
    (grpMask grantSt 0).testBit 23 = true ∧ 0 < grpWeight grantSt 0 ∧ queueGroup grantSt 1023 = 0 ∧
    queueOf grantSt 1023 ≠ [] ∧ 1023 ∉ newQueues grantSt :=
  ⟨⟨⟨by decide +kernel, by decide +kernel⟩, by decide +kernel, by decide +kernel, by decide +kernel, by decide +kernel, by decide +kernel⟩,
    by decide +kernel⟩

/-- Slot 0 of thread 0 is being filled with `desc0`, to be taken back or not; its tile is sealed with the check given. -/
def fillSt (x : Thread) (back : Bool) (check : Nat) : State :=
  { pool0 (one { x with slot0 := .filling desc0 back }) with tiles := [(0x100000000, (true, check))] }

/-- The check of the tile at 0x1_0000_0000 with all bytes 0. -/
def check0 : Nat := tileCheck State.reset 0x100000000

set_option maxRecDepth 1000000 in
theorem witness_fillsComplete :
    (∀ x ∈ [{ runK with state := .idle }, runK], ∀ b : Bool, ∀ c ∈ [check0, check0 + 1], let s := fillSt x b c
      slotOf (th s 0) 0 = .filling desc0 b ∧ desc0.buf0 % 2 ^ 48 / 256 * 256 = 0x100000000 ∧
      retiredIn s 0x100000000 256 = false ∧ poisoned s 0x100000000 256 = false ∧ busyIn s 0x100000000 256 = false ∧
      (tileGet s 0x100000000).1 = true ∧ tileGood s 0x100000000 = (c == check0) ∧ (th s 0).cur = 0 ∧
      (th s 0).pendKill = false ∧ (th s 0).pendHalt = false ∧ (th s 0).pkt = none ∧
      fld s Reg.SPN_CTL F.SPN_CTL_chk_mode = 0) ∧
    fld (flds [(Reg.SPN_CTL, F.SPN_CTL_chk_mode, 1)] (fillSt runK false check0)) Reg.SPN_CTL F.SPN_CTL_chk_mode = 1 ∧
    (th (fillSt { runK with state := .idle } false 0) 0).state = .idle ∧
    (running (th (fillSt runK false 0) 0) = true ∧ (th (fillSt runK false 0) 0).state ≠ .idle) := by
  decide +kernel

/-- A tile of HBM whose unit is in RETRAINING makes a fill wait. -/
theorem witness_fillWaits :
    let s := flds [(Reg.MC_UNIT 0 0, F.MC_UNIT_state, 4)]
      (one { runK with slot0 := .filling { desc0 with buf0 := 0x10000000000 + 2 ^ 56 } false })
    slotOf (th s 0) 0 = .filling { desc0 with buf0 := 0x10000000000 + 2 ^ 56 } false ∧ busyIn s 0x10000000000 256 = true := by
  decide +kernel

/-! ## Cluster power -/

/-- Cluster 0 in a power state with nothing to do, PWR_STATE and the cluster's mode as given. -/
def parkSt (p : CPower) (cur mode : Nat) : State :=
  flds [(Reg.PWR_STATE, F.PWR_STATE_cur, cur), (Reg.CLU_PWRCTL 0, F.CLU_PWRCTL_mode, mode)]
    { State.reset with clusters := [(0, { cluRun with power := p })] }

theorem witness_clusterWakes :
    (fld (parkSt .run 2 0) Reg.PWR_STATE F.PWR_STATE_cur < 3 ∧ 3 ≤ fld (parkSt .run 3 0) Reg.PWR_STATE F.PWR_STATE_cur) ∧
    (∀ p ∈ [CPower.parked, .gated], ∀ n ∈ [[], [0, 0]],
      let w : WakeReq := { cluster := 0, zero := true, paced := false }
      let s := { parkSt p 1 0 with spawn := { Spawn.reset with wakes := [w], starts := n } }
      (s.spawn.wakes.filter (fun v => !quietBars s v && (v.zero || !s.spawn.wakes.any (fun e => e.zero && !quietBars s e)))).head?
        = some w ∧ (s.spawn.starts.filter (fun n => decide (s.now < n + 400))).length = n.length ∧ w.cluster < 24) ∧
    (State.reset.spawn.wakes.all (quietBars State.reset) = true) ∧
    (∀ p ∈ [CPower.wakingG, .wakingP, .gated], (clu (parkSt p 1 0) 0).power = p ∧ (clu (parkSt p 1 0) 0).inReset = false ∧
      (clu (parkSt p 1 0) 0).resetting = false ∧ (parkSt p 1 0).str.boot = none) ∧
    grpWeight grantSt 0 = 1 := by
  decide +kernel

theorem witness_clusterGatesAndParks :
    (∀ e ∈ [(CPower.run, 1, 0), (.run, 3, 0), (.run, 1, 2), (.run, 2, 0), (.run, 1, 1), (.gated, 2, 0), (.gated, 1, 0)],
      let s := parkSt e.1 e.2.1 e.2.2
      (clu s 0).power = e.1 ∧ cluIdle s 0 = true ∧ wakePending s 0 = false ∧ (clu s 0).inReset = false ∧
      (clu s 0).resetting = false ∧ fld s (Reg.CLU_PWRCTL 0) F.CLU_PWRCTL_mode = e.2.2 ∧
      fld s Reg.PWR_STATE F.PWR_STATE_cur = e.2.1) ∧
    (let s := flds [(Reg.SPN_POLICY, F.SPN_POLICY_park_time, 7)] (parkSt .gated 1 0)
     (clu s 0).power = .gated ∧ cluIdle s 0 = true ∧ fld s Reg.SPN_POLICY F.SPN_POLICY_park_time ≠ 0) ∧
    (let s := flds [(Reg.SPN_POLICY, F.SPN_POLICY_park_time, 0)] (parkSt .gated 1 0)
     fld s Reg.SPN_POLICY F.SPN_POLICY_park_time = 0 ∧ fld s (Reg.CLU_PWRCTL 0) F.CLU_PWRCTL_mode = 0 ∧
      fld s Reg.PWR_STATE F.PWR_STATE_cur = 1) ∧
    (∀ l ∈ [[], [lyrSlot0]], let s := { State.reset with clusters := [(0, { cluRun with power := .parking, lyrSlots := l })] }
     (clu s 0).power = .parking ∧ (clu s 0).lyrSlots = l ∧ lyrSlot0.save + 1024 ≤ 0x100000) ∧
    ((3 : Word).extractLsb' 0 2 = 3 ∧ (2 : Word).extractLsb' 0 2 = 2 ∧ (1 : Word).extractLsb' 0 2 = 1) := by
  decide +kernel

/-! ## Bridge -/

/-- The window of the one buffer of `desc0`. -/
def win0 : Win := { data := [(0x100000000, 2048)], links := [], rets := [0x100000000] }

/-- An ending of sequence 9 of lane 7: RELEASE to Ethernet port 3, or a DROP. -/
def endingOf (rel : Bool) (dest : Word) : Ending :=
  { rel := rel, dest := dest, edit := 0, len := 100, win := win0, hash := 7, thread := 0, sure := false }

/-- Lane 7 has stamped through 9, and its head is at `h`. -/
def laneSt (h : Nat) : State :=
  pool0 { State.reset with bridge := { Bridge.reset with next := [(7, 10)], head := [(7, h)] } }

theorem witness_endingsAndSkips :
    (∀ h ∈ [9, 8], let s := { laneSt h with bridge := { (laneSt h).bridge with inbound := [(seqKey 7 9, endingOf false 0)] } }
      s.bridge.inbound = [(seqKey 7 9, endingOf false 0)] ∧ (laneHead s (seqKey 7 9 / 2 ^ 24) = seqKey 7 9 % 2 ^ 24 ↔ h = 9) ∧
      (seqRec s (seqKey 7 9)).skipped = false ∧ s.bridge.used < 8192 ∧ s.bridge.waiting = []) ∧
    (∀ e ∈ [(9, 8191), (9, 8192), (8, 8192)],
      let s := { laneSt e.1 with bridge := { (laneSt e.1).bridge with
        inbound := [(seqKey 7 9, endingOf false 0)], waiting := [(seqKey 8 3, endingOf false 0)], used := e.2 } }
      (seqRec s (seqKey 7 9)).skipped = false ∧ s.bridge.waiting = [(seqKey 8 3, endingOf false 0)] ∧
      seqKey 8 3 ≠ seqKey 7 9 ∧ (endingOf false 0).sure = false ∧ s.bridge.used = e.2) ∧
    (let s := setRec (laneSt 9) (seqKey 7 9) { SeqRec.reset with skipped := true }
     (seqRec s (seqKey 7 9)).skipped = true ∧ s.bridge.waiting = []) ∧
    (laneHead (laneSt 9) 7 ≠ laneNext (laneSt 9) 7 ∧ (seqRec (laneSt 9) (seqKey 7 9)).ending = none ∧
      Tab.get 0 (laneSt 9).bridge.till 7 ≤ (laneSt 9).now ∧ (laneSt 9).bridge.waiting = [] ∧ laneHead (laneSt 9) 7 < 2 ^ 24) ∧
    laneHead (laneSt 10) 7 = laneNext (laneSt 10) 7 ∧ State.reset.bridge.inbound = [] := by
  decide +kernel

/-- Thread 0 runs `desc0` and reads BRG_TURN 3, or holds a turn or a pass at point 3. -/
def turnSt (k : OpKind) (h : Nat) : State :=
  let s := withPkt runK
  { s with ops := [{ opLoad with kind := k, dest := 3 }], bridge := { Bridge.reset with next := [(7, 10)], head := [(7, h)] } }

theorem witness_turnsAndPasses :
    (∀ k ∈ [OpKind.load (0xF000000000 + Reg.BRG_TURN 3) 6 false, .turn 3 7 9, .pass 3 7 9], ∀ h ∈ [8, 9],
      let s := turnSt k h
      (opOf s 0).isSome = true ∧ (∀ o ∈ opOf s 0, o.thread < 3072 ∧ o.dead = false ∧ o.late = false ∧ o.clobber = [] ∧
        o.tok = some 1 ∧ o.kind = k) ∧ (th s 0).wait = .none ∧ (th s 0).pkt = some desc0) ∧
    (th (turnSt (.turn 3 7 9) 9) 0).pkt ≠ none ∧
    (let s := { one runK with ops := [{ opLoad with kind := .load (0xF000000000 + Reg.BRG_TURN 0) 6 false }] }
     (opOf s 0).isSome = true ∧ (th s 0).pkt = none ∧ (th s 0).wait = .none) ∧
    ((9 + 2 ^ 24 - laneHead (turnSt (.turn 3 7 9) 9) 7) % 2 ^ 24 = 0) ∧
    (let s := turnSt (.turn 3 7 9) 8
     0 < (9 + 2 ^ 24 - laneHead s 7) % 2 ^ 24 ∧ (seqRec s (7 * 2 ^ 24 + 9)).skipped = false ∧
      seqRec s (7 * 2 ^ 24 + (laneHead s 7 + 0) % 2 ^ 24) = SeqRec.reset ∧ s.bridge.waiting = []) := by
  decide +kernel

/-- Sequence 9 of lane 7 has ended at its lane's head. -/
def retireSt (rel : Bool) (dest : Word) : State :=
  flds [(Reg.MAC_PSTAT 3, F.MAC_PSTAT_state, 2)]
    { setRec (laneSt 9) (seqKey 7 9) { SeqRec.reset with ending := some (endingOf rel dest), passed := 15 } with
      img := portUp.img }

theorem witness_lanesRetire :
    (∀ e ∈ [(false, 0), (true, 2 ^ 44 + 3), (true, 0)], let s := retireSt e.1 (BitVec.ofNat 48 e.2)
      readyLanes s = [7] ∧ s.bridge.waiting = [] ∧ laneHead s 7 < 2 ^ 24 ∧
      seqRec s (7 * 2 ^ 24 + 9) = { SeqRec.reset with ending := some (endingOf e.1 (BitVec.ofNat 48 e.2)), passed := 15 } ∧
      (seqRec s (7 * 2 ^ 24 + (9 + 1) % 2 ^ 24)).ending = none ∧ (Tab.find? s.bridge.refs (7 * 2 ^ 24 + 9)).isNone = true) ∧
    (∀ a ∈ (endingOf false 0).win.rets, (poolOf (retireSt false 0) a).isSome = true) ∧
    (let d : Word := BitVec.ofNat 48 (2 ^ 44 + 3)
     let s := retireSt true d
     destBad s d = none ∧ editRange 0 d 100 (windowSize win0.data) = some (0, 100)) ∧
    (destBad (retireSt true 0) 0).isSome = true := by
  decide +kernel

/-! ## Egress -/

/-- A departure of 100 bytes from offset 8 of the buffer at 0x1_0000_0000. -/
def departOf (dest : Nat) : Depart :=
  { key := seqKey 7 9, child := none, dest := BitVec.ofNat 48 dest, off := 8, len := 100, ts := true,
    win := win0, hash := 7 }

/-- It waits at its destination; its tile is sealed with the check given. -/
def departSt (dest check : Nat) (s : State) : State :=
  { pool0 s with
    tiles := [(0x100000000, (true, check))], bridge := { Bridge.reset with egress := [(dest, [departOf dest])] } }

set_option maxRecDepth 1000000 in
theorem witness_framesLeave :
    (∀ st ∈ [2, 1], ∀ c ∈ [check0, check0 + 1], ∀ k ∈ [0, 7],
      let s := departSt (2 ^ 44 + k * 2 ^ 8 + 3) c (flds [(Reg.MAC_PSTAT 3, F.MAC_PSTAT_state, st)] portUp)
      let d := departOf (2 ^ 44 + k * 2 ^ 8 + 3)
      egressQ s (2 ^ 44 + k * 2 ^ 8 + 3) = [d] ∧ fld s (Reg.MAC_PSTAT 3) F.MAC_PSTAT_state = st ∧
      Tab.get 0 (ethP s 3).pause k = 0 ∧ (∀ i < 8, k < i → egressQ s (2 ^ 44 + i * 2 ^ 8 + 3) = []) ∧
      d.win.data = [(0x100000000, 2048)] ∧ d.win.links = [] ∧ 0 < d.len ∧ d.off + d.len ≤ 2048 ∧
      (∀ tl ∈ windowTiles [(0x100000000, 2048)] d.off d.len, retiredIn s tl 256 = false ∧ poisoned s tl 256 = false ∧
        busyIn s tl 256 = false ∧ (tileGet s tl).1 = true ∧ tileGood s tl = (c == check0)) ∧
      d.ts = true ∧ d.child = none ∧ (ethP s 3).txts.length < 64) := by
  decide +kernel

/-- Receive queue 5 of function 0x1000, its queue 0, with some buffers posted and a hold limit. -/
def rxSt (posted hold : Nat) : State :=
  let s := departSt (2 ^ 45 + 0x1000) check0 State.reset
  flds [(Reg.HST_RXQ_CFG 5, F.HST_RXQ_CFG_en, 1), (Reg.HST_RXQ_CFG 5, F.HST_RXQ_CFG_func, 0x1000),
      (Reg.HST_RXQ_CFG 5, F.HST_RXQ_CFG_log2size, 6), (Reg.HST_RXQ_STAT 5, F.HST_RXQ_STAT_state, 1),
      (Reg.HST_RXHOLD, F.HST_RXHOLD_limit, hold)]
    { s with host := { s.host with rx := [(5, { head := 0, tail := posted })] } }

set_option maxRecDepth 1000000 in
theorem witness_hostReceives :
    (∀ e ∈ [(1, 0), (0, 0), (0, 1)], let s := rxSt e.1 e.2
      rxqOf s 0x1000 0 = some 5 ∧ egressQ s (2 ^ 45 + 0 * 2 ^ 16 + 0x1000) = [departOf (2 ^ 45 + 0x1000)] ∧
      (hrx s 5).head = 0 ∧ (hrx s 5).tail = e.1 ∧ fld s Reg.HST_RXHOLD F.HST_RXHOLD_limit = e.2) ∧
    (let s := rxSt 1 0
     let d := departOf (2 ^ 45 + 0x1000)
     d.len ≤ 100 ∧ 99 < d.len ∧ d.win.data = [(0x100000000, 2048)] ∧ d.win.links = [] ∧ departWaits s d = false ∧
      (∀ tl ∈ windowTiles [(0x100000000, 2048)] d.off d.len, retiredIn s tl 256 = false ∧ poisoned s tl 256 = false ∧
        busyIn s tl 256 = false ∧ (tileGet s tl).1 = true ∧ tileGood s tl = true)) := by
  decide +kernel
/-! ## Buffer pools and memory controllers -/

/-- Pool 0 with its first buffer at the head of the list. -/
def listed (s : State) : State :=
  flds [(Reg.BPM_PHEAD 0, F.BPM_PHEAD_head, 0x100000000), (Reg.BPM_PTAIL 0, F.BPM_PTAIL_tail, 0x100000000),
    (Reg.BPM_PCOUNT 0, F.BPM_PCOUNT_list, 1)] (pool0 s)

/-- An allocation, or a free of an address, of pool 0 waits; its operation has number 0. -/
def allocating (s : State) : State :=
  { s with
    ops := [{ opLoad with kind := .balloc 100, dest := 3 }],
    bpm := { s.bpm with allocQ := [{ pool := 0, port := 0, op := 1 }] } }
def freeing (a : Nat) (s : State) : State :=
  { s with
    ops := [{ opLoad with kind := .bfree a, dest := 0 }],
    bpm := { s.bpm with freeQ := [{ addr := a, port := 0, op := some 0 }] } }

theorem witness_buffersComeAndGo :
    (let s := allocating (listed State.reset)
     s.bpm.allocQ = [{ pool := 0, port := 0, op := 0 + 1 }] ∧ s.bpm.staged = [] ∧ poolHold s 0 = false ∧
      poolHead s 0 = 0x100000000 ∧ 0x100000000 % 256 = 0 ∧ poolHbm s 0 = false ∧ (sideW s 0).length < 16 ∧
      poisoned s 0x100000000 8 = false ∧
      (∀ i < poolSize s 0, poolOf s (0x100000000 + i) = some 0 ∧ regionOf (0x100000000 + i) = .pstore) ∧ (opOf s 0).isSome = true) ∧
    (let s := flds [(Reg.BPM_PXON 0, F.BPM_PXON_xon, 1)] (allocating (pool0 State.reset))
     s.bpm.allocQ = [{ pool := 0, port := 0, op := 0 + 1 }] ∧ poolHold s 0 = false ∧ poolHead s 0 = 0 ∧ sideR s 0 = [] ∧
      sideW s 0 = [] ∧ (opOf s 0).isSome = true ∧ poolList s 0 < fld s (Reg.BPM_PXON 0) F.BPM_PXON_xon) ∧
    (let s := freeing 0x100007FFF (pool0 State.reset)
     s.bpm.freeQ = [{ addr := 0x100007FFF, port := 0, op := some 0 }] ∧ poolOf s 0x100007FFF = some 0 ∧
      (opOf s 0).isSome = true ∧ poolHold s 0 = false ∧ unitBusy s 0x100007FFF = false ∧
      bufRetired s 0 (bufStart s 0 0x100007FFF) = false ∧ retiredIn s (bufStart s 0 0x100007FFF) 8 = false ∧
      poolList s 0 ≤ fld s (Reg.BPM_PHIGH 0) F.BPM_PHIGH_high ∧ (sideW s 0).length < 16 ∧ poolList s 0 + 1 < 2 ^ 32 ∧
      bufStart s 0 0x100007FFF = 0x100007800) ∧
    (let s := { State.reset with bpm := { Bpm.reset with fetching := [(15, [0x100000000])] } }
     Tab.get [] s.bpm.fetching 15 ≠ [] ∧ (sideW s 15).length < 16 ∧ Tab.get [] s.bpm.fetching 0 = []) := by
  decide +kernel

/-- An audit of pool 0 at its only listed buffer. -/
def audited (count : Nat) : State :=
  let s := listed State.reset
  { s with bpm := { s.bpm with
      audit := some { pool := 0, cur := 0x100000000, steps := 0, diff := 0, count := count, range := false } } }

/-- A rebuild of pool 0 from a bitmap at the start of HBM is running. -/
def rebuilt : State :=
  flds [(Reg.BPM_REBUILD_STAT, F.BPM_REBUILD_STAT_state, 1)] (regs [(Reg.BPM_REBUILD, 0x10000000000)] (pool0 State.reset))

theorem witness_auditsAndRebuilds :
    (let s := flds [(Reg.BPM_CTL, F.BPM_CTL_audit_en, 1)] (listed State.reset)
     flag s Reg.BPM_CTL F.BPM_CTL_audit_en = true ∧ s.bpm.audit = none ∧ nextAudit s = some 0 ∧
      isBufStart s 0 (poolHead s 0) = true ∧ poolHead s 0 ≠ 0) ∧
    (∀ n ∈ [1, 2], (audited n).bpm.audit.isSome = true ∧ unitBusy (audited n) 0x100000000 = false ∧
      retiredIn (audited n) 0x100000000 8 = false ∧ poisoned (audited n) 0x100000000 8 = false ∧ memNat (audited n) 0x100000000 6 = 0 ∧
      0 < poolBufs (audited n) 0) ∧
    (let s := { audited 2 with mem := wrBytes [] 0x100000000 (leBytes 6 0x100000800) }
     memNat s 0x100000000 6 ≠ 0 ∧ isBufStart s 0 (memNat s 0x100000000 6) = true) ∧
    State.reset.bpm.audit = none ∧
    (let s := flds [(Reg.MC_UNIT 0 0, F.MC_UNIT_state, 4)]
       { State.reset with bpm := { Bpm.reset with
          audit := some { pool := 0, cur := 0x10000000000, steps := 0, diff := 0, count := 1, range := false } } }
     s.bpm.audit.isSome = true ∧ unitBusy s 0x10000000000 = true) ∧
    (let s := regs [(Reg.BPM_REBUILD, 0x10000000000)] (pool0 State.reset)
     poolValid s 0 = true ∧ fld s Reg.BPM_REBUILD_STAT F.BPM_REBUILD_STAT_state ≠ 1 ∧
      bitmapOk s 0 (rd s Reg.BPM_REBUILD).toNat = true ∧ bitmapOk (pool0 State.reset) 0 0 = false) ∧
    (let s := rebuilt
     fld s Reg.BPM_REBUILD_STAT F.BPM_REBUILD_STAT_state = 1 ∧ fld s Reg.BPM_REBUILD_STAT F.BPM_REBUILD_STAT_pool = 0 ∧
      s.bpm.held = [] ∧ s.bpm.purge = [] ∧ sideR s 0 = [] ∧ sideW s 0 = [] ∧ ringHeld s 0 = 0 ∧ poolHead s 0 = 0 ∧
      retiredIn s (rd s Reg.BPM_REBUILD).toNat ((poolBufs s 0 + 7) / 8) = false ∧
      poisoned s (rd s Reg.BPM_REBUILD).toNat ((poolBufs s 0 + 7) / 8) = false ∧
      busyIn s (rd s Reg.BPM_REBUILD).toNat ((poolBufs s 0 + 7) / 8) = false ∧
      (∀ i < poolBufs s 0, retiredIn s (poolBase s 0 + i * poolSize s 0) 8 = false) ∧ 256 ≤ poolSize s 0 ∧ 0 < poolBase s 0 ∧
      poolBase s 0 + poolBufs s 0 * poolSize s 0 ≤ 2 ^ 48 ∧ poolBufs s 0 < 2 ^ 32) := by
  decide +kernel

/-- Controller `m` is there and unit 0 of it in a state. -/
def unitSt (m st : Nat) : State :=
  flds [(Reg.MC_ID m, F.MC_ID_units, 1), (Reg.MC_UNIT m 0, F.MC_UNIT_state, st)] State.reset

/-- A real-time port of the controller that is on, with some entries of 4. -/
def portSt (level panic : Nat) : State :=
  flds [(Reg.MC_RTCFG 0 3, F.MC_RTCFG_en, 1), (Reg.MC_RTCFG 0 3, F.MC_RTCFG_client, 1), (Reg.MC_RTCFG 0 3, F.MC_RTCFG_depth, 4),
    (Reg.MC_RTSTAT 0 3, F.MC_RTSTAT_level, level), (Reg.MC_RTSTAT 0 3, F.MC_RTSTAT_panic, panic)] (unitSt 0 2)

theorem witness_refreshAndPorts :
    (∀ m ∈ [0, 11], ∀ s ∈ [unitSt m 2, flds [(Reg.MC_REFSTAT m 0, F.MC_REFSTAT_owed, 1)] (unitSt m 2)],
      mcUsed s m = true ∧ 0 < refUnits s m ∧ unitAlive s m (refTrain m 0) = true ∧ 0 < pdUnits s m) ∧
    (fld (unitSt 0 2) (Reg.MC_REFSTAT 0 0) F.MC_REFSTAT_owed = 0 ∧
      fld (flds [(Reg.MC_REFSTAT 0 0, F.MC_REFSTAT_owed, 1)] (unitSt 0 2)) (Reg.MC_REFSTAT 0 0) F.MC_REFSTAT_owed = 1) ∧
    (∀ k < 4, portReads (unitSt 0 2) 0 k = false ∧ fld (unitSt 0 2) (Reg.MC_RTSTAT 0 k) F.MC_RTSTAT_panic = 0) ∧
    (portReads (portSt 0 1) 0 3 = true ∧ fld (portSt 0 1) (Reg.MC_RTSTAT 0 3) F.MC_RTSTAT_panic = 1 ∧
      mcUsed (portSt 0 1) 0 = true ∧ unitAlive (portSt 0 1) 0 0 = true) ∧
    (let s := flds [(Reg.MC_REFSTAT 0 0, F.MC_REFSTAT_owed, 15)] (portSt 0 1)
     refLimit s 0 ≤ fld s (Reg.MC_REFSTAT 0 0) F.MC_REFSTAT_owed) ∧
    (let s := flds [(Reg.MC_CTL 0, F.MC_CTL_pd_en, 1)] (unitSt 0 2)
     flag s (Reg.MC_CTL 0) F.MC_CTL_pd_en = true ∧ 0 ∉ (mcCtl s 0).pd ∧ pdWanted s 0 0 = false ∧ unitAlive s 0 0 = true ∧
      ∀ r < refUnits s 0, refPd 0 r = 0 → fld s (Reg.MC_REFSTAT 0 r) F.MC_REFSTAT_owed = 0) ∧
    portEn (unitSt 0 2) 0 3 = false ∧
    (∀ l ∈ [0, 1, 3], portEn (portSt l 0) 0 3 = true ∧ fld (portSt l 0) (Reg.MC_RTSTAT 0 3) F.MC_RTSTAT_level = l ∧
      l < fld (portSt l 0) (Reg.MC_RTCFG 0 3) F.MC_RTCFG_depth ∧
      ∀ j < 3, (fld (portSt l 0) (Reg.MC_RTSTAT 0 j) F.MC_RTSTAT_panic == 1 && portReads (portSt l 0) 0 j) = false) ∧
    (∀ l ∈ [0, 1], let s := flds [(Reg.MC_RTCFG 0 1, F.MC_RTCFG_en, 1), (Reg.MC_RTCFG 0 1, F.MC_RTCFG_client, 1),
        (Reg.MC_RTCFG 0 1, F.MC_RTCFG_depth, 4), (Reg.MC_RTSTAT 0 1, F.MC_RTSTAT_level, l), (Reg.MC_RTSTAT 0 1, F.MC_RTSTAT_panic, 1)] (portSt 0 1)
      fld s (Reg.MC_RTSTAT 0 1) F.MC_RTSTAT_level = l ∧ fld s (Reg.MC_RTSTAT 0 3) F.MC_RTSTAT_level = 0 ∧
      (fld s (Reg.MC_RTSTAT 0 1) F.MC_RTSTAT_panic == 1 && portReads s 0 1) = true) := by
  decide +kernel

theorem witness_trainingMoves :
    (∀ m ∈ [0, 3, 4, 11], ∀ st < 7, mcUsed (unitSt m st) m = true ∧
      fld (unitSt m st) (Reg.MC_UNIT m 0) F.MC_UNIT_state = st) ∧
    (let s := flds [(Reg.MC_TRAINCTL 0, F.MC_TRAINCTL_retry, 1)] (unitSt 0 5)
     fld s (Reg.MC_UNIT 0 0) F.MC_UNIT_state = 5 ∧ fld s (Reg.MC_TRAINCTL 0) F.MC_TRAINCTL_retry ≠ 0) ∧
    (let s := flds [(Reg.MC_TRAINCTL 0, F.MC_TRAINCTL_grant_wait, 0)] (unitSt 0 2)
     fld s (Reg.MC_TRAINCTL 0) F.MC_TRAINCTL_grant_wait = 0) ∧
    (let s := flds [(Reg.MC_RTSTAT 0 3, F.MC_RTSTAT_panic, 1)] (unitSt 0 2)
     fld s (Reg.MC_RTSTAT 0 3) F.MC_RTSTAT_panic = 1 ∧ fld s (Reg.MC_UNIT 0 0) F.MC_UNIT_state = 2) ∧
    (∀ k < 4, fld (unitSt 0 5) (Reg.MC_RTSTAT 0 k) F.MC_RTSTAT_panic = 0) ∧
    (let s := flds [(Reg.PWR_CHM_CFG, F.PWR_CHM_CFG_en, 1), (Reg.PWR_CHM_CFG, F.PWR_CHM_CFG_phy_alarm, 9)] (unitSt 0 2)
     flag s Reg.PWR_CHM_CFG F.PWR_CHM_CFG_en = true ∧ 8 < fld s Reg.PWR_CHM_CFG F.PWR_CHM_CFG_phy_alarm) ∧
    (∀ k ∈ [0, 1], ∀ d ∈ [4, 5], let s := flds [(Reg.MC_TRAINCTL 0, F.MC_TRAINCTL_track_ms, k), (Reg.MC_UNIT 0 0, F.MC_UNIT_temp, 30)] (unitSt 0 2)
      fld s (Reg.MC_TRAINCTL 0) F.MC_TRAINCTL_track_ms = k ∧ tempMoved s 0 0 (30 + d) = (d == 5)) ∧
    (∀ h : Bool, let s := setMcUnit 0 0 { mcUnit (unitSt 0 4) 0 0 with half := h } (unitSt 0 4)
      (mcUnit s 0 0).half = h ∧ s.bpm.staged = [] ∧ s.tbl.bulk = none ∧ s.tbl.queue = []) := by
  decide +kernel

/-- Unit 0 of stack 0 is retired and its purge is owed; pool 1 is on the stack, its listed buffer on unit 1, or no pool is. -/
def purging (p : Bool) : State :=
  let s := { unitSt 0 6 with bpm := { Bpm.reset with purge := [0 * 32 + 0] } }
  if p then flds [(Reg.BPM_PCFG 1, F.BPM_PCFG_size_tiles, 8), (Reg.BPM_PCFG 1, F.BPM_PCFG_hbm, 1),
      (Reg.BPM_PCFG 1, F.BPM_PCFG_valid, 1)]
    (regs [(Reg.BPM_PBASE 1, 0x10000000000), (Reg.BPM_PBUF 1, 2), (Reg.BPM_PHEAD 1, 0x10000000800),
      (Reg.BPM_PTAIL 1, 0x10000000800), (Reg.BPM_PCOUNT 1, 1), (Reg.MC_HASH 0 0, 0x800)] s) else s

theorem witness_purge :
    (0 * 32 + 0 ∉ (unitSt 0 6).bpm.purge) ∧
    (0 * 32 + 0 ∈ (purging false).bpm.purge ∧ (purging false).bpm.held = [] ∧
      ∀ p < 16, poolValid (purging false) p = false) ∧
    (let s := purging true
     mcUsed s 0 = true ∧ s.bpm.purge = [0 * 32 + 0] ∧ s.bpm.held = [] ∧ s.bpm.audit = none ∧ poolValid s 1 = true ∧
      poolOnStack s 1 0 = true ∧ (∀ k < 16, k ≠ 1 → poolValid s k = false) ∧ ringHeld s 1 = 0 ∧ sideR s 1 = [] ∧
      sideW s 1 = [] ∧ retiredAt s 0x10000000000 = true ∧
      (listWalk (poolBufs s 1) (poolHead s 1) s).1 = [0x10000000800] ∧
      (listWalk (poolBufs s 1) (poolHead s 1) s).2.1 = false ∧ unitBusy s 0x10000000800 = false) := by
  decide +kernel

theorem witness_patrolScrub :
    (∀ e ∈ [(0, 0x10000000000), (1, 0x100000000000), (2, 0x100000000), (3, 0x200000000)],
      let s := flds [(Reg.MC_DIMM 4, F.MC_DIMM_cap_gib, 1), (Reg.BKG_CTL, F.BKG_CTL_scrub_en, 1)] State.reset
      scrubMem e.2 = some e.1 ∧ populated s e.2 = true ∧ retiredAt s e.2 = false ∧ unitBusy s e.2 = false ∧
      retiredIn s (e.2 / 64 * 64) 64 = false ∧ poisoned s (e.2 / 64 * 64) 64 = false ∧
      fld s Reg.BKG_CTL F.BKG_CTL_scrub_en = 1) ∧
    fld (flds [(Reg.BKG_CTL, F.BKG_CTL_scrub_en, 0)] State.reset) Reg.BKG_CTL F.BKG_CTL_scrub_en = 0 := by
  decide +kernel
/-! ## Tables -/

/-- Exact table 3 with one bucket at the start of HBM, keys of 8 bytes, actions of 4; D0 to D2 as given. -/
def exactSt (d0 d1 d2 : Nat) : State :=
  regs [(Reg.TBL_T_BASE 3, 0x10000000000), (Reg.TBL_CMD_D0, d0), (Reg.TBL_CMD_D1, d1), (Reg.TBL_CMD_D2, d2)]
    (flds [(Reg.TBL_T_CFG 3, F.TBL_T_CFG_log2n, 0)] (tableK 1 State.reset))

/-- A command word of an operation on table 3. -/
def cmdW (op : Nat) : Word := BitVec.ofNat 48 (3 * 2 ^ 15 + op)

/-- Key 1, action 7: the image, and an entry of it in slot 0 of bucket 0. -/
def img1 : Nat := 1 + 7 * 2 ^ 64
def withEntry (hit : Bool) (st : Bool) (s : State) : State :=
  storeEntry s 3 ⟨0, 0⟩ (sealEntry (img1 + eValid + b2n hit * eHit + b2n st * eStatic) 0)

set_option maxRecDepth 1000000 in
theorem witness_exactTableCommands :
    (∀ op ∈ [1, 2, 3, 4, 5, 6, 7, 8, 9, 10, 11, 12],
      getF (cmdW op) F.TBL_CMD_op = op ∧ cmdTable (withCmd (exactSt 1 0 0) (cmdW op)) = 3) ∧
    flag (flds [(Reg.TBL_CMD_STAT, F.TBL_CMD_STAT_busy, 1)] (exactSt 1 0 0)) Reg.TBL_CMD_STAT F.TBL_CMD_STAT_busy = true ∧
    (∀ s ∈ [exactSt 1 0 0, withEntry true false (exactSt 1 0 0)],
      flag s Reg.TBL_CMD_STAT F.TBL_CMD_STAT_busy = false ∧ s.tbl.steps = [] ∧ s.tbl.bulk = none ∧ s.tbl.queue = [] ∧
      s.tbl.held.contains 3 = false ∧ tableWaits s 3 = false ∧ tKind s 3 = 1 ∧ tKeyBytes s 3 + tActBytes s 3 ≤ 14 ∧ imgBad s 3 (cmdImg s) = false ∧
      bucketsOf s 3 (imgKey s 3 (cmdImg s)) = [0] ∧ bucketPoisoned s 3 0 = false ∧
      (∀ k < 4, retiredAt s (entryAddrOf s 3 ⟨0, k⟩) = false ∧ retiredIn s (entryAddrOf s 3 ⟨0, k⟩) 16 = false ∧
        (isValid (entryAt s 3 ⟨0, k⟩) = true → parityGood (entryAt s 3 ⟨0, k⟩) = true)) ∧
      (∀ l ∈ stashLocs, isValid (entryAt s 3 l) = false) ∧ freeSlotFor s 3 (imgKey s 3 (cmdImg s)) ≠ none) ∧
    matchesOf (exactSt 1 0 0) 3 (imgKey (exactSt 1 0 0) 3 1) = [] ∧
    matchesOf (withEntry true false (exactSt 1 0 0)) 3 (imgKey (exactSt 1 0 0) 3 1) = [⟨0, 0⟩] ∧
    (let s := exactSt 1 (2 ^ 47) 0
     flag s Reg.TBL_CMD_STAT F.TBL_CMD_STAT_busy = false ∧ imgBad (exactSt 1 0 1) 3 (cmdImg (exactSt 1 0 1)) = true) ∧
    (∀ n ∈ [0, 3, 8, 15], let s := regs [(Reg.TBL_CMD_LOC, n)] (exactSt 1 0 0)
      cmdLoc s = ⟨0, n⟩ ∧ ((8 ≤ n ∧ n < 16) ∨ (n < 4 ∧ 0 < tBuckets s 3))) ∧
    (∀ n ∈ [4, 7, 16], let s := regs [(Reg.TBL_CMD_LOC, n)] (exactSt 1 0 0)
      ¬((8 ≤ (cmdLoc s).slot ∧ (cmdLoc s).slot < 16) ∨ ((cmdLoc s).slot < 4 ∧ (cmdLoc s).bucket < tBuckets s 3))) ∧
    (∀ n ∈ [0, 1], (rd (exactSt 0x10000001000 n 0) Reg.TBL_CMD_D1).toNat % 2 ^ 32 = n) ∧
    (let s := exactSt 0x10000001000 1 0
     populated s 0x10000001000 = true ∧ populated s (0x10000001000 + 15) = true ∧ poisoned s 0x10000001000 16 = false ∧
      retiredIn s 0x10000001000 16 = false ∧ busyIn s 0x10000001000 16 = false ∧ busyIn (exactSt 0 1 0) 0 16 = false ∧ imgBad s 3 (memNat s 0x10000001000 16) = false ∧ populated (exactSt 0 1 0) 0 = false ∧
      matchesOf s 3 (imgKey s 3 (memNat s 0x10000001000 16)) = [] ∧
      freeSlotFor s 3 (imgKey s 3 (memNat s 0x10000001000 16)) = some ⟨0, 0⟩) := by
  decide +kernel

/-- IPv4 prefix table 3 of two records with actions of 2 bytes; the command names a length and an address. -/
def prefixSt (ps : Tab Prefix) (addr act loc : Nat) : State :=
  let s := regs [(Reg.TBL_CMD_D0, addr), (Reg.TBL_CMD_ACT, act), (Reg.TBL_CMD_LOC, loc * 16)]
    (flds [(Reg.TBL_T_CFG 3, F.TBL_T_CFG_kind, 2), (Reg.TBL_T_CFG 3, F.TBL_T_CFG_action_bits, 16),
      (Reg.TBL_T_CFG 3, F.TBL_T_CFG_log2n, 1)] State.reset)
  { s with tbl := { s.tbl with prefixes := Tab.set [] [] 3 ps } }
def pfxW (op len : Nat) : Word := BitVec.ofNat 48 (len * 2 ^ 20 + 3 * 2 ^ 15 + op)
/-- 10.0.0.0/8. -/
def ten8 : Prefix := { len := 8, addr := 0x0A000000, action := 5, quar := false, bad := false }

theorem witness_prefixTableCommands :
    (∀ l ∈ [[], [(1, ten8)], [(0, { ten8 with len := 9 }), (1, { ten8 with len := 10 })]], let s := prefixSt l 0x0A 6 1
      flag s Reg.TBL_CMD_STAT F.TBL_CMD_STAT_busy = false ∧ s.tbl.steps = [] ∧ s.tbl.bulk = none ∧ s.tbl.queue = [] ∧
      s.tbl.held.contains 3 = false ∧ tableWaits s 3 = false ∧ tKind s 3 = 2 ∧ pfxBad (withCmd s (pfxW 9 8)) 3 = false ∧
      pfxBad (withCmd s (pfxW 9 33)) 3 = true ∧ pfxBad (withCmd s (pfxW 9 4)) 3 = true ∧ tBuckets s 3 = 2 ∧
      (cmdLoc s).bucket = 1 ∧ cmdTable (withCmd s (pfxW 9 8)) = 3) ∧
    (let s := prefixSt [] 0x0A 6 1
     pfxFind (withCmd s (pfxW 9 8)) 3 = none ∧ (prefixesOf s 3).length < 2 ∧ (Tab.find? (prefixesOf s 3) 1).isNone = true) ∧
    (let s := prefixSt [(1, ten8)] 0x0A 6 1
     pfxFind (withCmd s (pfxW 9 8)) 3 = some (1, ten8) ∧ Tab.find? (prefixesOf s 3) 1 = some ten8) ∧
    (let s := prefixSt [(0, { ten8 with len := 9 }), (1, { ten8 with len := 10 })] 0x0A 6 2
     pfxFind (withCmd s (pfxW 9 8)) 3 = none ∧ 2 ≤ (prefixesOf s 3).length ∧ 2 ≤ (cmdLoc s).bucket) ∧
    tKind State.reset 3 < 2 := by
  decide +kernel

/-- The same table with work of the update unit. -/
def unitWork (f : Tables → Tables) (s : State) : State := { s with tbl := f s.tbl }

/-- The learn of key 1 with an action. -/
def learnOf (a : Nat) (s : State) : State := unitWork (fun x => { x with queue := [.learn 3 (leBytes 8 1) a false 0 0] }) s
/-- A candidate for key 1 with action 8 from time 0, at a time now. -/
def candAt (now : Nat) (s : State) : State :=
  { unitWork (fun x => { x with cands := [{ table := 3, key := leBytes 8 1, action := 8, time := 0 }] }) s with clkBase := now }

theorem witness_tableUpkeep :
    (let s := unitWork (fun x => { x with result := some 0, last := some ⟨0, 0⟩ }) (exactSt 1 0 0)
     State.reset.tbl.result = none ∧ s.tbl.result = some 0 ∧ s.tbl.steps = [] ∧ s.tbl.last = some ⟨0, 0⟩) ∧
    (let s := unitWork (fun x => { x with steps := [(3, .clear 7)] }) (exactSt 1 0 0)
     s.tbl.steps = [(3, .clear 7)] ∧ s.tbl.queue = [] ∧ s.tbl.bulk = none) ∧
    (256 ≤ (List.replicate 256 ({ table := 4, key := leBytes 8 1, action := 8, time := 0 } : Cand)).length) := by
  decide +kernel

set_option maxRecDepth 1000000 in
theorem witness_tableUpkeep_shift :
    let s := unitWork (fun x => { x with steps := [(3, .shift ⟨0, 0⟩ ⟨1, 3⟩ none (9 + eValid))] })
        (withEntry true false (flds [(Reg.TBL_T_CFG 3, F.TBL_T_CFG_log2n, 1)] (exactSt 1 0 0)))
    s.tbl.steps = [(3, .shift ⟨0, 0⟩ ⟨1, 3⟩ none (9 + eValid))] ∧ tableWaits s 3 = false ∧ bucketPoisoned s 3 0 = false ∧ bucketPoisoned s 3 1 = false ∧
      (∀ k < 4, ∀ b < 2, retiredAt s (entryAddrOf s 3 ⟨b, k⟩) = false ∧ retiredIn s (entryAddrOf s 3 ⟨b, k⟩) 16 = false) ∧
      9 + eValid < 2 ^ 128 ∧ mainBits (entryAt s 3 ⟨0, 0⟩) ≠ mainBits (9 + eValid) ∧
      isHit (entryAt s 3 ⟨0, 0⟩) = true := by
  decide +kernel

/-- The update unit stands before one push of key 1 to table 3, whose one bucket holds only good entries. -/
abbrev LearnReady (s : State) : Prop :=
  s.tbl.steps = [] ∧ s.tbl.bulk = none ∧ s.tbl.queue.length = 1 ∧ s.tbl.result = none ∧ tableWaits s 3 = false ∧ s.tbl.held.contains 3 = false ∧ tKind s 3 = 1 ∧
    (leBytes 8 1).length = tKeyBytes s 3 ∧ 8 < 256 ^ tActBytes s 3 ∧ tKeyBytes s 3 + tActBytes s 3 ≤ 14 ∧
    bucketsOf s 3 (leBytes 8 1) = [0] ∧ bucketPoisoned s 3 0 = false ∧
    (∀ k < 4, retiredAt s (entryAddrOf s 3 ⟨0, k⟩) = false ∧ retiredIn s (entryAddrOf s 3 ⟨0, k⟩) 16 = false ∧
      (isValid (entryAt s 3 ⟨0, k⟩) = true → parityGood (entryAt s 3 ⟨0, k⟩) = true)) ∧
    (∀ l ∈ stashLocs, isValid (entryAt s 3 l) = false)

set_option maxRecDepth 1000000 in
theorem witness_tableUpkeep_new :
    LearnReady (learnOf 8 (exactSt 1 0 0)) ∧
    (matchesOf (exactSt 1 0 0) 3 (leBytes 8 1) = [] ∧ freeSlotFor (exactSt 1 0 0) 3 (leBytes 8 1) = some ⟨0, 0⟩) := by
  decide +kernel

set_option maxRecDepth 1000000 in
theorem witness_tableUpkeep_known :
    ∀ b : Bool, let s := withEntry true b (exactSt 1 0 0)
      matchesOf s 3 (leBytes 8 1) = [⟨0, 0⟩] ∧ isStatic (entryAt s 3 ⟨0, 0⟩) = b ∧ actOf s 3 (entryAt s 3 ⟨0, 0⟩) = 7 := by
  decide +kernel

set_option maxRecDepth 1000000 in
theorem witness_tableUpkeep_refresh : LearnReady (learnOf 7 (withEntry true false (exactSt 1 0 0))) := by decide +kernel

set_option maxRecDepth 1000000 in
theorem witness_tableUpkeep_static : LearnReady (learnOf 8 (withEntry true true (exactSt 1 0 0))) := by decide +kernel

set_option maxRecDepth 1000000 in
theorem witness_tableUpkeep_moved : LearnReady (learnOf 8 (withEntry true false (exactSt 1 0 0))) := by decide +kernel

set_option maxRecDepth 1000000 in
theorem witness_tableUpkeep_early : LearnReady (candAt 0 (learnOf 8 (withEntry true false (exactSt 1 0 0)))) := by decide +kernel

set_option maxRecDepth 1000000 in
theorem witness_tableUpkeep_late : LearnReady (candAt (2 ^ 40) (learnOf 8 (withEntry true false (exactSt 1 0 0)))) := by decide +kernel

theorem witness_candidates :
    (∀ s : State, s.now = s.clkAt → s.obx.slew = 0 → s.clkBase < 2 ^ 64 → domNow s = s.clkBase) ∧
    (candAt 0 State.reset).tbl.cands[0]?.isSome = true ∧ 4 * holddownNs State.reset ≤ 2 ^ 40 ∧
    0 - 0 < holddownNs State.reset := by
  refine ⟨fun s h0 h1 h2 => ?_, by decide +kernel⟩
  unfold domNow slewDone
  simp only [h0, h1, Nat.sub_self, Nat.zero_mul, Nat.zero_div]
  simp
  omega

theorem witness_sweeps :
    (∀ h : Bool, let s := flds [(Reg.TBL_T_CFG 3, F.TBL_T_CFG_age_en, 1)] (withEntry h false (exactSt 1 0 0))
      tKind s 3 = 1 ∧ flag s (Reg.TBL_T_CFG 3) F.TBL_T_CFG_age_en = true ∧ s.tbl.steps = [] ∧ tableWaits s 3 = false ∧
      Tab.get 0 s.tbl.agePos 3 < 4 * tBuckets s 3 + 8 ∧ sweepLoc (tBuckets s 3) (Tab.get 0 s.tbl.agePos 3) = ⟨0, 0⟩ ∧
      bucketPoisoned s 3 0 = false ∧ (∀ k < 4, retiredAt s (entryAddrOf s 3 ⟨0, k⟩) = false ∧ retiredIn s (entryAddrOf s 3 ⟨0, k⟩) 16 = false ∧
        parityGood (entryAt s 3 ⟨0, k⟩) = true) ∧
      isValid (entryAt s 3 ⟨0, 0⟩) = true ∧ isStatic (entryAt s 3 ⟨0, 0⟩) = false ∧ isQuar (entryAt s 3 ⟨0, 0⟩) = false ∧
      isHit (entryAt s 3 ⟨0, 0⟩) = h) ∧
    (let s := flds [(Reg.TBL_T_CFG 3, F.TBL_T_CFG_age_en, 1)] (unitWork (fun x => { x with agePos := [(3, 11)] }) (exactSt 1 0 0))
     Tab.get 0 s.tbl.agePos 3 < 4 * tBuckets s 3 + 8 ∧ isValid (entryAt s 3 (sweepLoc (tBuckets s 3) 11)) = false) ∧
    (let s := flds [(Reg.BKG_CTL, F.BKG_CTL_psweep_en, 1)] (withEntry true false (exactSt 1 0 0))
     flag s Reg.BKG_CTL F.BKG_CTL_psweep_en = true ∧ tableWaits s 3 = false ∧ tKind s 3 = 1 ∧ 0 < tBuckets s 3 ∧ bucketPoisoned s 3 0 = false ∧
      isValid (entryAt s 3 ⟨0, 0⟩) = true ∧ isQuar (entryAt s 3 ⟨0, 0⟩) = false) ∧
    (let s := flds [(Reg.BKG_CTL, F.BKG_CTL_psweep_en, 1)] (prefixSt [(1, ten8)] 0 0 0)
     2 ≤ tKind s 3 ∧ Tab.find? (prefixesOf s 3) 1 = some ten8 ∧ ten8.quar = false) ∧
    flag (flds [(Reg.BKG_CTL, F.BKG_CTL_psweep_en, 0)] State.reset) Reg.BKG_CTL F.BKG_CTL_psweep_en = false := by
  decide +kernel

/-! ## Locks and events -/

/-- Lock 4,095 as given, with some registrations. -/
def lockSt (l : Lock) (r : List Waiter) : State :=
  { State.reset with gecko := { Gecko.reset with locks := Tab.set Lock.reset [] 4095 l, regs := r } }
def wait7 : Waiter := { lock := 4095, agent := 7, prio := 3, till := some 0 }
/-- A lock word of agent 5: operation and wait bit. -/
def lockW (op : Nat) (wait : Bool) : Word := BitVec.ofNat 48 (op * 2 ^ 28 + b2n wait * 2 ^ 27 + 2 ^ 24 + 5)

set_option maxRecDepth 1000000 in
theorem witness_lockCommands :
    (∀ op ∈ [0, 1, 2], let w := lockW op true
      bitsN w.toNat 23 0 = 5 ∧ bitsN w.toNat 29 28 = op ∧ (5 ≠ 2 ^ 24 - 1) ∧ w.toNat.testBit 27 = true ∧
      (lockW op false).toNat.testBit 27 = false) ∧
    (∀ s ∈ [lockSt Lock.reset [], lockSt { Lock.reset with owner := some 5 } [wait7],
        lockSt { Lock.reset with owner := some 6 } [wait7], lockSt { Lock.reset with rsv := some (5, 1) } [],
        lockSt { Lock.reset with rsv := some (7, 1) } [], lockSt { Lock.reset with rsv := some (5, 1) } [wait7]],
      s.obx.tx = [] ∧ (∀ l < 8, (olink s l).txq = [] ∧ (olink s l).notices = []) ∧
      s.gecko.left.contains (agentDev 5) = false ∧ mirrorLoses s 4095 = false ∧ s.gecko.regs.length < 8192 ∧
      (∀ r ∈ s.gecko.regs, r.agent ≠ 5)) ∧
    ((lock (lockSt { Lock.reset with rsv := some (5, 1) } [wait7]) 4095).rsv = some (5, 1) ∧
      (lock (lockSt { Lock.reset with owner := some 5 } [wait7]) 4095).owner = some 5 ∧
      (lock (lockSt Lock.reset []) 4095).owner = none ∧ (lock (lockSt Lock.reset []) 4095).rsv = none) ∧
    (let s := lockSt { Lock.reset with owner := some 6 } (List.replicate 8192 { wait7 with lock := 1 })
     8192 ≤ s.gecko.regs.length ∧ ∀ r ∈ s.gecko.regs, r.agent ≠ 5) ∧
    (∃ r ∈ (lockSt Lock.reset [wait7]).gecko.regs, r.lock = 4095 ∧ r.agent = 7 ∧ ∃ x, r.till = some x ∧
      x ≤ (lockSt Lock.reset [wait7]).now) ∧
    ((lockSt { Lock.reset with rsv := some (5, 1) } []).now < (lock (lockSt { Lock.reset with rsv := some (5, 1), till := 1 } []) 4095).till ∧
      (lock (lockSt { Lock.reset with rsv := some (5, 1) } []) 4095).till ≤ (lockSt { Lock.reset with rsv := some (5, 1) } []).now) ∧
    (knownAgent (agentLoc 5) = true ∧
      let s := lockSt Lock.reset []
      ({ s with gecko := { s.gecko with left := [0] } } : State).gecko.left.contains (agentDev 5) = true) ∧
    (let s := { State.reset with gecko := { Gecko.reset with fifos := [(6, [(9 : Word)])] } }
     Tab.get [] s.gecko.fifos 6 = [9] ∧ Tab.get [] s.gecko.fifos 0 = []) := by
  decide +kernel
/-- Event source 5: state, route, mode, raw level and autoack; delivery to a target and sub-target. -/
def evSt (st route mode raw auto : Nat) (tgt sub : Nat) : State :=
  flds [(Reg.EVT_CFG 5, F.EVT_CFG_en, 1), (Reg.EVT_CFG 5, F.EVT_CFG_state, st), (Reg.EVT_CFG 5, F.EVT_CFG_route, route),
    (Reg.EVT_CFG 5, F.EVT_CFG_mode, mode), (Reg.EVT_CFG 5, F.EVT_CFG_raw, raw), (Reg.EVT_CFG 5, F.EVT_CFG_autoack, auto),
    (Reg.EVT_DST 5, F.EVT_DST_target, tgt), (Reg.EVT_DST 5, F.EVT_DST_sub, sub)] State.reset

/-- Host link 0 is there and up. -/
def hostUp (s : State) : State :=
  flds [(Reg.HST_LINK 0, F.HST_LINK_up, 1)]
    { s with img := { s.img with hlinks := [(0, { group := 0, slot := 0, mode := 1, quad := 0, pool := 0 })] } }

theorem witness_eventsPass_occurrence :
    (∀ st ∈ [0, 1, 2, 3], ∀ b ∈ [0, 1, 2, 3, 4, 5, 6, 7], let m := b % 2; let r := b / 2 % 2; let a := b / 4;
      let s := evSt st 3 m r a 0 0
      flag s (Reg.EVT_CFG 5) F.EVT_CFG_en = true ∧ evState s 5 = st ∧ fld s (Reg.EVT_CFG 5) F.EVT_CFG_mode = m ∧
      flag s (Reg.EVT_CFG 5) F.EVT_CFG_raw = (r == 1) ∧ flag s (Reg.EVT_CFG 5) F.EVT_CFG_autoack = (a == 1) ∧
      Tab.get 0 s.ev.arrived 5 = 0 ∧ fld s (Reg.EVT_CFG 5) F.EVT_CFG_route = 3 ∧ s.ev.svcq.length < 512) := by
  decide +kernel

theorem witness_eventsPass_crossing :
    (let s := evSt 1 3 1 0 0 0 0
     let u := { s with ev := { s.ev with svcq := List.replicate 512 5, arrived := [(5, 1)], xing := [(5, 1)] } }
     512 ≤ u.ev.svcq.length ∧ Tab.get 0 u.ev.arrived 5 = 0 + 1 ∧ Tab.get 0 u.ev.xing 5 = 0 + 1 ∧ u.clk.dead = false ∧
      u.ev.svcq.head? = some 5) := by
  decide +kernel

theorem witness_eventsPass_msix :
    (∀ m : Bool, let s := hostUp (evSt 1 2 1 0 0 0x1000 2047)
      let u := { s with host := { s.host with vecs := if m then [] else [(0x1000 * 2048 + 2047, { Vec.reset with masked := false })] } }
      fnEnabled u 0x1000 = true ∧ (vec u 0x1000 2047).masked = m ∧ evState u 5 = 1 ∧
      fld u (Reg.EVT_DST 5) F.EVT_DST_target = 0x1000 ∧ fld u (Reg.EVT_DST 5) F.EVT_DST_sub = 2047) := by
  decide +kernel

theorem witness_eventsPass_disabledFn :
    fnEnabled (evSt 1 2 1 0 0 0x1000 0) 0x1000 = false := by
  decide +kernel

theorem witness_eventsPass_noRoute :
    (let s := evSt 1 4 1 0 0 3 0
     fld s (Reg.EVT_CFG 5) F.EVT_CFG_route = 4 ∧ routeCands s (3 % 1024) = []) := by
  decide +kernel

theorem witness_eventsPass_wakeGroup :
    (let s := { flds [(Reg.EVT_WG_CTL 255, F.EVT_WG_CTL_cluster, 23), (Reg.EVT_WG_M2 255, F.EVT_WG_M2_mask, 2 ^ 31)]
        (evSt 1 1 1 0 0 255 0) with clusters := [(23, cluRun)], threads := [(3071, runK)] }
     fld s (Reg.EVT_CFG 5) F.EVT_CFG_route = 1 ∧ (clu s 23).power = .run ∧ flag s (Reg.EVT_WG_CTL 255) F.EVT_WG_CTL_one = false ∧
      fld s (Reg.EVT_WG_CTL 255) F.EVT_WG_CTL_cluster = 23 ∧ wgThreads s 255 = [127] ∧
      ((th s (23 * 128 + 127)).state != .killed && (th s (23 * 128 + 127)).state != .reset) = true ∧
      inDoze (th s (23 * 128 + 127)) = false) := by
  decide +kernel

theorem witness_eventsPass_otherRoutes :
    (fld (evSt 1 0 1 0 0 0 0) (Reg.EVT_CFG 5) F.EVT_CFG_route = 0 ∧ fld (evSt 1 5 1 0 0 0 0) (Reg.EVT_CFG 5) F.EVT_CFG_route = 5) := by
  decide +kernel

theorem witness_eventsPass_idle :
    (flag State.reset (Reg.EVT_CFG 5) F.EVT_CFG_en = false ∧ State.reset.ev.svcq = [] ∧ Tab.get 0 State.reset.ev.xing 5 = 0) := by
  decide +kernel

/-! ## Host and Ethernet ports -/

/-- The canonical form from its parts. -/
theorem canonical_of {s : State}
    (h : (((s.csr.map (fun e => e.1)).Pairwise (· < ·) ∧ ∀ e ∈ s.csr, e.2 ≠ resetWord e.1) ∧ Memory.wf s.mem ∧
      Memory.wf s.scratch ∧ Memory.wf s.code) ∧ (Tab.wf [] s.spawn.queues = true ∧ ∀ e ∈ s.spawn.queues, e.1 < 1024) ∧
      ∀ e ∈ s.img.ports, e.1 < 64) : Canonical s :=
  ⟨h.1.1, h.1.2.1, h.1.2.2.1, h.1.2.2.2, h.2.1, h.2.2⟩

theorem witness_hostLinksAndFunctions :
    Canonical (hostUp State.reset) ∧
    (let s := { flds [(Reg.HST_LINK 0, F.HST_LINK_up, 0)] (hostUp State.reset) with host := { HostS.reset with perst := [0] } }
     linkPresent s 0 = true ∧ flag s (Reg.HST_LINK 0) F.HST_LINK_up = false ∧
      flag s (Reg.HST_LINK 0) F.HST_LINK_half_reset = false ∧ s.host.perst.contains (0 / 4) = true ∧
      fnEnabled s 0x1000 = false ∧ trainingOk s 0 0 0 5 16 = true ∧ trainingOk s 0 0 0 6 16 = false) ∧
    (flag (hostUp State.reset) (Reg.HST_LINK 0) F.HST_LINK_up = true ∧ fnEnabled (hostUp State.reset) 0x1000 = true ∧
      flag (hostUp State.reset) (Reg.HST_LINK 0) F.HST_LINK_cxl = false ∧ (hostUp State.reset).host.mboxq.length < 1024) ∧
    (let s := flds [(Reg.HST_LINK 0, F.HST_LINK_cxl, 1)] (hostUp State.reset)
     flag s (Reg.HST_LINK 0) F.HST_LINK_cxl = true ∧ flag s (Reg.HST_LINK 0) F.HST_LINK_up = true ∧ s.host.mboxq.length < 1024) ∧
    (let s := { State.reset with host := { HostS.reset with mboxq := [0x13FF] } }
     s.host.mboxq = [0x13FF] ∧ State.reset.host.mboxq = []) :=
  ⟨canonical_of (by decide +kernel), by decide +kernel⟩

/-- A fetch of two descriptors under tag 3. -/
def fetch2 (descs : Option (List TxDesc)) : TxFetch := { tag := 3, k := 2, ts := 0, descs := descs }

/-- Transmit queue 4,095 of function 0x1000, its queue 255: 64 descriptors, 8 credits, with state and index values. -/
def txSt (st tail credit : Nat) (fetch : Option TxFetch) : State :=
  let s := flds [(Reg.HST_TXQ_CFG 4095, F.HST_TXQ_CFG_en, 1), (Reg.HST_TXQ_CFG 4095, F.HST_TXQ_CFG_func, 0x1000),
      (Reg.HST_TXQ_CFG 4095, F.HST_TXQ_CFG_idx, 255), (Reg.HST_TXQ_CFG 4095, F.HST_TXQ_CFG_log2size, 6),
      (Reg.HST_TXQ_CFG 4095, F.HST_TXQ_CFG_credits, 8), (Reg.HST_TXQ_STAT 4095, F.HST_TXQ_STAT_state, st)] (hostUp State.reset)
  { s with host := { s.host with tx := Tab.set HTxq.reset [] 4095 { tail := tail, credit := credit, fetch := fetch, nextTag := 4, orphans := [2], lost := [1] } } }

theorem witness_hostQueues :
    Canonical (txSt 1 0 8 none) ∧ Canonical (txSt 1 2 8 (some (fetch2 none))) ∧ Canonical (rxSt 1 0) ∧
    (getF (BitVec.ofNat 48 (2 ^ 47)) F.HST_TXQ_CFG_en = 1 ∧ flag (txSt 1 0 8 none) (Reg.HST_TXQ_CFG 4095) F.HST_TXQ_CFG_en = true ∧
      flag State.reset (Reg.HST_TXQ_CFG 4095) F.HST_TXQ_CFG_en = false) ∧
    (let s := txSt 1 0 8 none
     fnEnabled s 0x1000 = true ∧ txqNamed s 0x1000 255 = some 4095 ∧ txqState s 4095 = 1 ∧
      ((8 + 2 ^ 32 - txqHead s 4095) % 2 ^ 32 ≤ txqSize s 4095 ∧ ((htx s 4095).credit + 2 ^ 32 - 8) % 2 ^ 32 < 2 ^ 31) ∧
      (txqSize s 4095 < (65 + 2 ^ 32 - txqHead s 4095) % 2 ^ 32 ∧ 2 ^ 31 ≤ ((htx s 4095).credit + 2 ^ 32 - 9) % 2 ^ 32)) ∧
    (let s := hostUp (rxSt 1 0)
     fnEnabled s 0x1000 = true ∧ rxqOf s 0x1000 0 = some 5 ∧ (64 + 2 ^ 32 - (hrx s 5).head) % 2 ^ 32 ≤ rxqSize s 5 ∧
      rxqSize s 5 < (65 + 2 ^ 32 - (hrx s 5).head) % 2 ^ 32) ∧
    (let s := txSt 1 2 8 none
     txqState s 4095 = 1 ∧ (htx s 4095).fetch = none ∧ 2 ≤ ((htx s 4095).tail + 2 ^ 32 - txqHead s 4095) % 2 ^ 32 ∧
      txqHeld s 4095 = false ∧ linkOutstanding s (hostLinkOfFn s (txqFn s 4095)) < 1024 ∧
      0 % txqSize s 4095 + 2 ≤ txqSize s 4095 ∧ txqHeld { s with spawn := { s.spawn with asserted := [unitHost 4095] } } 4095 = true) ∧
    (let s := txSt 1 2 8 (some (fetch2 none))
     (htx s 4095).fetch = some (fetch2 none) ∧ (fetch2 none).tag ∉ (htx s 4095).lost ∧ (fetch2 none).tag ∉ (htx s 4095).orphans ∧
      txDescsOk [⟨0, 64, 0, 0⟩, ⟨64, 1, 1, 0⟩] = true ∧ txDescsOk [⟨0, 64, 0, 0⟩, ⟨64, 1, 0, 0⟩] = false) ∧
    (let s := pool0 (txSt 1 2 8 (some (fetch2 (some [⟨0, 64, 0, 0⟩, ⟨64, 1, 1, 0⟩]))))
     (htx s 4095).fetch = some (fetch2 (some [⟨0, 64, 0, 0⟩, ⟨64, 1, 1, 0⟩])) ∧
      tooLong s ((unitPool s (unitHost 4095)).getD 0) 65 = false) ∧
    ((htx (txSt 1 0 8 none) 4095).fetch = none ∧ 1 ∈ (htx (txSt 1 0 8 none) 4095).lost ∧
      (2 ∉ (htx (txSt 1 0 8 none) 4095).lost ∧ 2 ∈ (htx (txSt 1 0 8 none) 4095).orphans) ∧
      (3 ∉ (htx (txSt 1 0 8 none) 4095).lost ∧ 3 ∉ (htx (txSt 1 0 8 none) 4095).orphans)) ∧
    queueFn 0x1000 = true ∧ queueFn 0xFFF = false :=
  ⟨canonical_of (by decide +kernel), canonical_of (by decide +kernel), canonical_of (by decide +kernel), by decide +kernel⟩

/-- Logical device 15 of link 0 maps 256 MiB from 0 through decoder 0 and, with permissions, to segment 0 of the pool. -/
def cxlSt (rd_ wr_ valid : Nat) : State :=
  let s := flds [(Reg.HST_LINK 0, F.HST_LINK_cxl, 1), (Reg.HST_LDCFG 15, F.HST_LDCFG_valid, 1),
      (Reg.HST_LDCFG 15, F.HST_LDCFG_map_len, 1), (Reg.HST_POOLMAP 0, F.HST_POOLMAP_valid, valid),
      (Reg.HST_POOLMAP 0, F.HST_POOLMAP_rd, rd_), (Reg.HST_POOLMAP 0, F.HST_POOLMAP_wr, wr_),
      (Reg.MC_DIMM 4, F.MC_DIMM_cap_gib, 1)] (hostUp State.reset)
  { s with host := { s.host with hdm := [(15 * 64 + 6, 0x10000000), (15 * 64 + 8, 0x400)] } }

theorem witness_poolRequests :
    (∀ e ∈ [(0, 0), (0, 1), (1, 1)], let s := cxlSt e.1 e.1 e.2
      flag s (Reg.HST_LDCFG 15) F.HST_LDCFG_valid = true ∧ fld s (Reg.HST_LDCFG 15) F.HST_LDCFG_link = 0 ∧
      flag s (Reg.HST_LINK 0) F.HST_LINK_cxl = true ∧ flag s (Reg.HST_LINK 0) F.HST_LINK_up = true ∧ ldShown s 15 = true) ∧
    hdmDpa (cxlSt 0 0 0) 15 0x0FFFFFC0 = some 0x0FFFFFC0 ∧ hdmDpa (cxlSt 0 0 0) 15 0x10000000 = none ∧
    poolEntry (cxlSt 0 0 0) 15 0x0FFFFFC0 = none ∧
    poolEntry (cxlSt 0 0 1) 15 0x0FFFFFC0 = some (BitVec.ofNat 48 (2 ^ 47)) ∧
    (let w : Word := BitVec.ofNat 48 (7 * 2 ^ 45)
     poolEntry (cxlSt 1 1 1) 15 0x0FFFFFC0 = some w ∧ getF w F.HST_POOLMAP_rd = 1 ∧ getF w F.HST_POOLMAP_wr = 1 ∧
      poolAddr w 0x0FFFFFC0 = 0x10000FFFFFC0) := by
  decide +kernel

theorem witness_poolMemory :
    let s := cxlSt 1 1 1
    populated s 0x10000FFFFFC0 = true ∧ populated (flds [(Reg.MC_DIMM 4, F.MC_DIMM_cap_gib, 0)] s) 0x10000FFFFFC0 = false ∧
    unitBusy s 0x10000FFFFFC0 = false ∧ retiredAt s 0x10000FFFFFC0 = false ∧ retiredIn s 0x10000FFFFFC0 64 = false ∧
    poisoned s 0x10000FFFFFC0 64 = false ∧ s.host.pfault = [] ∧
    flag State.reset (Reg.HST_LDCFG 15) F.HST_LDCFG_valid = false ∧
    (let u := { s with host := { s.host with pfault := List.replicate 64 1 } }
     64 ≤ u.host.pfault.length ∧ u.host.pfault.head? = some 1) := by
  decide +kernel

/-- Port 3 in a state, enabled or not, with flow control. -/
def ethSt (st en fc : Nat) : State :=
  flds [(Reg.MAC_PSTAT 3, F.MAC_PSTAT_state, st), (Reg.MAC_PCFG 3, F.MAC_PCFG_en, en), (Reg.MAC_PCFG 3, F.MAC_PCFG_fc, fc)] portUp

theorem witness_ethernetPorts :
    (Canonical (ethSt 2 1 1) ∧ Canonical (ethSt 0 0 0) ∧ Canonical (ethSt 1 1 2)) ∧
    (portAssigned (ethSt 0 0 0) 3 = true ∧ getF (BitVec.ofNat 48 (2 ^ 47)) F.MAC_PCFG_en = 1 ∧
      flag (ethSt 0 0 0) (Reg.MAC_PCFG 3) F.MAC_PCFG_en = false ∧ portState (ethSt 0 0 0) 3 = 0) ∧
    (getF 0 F.MAC_PCFG_en = 0 ∧ flag (ethSt 2 1 1) (Reg.MAC_PCFG 3) F.MAC_PCFG_en = true ∧ portState (ethSt 2 1 1) 3 = 2) ∧
    (∀ b ∈ [0, 1], let s := flds [(Reg.PRT_SEAL, F.PRT_SEAL_seal, b)] (ethSt 1 1 2)
      portState s 3 = 1 ∧ isSealed s = (b == 1)) ∧
    (portFc (ethSt 2 1 1) 3 = 1 ∧ portFc (ethSt 2 1 2) 3 = 2 ∧ portFc (ethSt 2 1 0) 3 = 0) ∧
    (let s := { ethSt 2 1 2 with spawn := { Spawn.reset with asserted := [unitEth 3 7] } }
     s.spawn.asserted.contains (unitEth 3 7) = true ∧ portState s 3 = 2 ∧ portFc s 3 ≠ 0 ∧ portAssigned s 3 = true) ∧
    (∀ k < 8, (ethSt 2 1 2).spawn.asserted.contains (unitEth 3 k) = false) ∧
    (let s := setEth 3 { EthPort.reset with txts := [(1, 2)] } (ethSt 2 1 1)
     (ethP s 3).txts = [(1, 2)] ∧ (ethP (ethSt 2 1 1) 3).txts = []) :=
  ⟨⟨canonical_of (by decide +kernel), canonical_of (by decide +kernel), canonical_of (by decide +kernel)⟩, by decide +kernel⟩
/-! ## Obrex -/

/-- Link 5 in a state, with what it holds; the device is 7, domain tag 9. -/
def obxSt (st joined : Nat) (x : ObxLink) : State :=
  let s := flds [(Reg.OBX_LCFG 5, F.OBX_LCFG_en, 1), (Reg.OBX_LSTAT 5, F.OBX_LSTAT_state, st), (Reg.OBX_ID, F.OBX_ID_devid, 7),
      (Reg.OBX_ID, F.OBX_ID_joined, joined), (Reg.OBX_TAG, F.OBX_TAG_tag, 9)] State.reset
  setOlink { s with img := { s.img with olinks := [(5, { group := 5, slot := 0, mode := 2, quad := 0, pool := 0 })] },
                    obx := { s.obx with everJoined := joined == 1 } } 5 x

/-- A flit of 256 bytes with its crc. -/
def flitOf (seq ftype ctl vc len : Nat) (payload : List Byte) : List Byte :=
  let h := leBytes 2 (seq + ftype * 4096) ++ leBytes 2 ctl ++ leBytes 1 (vc * 16) ++ leBytes 1 len ++ leBytes 22 0xF000
  let p := payload ++ List.replicate (224 - payload.length) 0
  h ++ leBytes 4 (crc32c 0xFFFFFFFF (h ++ p)) ++ p

/-- The 16-byte header of a transaction. -/
def header (typ size dst agent tag arg : Nat) : List Byte :=
  leBytes 1 typ ++ leBytes 1 size ++ leBytes 2 dst ++ leBytes 4 agent ++ leBytes 2 tag ++ leBytes 6 arg

/-- A retry buffer of flits 4,094, 4,095 and 0. -/
def retry3 : List Flit := [{ idleFlit with seq := 4094, ftype := 4 }, { idleFlit with seq := 4095 }, { idleFlit with seq := 0 }]

theorem witness_obrexLinks :
    (∀ st ∈ [0, 1, 2, 3, 4, 5], ∀ j ∈ [0, 1], linkAssigned (obxSt st j ObxLink.reset) 5 = true ∧
      linkState (obxSt st j ObxLink.reset) 5 = st ∧ fabricIdle (obxSt st j ObxLink.reset)) ∧
    (getF (BitVec.ofNat 48 (2 ^ 47)) F.OBX_LCFG_en = 1 ∧ getF 0 F.OBX_LCFG_en = 0) ∧
    (ObxLink.reset.retry.length < 496 ∧ ObxLink.reset.expect < 4096 ∧ initReason (obxSt 2 0 ObxLink.reset) 5 3 9 false false = 0 ∧
      initReason (obxSt 2 1 ObxLink.reset) 5 7 9 true false = 2 ∧ initReason (obxSt 2 1 ObxLink.reset) 5 3 8 true false = 3) := by
  have h : ∀ st ∈ [0, 1, 2, 3, 4, 5], ∀ j ∈ [0, 1], let s := obxSt st j ObxLink.reset
      linkAssigned s 5 = true ∧ linkState s 5 = st ∧ s.obx.tx = [] ∧ ∀ l < 8, (olink s l).txq = [] ∧ (olink s l).notices = [] := by
    decide +kernel
  exact ⟨h, by decide +kernel⟩

theorem witness_obrexFlits :
    flitGood [] = false ∧
    (let b := flitOf 0 0 4095 0 0 []
     flitGood b = true ∧ fNat b 1 1 / 16 = 0 ∧ (obxSt 4 1 ObxLink.reset).obx.noticeIn = [] ∧
      ackCount { ObxLink.reset with retry := retry3 } (fNat b 2 2 % 4096) = 2) ∧
    (let b := flitOf 4095 1 0x6000 15 18 (header 8 0 0 0 0 0)
     flitGood b = true ∧ fNat b 1 1 / 16 = 1 ∧ fNat b 0 2 % 4096 = 4095 ∧ (fNat b 2 2).testBit 14 = true ∧
      (fNat b 2 2).testBit 13 = true ∧ nKind (fNat b 16 8) = 0 ∧
      rxType { link := 5, vc := 15, flits := 1, stomp := false, at_ := 0, bytes := (b.drop 32).take 18 } = 8) ∧
    (let b := flitOf 0 1 0x6000 0 16 (header 2 8 7 0 0 0)
     flitGood b = true ∧ fNat b 1 1 / 16 = 1 ∧ nKind (fNat b 16 8) = 0 ∧
      rxDst { link := 5, vc := 0, flits := 1, stomp := false, at_ := 0, bytes := (b.drop 32).take 16 } = devId (obxSt 4 1 ObxLink.reset)) ∧
    retry3 ≠ [] ∧ ({ ObxLink.reset with nak := true, replays := 7 } : ObxLink).nak = true := by
  decide +kernel

/-- A received transaction on link 5 from agent 5 of device 3, with 16-bit tag 2. -/
def rxOf (typ size arg : Nat) (stomp : Bool) (data : List Byte) : ObxRx :=
  { link := 5, vc := 0, flits := 1, stomp := stomp, at_ := 0, bytes := header typ size 7 (3 * 0x4000 + 5) 2 arg ++ data }

/-- It waits at link 5, which is LINK_UP; virtual channel 2 carries responses; the protection map's default is `perm`. -/
def obxRxSt (perm : Nat) (left : List Nat) (r : ObxRx) : State :=
  let s := pool0 (flds [(Reg.OBX_VCCFG 2, F.OBX_VCCFG_class, 2), (Reg.PRT_DEFAULT, F.PRT_DEFAULT_perm, perm),
    (Reg.BPM_PHEAD 0, F.BPM_PHEAD_head, 0x100000000), (Reg.BPM_PTAIL 0, F.BPM_PTAIL_tail, 0x100000000),
    (Reg.BPM_PCOUNT 0, F.BPM_PCOUNT_list, 1)] (obxSt 3 1 ObxLink.reset))
  { s with obx := { s.obx with rx := [r] }, gecko := { s.gecko with left := left } }

/-- No link is ACTIVE, so none may start a transaction. -/
theorem noneOpen_of {s : State} (h : ∀ l < 8, linkState s l ≠ 4) : noneOpen s := fun l hl v n => by
  simp [linkOpen, h l hl]

theorem witness_obrexTransactions :
    let s0 := obxRxSt 0 [] (rxOf 2 0 0 false [])
    linkAssigned s0 5 = true ∧ vcOfClass s0 2 = some 2 ∧ dstEn s0 = false ∧ noneOpen s0 ∧ fabricIdle s0 := by
  have h : let s0 := obxRxSt 0 [] (rxOf 2 0 0 false [])
      (∀ l < 8, linkState s0 l ≠ 4) ∧ (linkAssigned s0 5 = true ∧ vcOfClass s0 2 = some 2 ∧ dstEn s0 = false) ∧
      s0.obx.tx = [] ∧ ∀ l < 8, (olink s0 l).txq = [] ∧ (olink s0 l).notices = [] := by
    decide +kernel
  exact ⟨h.2.1.1, h.2.1.2.1, h.2.1.2.2, noneOpen_of h.1, h.2.2⟩

/-- Received, from a device that has not left. -/
theorem witness_obrexReceived :
    (∀ t ∈ [1, 2, 3, 4, 5, 6, 7, 8], let r := rxOf t 1 0 false []
      (obxRxSt 0 [] r).obx.rx.find? (fun r => r.link == 5 && rxType r == t) = some r ∧ fromLeft (obxRxSt 0 [] r) r = false ∧
      rxWaits (obxRxSt 0 [] r) r = false ∧ r.stomp = false ∧ (rxOf t 1 0 true []).stomp = true ∧
      fromLeft (obxRxSt 0 [3] r) r = true ∧ State.reset.obx.rx.find? (fun r => r.link == 5 && rxType r == t) = none) ∧
    (∀ p ∈ [0, 3 * 2 ^ 12], ∀ a ∈ [Reg.GKO_LOCK 4095, Reg.EVT_RING], rxDenied (obxRxSt p [] (rxOf 5 0 4095 false [])) a = (p == 0)) ∧
    (tooLong (obxRxSt 0 [] (rxOf 1 0 0 false [])) 0 0x20000 = false ∧ tooLong (obxRxSt 0 [] (rxOf 1 0 0 false [])) 0 0x20001 = true) ∧
    (rxSize (rxOf 2 65 0x40 false []) = 65 ∧ windowTarget State.reset (bitsN (rxArg (rxOf 2 8 0x1C00000000 false [])) 36 0) = none) ∧
    (∀ n ∈ [1, 6, 64], let r := rxOf 2 n 0x40 false []
      windowTarget State.reset (bitsN (rxArg r) 36 0) = some 0x10000000040 ∧
      populated State.reset 0x10000000040 = true ∧ populated State.reset (0x10000000040 + n - 1) = true ∧
      allowed (obxRxSt 0x3FFF [] r) 6 0x10000000040 true true = true ∧
      allowed (obxRxSt 0xCFFF [] r) 6 0x10000000040 true false = false ∧
      retiredIn (obxRxSt 0x3FFF [] r) 0x10000000040 n = false ∧
      retiredAt (obxRxSt 0x3FFF [] r) 0x10000000040 = false ∧ poisoned (obxRxSt 0x3FFF [] r) 0x10000000040 n = false) ∧
    (let r := rxOf 5 0 4095 false (leBytes 6 (3 * 0x4000 + 5))
     let s := obxRxSt 0 [] r
     agentDev (rxAgent r) ≠ devId s ∧ bitsN (leNat (((rxData r).drop 0).take 6)) 23 0 = rxAgent r ∧
      bitsN (leNat (((rxData r).drop 0).take 6)) 29 28 = 0 ∧ mirrorLoses s 4095 = false ∧ (lock s 4095).owner = none ∧
      (lock s 4095).rsv = none) ∧
    ((Tab.get [] State.reset.gecko.fifos 6).length < 256 ∧ rxArg (rxOf 6 0 1 false []) = 1 ∧ rxArg (rxOf 6 0 0 false []) = 0) := by
  decide +kernel

/-- Request tag 2 is thread 0's remote load of 6 bytes, or a fabric engine's; its answer has come. -/
def obxReqSt (op : Option Nat) : State :=
  let s := obxRxSt 0 [] (rxOf 7 0 0 false (leBytes 8 0xAB))
  { s with
    threads := [(0, { runK with tok := [(0, .pending)] })], clusters := [(0, cluRun)],
    ops := [{ opLoad with kind := .remote 6 false, tok := some 0 }],
    obx := { s.obx with reqs := [(2, { op := op, agent := 7 * 0x4000, dst := 3, late := false })] } }

theorem witness_obrexResp :
    (let s := obxReqSt (some 0)
     s.obx.rx.find? (fun r => r.link == 5 && rxType r == 7) = some (rxOf 7 0 0 false (leBytes 8 0xAB)) ∧
      rxTag (rxOf 7 0 0 false (leBytes 8 0xAB)) = 2 ∧
      (Tab.find? s.obx.reqs 2).map (fun q => (q.late, q.op)) = some (false, some 0) ∧
      (opOf s 0).map (fun o => (o.thread, o.dead, o.late, o.tok, o.clobber)) = some (0, false, false, some 0, []) ∧
      (th s 0).wait = .none) ∧
    (Tab.find? (obxRxSt 0 [] (rxOf 7 0 0 false [])).obx.reqs 2 = none) ∧
    (Tab.find? (obxReqSt none).obx.reqs 2).map (fun q => (q.late, q.op)) = some (false, none) := by
  decide +kernel

/-- A packet departs toward device 3 on virtual channel 6: link 5 carries its route, in a state. -/
def fabricSt (st check : Nat) (left : List Nat) (mute : Option Nat) : State :=
  let s := departSt (3 * 2 ^ 44 + 6 * 2 ^ 16 + 3) check (obxSt st 1 { ObxLink.reset with credit := [(6, 4)] })
  let s := flds [(Reg.OBX_ROUTE 3, F.OBX_ROUTE_cand, 13)] s
  { s with gecko := { s.gecko with left := left },
           obx := { s.obx with mutes := (match mute with | some n => [(0, n)] | none => []) } }

/-- A Mute of the domain by device 9, DROP or HOLD. -/
def muteAll (drop : Nat) : Nat := 2 ^ 60 + 9 * 2 ^ 46 + 2 ^ 35 + drop * 2 ^ 34 + 64 * 2 ^ 26

theorem witness_fabricPackets :
    (∀ c ∈ [check0, check0 + 1], let s := fabricSt 4 c [] none
      egressQ s (3 * 2 ^ 44 + 6 * 2 ^ 16 + 3) = [departOf (3 * 2 ^ 44 + 6 * 2 ^ 16 + 3)] ∧ s.obx.tx = [] ∧
      routeCands s 3 ≠ [] ∧ (∀ l < 8, (olink s l).txq = [] ∧ (olink s l).notices = [])) ∧
    (routeCands (regs [(Reg.OBX_ROUTE 3, 0)] (fabricSt 4 check0 [] none)) 3 = []) ∧
    ((fabricSt 3 check0 [3] none).gecko.left.contains 3 = true) ∧
    (let s := fabricSt 4 check0 [] (some (muteAll 1))
     muteDrops s 6 3 = true ∧ s.gecko.left.contains 3 = false) ∧
    (let s := fabricSt 4 check0 [] (some (muteAll 0))
     muteDrops s 6 3 = false ∧ muted s 6 3 = true) := by
  decide +kernel

theorem witness_fabricPktLink :
    let s := fabricSt 4 check0 [] none
    s.gecko.left.contains 3 = false ∧ muted s 6 3 = false ∧
    pickLink s (pktMsg s 6 3 (List.replicate 100 0) false) = some 5 := by
  decide +kernel

set_option maxRecDepth 1000000 in
theorem witness_fabricPktSent :
    let s := fabricSt 4 check0 [] none
    let d := departOf (3 * 2 ^ 44 + 6 * 2 ^ 16 + 3)
    d.win.data = [(0x100000000, 2048)] ∧ d.win.links = [] ∧ departWaits s d = false ∧
    0 < d.len ∧ d.off + d.len ≤ 2048 ∧
    (∀ tl ∈ windowTiles [(0x100000000, 2048)] d.off d.len, retiredIn s tl 256 = false ∧ poisoned s tl 256 = false ∧
      busyIn s tl 256 = false ∧ (tileGet s tl).1 = true ∧ tileGood s tl = true) := by
  decide +kernel

/-! ## Notices, membership, domain time -/

/-- A notice of a kind from device 9, with hops, its bits [45:16] and its id. -/
def noticeAs (kind hops low id : Nat) : Nat := kind * 2 ^ 60 + hops * 2 ^ 56 + 9 * 2 ^ 46 + low * 2 ^ 16 + id

/-- The notice has been accepted on link 5; the mutes and recent pairs are as given. -/
def noticeSt (n : Nat) (mutes : Tab Nat) (recent : List (Nat × Nat)) : State :=
  let s := obxSt 3 1 ObxLink.reset
  { s with obx := { s.obx with noticeIn := [(5, n)], mutes := mutes, recent := recent } }

/-- A full mute table. -/
def mutes64 : Tab Nat := (List.range 64).map (fun k => (k, noticeAs 1 1 0 k))

theorem witness_notices :
    (∀ c ∈ [(1, noticeAs 1 2 0x3003FC05 1), (2, noticeAs 2 2 0x090005 2), (3, noticeAs 3 2 (9 * 2 ^ 20) 3), (4, noticeAs 4 1 (9 * 2 ^ 20) 4)],
      (noticeSt c.2 [] []).obx.noticeIn.find? (fun e => e.1 == 5 && nKind e.2 == c.1) = some (5, c.2) ∧
      State.reset.obx.noticeIn.find? (fun e => e.1 == 5 && nKind e.2 == c.1) = none ∧
      (noticeSt c.2 [] [(nOrigin c.2, nId c.2)]).obx.recent.contains (nOrigin c.2, nId c.2) = true ∧
      (noticeSt c.2 [] []).obx.recent.contains (nOrigin c.2, nId c.2) = false ∧ dstRole (noticeSt c.2 [] []) ≠ 1) ∧
    (nHops (noticeAs 1 2 0x3003FC05 1) = 2 ∧ (olink (noticeSt 0 [] []) 5).retry.length < 512 ∧ linkState (noticeSt 0 [] []) 5 = 3) ∧
    (muteFree (noticeSt 0 [] []) = some 0 ∧ muteFree (noticeSt 0 mutes64 []) = none ∧ (noticeSt 0 mutes64 []).obx.overflow = []) ∧
    (let n := noticeAs 2 2 (9 * 2 ^ 20 + 5 * 16) 2
     List.find? (fun e => nOrigin e.2 == nTarget n && nId e.2 == bitsN n 35 20) (noticeSt n mutes64 []).obx.mutes =
        some (5, noticeAs 1 1 0 5) ∧
      List.find? (fun e => nOrigin e.2 == nTarget n && nId e.2 == bitsN n 35 20) (noticeSt n [] []).obx.mutes = none) ∧
    (∀ k ∈ [1, 2, 3, 4], bitsN (BitVec.ofNat 48 (k * 2 ^ 44) : Word).toNat 47 44 = k) ∧ State.reset.obx.nextId < 65536 ∧
    (Tab.find? State.reset.obx.mutes 5 = none ∧ Tab.find? mutes64 5 = some (noticeAs 1 1 0 5) ∧ nLife (noticeAs 1 1 0 5) = 0 ∧
      nLife (noticeAs 1 1 3 5) ≠ 0) := by
  decide +kernel

/-- A Mute of the whole domain is in force in the 16th NCLK after its acceptance and not before (R405). -/
theorem test_mute_in_force :
    let s := applyNotice (noticeAs 1 1 0xBFC00 5) (noticeSt 0 [] [])
    muted { s with now := 15 } 6 3 = false ∧ muted { s with now := 16 } 6 3 = true := by
  decide +kernel

theorem witness_membership :
    (getF (BitVec.ofNat 48 (2 ^ 10 + 7)) F.OBX_ID_joined = 1 ∧ getF 7 F.OBX_ID_joined = 0) ∧
    (obxJoined (obxSt 3 1 ObxLink.reset) = true ∧ obxJoined (obxSt 3 0 ObxLink.reset) = false) ∧
    (let s := obxSt 3 0 { ObxLink.reset with peerJoined := true, peerTag := 9 }
     (∀ k < 8, linkState s k ≠ 4) ∧ linkState s 5 = 3 ∧ (olink s 5).peerJoined = true ∧
      (olink s 5).peerTag = fld s Reg.OBX_TAG F.OBX_TAG_tag) ∧
    linkState (obxSt 4 1 ObxLink.reset) 5 = 4 := by
  decide +kernel

/-- Time fields have come on link 5: an offset of `off` ns, or no echo. -/
def timeSt (master step : Nat) (good : Nat) (tin : Option TimeIn) (hops : Nat) : State :=
  let s := flds [(Reg.OBX_TIME_CTL, F.OBX_TIME_CTL_master, master), (Reg.OBX_TIME_CTL, F.OBX_TIME_CTL_step_en, step)]
    (obxSt 3 1 { ObxLink.reset with peerHops := hops, tsIn := tin, stamps := [(4, 1000)] })
  { s with obx := { s.obx with good := good } }
def echoOf (off : Nat) : TimeIn := { t3 := 4000 + off, tsid := 2, echo := some (4, 3000), t4 := 4000 }

theorem witness_domainTime :
    (linkAssigned (timeSt 0 0 0 none 0) 5 = true ∧ epcRun (timeSt 0 0 0 none 0) = false ∧ linkState (timeSt 0 0 0 none 0) 5 = 3 ∧
      linkState (obxSt 2 1 ObxLink.reset) 5 = 2) ∧
    ((olink (timeSt 0 0 0 none 0) 5).tsIn = none ∧ (olink (timeSt 0 0 0 (some { echoOf 0 with echo := none }) 0) 5).tsIn.isSome = true ∧
      timeParent (timeSt 0 0 0 (some (echoOf 0)) 127) = none ∧ timeParent (timeSt 1 0 0 (some (echoOf 0)) 0) = none) ∧
    (∀ e ∈ [(0, 0), (19, 15), (20, 0), (1000, 0), (1001, 0)], ∀ st ∈ [0, 1], let s := timeSt 0 st e.2 (some (echoOf e.1)) 3
      timeParent s = some 5 ∧ (olink s 5).tsIn = some (echoOf e.1) ∧ flag s Reg.OBX_TIME_CTL F.OBX_TIME_CTL_step_en = (st == 1) ∧
      ((4000 + e.1 : Nat) : Int) + ((4000 : Int) - 1000 - 3000 - sextN 16 (fld s (Reg.OBX_LCFG 5) F.OBX_LCFG_asym)) / 2 - 4000 = e.1) ∧
    (flag (timeSt 1 0 0 none 0) Reg.OBX_TIME_CTL F.OBX_TIME_CTL_master = true ∧
      flag (timeSt 0 0 0 none 0) Reg.OBX_TIME_CTL F.OBX_TIME_CTL_master = false) := by
  decide +kernel

/-! ## Strum and live images -/

/-- Epochs run toward boundary 8, at a phase with a verdict and a gate word; the staged set is as given. -/
def epcSt (phase : Nat) (verdict : Option Nat) (gate gword : Nat) (pending domain landed nwr limit defers : Nat) : State :=
  let s := flds [(Reg.EPC_CTL, F.EPC_CTL_run, 1), (Reg.EPC_CTL, F.EPC_CTL_max_defer, limit),
      (Reg.EPC_STAGE, F.EPC_STAGE_pending, pending), (Reg.EPC_STAGE, F.EPC_STAGE_domain, domain),
      (Reg.EPC_STAGE, F.EPC_STAGE_landed, landed), (Reg.EPC_STAGE, F.EPC_STAGE_nwr, nwr),
      (Reg.EPC_STAGE, F.EPC_STAGE_defers, defers)] State.reset
  { s with epc := { next := 8, phase := phase, verdict := verdict, gate := gate, gateWord := gword, held := [], late := [] } }

/-- A weight is staged. -/
def shadowed (s : State) : State := { s with shadow := [(Reg.SPN_GRPWT 3, 5)] }

theorem witness_settingsStaged :
    (getF 1 F.EPC_CTL_run = 1 ∧ epcRun State.reset = false ∧ epcRun (epcSt 0 none 0 0 0 0 0 0 4 0) = true) ∧
    (swMask (Reg.SPN_GRPWT 3) ≠ 0 ∧ swMask Reg.EPC_PERIOD ≠ 0 ∧ (Reg.EPC_PERIOD < 0x81000 ∨ 0x81400 ≤ Reg.EPC_PERIOD)) ∧
    (epcHolding (epcSt 1 none 0 0 0 0 0 0 4 0) = true ∧ epcHolding State.reset = false ∧ State.reset.pwr.plan = []) := by
  decide +kernel

theorem witness_boundariesSwap :
    (∀ e ∈ [(0, 0, 0), (1, 2, 2), (1, 1, 2), (1, 2, 1)], ∀ d ∈ [0, 3], let s := epcSt 0 none 0 0 e.1 0 e.2.1 e.2.2 4 d
      epcRun s = true ∧ s.epc.phase = 0 ∧ epcPending s = (e.1 == 1) ∧ epcLanded s = e.2.1 ∧
      fld s Reg.EPC_STAGE F.EPC_STAGE_nwr = e.2.2 ∧ stageState s ≠ 4 ∧ epcDomain s = false ∧
      fld s Reg.EPC_STAGE F.EPC_STAGE_defers = d ∧ fld s Reg.EPC_CTL F.EPC_CTL_max_defer = 4) ∧
    (∀ v ∈ [some 1, some 0, none], ∀ d ∈ [0, 1], (epcSt 1 v 2 8 1 d 2 2 4 0).epc.phase = 1 ∧
      epcDomain (epcSt 1 v 2 8 1 d 2 2 4 0) = (d == 1)) ∧
    (∀ g ∈ [0, 1, 2, 3], let s := epcSt 1 (some 0) g 7 1 1 2 2 4 2
      s.epc.verdict = some 0 ∧ epcDomain s = true ∧ epcPending s = true ∧ s.epc.gate = g ∧ s.epc.gateWord ≠ s.epc.next ∧
      fld s Reg.EPC_STAGE F.EPC_STAGE_defers + 1 < fld s Reg.EPC_CTL F.EPC_CTL_max_defer) ∧
    (∀ v ∈ [some 0, some 1, none], let s := shadowed (epcSt 2 v 0 0 1 0 1 1 4 0)
      s.epc.phase = 2 ∧ s.epc.held = [] ∧ capturing s = false ∧ s.dst.handover = 0 ∧ s.pwr.plan = [] ∧ stageState s ≠ 4 ∧
      s.epc.verdict = v ∧ (s.shadow.map (fun e => e.1)).Nodup ∧ ∀ e ∈ s.shadow, swMask e.1 ≠ 0) := by
  decide +kernel

/-- The stage of a live image in a state, with a verdict code and clusters. -/
def liveSt (st code : Nat) (clusters : List (Nat × Nat)) (hash : List Byte) (reset_ : Bool) : State :=
  let s := flds [(Reg.STR_STAGE, F.STR_STAGE_state, st)] State.reset
  { s with str := { s.str with code := code, clusters := clusters, hash := hash },
           clusters := [(23, { cluRun with inReset := reset_ })] }

theorem witness_liveImages :
    (∀ st ∈ [0, 1, 2, 3, 4, 5, 6], (liveSt st 0 [(23, 0)] [] true).epc.phase = 0 ∧
      fld (liveSt st 0 [(23, 0)] [] true) Reg.STR_STAGE F.STR_STAGE_state = st) ∧
    ((stageRead (liveSt 0 0 [] [] true)).1 = true ∧ (liveSt 1 0 [] [] true).str.code = 0 ∧ (liveSt 1 5 [] [] true).str.code = 5) ∧
    (let s := liveSt 2 0 [(23, 0)] [] false
     let u := setTh s (23 * 128 + 5) { runK with slot1 := .full desc0 }
     (∀ e ∈ s.str.clusters, e.1 < 24 ∧ liveIdle s e.1 = true) ∧ ∀ e ∈ [(23, 0)], u.str.clusters = [e] ∧ liveIdle u e.1 = false) ∧
    (preloadReady (liveSt 3 0 [(23, 0)] [] true) = true ∧ preloadReady (liveSt 3 0 [(23, 0)] [] false) = false) := by
  decide +kernel

theorem witness_livePreload :
    (sha384 [] ≠ (liveSt 3 0 [(23, 0)] [] true).str.hash) ∧
    rdBytes (liveSt 3 0 [] [] true).mem (fld (liveSt 3 0 [] [] true) Reg.STR_STAGE_ADDR F.STR_STAGE_ADDR_addr * 64)
      (fld (liveSt 3 0 [] [] true) Reg.STR_STAGE_LEN F.STR_STAGE_LEN_len) = [] ∧
    sha384 [] = (liveSt 3 0 [(23, 0)] (sha384 []) true).str.hash := by
  decide +kernel

/-! ## Pairs -/

/-- A device of a pair in a role and synchronism: one region of 4,096 bytes at 0x100_0000_0000, partner 3 on link 5,
virtual channel 1 for requests; the record is as given. -/
def dstSt (en role sync misses : Nat) (d : DstS) : State :=
  let s := flds [(Reg.DST_CFG, F.DST_CFG_en, en), (Reg.DST_CFG, F.DST_CFG_partner, 3), (Reg.DST_CFG, F.DST_CFG_link, 5),
      (Reg.DST_STAT, F.DST_STAT_role, role), (Reg.DST_STAT, F.DST_STAT_sync, sync), (Reg.DST_STAT, F.DST_STAT_misses, misses),
      (Reg.DST_LOCKS, F.DST_LOCKS_count, 0), (Reg.DST_RBASE 0, F.DST_RBASE_base, 0x10000000), (Reg.DST_RLEN 0, F.DST_RLEN_len, 1),
      (Reg.DST_PSHADOW, F.DST_PSHADOW_base, 0x100010), (Reg.OBX_VCCFG 1, F.OBX_VCCFG_class, 1)] (obxSt 3 1 ObxLink.reset)
  { s with dst := d }

def capt (epoch off : Nat) : Capture := { epoch := epoch, addr := 0x10000000000 + off, line := List.replicate 64 9 }
def markOf (epoch : Nat) (handover : Bool) : Mark := { epoch := epoch, locks := [], nexts := [], settings := [], handover := handover }
/-- A marker of an epoch that says how many lines it closes. -/
def markerRec (epoch lines : Nat) : List Byte := leBytes 6 epoch ++ leBytes 4 lines ++ leBytes 1 (epoch % 2) ++ List.replicate 53 0

theorem noneOpen_dstSt {en role sync misses : Nat} {d : DstS} (h : ∀ l < 8, linkState (dstSt en role sync misses d) l ≠ 4) :
    noneOpen (dstSt en role sync misses d) := noneOpen_of h

theorem witness_pairState :
    Canonical (dstSt 1 1 2 0 DstS.reset) ∧ fabricIdle (dstSt 1 1 2 0 DstS.reset) ∧ noneOpen (dstSt 1 1 2 0 DstS.reset) ∧
    vcOfClass (dstSt 1 1 2 0 DstS.reset) 1 = some 1 := by
  have h : let s := dstSt 1 1 2 0 DstS.reset
      (∀ l < 8, linkState s l ≠ 4) ∧ vcOfClass s 1 = some 1 ∧
      s.obx.tx = [] ∧ ∀ l < 8, (olink s l).txq = [] ∧ (olink s l).notices = [] := by
    decide +kernel
  exact ⟨canonical_of (by decide +kernel), h.2.2, noneOpen_of h.1, h.2.1⟩

theorem witness_pairsKept :
    (getF (BitVec.ofNat 48 (2 ^ 47)) F.DST_CFG_en = 1 ∧ dstEn (dstSt 1 1 2 0 DstS.reset) = true ∧
      dstEn (dstSt 0 0 0 0 DstS.reset) = false ∧ capturing (dstSt 1 1 2 0 DstS.reset) = true ∧
      capturing (dstSt 1 2 2 0 DstS.reset) = false) ∧
    (∀ e ∈ [(4, true), (5, false)], let c := capt e.1 4032
      let s := dstSt 1 1 2 0 { DstS.reset with log := [c], marks := [markOf 4 false] }
      s.dst.log = [c] ∧ captureOpen s c = e.2 ∧ lineOff s c.addr = some (0x100000 + 4032)) ∧
    (let s := dstSt 1 1 1 0 { DstS.reset with walk := some 63 }
     s.dst.log = [] ∧ s.dst.walk = some 63 ∧ lineAddr s (shLines + 64 * 63) = some (0x10000000000 + 4032) ∧
      mirrorLen s ≤ 64 * (63 + 1)) ∧
    (∀ h ∈ [true, false], (markDue (dstSt 1 1 2 0 { DstS.reset with marks := [markOf 4 h] })).map (·.handover) = some h) ∧
    (markDue (dstSt 1 1 2 0 DstS.reset) = none) := by
  decide +kernel

theorem witness_pairsStandby :
    (∀ role ∈ [1, 2, 3], ∀ n ∈ [0, 1], let lines := [(0x100000, List.replicate 64 (7 : Byte))]
      let s := dstSt 1 role 2 0 { DstS.reset with markers := [(markerRec 6 n, lines)] }
      dstRole s = role ∧ dstSync s ≠ 3 ∧ s.dst.markers = [(markerRec 6 n, lines)] ∧
      (leAt (markerRec 6 n) 6 4 = lines.length ↔ n = 1) ∧ (leAt (markerRec 6 n) 11 1).testBit 0 = false) ∧
    (∀ m ∈ [0, 1, 2, 3], ∀ role ∈ [1, 2], ∀ sync ∈ [1, 2], let s := dstSt 1 role sync m DstS.reset
      fld s Reg.DST_STAT F.DST_STAT_misses = m ∧ s.dst.hbSeen = false ∧ dstRole s = role ∧ dstSync s = sync ∧
      s.dst.handover = 0 ∧ mirroredLocks s = []) := by
  decide +kernel

/-! ## Clocks, resets, power -/

/-- DEV is released; some PLLs are locked; the monitor is trimmed or not. -/
def clkSt (trimmed fail : Nat) (miss : Bool) (locked runs : List Nat) : State :=
  let s := flds [(Reg.CRS_BOOT, F.CRS_BOOT_dev_rel, 1), (Reg.CRS_REFMON, F.CRS_REFMON_trimmed, trimmed),
      (Reg.CRS_REFMON, F.CRS_REFMON_fail, fail)] State.reset
  { s with clk := { locked := locked, runs := runs, miss := miss, dead := false, irq := false } }

theorem witness_clocksWatched :
    (∀ t ∈ [0, 1], flag (clkSt t 0 false [] []) Reg.CRS_REFMON F.CRS_REFMON_trimmed = (t == 1)) ∧
    (∀ m : Bool, ∀ f ∈ [0, 1], (clkSt 1 f m [] []).clk.miss = m ∧
      flag (clkSt 1 f m [] []) Reg.CRS_REFMON F.CRS_REFMON_fail = (f == 1)) ∧
    (∀ p ∈ [0, 1, 8, 9, 31, 42, 43, 44], (clkSt 1 0 false [p] []).clk.locked.contains p = true ∧
      (clkSt 1 0 false [] []).clk.locked.contains p = false) ∧
    (pllOn (clkSt 1 0 false [5] []) 1 = true ∧ pllOn (clkSt 1 0 false [] []) 31 = false ∧
      (clkSt 1 0 false [5] [] ).clk.dead = false ∧ (clkSt 1 0 false [5, 1] []).clk.locked.contains (1 + 0) = true ∧
      (clkSt 1 0 false [5, 1] []).clk.locked.contains (5 + 0) = true) ∧
    (domReq State.reset 226 = false ∧ domIdle State.reset 226 = true ∧ domReq State.reset 0 = true) ∧
    (State.reset.bridge.inbound.find? (fun e => e.2.thread / 128 == 24) = none) := by
  decide +kernel

/-- An ending of thread 3,071 is on its way to Bridge. -/
def inboundSt : State :=
  { State.reset with bridge := { Bridge.reset with inbound := [(seqKey 7 9, { endingOf false 0 with thread := 3071 })] } }

/-- Cluster 23 in reset or not, in RUN or gated, held or not. -/
def cluSt (inReset : Bool) (p : CPower) (hold : Nat) : State :=
  flds [(Reg.CRS_CLUHOLD, F.CRS_CLUHOLD_hold, hold)]
    { State.reset with clusters := [(23, { Cluster.reset with inReset := inReset, power := p })] }

theorem witness_resetsHold :
    ((inboundSt.bridge.inbound.find? (fun e => e.2.thread / 128 == 23)).isSome = true) ∧
    (clu (cluSt true .run 0) 23).inReset = true ∧ cluHeld (cluSt true .run 0) 23 = false ∧ (clu (cluSt true .run 0) 23).power = .run ∧
    cluHeld (cluSt true .run (2 ^ 23)) 23 = true ∧ (clu (cluSt true .gated 0) 23).power ≠ .run ∧
    (clu (cluSt false .run 0) 23).inReset = false ∧
    (∀ h ∈ [[], [3]], ({ State.reset with host := { HostS.reset with perst := h } } : State).host.perst.contains 3 = (h == [3])) ∧
    (linkLive (obxSt 4 1 ObxLink.reset) 5 = true ∧ linkLive (obxSt 0 1 ObxLink.reset) 5 = false) ∧
    (flag (flds [(Reg.SVC_PORT, F.SVC_PORT_up, 1)] State.reset) Reg.SVC_PORT F.SVC_PORT_up = true ∧
      flag State.reset Reg.SVC_PORT F.SVC_PORT_up = false) ∧
    (∀ d ∈ [0, 1], let s := flds [(Reg.CRS_BOOT, F.CRS_BOOT_dev_rel, d)] State.reset
      isSealed s = false ∧ flag s Reg.CRS_BOOT F.CRS_BOOT_dev_rel = (d == 1)) ∧
    (isSealed (flds [(Reg.PRT_SEAL, F.PRT_SEAL_seal, 1)] State.reset) = true) := by
  decide +kernel

/-- The part runs: PORST_N high, VIN seen, with the state of the supply as given. -/
def pwrSt (porst porstN out : Bool) (up warn hok hold mode : Nat) : State :=
  let s := flds [(Reg.PWR_VIN, F.PWR_VIN_warn, warn), (Reg.PWR_VIN, F.PWR_VIN_hok, hok), (Reg.PWR_VIN, F.PWR_VIN_holdup, hold)] State.reset
  { s with
    pwr := { s.pwr with out := out, vinUp := up, good := 9999, armed := true, tripped := false },
    svc := { s.svc with vaon := true, porst := porst, porstN := porstN,
                        mode := (match mode with | 0 => .off | 1 => .rt | _ => .romHold 0), commitDue := mode == 1 } }

theorem witness_supplyAndHeat :
    (∀ n : Bool, (pwrSt true n false 1 0 1 0 0).svc.porst = true ∧ (pwrSt true n false 1 0 1 0 0).svc.porstN = n ∧
      (pwrSt true n false 1 0 1 0 0).svc.vaon = true ∧ (pwrSt true n false 1 0 1 0 0).pwr.tripped = false ∧
      1 ≤ (pwrSt true n false 1 0 1 0 0).pwr.vinUp) ∧
    (∀ o : Bool, (pwrSt false true o 0 0 1 0 1).svc.porst = false ∧ (pwrSt false true o 0 0 1 0 1).pwr.out = o ∧
      9999 ≤ (pwrSt false true o 0 0 1 0 1).pwr.good ∧ (pwrSt false true o 0 0 1 0 1).pwr.armed = true) ∧
    (∀ e ∈ [(0, 1, 0, 0), (0, 1, 1, 0), (0, 1, 1, 1), (1, 1, 1, 0), (0, 0, 1, 0)], let s := pwrSt false true false 0 e.1 e.2.1 e.2.2.1 e.2.2.2
      flag s Reg.PWR_VIN F.PWR_VIN_warn = (e.1 == 1) ∧ flag s Reg.PWR_VIN F.PWR_VIN_hok = (e.2.1 == 1) ∧ holdup s = (e.2.2.1 == 1) ∧
      s.svc.commitDue = (e.2.2.2 == 1) ∧ (e.2.2.2 = 1 → s.svc.mode = .rt)) ∧
    (sbyte 127 ≥ (fld State.reset Reg.PWR_THERM F.PWR_THERM_warn : Int) ∧ sbyte 128 ≤ (fld State.reset Reg.PWR_THERM F.PWR_THERM_warn : Int) - 2) ∧
    (let s := flds [(Reg.PWR_THERM, F.PWR_THERM_hot, 127)] (pwrSt false true false 0 0 1 0 1)
     ¬(sbyte (fld s Reg.PWR_THERM F.PWR_THERM_hot) < (fld s Reg.PWR_THERM F.PWR_THERM_trip : Int))) ∧
    (sbyte (fld State.reset Reg.PWR_THERM F.PWR_THERM_hot) < (fld State.reset Reg.PWR_THERM F.PWR_THERM_trip : Int)) := by
  decide +kernel

theorem witness_nothingWaits : nothingWaits (pwrSt false true false 0 0 1 1 0) :=
  ⟨fun f => by simp [pwrSt], by decide +kernel⟩

/-- The device in a power state, with what a request left. -/
def stbySt (cur before target : Nat) (again : Bool) (clusters : Tab Cluster) : State :=
  let s := flds [(Reg.PWR_STATE, F.PWR_STATE_cur, cur)] State.reset
  { s with pwr := { s.pwr with before := before, target := target, again := again }, clusters := clusters }
def allParked : Tab Cluster := (List.range 24).map (fun c => (c, { Cluster.reset with power := .parked }))

theorem witness_powerStates :
    Canonical (stbySt 4 1 0 false allParked) ∧
    (∀ c ∈ [0, 1, 2, 3, 4, 5], fld (stbySt c 0 0 false []) Reg.PWR_STATE F.PWR_STATE_cur = c) ∧
    (∀ q ∈ [0, 1, 2, 3], getF (BitVec.ofNat 48 (q + 4)) F.PWR_STATE_req = q ∧ getF (BitVec.ofNat 48 (q + 4)) F.PWR_STATE_sby_abort = 1) ∧
    (standbyReady (stbySt 4 1 0 false allParked) = true ∧
      mcUsed (flds [(Reg.MC_ID 3, F.MC_ID_units, 32)] (stbySt 4 1 0 false allParked)) 3 = true) ∧
    (standbyReady { stbySt 4 1 0 false allParked with spawn := { Spawn.reset with queues := [(5, [desc0])] } } =
      queueStuck (stbySt 4 1 0 false allParked) 5) ∧
    ((stbySt 4 1 0 false []).pwr.before ≤ 2 ∧ (stbySt 5 0 2 false []).pwr.target ≤ 2 ∧ (stbySt 5 0 2 false []).pwr.again = false) :=
  ⟨canonical_of (by decide +kernel), by decide +kernel⟩

theorem witness_chameleonSamples :
    (List.replicate 96 (5, 2 ^ 24)).length = 96 ∧ (List.replicate 48 32768).length = 48 ∧
    (∀ e ∈ [0, 1], let s := flds [(Reg.PWR_CHM_CFG, F.PWR_CHM_CFG_en, e)] (cluSt false .run 0)
      flag s Reg.PWR_CHM_CFG F.PWR_CHM_CFG_en = (e == 1) ∧ (clu s 23).power = .run ∧ (clu s 22).power ≠ .run ∧
      fld s Reg.PWR_CHM_STAT F.PWR_CHM_STAT_errors < 255) ∧
    sextN 16 32768 ≤ 0 ∧ (∀ h ∈ [0, 1], holdup (pwrSt false true false 0 0 1 h 0) = (h == 1)) := by
  decide +kernel

/-! ## Boot, the telemetry ring and the settings store -/

/-- The part in reset or running, in a mode, with holdup and the running slot as given. -/
def bootSt (porst : Bool) (up : Nat) (mode : SvcMode) (hold slot committed : Nat) : State :=
  let s := flds [(Reg.PWR_VIN, F.PWR_VIN_holdup, hold), (Reg.SVC_BOOT, F.SVC_BOOT_slot, slot),
      (Reg.SVC_BOOT, F.SVC_BOOT_committed, committed)] State.reset
  { s with pwr := { s.pwr with vinUp := up, tripped := false },
           svc := { s.svc with vaon := true, porst := porst, mode := mode } }

/-- Flash bytes from an address on. -/
def flashAt (a : Nat) (l : List Byte) : Tab Byte := l.zipIdx.map (fun e => (a + e.2, e.1))

/-- Block 0 of Nelistore has a header of schema 5; the rest of both flashes is erased. -/
def nlsSt (mode : SvcMode) (hold quar bad today : Nat) : State :=
  let s := flds [(Reg.SVC_BOOT, F.SVC_BOOT_quar, quar), (Reg.BKG_NLSSTAT, F.BKG_NLSSTAT_bad, bad),
    (Reg.BKG_NLSSTAT, F.BKG_NLSSTAT_today, today)] (bootSt false 2 mode hold 0 0)
  { s with svc := { s.svc with flash0 := flashAt (nlsBlock 0) (nlsHeader 1 5 0) } }

/-- A slot whose header fails its checks is no candidate. -/
theorem not_candidate {s : State} {f : Nat} (h : soundStatus s f ≠ 0) : candidate s f = false := by
  simp [candidate, bootable, h]

theorem witness_boot :
    (∀ up ∈ [1, 2], (bootSt true up .off 0 0 0).svc.porst = true ∧ (bootSt true up .off 0 0 0).svc.vaon = true ∧
      (bootSt true up .off 0 0 0).pwr.vinUp = up ∧ (bootSt true up .off 0 0 0).pwr.tripped = false) ∧
    ({ SvcS.reset with vaon := false } : SvcS).vaon = false ∧
    (∀ h ∈ [0, 1], holdup (bootSt false 2 (.romHold 1) h 0 0) = (h == 1) ∧ (bootSt false 2 (.romHold 1) h 0 0).svc.mode = .romHold 1) ∧
    validStatus (bootSt false 2 (.romHold 1) 1 0 0) 1 ≠ 0 := by
  decide +kernel

theorem preferred_none {s : State} (h0 : soundStatus s 0 ≠ 0) (h1 : soundStatus s 1 ≠ 0) : preferred s (candidate s) = none := by
  simp only [preferred, not_candidate h0, not_candidate h1]

/-- The same part with no slot dropped. -/
def bootNoneSt : State := { bootSt true 2 .off 0 0 0 with svc := { (bootSt true 2 .off 0 0 0).svc with dropped := [] } }

theorem witness_bootNone :
    preferred bootNoneSt (candidate bootNoneSt) = none ∧ candidate (bootSt false 2 (.romHold 1) 1 0 0) 0 = false :=
  ⟨preferred_none (by decide +kernel) (by decide +kernel), not_candidate (by decide +kernel)⟩

theorem witness_bootCode :
    ([] : TrainOut).all (fun e => e.2.2 == 5 || e.2.2 == 6) = true ∧
    (∀ m ∈ [SvcMode.boot, .seal_, .rt], (bootSt false 2 m 0 1 1).svc.mode = m) ∧
    (∀ c ∈ [0, 1], let s0 := bootSt false 2 .boot 0 1 c
      let s := { s0 with svc := { s0.svc with flash0 := flashAt 0x28 [0, 0, 0, 0] } }
      fullBad s (slotStr s) = some (1, noSec) ∧ runTrial s = (c == 0)) ∧
    (∀ e ∈ [0, 1], isSealed (flds [(Reg.PRT_SEAL, F.PRT_SEAL_seal, e)] State.reset) = (e == 1)) := by
  decide +kernel

theorem witness_runtimeStart :
    (nlsHead (bootSt false 2 .rtLoad 0 0 0) = none ∧ flag (bootSt false 2 .rtLoad 0 0 0) Reg.SVC_BOOT F.SVC_BOOT_quar = false) ∧
    (let s := nlsSt .rtLoad 0 0 0 0
     (nlsHead s).isSome = true ∧ nlsSchema s < schemaMin s ∧ fld s Reg.SVC_BOOT F.SVC_BOOT_slot = 0 ∧ s.svc.mode = .rtLoad) := by
  decide +kernel

/-- The telemetry ring, off or on. -/
def ringSt (en stop wp : Nat) (w : Option (Nat × List Byte)) : State :=
  let s := flds [(Reg.BKG_TRING_CFG, F.BKG_TRING_CFG_en, en), (Reg.BKG_TRING_CFG, F.BKG_TRING_CFG_stop, stop),
    (Reg.BKG_TRING_WP, F.BKG_TRING_WP_index, wp), (Reg.BKG_TRING_BASE, F.BKG_TRING_BASE_addr, 0x100000000)] (bootSt false 2 .rt 0 0 0)
  { s with tel := { s.tel with writing := w } }

theorem witness_telemetryRing :
    Canonical (ringSt 1 0 16 none) ∧
    (getF (BitVec.ofNat 48 (2 ^ 47)) F.BKG_TRING_CFG_en = 1 ∧ flag (ringSt 1 0 16 none) Reg.BKG_TRING_CFG F.BKG_TRING_CFG_en = true ∧
      flag (ringSt 0 0 16 none) Reg.BKG_TRING_CFG F.BKG_TRING_CFG_en = false ∧
      flag (ringSt 1 0 16 none) Reg.BKG_TRING_CFG F.BKG_TRING_CFG_stop = false) ∧
    (epcRun (ringSt 1 0 16 none) = false ∧ (ringSt 1 0 16 none).svc.porst = false ∧ State.reset.svc.porst = true ∧
      epcRun (epcSt 0 none 0 0 0 0 0 0 4 0) = true) ∧
    (∀ n ∈ [0, 62], let s := flds [(Reg.SVC_BOOT, F.SVC_BOOT_epochs, n), (Reg.SVC_BOOT, F.SVC_BOOT_settings_ok, 1)] (ringSt 1 0 16 none)
      fld s Reg.SVC_BOOT F.SVC_BOOT_epochs = n ∧ flag s Reg.SVC_BOOT F.SVC_BOOT_settings_ok = true) ∧
    (fld State.reset Reg.BKG_TRING_LOST F.BKG_TRING_LOST_count = 0) ∧
    (let l := List.replicate 256 (7 : Byte)
     let s := ringSt 1 0 16 (some (15, l))
     s.tel.writing = some (15, l) ∧ l.length = 256 ∧ capturing s = false ∧
      populated s (fld s Reg.BKG_TRING_BASE F.BKG_TRING_BASE_addr * 256 + 256 * 15) = true ∧
      populated s (fld s Reg.BKG_TRING_BASE F.BKG_TRING_BASE_addr * 256 + 256 * 15 + 255) = true ∧
      ∀ i < 4, retiredAt s (fld s Reg.BKG_TRING_BASE F.BKG_TRING_BASE_addr * 256 + 256 * 15 + 64 * i) = false) :=
  ⟨canonical_of (by decide +kernel), by decide +kernel⟩

theorem witness_settingsStore :
    (∀ e ∈ [(1, 0), (0, 1), (0, 0)], holdup (nlsSt .rt e.1 e.2 0 0) = (e.1 == 1) ∧
      flag (nlsSt .rt e.1 e.2 0 0) Reg.SVC_BOOT F.SVC_BOOT_quar = (e.2 == 1)) ∧
    nlsHead (nlsSt .rt 0 0 0 0) = some 0 ∧ nlsHead (bootSt false 2 .rt 0 0 0) = none ∧
    4 ≤ (inRotation (nlsSt .rt 0 0 0 0)).length := by
  decide +kernel

set_option maxRecDepth 1000000 in
theorem witness_appendFits :
    let s := nlsSt .rt 0 0 0 0
    (nlsRead s 0).2.1 = 32 ∧ (nlsBytes (3, [1, 2])).length ≤ headFree s ∧
    flBytes s 0 (nlsBlock 0 + 32) (nlsBytes (3, [1, 2])).length = List.replicate (nlsBytes (3, [1, 2])).length 0xFF := by
  decide +kernel

/-- The head is bad, so that nothing fits in it, and a rotation is due. -/
theorem witness_rotation :
    let s := nlsSt .rt 0 0 1 0
    nlsHead s = some 0 ∧ headFree s = 0 ∧ rotVictim s = some 1 ∧ nlsValid s 1 = false ∧ nlsBad s 1 = false ∧
    erasesToday s < Max.max 1 (fld s Reg.BKG_NLSCFG F.BKG_NLSCFG_max_erase) ∧ 4 ≤ (inRotation s).length ∧ holdup s = false ∧
    (let u := nlsSt .rt 0 0 1 255
     Max.max 1 (fld u Reg.BKG_NLSCFG F.BKG_NLSCFG_max_erase) ≤ erasesToday u) := by
  decide +kernel

/-! ## Service commands and Service Image Transfer -/

/-- Run-time firmware runs the given slot; the security state, fuses and command status are as given. -/
def svcSt (slot committed hold busy quar window tamper loop : Nat) : State :=
  lit [(Reg.SVC_SEC, putF (putF (putF 0 F.SVC_SEC_window window) F.SVC_SEC_tamper tamper) F.SVC_SEC_loop_ok loop),
      (Reg.SVC_OTP, putF 0 F.SVC_OTP_keys 7)]
    (flds [(Reg.SVC_CMDSTAT, F.SVC_CMDSTAT_busy, busy), (Reg.SVC_BOOT, F.SVC_BOOT_quar, quar)] (bootSt false 2 .rt hold slot committed))

theorem witness_serviceCommands :
    ((bootSt true 2 .rt 0 0 0).svc.porst = true ∧ flag (svcSt 0 0 0 1 0 0 0 0) Reg.SVC_CMDSTAT F.SVC_CMDSTAT_busy = true ∧
      (svcSt 0 0 0 0 0 0 0 0).svc.porst = false ∧ flag (svcSt 0 0 0 0 0 0 0 0) Reg.SVC_CMDSTAT F.SVC_CMDSTAT_busy = false) ∧
    (∀ q ∈ [0, 1], ∀ e ∈ [(0, 0, false), (1, 0, true), (2, 1, false)], ∀ h ∈ [0, 1], let s := svcSt e.1 e.2.1 h 0 q 0 0 0
      flag s Reg.SVC_BOOT F.SVC_BOOT_quar = (q == 1) ∧ runTrial s = e.2.2 ∧ holdup s = (h == 1) ∧ s.svc.commitDue = false ∧
      fld s Reg.SVC_BOOT F.SVC_BOOT_slot = e.1) ∧
    (∀ w ∈ [0, 1], ∀ t ∈ [0, 1], ∀ l ∈ [0, 1], let s := svcSt 1 1 0 0 0 w t l
      windowOpen s = (w == 1) ∧ tampered s = (t == 1) ∧ flag s Reg.SVC_SEC F.SVC_SEC_loop_ok = (l == 1) ∧
      fld s Reg.SVC_OTP F.SVC_OTP_tclr < 15) ∧
    (fld (lit [(Reg.SVC_OTP, putF 0 F.SVC_OTP_tclr 15)] (svcSt 1 1 0 0 0 1 1 1)) Reg.SVC_OTP F.SVC_OTP_tclr = 15) ∧
    (let s := svcSt 1 1 0 0 0 1 0 0
     s.svc.key = 0 ∧ (List.range 4).filter (fun i => (fld s Reg.SVC_OTP F.SVC_OTP_keys).testBit i &&
       !(fld s Reg.SVC_OTP F.SVC_OTP_revoked).testBit i) = [0, 1, 2]) := by
  decide +kernel

theorem witness_presenceAndSeal :
    (∀ w ∈ [0, 1], windowOpen (svcSt 1 1 0 0 0 w 0 0) = (w == 1) ∧ (svcSt 1 1 0 0 0 w 0 0).svc.presLow = false) ∧
    (({ SvcS.reset with presLow := true } : SvcS).presLow = true ∧ (bootSt false 2 .romPres 0 0 0).svc.mode = .romPres) ∧
    (soundStatus { bootSt false 2 .romPres 0 0 0 with svc := { (bootSt false 2 .romPres 0 0 0).svc with dropped := [] } } 0 ≠ 0) ∧
    (lfsrNext 1).testBit 0 = false ∧ ({ SvcS.reset with same := 999 } : SvcS).same = 999 ∧
    ({ SvcS.reset with mism := 1 } : SvcS).mism = 1 ∧
    (∀ h ∈ [0, 1], ∀ t ∈ [0, 1], holdup (svcSt 1 1 h 0 0 0 t 0) = (h == 1) ∧ tampered (svcSt 1 1 h 0 0 0 t 0) = (t == 1)) := by
  decide +kernel

/-- An image header of 1,024 bytes in all, at a level and floor. -/
def hdrOf (level floor : Nat) : List Byte :=
  let p := fun (o n : Nat) => leBytes 4 o ++ leBytes 4 n
  let h := leBytes 4 0x46575843 ++ leBytes 2 1 ++ leBytes 1 level ++ leBytes 1 floor ++ leBytes 4 3 ++ leBytes 4 1024 ++
    leBytes 2 1 ++ leBytes 2 9 ++ p 256 64 ++ p 320 64 ++ p 384 64
  let b := h ++ List.replicate (252 - h.length) 0
  b ++ leBytes 4 (crcPlain b)

/-- Transfer is accepted on the service port; a session, counters and flags as given. -/
def sitSt (mode : SvcMode) (sess : Option Sess) (next state tamper hold traffic owner : Nat) : State :=
  let s := flds [(Reg.SVC_PORT, F.SVC_PORT_up, 1), (Reg.SVC_UPDOFF, F.SVC_UPDOFF_next, next), (Reg.SVC_UPD, F.SVC_UPD_state, state)]
    (bootSt false 2 mode hold 1 1)
  let s := lit [(Reg.SVC_SEC, putF (putF 0 F.SVC_SEC_tamper tamper) F.SVC_SEC_owner owner), (Reg.SVC_OTP, 0), (Reg.SVC_MAC, 0x9A41),
    (Reg.IDN_COMPAT, 0x301), (Reg.IDN_PART, 0xAB0A96480100)] s
  { s with svc := { s.svc with sess := sess, lastSess := 5, expired := [4], lastTraffic := traffic == 1, activated := sess.isSome } }

/-- A session that carries `hdrOf 1 0` to flash 1. -/
def sessOf : Sess := { target := 1, header := hdrOf 1 0, digest := List.replicate 48 0, till := 0 }

theorem witness_imageTransfer :
    (∀ p ∈ [0, 1], sitOpen p (sitSt .axolotl none 0 0 0 0 0 0) = true ∧ sitOpen p (sitSt .rt none 0 0 0 0 0 0) = (p == 0) ∧
      sitOpen p (sitSt .boot none 0 0 0 0 0 0) = false) ∧
    ((hdrOf 1 0).length = 256 ∧ (List.replicate 48 (0 : Byte)).length = 48 ∧ beginStatus (hdrOf 1 0) (sitSt .rt none 0 0 0 0 0 0) = 0 ∧
      beginStatus (hdrOf 255 0) (sitSt .rt none 0 0 0 0 0 0) = 4 ∧ beginStatus [] (sitSt .rt (some sessOf) 0 1 0 0 0 0) = 1) ∧
    (let s := sitSt .rt (some sessOf) 0 1 0 0 0 0
     s.svc.sess = some sessOf ∧ s.svc.lastSess = 5 ∧ sessOf.target < 2 ∧ fld s Reg.SVC_UPDOFF F.SVC_UPDOFF_next = 0 ∧
      (List.replicate 1024 (1 : Byte)).length = Min.min 1024 (hdrLen sessOf.header - 0) ∧ (holdupRule s).1 = false ∧
      s.svc.expired.contains 4 = true ∧ s.svc.expired.contains 6 = false ∧ s.svc.activated = true) ∧
    ((holdupRule (sitSt .rt (some sessOf) 0 1 0 1 0 0)).1 = true) ∧
    (∀ e ∈ [(0, 0, 0, 0), (1, 0, 0, 0x0C), (0, 1, 0, 0x09), (0, 0, 1, 0x0B)], let s := sitSt .rt none 0 3 e.1 0 e.2.1 e.2.2.1
      firstFail [tamperCheck s, trafficCheck s, ownerCheck s] = e.2.2.2 ∧ fld s Reg.SVC_UPD F.SVC_UPD_state = 3) ∧
    (fld (sitSt .rt none 0 0 0 0 0 0) Reg.SVC_UPD F.SVC_UPD_state ≠ 3 ∧ (sitSt .rt none 0 0 0 0 0 0).svc.activated = false) := by
  decide +kernel

/-- An END whose bytes do not hash to the digest. -/
theorem witness_sitEnd : (endStatus { sessOf with header := [] } (sitSt .rt none 0 1 0 0 0 0)).1 ≠ 0 := by
  decide +kernel

theorem witness_servicePortAnswers :
    (∀ b ∈ [0, 1], let s := flds [(Reg.SVC_CMDSTAT, F.SVC_CMDSTAT_busy, b)] (sitSt .rt none 0 0 0 0 0 0)
      axolotl s = false ∧ sitOpen 0 s = true ∧ flag s Reg.SVC_CMDSTAT F.SVC_CMDSTAT_busy = (b == 1) ∧ s.svc.porst = false) ∧
    (axolotl (sitSt .axolotl none 0 0 0 0 0 0) = true ∧ sitOpen 1 (sitSt .axolotl none 0 0 0 0 0 0) = true) ∧
    (let s := sitSt .rt none 0 0 0 0 0 0
     isLinkLocal (svcAddr s) = true ∧ sitOpen 0 s = true ∧ isLinkLocal [] = false) ∧
    (∀ h ∈ [0, 1], let s := flds [(Reg.SVC_PORT, F.SVC_PORT_half_reset, h)] (bootSt false 2 .rt 0 0 0)
      s.svc.porst = false ∧ flag s Reg.SVC_PORT F.SVC_PORT_up = false ∧ flag s Reg.SVC_PORT F.SVC_PORT_half_reset = (h == 1)) := by
  decide +kernel

/-! ## Register accesses and the whole machine -/

/-- DEV released or not, PORST_N or not, the default permissions as given, BOOT_SEAL as given. -/
def regSt (dev : Nat) (porst : Bool) (perm seal_ : Nat) : State :=
  let s := flds [(Reg.CRS_BOOT, F.CRS_BOOT_dev_rel, dev), (Reg.PRT_DEFAULT, F.PRT_DEFAULT_perm, perm),
    (Reg.PRT_SEAL, F.PRT_SEAL_seal, seal_)] State.reset
  { s with svc := { s.svc with porst := porst } }

/-- The row found at an offset. -/
def rowAt (a : Nat) : Option (RegId × List Nat) := (findReg regTable a).map (fun e => (e.1.id, e.2))

theorem witness_registerReads :
    (regSt 1 true 0x4F0 0).svc.porst = true ∧ (regSt 1 false 0x4F0 0).svc.porst = false ∧
    allowed (regSt 1 false 0 0) 5 0xF000000000 true false = false ∧
    allowed (regSt 1 false 0x4F0 0) 5 0xF000000000 false true = false ∧
    allowed (regSt 1 false 0xCF0 0) 5 0xF000000000 true false = true ∧
    allowed (regSt 1 false 0xCF0 0) 5 0xF000000000 false true = true ∧
    csrUp Reg.BRG_HOLD (regSt 0 false 0xCF0 0) = false ∧ csrUp Reg.BRG_HOLD (regSt 1 false 0xCF0 0) = true ∧
    findReg regTable 0xFFFFFFF8 = none ∧ csrUp 0xFFFFFFF8 (regSt 1 false 0xCF0 0) = true ∧
    rowAt Reg.BRG_HOLD = some (.BRG_HOLD, []) ∧ RegId.BRG_HOLD ∉ liveRegs ∧ RegId.BRG_HOLD ∈ plainRegs ∧
    absent .BRG_HOLD 0 (regSt 1 false 0xCF0 0) = false ∧
    rowAt (Reg.MAC_PCFG 63) = some (.MAC_PCFG, [63]) ∧ absent .MAC_PCFG 63 (regSt 1 false 0xCF0 0) = true := by
  decide +kernel

/-- The Service Newt may read what the readings of FIFOs need. -/
theorem witness_fifoReads :
    ∀ off ∈ [Reg.GKO_NOTIFY 6, Reg.HST_MBOXQ, Reg.HST_PFAULT, Reg.MAC_TXTS 3],
      allowed (regSt 1 false 0x4F0 0) 3 (0xF000000000 + off) true false = true ∧ csrUp off (regSt 1 false 0x4F0 0) = true := by
  decide +kernel

theorem witness_registerWrites :
    (∀ e ∈ [0, 1], let s := regSt 1 false 0x4F0 e
      isSealed s = (e == 1) ∧ mustWait s (Reg.EPC_PERIOD) true = false ∧ classOf s (agentId s svcAgent) = 3 ∧ allowed s 3 0xF000000000 false true = true) ∧
    allowed (regSt 1 false 0 0) 3 0xF000000000 false true = false ∧
    (∀ e ∈ [(Reg.PRT_DEFAULT, true), (Reg.EPC_PERIOD, false), (Reg.OBX_ROUTE 0, false)],
      (findReg regTable e.1).map (fun p => (p.1.bw != 0, p.1.sw != 0)) = some (e.2, !e.2)) ∧
    (∀ a ∈ [Reg.STR_STAGE_CMD, Reg.EPC_COMMIT, Reg.DST_CMD, Reg.CRS_CLURST, Reg.CRS_CLUHOLD, Reg.SVC_CMD, Reg.PWR_VIN, Reg.PRT_SEAL],
      allowed (regSt 1 false 0x4F0 0) 3 (0xF000000000 + a) false true = true ∧ csrUp a (regSt 1 false 0x4F0 0) = true) := by
  decide +kernel

/-- Buses that the part hears and does not (R535). -/
theorem witness_bmcHeard :
    let s := regSt 1 false 0xCF0 0
    let d := { s with svc := { s.svc with dynAddr := some 9 } }
    bmcHeard s (.smbus 0x4C true) = true ∧ bmcHeard s (.smbus 0x4C false) = false ∧ bmcHeard s (.smbus 0x4D true) = false ∧
    bmcHeard s (.i3c 0x4C) = true ∧ bmcHeard d (.i3c 0x4C) = false ∧ bmcHeard d (.i3c 9) = true ∧ s.svc.dynAddr = none ∧
    bmcAddr = 0x4C ∧ bmcAgent ∉ s.epc.late ∧ bmcAgent ∈ ({ s with epc := { s.epc with late := [0x3000] } } : State).epc.late := by
  decide +kernel

/-- Host link 0 up, or not, with CXL and logical device 15; a decoder's control word. -/
def fnSt (up : Nat) (ctl : Nat) : State :=
  let s := flds [(Reg.HST_LINK 0, F.HST_LINK_up, up), (Reg.HST_LINK 0, F.HST_LINK_cxl, 1), (Reg.HST_LDCFG 15, F.HST_LDCFG_valid, 1)]
    (hostUp State.reset)
  { s with host := { s.host with hdm := [(15 * 64 + 32, ctl)] } }

theorem witness_functionPages :
    (∀ e ∈ [0, 1], fnEnabled (fnSt e 0) 0x1000 = (e == 1)) ∧ (hdmDw (fnSt 0 0x500) 15 32).testBit 8 = true ∧
    (hdmDw (fnSt 0 0x500) 15 32).testBit 10 = true ∧ (hdmDw (fnSt 0 0x100) 15 32).testBit 10 = false ∧
    ldOwner (fnSt 1 0) 0x1000 15 = true ∧ 2047 < vecCount (setVecCount 0x1000 2048 (fnSt 1 0)) 0x1000 ∧ vecCount (fnSt 1 0) 0x1000 = 0 ∧ widthOk 0xFFFC 4 = true ∧
    (let s := flds [(Reg.HST_LINK 0, F.HST_LINK_vfs, 2)] (fnSt 1 0)
     fnEnabled s 0x1001 = true ∧ 0x1001 ≠ pfOf s (hostLinkOfFn s 0x1001)) := by
  decide +kernel

theorem witness_stepRunsFront :
    ({ State.reset with pending := [.spnCtlClr] } : State).pending = .spnCtlClr :: [] ∧ State.reset.pending = [] := by
  decide +kernel

/-- A canonical state that answers a next state: a queued command, and none. -/
theorem witness_stepKeepsCanonical :
    Canonical { State.reset with pending := [.spnCtlClr] } ∧
    (∃ u, step { State.reset with pending := [.spnCtlClr] } = .next u) ∧ (∃ u, step State.reset = .next u) := by
  refine ⟨?_, ⟨_, rfl⟩, ⟨_, rfl⟩⟩
  exact ⟨⟨by decide +kernel, by decide +kernel⟩, by decide +kernel, by decide +kernel, by decide +kernel, by decide +kernel, by decide +kernel⟩

theorem witness_wellFormedRuns :
    wellFormed (.add 3071 (ins 0x01 31 31 31 0)) = true ∧ wellFormed (.add 3072 (ins 0x01 0 0 0 0)) = false := by
  decide +kernel

/-! ## The remaining premises -/

/-- Levels that have crossed, a bit that crosses, a source that is not due or whose turn it is not, and a table's size. -/
theorem witness_eventsPass_levels :
    (∀ v ∈ [true, false], let s := { evSt 1 3 1 0 0 0 0 with ev := { Ev.reset with levels := [(5, [v])] } }
      Tab.get 0 s.ev.arrived 5 = 0 ∧ Tab.get [] s.ev.levels 5 = [v]) ∧
    (∀ k ∈ [0, 1], let s := { evSt 1 3 1 0 0 0 0 with ev := { Ev.reset with bits := [(5, k + 1)] } }
      Tab.get 0 s.ev.bits 5 = k + 1 ∧ s.clk.dead = false) ∧
    (Tab.get 0 State.reset.ev.bits 5 = 0 ∧ Tab.get [] State.reset.ev.levels 5 = []) ∧
    evDue (evSt 0 3 1 0 0 0 0) 5 = false ∧
    (let s := flds [(Reg.EVT_CFG 9, F.EVT_CFG_en, 1), (Reg.EVT_CFG 9, F.EVT_CFG_state, 1), (Reg.EVT_CFG 9, F.EVT_CFG_route, 3),
        (Reg.EVT_CFG 9, F.EVT_CFG_prio, 7)] (evSt 1 3 1 0 0 0 0)
     evTurn s 5 = false) ∧
    (2047 < vecCount (setVecCount 0x1000 2048 (hostUp (evSt 1 2 1 0 0 0x1000 2047))) 0x1000 ∧
      vecCount (hostUp (evSt 1 2 1 0 0 0x1000 2047)) 0x1000 ≤ 2047) := by
  decide +kernel

/-- Source 5 is due, with the highest priority. -/
def evTop (route : Nat) : State := flds [(Reg.EVT_CFG 5, F.EVT_CFG_prio, 7)] (evSt 1 route 1 0 0 0x1000 0)

/-- No source has a priority above 7, so only the sources below 5 are looked at one by one. -/
theorem witness_eventsPass_turn :
    ∀ r ∈ [0, 1, 2, 3, 4, 5], evDue (evTop r) 5 = true ∧ fld (evTop r) (Reg.EVT_CFG 5) F.EVT_CFG_route = r ∧ evTurn (evTop r) 5 = true := by
  have low : ∀ r ∈ [0, 1, 2, 3, 4, 5], evDue (evTop r) 5 = true ∧ fld (evTop r) (Reg.EVT_CFG 5) F.EVT_CFG_route = r ∧
      (fld (evTop r) (Reg.EVT_CFG 5) F.EVT_CFG_prio = 7 ∧ ((evTop r).ev.sent.1 ≠ (evTop r).now ∨ (evTop r).ev.sent.2 < 4)) ∧
      ∀ m < 5, evReady (evTop r) m = false := by decide +kernel
  intro r hr
  obtain ⟨due, route, ⟨p, sent⟩, below⟩ := low r hr
  refine ⟨due, route, ?_⟩
  unfold evTurn
  simp only [Bool.and_eq_true, Bool.or_eq_true, bne_iff_ne, ne_eq, decide_eq_true_eq, List.all_eq_true]
  refine ⟨sent, fun m _ => ?_⟩
  by_cases lt : m < 5
  · simp [below m lt]
  · have le : fld (evTop r) (Reg.EVT_CFG m) F.EVT_CFG_prio < 8 := getF_lt _ F.EVT_CFG_prio
    simp [p]; omega

theorem witness_obrexSealed :
    (∀ e ∈ [0, 1], let s := flds [(Reg.PRT_SEAL, F.PRT_SEAL_seal, e)] (obxSt 1 0 ObxLink.reset)
      isSealed s = (e == 1) ∧ linkState s 5 = 1) ∧
    (∀ u ∈ [2, 4], let s := flds [(Reg.MC_UNIT 0 0, F.MC_UNIT_state, u)] (obxRxSt 0x3FFF [] (rxOf 2 6 0x40 false []))
      rxWaits s (rxOf 2 6 0x40 false []) = (u == 4)) := by
  decide +kernel

theorem witness_boundariesIdle :
    ∀ p ∈ [0, 1, 2], tableIdle (epcSt p (some 0) 0 0 1 0 2 2 4 0) ∧ epcRun (epcSt p (some 0) 0 0 1 0 2 2 4 0) = true := by
  have h : ∀ p ∈ [0, 1, 2], let s := epcSt p (some 0) 0 0 1 0 2 2 4 0
      (s.tbl.bulk = none ∧ s.tbl.queue = []) ∧ epcRun s = true := by decide +kernel
  exact h

theorem witness_pairsReach :
    (let s := dstSt 1 1 2 0 DstS.reset
     s.gecko.left.contains (dstPartner s) = false ∧ muteDrops s 1 (dstPartner s) = false ∧ dstPartner s = 3) ∧
    (let lines := [(0x100000, List.replicate 64 (7 : Byte))]
     let s := dstSt 1 2 2 0 { DstS.reset with markers := [(markerRec 6 1, lines)] }
     ∀ e ∈ lines, (lineAddr s e.1).all (fun a => !retiredIn s a e.2.length) = true) := by
  decide +kernel

theorem witness_agentsAtBoot :
    (∀ a ∈ [0, 0xBFF, 0x1000, 0x13FF, 0x2000, 0x20FF, bmcAgent], knownAgent a = true ∧ a ≠ svcAgent) ∧
    knownAgent svcAgent = true := by
  decide +kernel

theorem witness_standbyGivenUp :
    let s := { stbySt 4 1 0 false [(0, cluRun)] with threads := [(5, { runK with slot1 := .full desc0 })] }
    standbyReady s = false ∧ s.pwr.before ≤ 2 ∧ fld s Reg.PWR_STATE F.PWR_STATE_cur = 4 := by
  decide +kernel

theorem witness_telemetryWaits :
    ∀ u ∈ [2, 4], let s := flds [(Reg.MC_UNIT 0 0, F.MC_UNIT_state, u)] (ringSt 1 0 16 (some (15, List.replicate 256 7)))
      busyIn s (fld s Reg.BKG_TRING_BASE F.BKG_TRING_BASE_addr * 256 + 256 * 15) 256 = (u == 4) := by
  decide +kernel

theorem witness_tamperInOneCycle :
    (∀ m ∈ [0, 1], let s := svcSt 1 1 0 0 0 1 0 1
      let u := { s with svc := { s.svc with mismAt := m } }
      decide (u.svc.mismAt = u.now + 1) = (m == 1)) ∧
    (∀ m ∈ [0, 1], let s := svcSt 1 1 0 0 0 1 0 1
      let u := { s with svc := { s.svc with clearAt := m, mism := 1 } }
      decide (u.svc.clearAt = u.now + 1) = (m == 1) ∧ u.svc.mism = 1) := by
  decide +kernel

set_option maxRecDepth 1000000 in
theorem witness_sessionTimes :
    (sitSt .rt (some sessOf) 0 1 0 0 0 0).now < ({ sessOf with till := 1 } : Sess).till ∧
    sessOf.till ≤ (sitSt .rt (some sessOf) 0 1 0 0 0 0).now ∧
    (sitSt .rt (some { sessOf with till := 1 }) 0 1 0 0 0 0).svc.sess = some { sessOf with till := 1 } := by
  decide +kernel

/-- An image of one section: a program of cluster 23. -/
def progImage : List Byte :=
  List.replicate 0x10 0 ++ leBytes 2 1 ++ List.replicate 0x6E 0 ++ leBytes 2 2 ++ leBytes 2 23 ++ leBytes 4 0xC0 ++ List.replicate 8 0

theorem witness_bootLoadsPrograms :
    (bootSt false 2 .boot 0 1 1).str.boot = none ∧
    (let s := cluSt true .wakingP (2 ^ 23)
     let u := { s with str := { s.str with boot := some progImage } }
     u.str.boot.isSome = true ∧ (clu u 23).power = .wakingP ∧
      secInst progImage 2 23 = some { idx := 0, typ := 2, inst := 23, off := 0xC0, len := 0, crc := 0 } ∧ secInst progImage 2 0 = none ∧
      (∀ v ∈ [0, 1], let w := flds [(Reg.STR_PROG 23, F.STR_PROG_valid, v)] u
        (List.range 24).any (fun c => (secInst progImage 2 c).isSome && !flag w (Reg.STR_PROG c) F.STR_PROG_valid) = (v == 0))) := by
  decide +kernel

/-! ## Completions -/


set_option maxRecDepth 1000000 in
/-- What the rows of the cores, of Spawn and of Bridge need. -/
theorem witness_coreRows :
    (∀ o ∈ opOf (turnSt (.load (0xF000000000 + Reg.BRG_TURN 3) 6 false) 9) 0, o.late = false ∧ o.dead = false ∧ o.kind = .load (0xF000000000 + Reg.BRG_TURN 3) 6 false) ∧
    (th (one { runK with wait := .lyrBusy }) 0).wait = .lyrBusy ∧
    (let s := lyrWork false copyD [] []
     (opOf s 0).isSome = true ∧
      ((clu s (thCluster 0)).lyrOps.find? (fun l => l.thread == 0)).map (fun l => l.id) = some 0) ∧
    (let s := lyrSt [lyrSlot0] copyD
     (clu (setClu s 0 { clu s 0 with lyrFlush := some 0 }) 0).lyrFlush = some 0 ∧
      (clu s 0).lyrOps.any (fun o => thNum o.thread == 0) = false) ∧
    (portAssigned portUp 3 = true ∧ Machine.portUp portUp 3 = true) ∧
    (holdOf holdSt 5 = some descHeld ∧ canLetIn holdSt descHeld = true ∧ admitTurn holdSt descHeld = true) ∧
    (let r := tileRead (fillSt runK false check0) 0x100000000 0
     r.1.poison = false ∧ r.1.bad = false ∧ busyIn (fillSt runK false check0) 0x100000000 256 = false) ∧
    standing State.reset = false ∧
    (let w : WakeReq := { cluster := 0, zero := true, paced := false }
     let s := { parkSt .parked 1 0 with spawn := { Spawn.reset with wakes := [w] } }
     (s.spawn.wakes.filter (fun w => !quietBars s w)).head? = some w ∧ wakeWindowClear s = true ∧ w ∈ s.spawn.wakes) ∧
    (∀ e ∈ [(CPower.run, 2, 0), (.gated, 1, 2)], let s := parkSt e.1 e.2.1 e.2.2
      (clu s 0).power = e.1 ∧ quietIdle s 0 = true ∧ parksDirectly s 0 = true) ∧
    (∀ o ∈ opOf (turnSt (.turn 3 7 9) 9) 0, o.late = false ∧ turnHolds (turnSt (.turn 3 7 9) 9) 3 7 9 = true) ∧
    (let s := turnSt (.pass 3 7 9) 9
     ∀ o ∈ opOf s 0, earlierPass s o = false ∧ laneHolds s 7 9 = true) ∧
    (let s := flds [(Reg.BPM_CTL, F.BPM_CTL_audit_en, 1)] (listed State.reset)
     flag s Reg.BPM_CTL F.BPM_CTL_audit_en = true ∧ s.bpm.audit = none ∧ nextAudit s = some 0) ∧
    (audited 1).bpm.audit.isSome = true := by
  decide +kernel

/-- What the rows of the tables, the locks, the controllers, the ports and the links need. -/
theorem witness_memoryAndLinkRows :
    (∀ op ∈ [1, 2, 3, 4, 5, 6, 7, 8, 9, 10, 11, 12], getF (putF 0 F.TBL_CMD_op op) F.TBL_CMD_op = op) ∧
    (knownAgent (agentLoc (3 * 0x4000 + 5)) = true ∧ localThread? State.reset (3 * 0x4000 + 5) = none) ∧
    (outside svcAgent = true ∧ outside bmcAgent = true ∧ outside 0x13FF = true) ∧
    (anyPanic (unitSt 0 2) 0 = false ∧ ∃ t ∈ [0, 20, 60], tempMoved (unitSt 0 2) 0 0 t = true) ∧
    (∀ st ∈ [3, 5], unitState (unitSt 0 st) 0 0 = st ∧ mcUsed (unitSt 0 st) 0 = true ∧ 0 < trainUnits 0) ∧
    (let s := { hostUp (rxSt 1 0) with spawn := Spawn.reset }
     rxqOf s 0x1000 0 = some 5 ∧ (hrx s 5).head = 0) ∧
    (let s := { flds [(Reg.MAC_PSTAT 3, F.MAC_PSTAT_state, 2)] portUp with spawn := { Spawn.reset with asserted := [unitEth 3 0] } }
     s.spawn.asserted.contains (unitEth 3 0) = true ∧ portAssigned s 3 = true) ∧
    (∀ st ∈ [2, 3, 4], linkLive (obxSt st 1 ObxLink.reset) 5 = true) ∧
    (∀ t ∈ [opPkt, opRd, opWr, opAtom, opLock, opIntr, opResp, opMember], let r := rxOf t 1 0 false []
      let s := obxRxSt 0 [] r
      (takeRx s 5 t).map (fun e => e.1) = some r ∧ rxWaits s r = false ∧ (takeRx s 5 t).all (fun e => !fromLeft e.2 r) = true) ∧
    (∀ k ∈ [1, 2, 3, 4], (noticeSt (noticeAs k 1 0 1) [] []).obx.noticeIn.find? (fun e => e.1 == 5 && nKind e.2 == k) =
      some (5, noticeAs k 1 0 1)) ∧
    nTarget (noticeAs 3 2 (9 * 2 ^ 20) 3) ≠ devId (obxSt 3 1 ObxLink.reset) ∧
    (Tab.find? (noticeSt 0 [(5, noticeAs 1 1 3 5)] []).obx.mutes 5 = some (noticeAs 1 1 3 5) ∧ nLife (noticeAs 1 1 3 5) ≠ 0) ∧
    (epcRun (epcSt 1 none 0 0 0 0 0 0 4 0) = true ∧ swMask (Reg.SPN_GRPWT 3) ≠ 0 ∧ dstRole (dstSt 1 2 2 0 DstS.reset) = 2) := by
  decide +kernel

/-- What the rows of the device around them need. -/
theorem witness_deviceRows :
    State.reset.clk.dead = false ∧ isSealed State.reset = false ∧ (bootSt false 2 .rtLoad 0 0 0).svc.mode = .rtLoad ∧
    (sitOpen 1 (sitSt .axolotl (some sessOf) 0 1 0 0 0 0) = true ∧ (sitSt .axolotl (some sessOf) 0 1 0 0 0 0).svc.sess.isSome = true ∧
      (sitSt .axolotl (some sessOf) 0 1 0 0 0 0).svc.activated = true) ∧
    (windowOpen (svcSt 1 1 0 0 0 1 0 0) = true ∧ (svcSt 1 1 0 0 0 1 0 0).svc.presLow = false) ∧
    bmcHeard (regSt 1 false 0xCF0 0) (.smbus 0x4C true) = true ∧
    (∀ n ∈ [1, 2, 4, 8], accessOk (.csrWrite svcAgent 0x40 n 7) = true) ∧ ({ SvcS.reset with vaon := false } : SvcS).vaon = false ∧
    (epcRun (bootSt false 2 .rt 0 0 0) = false ∧ (bootSt false 2 .rt 0 0 0).svc.porst = false ∧
      flag (bootSt false 2 .rt 0 0 0) Reg.SVC_PORT F.SVC_PORT_up = false) ∧
    runOp (iOpcode (0xFF0000000000 : Word)) = none ∧
    (let s := one { runK with pc := 262140 }
     ready s 0 = true ∧ (th s 0).pc = 262140) := by
  decide +kernel

/-! ## Ill-formed commands are refused, check by check -/

theorem test_illFormed :
    (∀ c ∈ [Instr.add 3072 0x10000000000, .add 0 0x2000000000, .unassignedOpcode 0 0x1000000000, .asyncCompletion 0 4,
      .service 0 0x40000 0, .service 0 0 4, .coreReset 24 0, .frameReceive 64 [] 0 0, .slotFillComplete 0 2 0,
      .laneHoldExpiry 65536, .hostRxWrite 0x0FFF 0 0 0 0, .hostRxWrite 0x1000 256 0 0 0, .fabricPktSend 8 0 0,
      .bpmAllocation 16, .tableAdd 2, .ageingSweepStep 32 false, .claim 4096 0 0, .claim 0 0 0xF00, .notifyRead 7 0, .notifyRead 0 5, .eventDelivery 2048,
      .softwareDoorbell 128, .grant 12 0, .rtPortTake 0 4, .retire 0 32, .hbmPurgeComplete 4 0], wellFormed c = false) ∧
    (∀ c ∈ [Instr.hostLinkDown 16, .txDoorbell 0x1400 0 0, .txFetch 4096 0, .portEnable 0 0, .portUp 64, .obxLinkEnable 8 0,
      .originateMute 0, .joinDomain 0, .epochRunStart 0, .swRegisterWrite 4 0, .commitRequest 65536 false, .pairEnable 0,
      .pllLock 45, .clockStop 227, .halfResetTrigger 5 0, .vinSample 65536 0 0, .standbyRequest 0, .bootSeal 0x4000,
      .revoke 256, .sitHello 2 0, .sitHello 0 4294967296, .bmcRead (.i3c 8) 4294967296, .tringEnable 0,
      .registerWrite (.csrWrite 5 0 8 0), .registerWrite (.csrRead 0xC00 0 3), .registerWrite (.pageRead 0x1000 2 4),
      .registerWrite (.hdmWrite 0x1000 16 0 0), .registerWrite (.setdasa 128 0), .hostLinkUp 0 0 0 7 1, .hostLinkUp 0 0 0 1 3,
      .perstpNRelease 4], wellFormed c = false) := by
  decide +kernel

theorem test_illFormed_refused :
    exec (.add 3072 0x10000000000) State.reset = .refused .illFormed ∧ exec (.pllLock 45) State.reset = .refused .illFormed ∧
    exec (.sitHello 2 0) State.reset = .refused .illFormed ∧ exec (.registerWrite (.entdaa 128)) State.reset = .refused .illFormed :=
  ⟨rfl, rfl, rfl, rfl⟩

/-! ## Worked examples of the spec -/

/-- 03_newt_core_execution.md: ADD g3, g1, g2 guarded by not-p2 is 0xA011_8440_0000. -/
theorem test_word_add : let w : Word := 0xA01184400000
    iOpcode w = 0x01 ∧ iD w = 3 ∧ iA w = 1 ∧ iB w = 2 ∧ iFn w = 0 ∧ iGuardP w = 2 ∧ iNeg w = true ∧
    wellFormed (.add 0 w) = true := by
  decide +kernel

/-- 05_lyre_coprocessor.md: LYR g7, 0x4C0(g0), t3 is 0x0C03_8006_04C0. -/
theorem test_word_lyr : let w : Word := 0x0C03800604C0
    iOpcode w = 0xC0 ∧ iD w = 7 ∧ iA w = 0 ∧ iTok w = 3 ∧ wellFormed (.lyr 0 w) = true := by
  decide +kernel

/-- 00_scope.md: thread 5 of core 9 in cluster 17 of device 613 is agent 0x99_48CD. -/
theorem test_agent_id :
    agentDev 0x9948CD = 613 ∧ agentLoc 0x9948CD = 2253 ∧ thCluster 2253 = 17 ∧ thCore 2253 = 9 ∧ thNum 2253 = 77 := by
  decide

/-- 04_newt_core_control.md and 16_clocks_resets_crossings.md: CSR addresses. -/
theorem test_csr_offsets :
    Reg.CLU_THCMD 17 77 = 0x210668 ∧ Reg.CLU_THSTAT 17 77 = 0x210A68 ∧ Reg.CRS_DOMSTAT 27 = 0x404D8 ∧
    Reg.CRS_DOMSTAT 51 = 0x40598 ∧ Reg.CRS_DOMSTAT 180 = 0x409A0 := by
  decide

/-- 03_newt_core_execution.md: LI g5, 0x7_8000 then LUI g5, g5, 0x8_0000 gives 0x00F0_0008_0000. -/
theorem test_lui : (match exec (.lui 0 (ins 0x1E 5 5 0 0x80000)) (one (runK [(5, 0x78000)])) with
    | .next u => regVal u 0 5 == 0xF000080000
    | _ => false) = true := by
  decide +kernel

/-- R92: ADD wraps; the destination may be a source. -/
theorem test_add_wraps : (match exec (.add 0 (ins 0x01 1 1 2 0)) (one (runK [(1, 0xFFFFFFFFFFFF), (2, 3)])) with
    | .next u => regVal u 0 1 == 2 && (th u 0).pc == (th (one (runK [])) 0).pc + 6
    | _ => false) = true := by
  decide +kernel

/-- R67: a write of register 0 is discarded. -/
theorem test_zero_register : (match exec (.add 0 (ins 0x01 0 1 2 0)) (one (runK [(1, 1), (2, 3)])) with
    | .next u => regVal u 0 0 == 0
    | _ => false) = true := by
  decide +kernel

/-- R495 and the example of 17_power_ageing.md: 43,800 h at 80 °C and 0.720 V are 11,139 equivalent hours by factors rounded to four
digits, 0.3536 × 0.7192; by 2^(−1.5) × 3^(−0.3) unrounded they are 11,137. -/
theorem test_equivalent_hours : 43800 * eqhAdd 3600000 80 34 / (2 ^ 32 * 3600000) = 11137 := by
  decide +kernel

/-- R355 and the example of 12_host_pool.md: HPA 0x43_4567_8A40 is DPA 0x1_A2B3_CA40. -/
theorem test_hdm_decode :
    hdmDpa ([(5, 0x40), (7, 0x20), (8, 0x214)].foldl (fun s e => hdmWrite 3 e.1 e.2 s) State.reset) 3 0x4345678A40 = some 0x1A2B3CA40 := by
  decide +kernel

/-- The example of 11_memory_controllers.md: offset 0x1234_5680 of HBM controller 1 lies in unit 1, and the next kilobyte in
unit 2. -/
theorem test_bank_hash :
    let s := regs ([0x1080400, 0x2100800, 0x4201000, 0x8402000, 0x10804000].zipIdx.map (fun e => (Reg.MC_HASH 1 e.2, e.1))) State.reset
    unitOf s 1 0x12345680 = 1 ∧ unitOf s 1 0x12345A80 = 2 := by
  decide +kernel

/-- CRC-32C and the Ethernet CRC of "123456789" (their published check values). -/
theorem test_crc :
    crc32c 0xFFFFFFFF [0x31, 0x32, 0x33, 0x34, 0x35, 0x36, 0x37, 0x38, 0x39] = 0xE3069283 ∧
    crc32e [0x31, 0x32, 0x33, 0x34, 0x35, 0x36, 0x37, 0x38, 0x39] = 0xCBF43926 := by
  decide +kernel
end Sys2Proof.Tests
end

