-- ==== Sys2Proof/Proofs/Canonical.lean ====
section
/-! The canonical form (log 8) is kept by every operation of the model, in the order of the model's files. `Canonical.f`
says so of the operation `f`, `CanonicalOut.execRow` of a row; a proof names, from the outside in, the operations its
definition calls. -/

namespace Sys2Proof.Machine

section
variable {s : State}

/-! ## The form, and the parts of a state it speaks of -/

/-- The ready queues are in canonical form and of the 1,024. -/
def queuesWf (t : Tab (List Desc)) : Prop := Tab.wf [] t = true ∧ ∀ e ∈ t, e.1 < 1024

/-- The image's Ethernet ports are among the 64. -/
def portsWf (t : Tab PortCfg) : Prop := ∀ e ∈ t, e.1 < 64

/-- A record update that leaves the registers, the memories, Spawn and the image alone. -/
protected theorem Canonical.same (h : Canonical s) {now freeCtr pending shadow slotRam threads cores ops nextOp clusters
    bridge bpm tiles poison eth clkBase clkAt gecko ev obx tbl host mc clk str epc dst pwr svc tel outbox} :
    Canonical ⟨now, freeCtr, pending, s.csr, shadow, s.mem, s.scratch, s.code, slotRam, threads, cores, ops, nextOp,
      clusters, s.spawn, bridge, bpm, tiles, poison, s.img, eth, clkBase, clkAt, gecko, ev, obx, tbl, host, mc, clk, str,
      epc, dst, pwr, svc, tel, outbox⟩ :=
  ⟨h.csr, h.mem, h.scratch, h.code, h.queues, h.ports⟩

/-- A record update of Spawn that leaves the ready queues alone. -/
protected theorem Canonical.spawn (h : Canonical s) {now freeCtr pending shadow slotRam threads cores ops nextOp clusters
    bridge bpm tiles poison eth clkBase clkAt gecko ev obx tbl host mc clk str epc dst pwr svc tel outbox
    hold stored out credit gp qptr gStart boost boostOf wakes starts asserted storeBp orphan born qover lastIn} :
    Canonical ⟨now, freeCtr, pending, s.csr, shadow, s.mem, s.scratch, s.code, slotRam, threads, cores, ops, nextOp,
      clusters, ⟨hold, s.spawn.queues, stored, out, credit, gp, qptr, gStart, boost, boostOf, wakes, starts, asserted,
      storeBp, orphan, born, qover, lastIn⟩, bridge, bpm, tiles, poison, s.img, eth, clkBase, clkAt, gecko, ev, obx, tbl,
      host, mc, clk, str, epc, dst, pwr, svc, tel, outbox⟩ :=
  ⟨h.csr, h.mem, h.scratch, h.code, h.queues, h.ports⟩

/-- A record update of the image that leaves the Ethernet ports alone. -/
protected theorem Canonical.img (h : Canonical s) {now freeCtr pending shadow slotRam threads cores ops nextOp clusters
    bridge bpm tiles poison eth clkBase clkAt gecko ev obx tbl host mc clk str epc dst pwr svc tel outbox
    hlinks olinks steer entry} :
    Canonical ⟨now, freeCtr, pending, s.csr, shadow, s.mem, s.scratch, s.code, slotRam, threads, cores, ops, nextOp,
      clusters, s.spawn, bridge, bpm, tiles, poison, ⟨s.img.ports, hlinks, olinks, steer, entry⟩, eth, clkBase, clkAt,
      gecko, ev, obx, tbl, host, mc, clk, str, epc, dst, pwr, svc, tel, outbox⟩ :=
  ⟨h.csr, h.mem, h.scratch, h.code, h.queues, h.ports⟩

/-! ## Branches, loops and pairs -/

protected theorem Canonical.pair {α : Type} {a : α} (h : Canonical s) : Canonical (a, s).2 := h

protected theorem Canonical.snd {α : Type} {p : α × State} {a u} (hp : p = (a, u)) (h : Canonical p.2) : Canonical u := by
  rw [hp] at h
  exact h

protected theorem Canonical.ite {c : Prop} {_ : Decidable c} {u v : State} (hu : Canonical u) (hv : Canonical v) :
    Canonical (if c then u else v) := by split <;> assumption

protected theorem Canonical.ite_snd {α : Type} {c : Prop} {_ : Decidable c} {u v : α × State} (hu : Canonical u.2)
    (hv : Canonical v.2) : Canonical (if c then u else v).2 := by split <;> assumption

protected theorem Canonical.ite_snd_snd {α β : Type} {c : Prop} {_ : Decidable c} {u v : α × β × State}
    (hu : Canonical u.2.2) (hv : Canonical v.2.2) : Canonical (if c then u else v).2.2 := by split <;> assumption

protected theorem Canonical.forEach {α : Type} {l : List α} {f : α → State → State} (h : Canonical s)
    (hf : ∀ {a s}, Canonical s → Canonical (f a s)) : Canonical (forEach l f s) :=
  forEach_keeps Canonical l f s (fun _ _ _ hs => hf hs) h

protected theorem Canonical.foldl {α : Type} {l : List α} {f : State → α → State} (h : Canonical s)
    (hf : ∀ {s a}, Canonical s → Canonical (f s a)) : Canonical (l.foldl f s) :=
  forEach_keeps Canonical l (fun a s => f s a) s (fun _ _ _ hs => hf hs) h

protected theorem Canonical.foldl_snd {α β : Type} {l : List α} {f : β × State → α → β × State} {p : β × State}
    (h : Canonical p.2) (hf : ∀ {p a}, Canonical p.2 → Canonical (f p a).2) : Canonical (l.foldl f p).2 := by
  induction l generalizing p with
  | nil => exact h
  | cons a r ih => exact ih (hf h)

/-! ## Outcomes and optional states -/

/-- An outcome's next state, if it is one, is canonical. -/
def CanonicalOut : Out → Prop
  | .next u => Canonical u
  | _ => True

protected theorem CanonicalOut.next (h : Canonical s) : CanonicalOut (.next s) := h

protected theorem CanonicalOut.refused {r : Refusal} : CanonicalOut (.refused r) := trivial

protected theorem CanonicalOut.ite {c : Prop} {_ : Decidable c} {o p : Out} (ho : CanonicalOut o) (hp : CanonicalOut p) :
    CanonicalOut (if c then o else p) := by split <;> assumption

protected theorem CanonicalOut.canonical {o : Out} {u : State} (h : CanonicalOut o) (ho : o = .next u) : Canonical u := by
  rw [ho] at h
  exact h

/-- A state that an operation may answer is canonical. -/
def CanonicalSome : Option State → Prop
  | some u => Canonical u
  | none => True

protected theorem CanonicalSome.some (h : Canonical s) : CanonicalSome (some s) := h

protected theorem CanonicalSome.none : CanonicalSome none := trivial

protected theorem CanonicalSome.ite {c : Prop} {_ : Decidable c} {o p : Option State} (ho : CanonicalSome o)
    (hp : CanonicalSome p) : CanonicalSome (if c then o else p) := by split <;> assumption

protected theorem Canonical.get {o : Option State} {u : State} (h : CanonicalSome o) (ho : o = some u) : Canonical u := by
  rw [ho] at h
  exact h

/-! ## The writers of the form's parts -/

theorem wf_filter {α : Type} [DecidableEq α] {d : α} {t : Tab α} (h : Tab.wf d t = true) (p : Nat × α → Bool) :
    Tab.wf d (t.filter p) = true := by
  rw [Tab.wf_iff] at h ⊢
  exact ⟨h.1.sublist (List.filter_sublist.map _), fun e he => h.2 e (List.mem_filter.1 he).1⟩

protected theorem Canonical.wr (h : Canonical s) {a : Nat} {w : Word} : Canonical (wr s a w) :=
  ⟨regsWf_wr s a w h.csr, h.mem, h.scratch, h.code, h.queues, h.ports⟩

/-! ## The named operations over State that every command shares -/

protected theorem Canonical.setFld (h : Canonical s) {a f v} : Canonical (setFld s a f v) := .wr h

protected theorem Canonical.bumpBy (h : Canonical s) {a f k} : Canonical (bumpBy s a f k) :=
  .setFld h

protected theorem Canonical.bump (h : Canonical s) {a f} : Canonical (bump s a f) := .bumpBy h

protected theorem Canonical.bumpWrapBy (h : Canonical s) {a f k} : Canonical (bumpWrapBy s a f k) :=
  .setFld h

protected theorem Canonical.bumpWrap (h : Canonical s) {a f} : Canonical (bumpWrap s a f) :=
  .bumpWrapBy h

protected theorem Canonical.markHigh (h : Canonical s) {a f v} : Canonical (markHigh s a f v) :=
  .ite (.setFld h) h

protected theorem Canonical.draw (h : Canonical s) : Canonical (draw s).2 := .same h

protected theorem Canonical.choose {α : Type} (h : Canonical s) {c : α} {l} : Canonical (choose s c l).2 := by
  unfold choose
  split <;> exact .same h

protected theorem Canonical.emit (h : Canonical s) {o} : Canonical (emit s o) := .same h

protected theorem Canonical.setTh (h : Canonical s) {t v} : Canonical (setTh s t v) := .same h

protected theorem Canonical.updTh (h : Canonical s) {t f} : Canonical (updTh s t f) := .setTh h

protected theorem Canonical.setClu (h : Canonical s) {c v} : Canonical (setClu s c v) := .same h

protected theorem Canonical.updClu (h : Canonical s) {c f} : Canonical (updClu s c f) := .setClu h

protected theorem Canonical.updCore (h : Canonical s) {n f} : Canonical (updCore s n f) := .same h

protected theorem Canonical.setLock (h : Canonical s) {n v} : Canonical (setLock s n v) := .same h

protected theorem Canonical.evPending (h : Canonical s) {n at_ held} : Canonical (evPending n at_ held s) :=
  .setFld <| .setFld (.same h)

protected theorem Canonical.evPulse (h : Canonical s) {n} : Canonical (evPulse s n) := by
  unfold evPulse
  dsimp only
  split
  · exact h
  · split
    · exact .evPending h
    · exact .ite h (.bump h)
    · exact .ite h (.setFld h)
    · exact .ite h <| .bump (.setFld h)

protected theorem Canonical.xingPulse (h : Canonical s) {n} : Canonical (xingPulse s n).1 := by
  unfold xingPulse
  split
  · exact .same h
  · exact .same h
  · exact .bump (.setFld h)

protected theorem Canonical.raise (h : Canonical s) {n} : Canonical (raise s n) :=
  .ite (.evPulse h) <| .ite (.ite (.same h) h) <| .ite (.xingPulse (.xingPulse h)) (.xingPulse h)

protected theorem Canonical.halfFlush (h : Canonical s) : Canonical (halfFlush s) :=
  .raise (.bump h)

protected theorem Canonical.xingDeliver (h : Canonical s) {n} : Canonical (xingDeliver s n) :=
  .same h

protected theorem Canonical.setSync (h : Canonical s) {v} : Canonical (setSync s v) := .setFld h

protected theorem Canonical.unsync (h : Canonical s) : Canonical (unsync s) :=
  .ite (.setFld (.same h)) <| .raise <| .bump <| .setSync <| .setFld (.same h)

protected theorem Canonical.capture (h : Canonical s) {a} : Canonical (capture a s) :=
  .ite h <| .ite (.unsync h) <| .markHigh <| .setFld (.same h)

protected theorem Canonical.storeMem (h : Canonical s) {a l} : Canonical (storeMem s a l) :=
  have h1 : Canonical { s with mem := wrBytes s.mem a l } :=
    ⟨h.csr, wf_wrBytes s.mem a l h.mem, h.scratch, h.code, h.queues, h.ports⟩
  .ite h1 <| .forEach h1 fun hu => .ite (.capture hu) hu

/-! ## The operand forms of Newt instructions -/

protected theorem Canonical.readHaz (h : Canonical s) {t k key cur} : Canonical (readHaz s t k key cur).2 := by
  unfold readHaz
  split
  · exact h
  · exact .choose h

protected theorem Canonical.pendingValues (h : Canonical s) {t r} : Canonical (pendingValues t r s).2 :=
  .foldl_snd h fun hu => .draw hu

protected theorem Canonical.readG (h : Canonical s) {t r} : Canonical (readG s t r).2 :=
  .ite_snd h <| .ite_snd (.choose (.pendingValues h)) (.readHaz h)

protected theorem Canonical.readP (h : Canonical s) {t i} : Canonical (readP s t i).2 :=
  .ite_snd h (.readHaz h)

protected theorem Canonical.readCsr (h : Canonical s) {t n} : Canonical (readCsr s t n).2 :=
  .readHaz h

protected theorem Canonical.writeG (h : Canonical s) {t r v need} : Canonical (writeG s t r v need) :=
  .ite h <| .same <| .updTh <| .ite_snd (.choose h) h

protected theorem Canonical.writeP (h : Canonical s) {t i v} : Canonical (writeP s t i v) :=
  .ite h <| .updTh <| .ite_snd (.choose h) h

protected theorem Canonical.writeCsr (h : Canonical s) {t n v} : Canonical (writeCsr s t n v) := by
  unfold writeCsr
  exact .updTh h

protected theorem Canonical.putG (h : Canonical s) {t r k pc v l} : Canonical (putG s t r k pc v l) :=
  .ite h <| .same <| .updTh (.choose h)

protected theorem Canonical.nearWr (h : Canonical s) {b v} : Canonical (nearWr s b v) := by
  unfold nearWr
  split
  · exact ⟨h.csr, h.mem, wf_wrByte _ _ _ h.scratch, h.code, h.queues, h.ports⟩
  · exact .same h
  · exact h

protected theorem Canonical.lyrOldNew (h : Canonical s) {writing v} : Canonical (lyrOldNew writing v s).2 :=
  .ite_snd (.choose (.draw h)) h

protected theorem Canonical.nearMoving (h : Canonical s) {t b} : Canonical (nearMoving s t b).2 := by
  unfold nearMoving
  split
  · exact .choose h
  · exact .lyrOldNew h

protected theorem Canonical.nearLoadByte (h : Canonical s) {t b} : Canonical (nearLoadByte s t b).2 := by
  unfold nearLoadByte
  dsimp only
  split
  · exact .nearMoving h
  · exact .choose (.nearMoving h)

protected theorem Canonical.nearLoad {t l} (h : Canonical s) : Canonical (nearLoad s t l).2 := by
  induction l generalizing s with
  | nil => exact h
  | cons b r ih => exact ih (.nearLoadByte h)

protected theorem Canonical.nearStore {t l v} (h : Canonical s) : Canonical (nearStore s t l v) := by
  induction l generalizing s v with
  | nil => exact h
  | cons b r ih =>
    cases v with
    | nil => exact h
    | cons x vs => exact ih (.updTh (.nearWr h))

/-! ## What every Newt instruction shares -/

protected theorem Canonical.finish (h : Canonical s) {t npc} : Canonical (finish s t npc) :=
  .updTh h

protected theorem Canonical.finishSeq (h : Canonical s) {t} : Canonical (finishSeq s t) := .finish h

protected theorem Canonical.enterHandler (h : Canonical s) {t c detail v r} :
    Canonical (enterHandler s t c detail v r) :=
  .ite (.raise (.setTh h)) (.setTh h)

protected theorem Canonical.squashed (h : Canonical s) {t k l} : Canonical (squashed s t k l) :=
  .updCore h

protected theorem Canonical.trapEnter (h : Canonical s) {t c detail v r} : Canonical (trapEnter s t c detail v r) :=
  .enterHandler (.squashed h)

protected theorem Canonical.trapAt (h : Canonical s) {t c detail v} : Canonical (trapAt s t c detail v) :=
  .trapEnter h

protected theorem Canonical.trapUndef (h : Canonical s) {t w} : Canonical (trapUndef s t w) :=
  .trapAt h

protected theorem Canonical.trapPriv (h : Canonical s) {t w} : Canonical (trapPriv s t w) :=
  .trapAt h

protected theorem Canonical.trapPrivAddr (h : Canonical s) {t ea} : Canonical (trapPrivAddr s t ea) :=
  .trapAt h

protected theorem Canonical.trapAddr (h : Canonical s) {t ea} : Canonical (trapAddr s t ea) :=
  .trapAt h

protected theorem Canonical.trapAlign (h : Canonical s) {t ea} : Canonical (trapAlign s t ea) :=
  .trapAt h

protected theorem Canonical.trapProt (h : Canonical s) {t ea} : Canonical (trapProt s t ea) :=
  .trapAt h

protected theorem Canonical.trapNoPacket (h : Canonical s) {t w} : Canonical (trapNoPacket s t w) :=
  .trapAt h

protected theorem Canonical.trapTokBusy (h : Canonical s) {t k} : Canonical (trapTokBusy s t k) :=
  .trapAt h

protected theorem Canonical.trapPcRange (h : Canonical s) {t target} : Canonical (trapPcRange s t target) :=
  .trapAt h

protected theorem Canonical.trapRepeat (h : Canonical s) {t detail v} : Canonical (trapRepeat s t detail v) :=
  .trapAt h

protected theorem Canonical.trapRepeatInstr (h : Canonical s) {t w} : Canonical (trapRepeatInstr s t w) :=
  .trapEnter (.updTh h)

protected theorem Canonical.dchkPick (h : Canonical s) {t} : Canonical (dchkPick s t) := by
  unfold dchkPick
  dsimp only
  exact .ite (.updTh (.choose h)) <| .ite (.updTh h) h

protected theorem Canonical.trapDist (h : Canonical s) {t v} : Canonical (trapDist s t v) :=
  .trapAt (.bump h)

protected theorem Canonical.issued (h : Canonical s) {t} : Canonical (issued s t) :=
  .updCore (.dchkPick h)

protected theorem Canonical.issue (h : Canonical s) {t w undef priv a body bad cnt} (hbody : ∀
    {u}, Canonical u → Canonical (body u)) : Canonical (issue s t w undef priv a body bad cnt) := by
  have h0 : Canonical (issued s t) := .issued h
  have h1 : Canonical (readP (issued s t) t (iGuardP w)).2 := .readP h0
  unfold issue
  dsimp only
  refine .ite h <| .ite (.trapUndef h0) <| .ite (.trapUndef h1) <| .ite (.trapRepeatInstr h1) ?_
  split
  · exact .trapRepeat h1
  · refine .ite (.trapPriv h1) ?_
    split
    · exact .trapDist h1
    · refine .ite (.finishSeq (.updTh h1)) ?_
      split
      · exact .trapDist (.updTh h1)
      · exact hbody (.updTh h1)

protected theorem Canonical.dozeEnd (h : Canonical s) {t d v} : Canonical (dozeEnd s t d v) :=
  .finishSeq <| .writeG (.updTh h)

protected theorem Canonical.wakeThread (h : Canonical s) {t} : Canonical (wakeThread s t) := by
  unfold wakeThread
  dsimp only
  split
  · exact h
  · exact h
  · exact .setTh h
  · exact .setTh h
  · split
    · exact .dozeEnd (.setTh h)
    · exact .setTh h

protected theorem Canonical.setTok (h : Canonical s) {t k v} : Canonical (setTok s t k v) :=
  .updTh h

protected theorem Canonical.commitOp (h : Canonical s) {t tokF dest cls k} :
    Canonical (commitOp s t tokF dest cls k) :=
  .ite (.setTok <| .same (.readCsr h)) <| .same (.readCsr h)

protected theorem Canonical.dropOp (h : Canonical s) {id} : Canonical (dropOp s id) := .same h

protected theorem Canonical.updOp (h : Canonical s) {id f} : Canonical (updOp s id f) := .same h

protected theorem Canonical.postErr (h : Canonical s) {t status} : Canonical (postErr s t status) :=
  .raise <| .setFld (.bump h)

protected theorem Canonical.deliver (h : Canonical s) {o status v} : Canonical (deliver s o status v) := by
  unfold deliver
  split
  · exact .updTh (.dropOp h)
  · split
    · exact .bump (.dropOp h)
    · split
      · exact .ite (.dropOp h) <| .postErr (.dropOp h)
      · exact .setTok <| .ite (.dropOp h) <| .putG (.dropOp h)

protected theorem Canonical.expireOp (h : Canonical s) {o} : Canonical (expireOp s o) := by
  unfold expireOp
  split
  · exact .postErr (.updOp h)
  · exact .setTok (.updOp h)

protected theorem Canonical.waitcEnd (h : Canonical s) {t w} : Canonical (waitcEnd s t w) :=
  have h1 : Canonical _ := .forEach (.updTh h) fun hu => .setTok hu
  .ite (.finishSeq <| .writeG (.updTh (.updTh h))) <| .ite (.trapAt h1) <| .ite (.trapAt h1) (.trapAt h1)

protected theorem Canonical.settleWait (h : Canonical s) {t} : Canonical (settleWait s t) := by
  unfold settleWait
  dsimp only
  split
  · exact .ite h (.waitcEnd h)
  · exact .ite h <| .finishSeq (.updTh h)
  · exact h

/-! ## Data processing, compares, predicates and CSR access of the Newt core -/

protected theorem CanonicalOut.newt (h : Canonical s) {opcodes t w f} (hf : ∀ {u}, Canonical u → Canonical (f u)) :
    CanonicalOut (newt opcodes t w f s) :=
  .ite (.next <| hf h) .refused

protected theorem Canonical.aluB (h : Canonical s) {t w} : Canonical (aluB s t w).2 :=
  .ite_snd h (.readG h)

protected theorem Canonical.alu2 (h : Canonical s) {t w undef need f} : Canonical (alu2 t w undef need f s) :=
  .issue h fun hu => .finishSeq <| .writeG <| .aluB (.readG hu)

protected theorem Canonical.alu1 (h : Canonical s) {t w undef f} : Canonical (alu1 t w undef f s) :=
  .issue h fun hu => .finishSeq <| .writeG (.readG hu)

protected theorem CanonicalOut.execNop (h : Canonical s) {t w} : CanonicalOut (execNop t w s) :=
  .newt h fun hu => .issue hu fun h1 => .finishSeq h1

protected theorem CanonicalOut.execAdd (h : Canonical s) {t w} : CanonicalOut (execAdd t w s) :=
  .newt h fun hu => .alu2 hu

protected theorem CanonicalOut.execSub (h : Canonical s) {t w} : CanonicalOut (execSub t w s) :=
  .newt h fun hu => .alu2 hu

protected theorem CanonicalOut.execAnd (h : Canonical s) {t w} : CanonicalOut (execAnd t w s) :=
  .newt h fun hu => .alu2 hu

protected theorem CanonicalOut.execOr (h : Canonical s) {t w} : CanonicalOut (execOr t w s) :=
  .newt h fun hu => .alu2 hu

protected theorem CanonicalOut.execXor (h : Canonical s) {t w} : CanonicalOut (execXor t w s) :=
  .newt h fun hu => .alu2 hu

protected theorem CanonicalOut.execAndn (h : Canonical s) {t w} : CanonicalOut (execAndn t w s) :=
  .newt h fun hu => .alu2 hu

protected theorem CanonicalOut.execShl (h : Canonical s) {t w} : CanonicalOut (execShl t w s) :=
  .newt h fun hu => .alu2 hu

protected theorem CanonicalOut.execShr (h : Canonical s) {t w} : CanonicalOut (execShr t w s) :=
  .newt h fun hu => .alu2 hu

protected theorem CanonicalOut.execSar (h : Canonical s) {t w} : CanonicalOut (execSar t w s) :=
  .newt h fun hu => .alu2 hu

protected theorem CanonicalOut.execRol (h : Canonical s) {t w} : CanonicalOut (execRol t w s) :=
  .newt h fun hu => .alu2 hu

protected theorem CanonicalOut.execRor (h : Canonical s) {t w} : CanonicalOut (execRor t w s) :=
  .newt h fun hu => .alu2 hu

protected theorem CanonicalOut.execMin (h : Canonical s) {t w} : CanonicalOut (execMin t w s) :=
  .newt h fun hu => .alu2 hu

protected theorem CanonicalOut.execMax (h : Canonical s) {t w} : CanonicalOut (execMax t w s) :=
  .newt h fun hu => .alu2 hu

protected theorem CanonicalOut.execMinu (h : Canonical s) {t w} : CanonicalOut (execMinu t w s) :=
  .newt h fun hu => .alu2 hu

protected theorem CanonicalOut.execMaxu (h : Canonical s) {t w} : CanonicalOut (execMaxu t w s) :=
  .newt h fun hu => .alu2 hu

protected theorem CanonicalOut.execMul (h : Canonical s) {t w} : CanonicalOut (execMul t w s) :=
  .newt h fun hu => .alu2 hu

protected theorem CanonicalOut.execMulh (h : Canonical s) {t w} : CanonicalOut (execMulh t w s) :=
  .newt h fun hu => .alu2 hu

protected theorem CanonicalOut.execMulhu (h : Canonical s) {t w} : CanonicalOut (execMulhu t w s) :=
  .newt h fun hu => .alu2 hu

protected theorem CanonicalOut.execClz (h : Canonical s) {t w} : CanonicalOut (execClz t w s) :=
  .newt h fun hu => .alu1 hu

protected theorem CanonicalOut.execPopc (h : Canonical s) {t w} : CanonicalOut (execPopc t w s) :=
  .newt h fun hu => .alu1 hu

protected theorem CanonicalOut.execBext (h : Canonical s) {t w} : CanonicalOut (execBext t w s) :=
  .newt h fun hu => .alu1 hu

protected theorem CanonicalOut.execBexts (h : Canonical s) {t w} : CanonicalOut (execBexts t w s) :=
  .newt h fun hu => .alu1 hu

protected theorem CanonicalOut.execBins (h : Canonical s) {t w} : CanonicalOut (execBins t w s) :=
  .newt h fun hu => .issue hu fun h1 => .finishSeq <| .writeG <| .readG (.readG h1)

protected theorem CanonicalOut.execBswap (h : Canonical s) {t w} : CanonicalOut (execBswap t w s) :=
  .newt h fun hu => .alu1 hu

protected theorem CanonicalOut.execLi (h : Canonical s) {t w} : CanonicalOut (execLi t w s) :=
  .newt h fun hu => .issue hu fun h1 => .finishSeq (.writeG h1)

protected theorem CanonicalOut.execLui (h : Canonical s) {t w} : CanonicalOut (execLui t w s) :=
  .newt h fun hu => .alu1 hu

protected theorem Canonical.putPred (h : Canonical s) {t w c} : Canonical (putPred s t w c) :=
  .ite (.writeP h) <| .writeP (.readP h)

protected theorem CanonicalOut.execCmp (h : Canonical s) {t w} : CanonicalOut (execCmp t w s) :=
  .newt h fun hu => .issue hu fun h1 => .finishSeq <| .putPred <| .readG (.readG h1)

protected theorem CanonicalOut.execCmpi (h : Canonical s) {t w} : CanonicalOut (execCmpi t w s) :=
  .newt h fun hu => .issue hu fun h1 => .finishSeq <| .putPred (.readG h1)

protected theorem CanonicalOut.execPlog (h : Canonical s) {t w} : CanonicalOut (execPlog t w s) :=
  .newt h fun hu => .issue hu fun h1 => .finishSeq <| .putPred <| .readP (.readP h1)

protected theorem Canonical.readAllP {t l} (h : Canonical s) : Canonical (readAllP t l s).2 := by
  induction l generalizing s with
  | nil => exact h
  | cons i r ih => exact ih (.readP h)

protected theorem CanonicalOut.execPget (h : Canonical s) {t w} : CanonicalOut (execPget t w s) := by
  unfold execPget
  dsimp only
  exact .newt h fun hu => .issue hu fun h1 => .finishSeq <| .writeG (.readAllP h1)

protected theorem CanonicalOut.execPset (h : Canonical s) {t w} : CanonicalOut (execPset t w s) :=
  .newt h fun hu => .issue hu fun h1 => .finishSeq <| .forEach (.readG h1) fun h2 => .writeP h2

protected theorem Canonical.sampleCore (h : Canonical s) {n} : Canonical (sampleCore n s) :=
  .updCore <| .draw <| .draw (.draw h)

protected theorem CanonicalOut.execCsrr (h : Canonical s) {t w} : CanonicalOut (execCsrr t w s) :=
  .newt h fun hu => .issue hu fun h1 => .finishSeq <| .writeG <| .readCsr <| .ite (.sampleCore h1) h1

protected theorem Canonical.csrWriteOp (h : Canonical s) {t w rmw f} : Canonical (csrWriteOp t w rmw f s) := by
  unfold csrWriteOp
  dsimp only
  exact .issue h fun hu => .finishSeq <| .writeCsr <| .ite_snd (.readCsr <| .readG hu) (.pair <| .readG hu)

protected theorem CanonicalOut.execCsrw (h : Canonical s) {t w} : CanonicalOut (execCsrw t w s) :=
  .newt h fun hu => .csrWriteOp hu

protected theorem CanonicalOut.execCsrs (h : Canonical s) {t w} : CanonicalOut (execCsrs t w s) :=
  .newt h fun hu => .csrWriteOp hu

protected theorem CanonicalOut.execCsrc (h : Canonical s) {t w} : CanonicalOut (execCsrc t w s) :=
  .newt h fun hu => .csrWriteOp hu

/-! ## Near loads, stores and atomics of the Newt core -/

protected theorem Canonical.nearAccess (h : Canonical s) {t w undef acc n store atomic body}
    (hbody : ∀ {b l u}, Canonical u → Canonical (body b l u)) :
    Canonical (nearAccess t w undef acc n store atomic body s) := by
  refine .issue h fun {u} hu => ?_
  have h1 : Canonical (readG u t (iA w)).2 := .readG hu
  dsimp only
  split
  · exact .trapDist h1
  · split
    · exact .trapNoPacket h1
    · exact .trapAddr h1
    · exact .ite (.trapAddr h1) (.trapPrivAddr h1)
    · exact .ite (.trapAddr h1) <| .ite (.trapAlign h1) (hbody h1)

protected theorem Canonical.nearFinish (h : Canonical s) {t w base} : Canonical (nearFinish t w base s) :=
  .finishSeq <| .ite (.writeG h) h

protected theorem Canonical.nearLoadOp (h : Canonical s) {t w n signed} : Canonical (nearLoadOp t w n signed s) :=
  .nearAccess h fun hu => .nearFinish <| .writeG <| .nearLoad <| .ite (.sampleCore hu) hu

protected theorem CanonicalOut.execLd (h : Canonical s) {t w} : CanonicalOut (execLd t w s) :=
  .newt h fun hu => .nearLoadOp hu

protected theorem CanonicalOut.execLds (h : Canonical s) {t w} : CanonicalOut (execLds t w s) :=
  .newt h fun hu => .nearLoadOp hu

protected theorem Canonical.nearStoreOp (h : Canonical s) {t w} : Canonical (nearStoreOp t w s) := by
  unfold nearStoreOp
  exact .nearAccess h fun hu => .nearFinish <| .nearStore (.readG hu)

protected theorem CanonicalOut.execSt (h : Canonical s) {t w} : CanonicalOut (execSt t w s) :=
  .newt h fun hu => .nearStoreOp hu

protected theorem Canonical.atomSeen (h : Canonical s) {t ea before after} :
    Canonical (atomSeen t ea before after s) :=
  .ite h (.updClu h)

protected theorem Canonical.nearAtomOp (h : Canonical s) {t w fn} : Canonical (nearAtomOp t w fn s) := by
  refine .nearAccess h fun hu => ?_
  dsimp only
  exact .nearFinish <| .writeG <| .atomSeen <| .nearStore <| .ite_snd (.readG <| .readG hu) (.pair <| .readG hu)

protected theorem CanonicalOut.execAadd (h : Canonical s) {t w} : CanonicalOut (execAadd t w s) :=
  .newt h fun hu => .nearAtomOp hu

protected theorem CanonicalOut.execAand (h : Canonical s) {t w} : CanonicalOut (execAand t w s) :=
  .newt h fun hu => .nearAtomOp hu

protected theorem CanonicalOut.execAor (h : Canonical s) {t w} : CanonicalOut (execAor t w s) :=
  .newt h fun hu => .nearAtomOp hu

protected theorem CanonicalOut.execAxor (h : Canonical s) {t w} : CanonicalOut (execAxor t w s) :=
  .newt h fun hu => .nearAtomOp hu

protected theorem CanonicalOut.execAswp (h : Canonical s) {t w} : CanonicalOut (execAswp t w s) :=
  .newt h fun hu => .nearAtomOp hu

protected theorem CanonicalOut.execAcas (h : Canonical s) {t w} : CanonicalOut (execAcas t w s) :=
  .newt h fun hu => .nearAtomOp hu

/-! ## Gecko's operations -/

protected theorem Canonical.noteWaiters (h : Canonical s) : Canonical (noteWaiters s) :=
  .markHigh (.setFld h)

protected theorem Canonical.setRegs (h : Canonical s) {l} : Canonical (setRegs s l) :=
  .noteWaiters (.same h)

protected theorem Canonical.boostCheck (h : Canonical s) {n} : Canonical (boostCheck n s) := by
  unfold boostCheck
  dsimp only
  split
  · split
    · exact .bump (.setLock h)
    · split
      · exact .setLock h
      · exact .spawn (.setLock h)
  · split
    · split
      · exact .setLock h
      · exact .spawn (.setLock h)
    · exact h

protected theorem Canonical.notifyPush (h : Canonical s) {c rec} : Canonical (notifyPush c rec s) :=
  .ite (.setFld h) <| .raise (.same h)

protected theorem Canonical.sendObx (h : Canonical s) {m} : Canonical (sendObx s m) := .same h

protected theorem Canonical.sendIntr (h : Canonical s) {dst engine arg data} :
    Canonical (sendIntr s dst engine arg data) :=
  .sendObx h

protected theorem Canonical.gkoNotify (h : Canonical s) {a kind n} : Canonical (gkoNotify a kind n s) := by
  unfold gkoNotify
  split
  · exact .wakeThread h
  · split
    · exact .sendIntr h
    · split
      · exact .notifyPush h
      · exact h

protected theorem Canonical.passOn (h : Canonical s) {n} : Canonical (passOn n s) := by
  unfold passOn
  split
  · exact .setLock h
  · exact .gkoNotify <| .setLock (.setRegs h)

protected theorem Canonical.withdrawOn (h : Canonical s) {n a} : Canonical (withdrawOn n a s) :=
  .boostCheck (by split; exacts [.ite (.passOn (.setRegs h)) (.setRegs h), .setRegs h])

protected theorem Canonical.claimWin (h : Canonical s) {n a prio} : Canonical (claimWin n a prio s) :=
  .boostCheck <| .setLock (.setRegs h)

protected theorem Canonical.claimLose (h : Canonical s) {n a prio wait} : Canonical (claimLose n a prio wait s) :=
  have h1 : Canonical _ := .forEach h fun hu => .withdrawOn hu
  .ite h <| .ite (.boostCheck (.same h)) <| .ite (.raise (.bump h1)) <| .boostCheck (.setRegs h1)

protected theorem Canonical.gkoClaim (h : Canonical s) {n a prio wait} : Canonical (gkoClaim n a prio wait s) := by
  unfold gkoClaim
  dsimp only
  split
  · exact .claimLose h
  · split
    · exact .ite h (.claimLose h)
    · split
      · exact .claimWin h
      · exact .ite (.claimWin h) (.claimLose h)

protected theorem Canonical.gkoFree (h : Canonical s) {n a} : Canonical (gkoFree n a s) :=
  .ite (.boostCheck <| .passOn <| .boostCheck (.setLock h)) <| .raise <| .wr (.bump h)

protected theorem Canonical.gkoCommand (h : Canonical s) {n req gen cmd} : Canonical (gkoCommand n req gen cmd s) := by
  refine .ite (.raise (.bump h)) <| .ite h <| .ite (.bump h) ?_
  split
  · exact .gkoClaim h
  · exact .gkoFree h
  · exact .withdrawOn h
  · exact h

protected theorem Canonical.abandonLock (h : Canonical s) {n} : Canonical (abandonLock n s) :=
  .boostCheck <| .passOn <| .boostCheck <| .setLock <| .raise <| .wr (.bump h)

protected theorem Canonical.holderReset (h : Canonical s) {sel} : Canonical (holderReset sel s) :=
  .forEach (.forEach (.forEach
    (.setRegs h) fun hu => .boostCheck hu) fun hu => .abandonLock hu) fun hu => .boostCheck (.passOn hu)

protected theorem Canonical.threadHolderReset (h : Canonical s) {t} : Canonical (threadHolderReset t s) :=
  .updTh (.holderReset h)

protected theorem Canonical.gkoLapse (h : Canonical s) {n} : Canonical (gkoLapse n s) := by
  unfold gkoLapse
  split
  · exact h
  · exact .ite h <| .boostCheck <| .passOn (.bump h)

protected theorem Canonical.gkoExpire (h : Canonical s) {n a} : Canonical (gkoExpire n a s) :=
  .ite (.gkoNotify <| .boostCheck <| .bump (.setRegs h)) h

protected theorem Canonical.notifyPop (h : Canonical s) {c} : Canonical (notifyPop c s).2 := by
  unfold notifyPop
  split
  · exact h
  · exact .same h

protected theorem Canonical.gkoClr (h : Canonical s) : Canonical (gkoClr s) :=
  .setFld <| .foldl h fun hu => .wr hu

/-! ## The physical address map -/

protected theorem Canonical.setMcUnit (h : Canonical s) {m u x} : Canonical (setMcUnit m u x s) :=
  .same h

protected theorem Canonical.setMcCtl (h : Canonical s) {m x} : Canonical (setMcCtl m x s) := .same h

protected theorem Canonical.setUnitState (h : Canonical s) {m u v} : Canonical (setUnitState m u v s) :=
  .setFld h

protected theorem Canonical.memTouch (h : Canonical s) {a} : Canonical (memTouch s a) := by
  unfold memTouch
  split
  · exact h
  · exact .ite h (.setMcCtl h)

protected theorem Canonical.poolChannelRetired (h : Canonical s) {ch} : Canonical (poolChannelRetired ch s) :=
  .forEach h fun hu => .ite hu <| .forEach hu fun h1 => by split; exacts [h1, .ite h1 (.same h1)]

protected theorem Canonical.retireUnit (h : Canonical s) {m u} : Canonical (retireUnit m u s) :=
  .ite (.same <| .raise (.setUnitState h)) <| .poolChannelRetired <| .raise (.setUnitState h)

protected theorem Canonical.unitUe (h : Canonical s) {m u} : Canonical (unitUe m u s) :=
  .ite h <| .ite (.retireUnit (.setMcUnit h)) (.setMcUnit h)

protected theorem Canonical.mcError (h : Canonical s) {a ue} : Canonical (mcError s a ue) := by
  unfold mcError
  split
  · exact h
  · exact .ite (.unitUe <| .raise <| .wr (.bump h)) <| .raise <| .wr (.bump h)

protected theorem Canonical.memReadCheck (h : Canonical s) {a n ecc} : Canonical (memReadCheck s a n ecc).2 :=
  .ite_snd h <| .ite_snd (.mcError <| .ite (.memTouch h) (.same (.memTouch h))) <|
    .ite_snd (.mcError (.memTouch h)) <| .ite (.mcError (.memTouch h)) (.memTouch h)

protected theorem Canonical.memStore (h : Canonical s) {a l} : Canonical (memStore s a l) :=
  .storeMem <| .same (.memTouch h)

protected theorem Canonical.memWrite (h : Canonical s) {a l} : Canonical (memWrite s a l).2 :=
  .ite_snd (.memStore h) <| .forEach h fun hu => .ite hu (.memStore hu)

protected theorem Canonical.memPut (h : Canonical s) {a n v} : Canonical (memPut s a n v) :=
  .memWrite h

/-! ## Packet memory -/

protected theorem Canonical.tilePut (h : Canonical s) {tile sealed check} :
    Canonical (tilePut s tile sealed check) := by
  unfold tilePut
  split
  · exact .ite (.memPut h) (.same h)
  · exact .same h

protected theorem Canonical.sealTile (h : Canonical s) {tile} : Canonical (sealTile s tile) :=
  .same (.tilePut h)

protected theorem Canonical.openTile (h : Canonical s) {tile} : Canonical (openTile s tile) :=
  .tilePut h

protected theorem Canonical.writeTile (h : Canonical s) {tile} : Canonical (writeTile s tile) :=
  .ite h <| .ite (.sealTile h) (.openTile h)

protected theorem Canonical.tileFail (h : Canonical s) {point tile link metaErr} :
    Canonical (tileFail point tile link metaErr s) :=
  .raise <| .wr (by split <;> exact .bump h)

protected theorem Canonical.setSides (h : Canonical s) {p r w} : Canonical (setSides s p r w) :=
  .setFld (.same h)

protected theorem Canonical.xonCheck (h : Canonical s) {p} : Canonical (xonCheck s p) :=
  .ite (.setFld h) h

protected theorem Canonical.ptrRead (h : Canonical s) {a} : Canonical (ptrRead s a).2 :=
  .ite_snd (.draw (.memReadCheck h)) (.memReadCheck h)

protected theorem Canonical.ptrReads {l} (h : Canonical s) : Canonical (ptrReads l s).2 := by
  induction l generalizing s with
  | nil => exact h
  | cons a r ih => exact ih (.ptrRead h)

protected theorem Canonical.ringWrite (h : Canonical s) {p} : Canonical (ringWrite s p) :=
  .ite h <| .setSides <| .setFld <| .forEach h fun hu => .memPut hu

protected theorem Canonical.ringFetch (h : Canonical s) {p} : Canonical (ringFetch s p) :=
  .ite h <| .same (.ptrReads h)

protected theorem Canonical.poolSettle (h : Canonical s) {p} : Canonical (poolSettle s p) :=
  .xonCheck <| .ringFetch (.ringWrite h)

protected theorem Canonical.auditEnd (h : Canonical s) {a code} : Canonical (auditEnd s a code) :=
  .ite (.same <| .wr (.wr h)) <| .raise <| .same <| .wr (.wr h)

protected theorem Canonical.auditNote (h : Canonical s) {p k} : Canonical (auditNote s p k) := by
  unfold auditNote
  split
  · exact h
  · exact .ite h <| .ite (.auditEnd h) (.same h)

protected theorem Canonical.openBuffer (h : Canonical s) {p x} : Canonical (openBuffer s p x) :=
  .bumpWrap <| .foldl h fun hu => .openTile hu

protected theorem Canonical.freeDiscard (h : Canonical s) {x} : Canonical (freeDiscard s x) := by
  unfold freeDiscard
  split
  · exact .bump h
  · exact h

protected theorem Canonical.allocOne (h : Canonical s) {p first} : Canonical (allocOne s p first).2 := by
  refine .ite_snd (.pair <| .raise (.setFld h)) <| .ite_snd (.pair <| .openBuffer <| .auditNote <| .setFld <|
    .ite (.wr <| .wr (.ptrRead h)) <| .wr (.ptrRead h)) ?_
  split
  · exact .pair <| .openBuffer (.setSides h)
  · split
    · exact .pair <| .openBuffer (.setSides h)
    · exact .pair <| .raise (.setFld h)

protected theorem Canonical.freeOne (h : Canonical s) {p a} : Canonical (freeOne s p a) :=
  .ite (.freeDiscard h) <| .poolSettle <| .setFld <| .ite (.setSides h) <| .auditNote <| .setFld <| .wr <|
    .ite (.wr (.memPut h)) (.memPut h)

protected theorem Canonical.freeError (h : Canonical s) {a} : Canonical (freeError s a) :=
  .raise <| .wr (.bump h)

protected theorem Canonical.freeReq (h : Canonical s) {port op a} : Canonical (freeReq port op a s) := by
  unfold freeReq
  split
  · exact .freeError h
  · exact .same h

protected theorem Canonical.returnBufs (h : Canonical s) {port rets} : Canonical (returnBufs port rets s) :=
  .forEach h fun hu => .freeReq hu

protected theorem Canonical.applyFree (h : Canonical s) {p r} : Canonical (applyFree s p r) := by
  unfold applyFree
  split
  · exact .ite (.same (.same h)) h
  · split
    · exact .updOp <| .freeOne (.same h)
    · exact .freeOne (.same h)

/-! ## Spawn's operations -/

protected theorem Canonical.macCnt (h : Canonical s) {p k} : Canonical (macCnt s p k) := .bump h

protected theorem Canonical.sendPause (h : Canonical s) {p} : Canonical (sendPause p s) :=
  .ite h <| .macCnt (.emit h)

protected theorem Canonical.bpUpdate (h : Canonical s) : Canonical (bpUpdate s) :=
  have h1 : Canonical _ := .setFld <| .setFld (.spawn (.spawn h))
  .forEach (.ite (.raise h1) h1) fun hu => .sendPause hu

protected theorem Canonical.storeSet (h : Canonical s) {n} : Canonical (storeSet s n) :=
  have h1 : Canonical _ := .ite (.setFld (.setFld (.spawn h))) (.setFld (.spawn h))
  .ite (.raise h1) h1

theorem queuesWf_set {t : Tab (List Desc)} (h : queuesWf t) {q : Nat} (hq : q < 1024) (l : List Desc) :
    queuesWf (Tab.set [] t q l) := by
  refine ⟨Tab.wf_set _ _ _ _ h.1, fun e he => ?_⟩
  have hd : ∀ e ∈ Tab.del q t, e.1 < 1024 := fun e he => h.2 e ((Tab.mem_del t q e).1 he).1
  unfold Tab.set at he
  split at he
  · exact hd e he
  · rcases (Tab.mem_ins _ q l e).1 he with rfl | he
    · exact hq
    · exact hd e he

protected theorem Canonical.setQueue (h : Canonical s) {q} (hq : q < 1024) {l} : Canonical (setQueue s q l) := by
  have h1 {born} :
      Canonical { s with spawn := { s.spawn with queues := Tab.set [] s.spawn.queues q l, born := born } } :=
    ⟨h.csr, h.mem, h.scratch, h.code, queuesWf_set h.queues hq l, h.ports⟩
  exact .markHigh <| .setFld h1

protected theorem Canonical.startHold (h : Canonical s) {l n} : Canonical (startHold l n s) :=
  .same h

protected theorem Canonical.stamp (h : Canonical s) {d} : Canonical (stamp s d).2 :=
  .same <| .ite (.startHold h) h

protected theorem Canonical.letIn (h : Canonical s) {d} : Canonical (letIn s d) :=
  .bpUpdate <| .storeSet <| .setQueue (.spawn (.stamp h)) (Nat.mod_lt _ (by decide))

protected theorem Canonical.holdPush (h : Canonical s) {d} : Canonical (holdPush s d) :=
  .bpUpdate (.spawn h)

protected theorem Canonical.selectGroup (h : Canonical s) {c used r} (hr : selectGroup s c used = some r) :
    Canonical r.2 := by
  unfold selectGroup at hr
  dsimp only at hr
  split at hr
  · cases hr
  · obtain ⟨g, -, rfl⟩ := Option.map_eq_some_iff.1 hr
    exact .spawn <| .ite (.spawn h) h

/-- A group's queues are among those Spawn holds. -/
protected theorem Canonical.groupQueues_lt (h : Canonical s) {g q} (hq : q ∈ groupQueues s g) : q < 1024 := by
  obtain ⟨e, he, rfl⟩ := List.mem_map.1 hq
  exact h.queues.2 e (List.mem_filter.1 he).1

theorem firstAfter_mem {l : List Nat} {p q : Nat} (h : firstAfter l p = some q) : q ∈ l := by
  unfold firstAfter at h
  cases hf : l.find? (fun x => decide (p < x)) with
  | some x => rw [hf] at h; cases h; exact List.mem_of_find?_eq_some hf
  | none => rw [hf] at h; exact List.mem_of_head? h

protected theorem Canonical.grantOne (h : Canonical s) {c used r} (hr : grantOne s c used = some r) :
    Canonical r.2 := by
  unfold grantOne at hr
  split at hr
  · cases hr
  · split at hr
    · cases hr
    · split at hr
      · cases hr
      · next g s1 hg =>
        have h1 : Canonical s1 := h.selectGroup hg
        split at hr
        · cases hr
        · next q hq =>
          have hlt : q < 1024 := h1.groupQueues_lt (List.mem_filter.1 (firstAfter_mem hq)).1
          split at hr
          · cases hr
          · cases hr
            exact .bumpWrap <| .updTh <| .spawn (.setQueue h1 hlt)

protected theorem Canonical.grantVisit {l left used first} (h : Canonical s) :
    Canonical (grantVisit l left used first s).2 := by
  induction l generalizing s left used first with
  | nil => exact h
  | cons c cs ih =>
    unfold grantVisit
    split
    · exact h
    · split
      · exact ih h
      · next hg => exact ih (h.grantOne hg)

protected theorem Canonical.grantNclk (h : Canonical s) : Canonical (grantNclk s) := by
  unfold grantNclk
  dsimp only
  refine .bpUpdate ?_
  split
  · exact .spawn (.grantVisit h)
  · exact .grantVisit h

protected theorem Canonical.startPacket (h : Canonical s) {t k d} : Canonical (startPacket s t k d) :=
  .bpUpdate <| .storeSet (.updTh h)

protected theorem Canonical.returnDesc (h : Canonical s) {d} : Canonical (returnDesc d s) :=
  .setQueue (.spawn h) (Nat.mod_lt _ (by decide))

protected theorem Canonical.returnSlot (h : Canonical s) {t k} : Canonical (returnSlot t k s) := by
  unfold returnSlot
  split
  · exact h
  · split
    · exact .returnDesc (.updTh h)
    · exact .updTh h
    · exact h

protected theorem Canonical.returnSlots (h : Canonical s) {t} : Canonical (returnSlots t s) :=
  .bpUpdate <| .returnSlot (.returnSlot h)

protected theorem Canonical.takeNext (h : Canonical s) {t} : Canonical (takeNext s t) := by
  unfold takeNext
  dsimp only
  split
  · exact h
  · split
    · exact .startPacket h
    · split
      · exact .startPacket h
      · exact h

protected theorem Canonical.abortParking (h : Canonical s) {c} : Canonical (abortParking c s) :=
  .ite (.bump (.updClu h)) h

protected theorem Canonical.requestWake (h : Canonical s) {zero c} : Canonical (requestWake zero c s) :=
  .ite h <| .spawn <| .ite h (.abortParking h)

protected theorem Canonical.requestWakeCmd (h : Canonical s) {c} : Canonical (requestWakeCmd c s) :=
  .ite h (.requestWake h)

protected theorem Canonical.orphanCheck (h : Canonical s) : Canonical (orphanCheck s) :=
  .forEach (.spawn h) fun hu => .raise hu

protected theorem Canonical.cluPower (h : Canonical s) {c p} : Canonical (cluPower c p s) :=
  .updClu h

/-! ## Bridge's operations -/

protected theorem Canonical.setRec (h : Canonical s) {k r} : Canonical (setRec s k r) := .same h

protected theorem Canonical.setUsed (h : Canonical s) {n} : Canonical (setUsed s n) :=
  .ite (.raise <| .markHigh (.same h)) <| .markHigh (.same h)

protected theorem Canonical.setKids (h : Canonical s) {n} : Canonical (setKids s n) :=
  .markHigh (.same h)

protected theorem Canonical.refDone (h : Canonical s) {key port} : Canonical (refDone key port s) := by
  unfold refDone
  split
  · exact h
  · exact .ite (.returnBufs (.same h)) (.same h)

protected theorem Canonical.sealOpen (h : Canonical s) {data} : Canonical (sealOpen data s) :=
  .forEach h fun hu => .ite hu (.sealTile hu)

protected theorem Canonical.afterEnding (h : Canonical s) {t} : Canonical (afterEnding t s) :=
  .ite (.setTh h) <| .ite (.returnSlots <| .setTh (.setTh h)) <| .takeNext <| .setTh (.setTh h)

protected theorem Canonical.handOff (h : Canonical s) {t rel dest edit} : Canonical (handOff s t rel dest edit) := by
  unfold handOff
  dsimp only
  split
  · exact h
  · exact .ite (.afterEnding <| .updTh <| .same <| .ite (.sealOpen h) h) <| .updTh <| .same <| .ite (.sealOpen h) h

protected theorem Canonical.endPacket (h : Canonical s) {t rel dest edit} :
    Canonical (endPacket s t rel dest edit) :=
  .ite (.updTh h) <| .handOff <| .finishSeq (.updTh h)

protected theorem Canonical.settle (h : Canonical s) {t} : Canonical (settle t s) := by
  unfold settle
  split
  · exact .ite h (.endPacket h)
  · exact .settleWait h

protected theorem Canonical.complete (h : Canonical s) {o status v} : Canonical (complete o status v s) :=
  .settle (.deliver h)

protected theorem Canonical.endingKept (h : Canonical s) {key e} : Canonical (endingKept key e s) :=
  .ite (.storeSet h) <| .ite (.afterEnding h) h

protected theorem Canonical.recordEnding (h : Canonical s) {key e entry} : Canonical (recordEnding key e entry s) :=
  .endingKept <| .ite (.setUsed (.setRec h)) (.setRec h)

protected theorem Canonical.lateEnding (h : Canonical s) {key e} : Canonical (lateEnding key e s) :=
  .endingKept <| .returnBufs <| .raise <| .bump (.setRec h)

protected theorem Canonical.feedWaiting {n} (h : Canonical s) : Canonical (feedWaiting n s) := by
  induction n generalizing s with
  | zero => exact h
  | succ n ih =>
    unfold feedWaiting
    split
    · exact h
    · exact .ite h (ih <| .recordEnding (.same h))

protected theorem Canonical.endingArrives (h : Canonical s) {key e} : Canonical (endingArrives key e s) :=
  .ite (.feedWaiting (.lateEnding h)) <| .ite (.feedWaiting (.recordEnding h)) <| .ite (.recordEnding h) (.same h)

protected theorem Canonical.headChange (h : Canonical s) {l} : Canonical (headChange l s) := by
  unfold headChange
  dsimp only
  split
  · exact .recordEnding <| .same <| .ite (.same h) <| .startHold (.same h)
  · exact .ite (.same h) <| .startHold (.same h)

protected theorem Canonical.badDest (h : Canonical s) {key why child dest} :
    Canonical (badDest key why child dest s) :=
  .raise <| .wr (.bump h)

protected theorem Canonical.sendOff (h : Canonical s) {key child dest edit e} :
    Canonical (sendOff key child dest edit e s) := by
  unfold sendOff
  split
  · exact .refDone (.badDest h)
  · split
    · exact .refDone (.badDest h)
    · exact .ite (.bumpWrap (.same h)) (.same h)

protected theorem Canonical.retireOne (h : Canonical s) {l} : Canonical (retireOne l s).2 := by
  unfold retireOne
  extract_lets key r
  clear_value r
  split
  · exact h
  · extract_lets ref s0 s2 s1
    have h1 : Canonical s1 := by
      refine .ite (.ite (.sendOff <| .setRec (.same h)) <| .refDone <| .bumpWrap <| .setRec (.same h)) ?_
      split
      · exact .sendOff (.setRec h)
      · exact h
    exact .ite_snd h1 <| .feedWaiting <| .headChange <| .ite (.setUsed <| .setKids <| .setRec h1) <| .setKids (.setRec h1)

protected theorem Canonical.retireLane {l n} (h : Canonical s) : Canonical (retireLane l n s).2 := by
  induction n generalizing s with
  | zero => exact h
  | succ n ih =>
    unfold retireLane
    split
    · next hp => exact .snd hp (.retireOne h)
    · next hp => exact ih <| .snd hp (.retireOne h)

protected theorem Canonical.retireVisit {l left first} (h : Canonical s) :
    Canonical (retireVisit l left first s).2 := by
  induction l generalizing s left first with
  | nil => exact h
  | cons l ls ih => exact .ite_snd h (ih (.retireLane h))

protected theorem Canonical.retireNclk (h : Canonical s) : Canonical (retireNclk s) := by
  unfold retireNclk
  split
  · next hp => exact .same <| .snd hp (.retireVisit h)
  · next hp => exact .snd hp (.retireVisit h)

protected theorem Canonical.skipHead (h : Canonical s) {l} : Canonical (skipHead l s) :=
  .ite h <| .headChange <| .raise <| .wr <| .bump <| .setKids (.setRec h)

protected theorem Canonical.forkApply (h : Canonical s) {d dest edit} : Canonical (forkApply d dest edit s).2 :=
  have hr : Canonical (raise (bump s Reg.BRG_CNT_CHILD F.BRG_CNT_CHILD_refused) 500) := .raise (.bump h)
  .ite_snd (.pair hr) <| .ite_snd (.pair hr) <| .ite_snd (.pair hr) <| .pair <| .bumpWrap <| .setKids (.setRec h)

protected theorem Canonical.passPoint (h : Canonical s) {k l sq} : Canonical (passPoint k l sq s) :=
  .setRec h

protected theorem Canonical.brgClr (h : Canonical s) : Canonical (brgClr s) :=
  .setFld <| .setFld <| .setFld <| .foldl h fun hu => .wr hu

/-! ## Far atomics -/

protected theorem Canonical.memAtomic (h : Canonical s) {a fn opnd cmp} : Canonical (memAtomic s a fn opnd cmp).2 :=
  .memWrite h

protected theorem Canonical.entryError (h : Canonical s) {tile ecc} : Canonical (entryError s tile ecc) := by
  unfold entryError
  split
  · exact h
  · split
    · exact .ite (.memReadCheck h) (.same h)
    · exact .same h

protected theorem Canonical.tileRead (h : Canonical s) {tile ecc} : Canonical (tileRead s tile ecc).2 :=
  .memReadCheck (.entryError h)

protected theorem Canonical.denied (h : Canonical s) {agent cls a w} : Canonical (denied agent cls a w s) :=
  .raise <| .wr <| .wr (.bump h)

protected theorem Canonical.bwRefused (h : Canonical s) {agent cls} : Canonical (bwRefused agent cls s) :=
  .raise <| .wr (.bump h)

/-! ## Obrex Link's operations -/

protected theorem Canonical.setOlink (h : Canonical s) {l x} : Canonical (setOlink s l x) := .same h

protected theorem Canonical.updOlink (h : Canonical s) {l f} : Canonical (updOlink s l f) :=
  .setOlink h

protected theorem Canonical.lcnt (h : Canonical s) {l k n} : Canonical (lcnt s l k n) :=
  .ite (.bumpWrapBy h) (.bumpBy h)

protected theorem Canonical.setDom (h : Canonical s) {v slew} : Canonical (setDom s v slew) :=
  .same h

protected theorem Canonical.timeStat (h : Canonical s) : Canonical (timeStat s) :=
  .setFld (.setFld h)

protected theorem Canonical.sendFlit (h : Canonical s) {l f stamp} : Canonical (sendFlit l f stamp s) := by
  unfold sendFlit
  dsimp only
  split
  · exact .ite (.updOlink <| .lcnt (.emit h)) <| .updOlink <| .updOlink <| .lcnt (.emit h)
  · exact .updOlink <| .lcnt (.emit h)

protected theorem Canonical.sendSeq (h : Canonical s) {l f} : Canonical (sendSeq l f s) :=
  .sendFlit (.setOlink h)

protected theorem Canonical.pumpLink {n l} (h : Canonical s) : Canonical (pumpLink n l s) := by
  induction n generalizing s with
  | zero => exact h
  | succ n ih =>
    have hs {x f} : Canonical (pumpLink n l (sendSeq l f (setOlink s l x))) := ih <| .sendSeq (.setOlink h)
    have hn {x f k} : Canonical (pumpLink n l (lcnt (sendSeq l f (setOlink s l x)) l k 1)) :=
      ih <| .lcnt <| .sendSeq (.setOlink h)
    unfold pumpLink
    refine .ite h ?_
    split
    · split
      · split
        · exact hn
        · exact hs
      · split
        · exact .ite hn h
        · exact h
    · exact .ite hn h
    · exact h

protected theorem Canonical.pumpAll (h : Canonical s) : Canonical (pumpAll s) :=
  .forEach h fun hu => .pumpLink hu

protected theorem Canonical.freeTag (h : Canonical s) : Canonical (freeTag s).2 :=
  .ite_snd h (.draw h)

protected theorem Canonical.startTx (h : Canonical s) {l m} : Canonical (startTx l m s) :=
  .pumpLink (by split; exacts [.updOlink (.updOlink h), .updOlink h])

protected theorem Canonical.failReq (h : Canonical s) {op agent} : Canonical (failReq op agent s) := by
  unfold failReq
  split
  · exact .ite (.same h) h
  · split
    · exact .complete h
    · exact h

protected theorem Canonical.offerTx (h : Canonical s) {m} : Canonical (offerTx m s).2 := by
  refine .ite_snd (.pair (.failReq h)) <| .ite_snd (.pair h) ?_
  split
  · exact h
  · refine .ite_snd ?_ (.pair (.startTx h))
    split
    · next hp => exact .snd hp (.freeTag h)
    · next hp => exact .startTx <| .same <| .snd hp (.freeTag h)

protected theorem Canonical.offerAll {l kept} (h : Canonical s) : Canonical (offerAll l kept s) := by
  induction l generalizing s kept with
  | nil => exact .same h
  | cons m r ih =>
    unfold offerAll
    refine .ite (ih h) ?_
    split
    · next hp => exact ih <| .snd hp (.offerTx h)
    · next hp => exact ih <| .snd hp (.offerTx h)

protected theorem Canonical.obxPump (h : Canonical s) : Canonical (obxPump s) :=
  .pumpAll <| .offerAll (.same h)

protected theorem Canonical.setMember (h : Canonical s) {d b} : Canonical (setMember s d b) := .wr h

protected theorem Canonical.remoteSend (h : Canonical s) {t id d typ size off data} :
    Canonical (remoteSend s t id d typ size off data) := by
  unfold remoteSend
  split
  · exact h
  · exact .sendObx h

protected theorem Canonical.respond (h : Canonical s) {vc dst agent tag status data} :
    Canonical (respond s vc dst agent tag status data) :=
  .sendObx h

protected theorem Canonical.freeRx (h : Canonical s) {r} : Canonical (freeRx r s) := .updOlink h

protected theorem Canonical.takeRx (h : Canonical s) {l typ r} (hr : takeRx s l typ = some r) : Canonical r.2 := by
  unfold takeRx at hr
  split at hr
  · cases hr
  · cases hr
    exact .freeRx (.same h)

protected theorem Canonical.cntNonmember (h : Canonical s) : Canonical (cntNonmember s) := .bump h

protected theorem Canonical.remoteTarget (h : Canonical s) {r n rd_ wr_} :
    Canonical (remoteTarget s r n rd_ wr_).2 := by
  unfold remoteTarget
  split
  · exact h
  · exact .ite_snd h <| .ite_snd (.denied h) h

protected theorem Canonical.dropReq (h : Canonical s) {k} : Canonical (dropReq s k) := .same h

protected theorem Canonical.engineResp (h : Canonical s) {r status data} : Canonical (engineResp r status data s) :=
  .ite (.ite (.same h) (.bump h)) <| .ite (.raise (.setSync h)) h

protected theorem Canonical.takeResp (h : Canonical s) {k status data} : Canonical (takeResp s k status data) := by
  unfold takeResp
  dsimp only
  split
  · exact .bump h
  · split
    · exact .ite (.bump (.dropReq h)) <| .engineResp (.dropReq h)
    · split
      · exact .bump (.dropReq h)
      · exact .complete <| .ite (.bump (.dropReq h)) (.dropReq h)

protected theorem Canonical.muteStat (h : Canonical s) : Canonical (muteStat s) :=
  .setFld <| .markHigh (.setFld h)

protected theorem Canonical.muteEnter (h : Canonical s) {n} : Canonical (muteEnter n s) := by
  unfold muteEnter
  split
  · exact .raise <| .muteStat <| .wr (.same h)
  · exact .raise <| .muteStat (.same h)

protected theorem Canonical.muteEnd (h : Canonical s) {k} : Canonical (muteEnd k s) := by
  unfold muteEnd
  dsimp only
  split
  · exact .muteEnter <| .same <| .wr (.same h)
  · exact .muteStat <| .wr (.same h)

protected theorem Canonical.deviceLeaves (h : Canonical s) {x} : Canonical (deviceLeaves x s) :=
  have h1 : Canonical _ := .holderReset (.raise (.setMember h))
  .muteStat <| .forEach (.same <| .forEach (.same <| .ite (.forEach h1 fun hu => .updTh hu) h1) fun hu => .failReq
    (.same hu)) fun hu => .muteEnd hu

protected theorem Canonical.sendMember (h : Canonical s) {l} : Canonical (sendMember s l) :=
  .sendObx h

protected theorem Canonical.linkQuiet (h : Canonical s) {l} : Canonical (linkQuiet l s) :=
  .setOlink (.bumpBy h)

protected theorem Canonical.setLinkState (h : Canonical s) {l st} : Canonical (setLinkState l st s) :=
  have h1 : Canonical _ := .linkQuiet (.raise (.setFld h))
  .ite (.setFld h) <| .ite (.timeStat <| .sendMember (.raise (.setFld h))) <| .ite (.timeStat <|
    .ite (.raise <| .setFld <| .forEach h1 fun hu => .deviceLeaves hu) h1) (.timeStat (.setFld h))

protected theorem Canonical.linkClear (h : Canonical s) {l} : Canonical (linkClear l s) :=
  .setOlink <| .same (.bumpBy h)

protected theorem Canonical.linkHalfReset (h : Canonical s) {l reason} : Canonical (linkHalfReset l reason s) :=
  .setLinkState <| .halfFlush <| .linkClear <| .setFld (.setFld h)

protected theorem Canonical.settleLink (h : Canonical s) {l} : Canonical (settleLink l s) :=
  .ite (.setLinkState h) <| .ite (.setLinkState h) h

protected theorem Canonical.settleLinks (h : Canonical s) : Canonical (settleLinks s) :=
  .forEach h fun hu => .settleLink hu

protected theorem Canonical.queueNotice (h : Canonical s) {n l} : Canonical (queueNotice n l s) :=
  .ite (.raise (.bump h)) (.updOlink h)

protected theorem Canonical.flood (h : Canonical s) {n from_} : Canonical (flood n from_ s) :=
  .forEach h fun hu => .queueNotice hu

protected theorem Canonical.recordPair (h : Canonical s) {o i} : Canonical (recordPair o i s) :=
  .same h

protected theorem Canonical.unmute (h : Canonical s) {n} : Canonical (unmute n s) := by
  unfold unmute
  dsimp only
  split
  · exact .muteEnd h
  · exact .ite (.muteStat (.same h)) (.recordPair h)

protected theorem Canonical.muteAccept (h : Canonical s) {n} : Canonical (muteAccept n s) :=
  .muteEnter (.same h)

protected theorem Canonical.applyNotice (h : Canonical s) {n} : Canonical (applyNotice n s) := by
  unfold applyNotice
  split
  · exact .muteAccept h
  · exact .unmute h
  · exact .deviceLeaves h
  · exact .same <| .raise (.setMember h)
  · exact h

protected theorem Canonical.takeNotice (h : Canonical s) {n l} : Canonical (takeNotice n l s) :=
  .ite h <| .ite (.flood <| .applyNotice (.recordPair h)) <| .applyNotice (.recordPair h)

protected theorem Canonical.originate (h : Canonical s) {w} : Canonical (originate w s) :=
  .flood <| .applyNotice <| .recordPair <| .setFld (.same h)

protected theorem Canonical.sendNak (h : Canonical s) {l} : Canonical (sendNak l s) := by
  unfold sendNak
  exact .updOlink <| .lcnt (.sendFlit h)

protected theorem Canonical.flitControl (h : Canonical s) {l b} : Canonical (flitControl l b s) :=
  .timeStat (.setOlink h)

protected theorem Canonical.resendFrom (h : Canonical s) {l e} : Canonical (resendFrom l e s) :=
  .forEach h fun hu => .sendFlit hu

protected theorem Canonical.replay (h : Canonical s) {l e} : Canonical (replay l e s) :=
  .ite h <| .ite (.linkHalfReset <| .updOlink (.lcnt h)) <| .resendFrom <| .updOlink (.lcnt h)

protected theorem Canonical.rxWhole (h : Canonical s) {l vc flits at_ stomp bytes} :
    Canonical (rxWhole l vc flits at_ stomp bytes s) :=
  .ite (.same h) <| .ite (.cntNonmember (.freeRx h)) (.sendObx h)

protected theorem Canonical.rxPayload (h : Canonical s) {l b} : Canonical (rxPayload l b s) :=
  .ite (.rxWhole (.setOlink h)) (.setOlink h)

protected theorem Canonical.flitArrives (h : Canonical s) {l b} : Canonical (flitArrives l b s) := by
  unfold flitArrives
  dsimp only
  split
  · exact .sendNak <| .lcnt (.lcnt h)
  · split
    · exact .flitControl (.lcnt h)
    · exact .replay <| .flitControl (.lcnt h)
    · exact
        have h1 : Canonical _ := .setOlink (.flitControl (.lcnt h))
        have h2 : Canonical _ := .ite h1 (.same h1)
        .ite (.ite (.flitControl (.lcnt h)) <| .sendNak (.flitControl (.lcnt h))) <| .ite (.rxPayload h2) h2

/-! ## Far loads, stores and atomics of the Newt core -/

protected theorem CanonicalSome.farTrap (h : Canonical s) {t w k word ea n} :
    CanonicalSome (farTrap s t w k word ea n) :=
  .ite (.some <| .trapAddr h) <| .ite (.some <| .trapPrivAddr h) <| .ite (.some <| .trapAlign h) <|
    .ite (.some <| .trapProt <| .denied h) <| .ite (.some <| .trapTokBusy h) .none

protected theorem Canonical.farCommit (h : Canonical s) {t w ea k} : Canonical (farCommit s t w ea k) := by
  unfold farCommit
  split
  · exact .ite (.finishSeq (.commitOp h)) <| .obxPump <| .finishSeq <| .remoteSend (.commitOp h)
  · exact .finishSeq (.commitOp h)

protected theorem Canonical.farOp (h : Canonical s) {t w undef acc k word n mk} (hmk : ∀
    {ea u}, Canonical u → Canonical (mk ea u).2) : Canonical (farOp t w undef acc k word n mk s) := by
  refine .issue h fun hu => ?_
  dsimp only
  split
  · next ht => exact .get (.farTrap (.readG hu)) ht
  · exact .farCommit <| hmk (.readG hu)

protected theorem Canonical.farLoad (h : Canonical s) {t w n signed} : Canonical (farLoad t w n signed s) :=
  .farOp h fun hu => hu

protected theorem CanonicalOut.execLdf (h : Canonical s) {t w} : CanonicalOut (execLdf t w s) :=
  .newt h fun hu => .farLoad hu

protected theorem CanonicalOut.execLdfs (h : Canonical s) {t w} : CanonicalOut (execLdfs t w s) :=
  .newt h fun hu => .farLoad hu

protected theorem Canonical.farStore (h : Canonical s) {t w} : Canonical (farStore t w s) := by
  unfold farStore
  exact .farOp h fun hu => .readG hu

protected theorem CanonicalOut.execStf (h : Canonical s) {t w} : CanonicalOut (execStf t w s) :=
  .newt h fun hu => .farStore hu

protected theorem Canonical.farAtom (h : Canonical s) {t w fn} : Canonical (farAtom t w fn s) :=
  .farOp h fun hu => .ite_snd (.readG (.readG hu)) (.readG hu)

protected theorem CanonicalOut.execAfadd (h : Canonical s) {t w} : CanonicalOut (execAfadd t w s) :=
  .newt h fun hu => .farAtom hu

protected theorem CanonicalOut.execAfswp (h : Canonical s) {t w} : CanonicalOut (execAfswp t w s) :=
  .newt h fun hu => .farAtom hu

protected theorem CanonicalOut.execAfcas (h : Canonical s) {t w} : CanonicalOut (execAfcas t w s) :=
  .newt h fun hu => .farAtom hu

/-! ## Placement of a received frame in buffers of its ingress pool, chains, parsing and the descriptor -/

protected theorem Canonical.placeData {l size bs} (h : Canonical s) : Canonical (placeData l size bs s) := by
  induction l generalizing s bs with
  | nil => exact h
  | cons b r ih => exact ih <| .forEach (.memWrite h) fun hu => .sealTile hu

protected theorem Canonical.placeLink (h : Canonical s) {link pool data next} :
    Canonical (placeLink link pool data next s) :=
  .sealTile (.memWrite h)

protected theorem Canonical.placeFrame (h : Canonical s) {g} : Canonical (placeFrame g s).2.2 :=
  .ite_snd_snd (.placeData h) (by
    split
    · exact .placeLink (.placeData h)
    · exact .placeLink <| .placeLink (.placeData h))

protected theorem Canonical.placeReady (h : Canonical s) {g} : Canonical (placeReady g s) :=
  .ite h <| .holdPush <| .placeFrame (.same h)

protected theorem Canonical.ingressTake (h : Canonical s) {p port first} : Canonical (ingressTake p port first s) := by
  unfold ingressTake
  split
  · exact h
  · split
    · next hp => exact .snd hp (.allocOne h)
    · next hp => exact .placeReady <| .same <| .snd hp (.allocOne h)

protected theorem Canonical.ingress (h : Canonical s) {g} : Canonical (ingress g s) := .same h

/-! ## Lyre's operations -/

protected theorem Canonical.setSlots (h : Canonical s) {c l} : Canonical (setSlots s c l) :=
  .setFld (.updClu h)

protected theorem Canonical.lyrStore (h : Canonical s) {c a l} : Canonical (lyrStore s c a l) :=
  .ite ⟨h.csr, h.mem, wf_wrBytes _ _ _ h.scratch, h.code, h.queues, h.ports⟩ (.memWrite h)

protected theorem Canonical.saveSlot (h : Canonical s) {c x} : Canonical (saveSlot c x s) :=
  .bump (.lyrStore h)

protected theorem Canonical.takeSlot (h : Canonical s) {t save} : Canonical (takeSlot s t save) := by
  unfold takeSlot
  dsimp only
  split
  · exact .setSlots h
  · split
    · exact .bump <| .setSlots (.choose h)
    · split
      · exact .bump <| .setSlots <| .setSlots (.saveSlot h)
      · exact h

protected theorem Canonical.setCtx (h : Canonical s) {t x} : Canonical (setCtx t x s) := .setSlots h

protected theorem Canonical.lyrThreadReset (h : Canonical s) {t} : Canonical (lyrThreadReset t s) := by
  unfold lyrThreadReset
  exact .updClu (.setSlots h)

protected theorem Canonical.leaveCtx (h : Canonical s) {o x} : Canonical (leaveCtx o x s) := by
  unfold leaveCtx
  split
  · exact .setCtx h
  · exact .updClu h

protected theorem Canonical.lyrNearByte (h : Canonical s) {t a} : Canonical (lyrNearByte s t a).2 := by
  unfold lyrNearByte
  dsimp only
  split
  · exact h
  · exact .choose h

protected theorem Canonical.lyrNear {t a n} (h : Canonical s) : Canonical (lyrNear s t a n).2 := by
  induction n generalizing s a with
  | zero => exact h
  | succ n ih => exact ih (.lyrNearByte h)

protected theorem Canonical.lyrFetch (h : Canonical s) {t a n} : Canonical (lyrFetch s t a n).2 :=
  .ite_snd (.lyrNear h) h

protected theorem Canonical.mixBytes {l k} (h : Canonical s) : Canonical (mixBytes l k s).2 := by
  induction l generalizing s k with
  | nil => exact h
  | cons a as ih =>
    cases k with
    | nil => exact h
    | cons b bs =>
      unfold mixBytes
      dsimp only
      exact .ite_snd (.pair (ih h)) (.pair <| ih (.choose h))

protected theorem Canonical.mixUnit (h : Canonical s) {old new ats} : Canonical (mixUnit old new ats s).2 :=
  .ite_snd (.choose h) <| .foldl_snd h fun hu => .choose hu

protected theorem Canonical.mixUnits {ats n a old new} (h : Canonical s) :
    Canonical (mixUnits ats n a old new s).2 := by
  induction n generalizing s a old new with
  | zero => exact h
  | succ n ih => exact .ite_snd (.pair h) (.pair <| ih <| .ite_snd (.mixBytes h) (.mixUnit h))

protected theorem Canonical.mixOperand (h : Canonical s) {ats a old new} :
    Canonical (mixOperand ats a old new s).2 :=
  .ite_snd (.mixUnits h) (.mixBytes h)

protected theorem Canonical.lyrWriteOut (h : Canonical s) {t a l} : Canonical (lyrWriteOut t a l s) :=
  .ite (.lyrStore h) <| .forEach (.lyrStore h) fun hu => .writeTile hu

protected theorem Canonical.lyrPoison (h : Canonical s) {o out} : Canonical (lyrPoison o out s) :=
  .raise <| .setFld <| .bump <| .ite (.mixBytes h) <| .lyrWriteOut (.mixBytes h)

protected theorem Canonical.lyrOperands (h : Canonical s) {o} : Canonical (lyrOperands o s).2 := by
  have hget {b : Bool} {ats a k u l} (hu : Canonical u) :
      Canonical (if b then mixOperand ats a k l u else (([] : List Byte), u)).2 := .ite_snd (.mixOperand hu) hu
  unfold lyrOperands
  dsimp only
  split
  · exact h
  · exact hget (hget (hget h))

protected theorem Canonical.operandError (h : Canonical s) {o ecc u} (hu : operandError o ecc s = some u) :
    Canonical u := by
  unfold operandError at hu
  extract_lets reads tiles s1 bad at hu
  clear_value bad tiles reads
  have h1 : Canonical s1 := by
    unfold s1
    split
    · exact .entryError h
    · exact h
  clear_value s1
  split at hu
  · cases hu
    exact .tileFail (.choose h1)
  · split at hu
    · cases hu
      exact .mcError (.choose h1)
    · split at hu
      · cases hu
        exact h1
      · split at hu
        · cases hu
          split
          · exact .tileFail (.choose h1)
          · exact .mcError h1
          · exact h1
        · cases hu

protected theorem Canonical.lyrFinish (h : Canonical s) {o late ecc} : Canonical (lyrFinish o late ecc s).2.2 := by
  have h2 : Canonical (draw (lyrOperands o s).2).2 := .draw (.lyrOperands h)
  refine .ite_snd_snd h <| .ite_snd_snd h2 ?_
  dsimp only
  split
  · next hu => exact .lyrPoison (.operandError h2 hu)
  · exact .leaveCtx <| .ite_snd (.choose <| .ite h2 (.lyrWriteOut h2)) (.pair <| .ite h2 (.lyrWriteOut h2))

/-! ## Waits, branches, repeat prefixes, DOZE, EXIT, TRAP and ERET of the Newt core -/

protected theorem CanonicalOut.execWaitc (h : Canonical s) {t w} : CanonicalOut (execWaitc t w s) :=
  .newt h fun hu => .issue hu fun h1 => .settleWait (.updTh h1)

protected theorem CanonicalOut.execFence (h : Canonical s) {t w} : CanonicalOut (execFence t w s) :=
  .newt h fun hu => .issue hu fun h1 => .settleWait (.updTh h1)

protected theorem CanonicalOut.execBr (h : Canonical s) {t w} : CanonicalOut (execBr t w s) :=
  .newt h fun hu => .issue hu fun h1 => .ite (.finish h1) (.trapPcRange h1)

protected theorem CanonicalOut.execCall (h : Canonical s) {t w} : CanonicalOut (execCall t w s) :=
  .newt h fun hu => .issue hu fun h1 => .ite (.finish (.writeG h1)) (.trapPcRange h1)

protected theorem CanonicalOut.execJmpr (h : Canonical s) {t w} : CanonicalOut (execJmpr t w s) :=
  .newt h fun hu => .issue hu fun h1 => .ite (.finish <| .writeG (.readG h1)) <| .trapPcRange (.readG h1)

protected theorem Canonical.repStart (h : Canonical s) {t noInt n} : Canonical (repStart s t noInt n) :=
  .updTh h

protected theorem Canonical.repCount (h : Canonical s) {t w} : Canonical (repCount t w s).2 :=
  .ite_snd (.readG h) h

protected theorem Canonical.repPrefix (h : Canonical s) {t w noInt most} : Canonical (repPrefix t w noInt most s) :=
  .issue h fun hu => .repStart (.repCount hu)

protected theorem CanonicalOut.execRepi (h : Canonical s) {t w} : CanonicalOut (execRepi t w s) :=
  .newt h fun hu => .repPrefix hu

protected theorem CanonicalOut.execRepn (h : Canonical s) {t w} : CanonicalOut (execRepn t w s) :=
  .newt h fun hu => .repPrefix hu

protected theorem CanonicalOut.execDoze (h : Canonical s) {t w} : CanonicalOut (execDoze t w s) :=
  .newt h fun hu => .issue hu fun h1 => .ite (.finishSeq <| .writeG <| .updTh (.readG h1)) <| .updTh (.readG h1)

protected theorem CanonicalOut.execExit (h : Canonical s) {t w} : CanonicalOut (execExit t w s) :=
  .newt h fun hu => .issue hu fun h1 => .ite (.trapAt h1) <| .takeNext <| .updTh (.finishSeq h1)

protected theorem CanonicalOut.execTrap (h : Canonical s) {t w} : CanonicalOut (execTrap t w s) :=
  .newt h fun hu => .issue hu fun h1 => .trapEnter h1

protected theorem Canonical.eretGo (h : Canonical s) {t tstat tepc trep} : Canonical (eretGo s t tstat tepc trep) := by
  unfold eretGo
  exact .updTh (.finishSeq h)

protected theorem CanonicalOut.execEret (h : Canonical s) {t w} : CanonicalOut (execEret t w s) :=
  .newt h fun hu => .issue hu fun h1 => .ite (.eretGo <| .readCsr (.readCsr (.readCsr h1))) <| .trapPcRange <|
    .readCsr (.readCsr (.readCsr h1))

protected theorem Canonical.setTint (h : Canonical s) {t f} : Canonical (setTint t f s) := .updTh h

protected theorem CanonicalOut.execInterruptEntry (h : Canonical s) {t} : CanonicalOut (execInterruptEntry t s) := by
  unfold execInterruptEntry
  dsimp only
  split
  · exact .refused
  · split
    · exact .next h
    · split
      · exact .next h
      · exact .next <| .enterHandler (.choose h)

protected theorem CanonicalOut.execTtimerExpiry (h : Canonical s) {t} : CanonicalOut (execTtimerExpiry t s) :=
  .ite .refused <| .ite (.next h) <| .next <| .setTint (.updTh h)

protected theorem CanonicalOut.execDozeTimeout (h : Canonical s) {t} : CanonicalOut (execDozeTimeout t s) := by
  unfold execDozeTimeout
  split
  · exact .refused
  · split
    · exact .next <| .ite h (.dozeEnd h)
    · exact .next h

protected theorem CanonicalOut.execPcRangeFetch (h : Canonical s) {t} : CanonicalOut (execPcRangeFetch t s) :=
  .ite .refused <| .ite (.next (.trapAt h)) (.next h)

/-! ## Commands to threads -/

protected theorem Canonical.badCmd (h : Canonical s) {t} : Canonical (badCmd t s) := .updTh h

protected theorem Canonical.killBegin (h : Canonical s) {t} : Canonical (killBegin t s) :=
  .ite h <| .updTh <| .obxPump <| .threadHolderReset <| .same <| .returnSlots <| .ite (.updTh <|
    .handOff (.setTh (.squashed h))) (.setTh (.squashed h))

protected theorem Canonical.threadReset (h : Canonical s) {zero t} : Canonical (threadReset zero t s) :=
  .setTh <| .lyrThreadReset <| .obxPump (.threadHolderReset h)

protected theorem Canonical.resetTogether (h : Canonical s) {l} : Canonical (resetTogether l s) :=
  .ite (.forEach h fun hu => .threadReset hu) h

protected theorem Canonical.clustat (h : Canonical s) {c v} : Canonical (clustat c v s) := .wr h

protected theorem Canonical.coresReset (h : Canonical s) {c} : Canonical (coresReset c s) :=
  .forEach h fun hu => .updCore hu

protected theorem Canonical.cluTryAssert (h : Canonical s) {c} : Canonical (cluTryAssert c s) :=
  .ite (.forEach (.clustat <| .bump <| .coresReset <| .updClu <| .setFld (.setSlots h)) fun hu => .threadReset hu) h

protected theorem Canonical.cluRelease (h : Canonical s) {c} : Canonical (cluRelease c s) :=
  have h1 : Canonical _ := .forEach (.clustat <| .coresReset (.setClu h)) fun hu => .threadReset hu
  .ite (.ite (.raise h1) h1) h

protected theorem Canonical.afterKill (h : Canonical s) {t} : Canonical (afterKill t s) := by
  unfold afterKill
  split
  · exact .threadReset h
  · exact .resetTogether h
  · exact .cluTryAssert h
  · exact h

protected theorem Canonical.killFinish (h : Canonical s) {t} : Canonical (killFinish t s) :=
  .ite (.afterKill (.updTh h)) h

protected theorem Canonical.killGroup (h : Canonical s) {k l} : Canonical (killGroup k l s) :=
  .forEach h fun hu => .ite (.setTh hu) <| .killBegin (.setTh hu)

protected theorem Canonical.coreGroupReset (h : Canonical s) {l} : Canonical (coreGroupReset l s) :=
  .resetTogether (.killGroup h)

protected theorem Canonical.cluKillAll (h : Canonical s) {c} : Canonical (cluKillAll c s) :=
  .cluTryAssert <| .forEach (.killGroup h) fun hu => .killFinish hu

protected theorem Canonical.cluResetBegin (h : Canonical s) {c} : Canonical (cluResetBegin c s) :=
  .ite h <| .ite (.cluKillAll (.setClu h)) <| .requestWake (.setClu h)

protected theorem Canonical.cluWoken (h : Canonical s) {c} : Canonical (cluWoken c s) :=
  .ite (.cluKillAll h) (.cluRelease h)

protected theorem Canonical.cmdKill (h : Canonical s) {t} : Canonical (cmdKill t s) :=
  .ite (.badCmd h) (.killBegin h)

protected theorem Canonical.cmdRestart (h : Canonical s) {t} : Canonical (cmdRestart t s) := by
  unfold cmdRestart
  dsimp only
  split
  · exact .ite (.threadReset h) <| .requestWakeCmd (.threadReset h)
  · exact .ite (.killBegin (.setTh h)) <| .requestWakeCmd <| .killBegin (.setTh h)
  · exact .ite (.killBegin (.setTh h)) <| .requestWakeCmd <| .killBegin (.setTh h)
  · exact .badCmd h

protected theorem Canonical.cmdService (h : Canonical s) {t pc priv} : Canonical (cmdService t pc priv s) :=
  .ite (.badCmd h) <| .ite (.setTh h) <| .requestWakeCmd (.setTh h)

protected theorem Canonical.cmdSoftint (h : Canonical s) {t} : Canonical (cmdSoftint t s) :=
  .ite (.badCmd h) (.setTint h)

protected theorem Canonical.cmdHalt (h : Canonical s) {t} : Canonical (cmdHalt t s) :=
  .ite (.badCmd h) (.setTh h)

protected theorem Canonical.cmdResume (h : Canonical s) {t} : Canonical (cmdResume t s) :=
  .ite (.badCmd h) <| .takeNext (.setTh h)

protected theorem Canonical.cmdWake (h : Canonical s) {t} : Canonical (cmdWake t s) :=
  .ite (.badCmd h) (.wakeThread h)

protected theorem Canonical.haltFinish (h : Canonical s) {t} : Canonical (haltFinish t s) :=
  .ite h <| .ite (.setTh h) <| .returnSlots (.setTh h)

protected theorem Canonical.thCommand (h : Canonical s) {t v} : Canonical (thCommand t v s) := by
  unfold thCommand
  split
  · exact .cmdKill h
  · exact .cmdRestart h
  · exact .cmdService h
  · exact .cmdSoftint h
  · exact .cmdHalt h
  · exact .cmdResume h
  · exact .cmdWake h
  · exact h

protected theorem Canonical.coreReset (h : Canonical s) {c v} : Canonical (coreReset c v s) :=
  .forEach h fun hu => .coreGroupReset hu

protected theorem Canonical.cluCtlClr (h : Canonical s) {c} : Canonical (cluCtlClr c s) :=
  .foldl h fun hu => .wr hu

protected theorem CanonicalOut.onThread (h : Canonical s) {t f} (hf : ∀ {u}, Canonical u → Canonical (f u)) :
    CanonicalOut (onThread t f s) :=
  .ite (.next <| hf h) .refused

protected theorem CanonicalOut.onCluster (h : Canonical s) {c f} (hf : ∀ {u}, Canonical u → Canonical (f u)) :
    CanonicalOut (onCluster c f s) :=
  .ite (.next <| hf h) .refused

protected theorem CanonicalOut.execKill (h : Canonical s) {t} : CanonicalOut (execKill t s) :=
  .onThread h fun hu => .cmdKill hu

protected theorem CanonicalOut.execKillComplete (h : Canonical s) {t} : CanonicalOut (execKillComplete t s) :=
  .onThread h fun hu => .killFinish hu

protected theorem CanonicalOut.execRestart (h : Canonical s) {t} : CanonicalOut (execRestart t s) :=
  .onThread h fun hu => .cmdRestart hu

protected theorem CanonicalOut.execService (h : Canonical s) {t pc priv} : CanonicalOut (execService t pc priv s) :=
  .ite (.next (.cmdService h)) .refused

protected theorem CanonicalOut.execSoftint (h : Canonical s) {t} : CanonicalOut (execSoftint t s) :=
  .onThread h fun hu => .cmdSoftint hu

protected theorem CanonicalOut.execHalt (h : Canonical s) {t} : CanonicalOut (execHalt t s) :=
  .onThread h fun hu => .cmdHalt hu

protected theorem CanonicalOut.execThreadHalted (h : Canonical s) {t} : CanonicalOut (execThreadHalted t s) :=
  .onThread h fun hu => .haltFinish hu

protected theorem CanonicalOut.execResume (h : Canonical s) {t} : CanonicalOut (execResume t s) :=
  .onThread h fun hu => .cmdResume hu

protected theorem CanonicalOut.execWake (h : Canonical s) {t} : CanonicalOut (execWake t s) :=
  .onThread h fun hu => .cmdWake hu

protected theorem CanonicalOut.execCoreReset (h : Canonical s) {c v} : CanonicalOut (execCoreReset c v s) :=
  .onCluster h fun hu => .coreReset hu

protected theorem CanonicalOut.execCluCtlClr (h : Canonical s) {c} : CanonicalOut (execCluCtlClr c s) :=
  .onCluster h fun hu => .cluCtlClr hu

/-! ## Spawn's rows -/

protected theorem CanonicalOut.execDescriptorAdmit (h : Canonical s) {u} : CanonicalOut (execDescriptorAdmit u s) := by
  unfold execDescriptorAdmit
  split
  · exact .next <| .ite (.letIn h) h
  · exact .next h

protected theorem CanonicalOut.execSlotGrant (h : Canonical s) : CanonicalOut (execSlotGrant s) :=
  .next (.grantNclk h)

protected theorem Canonical.spawnDrop (h : Canonical s) {d} : Canonical (spawnDrop d s) := .same h

protected theorem Canonical.writeSlot (h : Canonical s) {t k l} : Canonical (writeSlot t k l s) :=
  .same h

protected theorem Canonical.afterFill (h : Canonical s) {t k back} : Canonical (afterFill t k back s) :=
  .ite (.bpUpdate (.returnSlot h)) <| .ite h (.takeNext h)

protected theorem Canonical.fillSlot (h : Canonical s) {t k back d frame} :
    Canonical (fillSlot t k back d frame s) :=
  .afterFill <| .updTh (.writeSlot h)

protected theorem CanonicalOut.execSlotFillComplete (h : Canonical s) {t k ecc} :
    CanonicalOut (execSlotFillComplete t k ecc s) := by
  unfold execSlotFillComplete
  split
  · exact .refused
  · split
    · exact
        have h2 : Canonical _ := .raise <| .bump <| .tileFail (.tileRead h)
        .ite (.next h) <| .ite (.ite (.next (.fillSlot h2)) <| .next <| .bpUpdate (.spawnDrop (.updTh h2))) <|
          .next <| .fillSlot (.tileRead h)
    · exact .next h

protected theorem Canonical.scanGroup (h : Canonical s) {g} : Canonical (scanGroup g s) := by
  refine .ite h ?_
  split
  · exact h
  · exact .forEach (.requestWake h) fun hu => .requestWake hu

protected theorem CanonicalOut.execWakeRequestScan (h : Canonical s) : CanonicalOut (execWakeRequestScan s) :=
  .next <| .ite h <| .forEach h fun hu => .scanGroup hu

protected theorem Canonical.startWake (h : Canonical s) {c} : Canonical (startWake c s) :=
  .bump <| .bump <| .spawn <| .setClu (.abortParking h)

protected theorem CanonicalOut.execWakeStart (h : Canonical s) : CanonicalOut (execWakeStart s) := by
  unfold execWakeStart
  dsimp only
  split
  · exact .next h
  · exact .next <| .ite (.startWake h) h

protected theorem CanonicalOut.execWakePaced (h : Canonical s) {c} : CanonicalOut (execWakePaced c s) :=
  .onCluster h fun hu => .ite (.raise <| .bump (.spawn hu)) hu

protected theorem CanonicalOut.execClusterGate (h : Canonical s) {c} : CanonicalOut (execClusterGate c s) :=
  .onCluster h fun hu => .ite hu <| .ite (.cluPower hu) <| .ite (.bump (.cluPower hu)) hu

protected theorem CanonicalOut.execClusterParkDecision (h : Canonical s) {c} :
    CanonicalOut (execClusterParkDecision c s) :=
  .onCluster h fun hu => .ite hu <| .ite (.cluPower hu) hu

protected theorem Canonical.parkDone (h : Canonical s) {c} : Canonical (parkDone c s) :=
  .bump <| .cluPower <| .setSlots <| .forEach h fun hu => .saveSlot hu

protected theorem CanonicalOut.execParkingComplete (h : Canonical s) {c} : CanonicalOut (execParkingComplete c s) :=
  .onCluster h fun hu => .ite (.parkDone hu) hu

protected theorem Canonical.parkAtOnce (h : Canonical s) {c} : Canonical (parkAtOnce c s) :=
  .ite (.cluPower h) h

protected theorem Canonical.pwrctlWrite (h : Canonical s) {c v} : Canonical (pwrctlWrite c v s) :=
  .ite h (have h1 : Canonical _ := .parkAtOnce <| .orphanCheck (.setFld h); .ite (.requestWakeCmd h1) h1)

protected theorem CanonicalOut.execCluPwrctlWrite (h : Canonical s) {c v} :
    CanonicalOut (execCluPwrctlWrite c v s) :=
  .onCluster h fun hu => .pwrctlWrite hu

protected theorem Canonical.spnClr (h : Canonical s) : Canonical (spnClr s) :=
  .setFld <| .forEach (.forEach (.wr (.wr h)) fun hu => .wr hu) fun hu => .setFld hu

protected theorem CanonicalOut.execSpnCtlClr (h : Canonical s) : CanonicalOut (execSpnCtlClr s) :=
  .next (.spnClr h)

/-! ## Bridge's rows -/

protected theorem CanonicalOut.execEndingArrival (h : Canonical s) : CanonicalOut (execEndingArrival s) := by
  unfold execEndingArrival
  split
  · exact .next h
  · exact .next <| .bpUpdate <| .endingArrives (.same h)

protected theorem CanonicalOut.execLaneRetirement (h : Canonical s) : CanonicalOut (execLaneRetirement s) :=
  .next (.retireNclk h)

protected theorem CanonicalOut.execLaneHoldExpiry (h : Canonical s) {l} : CanonicalOut (execLaneHoldExpiry l s) :=
  .ite .refused <| .next (.skipHead h)

protected theorem CanonicalOut.execBrgTurnRead (h : Canonical s) {id} : CanonicalOut (execBrgTurnRead id s) := by
  unfold execBrgTurnRead
  split
  · exact .next h
  · split
    · split
      · split
        · exact .next h
        · split
          · exact .next (.dropOp h)
          · split
            · exact .next (.updOp h)
            · exact .next (.complete h)
      · exact .next h
    · exact .next h

protected theorem CanonicalOut.execTurnComplete (h : Canonical s) {id} : CanonicalOut (execTurnComplete id s) := by
  unfold execTurnComplete
  split
  · exact .next h
  · split
    · exact .ite (.next (.dropOp h)) <| .ite (.next (.complete h)) (.next h)
    · exact .next h

protected theorem CanonicalOut.execBrgPass (h : Canonical s) {id} : CanonicalOut (execBrgPass id s) := by
  unfold execBrgPass
  split
  · exact .next h
  · split
    · exact .ite (.next h) <| .next <| .complete <| .ite (.passPoint h) h
    · exact .next h

protected theorem CanonicalOut.execBrgCtlClr (h : Canonical s) : CanonicalOut (execBrgCtlClr s) :=
  .next (.brgClr h)

/-! ## What egress does for every destination -/

protected theorem Canonical.egressPop (h : Canonical s) {dest} : Canonical (egressPop dest s) :=
  .same h

protected theorem Canonical.egressTile (h : Canonical s) {link ecc tile} :
    Canonical (egressTile link ecc tile s).2 :=
  .ite_snd (.tileFail (.tileRead h)) <| .ite_snd (.bump (.tileRead h)) (.tileRead h)

protected theorem Canonical.egressTiles {link ecc l} (h : Canonical s) : Canonical (egressTiles link ecc l s).2 := by
  induction l generalizing s ecc with
  | nil => exact h
  | cons a r ih => exact ih (.egressTile h)

protected theorem Canonical.egressRead (h : Canonical s) {d ecc} : Canonical (egressRead d ecc s).2.2 :=
  .egressTiles (.egressTiles h)

/-! ## The table engines and the update unit -/

protected theorem Canonical.storeEntry (h : Canonical s) {t l e} : Canonical (storeEntry s t l e) :=
  .ite (.wr <| .wr <| .wr (.same h)) (.memWrite h)

protected theorem Canonical.setQuar (h : Canonical s) {t n} : Canonical (setQuar s t n) :=
  .setFld (.same h)

protected theorem Canonical.countEntry (h : Canonical s) {t l a b} : Canonical (countEntry s t l a b) :=
  .setQuar <| .ite (.setFld (.setFld h)) (.setFld h)

protected theorem Canonical.putEntry (h : Canonical s) {t l e} : Canonical (putEntry s t l e) :=
  .ite (.same h) <| .ite (.storeEntry (.same h)) <| .ite (.setFld <| .storeEntry (.countEntry (.same h))) <|
    .foldl (.countEntry (.same h)) fun hu => .storeEntry hu

protected theorem Canonical.setHit (h : Canonical s) {t l} : Canonical (setHit t l s) :=
  .storeEntry h

protected theorem Canonical.parityReport (h : Canonical s) {t l} : Canonical (parityReport t l s) :=
  .raise <| .wr (.bump h)

protected theorem Canonical.quarantine (h : Canonical s) {t l} : Canonical (quarantine t l s) :=
  .parityReport (.putEntry h)

protected theorem Canonical.poisonBucket (h : Canonical s) {t b} : Canonical (poisonBucket t b s) :=
  have h1 : Canonical _ := .forEach (.memReadCheck h) fun hu => .parityReport hu
  .ite h1 <| .setQuar <| .setFld (.memWrite h1)

protected theorem Canonical.checkLocs (h : Canonical s) {t ls} : Canonical (checkLocs t ls s) :=
  .forEach h fun hu => .ite (.quarantine hu) hu

protected theorem Canonical.checkBucket (h : Canonical s) {t b} : Canonical (checkBucket t b s) :=
  .ite (.poisonBucket h) <| .checkLocs (.memTouch h)

protected theorem Canonical.checkLoc (h : Canonical s) {t l} : Canonical (checkLoc t l s) :=
  .ite (.checkLocs h) (.checkBucket h)

protected theorem Canonical.checkKey (h : Canonical s) {t key} : Canonical (checkKey t key s) :=
  .checkLocs <| .forEach h fun hu => .checkBucket hu

protected theorem Canonical.setPrefixes (h : Canonical s) {t l} : Canonical (setPrefixes s t l) :=
  .same h

protected theorem Canonical.pfxQuar (h : Canonical s) {t ps} : Canonical (pfxQuar t ps s) :=
  .forEach h fun hu => .parityReport <| .setQuar (.setPrefixes hu)

protected theorem Canonical.pfxLookup (h : Canonical s) {t a} : Canonical (pfxLookup s t a).2.2 :=
  .ite_snd_snd (.pfxQuar h) (by
    split
    · exact h
    · exact .ite_snd_snd (.pfxQuar <| .ite_snd h (.choose h)) <| .ite_snd h (.choose h))

protected theorem Canonical.keepLast {u} (h : Canonical u) : Canonical (keepLast s u) := .same h

protected theorem Canonical.lookupError (h : Canonical s) {t key ecc} : Canonical (lookupError s t key ecc) :=
  .ite h <| .ite (.mcError h) <| .ite (.same h) h

protected theorem Canonical.lookup (h : Canonical s) {t key} : Canonical (lookup s t key).2.2 := by
  refine .ite_snd_snd h <| .ite_snd_snd h <| .ite_snd_snd ?_ (.pfxLookup h)
  have h1 : Canonical (keepLast s (checkKey t key s)) := .keepLast (.checkKey h)
  dsimp only
  split
  · exact h1
  · exact .choose <| .forEach h1 fun hu => .setHit hu

protected theorem Canonical.bfsLevel {t l seen next} (h : Canonical s) :
    Canonical (bfsLevel t l seen next s).2.2.2 := by
  induction l generalizing s seen next with
  | nil => exact h
  | cons p ps ih =>
    unfold bfsLevel
    split
    · exact ih h
    · split
      · exact ih h
      · dsimp only
        split
        · exact .checkBucket h
        · exact ih (.checkBucket h)

protected theorem Canonical.bfs {t n front seen} (h : Canonical s) : Canonical (bfs t n front seen s).2 := by
  induction n generalizing s front seen with
  | zero => exact h
  | succ n ih =>
    have hl : Canonical (bfsLevel t front seen [] s).2.2.2 := .bfsLevel h
    unfold bfs
    split
    · next hp => rw [hp] at hl; exact hl
    · next hp => rw [hp] at hl; exact ih hl

protected theorem Canonical.noteMoves (h : Canonical s) {t m} : Canonical (noteMoves s t m) :=
  .bumpWrapBy (.setFld h)

protected theorem Canonical.insertEntry (h : Canonical s) {t e} : Canonical (insertEntry s t e).2 := by
  have h0 : Canonical (noteMoves s t 0) := .noteMoves h
  unfold insertEntry
  dsimp only
  split
  · exact .putEntry h0
  · split
    · next hp => exact .same <| .putEntry <| .noteMoves <| .snd hp (.bfs h0)
    · next hp =>
      have h1 := Canonical.snd hp (.bfs h0)
      split
      · exact .putEntry h1
      · exact .pair (.raise h1)

protected theorem Canonical.refillSteps (h : Canonical s) {t ls} : Canonical (refillSteps t ls s) :=
  .same h

protected theorem Canonical.stepLands (h : Canonical s) : Canonical (stepLands s) := by
  unfold stepLands
  dsimp only
  split
  · exact h
  · exact .ite h <| .putEntry <| .ite (.setHit (.same h)) (.same h)
  · split
    · exact h
    · split
      · exact .same h
      · split
        · exact .same h
        · exact .same <| .bumpWrap <| .putEntry (.same h)
  · exact .putEntry (.same h)

protected theorem Canonical.candStat (h : Canonical s) : Canonical (candStat s) :=
  .setFld <| .setFld (.setFld h)

protected theorem Canonical.dropCand (h : Canonical s) {t key} : Canonical (dropCand t key s) :=
  .candStat (.same h)

protected theorem Canonical.pushLearn (h : Canonical s) {t key a pushed rank} :
    Canonical (pushLearn s t key a pushed rank).2 :=
  .ite_snd h <| .candStat (.same h)

protected theorem Canonical.hwLearn (h : Canonical s) {port mac vid} : Canonical (hwLearn port mac vid s) := by
  have h2 {t key l} : Canonical (forEach l (setHit t) (if s.tbl.held.contains t then s else keepLast s
      (checkKey t key s))) :=
    .forEach (.ite h <| .keepLast (.checkKey h)) fun hu => .setHit hu
  unfold hwLearn
  dsimp only
  split
  · exact h
  · refine .ite h <| .ite h2 <| .ite h2 ?_
    split
    · next hp => exact .ite (.candStat <| .same <| .snd hp (.pushLearn h2)) (.snd hp (.pushLearn h2))
    · next hp => exact .ite (.raise <| .bump <| .snd hp (.pushLearn h2)) (.bump <| .snd hp (.pushLearn h2))

protected theorem Canonical.setAction (h : Canonical s) {t l a st} : Canonical (setAction s t l a st) :=
  .putEntry h

protected theorem Canonical.stationMove (h : Canonical s) {t l key a} : Canonical (stationMove t l key a s) :=
  .raise <| .wr <| .wr <| .bump <| .dropCand (.setAction h)

protected theorem Canonical.recordCand (h : Canonical s) {t key a} : Canonical (recordCand t key a s) :=
  .ite (.bump (.dropCand h)) <| .candStat <| .same (.dropCand h)

protected theorem Canonical.applyLearn (h : Canonical s) {t key a} : Canonical (applyLearn t key a s) := by
  have h0 : Canonical (checkKey t key s) := .checkKey h
  unfold applyLearn
  dsimp only
  split
  · split
    · next hp => exact .dropCand <| .bump <| .snd hp (.insertEntry h0)
    · next hp => exact .dropCand <| .bump <| .snd hp (.insertEntry h0)
  · refine .ite (.setHit h0) ?_
    split
    · exact .recordCand h0
    · exact .ite (.stationMove h0) h0

protected theorem Canonical.putImg (h : Canonical s) {e} : Canonical (putImg s e) :=
  .wr <| .wr (.wr h)

protected theorem Canonical.putAddr (h : Canonical s) {t a} : Canonical (putAddr s t a) := .putImg h

protected theorem Canonical.setImage (h : Canonical s) {t img} : Canonical (setImage t img s).2 := by
  have h0 : Canonical (checkKey t (imgKey s t img) s) := .checkKey h
  unfold setImage
  dsimp only
  split
  · exact .setAction h0
  · split
    · next hp => exact .snd hp (.insertEntry h0)
    · next hp => exact .snd hp (.insertEntry h0)

protected theorem Canonical.clearLocs (h : Canonical s) {t ls} : Canonical (clearLocs t ls s) :=
  .refillSteps <| .forEach h fun hu => .dropCand (.putEntry hu)

protected theorem Canonical.freeRecord (h : Canonical s) {t} : Canonical (freeRecord s t).2 :=
  .ite_snd h (.draw h)

protected theorem Canonical.pfxCount (h : Canonical s) {t} : Canonical (pfxCount s t) := .setFld h

protected theorem Canonical.freeImage (h : Canonical s) : Canonical (freeImage s).2 :=
  .draw <| .draw (.draw h)

protected theorem Canonical.runCommand (h : Canonical s) : Canonical (runCommand s).2 := by
  have hk : Canonical (checkKey (cmdTable s) (imgKey s (cmdTable s) (cmdImg s)) s) := .checkKey h
  unfold runCommand
  refine .ite_snd (.pair h) ?_
  split
  · refine .ite_snd (.pair h) <| .ite_snd (.pair hk) ?_
    split
    · next hp => exact .snd hp (.insertEntry hk)
    · next hp => exact .snd hp (.insertEntry hk)
  · exact .ite_snd (.pair h) (.pair <| .setImage h)
  · refine .ite_snd (.pair h) ?_
    dsimp only
    split
    · exact .pair hk
    · exact .pair <| .clearLocs hk
  · refine .ite_snd (.pair h) ?_
    dsimp only
    split
    · exact .pair hk
    · exact .pair <| .same <| .wr <| .putImg hk
  · refine .ite_snd (.pair h) ?_
    have h0 {t l} : Canonical (checkLoc t l s) := .checkLoc h
    have h1 {t l c e} {_ : Decidable c} : Canonical (if c then freeImage (checkLoc t l s) else
        (e, checkLoc t l s)).2 :=
      .ite_snd (.freeImage h0) h0
    exact .pair <| .same <| .setFld <| .putImg h1
  · exact .ite_snd (.pair h) (.pair <| .putEntry h)
  · exact .pair <| .clearLocs <| .checkLocs <| .forEach h fun hu => .checkBucket hu
  · exact .pair <| .same h
  · refine .ite_snd (.pair h) ?_
    split
    · exact .pair <| .setPrefixes h
    · split
      · next hp => exact .pair <| .snd hp (.freeRecord h)
      · next hp => exact .pair <| .pfxCount <| .setPrefixes <| .snd hp (.freeRecord h)
  · refine .ite_snd (.pair h) ?_
    split
    · exact .pair h
    · exact .pair <| .ite (.setQuar <| .pfxCount <| .setPrefixes h) (.pfxCount <| .setPrefixes h)
  · refine .ite_snd (.pair h) ?_
    split
    · exact .pair h
    · exact .pair <| .wr <| .setFld <| .putAddr h
  · exact .ite_snd (.pair h) <| .pair <| .ite (.setQuar <| .pfxCount <| .setPrefixes h) (.pfxCount <|
      .setPrefixes h)

protected theorem Canonical.bulkRun {n} (h : Canonical s) : Canonical (bulkRun n s) := by
  induction n generalizing s with
  | zero => exact h
  | succ n ih =>
    unfold bulkRun
    split
    · exact h
    · next a i k _ =>
      have h1 : Canonical (memReadCheck s (a + 16 * i) 16 0).2 := .memReadCheck h
      refine .ite h <| .ite (.same h) <| .ite h <| .ite (.same (.setFld h)) <| .ite (.same (.setFld h1)) <|
          .ite (.same (.setFld h1)) ?_
      split
      · next hp => exact ih <| .same <| .snd hp (.setImage h1)
      · next hp => exact .same <| .setFld <| .snd hp (.setImage h1)

protected theorem Canonical.unitRun (h : Canonical s) : Canonical (unitRun s) := by
  refine .ite h ?_
  split
  · exact .bulkRun h
  · refine .ite h ?_
    split
    · next hp => exact .same <| .snd hp (.runCommand (.same h))
    · next hp => exact .bulkRun <| .snd hp (.runCommand (.same h))

protected theorem Canonical.tableCommand (h : Canonical s) {w} : Canonical (tableCommand w s) :=
  .ite h <| .ite (.wr h) <| .unitRun <| .same <| .setFld <| .setFld (.wr h)

protected theorem Canonical.commandDone (h : Canonical s) : Canonical (commandDone s) := by
  unfold commandDone
  split
  · exact h
  · exact .ite h <| .raise <| .same <| .setFld <| .setFld (.setFld h)

protected theorem Canonical.learnNext (h : Canonical s) : Canonical (learnNext s) := by
  unfold learnNext
  split
  · exact h
  · split
    · exact .ite h <| .unitRun <| .candStat <| .applyLearn (.same h)
    · exact h

protected theorem Canonical.ageEntry (h : Canonical s) {t l} : Canonical (ageEntry t l s) :=
  .ite h <| .ite (.storeEntry h) <| .same <| .refillSteps <| .bump <| .dropCand (.putEntry h)

protected theorem Canonical.ageStep (h : Canonical s) {t} : Canonical (ageStep t s) :=
  have h1 : Canonical _ := .keepLast <| .ageEntry (.ite (.checkLoc h) h)
  .ite h <| .ite (.same h1) <| .ite (.raise <| .same (.bumpWrap (.same h1))) (.bumpWrap (.same h1))

/-! ## The Ethernet ports' operations -/

protected theorem Canonical.setEth (h : Canonical s) {p v} : Canonical (setEth p v s) := .same h

protected theorem Canonical.macSat (h : Canonical s) {p k n} : Canonical (macSat p k n s) :=
  .bumpBy h

protected theorem Canonical.macWrap (h : Canonical s) {p k n} : Canonical (macWrap p k n s) :=
  .bumpWrapBy h

protected theorem Canonical.rxOverflow (h : Canonical s) {p} : Canonical (rxOverflow p s) :=
  .ite (.raise (.macSat h)) (.macSat h)

protected theorem Canonical.showPause (h : Canonical s) {p} : Canonical (showPause p s) := .setFld h

protected theorem Canonical.setPause (h : Canonical s) {p c q} : Canonical (setPause p c q s) :=
  .setEth h

protected theorem Canonical.pauseReceive (h : Canonical s) {p pfc mask quanta} :
    Canonical (pauseReceive p pfc mask quanta s) :=
  .ite (.macSat <| .showPause <| .ite (.forEach h fun hu => .setPause hu) <|
    .forEach h fun hu => .setPause hu) (.macSat h)

protected theorem Canonical.macControl (h : Canonical s) {p l} : Canonical (macControl p l s) :=
  .ite (.pauseReceive h) <| .ite (.pauseReceive h) (.macSat h)

protected theorem Canonical.frameReceive (h : Canonical s) {p l uncor} : Canonical (frameReceive p l uncor s) :=
  .ite (.macSat h) <| .ite (.macSat h) <| .ite (.macSat h) <| .ite (.macControl h) <| .ite (.rxOverflow h) <|
    .ingress <| .hwLearn (.macWrap (.macWrap h))

protected theorem Canonical.txtsPush (h : Canonical s) {p d} : Canonical (txtsPush p d s) :=
  .ite (.macSat (.setFld h)) <| .raise <| .setFld (.setEth h)

protected theorem Canonical.ethSend (h : Canonical s) {p c ecc} : Canonical (ethSend p c ecc s) := by
  unfold ethSend
  split
  · exact h
  · exact
      have h2 : Canonical _ := .macWrap <| .macWrap <| .emit <| .egressRead (.egressPop h)
      have h3 : Canonical _ := .ite (.macSat h2) h2
      .ite h <| .refDone (.ite (.txtsPush h3) h3)

protected theorem Canonical.ethLose (h : Canonical s) {p c k} : Canonical (ethLose p c k s) := by
  unfold ethLose
  split
  · exact h
  · exact .refDone <| .macSat (.egressPop h)

protected theorem Canonical.ethTransmit (h : Canonical s) {p ecc} : Canonical (ethTransmit p ecc s) := by
  unfold ethTransmit
  split
  · split
    · exact .ethSend h
    · exact h
  · split
    · exact .ethLose h
    · exact h

protected theorem Canonical.txtsPop (h : Canonical s) {p} : Canonical (txtsPop p s).2 := by
  unfold txtsPop
  dsimp only
  split
  · exact h
  · exact .setFld <| .wr <| .wr (.setEth h)

protected theorem Canonical.portDispose (h : Canonical s) {p rx cut} : Canonical (portDispose p rx cut s) :=
  .showPause <| .setEth (by
    split
    · exact .ethLose <| .macSat <| .forEach (.same h) fun hu => .macSat <| .forEach hu fun h1 => .freeReq h1
    · exact .macSat <| .forEach (.same h) fun hu => .macSat <| .forEach hu fun h1 => .freeReq h1)

protected theorem Canonical.portMove (h : Canonical s) {p st} : Canonical (portMove p st s) :=
  .ite (.raise (.setFld h)) (.setFld h)

protected theorem Canonical.portHalf (h : Canonical s) {p rx cut rfault} : Canonical (portHalf p rx cut rfault s) :=
  .ite h <| .ite (.setFld <| .halfFlush <| .setFld <| .portDispose (.portMove h)) <| .setFld <| .setFld <|
    .halfFlush <| .setFld <| .portDispose (.portMove h)

protected theorem Canonical.portTrained (h : Canonical s) {p} : Canonical (portTrained p s) :=
  have h1 : Canonical _ := .portMove <| .setFld (.setFld (.setFld h))
  .ite h <| .ite (.sendPause h1) h1

protected theorem Canonical.portRearm (h : Canonical s) {p} : Canonical (portRearm p s) :=
  .ite (.ite (.portMove (.setFld h)) (.setFld h)) h

protected theorem Canonical.pcfgWrite (h : Canonical s) {p rx cut v} : Canonical (pcfgWrite p rx cut v s) :=
  .ite h <| .bpUpdate <| .ite (.portMove (.wr h)) <| .ite (.setFld <| .setFld <|
    .portMove (.portDispose (.wr h))) (.wr h)

protected theorem Canonical.macClr (h : Canonical s) {p} : Canonical (macClr p s) :=
  .forEach h fun hu => .wr hu

/-! ## The host ports' operations -/

protected theorem Canonical.setHtx (h : Canonical s) {q v} : Canonical (setHtx q v s) := .same h

protected theorem Canonical.setHrx (h : Canonical s) {q v} : Canonical (setHrx q v s) := .same h

protected theorem Canonical.setVec (h : Canonical s) {fn v x} : Canonical (setVec fn v x s) :=
  .same h

protected theorem Canonical.setVecCount (h : Canonical s) {fn n} : Canonical (setVecCount fn n s) :=
  .ite h (.same h)

protected theorem Canonical.msix (h : Canonical s) {fn v} : Canonical (msix fn v s) :=
  .ite (.setVec h) (.emit h)

protected theorem Canonical.vecWrite (h : Canonical s) {fn v k d} : Canonical (vecWrite fn v k d s) := by
  unfold vecWrite
  split
  · exact h
  · split
    · exact .setVec h
    · exact .setVec h
    · exact .setVec h
    · exact .ite (.emit (.setVec h)) (.setVec h)

protected theorem Canonical.txqStop (h : Canonical s) {cause q} : Canonical (txqStop cause q s) :=
  .setHtx <| .setFld (.setFld h)

protected theorem Canonical.dropDepartures (h : Canonical s) {fn} : Canonical (dropDepartures fn s) :=
  .forEach h fun hu => .forEach (.same hu) fun h1 => .refDone (by split; exacts [.bump h1, h1])

protected theorem Canonical.fnResetOne (h : Canonical s) {fn} : Canonical (fnResetOne fn s) :=
  .same <| .obxPump <| .holderReset <| .same <| .forEach (.forEach
    (.dropDepartures h) fun hu => .txqStop hu) fun hu => .setHrx (.setFld hu)

protected theorem Canonical.fnReset (h : Canonical s) {fn} : Canonical (fnReset fn s) :=
  .bpUpdate <| .raise <| .forEach h fun hu => .fnResetOne hu

protected theorem Canonical.fnAgain (h : Canonical s) {p} : Canonical (fnAgain p s) := .same h

protected theorem Canonical.hostUp (h : Canonical s) {l cxl flit speed width} :
    Canonical (hostUp l cxl flit speed width s) :=
  .raise <| .fnAgain <| .setFld <| .setFld <| .setFld <| .setFld <| .setFld (.same h)

protected theorem Canonical.hostDown (h : Canonical s) {l} : Canonical (hostDown l s) :=
  .ite h <| .fnReset <| .halfFlush <| .raise <| .setFld (.setFld h)

protected theorem Canonical.txqWriteback (h : Canonical s) {q} : Canonical (txqWriteback q s) :=
  .emit h

protected theorem Canonical.txqCfgWrite (h : Canonical s) {q v} : Canonical (txqCfgWrite q v s) :=
  .ite (.ite h <| .bpUpdate <| .setFld <| .ite (.setHtx h) (.txqStop h)) <| .ite (.wr h) <| .bpUpdate <|
    .txqWriteback <| .fnAgain <| .setHtx (.wr (.setFld (.wr h)))

protected theorem Canonical.dbReject (h : Canonical s) : Canonical (dbReject s) := .raise (.bump h)

protected theorem Canonical.txDoorbell (h : Canonical s) {fn idx tail} : Canonical (txDoorbell fn idx tail s) := by
  unfold txDoorbell
  split
  · exact h
  · exact .ite h <| .ite (.setHtx h) (.dbReject h)

protected theorem Canonical.txqError (h : Canonical s) {cause q} : Canonical (txqError cause q s) :=
  .raise <| .setHtx <| .setFld (.setFld h)

protected theorem Canonical.hostReads (h : Canonical s) {fn a n} : Canonical (hostReads fn a n s) :=
  .forEach h fun hu => .emit hu

protected theorem Canonical.ringReads (h : Canonical s) {fn base size i k} :
    Canonical (ringReads fn base size i k s) :=
  .hostReads (.hostReads h)

protected theorem Canonical.txDescsDone (h : Canonical s) {q f ds} : Canonical (txDescsDone q f ds s) :=
  .ite h <| .ite (.setHtx (.txqError h)) <| .forEach (.setHtx h) fun hu => .hostReads hu

protected theorem Canonical.txFetchDone (h : Canonical s) {q f ds data} : Canonical (txFetchDone q f ds data s) :=
  .ite h <| .ite (.txqWriteback <| .setHtx (.setFld h)) <| .ingress <| .txqWriteback <| .setHtx (.setFld h)

protected theorem Canonical.txComplete (h : Canonical s) {q tag ds data} : Canonical (txComplete q tag ds data s) := by
  unfold txComplete
  dsimp only
  split
  · exact .bump (.setHtx h)
  · split
    · exact .setHtx h
    · split
      · exact h
      · split
        · exact h
        · split
          · exact .txDescsDone h
          · exact .txFetchDone h

protected theorem Canonical.txTimeout (h : Canonical s) {q tag} : Canonical (txTimeout q tag s) :=
  .ite (.setHtx <| .txqError (.same h)) <| .ite (.setHtx (.same h)) h

protected theorem Canonical.rxqCfgWrite (h : Canonical s) {q v} : Canonical (rxqCfgWrite q v s) :=
  .ite (.ite h <| .setFld (.setHrx (.setFld h))) <| .ite (.wr h) <| .fnAgain <| .setHrx <| .setFld (.setFld (.wr h))

protected theorem Canonical.rxDoorbell (h : Canonical s) {fn idx tail} : Canonical (rxDoorbell fn idx tail s) := by
  unfold rxDoorbell
  split
  · exact h
  · exact .ite (.setHrx h) (.dbReject h)

protected theorem Canonical.rxNoBuf (h : Canonical s) {fn idx q d} : Canonical (rxNoBuf fn idx q d s) :=
  .raise <| .refDone <| .bump (.egressPop h)

protected theorem Canonical.rxWrite (h : Canonical s) {fn idx addr blen ecc} :
    Canonical (rxWrite fn idx addr blen ecc s) := by
  unfold rxWrite
  split
  · exact
      have h1 : Canonical _ := .setHrx <| .egressPop (.ringReads h)
      .ite (.ite (.rxNoBuf h) h) <| .ite h <| .refDone <| .ite (.emit (.bump h1)) <| .emit (.emit (.egressRead h1))
  · exact h

protected theorem Canonical.mboxRing (h : Canonical s) {fn} : Canonical (mboxRing fn s) :=
  .raise <| .ite (.same h) h

protected theorem Canonical.mboxqPop (h : Canonical s) : Canonical (mboxqPop s).2 := by
  unfold mboxqPop
  split
  · exact h
  · exact .same h

protected theorem Canonical.mboxWrite (h : Canonical s) {fn o l} : Canonical (mboxWrite fn o l s) :=
  .same h

protected theorem Canonical.hdmWrite (h : Canonical s) {ld i v} : Canonical (hdmWrite ld i v s) :=
  .ite h (.same h)

protected theorem Canonical.poolFault (h : Canonical s) {kind wr_ ld dpa} :
    Canonical (poolFault kind wr_ ld dpa s) :=
  .raise <| .ite (.same h) (.setFld h)

protected theorem Canonical.pfaultPop (h : Canonical s) : Canonical (pfaultPop s).2 := by
  unfold pfaultPop
  split
  · exact h
  · exact .same h

protected theorem Canonical.mediaError (h : Canonical s) {ld dpa} : Canonical (mediaError ld dpa s) :=
  .same h

protected theorem Canonical.cxlRead (h : Canonical s) {ld dpa ecc} : Canonical (cxlRead ld dpa ecc s) := by
  rw [cxlRead]
  split
  · exact .emit (.poolFault h)
  · refine .ite (.emit (.poolFault h)) <| .ite (.emit h) <| .ite h ?_
    split
    next hp =>
    have h1 := Canonical.snd hp (.memReadCheck h)
    exact .ite (.emit <| .ite h1 (.mediaError h1)) (.emit h1)

protected theorem Canonical.maskedWrite (h : Canonical s) {a mask data} : Canonical (maskedWrite a mask data s) :=
  .storeMem (.memTouch h)

protected theorem Canonical.cxlWrite (h : Canonical s) {ld dpa mask data} :
    Canonical (cxlWrite ld dpa mask data s) := by
  unfold cxlWrite
  split
  · exact .emit (.poolFault h)
  · exact .ite (.emit (.poolFault h)) <| .ite (.emit h) <| .ite h <| .ite (.emit h) <| .ite (.emit <|
      .same (.memWrite h)) <| .emit (.maskedWrite h)

protected theorem Canonical.cxlRequest (h : Canonical s) {ld hpa write mask data ecc} :
    Canonical (cxlRequest ld hpa write mask data ecc s) := by
  unfold cxlRequest
  dsimp only
  split
  · exact h
  · split
    · exact .emit (.same h)
    · exact .ite (.cxlWrite (.same h)) <| .cxlRead (.same h)

protected theorem Canonical.cxlCommand (h : Canonical s) {l op} : Canonical (cxlCommand l op s) :=
  .emit <| .ite (.same (.mboxRing h)) (.mboxRing h)

protected theorem Canonical.hstClr (h : Canonical s) : Canonical (hstClr s) :=
  .forEach (.wr h) fun hu => .setFld (.setFld hu)

/-! ## The event controller's operations -/

protected theorem Canonical.evOccur (h : Canonical s) {n} : Canonical (evOccur n s) := by
  unfold evOccur
  split
  · exact .evPulse (.same h)
  · exact .ite (.evPulse <| .setFld (.same h)) <| .setFld (.same h)
  · exact h

protected theorem Canonical.evIdle (h : Canonical s) {n again auto} : Canonical (evIdle n again auto s) :=
  .ite (.evPending h) <| .setFld (.setFld h)

protected theorem Canonical.evAck (h : Canonical s) {n} : Canonical (evAck n s) := by
  unfold evAck
  split
  · exact .evIdle h
  · exact .evIdle h
  · exact h

protected theorem Canonical.evDelivered (h : Canonical s) {n} : Canonical (evDelivered n s) :=
  .ite (.evIdle h) <| .setFld (.setFld h)

protected theorem Canonical.wakeEvent (h : Canonical s) {t} : Canonical (wakeEvent t s) :=
  .wakeThread <| .ite (.setTint (.readCsr h)) (.readCsr h)

protected theorem Canonical.wakeGroup (h : Canonical s) {g} : Canonical (wakeGroup g s) := by
  unfold wakeGroup
  dsimp only
  split
  · exact .forEach (.ite h (.requestWakeCmd h)) fun hu => .wakeEvent hu
  · split
    · exact .ite h (.requestWakeCmd h)
    · exact .wakeEvent <| .same <| .ite h (.requestWakeCmd h)

protected theorem Canonical.undeliverable (h : Canonical s) {n} : Canonical (undeliverable n s) :=
  .evDelivered (.bump h)

protected theorem Canonical.delivered (h : Canonical s) {n} : Canonical (delivered n s) :=
  .evDelivered (.bumpWrap h)

protected theorem Canonical.evRoute (h : Canonical s) {n} : Canonical (evRoute n s) := by
  unfold evRoute
  split
  · exact .delivered (.wakeGroup h)
  · exact .ite (.delivered (.msix h)) (.undeliverable h)
  · exact .delivered (.same h)
  · exact .ite (.undeliverable h) <| .delivered <| .obxPump (.sendIntr h)

protected theorem Canonical.evDeliver (h : Canonical s) {n} : Canonical (evDeliver n s) :=
  .ite h <| .evRoute (.same h)

protected theorem Canonical.svcqPop (h : Canonical s) : Canonical (svcqPop s).2 := by
  unfold svcqPop
  split
  · exact h
  · exact .same h

protected theorem Canonical.evCfgWrite (h : Canonical s) {n v} : Canonical (evCfgWrite n v s) :=
  have h1 : Canonical _ := .ite (.evAck h) h
  have h2 : Canonical _ := .wr <| .ite (.setFld (.setFld h1)) h1
  .ite (.setFld (.setFld h2)) (.ite (.evPulse h2) h2)

protected theorem Canonical.doorbell (h : Canonical s) {i} : Canonical (doorbell i s) := .raise h

/-! ## The rows of the buffer pool manager -/

protected theorem CanonicalOut.onPool (h : Canonical s) {p f} (hf : ∀ {u}, Canonical u → Canonical (f u)) :
    CanonicalOut (onPool p f s) :=
  .ite (.next <| hf h) .refused

protected theorem Canonical.serveAlloc (h : Canonical s) {p r first} : Canonical (serveAlloc p r first s) :=
  .ite (.ingressTake h) <| .updOp <| .allocOne (.same h)

protected theorem Canonical.allocNclk (h : Canonical s) {p} : Canonical (allocNclk p s) := by
  unfold allocNclk
  dsimp only
  split
  · exact h
  · split
    · exact h
    · exact .bpUpdate <| .poolSettle <| .same (by split; exacts [.serveAlloc (.serveAlloc h), .serveAlloc h])

protected theorem CanonicalOut.execBpmAllocation (h : Canonical s) {p} : CanonicalOut (execBpmAllocation p s) :=
  .onPool h fun hu => .allocNclk hu

protected theorem Canonical.freeStep (h : Canonical s) {p} : Canonical (freeStep p s) := by
  unfold freeStep
  dsimp only
  split
  · exact h
  · exact .ite h <| .ite (.applyFree h) <| .same (.applyFree h)

protected theorem CanonicalOut.execBpmFree (h : Canonical s) {p} : CanonicalOut (execBpmFree p s) :=
  .onPool h fun hu => .bpUpdate <| .freeStep (.freeStep hu)

protected theorem Canonical.ringLand (h : Canonical s) {p} : Canonical (ringLand p s) :=
  .ite h <| .poolSettle <| .setSides <| .setFld (.same h)

protected theorem CanonicalOut.execRingFetchComplete (h : Canonical s) {p} :
    CanonicalOut (execRingFetchComplete p s) :=
  .onPool h fun hu => .bpUpdate (.ringLand hu)

protected theorem Canonical.auditAt (h : Canonical s) {a} : Canonical (auditAt a s) :=
  .ite (.auditEnd h) <| .ite (.auditEnd h) <| .ite (.auditEnd h) (.same h)

protected theorem CanonicalOut.execAuditStart (h : Canonical s) : CanonicalOut (execAuditStart s) := by
  unfold execAuditStart
  split
  · exact .next h
  · split
    · exact .next <| .ite (.raise (.bump h)) h
    · exact .next <| .auditAt (.same h)
    · exact .next h

protected theorem CanonicalOut.execAuditStep (h : Canonical s) : CanonicalOut (execAuditStep s) := by
  unfold execAuditStep
  split
  · exact .next h
  · exact .ite (.next h) <| .next <| .auditAt (.ptrRead h)

protected theorem Canonical.rebuildState (h : Canonical s) {p v} : Canonical (rebuildState s p v) :=
  .setFld (.setFld h)

protected theorem Canonical.poolEmpty (h : Canonical s) {p} : Canonical (poolEmpty s p) :=
  .same <| .setFld <| .setFld <| .setSides <| .wr (.wr h)

protected theorem Canonical.rebuildGo (h : Canonical s) {p} : Canonical (rebuildGo p s) := by
  unfold rebuildGo
  split
  · exact h
  · split
    · exact .raise (.rebuildState h)
    · exact .poolEmpty <| .rebuildState (by split; exacts [.ite (.auditEnd h) h, h])

protected theorem CanonicalOut.execRebuildGo (h : Canonical s) {p} : CanonicalOut (execRebuildGo p s) :=
  .onPool h fun hu => .bpUpdate (.rebuildGo hu)

protected theorem Canonical.heldDone (h : Canonical s) {r} : Canonical (heldDone r s) := by
  unfold heldDone
  split
  · exact .updOp h
  · exact h

protected theorem Canonical.heldFree (h : Canonical s) {p bits r} : Canonical (heldFree p bits r s) :=
  .heldDone <| .ite (.freeOne h) (.bump h)

protected theorem Canonical.pushFree (h : Canonical s) {p free} : Canonical (pushFree p free s) :=
  .setFld <| .forEach h fun hu => .wr <| .ite (.wr (.memPut hu)) (.memPut hu)

protected theorem Canonical.rebuildEnd (h : Canonical s) {ecc} : Canonical (rebuildEnd ecc s) :=
  .ite h <| .ite (.raise <| .forEach (.setFld <| .rebuildState <|
    .memReadCheck (.same h)) fun hu => .heldDone (.bump hu)) <| .raise <| .poolSettle <| .forEach (.setFld <|
    .pushFree <| .rebuildState <| .memReadCheck (.same h)) fun hu => .heldFree hu

protected theorem CanonicalOut.execRebuildComplete (h : Canonical s) {ecc} :
    CanonicalOut (execRebuildComplete ecc s) :=
  .ite .refused <| .next <| .bpUpdate (.rebuildEnd h)

protected theorem Canonical.bpmClr (h : Canonical s) : Canonical (bpmClr s) :=
  .setFld <| .foldl h fun hu => .wr hu

protected theorem CanonicalOut.execBpmCtlClr (h : Canonical s) : CanonicalOut (execBpmCtlClr s) :=
  .next (.bpmClr h)

/-! ## The rows of the forwarding tables -/

protected theorem CanonicalOut.tableRow (h : Canonical s) {op w} : CanonicalOut (tableRow op w s) :=
  .ite .refused <| .next (.tableCommand h)

protected theorem CanonicalOut.execTableAdd (h : Canonical s) {w} : CanonicalOut (execTableAdd w s) :=
  .tableRow h

protected theorem CanonicalOut.execTableSet (h : Canonical s) {w} : CanonicalOut (execTableSet w s) :=
  .tableRow h

protected theorem CanonicalOut.execTableDelete (h : Canonical s) {w} : CanonicalOut (execTableDelete w s) :=
  .tableRow h

protected theorem CanonicalOut.execTableFind (h : Canonical s) {w} : CanonicalOut (execTableFind w s) :=
  .tableRow h

protected theorem CanonicalOut.execReadSlot (h : Canonical s) {w} : CanonicalOut (execReadSlot w s) :=
  .tableRow h

protected theorem CanonicalOut.execWriteSlot (h : Canonical s) {w} : CanonicalOut (execWriteSlot w s) :=
  .tableRow h

protected theorem CanonicalOut.execFlush (h : Canonical s) {w} : CanonicalOut (execFlush w s) :=
  .tableRow h

protected theorem CanonicalOut.execBulkSet (h : Canonical s) {w} : CanonicalOut (execBulkSet w s) :=
  .tableRow h

protected theorem CanonicalOut.execPfxAdd (h : Canonical s) {w} : CanonicalOut (execPfxAdd w s) :=
  .tableRow h

protected theorem CanonicalOut.execPfxDel (h : Canonical s) {w} : CanonicalOut (execPfxDel w s) :=
  .tableRow h

protected theorem CanonicalOut.execPfxRead (h : Canonical s) {w} : CanonicalOut (execPfxRead w s) :=
  .tableRow h

protected theorem CanonicalOut.execPfxFix (h : Canonical s) {w} : CanonicalOut (execPfxFix w s) :=
  .tableRow h

protected theorem CanonicalOut.execTblCmdDone (h : Canonical s) : CanonicalOut (execTblCmdDone s) :=
  .next (.commandDone h)

protected theorem CanonicalOut.execRelocationStep (h : Canonical s) : CanonicalOut (execRelocationStep s) :=
  .next <| .unitRun (.stepLands h)

protected theorem CanonicalOut.execLearnApply (h : Canonical s) : CanonicalOut (execLearnApply s) :=
  .next (.learnNext h)

protected theorem CanonicalOut.execCandidateExpiry (h : Canonical s) {k} : CanonicalOut (execCandidateExpiry k s) := by
  unfold execCandidateExpiry
  split
  · exact .next h
  · exact .ite (.next h) <| .next <| .candStat (.same h)

protected theorem CanonicalOut.onTable (h : Canonical s) {t f} (hf : ∀ {u}, Canonical u → Canonical (f u)) :
    CanonicalOut (onTable t f s) :=
  .ite (.next <| hf h) .refused

protected theorem Canonical.bkgPass (h : Canonical s) {f overrun} : Canonical (bkgPass f overrun s) :=
  .ite (.raise (.bump h)) h

protected theorem CanonicalOut.execAgeingSweepStep (h : Canonical s) {t overrun} :
    CanonicalOut (execAgeingSweepStep t overrun s) :=
  .onTable h fun hu => .bkgPass <| .candStat (.ageStep hu)

protected theorem Canonical.paritySweep (h : Canonical s) {t bucket slot bad} :
    Canonical (paritySweep t bucket slot bad s) := by
  unfold paritySweep
  split
  · exact h
  · split
    · exact .ite (.ite (.keepLast (.quarantine h)) <| .keepLast (.checkLoc h)) h
    · split
      · exact h
      · exact .pfxQuar (.setPrefixes h)

protected theorem CanonicalOut.execParitySweepStep (h : Canonical s) {t bucket slot bad overrun} :
    CanonicalOut (execParitySweepStep t bucket slot bad overrun s) :=
  .ite .refused <| .onTable h fun hu => .bkgPass (.paritySweep hu)

protected theorem Canonical.tblClr (h : Canonical s) : Canonical (tblClr s) :=
  .forEach (.foldl h fun hu => .wr hu) fun hu => .setFld (.wr hu)

protected theorem CanonicalOut.execTblCtlClr (h : Canonical s) : CanonicalOut (execTblCtlClr s) :=
  .next (.tblClr h)

/-! ## The memory controllers' operations -/

protected theorem Canonical.setOwed (h : Canonical s) {m u p} : Canonical (setOwed m u p s) :=
  .setFld h

protected theorem Canonical.refreshDue (h : Canonical s) {m u prog rt} : Canonical (refreshDue m u prog rt s) :=
  .ite (.ite (.setOwed (.setMcCtl h)) (.setMcCtl h)) <| .ite (.setMcCtl h) <| .ite (.setOwed (.setMcCtl h)) <|
    .raise (.bump (.setMcCtl h))

protected theorem Canonical.makeupRefresh (h : Canonical s) {m u rt} : Canonical (makeupRefresh m u rt s) :=
  .ite h (.setOwed h)

protected theorem Canonical.issueOwed (h : Canonical s) {m} : Canonical (issueOwed m s) :=
  .forEach h fun hu => .setOwed hu

protected theorem Canonical.showLimit (h : Canonical s) {m} : Canonical (showLimit m s) := .setFld h

protected theorem Canonical.treFiChange (h : Canonical s) {m hot} : Canonical (treFiChange m hot s) :=
  .ite h <| .showLimit <| .setMcCtl (.issueOwed h)

protected theorem Canonical.powerDown (h : Canonical s) {m u} : Canonical (powerDown m u s) :=
  .ite (.setMcCtl h) h

protected theorem Canonical.rtTake (h : Canonical s) {m p} : Canonical (rtTake m p s) :=
  .ite h <| .ite (.raise (.bump h)) <| .ite (.raise <| .bump <| .setFld (.setFld h)) (.setFld h)

protected theorem Canonical.rtReturn (h : Canonical s) {m p} : Canonical (rtReturn m p s) :=
  .ite h <| .ite (.setFld (.setFld h)) (.setFld h)

protected theorem Canonical.rtcfgWrite (h : Canonical s) {m p v} : Canonical (rtcfgWrite m p v s) :=
  .ite h <| .ite (.setFld (.wr h)) <| .setFld <| .setFld <| .setFld (.wr h)

protected theorem Canonical.retrainStart (h : Canonical s) {m u forced} : Canonical (retrainStart m u forced s) :=
  .bump <| .setFld (.setUnitState h)

protected theorem Canonical.retrainRequest (h : Canonical s) {m u why} : Canonical (retrainRequest m u why s) :=
  .ite h <| .ite (.retrainStart <| .raise <| .setFld (.setUnitState h)) <| .raise <| .setFld (.setUnitState h)

protected theorem Canonical.setTemp (h : Canonical s) {m u temp} : Canonical (setTemp m u temp s) :=
  .setFld h

protected theorem Canonical.trackStep (h : Canonical s) {m u temp margin} :
    Canonical (trackStep m u temp margin s) :=
  .ite h <| .ite (.retrainRequest (.setTemp h)) (.setTemp h)

protected theorem Canonical.setHalf (h : Canonical s) {m u x} : Canonical (setHalf m u x s) :=
  .ite (.setMcUnit h) <| .issueOwed (.setMcUnit h)

protected theorem Canonical.unitFree (h : Canonical s) : Canonical (unitFree s) :=
  .unitRun <| .forEach h fun hu => .placeReady hu

protected theorem Canonical.trainEnd (h : Canonical s) {m u temp ok check} :
    Canonical (trainEnd m u temp ok check s) :=
  have h1 : Canonical _ := .setUnitState <| .setMcUnit (.setTemp h)
  .ite h <| .unitFree <| .ite (.setHalf (.ite (.raise h1) h1)) <| .ite (.setHalf <| .raise <|
    .setUnitState (.setTemp h)) <| .retireUnit (.setTemp h)

protected theorem Canonical.retireCmd (h : Canonical s) {m u} : Canonical (retireCmd m u s) :=
  .ite h <| .unitFree (.retireUnit h)

protected theorem Canonical.pegCmd (h : Canonical s) {m v} : Canonical (pegCmd m v s) := by
  unfold pegCmd
  dsimp only
  split
  · exact h
  · split
    · exact .ite (.retrainStart h) h
    · exact .retrainRequest h
    · exact .ite h <| .trackStep <| .draw (.draw h)
    · exact .retireCmd h
    · exact h

protected theorem Canonical.listWalk {n a} (h : Canonical s) : Canonical (listWalk n a s).2.2 := by
  induction n generalizing s a with
  | zero => exact h
  | succ n ih =>
    cases a with
    | zero => exact h
    | succ a => exact .ite_snd_snd (.memReadCheck h) (ih (.memReadCheck h))

protected theorem Canonical.relink (h : Canonical s) {p l} : Canonical (relink p l s) :=
  .setFld <| .wr <| .wr <| .forEach h fun hu => .memPut hu

protected theorem Canonical.ringPut (h : Canonical s) {p l} : Canonical (ringPut p l s) :=
  .setFld <| .same <| .forEach h fun hu => .memPut hu

protected theorem Canonical.purgePool (h : Canonical s) {q p ring} : Canonical (purgePool q p ring s) :=
  have h2 : Canonical _ := .setSides <| .relink <| .ptrReads <| .listWalk (by
    split
    · exact .ite (.auditEnd h) h
    · exact h)
  .ite (.setFld <| .bumpBy <| .ite h2 (.ringPut h2)) <| .bumpBy <| .ite h2 (.ringPut h2)

protected theorem Canonical.purgeEnd (h : Canonical s) {q u} : Canonical (purgeEnd q u s) :=
  .ite h <| .bpUpdate <| .raise <| .forEach (.forEach (.same <| .forEach
    (.same h) fun hu => .purgePool hu) fun hu => .heldDone (.freeOne hu)) fun hu => .poolSettle hu

protected theorem Canonical.mcClr (h : Canonical s) {m} : Canonical (mcClr m s) :=
  have h3 : Canonical _ := .forEach (.forEach (.wr h) fun hu => .setFld (.setFld hu)) fun hu => .setFld hu
  .ite (.setFld (.setFld h3)) h3

protected theorem Canonical.scrubRead (h : Canonical s) {k a ecc} : Canonical (scrubRead k a ecc s) :=
  have h1 : Canonical _ := .ite_snd (.memReadCheck h) h
  .ite h <| .ite h <| .ite (.raise (.wr (.bump h1))) (.ite (.bump h1) h1)

/-! ## Structure images on the device -/

theorem wf_loadRange {m : List Host.Cell} (h : Memory.wf m) {base size : Nat} {l : List Byte} :
    Memory.wf (loadRange m base size l) :=
  wf_wrBytes _ _ _ (wf_filter h _)

protected theorem Canonical.loadProgram (h : Canonical s) {c pay} : Canonical (loadProgram c pay s) :=
  ⟨h.csr, h.mem, wf_loadRange h.scratch, wf_loadRange h.code, h.queues, h.ports⟩

protected theorem Canonical.applyHash (h : Canonical s) {pay m} : Canonical (applyHash pay m s) :=
  .ite (.ite (.raise (.setUnitState h)) (.setUnitState h)) <| .wr <| .forEach (.wr <|
    .forEach (.ite (.setFld h) (.wr (.setFld h))) fun hu => .wr hu) fun hu => .wr hu

protected theorem Canonical.trainBoot (h : Canonical s) {logged out m u} : Canonical (trainBoot logged out m u s) := by
  unfold trainBoot
  dsimp only
  split
  · exact .setMcUnit <| .setUnitState <| .setTemp (.draw h)
  · exact .ite (.raise <| .setMcUnit <| .setUnitState <| .setTemp (.draw h)) <| .raise <| .setUnitState <|
      .setTemp (.draw h)

protected theorem Canonical.trainAll (h : Canonical s) {logged out} : Canonical (trainAll logged out s) :=
  .forEach h fun hu => .forEach hu fun h1 => .trainBoot h1

theorem modePorts_le (m : Nat) : modePorts m ≤ 8 := by
  unfold modePorts
  split <;> decide

/-- Eight lane groups of at most eight ports are 64 (R33, R34). -/
theorem lanePorts_length_le (pay : List Byte) : (lanePorts pay).length ≤ 64 := by
  unfold lanePorts
  rw [List.length_flatMap]
  refine (List.sum_le_card_nsmul _ 8 ?_).trans_eq (by simp)
  intro n hn
  obtain ⟨g, -, rfl⟩ := List.mem_map.1 hn
  split
  · exact Nat.zero_le 8
  · simpa using modePorts_le _

theorem portsWf_lanePorts (pay : List Byte) : portsWf ((lanePorts pay).zipIdx.map (fun e => (e.2, e.1))) := by
  intro e he
  obtain ⟨x, hx, rfl⟩ := List.mem_map.1 he
  have h := (List.mem_zipIdx hx).2.1
  have := lanePorts_length_le pay
  simp only at h ⊢
  omega

protected theorem Canonical.applyLanes (h : Canonical s) {pay} : Canonical (applyLanes pay s) :=
  .forEach (.forEach (.forEach (.forEach ⟨h.csr, h.mem, h.scratch, h.code, h.queues, portsWf_lanePorts pay⟩
    fun hu => .setFld (.wr hu)) fun hu => .setFld hu) fun hu => .setFld hu) fun hu => .wr hu

protected theorem Canonical.applyPool (h : Canonical s) {pay p} : Canonical (applyPool pay p s) :=
  .relink <| .same <| .wr <| .wr <| .wr <| .wr (.wr h)

protected theorem Canonical.applyTable (h : Canonical s) {l t} : Canonical (applyTable l t s) :=
  .ite h <| .wr <| .wr <| .ite (.setFld <| .wr (.wr h)) <| .wr (.wr h)

protected theorem Canonical.applyTopology (h : Canonical s) {pay} : Canonical (applyTopology pay s) := by
  unfold applyTopology
  dsimp only
  exact .img <| .forEach (.forEach h fun hu => .wr hu) fun hu => .setFld (.setFld hu)

protected theorem Canonical.applyPrograms (h : Canonical s) {l} : Canonical (applyPrograms l s) :=
  .forEach (.wr h) fun hu => .requestWake hu

protected theorem Canonical.applyWeights (h : Canonical s) {w} : Canonical (applyWeights w s) :=
  .forEach h fun hu => .wr hu

protected theorem Canonical.applyProtect (h : Canonical s) {pay} : Canonical (applyProtect pay s) :=
  .forEach (.wr h) fun hu => .wr <| .wr (.wr hu)

protected theorem Canonical.strReject (h : Canonical s) {b} : Canonical (strReject b s) :=
  .raise (.wr h)

protected theorem Canonical.strBoot (h : Canonical s) {logged out l} : Canonical (strBoot logged out l s).2 := by
  unfold strBoot
  split
  · exact .strReject h
  · exact
      have h2 : Canonical _ := .trainAll <| .forEach h fun hu => .applyHash hu
      .ite_snd (.strReject h2) <| .wr <| .same <| .applyPrograms <| .applyTopology <|
        .forEach (.forEach (.applyLanes h2) fun hu => .applyPool hu) fun hu => .applyTable hu

protected theorem Canonical.bootLoad (h : Canonical s) {c} : Canonical (bootLoad c s) := by
  unfold bootLoad
  split
  · exact h
  · exact .wr <| .wr (.loadProgram h)

protected theorem Canonical.strBootRest (h : Canonical s) : Canonical (strBootRest s).2 := by
  unfold strBootRest
  split
  · exact h
  · exact .ite_snd h <| .wr <| .same <| .forEach (.wr <| .wr <| .applyProtect <|
      .orphanCheck (.applyWeights h)) fun hu => .wr hu

protected theorem Canonical.setStage (h : Canonical s) {v} : Canonical (setStage v s) := .setFld h

protected theorem Canonical.stageBusy (h : Canonical s) : Canonical (stageBusy s) := .bump h

protected theorem Canonical.stageFail (h : Canonical s) {b} : Canonical (stageFail b s) :=
  .same <| .setFld <| .setFld (.setStage h)

protected theorem Canonical.freeBad (h : Canonical s) : Canonical (freeBad s).2 := .draw h

protected theorem Canonical.stageVerify (h : Canonical s) : Canonical (stageVerify s) :=
  .ite (.stageBusy h) <| .setStage <| .setFld <| .setFld <| .setFld <| .same <| .ite_snd h (.freeBad h)

protected theorem Canonical.stageVerified (h : Canonical s) : Canonical (stageVerified s) :=
  .ite h <| .ite (.setStage h) (.stageFail h)

protected theorem Canonical.liveHoldOn (h : Canonical s) {c} : Canonical (liveHoldOn c s) :=
  .setFld <| .ite (.cluResetBegin (.updClu h)) <| .requestWake <| .cluResetBegin (.updClu h)

protected theorem Canonical.stageArm (h : Canonical s) : Canonical (stageArm s) := by
  unfold stageArm
  split
  · exact .stageBusy h
  · split
    · exact .stageFail h
    · exact .setStage <| .forEach h fun hu => .liveHoldOn hu

protected theorem Canonical.stagePreloaded (h : Canonical s) : Canonical (stagePreloaded s) := by
  unfold stagePreloaded
  dsimp only
  split
  · exact h
  · split
    · exact .stageFail <| .forEach (.ite_snd h (.freeBad h)) fun hu => .setFld hu
    · exact .setStage <| .same <| .forEach h fun hu => by split; exacts [.setFld (.loadProgram hu), hu]

protected theorem Canonical.stageDisarm (h : Canonical s) : Canonical (stageDisarm s) :=
  .ite (.stageBusy h) <| .ite (.setStage (.same h)) h

protected theorem Canonical.stageCmd (h : Canonical s) {v} : Canonical (stageCmd v s) := by
  unfold stageCmd
  split
  · exact h
  · exact .stageVerify h
  · exact .stageArm h
  · exact .stageDisarm h
  · exact .stageBusy h

protected theorem Canonical.liveApply (h : Canonical s) : Canonical (liveApply s) :=
  .raise <| .bumpWrap <| .setStage <| .same (by
    split
    · exact .applyWeights <| .forEach (.forEach h fun hu => .cluRelease <| .setFld <|
        .setFld (.updClu hu)) fun hu => .wr (.wr hu)
    · exact .forEach (.forEach h fun hu => .cluRelease <| .setFld <| .setFld (.updClu hu)) fun hu => .wr (.wr hu))

/-! ## Strum -/

protected theorem Canonical.swPut (h : Canonical s) {a v} : Canonical (swPut a v s) := .wr h

protected theorem Canonical.groupChange (h : Canonical s) : Canonical (groupChange s) :=
  .orphanCheck (.spawn h)

protected theorem Canonical.swApply (h : Canonical s) {a v} : Canonical (swApply a v s) :=
  .ite (.bump (.same h)) <| .ite (.orphanCheck (.swPut h)) (.swPut h)

protected theorem Canonical.swWrite (h : Canonical s) {a v} : Canonical (swWrite a v s) :=
  .ite (.same h) (.swApply h)

protected theorem Canonical.epcClear (h : Canonical s) : Canonical (epcClear s) :=
  .setFld <| .setFld <| .setFld (.setFld h)

protected theorem Canonical.epcDiscard (h : Canonical s) : Canonical (epcDiscard s) :=
  .setFld <| .setFld <| .same (.epcClear h)

protected theorem Canonical.epcGo (h : Canonical s) {nwr dom} : Canonical (epcGo nwr dom s) :=
  .setFld <| .setFld <| .setFld (.setFld h)

protected theorem Canonical.commitApply (h : Canonical s) {v} : Canonical (commitApply v s) := by
  unfold commitApply
  split
  · exact .epcGo h
  · exact .epcClear h
  · exact .epcDiscard h
  · exact h

protected theorem Canonical.commitWrite (h : Canonical s) {v} : Canonical (commitWrite v s) :=
  .ite (.same h) (.commitApply h)

protected theorem Canonical.releaseHeld (h : Canonical s) : Canonical (releaseHeld s) :=
  .forEach (.forEach (.same h) fun hu => .ite (.commitApply hu) (.swApply hu)) fun hu => .emit hu

protected theorem Canonical.releaseTables (h : Canonical s) : Canonical (releaseTables s) :=
  .unitRun (.same h)

protected theorem Canonical.epcCtlWrite (h : Canonical s) {v} : Canonical (epcCtlWrite v s) :=
  have h1 : Canonical _ := .ite (.wr (.setFld (.setFld h))) (.setFld (.setFld h))
  .ite (.same h1) <| .ite (.releaseHeld (.releaseTables h1)) h1

protected theorem Canonical.epcLast (h : Canonical s) {k reason} : Canonical (epcLast k reason s) :=
  .wr h

protected theorem Canonical.liveLimit (h : Canonical s) : Canonical (liveLimit s) :=
  .ite (.raise <| .epcClear (.stageFail h)) h

protected theorem Canonical.epcDefer (h : Canonical s) {k reason} : Canonical (epcDefer k reason s) :=
  have h1 : Canonical _ := .raise <| .releaseTables <| .same <| .bump (.bump (.epcLast h))
  have h2 : Canonical _ := .ite (.liveLimit (.bump h1)) h1
  .ite (.raise <| .epcLast (.epcClear h2)) h2

protected theorem Canonical.gateRead (h : Canonical s) {ecc} : Canonical (gateRead ecc s) := by
  unfold gateRead
  dsimp only
  split
  · split
    · exact .ite (.same h) <| .obxPump <| .same (.sendObx h)
    · exact .same h
  · split
    · exact .same h
    · exact .ite (.same h) <| .ite (.same (.denied h)) <| .ite (.same h) <| .ite (.same (.memReadCheck h)) <|
        .same (.memReadCheck h)

protected theorem Canonical.seedHold (h : Canonical s) : Canonical (seedHold s) := .ite (.same h) h

protected theorem Canonical.epcCutoff (h : Canonical s) {k ecc} : Canonical (epcCutoff k ecc s) :=
  have h1 : Canonical _ := .seedHold (.same (.same h))
  .ite (.same h) <| .ite (.epcDefer (.same h)) <| .ite (.epcDefer (.same h)) <|
    .ite (.epcDefer (.same h)) (.ite (.gateRead h1) h1)

protected theorem Canonical.epcDecide (h : Canonical s) {k} : Canonical (epcDecide k s) :=
  .ite (.same h) <| .ite (.ite (.same h) <| .epcDefer (.same h)) <| .raise <| .epcDefer (.same h)

protected theorem Canonical.epcPreloaded (h : Canonical s) : Canonical (epcPreloaded s) :=
  .ite (.epcDefer (.stagePreloaded h)) (.stagePreloaded h)

protected theorem Canonical.epcSwap (h : Canonical s) {k} : Canonical (epcSwap k s) :=
  have h1 : Canonical _ := .forEach h fun hu => .swPut hu
  have h2 : Canonical _ := .ite (.liveApply h1) h1
  have h3 : Canonical _ := .ite h2 (.groupChange h2)
  .raise <| .epcLast <| .wr <| .setFld <| .epcClear <| .same <| .ite (.wr (.setFld (.wr h3))) h3

protected theorem Canonical.epcBoundary (h : Canonical s) {k} : Canonical (epcBoundary k s) :=
  .releaseTables <| .same <| .ite (.epcSwap <| .raise (.wr h)) <| .raise (.wr h)

/-! ## The two flashes -/

protected theorem Canonical.setFlash (h : Canonical s) {f t} : Canonical (setFlash f t s) :=
  .ite (.same h) (.same h)

protected theorem Canonical.flProg (h : Canonical s) {f a l} : Canonical (flProg f a l s) :=
  .setFlash h

protected theorem Canonical.flErase (h : Canonical s) {f a n} : Canonical (flErase f a n s) :=
  .setFlash h

protected theorem Canonical.nlsStat (h : Canonical s) : Canonical (nlsStat s) := .setFld (.setFld h)

protected theorem Canonical.nlsErrors (h : Canonical s) : Canonical (nlsErrors s) :=
  .forEach h fun hu => .raise (.bump hu)

protected theorem Canonical.nlsFail (h : Canonical s) {b} : Canonical (nlsFail b s) :=
  .ite h <| .raise (.setFld h)

protected theorem Canonical.nlsBegin (h : Canonical s) : Canonical (nlsBegin s) := by
  unfold nlsBegin
  split
  · split
    · exact .flProg (.flErase h)
    · exact h
  · exact h

protected theorem Canonical.nlsPut (h : Canonical s) {x} : Canonical (nlsPut x s) := by
  unfold nlsPut
  split
  · exact .flProg h
  · exact h

protected theorem Canonical.nlsAppend (h : Canonical s) {x fail} : Canonical (nlsAppend x fail s) := by
  unfold nlsAppend
  dsimp only
  split
  · exact h
  · split
    · exact .raise <| .bump (.nlsBegin h)
    · split
      · split
        · exact .nlsFail (.nlsBegin h)
        · exact .nlsBegin h
      · exact .nlsStat <| .nlsPut (.nlsBegin h)

protected theorem Canonical.countErase (h : Canonical s) : Canonical (countErase s) :=
  .bump <| .same (.setFld h)

protected theorem Canonical.nlsRotate (h : Canonical s) {fail} : Canonical (nlsRotate fail s) := by
  unfold nlsRotate
  split
  · exact
      have h2 : Canonical _ := .countErase <| .ite h <| .forEach h fun hu => .nlsPut hu
      .ite h <| .ite (.nlsFail h2) <| .nlsStat <| .ite (.forEach (.flProg (.flErase h2)) fun hu => .nlsPut hu)
        (.flProg (.flErase h2))
  · exact h

/-! ## Double-stop pairs -/

protected theorem Canonical.setMisses (h : Canonical s) {v} : Canonical (setMisses s v) := .setFld h

protected theorem Canonical.setRole (h : Canonical s) {v} : Canonical (setRole s v) := .setFld h

protected theorem Canonical.setHandover (h : Canonical s) {v} : Canonical (setHandover v s) :=
  .setFld (.same h)

protected theorem Canonical.mirrorWr (h : Canonical s) {note off data} : Canonical (mirrorWr note off data s) := by
  unfold mirrorWr
  split
  · exact h
  · exact .sendObx h

protected theorem Canonical.mirrorBank (h : Canonical s) {off l} : Canonical (mirrorBank off l s) :=
  .forEach h fun hu => .mirrorWr hu

protected theorem Canonical.boundaryMark (h : Canonical s) {k} : Canonical (boundaryMark k s) :=
  .ite (.bpUpdate <| .setHandover <| .ite (.same h) h) <| .ite (.same h) h

protected theorem Canonical.countLine (h : Canonical s) : Canonical (countLine s) :=
  .bumpWrap (.same h)

protected theorem Canonical.mirrorSend (h : Canonical s) : Canonical (mirrorSend s) := by
  unfold mirrorSend
  dsimp only
  split
  · exact h
  · split
    · split
      · split
        · exact .obxPump <| .countLine <| .mirrorWr <| .setFld (.same h)
        · exact .setFld (.same h)
      · exact h
    · split
      · exact h
      · split
        · exact .same h
        · exact .obxPump <| .countLine <| .mirrorWr (.same h)

protected theorem Canonical.sendMark (h : Canonical s) {m} : Canonical (sendMark m s) :=
  .obxPump <| .wr <| .same <| .mirrorWr <| .mirrorBank <| .mirrorBank (.mirrorBank h)

protected theorem Canonical.markerSend (h : Canonical s) : Canonical (markerSend s) := by
  unfold markerSend
  split
  · exact .ite h (.sendMark h)
  · exact h

protected theorem Canonical.handoverComplete (h : Canonical s) : Canonical (handoverComplete s) := by
  unfold handoverComplete
  split
  · exact .ite (.bpUpdate <| .raise <| .setHandover <| .setRole (.sendMark h)) h
  · exact h

protected theorem Canonical.startSync (h : Canonical s) : Canonical (startSync s) :=
  .ite h <| .setFld <| .setSync (.same h)

protected theorem Canonical.copyLine (h : Canonical s) {e} : Canonical (copyLine e s) := by
  unfold copyLine
  split
  · exact .memWrite h
  · exact h

protected theorem Canonical.installLock (h : Canonical s) {n w} : Canonical (installLock n w s) :=
  .ite (.abandonLock <| .boostCheck (.setLock h)) <| .boostCheck (.setLock h)

protected theorem Canonical.installLocks (h : Canonical s) {b} : Canonical (installLocks b s) :=
  .forEach h fun hu => .installLock hu

protected theorem Canonical.installLanes (h : Canonical s) {b} : Canonical (installLanes b s) :=
  .same h

protected theorem Canonical.installSettings (h : Canonical s) {b} : Canonical (installSettings b s) :=
  .epcDiscard <| .ite (.forEach h fun hu => .swPut hu) <| .groupChange <| .forEach h fun hu => .swPut hu

protected theorem Canonical.becomeActive (h : Canonical s) : Canonical (becomeActive s) :=
  .bpUpdate <| .setRole <| .installSettings <| .installLanes (.installLocks h)

protected theorem Canonical.takeMarker (h : Canonical s) {m lines} : Canonical (takeMarker m lines s) :=
  have h1 : Canonical _ := .forEach h fun hu => .copyLine hu
  have h2 : Canonical _ := .bumpWrapBy <| .same (.setFld (.wr h1))
  .ite (.unsync h) <| .ite (.raise <| .raise (.becomeActive h2)) h2

protected theorem Canonical.markerReceive (h : Canonical s) : Canonical (markerReceive s) := by
  unfold markerReceive
  split
  · exact h
  · exact .ite (.takeMarker (.same h)) (.same h)

protected theorem Canonical.commitAll {n} (h : Canonical s) : Canonical (commitAll n s) := by
  induction n generalizing s with
  | zero => exact h
  | succ n ih => exact .ite h (ih (.markerReceive h))

protected theorem Canonical.heartbeatSend (h : Canonical s) : Canonical (heartbeatSend s) :=
  .ite (.obxPump <| .mirrorWr (.same h)) h

protected theorem Canonical.heartbeatArrives (h : Canonical s) {rec_} : Canonical (heartbeatArrives rec_ s) :=
  .ite (.ite (.startSync (.setMisses (.same h))) (.setMisses (.same h))) <|
    .ite (.ite (.setSync (.setMisses (.same h))) <| .ite (.raise <|
    .setSync (.setMisses (.same h))) (.setMisses (.same h))) (.setMisses (.same h))

protected theorem Canonical.dstArrive (h : Canonical s) {dev a l} : Canonical (dstArrive dev a l s) :=
  .ite h <| .ite (.heartbeatArrives h) <| .ite h <| .ite (.same h) <| .ite (.same h) h

protected theorem Canonical.failover (h : Canonical s) : Canonical (failover s) :=
  have h1 : Canonical _ := .becomeActive (.same (.commitAll h))
  .obxPump <| .raise <| .bump <| .setSync <| .ite (.originate h1) h1

protected theorem Canonical.heartbeatPeriodEnd (h : Canonical s) : Canonical (heartbeatPeriodEnd s) :=
  have h1 : Canonical _ := .raise (.setMisses (.same h))
  .ite (.same h) <| .ite h1 <| .ite (.unsync h1) (.ite (.failover h1) h1)

protected theorem Canonical.fence (h : Canonical s) : Canonical (fence s) :=
  .ite h <| .bpUpdate <| .raise <| .settleLinks <| .setFld (.setRole h)

protected theorem Canonical.dstCfgWrite (h : Canonical s) {v} : Canonical (dstCfgWrite v s) :=
  .ite (.ite h <| .bpUpdate (.wr (.wr (.same h)))) <| .ite (.wr h) <| .bpUpdate <| .setRole <|
    .wr (.wr (.same (.wr h)))

protected theorem Canonical.dstHandover (h : Canonical s) : Canonical (dstHandover s) :=
  .ite (.setHandover h) h

protected theorem Canonical.dstCmd (h : Canonical s) {v} : Canonical (dstCmd v s) := by
  unfold dstCmd
  split
  · exact .ite (.failover h) h
  · exact .dstHandover h
  · exact .startSync h
  · exact .wr h
  · exact h

/-! ## The rows of Obrex Link -/

protected theorem CanonicalOut.onObx (h : Canonical s) {l f} (hf : ∀ {u}, Canonical u → Canonical (f u)) :
    CanonicalOut (onObx l f s) :=
  .ite (.next <| .ite (hf h) h) .refused

protected theorem Canonical.lcfgWrite (h : Canonical s) {l v} : Canonical (lcfgWrite l v s) :=
  .ite (.ite (.setLinkState (.wr h)) (.wr h)) <| .ite (.wr h) <| .obxPump <| .setLinkState <| .linkClear (.wr h)

protected theorem Canonical.linkTrained (h : Canonical s) {l} : Canonical (linkTrained l s) :=
  .ite h <| .setLinkState (.setOlink h)

protected theorem Canonical.linkRearm (h : Canonical s) {l} : Canonical (linkRearm l s) :=
  .ite (.ite (.setLinkState (.setFld h)) (.setFld h)) h

protected theorem Canonical.initRecord (h : Canonical s) {l devid tag joined half} :
    Canonical (initRecord l devid tag joined half s) := by
  unfold initRecord
  dsimp only
  split
  · split
    · exact .settleLink <| .setLinkState <| .setFld <| .updOlink (.setFld h)
    · exact .raise <| .setFld <| .updOlink (.setFld h)
    · exact .raise <| .setFld <| .updOlink (.setFld h)
    · exact .setFld <| .updOlink (.setFld h)
  · exact .settleLink <| .updOlink (.setFld h)

protected theorem Canonical.initArrives (h : Canonical s) {l seq ack devid tag joined half} :
    Canonical (initArrives l seq ack devid tag joined half s) :=
  .ite (.ite (.lcnt (.setOlink h)) <| .sendNak (.lcnt (.setOlink h))) <| .initRecord <|
    .updOlink (.lcnt (.setOlink h))

protected theorem CanonicalOut.execObxLinkEnable (h : Canonical s) {l v} : CanonicalOut (execObxLinkEnable l v s) :=
  .ite .refused <| .onObx h fun hu => .lcfgWrite hu

protected theorem CanonicalOut.execObxLinkDisable (h : Canonical s) {l v} :
    CanonicalOut (execObxLinkDisable l v s) :=
  .ite .refused <| .onObx h fun hu => .lcfgWrite hu

protected theorem CanonicalOut.execObxTrainingComplete (h : Canonical s) {l} :
    CanonicalOut (execObxTrainingComplete l s) :=
  .onObx h fun hu => .linkTrained hu

protected theorem CanonicalOut.execInitFlitSend (h : Canonical s) {l} : CanonicalOut (execInitFlitSend l s) :=
  .onObx h fun hu => .ite (.sendSeq hu) hu

protected theorem CanonicalOut.execInitReceive (h : Canonical s) {l seq ack devid tag joined num half} :
    CanonicalOut (execInitReceive l seq ack devid tag joined num half s) :=
  .ite .refused <| .onObx h fun hu => .ite (.obxPump (.initArrives hu)) hu

protected theorem Canonical.takeUnknown (h : Canonical s) : Canonical (takeUnknown s) :=
  .forEach (.same h) fun hu => .takeNotice hu

protected theorem CanonicalOut.execFlitReceive (h : Canonical s) {l b} : CanonicalOut (execFlitReceive l b s) :=
  .onObx h fun hu => .ite (.obxPump <| .takeUnknown (.flitArrives hu)) hu

protected theorem CanonicalOut.execNakRepeat (h : Canonical s) {l} : CanonicalOut (execNakRepeat l s) :=
  .onObx h fun hu => .ite (.sendNak hu) hu

protected theorem CanonicalOut.execReplayTimeout (h : Canonical s) {l} : CanonicalOut (execReplayTimeout l s) :=
  .onObx h fun hu => by split; exacts [.ite (.obxPump (.replay hu)) hu, hu]

protected theorem CanonicalOut.execObxLinkLoss (h : Canonical s) {l} : CanonicalOut (execObxLinkLoss l s) :=
  .onObx h fun hu => .ite (.obxPump (.linkHalfReset hu)) hu

protected theorem CanonicalOut.onRx (h : Canonical s) {l typ f} (hf : ∀ {r u}, Canonical u → Canonical (f r u)) :
    CanonicalOut (onRx l typ f s) := by
  refine .onObx h fun hu => ?_
  split
  · exact hu
  · next hr =>
    have h1 := Canonical.takeRx hu hr
    exact .ite hu <| .obxPump <| .ite (.cntNonmember h1) <| .ite h1 (hf h1)

protected theorem Canonical.rxPkt (h : Canonical s) {r} : Canonical (rxPkt r s) :=
  .ite (.bump h) <| .ite h (.ingress h)

protected theorem Canonical.answer (h : Canonical s) {r status data} : Canonical (answer r status data s) := by
  unfold answer
  split
  · exact .respond h
  · exact h

protected theorem Canonical.rxRd (h : Canonical s) {ecc r} : Canonical (rxRd ecc r s) := by
  refine .ite (.answer h) ?_
  split
  · next hp => exact .answer <| .snd hp (.remoteTarget h)
  · next hp => exact .answer <| .memReadCheck <| .snd hp (.remoteTarget h)

protected theorem Canonical.rxWr (h : Canonical s) {r} : Canonical (rxWr r s) := by
  refine .ite (.answer h) ?_
  split
  · next hp => exact .answer <| .snd hp (.remoteTarget h)
  · next hp =>
    have h1 := Canonical.snd hp (.remoteTarget h)
    exact .answer <| .ite (.memWrite h1) (.dstArrive (.memWrite h1))

protected theorem Canonical.rxAtom (h : Canonical s) {ecc r} : Canonical (rxAtom ecc r s) := by
  unfold rxAtom
  split
  · exact .answer h
  · split
    · next hp => exact .answer <| .snd hp (.remoteTarget h)
    · next hp =>
      have h2 := Canonical.snd hp (.remoteTarget h)
      exact .ite (.answer (.memReadCheck h2)) (.answer <| .memAtomic (.memReadCheck h2))

protected theorem Canonical.rxLock (h : Canonical s) {r} : Canonical (rxLock r s) :=
  .ite (.respond (.denied h)) <| .respond (.gkoCommand h)

protected theorem Canonical.rxIntr (h : Canonical s) {r} : Canonical (rxIntr r s) :=
  .ite (.respond (.denied h)) <| .respond <| .ite (.ite (.raise h) h) <| .ite (.notifyPush h) h

protected theorem Canonical.rxMember (h : Canonical s) {r} : Canonical (rxMember r s) :=
  .forEach h fun hu => .wr hu

protected theorem CanonicalOut.execPkt (h : Canonical s) {l} : CanonicalOut (execPkt l s) :=
  .onRx h fun hu => .rxPkt hu

protected theorem CanonicalOut.execRd (h : Canonical s) {l ecc} : CanonicalOut (execRd l ecc s) :=
  .ite .refused <| .onRx h fun hu => .rxRd hu

protected theorem CanonicalOut.execWr (h : Canonical s) {l} : CanonicalOut (execWr l s) :=
  .onRx h fun hu => .rxWr hu

protected theorem CanonicalOut.execAtom (h : Canonical s) {l ecc} : CanonicalOut (execAtom l ecc s) :=
  .ite .refused <| .onRx h fun hu => .rxAtom hu

protected theorem CanonicalOut.execLock (h : Canonical s) {l} : CanonicalOut (execLock l s) :=
  .onRx h fun hu => .rxLock hu

protected theorem CanonicalOut.execIntr (h : Canonical s) {l} : CanonicalOut (execIntr l s) :=
  .onRx h fun hu => .rxIntr hu

protected theorem CanonicalOut.execResp (h : Canonical s) {l} : CanonicalOut (execResp l s) :=
  .onRx h fun hu => .takeResp hu

protected theorem CanonicalOut.execMember (h : Canonical s) {l} : CanonicalOut (execMember l s) :=
  .onRx h fun hu => .rxMember hu

protected theorem CanonicalOut.execObxRequestTimeout (h : Canonical s) {tag} :
    CanonicalOut (execObxRequestTimeout tag s) := by
  unfold execObxRequestTimeout
  split
  · exact .ite (.next <| .obxPump (.same h)) (.next h)
  · exact .next h

protected theorem CanonicalOut.onNotice (h : Canonical s) {l kind} : CanonicalOut (onNotice l kind s) :=
  .onObx h fun hu => by split; exacts [hu, .obxPump <| .takeNotice (.same hu)]

protected theorem CanonicalOut.execMute (h : Canonical s) {l} : CanonicalOut (execMute l s) :=
  .onNotice h

protected theorem CanonicalOut.execUnmute (h : Canonical s) {l} : CanonicalOut (execUnmute l s) :=
  .onNotice h

protected theorem CanonicalOut.execLeave (h : Canonical s) {l} : CanonicalOut (execLeave l s) := by
  refine .onObx h fun hu => ?_
  split
  · exact hu
  · exact .obxPump <| .ite (.fence <| .takeNotice (.same hu)) <| .takeNotice (.same hu)

protected theorem CanonicalOut.execJoin (h : Canonical s) {l} : CanonicalOut (execJoin l s) :=
  .onNotice h

protected theorem Canonical.noticeCmd (h : Canonical s) {w} : Canonical (noticeCmd w s) :=
  .ite h <| .obxPump (.originate h)

protected theorem CanonicalOut.originateRow (h : Canonical s) {kind w} : CanonicalOut (originateRow kind w s) :=
  .ite (.next (.noticeCmd h)) .refused

protected theorem CanonicalOut.execOriginateMute (h : Canonical s) {w} : CanonicalOut (execOriginateMute w s) :=
  .originateRow h

protected theorem CanonicalOut.execOriginateUnmute (h : Canonical s) {w} : CanonicalOut (execOriginateUnmute w s) :=
  .originateRow h

protected theorem CanonicalOut.execOriginateLeave (h : Canonical s) {w} : CanonicalOut (execOriginateLeave w s) :=
  .originateRow h

protected theorem CanonicalOut.execOriginateJoin (h : Canonical s) {w} : CanonicalOut (execOriginateJoin w s) :=
  .originateRow h

protected theorem CanonicalOut.execMuteExpiry (h : Canonical s) {k} : CanonicalOut (execMuteExpiry k s) := by
  unfold execMuteExpiry
  split
  · split
    · exact .next <| .ite h <| .obxPump (.muteEnd h)
    · exact .next h
  · split
    · exact .next <| .ite h <| .obxPump <| .muteStat (.same h)
    · exact .next h

protected theorem CanonicalOut.execRecentPairExpiry (h : Canonical s) {origin id} :
    CanonicalOut (execRecentPairExpiry origin id s) :=
  .next (.same h)

protected theorem Canonical.obxIdWrite (h : Canonical s) {v} : Canonical (obxIdWrite v s) :=
  have h1 : Canonical _ := .ite h (.setFld h)
  .ite (.obxPump <| .settleLinks <| .originate <| .setMember <| .same (.setFld (.setFld h1))) <| .ite (.obxPump <|
    .settleLinks <| .setFld (.originate h1)) h1

protected theorem CanonicalOut.execJoinDomain (h : Canonical s) {v} : CanonicalOut (execJoinDomain v s) :=
  .ite (.next (.obxIdWrite h)) .refused

protected theorem CanonicalOut.execLeaveDomain (h : Canonical s) {v} : CanonicalOut (execLeaveDomain v s) :=
  .ite (.next (.obxIdWrite h)) .refused

protected theorem CanonicalOut.execTimestampSend (h : Canonical s) {l} : CanonicalOut (execTimestampSend l s) :=
  .onObx h fun hu => .ite (.sendFlit (.setOlink hu)) hu

protected theorem Canonical.obxClr (h : Canonical s) : Canonical (obxClr s) :=
  .forEach (.wr (.wr h)) fun hu => .forEach hu fun h1 => .wr h1

protected theorem CanonicalOut.execObxCtlClr (h : Canonical s) : CanonicalOut (execObxCtlClr s) :=
  .next (.obxClr h)

protected theorem Canonical.fabricSend (h : Canonical s) {vc dev ecc} : Canonical (fabricSend vc dev ecc s) := by
  unfold fabricSend
  split
  · exact h
  · split
    · exact .refDone <| .badDest (.egressPop h)
    · split
      · exact .refDone <| .bump (.egressPop h)
      · split
        · exact h
        · split
          · exact h
          · exact .ite h <| .refDone <| .obxPump <| .sendObx <| .egressRead (.egressPop h)

protected theorem CanonicalOut.execFabricPktSend (h : Canonical s) {vc dev ecc} :
    CanonicalOut (execFabricPktSend vc dev ecc s) :=
  .ite .refused <| .next (.fabricSend h)

/-! ## Clock domains, PLLs, reset domains and half-reset -/

protected theorem Canonical.devRelease (h : Canonical s) : Canonical (devRelease s) :=
  .ite h <| .setDom <| .setFld (.same h)

protected theorem Canonical.clockStop (h : Canonical s) {d} : Canonical (clockStop d s) :=
  .ite h (.same h)

theorem canonical_reset : Canonical State.reset := by
  refine ⟨⟨.nil, nofun⟩, rfl, rfl, rfl, ⟨rfl, nofun⟩, nofun⟩

protected theorem Canonical.blank : Canonical (blank s) := .same canonical_reset

/-- A blank state that keeps some of the registers. -/
protected theorem Canonical.blank_filter (h : Canonical s) {p clk pwr svc} :
    Canonical { blank s with csr := s.csr.filter p, clk := clk, pwr := pwr, svc := svc } :=
  ⟨regsWf_filter _ _ h.csr, rfl, rfl, rfl, ⟨rfl, nofun⟩, nofun⟩

protected theorem Canonical.partReset {keep} : Canonical (partReset keep s) :=
  have h1 : Canonical _ := .setFld <| .setFld <| .setFld <| .foldl .blank fun hu => .wr hu
  .ite (.setFld h1) h1

protected theorem Canonical.refFailure (h : Canonical s) : Canonical (refFailure s) :=
  .setFld <| .wr h.blank_filter

protected theorem Canonical.refWindow (h : Canonical s) {n} : Canonical (refWindow n s) :=
  .ite (.ite (.setFld (.setFld h)) (.setFld h)) <| .ite (.refFailure <|
    .setFld (.same (.setFld h))) (.same (.setFld h))

protected theorem Canonical.svcPortDown (h : Canonical s) : Canonical (svcPortDown s) :=
  .ite h <| .raise <| .halfFlush <| .setFld (.setFld h)

protected theorem Canonical.obxLoss (h : Canonical s) {l} : Canonical (obxLoss l s) :=
  .ite (.obxPump (.linkHalfReset h)) h

protected theorem Canonical.hostPortDown (h : Canonical s) {p} : Canonical (hostPortDown p s) :=
  .forEach h fun hu => .hostDown hu

protected theorem Canonical.perstAssert (h : Canonical s) {p} : Canonical (perstAssert p s) :=
  .same (.hostPortDown h)

protected theorem Canonical.halfTrigger (h : Canonical s) {kind i} : Canonical (halfTrigger kind i s) := by
  unfold halfTrigger
  split
  · exact .ite (.bpUpdate (.portHalf h)) h
  · exact .ite (.obxLoss h) h
  · exact .ite (.hostDown h) h
  · exact .svcPortDown h
  · exact .ite (.perstAssert h) h

protected theorem Canonical.halfRearm (h : Canonical s) {kind i} : Canonical (halfRearm kind i s) := by
  unfold halfRearm
  split
  · exact .ite (.portRearm h) h
  · exact .ite (.linkRearm h) h
  · exact .ite (.setFld h) h
  · exact .setFld h
  · exact h

protected theorem Canonical.pllHoldQuad (h : Canonical s) {q} : Canonical (pllHoldQuad q s) :=
  .forEach h fun hu => .cluResetBegin (.updClu hu)

protected theorem Canonical.pllUnlock (h : Canonical s) {p} : Canonical (pllUnlock p s) :=
  .ite h <| .ite (.raise <| .pllHoldQuad (.bump (.same h))) <| .ite (.raise <|
    .forEach (.forEach (.bump (.same h)) fun hu => .bpUpdate (.portHalf hu)) fun hu => .obxLoss hu) <|
    .ite (.raise <| .hostPortDown (.bump (.same h))) <| .refFailure (.bump (.same h))

protected theorem Canonical.pllLock (h : Canonical s) {p} : Canonical (pllLock p s) :=
  .ite h <| .ite (.ite (.forEach (.same h) fun hu => .updClu hu) (.same h)) (.same h)

protected theorem Canonical.cluRst (h : Canonical s) {v} : Canonical (cluRst v s) :=
  .forEach h fun hu => .cluResetBegin hu

protected theorem Canonical.cluHoldWrite (h : Canonical s) {v} : Canonical (cluHoldWrite v s) :=
  .forEach (.wr h) fun hu => .cluResetBegin hu

protected theorem Canonical.fifoDeliver (h : Canonical s) {c} : Canonical (fifoDeliver c s) := by
  unfold fifoDeliver
  split
  · exact h
  · exact .bpUpdate <| .endingArrives (.same h)

protected theorem Canonical.crsClr (h : Canonical s) : Canonical (crsClr s) :=
  .forEach (.wr h) fun hu => .setFld hu

/-! ## The rows of clocks, resets and crossings -/

protected theorem CanonicalOut.execRefclkMonitorWindow (h : Canonical s) {n} :
    CanonicalOut (execRefclkMonitorWindow n s) :=
  .next (.refWindow h)

protected theorem CanonicalOut.execPllUnlock (h : Canonical s) {p} : CanonicalOut (execPllUnlock p s) :=
  .ite (.next (.pllUnlock h)) .refused

protected theorem CanonicalOut.execPllLock (h : Canonical s) {p} : CanonicalOut (execPllLock p s) :=
  .ite (.next (.pllLock h)) .refused

protected theorem CanonicalOut.execClockStop (h : Canonical s) {d} : CanonicalOut (execClockStop d s) :=
  .ite (.next (.clockStop h)) .refused

protected theorem CanonicalOut.execHandshakeDelivery (h : Canonical s) {n} :
    CanonicalOut (execHandshakeDelivery n s) :=
  .ite .refused <| .next <| .ite h (.xingDeliver h)

protected theorem CanonicalOut.execFifoCrossingDelivery (h : Canonical s) {c} :
    CanonicalOut (execFifoCrossingDelivery c s) :=
  .ite (.next (.fifoDeliver h)) .refused

protected theorem CanonicalOut.execDevRelease (h : Canonical s) {agent} : CanonicalOut (execDevRelease agent s) :=
  .ite .refused <| .ite (.next (.devRelease h)) <| .next (.bwRefused h)

protected theorem CanonicalOut.execClusterReset (h : Canonical s) {v} : CanonicalOut (execClusterReset v s) :=
  .next (.cluRst h)

protected theorem CanonicalOut.execClusterHoldWrite (h : Canonical s) {v} :
    CanonicalOut (execClusterHoldWrite v s) :=
  .next (.cluHoldWrite h)

protected theorem CanonicalOut.execClusterResetRelease (h : Canonical s) {c} :
    CanonicalOut (execClusterResetRelease c s) :=
  .onCluster h fun hu => .cluRelease hu

protected theorem CanonicalOut.execHalfResetTrigger (h : Canonical s) {kind n} :
    CanonicalOut (execHalfResetTrigger kind n s) :=
  .ite (.next (.halfTrigger h)) .refused

protected theorem CanonicalOut.execHalfResetRearm (h : Canonical s) {kind n} :
    CanonicalOut (execHalfResetRearm kind n s) :=
  .ite (.next (.halfRearm h)) .refused

protected theorem CanonicalOut.execCrsCtlClr (h : Canonical s) : CanonicalOut (execCrsCtlClr s) :=
  .next (.crsClr h)

protected theorem CanonicalOut.execPerstpNRelease (h : Canonical s) {p} : CanonicalOut (execPerstpNRelease p s) :=
  .ite .refused <| .next <| .ite h (.same h)

/-! ## The rows of the Ethernet ports -/

protected theorem CanonicalOut.onPort (h : Canonical s) {p f} (hf : ∀ {u}, Canonical u → Canonical (f u)) :
    CanonicalOut (onPort p f s) :=
  .ite (.next <| hf h) .refused

protected theorem CanonicalOut.execFrameReceive (h : Canonical s) {p l corr uncor} :
    CanonicalOut (execFrameReceive p l corr uncor s) :=
  .onPort h fun hu => .ite (.bpUpdate <| .frameReceive <| .macSat (.macSat hu)) hu

protected theorem CanonicalOut.execPauseFrameReceive (h : Canonical s) {p pfc mask quanta} :
    CanonicalOut (execPauseFrameReceive p pfc mask quanta s) :=
  .onPort h fun hu => .ite (.pauseReceive hu) hu

protected theorem CanonicalOut.execPauseTimerExpiry (h : Canonical s) {p c} :
    CanonicalOut (execPauseTimerExpiry p c s) :=
  .ite .refused <| .onPort h fun hu => .showPause (.setPause hu)

protected theorem CanonicalOut.execPauseRepeat (h : Canonical s) {p} : CanonicalOut (execPauseRepeat p s) :=
  .onPort h fun hu => .ite (.sendPause hu) hu

protected theorem CanonicalOut.execEthTransmit (h : Canonical s) {p ecc} : CanonicalOut (execEthTransmit p ecc s) :=
  .ite .refused <| .onPort h fun hu => .ethTransmit hu

protected theorem CanonicalOut.execPortEnable (h : Canonical s) {p v} : CanonicalOut (execPortEnable p v s) :=
  .ite .refused <| .onPort h fun hu => .pcfgWrite hu

protected theorem CanonicalOut.execPortDisable (h : Canonical s) {p rx cut v} :
    CanonicalOut (execPortDisable p rx cut v s) :=
  .ite .refused <| .onPort h fun hu => .pcfgWrite hu

protected theorem CanonicalOut.execPortUp (h : Canonical s) {p} : CanonicalOut (execPortUp p s) :=
  .onPort h fun hu => .portTrained hu

protected theorem CanonicalOut.execPortLinkLoss (h : Canonical s) {p rx cut} :
    CanonicalOut (execPortLinkLoss p rx cut s) :=
  .ite .refused <| .onPort h fun hu => .bpUpdate (.portHalf hu)

protected theorem CanonicalOut.execRemoteFaultHeld (h : Canonical s) {p rx cut} :
    CanonicalOut (execRemoteFaultHeld p rx cut s) :=
  .ite .refused <| .onPort h fun hu => .bpUpdate (.portHalf hu)

protected theorem CanonicalOut.execMacCtlClr (h : Canonical s) {p} : CanonicalOut (execMacCtlClr p s) :=
  .onPort h fun hu => .macClr hu

/-! ## The rows of Gecko and the event controller -/

protected theorem CanonicalOut.lockRow (h : Canonical s) {op n w req} : CanonicalOut (lockRow op n w req s) :=
  .ite .refused <| .next <| .obxPump (.gkoCommand h)

protected theorem CanonicalOut.execClaim (h : Canonical s) {n w req} : CanonicalOut (execClaim n w req s) :=
  .lockRow h

protected theorem CanonicalOut.execFree (h : Canonical s) {n w req} : CanonicalOut (execFree n w req s) :=
  .lockRow h

protected theorem CanonicalOut.execWithdraw (h : Canonical s) {n w req} : CanonicalOut (execWithdraw n w req s) :=
  .lockRow h

protected theorem CanonicalOut.execReservationExpiry (h : Canonical s) {n} :
    CanonicalOut (execReservationExpiry n s) :=
  .ite .refused <| .next <| .obxPump (.gkoLapse h)

protected theorem CanonicalOut.execRegistrationExpiry (h : Canonical s) {n agent} :
    CanonicalOut (execRegistrationExpiry n agent s) :=
  .ite .refused <| .next <| .obxPump (.gkoExpire h)

protected theorem CanonicalOut.execGkoCtlClr (h : Canonical s) : CanonicalOut (execGkoCtlClr s) :=
  .next (.gkoClr h)

protected theorem CanonicalOut.onSource (h : Canonical s) {n f} (hf : ∀ {u}, Canonical u → Canonical (f u)) :
    CanonicalOut (onSource n f s) :=
  .ite (.next <| hf h) .refused

protected theorem CanonicalOut.execEventOccurrence (h : Canonical s) {n} : CanonicalOut (execEventOccurrence n s) :=
  .onSource h fun hu => .evOccur hu

protected theorem CanonicalOut.execEventDelivery (h : Canonical s) {n} : CanonicalOut (execEventDelivery n s) :=
  .onSource h fun hu => .evDeliver hu

protected theorem CanonicalOut.execEventAck (h : Canonical s) {n} : CanonicalOut (execEventAck n s) :=
  .onSource h fun hu => .evAck hu

protected theorem CanonicalOut.execSoftwareDoorbell (h : Canonical s) {n} :
    CanonicalOut (execSoftwareDoorbell n s) :=
  .ite (.next (.doorbell h)) .refused

protected theorem CanonicalOut.execSvcqRead (h : Canonical s) : CanonicalOut (execSvcqRead s) :=
  .next <| .emit (.svcqPop h)

protected theorem CanonicalOut.execEvtCtlClr (h : Canonical s) : CanonicalOut (execEvtCtlClr s) :=
  .next (.wr h)

/-! ## The rows of the host ports -/

protected theorem CanonicalOut.onHlink (h : Canonical s) {l f} (hf : ∀ {u}, Canonical u → Canonical (f u)) :
    CanonicalOut (onHlink l f s) :=
  .ite (.next <| hf h) .refused

protected theorem CanonicalOut.onFn (h : Canonical s) {fn f} (hf : ∀ {u}, Canonical u → Canonical (f u)) :
    CanonicalOut (onFn fn f s) :=
  .ite (.next <| hf h) .refused

protected theorem CanonicalOut.onHq (h : Canonical s) {q f} (hf : ∀ {u}, Canonical u → Canonical (f u)) :
    CanonicalOut (onHq q f s) :=
  .ite (.next <| hf h) .refused

protected theorem CanonicalOut.execHostLinkUp (h : Canonical s) {l cxl flit speed width} :
    CanonicalOut (execHostLinkUp l cxl flit speed width s) :=
  .ite .refused <| .onHlink h fun hu => .ite (.hostUp hu) hu

protected theorem CanonicalOut.execHostLinkDown (h : Canonical s) {l} : CanonicalOut (execHostLinkDown l s) :=
  .onHlink h fun hu => .hostDown hu

protected theorem CanonicalOut.execFunctionLevelReset (h : Canonical s) {fn} :
    CanonicalOut (execFunctionLevelReset fn s) :=
  .onFn h fun hu => .ite (.fnReset hu) hu

protected theorem CanonicalOut.execMailboxRing (h : Canonical s) {fn v} : CanonicalOut (execMailboxRing fn v s) :=
  .onFn h fun hu => .ite (.mboxRing (.mboxWrite hu)) hu

protected theorem CanonicalOut.execTxqEnable (h : Canonical s) {q v} : CanonicalOut (execTxqEnable q v s) :=
  .ite .refused <| .onHq h fun hu => .txqCfgWrite hu

protected theorem CanonicalOut.execTxDoorbell (h : Canonical s) {fn idx tail} :
    CanonicalOut (execTxDoorbell fn idx tail s) :=
  .ite .refused <| .onFn h fun hu => .ite (.txDoorbell hu) hu

protected theorem CanonicalOut.execRxDoorbell (h : Canonical s) {fn idx tail} :
    CanonicalOut (execRxDoorbell fn idx tail s) :=
  .ite .refused <| .onFn h fun hu => .ite (.rxDoorbell hu) hu

protected theorem CanonicalOut.execTxFetch (h : Canonical s) {q k} : CanonicalOut (execTxFetch q k s) :=
  .onHq h fun hu => .ite (.ringReads (.setHtx hu)) hu

protected theorem CanonicalOut.execTxFetchComplete (h : Canonical s) {q tag ds data} :
    CanonicalOut (execTxFetchComplete q tag ds data s) :=
  .onHq h fun hu => .txComplete hu

protected theorem CanonicalOut.execHostCompletionTimeout (h : Canonical s) {q tag} :
    CanonicalOut (execHostCompletionTimeout q tag s) :=
  .onHq h fun hu => .txTimeout hu

protected theorem CanonicalOut.execHostRxWrite (h : Canonical s) {fn idx addr blen ecc} :
    CanonicalOut (execHostRxWrite fn idx addr blen ecc s) :=
  .ite .refused <| .onFn h fun hu => .rxWrite hu

protected theorem CanonicalOut.execRxNobufExpiry (h : Canonical s) {fn idx} :
    CanonicalOut (execRxNobufExpiry fn idx s) :=
  .onFn h fun hu => by split; exacts [.ite (.rxNoBuf hu) hu, hu]

protected theorem CanonicalOut.execCxlMemRequest (h : Canonical s) {ld hpa write mask data ecc} :
    CanonicalOut (execCxlMemRequest ld hpa write mask data ecc s) :=
  .ite .refused <| .next (.cxlRequest h)

protected theorem CanonicalOut.execHstCtlClr (h : Canonical s) : CanonicalOut (execHstCtlClr s) :=
  .next (.hstClr h)

protected theorem CanonicalOut.execCxlMailboxCommand (h : Canonical s) {l op} :
    CanonicalOut (execCxlMailboxCommand l op s) :=
  .ite .refused <| .onHlink h fun hu => .ite (.cxlCommand hu) hu

/-! ## The LYR instruction, Lyre's completions, flushes and counters -/

protected theorem Canonical.lyrAbandon (h : Canonical s) {t} : Canonical (lyrAbandon s t) := .bump h

protected theorem Canonical.lyrRefuse (h : Canonical s) {t w d reason} : Canonical (lyrRefuse s t w d reason) :=
  .trapUndef <| .lyrAbandon <| .bump (.wr h)

protected theorem Canonical.lyrBusy (h : Canonical s) {t} : Canonical (lyrBusy s t) := by
  unfold lyrBusy
  exact .updTh <| .squashed <| .markHigh (.bump h)

protected theorem Canonical.lyrIsBusy (h : Canonical s) {t} : Canonical (lyrIsBusy s t).2 :=
  .ite_snd h <| .ite_snd h (.choose h)

protected theorem Canonical.lyrSnapshot (h : Canonical s) {t d} : Canonical (lyrSnapshot s t d).2 := by
  have hget {b : Bool} {a k u} (hu : Canonical u) : Canonical
      (if b then lyrFetch u t a k else (([] : List Byte), u)).2 :=
    .ite_snd (.lyrFetch hu) hu
  unfold lyrSnapshot
  dsimp only
  split
  · exact h
  · exact hget (hget (hget h))

protected theorem Canonical.lyrAccept (h : Canonical s) {t w priv save d} :
    Canonical (lyrAccept s t w priv save d) := by
  unfold lyrAccept
  extract_lets rs outside den s1
  clear_value den
  have h1 : Canonical s1 := by
    unfold s1
    split
    · exact .denied h
    · exact h
  exact .finishSeq <| .updTh <| .updClu <| .commitOp <| .takeSlot <| .ite_snd h1 (.lyrSnapshot h1)

protected theorem Canonical.lyrIssue (h : Canonical s) {t w en} : Canonical (lyrIssue t w en s) := by
  unfold lyrIssue
  dsimp only
  refine .issue h fun {u} hu => ?_
  have h1 : Canonical (readG u t (iA w)).2 := .readG hu
  split
  · exact .trapDist h1
  · refine .ite (.trapAddr (.lyrAbandon h1)) <| .ite (.trapAlign (.lyrAbandon h1)) ?_
    split
    · exact .lyrRefuse <| .choose (.lyrNear h1)
    · exact .ite (.trapTokBusy <| .lyrAbandon (.lyrNear h1)) <| .ite (.lyrBusy <| .lyrIsBusy (.lyrNear h1)) <|
        .lyrAccept <| .lyrIsBusy (.lyrNear h1)

protected theorem CanonicalOut.execLyr (h : Canonical s) {t w} : CanonicalOut (execLyr t w s) :=
  .newt h fun hu => .ite hu <| .lyrIssue (.readCsr hu)

protected theorem CanonicalOut.execLyrBusyRetry (h : Canonical s) {t} : CanonicalOut (execLyrBusyRetry t s) :=
  .ite .refused <| .ite (.next (.updTh h)) (.next h)

protected theorem CanonicalOut.execLyreOperationComplete (h : Canonical s) {id ecc} :
    CanonicalOut (execLyreOperationComplete id ecc s) := by
  unfold execLyreOperationComplete
  dsimp only
  split
  · exact .refused
  · split
    · exact .next h
    · split
      · exact .next h
      · exact .ite (.next h) <| .next <| .complete <| .updClu (.lyrFinish h)

protected theorem Canonical.lyrFlush (h : Canonical s) {c v} : Canonical (lyrFlush c v s) :=
  .ite h <| .setFld (.updClu h)

protected theorem CanonicalOut.execLyreFlush (h : Canonical s) {c v} : CanonicalOut (execLyreFlush c v s) :=
  .ite .refused <| .next (.lyrFlush h)

protected theorem CanonicalOut.execLyreFlushComplete (h : Canonical s) {c} :
    CanonicalOut (execLyreFlushComplete c s) := by
  unfold execLyreFlushComplete
  split
  · exact .refused
  · split
    · exact .next h
    · exact .ite (.next h) <| .next <| .setFld <| .updClu <| .setSlots <| .forEach h fun hu => .saveSlot hu

protected theorem Canonical.lyrClr (h : Canonical s) {c} : Canonical (lyrClr c s) :=
  .foldl (.forEach h fun hu => .updCore hu) fun hu => .wr hu

protected theorem CanonicalOut.execCluLyctlClr (h : Canonical s) {c} : CanonicalOut (execCluLyctlClr c s) :=
  .ite .refused <| .next (.lyrClr h)

/-! ## Supply and temperature, device power states, and Chameleon -/

protected theorem Canonical.holdupCheck (h : Canonical s) : Canonical (holdupCheck s) :=
  .ite (.raise (.setFld h)) h

protected theorem Canonical.hokChange (h : Canonical s) {level} : Canonical (hokChange level s) :=
  .ite (.setFld h) <| .holdupCheck (.setFld h)

protected theorem Canonical.supplyReset {ov} : Canonical (supplyReset ov s) :=
  .same .partReset

protected theorem Canonical.vinRegs (h : Canonical s) {mv amps watts} : Canonical (vinRegs mv amps watts s) :=
  .setFld <| .same <| .setFld <| .setFld (.setFld h)

protected theorem Canonical.vinWarn (h : Canonical s) {mv} : Canonical (vinWarn mv s) :=
  .ite (.raise <| .holdupCheck <| .setFld (.same h)) <| .ite (.setFld (.same h)) (.same h)

protected theorem Canonical.vinSample (h : Canonical s) {mv amps watts} : Canonical (vinSample mv amps watts s) :=
  .ite (.same h) <| .ite (.supplyReset) <| .holdupCheck <| .vinWarn <| .vinRegs (.same h)

protected theorem Canonical.tempSample (h : Canonical s) {l} : Canonical (tempSample l s) :=
  have h1 : Canonical _ := .forEach h fun hu => .same <| .ite (.setFld (.setFld hu)) (.setFld hu)
  .ite (.raise <| .same (.setFld h1)) <| .ite (.same (.setFld h1)) (.setFld h1)

protected theorem Canonical.thermalTrip (h : Canonical s) : Canonical (thermalTrip s) :=
  .ite h <| .setFld <| .setFld <| .wr <| .setFld h.blank_filter

protected theorem Canonical.setReq (h : Canonical s) {v} : Canonical (setReq v s) := .setFld h

protected theorem Canonical.setCur (h : Canonical s) {v} : Canonical (setCur v s) :=
  .ite h <| .raise (.setFld h)

protected theorem Canonical.pwrRequest (h : Canonical s) {v} : Canonical (pwrRequest v s) :=
  .ite (.ite (.bpUpdate (.setCur (.same h))) <| .forEach (.setCur h) fun hu => .parkAtOnce hu) <|
    .ite (.ite (.same h) (.same h)) <| .ite h (.setCur (.same h))

protected theorem Canonical.pwrStateWrite (h : Canonical s) {v} : Canonical (pwrStateWrite v s) :=
  .pwrRequest <| .setReq <| .ite (.setFld h) h

protected theorem Canonical.selfRefOn (h : Canonical s) {m} : Canonical (selfRefOn m s) :=
  .setMcCtl (.issueOwed h)

protected theorem Canonical.selfRefOff (h : Canonical s) {m} : Canonical (selfRefOff m s) :=
  .ite (.issueOwed (.setMcCtl h)) h

protected theorem Canonical.standbyDrained (h : Canonical s) : Canonical (standbyDrained s) :=
  .ite h <| .setCur <| .same <| .forEach (.forEach h fun hu => .parkDone hu) fun hu => .selfRefOn hu

protected theorem Canonical.standbyAbort (h : Canonical s) : Canonical (standbyAbort s) :=
  .ite h <| .ite (.standbyDrained h) <| .bpUpdate <| .setFld <| .setCur (.setReq h)

protected theorem Canonical.standbyExit (h : Canonical s) : Canonical (standbyExit s) :=
  have h1 : Canonical _ := .bpUpdate <| .forEach (.setCur <| .same <|
    .forEach h fun hu => .selfRefOff hu) fun hu => .parkAtOnce hu
  .ite h <| .ite (.pwrRequest h1) h1

protected theorem Canonical.nlsRecord (h : Canonical s) {t body} : Canonical (nlsRecord t body s) :=
  .ite (.same h) (.nlsAppend h)

protected theorem Canonical.chmRecord (h : Canonical s) : Canonical (chmRecord s) := .nlsRecord h

protected theorem Canonical.setPlanQ (h : Canonical s) {q p} : Canonical (setPlanQ q p s) := .same h

protected theorem Canonical.planQuad (h : Canonical s) {q} : Canonical (planQuad q s) := by
  unfold planQuad
  split
  · exact h
  · exact .ite (.setPlanQ h) (.setPlanQ h)

protected theorem Canonical.planWrite (h : Canonical s) {q} : Canonical (planWrite q s) :=
  .raise <| .setPlanQ <| .setFld <| .setFld (.swWrite h)

protected theorem Canonical.planStage (h : Canonical s) : Canonical (planStage s) :=
  .ite h (have h1 : Canonical _ := .forEach h fun hu => .planWrite hu; .ite (.setFld (.commitWrite h1)) h1)

protected theorem Canonical.planBoundary (h : Canonical s) {applied} : Canonical (planBoundary applied s) :=
  .forEach (.ite (.chmRecord <| .raise (.setFld (.same h))) h) fun hu => .ite (.raise (.setPlanQ hu)) (.setPlanQ hu)

protected theorem Canonical.lifeSteps (h : Canonical s) {was hours} : Canonical (lifeSteps was hours s) :=
  .setFld h

protected theorem Canonical.lifeReport (h : Canonical s) : Canonical (lifeReport s) :=
  have h1 : Canonical _ := .setFld <| .same <| .setFld (.lifeSteps (.same h))
  .ite (.raise h1) h1

protected theorem Canonical.repSample (h : Canonical s) {l k} : Canonical (repSample l k s) :=
  .ite (.setFld h) <| .ite (.raise <| .bump <| .setFld (.setFld h)) <| .setFld (.setFld h)

protected theorem Canonical.chmSample (h : Canonical s) {ros reps} : Canonical (chmSample ros reps s) :=
  .ite h <| .planStage <| .forEach (.lifeReport <| .bumpWrap <|
    .forEach (.forEach h fun hu => .setFld (.setFld hu)) fun hu => .repSample hu) fun hu => .planQuad hu

protected theorem Canonical.lifeRestore (h : Canonical s) : Canonical (lifeRestore s) :=
  .setFld (.same h)

protected theorem Canonical.pwrClr (h : Canonical s) : Canonical (pwrClr s) :=
  .same <| .forEach (.setFld (.setFld h)) fun hu => .setFld hu

/-! ## Slots, the ROM's boot, commit and the version floor, reset, the commands of SVC_CMD -/

protected theorem Canonical.progMarker (h : Canonical s) {f m} : Canonical (progMarker f m s) := by
  unfold progMarker
  dsimp only
  exact .ite (.flProg h) h

protected theorem Canonical.slotStat (h : Canonical s) : Canonical (slotStat s) :=
  .forEach h fun hu => .wr hu

protected theorem Canonical.setMode (h : Canonical s) {m} : Canonical (setMode m s) := .same h

protected theorem Canonical.romStart (h : Canonical s) {f other} : Canonical (romStart f other s).2 :=
  .ite_snd (.same h) <| .setMode <| .same <| .slotStat (.wr h)

/-- One round of the selection, where what follows it keeps the form. (`romSelect`'s own equation lemmas exceed the
recursion depth, so its recursion is taken through the compiled step.) -/
protected theorem Canonical.romSelect_step (h : Canonical s) {n b} (hb : ∀ {u}, Canonical u → Canonical (b.1 u)) :
    Canonical (romSelect._f (Nat.succ n) b s) := by
  unfold romSelect._f
  dsimp -zeta only
  split
  · exact .setMode h
  · refine .ite (.setMode h) ?_
    extract_lets other s1
    have h1 : Canonical s1 := .ite (.progMarker h) h
    split
    · next hp => exact .snd hp (.romStart h1)
    · next hp => exact hb <| .snd hp (.romStart h1)

protected theorem Canonical.romSelect {n} (h : Canonical s) : Canonical (romSelect n s) := by
  delta romSelect
  induction n generalizing s with
  | zero =>
    delta romSelect._f
    exact .setMode h
  | succ n ih => exact .romSelect_step h ih

protected theorem Canonical.romBoot (h : Canonical s) : Canonical (romBoot s) :=
  .romSelect <| .slotStat (.same h)

protected theorem Canonical.romTimeout (h : Canonical s) : Canonical (romTimeout s) := by
  unfold romTimeout
  split
  · refine .ite h ?_
    dsimp only
    split
    · next hp => exact .snd hp (.romStart h)
    · next hp => exact .romSelect <| .snd hp (.romStart h)
  · exact h

protected theorem Canonical.svcRelease (h : Canonical s) : Canonical (svcRelease s) :=
  .ite h <| .ite (.setMode <| .holdupCheck (.same h)) <| .romBoot <| .holdupCheck (.same h)

protected theorem Canonical.svcReset : Canonical (svcReset s) :=
  .svcRelease .partReset

protected theorem Canonical.floorAdvance (h : Canonical s) : Canonical (floorAdvance s) := .setFld h

protected theorem Canonical.doCommit (h : Canonical s) : Canonical (doCommit s) :=
  .raise <| .setFld <| .same <| .slotStat <| .setFld <| .floorAdvance (.progMarker h)

protected theorem Canonical.commitStart (h : Canonical s) : Canonical (commitStart s) :=
  .ite h <| .ite (.same h) (.doCommit h)

protected theorem Canonical.svcEpoch (h : Canonical s) : Canonical (svcEpoch s) :=
  .ite (.same h) <| .ite (.commitStart <| .setFld (.same h)) <| .setFld (.same h)

protected theorem Canonical.rejectSelf (h : Canonical s) : Canonical (rejectSelf s) :=
  .ite h (.ite .svcReset .svcReset)

protected theorem Canonical.closeWindow (h : Canonical s) : Canonical (closeWindow s) := .setFld h

protected theorem Canonical.ownerPut (h : Canonical s) {b} : Canonical (ownerPut b s).2 :=
  .ite_snd h <| .ite_snd h <| .nlsRecord <| .closeWindow (.setFld h)

protected theorem Canonical.openStatus (h : Canonical s) : Canonical (openStatus s).2 := .draw h

protected theorem Canonical.tamperClear (h : Canonical s) : Canonical (tamperClear s).2 :=
  have h1 : Canonical _ := .closeWindow (.same (.setFld h))
  .ite_snd h <| .ite_snd h <| .ite_snd (.openStatus h) (.ite h1 (.setFld h1))

protected theorem Canonical.revoke (h : Canonical s) {k} : Canonical (revoke k s).2 :=
  .ite_snd h <| .ite_snd h <| .closeWindow (.setFld h)

protected theorem Canonical.commitCmd (h : Canonical s) : Canonical (commitCmd s).2 :=
  .ite_snd (.openStatus h) (.commitStart h)

protected theorem Canonical.svcDo (h : Canonical s) {c arg} : Canonical (svcDo c arg s).2 := by
  unfold svcDo
  split
  · exact .commitCmd h
  · exact .rejectSelf h
  · exact .svcReset
  · exact .ownerPut h
  · exact .ownerPut h
  · exact .tamperClear h
  · exact .revoke h
  · exact h

protected theorem Canonical.svcCmd (h : Canonical s) {c arg} : Canonical (svcCmd c arg s) :=
  .ite h <| .ite (.svcDo h) <| .wr (.svcDo h)

protected theorem Canonical.blowTset (h : Canonical s) : Canonical (blowTset s) :=
  .ite (.same h) (.setFld h)

protected theorem Canonical.sealCheck (h : Canonical s) {b} : Canonical (sealCheck b s) :=
  have h1 : Canonical _ := .setFld (.setFld (.same h))
  .ite h <| .ite (.ite (.setFld (.same h)) (.same h)) <| .ite h1 <| .ite (.blowTset (.raise h1)) (.setFld (.same h))

protected theorem Canonical.presLow (h : Canonical s) : Canonical (presLow s) := .setFld (.same h)

protected theorem Canonical.presenceOpen (h : Canonical s) : Canonical (presenceOpen s) := by
  unfold presenceOpen
  split
  · exact h
  · split
    · exact .setMode <| .slotStat <| .raise <| .setFld (.presLow h)
    · exact .raise <| .setFld (.presLow h)

protected theorem Canonical.presenceHigh (h : Canonical s) : Canonical (presenceHigh s) := by
  unfold presenceHigh
  split
  · exact .romBoot <| .setFld (.same h)
  · exact .setFld (.same h)

protected theorem Canonical.holdupGone (h : Canonical s) : Canonical (holdupGone s) := by
  unfold holdupGone
  extract_lets s1
  have h1 : Canonical s1 := by
    unfold s1
    split
    · exact .romSelect h
    · exact h
  exact .forEach (.same <| .forEach (.same <| .ite (.doCommit h1) h1) fun hu => .blowTset hu) fun hu => .nlsAppend hu

protected theorem Canonical.holdupClear (h : Canonical s) : Canonical (holdupClear s) :=
  .ite h <| .ite (.holdupGone (.setFld h)) h

protected theorem Canonical.bootRest (h : Canonical s) : Canonical (bootRest s) := by
  unfold bootRest
  split
  · next hp => exact .setMode <| .snd hp (.strBootRest h)
  · next hp => exact .snd hp (.strBootRest h)

protected theorem Canonical.bootCode (h : Canonical s) {out} : Canonical (bootCode out s) := by
  have h0 : Canonical (lifeRestore (devRelease s)) := .lifeRestore (.devRelease h)
  rw [bootCode]
  split
  · refine .ite h ?_
    extract_lets s0 s1 s2
    have h1 : Canonical s1 := .ite (.raise h0) h0
    have h2 : Canonical s2 := .ite h1 (.floorAdvance h1)
    split
    · next hp => exact .bootRest <| .snd hp (.strBoot h2)
    · next hp =>
      have h3 := Canonical.snd hp (.strBoot h2)
      exact .setMode <| .ite (.progMarker h3) (.setFld h3)
  · exact h

protected theorem Canonical.wokenTo (h : Canonical s) {c} : Canonical (wokenTo c s) :=
  .bootRest <| .cluWoken (.bootLoad h)

protected theorem Canonical.bootSeal (h : Canonical s) {agent} : Canonical (bootSeal agent s) := by
  unfold bootSeal
  split
  · exact .bwRefused h
  · split
    · exact h
    · split
      · exact .setMode <| .raise (.setFld h)
      · exact .raise (.setFld h)

protected theorem Canonical.svcClr (h : Canonical s) : Canonical (svcClr s) := .setFld (.wr h)

/-! ## The telemetry ring -/

protected theorem Canonical.telCapture (h : Canonical s) {runClear} : Canonical (telCapture runClear s) :=
  .ite h <| .ite (.ite (.raise <| .bump <| .same (.same h)) <| .bump <| .same (.same h)) <| .same (.same h)

protected theorem Canonical.telWritten (h : Canonical s) : Canonical (telWritten s) := by
  unfold telWritten
  split
  · exact h
  · exact .ite h <| .bumpWrap <| .same <| .ite (.forEach h fun hu => .memWrite hu) h

protected theorem Canonical.tringWrite (h : Canonical s) {v} : Canonical (tringWrite v s) :=
  .ite (.ite h <| .same (.setFld h)) <| .ite (.wr <| .same (.wr h)) (.wr h)

protected theorem Canonical.bkgClr (h : Canonical s) : Canonical (bkgClr s) :=
  .setFld <| .forEach (.wr (.wr h)) fun hu => .wr hu

protected theorem Canonical.epcCatch (h : Canonical s) {k ecc} : Canonical (epcCatch k ecc s) := by
  unfold epcCatch
  split
  · exact .epcDecide (.epcCutoff h)
  · exact .epcDecide h
  · exact h

protected theorem Canonical.boundaryAct (h : Canonical s) {k} : Canonical (boundaryAct k s) :=
  .planStage <| .releaseHeld <| .telCapture <| .svcEpoch <| .planBoundary <| .boundaryMark (.epcBoundary h)

protected theorem Canonical.epcJump (h : Canonical s) : Canonical (epcJump s) :=
  have h1 : Canonical _ := .ite h <| .same (.raise (.bumpBy h))
  have h2 : Canonical _ := .ite h <| .boundaryAct <| .epcCatch (.ite h1 (.same h1))
  have h3 : Canonical _ := .ite (.epcCutoff h2) h2
  .ite h <| .ite (.epcDecide h3) h3

protected theorem CanonicalOut.execEpochRunStart (h : Canonical s) {v} : CanonicalOut (execEpochRunStart v s) :=
  .ite (.next (.epcCtlWrite h)) .refused

protected theorem CanonicalOut.execSwRegisterWrite (h : Canonical s) {a v} :
    CanonicalOut (execSwRegisterWrite a v s) :=
  .ite .refused <| .next (.swWrite h)

protected theorem CanonicalOut.execCommitRequest (h : Canonical s) {nwr dom} :
    CanonicalOut (execCommitRequest nwr dom s) :=
  .ite .refused <| .next (.commitWrite h)

protected theorem CanonicalOut.execCommitWithdraw (h : Canonical s) : CanonicalOut (execCommitWithdraw s) :=
  .next <| .planStage (.commitWrite h)

protected theorem CanonicalOut.execCommitDiscard (h : Canonical s) : CanonicalOut (execCommitDiscard s) :=
  .next <| .planStage (.commitWrite h)

protected theorem CanonicalOut.execEpochCutoff (h : Canonical s) {ecc} : CanonicalOut (execEpochCutoff ecc s) :=
  .ite .refused <| .next <| .ite (.epcCutoff h) h

protected theorem CanonicalOut.execEpochDecisionPoint (h : Canonical s) : CanonicalOut (execEpochDecisionPoint s) :=
  .next <| .ite (.epcDecide h) h

protected theorem CanonicalOut.execEpochBoundary (h : Canonical s) : CanonicalOut (execEpochBoundary s) :=
  .next <| .ite (.boundaryAct (.epcCatch h)) h

protected theorem CanonicalOut.execTelemetryWriteComplete (h : Canonical s) :
    CanonicalOut (execTelemetryWriteComplete s) :=
  .next (.telWritten h)

protected theorem CanonicalOut.execEpcCtlClr (h : Canonical s) : CanonicalOut (execEpcCtlClr s) :=
  .next (.wr h)

protected theorem CanonicalOut.execVerify (h : Canonical s) : CanonicalOut (execVerify s) :=
  .next (.stageVerify h)

protected theorem CanonicalOut.execVerifyComplete (h : Canonical s) : CanonicalOut (execVerifyComplete s) :=
  .next (.stageVerified h)

protected theorem CanonicalOut.execArm (h : Canonical s) : CanonicalOut (execArm s) :=
  .next (.stageArm h)

protected theorem CanonicalOut.execPreloadComplete (h : Canonical s) : CanonicalOut (execPreloadComplete s) :=
  .next (.epcPreloaded h)

protected theorem CanonicalOut.execDisarm (h : Canonical s) : CanonicalOut (execDisarm s) :=
  .next (.stageDisarm h)

protected theorem CanonicalOut.execPairEnable (h : Canonical s) {v} : CanonicalOut (execPairEnable v s) :=
  .ite (.next (.dstCfgWrite h)) .refused

protected theorem CanonicalOut.execMirrorSend (h : Canonical s) : CanonicalOut (execMirrorSend s) :=
  .next (.mirrorSend h)

protected theorem CanonicalOut.execMarkerSend (h : Canonical s) : CanonicalOut (execMarkerSend s) :=
  .next (.markerSend h)

protected theorem CanonicalOut.execMarkerReceive (h : Canonical s) : CanonicalOut (execMarkerReceive s) :=
  .next (.markerReceive h)

protected theorem CanonicalOut.execHeartbeatSend (h : Canonical s) : CanonicalOut (execHeartbeatSend s) :=
  .next (.heartbeatSend h)

protected theorem CanonicalOut.execHeartbeatPeriodEnd (h : Canonical s) : CanonicalOut (execHeartbeatPeriodEnd s) :=
  .next (.heartbeatPeriodEnd h)

protected theorem CanonicalOut.execFailover (h : Canonical s) : CanonicalOut (execFailover s) :=
  .next <| .ite (.failover h) h

protected theorem CanonicalOut.execHandover (h : Canonical s) : CanonicalOut (execHandover s) :=
  .next (.dstHandover h)

protected theorem CanonicalOut.execHandoverComplete (h : Canonical s) : CanonicalOut (execHandoverComplete s) :=
  .next (.handoverComplete h)

protected theorem CanonicalOut.execResync (h : Canonical s) : CanonicalOut (execResync s) :=
  .next (.startSync h)

protected theorem CanonicalOut.execDstCnt1Zero (h : Canonical s) : CanonicalOut (execDstCnt1Zero s) :=
  .next (.wr h)

protected theorem Canonical.timeCorrect (h : Canonical s) {l t etsid res} :
    Canonical (timeCorrect l t etsid res s) :=
  have h1 : Canonical _ := .setFld <| .setFld <| .same <| .ite (.raise (.setDom h)) (.setDom h)
  .epcJump (.ite h1 (.raise h1))

protected theorem CanonicalOut.execTimestampReceive (h : Canonical s) {l} :
    CanonicalOut (execTimestampReceive l s) := by
  refine .onObx h fun hu => ?_
  split
  · exact hu
  · split
    · exact .ite (.timeCorrect (.updOlink hu)) (.updOlink hu)
    · exact .updOlink hu

protected theorem Canonical.timeSet (h : Canonical s) {v} : Canonical (timeSet v s) :=
  .ite (.epcJump (.setDom h)) h

protected theorem CanonicalOut.execTimeSet (h : Canonical s) {v} : CanonicalOut (execTimeSet v s) :=
  .next (.timeSet h)

protected theorem CanonicalOut.execTringEnable (h : Canonical s) {v} : CanonicalOut (execTringEnable v s) :=
  .ite (.next (.tringWrite h)) .refused

protected theorem CanonicalOut.execBkgCtlClr (h : Canonical s) : CanonicalOut (execBkgCtlClr s) :=
  .next (.bkgClr h)

protected theorem CanonicalOut.execAonclkEpochWindow (h : Canonical s) : CanonicalOut (execAonclkEpochWindow s) :=
  .next <| .ite h <| .telCapture (.svcEpoch h)

/-! ## The service port and Service Image Transfer -/

protected theorem Canonical.sitReply (h : Canonical s) {m typ status p} : Canonical (sitReply m typ status p s) :=
  .emit (.setFld h)

protected theorem Canonical.sitBad (h : Canonical s) : Canonical (sitBad s) := .bump h

protected theorem Canonical.sitRefused (h : Canonical s) : Canonical (sitRefused s) :=
  .raise (.bump h)

protected theorem Canonical.sitClose (h : Canonical s) {st} : Canonical (sitClose st s) :=
  .slotStat <| .same <| .setFld (.setFld h)

protected theorem Canonical.lateOr (h : Canonical s) {none_ m typ} (hn : ∀ {u}, Canonical u → Canonical (none_ u)) :
    Canonical (withSession.lateOr none_ m typ s) :=
  .ite (.bump h) (hn h)

protected theorem Canonical.withSession (h : Canonical s) {m typ none_ f} (hn : ∀ {u}, Canonical u → Canonical
    (none_ u)) (hf : ∀ {x u}, Canonical u → Canonical (f x u)) : Canonical (withSession m typ none_ f s) := by
  unfold withSession
  split
  · exact .ite (hf h) (.lateOr h hn)
  · exact .lateOr h hn

protected theorem Canonical.helloReply (h : Canonical s) {m} : Canonical (helloReply m s) :=
  .sitReply h

protected theorem Canonical.sitBegin (h : Canonical s) {m x dig fail} : Canonical (sitBegin m x dig fail s) :=
  .ite (.sitReply (.sitRefused h)) <| .ite (.sitReply (.slotStat (.flErase h))) <| .sitReply <| .slotStat <| .wr <|
    .wr (.same (.flErase h))

protected theorem Canonical.sitData (h : Canonical s) {m off l fail x} : Canonical (sitData m off l fail x s) :=
  have h1 : Canonical _ := .ite (.flErase h) h
  .ite (.sitReply h) <| .ite (.sitBad h) <| .ite (.sitReply <| .sitClose (.sitRefused h)) <|
    .ite (.sitReply (.sitClose h1)) <| .sitReply <| .same (.setFld (.flProg h1))

protected theorem Canonical.sitEnd (h : Canonical s) {m fail x} : Canonical (sitEnd m fail x s) := by
  unfold sitEnd
  dsimp only
  exact .ite (.sitReply <| .sitClose <| .ite (.sitRefused h) h) <| .ite (.sitReply (.sitClose h)) <| .sitReply <|
    .raise <| .sitClose (.progMarker h)

protected theorem Canonical.sitActivate (h : Canonical s) {m} : Canonical (sitActivate m s) :=
  .ite (.sitReply h) <| .ite (.sitReply (.sitRefused h)) <| .sitReply (.same h)

protected theorem Canonical.sitCommand (h : Canonical s) {m c arg} : Canonical (sitCommand m c arg s) :=
  .ite (.sitReply h) <| .ite (.sitReply h) <| .ite (.svcCmd (.sitReply h)) <| .sitReply (.svcCmd h)

protected theorem Canonical.sitExpire (h : Canonical s) : Canonical (sitExpire s) := by
  unfold sitExpire
  split
  · exact h
  · exact .ite h <| .same (.sitClose h)

protected theorem Canonical.svcAnswer (h : Canonical s) {src hop ok typ body} :
    Canonical (svcAnswer src hop ok typ body s) :=
  .ite (.emit h) h

/-! ## The rows of boot, update, recovery and the service port -/

protected theorem CanonicalOut.execPorstNAssert : CanonicalOut (execPorstNAssert s) :=
  .next .partReset

protected theorem CanonicalOut.execPorstNRelease (h : Canonical s) {pres} :
    CanonicalOut (execPorstNRelease pres s) :=
  .next <| .svcRelease <| .same <| .ite (.presLow h) (.same h)

protected theorem CanonicalOut.execVaonPowerUp (h : Canonical s) : CanonicalOut (execVaonPowerUp s) :=
  .ite (.next h) <| .next <| .setFld (.same h)

protected theorem CanonicalOut.execVaonPowerLoss : CanonicalOut (execVaonPowerLoss s) :=
  .next <| .wr (.same .partReset)

protected theorem CanonicalOut.execRomHoldupTimeout (h : Canonical s) : CanonicalOut (execRomHoldupTimeout s) :=
  .next (.romTimeout h)

protected theorem CanonicalOut.execBootCodeStart (h : Canonical s) {out} : CanonicalOut (execBootCodeStart out s) :=
  .ite (.next (.bootCode h)) .refused

protected theorem CanonicalOut.execClusterWakeComplete (h : Canonical s) {c} :
    CanonicalOut (execClusterWakeComplete c s) := by
  refine .onCluster h fun hu => ?_
  dsimp only
  split
  · exact .wokenTo (.setClu hu)
  · exact .wokenTo (.setClu hu)
  · exact hu

protected theorem CanonicalOut.execBootSeal (h : Canonical s) {agent} : CanonicalOut (execBootSeal agent s) :=
  .ite (.next (.bootSeal h)) .refused

protected theorem CanonicalOut.execNelistoreAppend (h : Canonical s) {typ body fail} :
    CanonicalOut (execNelistoreAppend typ body fail s) :=
  .ite .refused <| .next (.nlsAppend h)

protected theorem CanonicalOut.execNelistoreRotation (h : Canonical s) {fail} :
    CanonicalOut (execNelistoreRotation fail s) :=
  .next (.nlsRotate h)

protected theorem CanonicalOut.execCommit (h : Canonical s) : CanonicalOut (execCommit s) :=
  .next (.svcCmd h)

protected theorem CanonicalOut.execRejectSelf (h : Canonical s) : CanonicalOut (execRejectSelf s) :=
  .next (.svcCmd h)

protected theorem CanonicalOut.execReset (h : Canonical s) : CanonicalOut (execReset s) :=
  .next (.svcCmd h)

protected theorem CanonicalOut.execOwnerSet (h : Canonical s) : CanonicalOut (execOwnerSet s) :=
  .next (.svcCmd h)

protected theorem CanonicalOut.execOwnerClear (h : Canonical s) : CanonicalOut (execOwnerClear s) :=
  .next (.svcCmd h)

protected theorem CanonicalOut.execTamperClear (h : Canonical s) : CanonicalOut (execTamperClear s) :=
  .next (.svcCmd h)

protected theorem CanonicalOut.execRevoke (h : Canonical s) {k} : CanonicalOut (execRevoke k s) :=
  .ite (.next (.svcCmd h)) .refused

protected theorem CanonicalOut.sitRow (h : Canonical s) {port seq f} (hf : ∀ {u}, Canonical u → Canonical (f u)) :
    CanonicalOut (sitRow port seq f s) :=
  .ite .refused <| .next <| .ite (hf h) h

protected theorem CanonicalOut.execHello (h : Canonical s) {port seq} : CanonicalOut (execHello port seq s) :=
  .sitRow h fun hu => .helloReply hu

protected theorem CanonicalOut.execBegin (h : Canonical s) {port seq hdr dig fail} :
    CanonicalOut (execBegin port seq hdr dig fail s) :=
  .sitRow h fun hu => .ite (.sitBegin hu) (.sitBad hu)

protected theorem CanonicalOut.execData (h : Canonical s) {port session seq off l fail} :
    CanonicalOut (execData port session seq off l fail s) :=
  .sitRow h fun hu => .ite (.sitBad hu) <| .withSession hu (fun h1 => .sitReply (.draw h1)) fun h1 => .sitData h1

protected theorem CanonicalOut.execEnd (h : Canonical s) {port session seq fail} :
    CanonicalOut (execEnd port session seq fail s) :=
  .sitRow h fun hu => .withSession hu (fun h1 => .sitReply h1) fun h1 => .sitEnd h1

protected theorem CanonicalOut.execAbort (h : Canonical s) {port session seq} :
    CanonicalOut (execAbort port session seq s) :=
  .sitRow h fun hu => .withSession hu (fun h1 => .sitReply h1) fun h1 => .sitReply (.sitClose h1)

protected theorem CanonicalOut.execActivate (h : Canonical s) {port session seq} :
    CanonicalOut (execActivate port session seq s) :=
  .sitRow h fun hu => .sitActivate hu

protected theorem CanonicalOut.execActivateReset (h : Canonical s) : CanonicalOut (execActivateReset s) :=
  .next <| .ite .svcReset h

protected theorem CanonicalOut.execCommand (h : Canonical s) {port session seq c arg} :
    CanonicalOut (execCommand port session seq c arg s) :=
  .ite .refused <| .sitRow h fun hu => .sitCommand hu

protected theorem CanonicalOut.execSessionExpiry (h : Canonical s) : CanonicalOut (execSessionExpiry s) :=
  .next (.sitExpire h)

protected theorem CanonicalOut.execSitBadMessage (h : Canonical s) {port} :
    CanonicalOut (execSitBadMessage port s) :=
  .ite .refused <| .next <| .ite (.sitBad h) h

protected theorem CanonicalOut.execNeighborSolicitation (h : Canonical s) {src target hop} :
    CanonicalOut (execNeighborSolicitation src target hop s) :=
  .next (.svcAnswer h)

protected theorem CanonicalOut.execEchoRequest (h : Canonical s) {src body hop} :
    CanonicalOut (execEchoRequest src body hop s) :=
  .next (.svcAnswer h)

protected theorem CanonicalOut.execSvcPortUp (h : Canonical s) : CanonicalOut (execSvcPortUp s) :=
  .ite (.next h) <| .next <| .raise (.setFld h)

protected theorem CanonicalOut.execPresenceWindowOpen (h : Canonical s) : CanonicalOut (execPresenceWindowOpen s) :=
  .next (.presenceOpen h)

protected theorem CanonicalOut.execPresenceWindowClose (h : Canonical s) :
    CanonicalOut (execPresenceWindowClose s) :=
  .next <| .ite (.closeWindow h) h

protected theorem CanonicalOut.execPresNHigh (h : Canonical s) : CanonicalOut (execPresNHigh s) :=
  .next <| .ite (.same h) (.presenceHigh h)

protected theorem CanonicalOut.execSealCheck (h : Canonical s) {b} : CanonicalOut (execSealCheck b s) :=
  .next (.sealCheck h)

protected theorem CanonicalOut.execSvcCtlClr (h : Canonical s) : CanonicalOut (execSvcCtlClr s) :=
  .next (.svcClr h)

/-! ## Reads and writes of CSRs as their requesters make them -/

protected theorem Canonical.thStat (h : Canonical s) {t} : Canonical (thStat t s).2 := by
  unfold thStat
  dsimp only
  split
  · exact h
  · exact h
  · exact h
  · exact h
  · exact .draw h

protected theorem Canonical.abandonCount (h : Canonical s) {c} : Canonical (abandonCount c s) :=
  .bumpBy <| .forEach (.draw h) fun hu => .updCore hu

protected theorem Canonical.csrReadReg (h : Canonical s) {loc r l a} : Canonical (csrReadReg loc r l a s).2 :=
  .ite_snd h (by
    split
    · exact .thStat h
    · exact .abandonCount h
    · exact h
    · exact h
    · exact h
    · exact h
    · exact h
    · exact h
    · exact .ite_snd h h
    · exact h
    · exact .notifyPop h
    · exact h
    · exact h
    · exact h
    · exact .ite_snd (.svcqPop h) h
    · exact h
    · exact .pfaultPop h
    · exact h
    · exact .mboxqPop h
    · exact h
    · exact .txtsPop h
    · exact .same h
    · exact h
    · exact h
    · exact h
    · exact h
    · exact h)

protected theorem Canonical.csrRead (h : Canonical s) {loc a} : Canonical (csrRead loc a s).2 := by
  unfold csrRead
  split
  · exact h
  · exact .csrReadReg h

protected theorem Canonical.csrPlain (h : Canonical s) {r a v} : Canonical (csrPlain r a v s) :=
  .wr h

protected theorem Canonical.csrBoot (h : Canonical s) {loc r a v} : Canonical (csrBoot loc r a v s) :=
  .ite (.ite (.ite (.devRelease h) h) (.wr h)) (.bwRefused h)

protected theorem CanonicalSome.csrActA {p} (hp : Canonical p) (h : Canonical s) {r i j v} :
    CanonicalSome (csrActA r i j v p s) := by
  unfold csrActA
  dsimp only
  split
  · exact .some <| .stageCmd h
  · exact .some <| .ite (.stageBusy h) hp
  · exact .some <| .ite (.stageBusy h) hp
  · exact .some <| .ite (.cluCtlClr <| .ite hp <| .updClu hp) (.ite hp <| .updClu hp)
  · exact .some <| .coreReset h
  · exact .some <| .thCommand h
  · exact .some <| .ite (.lyrClr hp) hp
  · exact .some <| .lyrFlush h
  · exact .some <| .ite (.spnClr hp) hp
  · exact .some <| .bpUpdate <| .storeSet hp
  · exact .some <| .bpUpdate <| .storeSet hp
  · exact .some <| .bpUpdate <| .storeSet hp
  · exact .some <| .bpUpdate <| .storeSet hp
  · exact .some <| .pwrctlWrite h
  · exact .some <| .ite (.brgClr hp) hp
  · exact .some <| .ite (.bpmClr hp) hp
  · exact .some <| .ite (.bpUpdate <| .rebuildGo h) h
  · exact .some <| .bpUpdate <| .xonCheck hp
  · exact .some <| .ite (.tblClr <| .ite (.setFld hp) hp) (.ite (.setFld hp) hp)
  · exact .some <| .tableCommand h
  · exact .none

protected theorem CanonicalSome.csrActB {p} (hp : Canonical p) (h : Canonical s) {who gen r i j v} :
    CanonicalSome (csrActB who gen r i j v p s) := by
  unfold csrActB
  dsimp only
  split
  · exact .some <| .obxPump <| .gkoCommand h
  · exact .some <| .ite (.gkoClr <| .ite (.setFld hp) hp) (.ite (.setFld hp) hp)
  · exact .some <| .evCfgWrite h
  · exact .some <| .ite (.wr hp) hp
  · exact .some <| .doorbell h
  · exact .some <| .ite (.mcClr hp) hp
  · exact .some <| .showLimit hp
  · exact .some <| .pegCmd h
  · exact .some <| .rtcfgWrite h
  · exact .some <| .ite (.hstClr hp) hp
  · exact
      have h1 : Canonical _ := .ite (.setFld (.setFld h)) (.setFld h)
      .some <| .ite (.halfRearm h1) h1
  · exact .some <| .txqCfgWrite h
  · exact .some <| .rxqCfgWrite h
  · exact .some <| .pcfgWrite h
  · exact .some <| .ite (.portRearm h) h
  · exact .some <| .ite (.macClr hp) hp
  · exact .none

protected theorem CanonicalSome.csrActC {p} (hp : Canonical p) (h : Canonical s) {r i v} :
    CanonicalSome (csrActC r i v p s) := by
  unfold csrActC
  dsimp only
  split
  · exact .some <| .obxIdWrite h
  · exact .some <| .ite (.obxClr hp) hp
  · exact .some <| .noticeCmd h
  · exact .some <| .timeStat hp
  · exact .some <| .timeSet h
  · exact .some <| .lcfgWrite h
  · exact .some <| .ite (.linkRearm h) h
  · exact .some <| .epcCtlWrite h
  · exact .some <| .ite (.planStage <| .commitWrite h) (.commitWrite h)
  · exact .some <| .dstCfgWrite h
  · exact .some <| .dstCmd h
  · exact .none

protected theorem Canonical.svcBootWrite (h : Canonical s) {v} : Canonical (svcBootWrite v s) :=
  .ite (.setFld <| .ite (.setFld (.setFld h)) (.setFld h)) <| .ite (.setFld (.setFld h)) (.setFld h)

protected theorem CanonicalSome.csrActD {p} (hp : Canonical p) (h : Canonical s) {loc r i v} :
    CanonicalSome (csrActD loc r i v p s) := by
  unfold csrActD
  dsimp only
  split
  · exact .some <| .ite (.crsClr hp) hp
  · exact .some <| .cluRst h
  · exact .some <| .cluHoldWrite h
  · exact .some <| .ite (.setFld hp) hp
  · exact .some <| .ite (.pwrClr hp) hp
  · exact .some <| .pwrStateWrite h
  · exact .some <| .ite (.holdupClear h) h
  · exact .some <| .ite (.svcClr hp) hp
  · exact .some <| .svcBootWrite h
  · exact .some <| .svcCmd h
  · exact .some <| .ite (.halfRearm <| .setFld h) (.setFld h)
  · exact .some <| .ite (.bootSeal h) h
  · exact .some <| .ite (.bkgClr hp) hp
  · exact .some <| .tringWrite h
  · exact .none

protected theorem Canonical.csrWriteReg (h : Canonical s) {loc gen r l a v} :
    Canonical (csrWriteReg loc gen r l a v s).2 := by
  have hp : Canonical (csrPlain r a v s) := .csrPlain h
  refine .ite_snd h <| .ite_snd h <| .ite_snd h <| .ite_snd (.csrBoot h) <| .ite_snd (.swWrite h) ?_
  dsimp only
  split
  · next hu => exact .get (.csrActA hp h) hu
  · split
    · next hu => exact .get (.csrActB hp h) hu
    · split
      · next hu => exact .get (.csrActC hp h) hu
      · split
        · next hu => exact .get (.csrActD hp h) hu
        · split
          · exact .csrPlain h
          · exact h

protected theorem Canonical.csrWrite (h : Canonical s) {loc gen a v} : Canonical (csrWrite loc gen a v s).2 := by
  unfold csrWrite
  split
  · exact h
  · exact .csrWriteReg h

/-! ## Packet and helper operations of the Newt core -/

protected theorem Canonical.packetOp (h : Canonical s) {t w undef acc n body} (hbody : ∀
    {a b u}, Canonical u → Canonical (body a b u)) : Canonical (packetOp t w undef acc n body s) :=
  .issue h fun hu => .ite (.trapNoPacket (.readG hu)) <| .ite (.trapAddr (.readG hu)) <|
    .ite (.trapTokBusy (.readG hu)) (hbody (.readG hu))

protected theorem Canonical.pldOp (h : Canonical s) {t w} : Canonical (pldOp t w s) := by
  unfold pldOp
  exact .packetOp h fun hu => .finishSeq <| .updTh (.commitOp hu)

protected theorem CanonicalOut.execPld (h : Canonical s) {t w} : CanonicalOut (execPld t w s) :=
  .newt h fun hu => .pldOp hu

protected theorem Canonical.pstOp (h : Canonical s) {t w} : Canonical (pstOp t w s) := by
  unfold pstOp
  exact .packetOp h fun hu => .finishSeq <| .commitOp (.readG hu)

protected theorem CanonicalOut.execPst (h : Canonical s) {t w} : CanonicalOut (execPst t w s) :=
  .newt h fun hu => .pstOp hu

protected theorem Canonical.tsealOp (h : Canonical s) {t w} : Canonical (tsealOp t w s) :=
  .packetOp h fun hu => .finishSeq <| .updTh (.commitOp hu)

protected theorem CanonicalOut.execTseal (h : Canonical s) {t w} : CanonicalOut (execTseal t w s) :=
  .newt h fun hu => .tsealOp hu

protected theorem CanonicalOut.execRelease (h : Canonical s) {t w} : CanonicalOut (execRelease t w s) :=
  .newt h fun hu => .issue hu fun h1 => .ite (.trapNoPacket (.readG (.readG h1))) <| .endPacket (.readG (.readG h1))

protected theorem CanonicalOut.execDrop (h : Canonical s) {t w} : CanonicalOut (execDrop t w s) :=
  .newt h fun hu => .issue hu fun h1 => .ite (.trapNoPacket h1) (.endPacket h1)

protected theorem CanonicalOut.execFork (h : Canonical s) {t w} : CanonicalOut (execFork t w s) := by
  refine .newt h fun hu => .issue hu fun {u} hu => ?_
  have h2 : Canonical (readG (readG u t (iA w)).2 t (iB w)).2 := .readG (.readG hu)
  dsimp only
  split
  · exact .trapNoPacket h2
  · exact .ite (.trapTokBusy h2) <| .finishSeq <| .commitOp (.forkApply h2)

protected theorem Canonical.helperNear (h : Canonical s) {t w n body} (hbody : ∀ {a u}, Canonical u → Canonical
    (body a u)) : Canonical (helperNear s t w n body) := by
  unfold helperNear
  dsimp only
  split
  · exact .trapDist (.readG h)
  · split
    · exact .trapNoPacket (.readG h)
    · exact .trapAddr (.readG h)
    · exact .trapPrivAddr (.readG h)
    · exact .ite (.trapTokBusy (.readG h)) <| hbody <| .nearLoad <| .ite (.sampleCore (.readG h)) (.readG h)

protected theorem CanonicalOut.execLkup (h : Canonical s) {t w} : CanonicalOut (execLkup t w s) :=
  .newt h fun hu => .issue hu fun h1 => .helperNear h1 fun h2 => .finishSeq (.commitOp h2)

protected theorem CanonicalOut.execLearn (h : Canonical s) {t w} : CanonicalOut (execLearn t w s) :=
  .newt h fun hu => .issue hu fun h1 => .helperNear h1 fun h2 => .finishSeq (.commitOp h2)

protected theorem CanonicalOut.execBalloc (h : Canonical s) {t w} : CanonicalOut (execBalloc t w s) := by
  refine .newt h fun hu => .issue hu fun {u} hu => .ite (.trapTokBusy (.readG hu)) ?_
  have h1 : Canonical (readG u t (iA w)).2 := .readG hu
  dsimp only
  split
  · exact .finishSeq (.commitOp h1)
  · exact .finishSeq <| .same (.commitOp h1)

protected theorem CanonicalOut.execBfree (h : Canonical s) {t w} : CanonicalOut (execBfree t w s) :=
  .newt h fun hu => .issue hu fun h1 => .ite (.trapTokBusy (.readG h1)) <| .ite (.finishSeq <|
    .commitOp (.denied (.readG h1))) <| .ite (.finishSeq <| .commitOp (.freeError (.readG h1))) <| .finishSeq <|
    .freeReq (.commitOp (.readG h1))

/-! ## Completion and timeout of asynchronous operations -/

protected theorem Canonical.memSeen {l} (h : Canonical s) : Canonical (memSeen s l).2 := by
  induction l generalizing s with
  | nil => exact h
  | cons a r ih => exact ih (.lyrOldNew h)

protected theorem Canonical.loadRun (h : Canonical s) {t a n signed ecc} :
    Canonical (loadRun t a n signed ecc s).2.2 := by
  unfold loadRun
  split
  · split
    · next hp => exact .snd hp (.csrRead h)
    · next hp => exact .snd hp (.csrRead h)
  · exact .ite_snd_snd h <| .ite_snd_snd (.memReadCheck h) (.memSeen (.memReadCheck h))

protected theorem Canonical.storeRun (h : Canonical s) {t gen a n v} : Canonical (storeRun t gen a n v s).2.2 := by
  unfold storeRun
  split
  · exact .csrWrite h
  · exact .ite_snd_snd h (.memWrite h)

protected theorem Canonical.atomRun (h : Canonical s) {fn a v c ecc} : Canonical (atomRun fn a v c ecc s).2.2 :=
  .ite_snd_snd h <| .ite_snd_snd (.memReadCheck h) <| .memAtomic (.memReadCheck h)

protected theorem Canonical.readLines {ecc l} (h : Canonical s) : Canonical (readLines ecc l s).2 := by
  induction l generalizing s ecc with
  | nil => exact h
  | cons a r ih => exact ih (.memReadCheck h)

protected theorem Canonical.pldTile (h : Canonical s) {link ecc tl} : Canonical (pldTile link ecc tl s).2 :=
  .ite_snd (.tileFail (.tileRead h)) (.tileRead h)

protected theorem Canonical.pldTiles {link ecc l} (h : Canonical s) : Canonical (pldTiles link ecc l s).2 := by
  induction l generalizing s ecc with
  | nil => exact h
  | cons a r ih => exact ih (.pldTile h)

protected theorem Canonical.pldBytes {o l} (h : Canonical s) : Canonical (pldBytes o l s).2 := by
  induction l generalizing s with
  | nil => exact h
  | cons a r ih => exact ih <| .choose (.lyrOldNew h)

protected theorem Canonical.pldRun (h : Canonical s) {o addrs links first ecc} :
    Canonical (pldRun o addrs links first ecc s).2.2 :=
  .pldBytes <| .readLines <| .pldTiles (.pldTiles h)

protected theorem Canonical.pstRun (h : Canonical s) {addrs v} : Canonical (pstRun addrs v s).2.2 :=
  .forEach (.foldl_snd h fun hu => .memWrite hu) fun hu => .writeTile hu

protected theorem Canonical.asyncRun (h : Canonical s) {o ecc r} (hr : asyncRun o ecc s = some r) :
    Canonical r.2.2 := by
  unfold asyncRun at hr
  split at hr
  · split at hr
    · split at hr
      · cases hr
      · cases hr
        exact .loadRun h
    · cases hr
      exact .loadRun h
  · cases hr
    exact .storeRun h
  · cases hr
    exact .atomRun h
  · cases hr
    exact .pldRun h
  · cases hr
    exact .pstRun h
  · cases hr
    dsimp only
    exact .updTh (.sealTile h)
  · cases hr
    exact h
  · obtain ⟨x, -, rfl⟩ := Option.map_eq_some_iff.1 hr
    exact h
  · obtain ⟨x, -, rfl⟩ := Option.map_eq_some_iff.1 hr
    exact h
  · cases hr
    exact .lookup (.lookupError h)
  · cases hr
    exact .pushLearn h
  · cases hr

protected theorem CanonicalOut.execAsyncCompletion (h : Canonical s) {id ecc} :
    CanonicalOut (execAsyncCompletion id ecc s) := by
  refine .ite .refused ?_
  split
  · exact .next h
  · refine .ite (.next h) ?_
    split
    · exact .next h
    · next hr =>
      have h1 := Canonical.asyncRun h hr
      split
      · exact .next h1
      · exact .next (.complete h1)

protected theorem CanonicalOut.execAsyncTimeout (h : Canonical s) {id} : CanonicalOut (execAsyncTimeout id s) := by
  unfold execAsyncTimeout
  split
  · exact .next h
  · split
    · exact .next h
    · exact .next <| .settle (by split; exacts [.dropOp (.expireOp h), .expireOp h])

/-! ## Register writes from outside the cores, the board management controller, and the start of run-time firmware -/

protected theorem Canonical.csrAccess (h : Canonical s) {loc off n write f} (hf : ∀ {u}, Canonical u → Canonical
    (f u).2) : Canonical (csrAccess loc off n write f s).2.2 := by
  refine .ite_snd_snd (.denied h) <| .ite_snd_snd h ?_
  split
  · next hp => exact .snd hp (hf h)
  · next hp => exact .snd hp (hf h)

protected theorem Canonical.writing (h : Canonical s) {loc off v} : Canonical (writing loc off v s).2 :=
  .csrWrite h

protected theorem Canonical.csrTell {loc off write r} (h : Canonical r.2.2) :
    Canonical (csrTell loc off write s r) :=
  .ite (.ite (.same h) h) <| .ite (.emit h) <| .ite (.emit h) h

protected theorem Canonical.csrBy (h : Canonical s) {loc off n write f} (hf : ∀ {u}, Canonical u → Canonical
    (f u).2) : Canonical (csrBy loc off n write f s) :=
  have hd : Canonical (csrTell loc off write s (csrAccess loc off n write f s)) := .csrTell (.csrAccess h hf)
  .ite (.ite h <| .ite (.emit h) hd) <| .ite hd <| .ite h <| .ite (.emit h) hd

protected theorem Canonical.csrReadBy (h : Canonical s) {loc off n} : Canonical (csrReadBy loc off n s) :=
  .csrBy h fun hu => .csrRead hu

protected theorem Canonical.csrWriteBy (h : Canonical s) {loc off n v} : Canonical (csrWriteBy loc off n v s) :=
  .csrBy h fun hu => .writing hu

protected theorem Canonical.pageWrite (h : Canonical s) {fn off n v} : Canonical (pageWrite fn off n v s) :=
  .ite h <| .ite (.ite h <| .ite (.txDoorbell h) (.rxDoorbell h)) <|
    .ite (.ite (.mboxRing (.mboxWrite h)) (.mboxWrite h)) <| .ite (.forEach h fun hu => .vecWrite hu) h

protected theorem CanonicalOut.execRegisterWrite (h : Canonical s) {x} : CanonicalOut (execRegisterWrite x s) := by
  unfold execRegisterWrite
  split
  · exact .refused
  · exact .next (by
      split
      · exact .csrWriteBy h
      · exact .csrReadBy h
      · exact .ite (.pageWrite h) h
      · exact .ite (.emit h) h
      · exact .ite (.hdmWrite h) h
      · exact .ite (.emit h) h
      · exact .mboxWrite h
      · exact .emit h
      · exact .setVecCount h
      · exact .ite (.same h) h
      · exact .ite (.same h) h)

protected theorem CanonicalOut.readRow (h : Canonical s) {off loc} : CanonicalOut (readRow off loc s) :=
  .ite (.next (.csrReadBy h)) .refused

protected theorem CanonicalOut.execNotifyRead (h : Canonical s) {c agent} :
    CanonicalOut (execNotifyRead c agent s) :=
  .ite (.readRow h) .refused

protected theorem CanonicalOut.execMboxqRead (h : Canonical s) {agent} : CanonicalOut (execMboxqRead agent s) :=
  .readRow h

protected theorem CanonicalOut.execPfaultRead (h : Canonical s) {agent} : CanonicalOut (execPfaultRead agent s) :=
  .readRow h

protected theorem CanonicalOut.execTxtsRead (h : Canonical s) {p agent} : CanonicalOut (execTxtsRead p agent s) :=
  .ite (.readRow h) .refused

protected theorem CanonicalOut.execBmcRead (h : Canonical s) {bus off} : CanonicalOut (execBmcRead bus off s) :=
  .ite .refused <| .next <| .ite (.csrReadBy h) h

protected theorem CanonicalOut.execBmcWrite (h : Canonical s) {bus off v} :
    CanonicalOut (execBmcWrite bus off v s) :=
  .ite .refused <| .next <| .ite (.csrWriteBy h) h

protected theorem Canonical.ownerRestore (h : Canonical s) : Canonical (ownerRestore s) := by
  unfold ownerRestore
  split
  · exact .setFld h
  · exact h

protected theorem Canonical.runtimeStart (h : Canonical s) : Canonical (runtimeStart s) := by
  unfold runtimeStart
  dsimp only
  exact
    have h2 : Canonical _ := .ownerRestore <| .nlsStat <| .nlsErrors (.setMode h)
    .ite (.svcBootWrite <| .forEach h2 fun hu => .csrWrite hu) <| .rejectSelf (.raise (.setFld h2))

protected theorem CanonicalOut.execRuntimeStart (h : Canonical s) : CanonicalOut (execRuntimeStart s) := by
  unfold execRuntimeStart
  split
  · exact .next (.runtimeStart h)
  · exact .next h

/-! ## The rows of the memory controllers -/

protected theorem CanonicalOut.onMc (h : Canonical s) {m f} (hf : ∀ {u}, Canonical u → Canonical (f u)) :
    CanonicalOut (onMc m f s) :=
  .ite (.next <| hf h) .refused

protected theorem CanonicalOut.onMcUnit (h : Canonical s) {m u units f} (hf : ∀ {u}, Canonical u → Canonical
    (f u)) : CanonicalOut (onMcUnit m u units f s) :=
  .ite .refused <| .next <| .ite (hf h) h

protected theorem CanonicalOut.onTrain (h : Canonical s) {m u f} (hf : ∀ {u}, Canonical u → Canonical (f u)) :
    CanonicalOut (onTrain m u f s) :=
  .onMcUnit h fun hu => hf hu

protected theorem CanonicalOut.onRef (h : Canonical s) {m u f} (hf : ∀ {u}, Canonical u → Canonical (f u)) :
    CanonicalOut (onRef m u f s) :=
  .onMcUnit h fun hu => .ite (hf hu) hu

protected theorem CanonicalOut.onRtPort (h : Canonical s) {m p f} (hf : ∀ {u}, Canonical u → Canonical (f u)) :
    CanonicalOut (onRtPort m p f s) :=
  .ite .refused <| .onMc h fun hu => hf hu

protected theorem CanonicalOut.execRefreshDue (h : Canonical s) {m u prog rt} :
    CanonicalOut (execRefreshDue m u prog rt s) :=
  .onRef h fun hu => .refreshDue hu

protected theorem CanonicalOut.execMakeupRefresh (h : Canonical s) {m u rt} :
    CanonicalOut (execMakeupRefresh m u rt s) :=
  .onRef h fun hu => .makeupRefresh hu

protected theorem CanonicalOut.execTrefiChange (h : Canonical s) {m hot} : CanonicalOut (execTrefiChange m hot s) :=
  .onMc h fun hu => .treFiChange hu

protected theorem CanonicalOut.execPowerDownEntry (h : Canonical s) {m u} :
    CanonicalOut (execPowerDownEntry m u s) :=
  .onMcUnit h fun hu => .powerDown hu

protected theorem CanonicalOut.execRtPortTake (h : Canonical s) {m p} : CanonicalOut (execRtPortTake m p s) :=
  .onRtPort h fun hu => .rtTake hu

protected theorem CanonicalOut.execRtReadReturn (h : Canonical s) {m p} : CanonicalOut (execRtReadReturn m p s) :=
  .onRtPort h fun hu => .rtReturn hu

protected theorem Canonical.laneTrack (h : Canonical s) {margin} : Canonical (laneTrack margin s) :=
  .ite (.raise h) h

protected theorem CanonicalOut.execTrackingStep (h : Canonical s) {m u temp margin deferred} :
    CanonicalOut (execTrackingStep m u temp margin deferred s) :=
  .ite (.ite (.next (.laneTrack h)) .refused) <| .onTrain h fun hu => .ite hu (.trackStep hu)

protected theorem CanonicalOut.execGrant (h : Canonical s) {m u} : CanonicalOut (execGrant m u s) :=
  .onTrain h fun hu => .ite (.retrainStart hu) hu

protected theorem CanonicalOut.execRetrain (h : Canonical s) {m u} : CanonicalOut (execRetrain m u s) :=
  .onTrain h fun hu => .retrainRequest hu

protected theorem CanonicalOut.execTrack (h : Canonical s) {m u temp margin} :
    CanonicalOut (execTrack m u temp margin s) :=
  .onTrain h fun hu => .ite hu (.trackStep hu)

protected theorem CanonicalOut.execRetire (h : Canonical s) {m u} : CanonicalOut (execRetire m u s) :=
  .onTrain h fun hu => .retireCmd hu

protected theorem CanonicalOut.execGrantWaitExpiry (h : Canonical s) {m u} :
    CanonicalOut (execGrantWaitExpiry m u s) :=
  .onTrain h fun hu => .ite (.retrainStart hu) hu

protected theorem CanonicalOut.execRetrainingComplete (h : Canonical s) {m u temp ok check} :
    CanonicalOut (execRetrainingComplete m u temp ok check s) :=
  .onTrain h fun hu => .trainEnd hu

protected theorem CanonicalOut.execDegradedRetry (h : Canonical s) {m u} : CanonicalOut (execDegradedRetry m u s) :=
  .onTrain h fun hu => .ite (.retrainRequest hu) hu

protected theorem CanonicalOut.execHbmPurgeComplete (h : Canonical s) {q u} :
    CanonicalOut (execHbmPurgeComplete q u s) :=
  .ite .refused <| .next (.purgeEnd h)

protected theorem CanonicalOut.execZqCalibration (h : Canonical s) {m u} : CanonicalOut (execZqCalibration m u s) :=
  .onMcUnit h fun hu => hu

protected theorem CanonicalOut.execScrubRead (h : Canonical s) {k a ecc overrun} :
    CanonicalOut (execScrubRead k a ecc overrun s) :=
  .ite .refused <| .next <| .bkgPass (.scrubRead h)

protected theorem CanonicalOut.execMcCtlClr (h : Canonical s) {m} : CanonicalOut (execMcCtlClr m s) :=
  .onMc h fun hu => .mcClr hu

/-! ## The opcode map of the Newt core -/

/-- An instruction's meaning, where the opcode has one, keeps the form. -/
def OpKeeps (o : Option (Nat → Word → State → Out)) : Prop :=
  ∀ f, o = some f → ∀ {t w s}, Canonical s → CanonicalOut (f t w s)

protected theorem OpKeeps.none : OpKeeps none := nofun

protected theorem OpKeeps.op {c : Prop} {_ : Decidable c} {f o} (hf : ∀ {s}, Canonical s → ∀ {t w}, CanonicalOut
    (f t w s)) (ho : OpKeeps o) : OpKeeps (if c then some f else o) := by
  split
  · rintro _ ⟨⟩ t w s h
    exact hf h
  · exact ho

protected theorem OpKeeps.orElse {o p} (ho : OpKeeps o) (hp : OpKeeps p) : OpKeeps (o <|> p) := by
  cases o with
  | none => exact hp
  | some f => exact ho

protected theorem OpKeeps.runAlu {o} : OpKeeps (runAlu o) :=
  .op .execNop <| .op .execAdd <| .op .execSub <| .op .execAnd <| .op .execOr <| .op .execXor <|
    .op .execAndn <| .op .execShl <| .op .execShr <| .op .execSar <| .op .execRol <| .op .execRor <|
    .op .execMin <| .op .execMax <| .op .execMinu <| .op .execMaxu <| .op .execMul <| .op .execMulh <|
    .op .execMulhu <| .op .execClz <| .op .execPopc <| .op .execBext <| .op .execBexts <| .op .execBins <|
    .op .execBswap <| .op .execCmp <| .op .execCmpi <| .op .execPlog <| .op .execPget <| .op .execPset <|
    .op .execLi <| .op .execLui <| .op .execCsrr <| .op .execCsrw <| .op .execCsrs <| .op .execCsrc <| .none

protected theorem OpKeeps.runNear {o} : OpKeeps (runNear o) :=
  .op .execLd <| .op .execLds <| .op .execSt <| .op .execAadd <| .op .execAand <| .op .execAor <|
    .op .execAxor <| .op .execAswp <| .op .execAcas <| .none

protected theorem OpKeeps.runAsync {o} : OpKeeps (runAsync o) :=
  .op .execLdf <| .op .execLdfs <| .op .execStf <| .op .execAfadd <| .op .execAfswp <| .op .execAfcas <|
    .op .execPld <| .op .execPst <| .op .execTseal <| .op .execRelease <| .op .execDrop <| .op .execFork <|
    .op .execLkup <| .op .execLearn <| .op .execBalloc <| .op .execBfree <| .op .execWaitc <|
    .op .execFence <| .op .execLyr <| .none

protected theorem OpKeeps.runControl {o} : OpKeeps (runControl o) :=
  .op .execBr <| .op .execCall <| .op .execJmpr <| .op .execRepi <| .op .execRepn <| .op .execDoze <|
    .op .execExit <| .op .execTrap <| .op .execEret <| .none

protected theorem OpKeeps.runOp {o} : OpKeeps (runOp o) :=
  .orElse .runAlu <| .orElse .runNear <| .orElse .runAsync .runControl

protected theorem CanonicalOut.execRepeatIteration (h : Canonical s) {t} : CanonicalOut (execRepeatIteration t s) := by
  refine .ite .refused ?_
  split
  · exact .next h
  · split
    · exact .next h
    · split
      · next hf => exact OpKeeps.runOp _ hf h
      · exact .next h

protected theorem CanonicalOut.execUnassignedOpcode (h : Canonical s) {t w} :
    CanonicalOut (execUnassignedOpcode t w s) :=
  .ite .refused <| .next <| .issue h fun hu => hu

/-! ## The rows of supply, power states and Chameleon -/

protected theorem CanonicalOut.execVinSample (h : Canonical s) {mv amps watts} :
    CanonicalOut (execVinSample mv amps watts s) :=
  .ite .refused <| .next <| .svcRelease (.vinSample h)

protected theorem CanonicalOut.execHoldupOkChange (h : Canonical s) {level} :
    CanonicalOut (execHoldupOkChange level s) :=
  .next (.hokChange h)

protected theorem CanonicalOut.execHoldupClear (h : Canonical s) : CanonicalOut (execHoldupClear s) :=
  .next (.holdupClear h)

protected theorem CanonicalOut.execTempSample (h : Canonical s) {t0 t1 t2 t3 t4 t5} :
    CanonicalOut (execTempSample t0 t1 t2 t3 t4 t5 s) :=
  .ite (.next <| .ite h (.tempSample h)) .refused

protected theorem CanonicalOut.execThermalTrip (h : Canonical s) : CanonicalOut (execThermalTrip s) :=
  .next (.thermalTrip h)

protected theorem CanonicalOut.execPowerStateRequest (h : Canonical s) {v} :
    CanonicalOut (execPowerStateRequest v s) :=
  .ite .refused <| .next (.pwrStateWrite h)

protected theorem CanonicalOut.execStandbyRequest (h : Canonical s) {v} : CanonicalOut (execStandbyRequest v s) :=
  .ite (.next (.pwrStateWrite h)) .refused

protected theorem CanonicalOut.execStandbyDrained (h : Canonical s) : CanonicalOut (execStandbyDrained s) :=
  .next (.standbyDrained h)

protected theorem CanonicalOut.execStandbyAbort (h : Canonical s) : CanonicalOut (execStandbyAbort s) :=
  .next (.standbyAbort h)

protected theorem CanonicalOut.execStandbyExitComplete (h : Canonical s) :
    CanonicalOut (execStandbyExitComplete s) :=
  .next (.standbyExit h)

protected theorem CanonicalOut.execChameleonSample (h : Canonical s) {ros reps overrun} :
    CanonicalOut (execChameleonSample ros reps overrun s) :=
  .ite (.next <| .bkgPass (.chmSample h)) .refused

protected theorem CanonicalOut.execChameleonRecordDaily (h : Canonical s) :
    CanonicalOut (execChameleonRecordDaily s) :=
  .next (.chmRecord h)

protected theorem CanonicalOut.execPwrCtlClr (h : Canonical s) : CanonicalOut (execPwrCtlClr s) :=
  .next (.pwrClr h)

/-! ## The meaning of every command -/

protected theorem CanonicalOut.exec (h : Canonical s) {i} : CanonicalOut (exec i s) := by
  unfold exec
  split
  · exact .execNop h
  · exact .execAdd h
  · exact .execSub h
  · exact .execAnd h
  · exact .execOr h
  · exact .execXor h
  · exact .execAndn h
  · exact .execShl h
  · exact .execShr h
  · exact .execSar h
  · exact .execRol h
  · exact .execRor h
  · exact .execMin h
  · exact .execMax h
  · exact .execMinu h
  · exact .execMaxu h
  · exact .execMul h
  · exact .execMulh h
  · exact .execMulhu h
  · exact .execClz h
  · exact .execPopc h
  · exact .execBext h
  · exact .execBexts h
  · exact .execBins h
  · exact .execBswap h
  · exact .execLi h
  · exact .execLui h
  · exact .execCmp h
  · exact .execCmpi h
  · exact .execPlog h
  · exact .execPget h
  · exact .execPset h
  · exact .execCsrr h
  · exact .execCsrw h
  · exact .execCsrs h
  · exact .execCsrc h
  · exact .execLd h
  · exact .execLds h
  · exact .execSt h
  · exact .execAadd h
  · exact .execAand h
  · exact .execAor h
  · exact .execAxor h
  · exact .execAswp h
  · exact .execAcas h
  · exact .execLdf h
  · exact .execLdfs h
  · exact .execStf h
  · exact .execAfadd h
  · exact .execAfswp h
  · exact .execAfcas h
  · exact .execPld h
  · exact .execPst h
  · exact .execTseal h
  · exact .execRelease h
  · exact .execDrop h
  · exact .execFork h
  · exact .execLkup h
  · exact .execLearn h
  · exact .execBalloc h
  · exact .execBfree h
  · exact .execWaitc h
  · exact .execFence h
  · exact .execBr h
  · exact .execCall h
  · exact .execJmpr h
  · exact .execRepi h
  · exact .execRepn h
  · exact .execDoze h
  · exact .execExit h
  · exact .execTrap h
  · exact .execEret h
  · exact .execLyr h
  · exact .execRepeatIteration h
  · exact .execInterruptEntry h
  · exact .execTtimerExpiry h
  · exact .execDozeTimeout h
  · exact .execAsyncCompletion h
  · exact .execAsyncTimeout h
  · exact .execKill h
  · exact .execKillComplete h
  · exact .execRestart h
  · exact .execService h
  · exact .execSoftint h
  · exact .execHalt h
  · exact .execThreadHalted h
  · exact .execResume h
  · exact .execWake h
  · exact .execCoreReset h
  · exact .execCluCtlClr h
  · exact .execLyrBusyRetry h
  · exact .execLyreOperationComplete h
  · exact .execLyreFlush h
  · exact .execLyreFlushComplete h
  · exact .execCluLyctlClr h
  · exact .execFrameReceive h
  · exact .execDescriptorAdmit h
  · exact .execSlotGrant h
  · exact .execSlotFillComplete h
  · exact .execWakeRequestScan h
  · exact .execWakeStart h
  · exact .execWakePaced h
  · exact .execClusterWakeComplete h
  · exact .execClusterGate h
  · exact .execClusterParkDecision h
  · exact .execParkingComplete h
  · exact .execCluPwrctlWrite h
  · exact .execSpnCtlClr h
  · exact .execEndingArrival h
  · exact .execLaneRetirement h
  · exact .execLaneHoldExpiry h
  · exact .execBrgTurnRead h
  · exact .execTurnComplete h
  · exact .execBrgPass h
  · exact .execBrgCtlClr h
  · exact .execEthTransmit h
  · exact .execHostRxWrite h
  · exact .execFabricPktSend h
  · exact .execBpmAllocation h
  · exact .execBpmFree h
  · exact .execRingFetchComplete h
  · exact .execAuditStart h
  · exact .execAuditStep h
  · exact .execRebuildGo h
  · exact .execRebuildComplete h
  · exact .execBpmCtlClr h
  · exact .execTableAdd h
  · exact .execTableSet h
  · exact .execTableDelete h
  · exact .execTableFind h
  · exact .execReadSlot h
  · exact .execWriteSlot h
  · exact .execFlush h
  · exact .execBulkSet h
  · exact .execPfxAdd h
  · exact .execPfxDel h
  · exact .execPfxRead h
  · exact .execPfxFix h
  · exact .execTblCmdDone h
  · exact .execRelocationStep h
  · exact .execLearnApply h
  · exact .execCandidateExpiry h
  · exact .execAgeingSweepStep h
  · exact .execParitySweepStep h
  · exact .execTblCtlClr h
  · exact .execClaim h
  · exact .execFree h
  · exact .execWithdraw h
  · exact .execReservationExpiry h
  · exact .execRegistrationExpiry h
  · exact .execNotifyRead h
  · exact .execGkoCtlClr h
  · exact .execEventOccurrence h
  · exact .execEventDelivery h
  · exact .execEventAck h
  · exact .execSoftwareDoorbell h
  · exact .execSvcqRead h
  · exact .execEvtCtlClr h
  · exact .execRefreshDue h
  · exact .execMakeupRefresh h
  · exact .execTrefiChange h
  · exact .execPowerDownEntry h
  · exact .execRtPortTake h
  · exact .execRtReadReturn h
  · exact .execTrackingStep h
  · exact .execGrant h
  · exact .execRetrain h
  · exact .execTrack h
  · exact .execRetire h
  · exact .execGrantWaitExpiry h
  · exact .execRetrainingComplete h
  · exact .execDegradedRetry h
  · exact .execHbmPurgeComplete h
  · exact .execZqCalibration h
  · exact .execScrubRead h
  · exact .execMcCtlClr h
  · exact .execHostLinkUp h
  · exact .execHostLinkDown h
  · exact .execFunctionLevelReset h
  · exact .execMailboxRing h
  · exact .execMboxqRead h
  · exact .execTxqEnable h
  · exact .execTxDoorbell h
  · exact .execRxDoorbell h
  · exact .execTxFetch h
  · exact .execTxFetchComplete h
  · exact .execHostCompletionTimeout h
  · exact .execRxNobufExpiry h
  · exact .execCxlMemRequest h
  · exact .execPfaultRead h
  · exact .execHstCtlClr h
  · exact .execPortEnable h
  · exact .execPortDisable h
  · exact .execPortUp h
  · exact .execPortLinkLoss h
  · exact .execRemoteFaultHeld h
  · exact .execPauseFrameReceive h
  · exact .execPauseTimerExpiry h
  · exact .execPauseRepeat h
  · exact .execTxtsRead h
  · exact .execMacCtlClr h
  · exact .execObxLinkEnable h
  · exact .execObxLinkDisable h
  · exact .execObxTrainingComplete h
  · exact .execInitFlitSend h
  · exact .execInitReceive h
  · exact .execFlitReceive h
  · exact .execNakRepeat h
  · exact .execReplayTimeout h
  · exact .execObxLinkLoss h
  · exact .execPkt h
  · exact .execRd h
  · exact .execWr h
  · exact .execAtom h
  · exact .execLock h
  · exact .execIntr h
  · exact .execResp h
  · exact .execMember h
  · exact .execObxRequestTimeout h
  · exact .execMute h
  · exact .execUnmute h
  · exact .execLeave h
  · exact .execJoin h
  · exact .execOriginateMute h
  · exact .execOriginateUnmute h
  · exact .execOriginateLeave h
  · exact .execOriginateJoin h
  · exact .execMuteExpiry h
  · exact .execRecentPairExpiry h
  · exact .execJoinDomain h
  · exact .execLeaveDomain h
  · exact .execTimestampSend h
  · exact .execTimestampReceive h
  · exact .execTimeSet h
  · exact .execObxCtlClr h
  · exact .execEpochRunStart h
  · exact .execSwRegisterWrite h
  · exact .execCommitRequest h
  · exact .execCommitWithdraw h
  · exact .execCommitDiscard h
  · exact .execEpochCutoff h
  · exact .execEpochDecisionPoint h
  · exact .execEpochBoundary h
  · exact .execTelemetryWriteComplete h
  · exact .execEpcCtlClr h
  · exact .execVerify h
  · exact .execVerifyComplete h
  · exact .execArm h
  · exact .execPreloadComplete h
  · exact .execDisarm h
  · exact .execPairEnable h
  · exact .execMirrorSend h
  · exact .execMarkerSend h
  · exact .execMarkerReceive h
  · exact .execHeartbeatSend h
  · exact .execHeartbeatPeriodEnd h
  · exact .execFailover h
  · exact .execHandover h
  · exact .execHandoverComplete h
  · exact .execResync h
  · exact .execDstCnt1Zero h
  · exact .execRefclkMonitorWindow h
  · exact .execPllUnlock h
  · exact .execPllLock h
  · exact .execClockStop h
  · exact .execHandshakeDelivery h
  · exact .execFifoCrossingDelivery h
  · exact .execPorstNAssert
  · exact .execPorstNRelease h
  · exact .execRomHoldupTimeout h
  · exact .execDevRelease h
  · exact .execClusterReset h
  · exact .execClusterHoldWrite h
  · exact .execClusterResetRelease h
  · exact .execHalfResetTrigger h
  · exact .execHalfResetRearm h
  · exact .execCrsCtlClr h
  · exact .execVinSample h
  · exact .execHoldupOkChange h
  · exact .execHoldupClear h
  · exact .execTempSample h
  · exact .execThermalTrip h
  · exact .execPowerStateRequest h
  · exact .execStandbyRequest h
  · exact .execStandbyDrained h
  · exact .execStandbyAbort h
  · exact .execStandbyExitComplete h
  · exact .execChameleonSample h
  · exact .execChameleonRecordDaily h
  · exact .execPwrCtlClr h
  · exact .execBootCodeStart h
  · exact .execBootSeal h
  · exact .execRuntimeStart h
  · exact .execNelistoreAppend h
  · exact .execNelistoreRotation h
  · exact .execCommit h
  · exact .execRejectSelf h
  · exact .execReset h
  · exact .execOwnerSet h
  · exact .execOwnerClear h
  · exact .execTamperClear h
  · exact .execRevoke h
  · exact .execHello h
  · exact .execBegin h
  · exact .execData h
  · exact .execEnd h
  · exact .execAbort h
  · exact .execActivate h
  · exact .execActivateReset h
  · exact .execCommand h
  · exact .execSessionExpiry h
  · exact .execNeighborSolicitation h
  · exact .execEchoRequest h
  · exact .execPresenceWindowOpen h
  · exact .execPresenceWindowClose h
  · exact .execSealCheck h
  · exact .execBmcRead h
  · exact .execBmcWrite h
  · exact .execSvcCtlClr h
  · exact .execTringEnable h
  · exact .execBkgCtlClr h
  · exact .execRegisterWrite h
  · exact .execVaonPowerUp h
  · exact .execVaonPowerLoss
  · exact .execPresNHigh h
  · exact .execPerstpNRelease h
  · exact .execSvcPortUp h
  · exact .execAonclkEpochWindow h
  · exact .execSitBadMessage h
  · exact .execUnassignedOpcode h
  · exact .execPcRangeFetch h
  · exact .execCxlMailboxCommand h

protected theorem Canonical.tick (h : Canonical s) : Canonical (tick s) := .same (.same h)

end

end Sys2Proof.Machine

/-- Settles O55: at reset every table of the state is empty. -/
theorem canonicalAtReset : Obligations.CanonicalAtReset := Sys2Proof.Machine.canonical_reset

open Sys2Proof Sys2Proof.Machine in
/-- Settles O56: a step is a tick, or the effect of the front command. -/
theorem stepKeepsCanonical : Obligations.StepKeepsCanonical := by
  intro s u h hs
  unfold step at hs
  split at hs
  · cases hs
    exact .tick h
  · exact CanonicalOut.canonical (.exec (.same h)) hs
end

