-- ==== Sys2Proof/Proofs/Reset.lean ====
section
/-! Reset values of the registers. `findReg` takes the first row of the table that an offset is an element of, so what
an array's elements reset to needs, for every row before it, that none of its offsets is an element of that row.
`misses` is a test for this that looks at an array's dimensions and not at its elements. -/

namespace Sys2Proof.Machine

/-! ## Offsets within arrays -/

/-- Offset of an element within an array of the given dimensions. -/
def arrayOffset : List (Nat × Nat) → Nat → Prop
  | [], x => x = 0
  | (n, st) :: l, x => ∃ i, i < n ∧ ∃ y, arrayOffset l y ∧ x = i * st + y

/-- The largest offset of an element. -/
def arraySpan : List (Nat × Nat) → Nat
  | [] => 0
  | (n, st) :: l => (n - 1) * st + arraySpan l

theorem arrayOffset_le_span {l : List (Nat × Nat)} {x : Nat} (h : arrayOffset l x) : x ≤ arraySpan l := by
  induction l generalizing x with
  | nil => exact h.le
  | cons e l ih =>
    obtain ⟨i, hi, y, hy, rfl⟩ := h
    exact Nat.add_le_add (Nat.mul_le_mul_right _ (by omega)) (ih hy)

theorem arrayOffset_one {n st i : Nat} (hi : i < n) : arrayOffset [(n, st)] (i * st) := ⟨i, hi, 0, rfl, rfl⟩

theorem arrayOffset_two {n st m st' i j : Nat} (hi : i < n) (hj : j < m) :
    arrayOffset [(n, st), (m, st')] (i * st + j * st') := ⟨i, hi, _, arrayOffset_one hj, rfl⟩

/-! ## Rows that an array's offsets miss -/

/-- No element of the array `F` at distance `b` from a row's first element is one of the row's: it lies past the row, or
within one stride of it, or it has the row's stride; in the last two cases the rest of the dimensions decide. -/
def dimsMiss : List (Nat × Nat) → List (Nat × Nat) → Nat → Bool
  | [], _, b => decide (0 < b)
  | (n, st) :: rest, F, b =>
    decide (n ≤ b / st) || (decide (b % st + arraySpan F < st) && dimsMiss rest F (b % st)) ||
      (match F with
        | (_, st') :: F' => decide (st' = st) && decide (b % st + arraySpan F' < st) && dimsMiss rest F' (b % st)
        | [] => false)

/-- No element of the array `F` at offset `b` is an element of the row: all lie below it, or none does and the
dimensions decide. -/
def RegDesc.missesAll (F : List (Nat × Nat)) (b : Nat) (r : RegDesc) : Bool :=
  decide (b + arraySpan F < r.off) || (decide (r.off ≤ b) && dimsMiss r.dims F (b - r.off))

/-- The same, where those at the first index may be judged apart from the rest. -/
def RegDesc.misses (F : List (Nat × Nat)) (b : Nat) (r : RegDesc) : Bool :=
  r.missesAll F b ||
    (match F with
      | (n, st) :: F' => r.missesAll F' b && r.missesAll ((n - 1, st) :: F') (b + st)
      | [] => false)

theorem dimIndex_cons_eq_none {n st d : Nat} {l : List (Nat × Nat)} (h : dimIndex l (d % st) = none) :
    dimIndex ((n, st) :: l) d = none := by
  simp [dimIndex, h]

theorem dimIndex_of_dimsMiss {dims F : List (Nat × Nat)} {b x : Nat} (h : dimsMiss dims F b = true)
    (hx : arrayOffset F x) : dimIndex dims (b + x) = none := by
  induction dims generalizing F b x with
  | nil =>
    have hb : 0 < b := of_decide_eq_true h
    exact if_neg (by omega)
  | cons e rest ih =>
    obtain ⟨n, st⟩ := e
    unfold dimsMiss at h
    rw [Bool.or_eq_true, Bool.or_eq_true, Bool.and_eq_true, decide_eq_true_eq, decide_eq_true_eq] at h
    rcases h with (hpast | ⟨hin, hrest⟩) | hsame
    · have hle : b / st ≤ (b + x) / st := Nat.div_le_div_right (Nat.le_add_right b x)
      exact if_neg (by omega)
    · have hxs := arrayOffset_le_span hx
      refine dimIndex_cons_eq_none ?_
      rw [← Nat.mod_add_mod, Nat.mod_eq_of_lt (by omega)]
      exact ih hrest hx
    · cases F with
      | nil => cases hsame
      | cons e F =>
        obtain ⟨m, st'⟩ := e
        dsimp only at hsame
        rw [Bool.and_eq_true, Bool.and_eq_true, decide_eq_true_eq, decide_eq_true_eq] at hsame
        obtain ⟨⟨rfl, hin⟩, hrest⟩ := hsame
        obtain ⟨i, -, y, hy, rfl⟩ := hx
        have hys := arrayOffset_le_span hy
        refine dimIndex_cons_eq_none ?_
        rw [show b + (i * st' + y) = b + y + i * st' by omega, Nat.add_mul_mod_self_right, ← Nat.mod_add_mod,
          Nat.mod_eq_of_lt (by omega)]
        exact ih hrest hy

theorem at?_of_missesAll {r : RegDesc} {F : List (Nat × Nat)} {b x : Nat} (h : r.missesAll F b = true)
    (hx : arrayOffset F x) : r.at? (b + x) = none := by
  unfold RegDesc.missesAll at h
  rw [Bool.or_eq_true, Bool.and_eq_true, decide_eq_true_eq, decide_eq_true_eq] at h
  unfold RegDesc.at?
  rcases h with hlow | ⟨hle, hmiss⟩
  · have hxs := arrayOffset_le_span hx
    exact if_pos (by omega)
  · rw [if_neg (by omega), show b + x - r.off = b - r.off + x by omega, dimIndex_of_dimsMiss hmiss hx]

theorem at?_of_misses {r : RegDesc} {F : List (Nat × Nat)} {b x : Nat} (h : r.misses F b = true)
    (hx : arrayOffset F x) : r.at? (b + x) = none := by
  unfold RegDesc.misses at h
  rcases Bool.or_eq_true _ _ ▸ h with hall | hsplit
  · exact at?_of_missesAll hall hx
  · cases F with
    | nil => cases hsplit
    | cons e F =>
      obtain ⟨n, st⟩ := e
      obtain ⟨hfirst, hrest⟩ := Bool.and_eq_true _ _ ▸ hsplit
      obtain ⟨i, hi, y, hy, rfl⟩ := hx
      cases i with
      | zero =>
        rw [Nat.zero_mul, Nat.zero_add]
        exact at?_of_missesAll hfirst hy
      | succ i =>
        rw [show b + ((i + 1) * st + y) = b + st + (i * st + y) by rw [Nat.succ_mul]; omega]
        exact at?_of_missesAll hrest ⟨i, by omega, y, hy, rfl⟩

/-! ## The row of an array's elements -/

/-- The row whose array is `F` at offset `b`, where no earlier row has an element in common with it. -/
def arrayRow (F : List (Nat × Nat)) (b : Nat) : Option RegDesc :=
  (regTable.find? (fun r => !r.misses F b)).filter (fun r => r.off == b && r.dims == F)

theorem findReg_of_find? {l : List RegDesc} {F : List (Nat × Nat)} {b x : Nat} {r : RegDesc} {ix : List Nat}
    (h : l.find? (fun r => !r.misses F b) = some r) (hx : arrayOffset F x) (hr : r.at? (b + x) = some ix) :
    findReg l (b + x) = some (r, ix) := by
  induction l with
  | nil => cases h
  | cons q l ih =>
    unfold findReg
    cases hq : q.misses F b with
    | true =>
      rw [at?_of_misses hq hx]
      exact ih (by simpa [hq] using h)
    | false =>
      obtain rfl : q = r := by simpa [hq] using h
      rw [hr]

theorem arrayRow_eq_some {F : List (Nat × Nat)} {b : Nat} {r : RegDesc} (h : arrayRow F b = some r) :
    regTable.find? (fun r => !r.misses F b) = some r ∧ r.off = b ∧ r.dims = F := by
  simpa [arrayRow, Option.filter_eq_some_iff] using h

theorem findReg_arrayRow_one {n st b i : Nat} {r : RegDesc} (h : arrayRow [(n, st)] b = some r) (hi : i < n)
    (hst : 0 < st) : findReg regTable (b + i * st) = some (r, [i + r.first]) := by
  obtain ⟨hf, hoff, hdims⟩ := arrayRow_eq_some h
  refine findReg_of_find? hf (arrayOffset_one hi) ?_
  have hd : dimIndex r.dims (b + i * st - r.off) = some [i] := by
    rw [hdims, hoff, Nat.add_sub_cancel_left]
    simp [dimIndex, hst, hi]
  unfold RegDesc.at?
  rw [if_neg (by omega), hd]

theorem findReg_arrayRow_two {n st m st' b i j : Nat} {r : RegDesc} (h : arrayRow [(n, st), (m, st')] b = some r)
    (hi : i < n) (hj : j < m) (hst : m * st' ≤ st) (hst' : 0 < st') :
    findReg regTable (b + (i * st + j * st')) = some (r, [i + r.first, j]) := by
  obtain ⟨hf, hoff, hdims⟩ := arrayRow_eq_some h
  refine findReg_of_find? hf (arrayOffset_two hi hj) ?_
  have hjs : j * st' < st := (Nat.mul_lt_mul_of_pos_right hj hst').trans_le hst
  have hd : dimIndex r.dims (b + (i * st + j * st') - r.off) = some [i, j] := by
    rw [hdims, hoff, Nat.add_sub_cancel_left]
    simp [dimIndex, Nat.mul_comm i st, Nat.mul_add_div (by omega : 0 < st), Nat.div_eq_of_lt hjs,
      Nat.mod_eq_of_lt hjs, hi, hj, hst']
  unfold RegDesc.at?
  rw [if_neg (by omega), hd]

/-! ## Reset values -/

/-- Registers whose reset value depends on the index or on the part. -/
def ownReset : List RegId :=
  [.OBX_VCCFG, .MC_ID, .IDN_PART, .IDN_STEP, .IDN_COMPAT, .PWR_FUSE, .PWR_PLAN, .PWR_DIEID, .PWR_LIFEOTP, .PWR_RSTCAUSE,
    .SVC_OTP, .SVC_MAC, .SVC_SEC]

theorem resetWord_of_findReg {a : Nat} {r : RegDesc} {l : List Nat} (h : findReg regTable a = some (r, l))
    (hid : r.id ∉ ownReset) : resetWord a = BitVec.ofNat 48 r.reset := by
  unfold resetWord
  rw [h]
  dsimp only
  split
  case h_14 => rfl
  all_goals simp_all [ownReset]

/-- The elements of the array `F` at offset `b` reset to `v`. -/
def arrayResets (F : List (Nat × Nat)) (b v : Nat) : Bool :=
  (arrayRow F b).any (fun r => !ownReset.contains r.id && r.reset == v)

theorem rd_reset (a : Nat) : rd State.reset a = resetWord a := rfl

theorem arrayResets_iff {F : List (Nat × Nat)} {b v : Nat} : arrayResets F b v = true ↔
    ∃ r, arrayRow F b = some r ∧ r.id ∉ ownReset ∧ r.reset = v := by
  simp [arrayResets, Option.any_eq_true]

theorem resetWord_one {n st b v i : Nat} (h : arrayResets [(n, st)] b v = true) (hi : i < n) (hst : 0 < st) :
    resetWord (b + i * st) = BitVec.ofNat 48 v := by
  obtain ⟨r, hr, hid, rfl⟩ := arrayResets_iff.1 h
  exact resetWord_of_findReg (findReg_arrayRow_one hr hi hst) hid

theorem resetWord_two {n st m st' b v i j : Nat} (h : arrayResets [(n, st), (m, st')] b v = true)
    (hi : i < n) (hj : j < m) (hst : m * st' ≤ st) (hst' : 0 < st') : resetWord (b + (i * st + j * st')) = BitVec.ofNat 48 v := by
  obtain ⟨r, hr, hid, rfl⟩ := arrayResets_iff.1 h
  exact resetWord_of_findReg (findReg_arrayRow_two hr hi hj hst hst') hid

/-- A register of the memory controllers: HBM controllers stand at one base, DDR5 controllers at another (R339). -/
theorem resetWord_mc {o v m : Nat} (hh : arrayResets [(4, 0x10000)] (0x300000 + o) v = true)
    (hd : arrayResets [(8, 0x10000)] (0x380000 + o) v = true) (hm : m < 12) :
    resetWord (mcBase m + o) = BitVec.ofNat 48 v := by
  unfold mcBase
  split
  · next h4 =>
    rw [Nat.add_right_comm]
    exact resetWord_one hh h4 (by decide)
  · rw [Nat.add_right_comm]
    exact resetWord_one hd (by omega) (by decide)

/-- The same of an array within each controller. -/
theorem resetWord_mc_array {o v k k' m i : Nat} (hh : arrayResets [(4, 0x10000), (k, 8)] (0x300000 + o) v = true)
    (hd : arrayResets [(8, 0x10000), (k', 8)] (0x380000 + o) v = true) (hk : k ≤ 0x2000) (hk' : k' ≤ 0x2000)
    (hm : m < 12) (hi : if m < 4 then i < k else i < k') : resetWord (mcBase m + o + i * 8) = BitVec.ofNat 48 v := by
  unfold mcBase
  split at hi
  · next h4 =>
    rw [if_pos h4, show 0x300000 + m * 0x10000 + o + i * 8 = 0x300000 + o + (m * 0x10000 + i * 8) by omega]
    exact resetWord_two hh h4 hi (by omega) (by decide)
  · next h4 =>
    rw [if_neg h4, show 0x380000 + (m - 4) * 0x10000 + o + i * 8 = 0x380000 + o + ((m - 4) * 0x10000 + i * 8) by omega]
    exact resetWord_two hd (by omega) hi (by omega) (by decide)

theorem resetWord_obxVccfg {i : Nat} (hi : i < 8) :
    resetWord (Reg.OBX_VCCFG i) = if i = 6 then 0x60FC else if i = 7 then 0xA0FC else 0x20FC := by
  have h : ∀ i < 8, resetWord (Reg.OBX_VCCFG i) = if i = 6 then 0x60FC else if i = 7 then 0xA0FC else 0x20FC := by
    decide +kernel
  exact h i hi

theorem resetWord_idnPart : resetWord Reg.IDN_PART = if Config.longLife then 0xAB0A96480200 else 0xAB0A96480100 := by
  have h : findReg regTable Reg.IDN_PART = some (⟨.IDN_PART, 0, 0, [], 0xAB0A96480000, 0, 0, 0, 0, 0, 0⟩, []) := by
    decide +kernel
  unfold resetWord
  rw [h]
  dsimp only
  split <;> simp

theorem idnCompat_reset :
    rd State.reset Reg.IDN_COMPAT = BitVec.ofNat 48 (1 + (1 + Config.levelMaxLess1.toNat % 255) * 256) := by
  have h : findReg regTable Reg.IDN_COMPAT = some (⟨.IDN_COMPAT, 0, 0x10, [], 1, 0, 0, 0, 0, 0, 0⟩, []) := by
    decide +kernel
  rw [rd_reset, resetWord, h]

theorem levelMin_reset : fld State.reset Reg.IDN_COMPAT F.IDN_COMPAT_level_min = 1 := by
  rw [fld, idnCompat_reset, getF, bitsN, BitVec.toNat_ofNat]
  simp only [F.IDN_COMPAT_level_min]
  omega

theorem pwrPlan_reset {q : Nat} (hq : q < 4) :
    rd State.reset (Reg.PWR_PLAN q) = BitVec.ofNat 48 (2 + (Config.fuse q).toNat % 64 * 256) := by
  have h : arrayRow [(4, 8)] 0x50100 = some ⟨.PWR_PLAN, 0, 0x50100, [(4, 8)], 2, 0, 0, 0, 0, 0, 0x3F07⟩ := by
    decide +kernel
  rw [rd_reset, resetWord, Reg.PWR_PLAN, findReg_arrayRow_one h hq (by decide)]
  rfl

theorem pwrFuse_reset {q : Nat} (hq : q < 4) : rd State.reset (Reg.PWR_FUSE q) = Config.fuse q &&& 0xFFFFF01FFF3F := by
  have h : arrayRow [(4, 8)] 0x50120 = some ⟨.PWR_FUSE, 0, 0x50120, [(4, 8)], 0, 0, 0, 0, 0, 0, 0⟩ := by decide +kernel
  rw [rd_reset, resetWord, Reg.PWR_FUSE, findReg_arrayRow_one h hq (by decide)]
  rfl

theorem planBin_reset {q : Nat} (hq : q < 4) : fld State.reset (Reg.PWR_PLAN q) F.PWR_PLAN_bin = 2 := by
  rw [fld, pwrPlan_reset hq, getF, bitsN, BitVec.toNat_ofNat]
  simp only [F.PWR_PLAN_bin]
  omega

/-- The plan's voltage is the calibrated one of the fuses (R499). -/
theorem planVmin_reset {q : Nat} (hq : q < 4) :
    fld State.reset (Reg.PWR_PLAN q) F.PWR_PLAN_vmin = fld State.reset (Reg.PWR_FUSE q) F.PWR_FUSE_vcal := by
  have hmask : (Config.fuse q &&& 0xFFFFF01FFF3F).toNat % 64 = (Config.fuse q).toNat % 64 := by
    rw [BitVec.toNat_and, show (64 : Nat) = 2 ^ 6 from rfl, Nat.and_mod_two_pow]
    exact Nat.and_two_pow_sub_one_eq_mod _ 6 ▸ by simp
  rw [fld, fld, pwrPlan_reset hq, pwrFuse_reset hq, getF, getF, bitsN, bitsN, BitVec.toNat_ofNat]
  simp only [F.PWR_PLAN_vmin, F.PWR_FUSE_vcal]
  omega

end Sys2Proof.Machine

open Sys2Proof Sys2Proof.Machine in
/-- Settles O54: no register is listed, so each reads as its row of the register tables says. -/
theorem resetState : Obligations.ResetState := by
  refine ⟨rfl, rd_reset, by decide +kernel, by decide +kernel, rfl, fun _ => rfl, fun _ => ⟨rfl, rfl⟩,
    by decide +kernel,
    fun i j hi hj => ?_,
    fun i hi => resetWord_one (n := 64) (v := 0x100) (by decide +kernel) hi (by decide),
    fun i hi => resetWord_one (n := 1024) (v := 0x2000) (by decide +kernel) hi (by decide),
    fun i hi => resetWord_one (n := 24) (v := 0x2) (by decide +kernel) hi (by decide),
    fun i hi => resetWord_one (n := 16) (v := 0x40) (by decide +kernel) hi (by decide),
    fun i hi => resetWord_one (n := 2048) (v := 0x80) (by decide +kernel) hi (by decide),
    fun i hi => resetWord_one (n := 4096) (v := 0x60200000000) (by decide +kernel) hi (by decide),
    fun i hi => resetWord_one (n := 4096) (v := 0x60000000000) (by decide +kernel) hi (by decide),
    fun i hi => resetWord_one (n := 64) (v := 0x612000000000) (by decide +kernel) hi (by decide),
    fun i hi => resetWord_one (n := 64) (v := 0xFAC688) (by decide +kernel) hi (by decide),
    fun i hi => resetWord_one (n := 64) (v := 0xFFFF) (by decide +kernel) hi (by decide),
    fun i hi => resetWord_obxVccfg hi,
    fun i hi => resetWord_one (n := 6) (v := 0x8000) (by decide +kernel) hi (by decide),
    resetWord_idnPart, levelMin_reset, fun i hi => ⟨planBin_reset hi, planVmin_reset hi⟩,
    fun m hm => resetWord_mc (v := 0xC) (by decide +kernel) (by decide +kernel) hm,
    fun m hm => resetWord_mc (v := 0x400) (by decide +kernel) (by decide +kernel) hm,
    fun m hm => resetWord_mc (v := 0x88) (by decide +kernel) (by decide +kernel) hm,
    fun m hm => resetWord_mc (v := 0x64640A1000) (by decide +kernel) (by decide +kernel) hm,
    fun m i hm hi => ?_, fun m i hm hi => ?_⟩
  · rw [rd_reset, Reg.CLU_THSTAT, Nat.add_assoc]
    exact resetWord_two (n := 24) (m := 128) (v := 0x20000007) (by decide +kernel) hi hj (by decide) (by decide)
  · exact resetWord_mc_array (k := 4) (k' := 4) (v := 0x400700C0) (by decide +kernel) (by decide +kernel) (by decide)
      (by decide) hm (by simpa using hi)
  · exact resetWord_mc_array (k := 32) (k' := 1) (v := 0x11) (by decide +kernel) (by decide +kernel) (by decide)
      (by decide) hm (by split at hi <;> simp_all)
end

