-- ==== Sys2Proof/Proofs/RegisterAccess.lean ====
section
/-! Register accesses from outside the cores: how an access is judged and told, what reads and writes of registers give, and
what function pages, mailboxes and HDM decoders hold. -/

namespace Sys2Proof.Machine

section
variable {s : State} {loc off n : Nat} {write : Bool} {f : State → Option Word × State}

/-! ## How an access is judged (R7, R9, R511–R513) -/

theorem classOf_bmc : classOf s (agentId s bmcAgent) = 5 := by
  have hd : devId s < 1024 := by
    unfold devId
    split
    · exact getF_lt _ _
    · decide
  have hdev : agentDev (agentId s bmcAgent) = devId s := by
    unfold agentDev agentId bmcAgent
    omega
  have hloc : agentLoc (agentId s bmcAgent) = bmcAgent := by
    unfold agentLoc agentId bmcAgent
    omega
  unfold classOf
  rw [hdev, hloc]
  simp [bmcAgent, svcAgent]

theorem csrAccess_denied (h : allowed s (classOf s (agentId s loc)) (0xF000000000 + off) (!write) write = false) :
    csrAccess loc off n write f s =
      (1, 0, denied (agentId s loc) (classOf s (agentId s loc)) (0xF000000000 + off) write s) := by
  simp [csrAccess, h]

theorem csrAccess_failed (h : allowed s (classOf s (agentId s loc)) (0xF000000000 + off) (!write) write = true)
    (hn : n ≠ 8 ∨ off % 8 ≠ 0 ∨ csrUp off s = false) : csrAccess loc off n write f s = (2, 0, s) := by
  have hc : n ≠ 8 ∨ off % 8 ≠ 0 ∨ (!csrUp off s) = true := by simpa using hn
  unfold csrAccess
  dsimp only
  rw [h, if_neg (by decide), if_pos hc]

theorem csrAccess_ok {v : Word} {u : State}
    (h : allowed s (classOf s (agentId s loc)) (0xF000000000 + off) (!write) write = true) (hoff : off % 8 = 0)
    (hup : csrUp off s = true) (hf : f s = (some v, u)) : csrAccess loc off 8 write f s = (0, v, u) := by
  unfold csrAccess
  dsimp only
  rw [h, if_neg (by decide), if_neg (by simp [hoff, hup]), hf]

theorem csrAccess_none (h : allowed s (classOf s (agentId s loc)) (0xF000000000 + off) (!write) write = true)
    (hf : f s = (none, s)) : csrAccess loc off n write f s = (2, 0, s) := by
  unfold csrAccess
  dsimp only
  rw [h, if_neg (by decide), hf]
  split <;> rfl

theorem csrAccess_missing (h : allowed s (classOf s (agentId s loc)) (0xF000000000 + off) (!write) write = true)
    (hm : ¬ (off % 8 = 0 ∧ csrUp off s = true) ∨ findReg regTable off = none)
    (hf : findReg regTable off = none → f s = (none, s)) : csrAccess loc off 8 write f s = (2, 0, s) := by
  rcases hm with hplace | hnone
  · refine csrAccess_failed h (.inr ?_)
    by_cases h8 : off % 8 = 0
    · exact .inr (Bool.eq_false_iff.2 fun hup => hplace ⟨h8, hup⟩)
    · exact .inl h8
  · exact csrAccess_none h (hf hnone)

/-! ## What the requester is told (R536) -/

theorem csrTell_csr (r : Nat × Word × State) : (csrTell loc off write s r).csr = r.2.2.csr := by
  unfold csrTell
  repeat' split
  all_goals rfl

theorem csrTell_ev (r : Nat × Word × State) : (csrTell loc off write s r).ev = r.2.2.ev := by
  unfold csrTell
  repeat' split
  all_goals rfl

theorem csrTell_svc {r : Nat × Word × State} (h : r.1 = 0 → mustWait s off write = false) :
    csrTell svcAgent off write s r = emit r.2.2 (.reg svcAgent (if r.1 = 0 then 0 else 3) r.2.1) := by
  unfold csrTell
  rw [if_neg (fun hw => by simp [h hw.1] at hw), if_pos rfl]

theorem csrTell_bmc {r : Nat × Word × State} (h : r.1 = 0 → mustWait s off write = false) :
    csrTell bmcAgent off write s r = emit r.2.2 (.reg bmcAgent r.1 r.2.1) := by
  unfold csrTell
  rw [if_neg (fun hw => by simp [h hw.1] at hw), if_neg (by decide), if_pos (.inl rfl)]

/-! ## Rows -/

theorem toW_toNat (v : Word) : toW v.toNat = v := by simp [toW]

theorem exec_svcRead (hoff : off < 2 ^ 32) : exec (.registerWrite (.csrRead svcAgent off 8)) s =
    .next (csrTell svcAgent off false s (csrAccess svcAgent off 8 false (csrRead svcAgent off) s)) :=
  if_neg (by simpa [accessOk] using hoff)

theorem accessOk_svcWrite (hoff : off < 2 ^ 32) (hn : n ∈ [1, 2, 4, 8]) (x : Nat) :
    accessOk (.csrWrite svcAgent off n x) = true := by
  have hc : [1, 2, 4, 8].contains n = true := List.contains_iff_mem.2 hn
  dsimp only [accessOk]
  rw [hc, decide_eq_true hoff]
  rfl

theorem exec_svcWrite (hoff : off < 2 ^ 32) (hn : n ∈ [1, 2, 4, 8]) (x : Nat) :
    exec (.registerWrite (.csrWrite svcAgent off n x)) s =
      .next (csrTell svcAgent off true s (csrAccess svcAgent off n true (writing svcAgent off (toW x)) s)) :=
  if_neg (by rw [accessOk_svcWrite hoff hn]; decide)

theorem exec_bmcRead {bus : BmcBus} (hoff : off < 2 ^ 32) : exec (.bmcRead bus off) s =
    .next (if bmcHeard s bus then csrReadBy bmcAgent off 8 s else s) := if_neg (by omega)

theorem exec_bmcWrite {bus : BmcBus} {v : Word} (hoff : off < 2 ^ 32) : exec (.bmcWrite bus off v) s =
    .next (if bmcHeard s bus then csrWriteBy bmcAgent off 8 v s else s) := if_neg (by omega)

/-- R536: nothing reaches the board management controller's target while PORST_N is low. -/
theorem csrBy_bmc_porst (h : s.svc.porst = true) : csrBy bmcAgent off n write f s = s := by
  simp [csrBy, h]

/-- R536: an access before the last one has completed. -/
theorem csrBy_bmc_late (h : s.svc.porst = false) (hl : bmcAgent ∈ s.epc.late) :
    csrBy bmcAgent off n write f s = emit s (.reg bmcAgent 3 0) := by
  simp [csrBy, h, hl]

theorem csrBy_bmc (h : s.svc.porst = false) (hl : bmcAgent ∉ s.epc.late) :
    csrBy bmcAgent off n write f s = csrTell bmcAgent off write s (csrAccess bmcAgent off n write f s) := by
  simp [csrBy, h, hl]

theorem exec_bmcRead_heard {bus : BmcBus} (hoff : off < 2 ^ 32) (hb : bmcHeard s bus = true) (h : s.svc.porst = false)
    (hl : bmcAgent ∉ s.epc.late) : exec (.bmcRead bus off) s =
      .next (csrTell bmcAgent off false s (csrAccess bmcAgent off 8 false (csrRead bmcAgent off) s)) := by
  rw [exec_bmcRead hoff, if_pos hb, csrReadBy, csrBy_bmc h hl]

theorem exec_bmcWrite_heard {bus : BmcBus} {v : Word} (hoff : off < 2 ^ 32) (hb : bmcHeard s bus = true)
    (h : s.svc.porst = false) (hl : bmcAgent ∉ s.epc.late) : exec (.bmcWrite bus off v) s =
      .next (csrTell bmcAgent off true s (csrAccess bmcAgent off 8 true (writing bmcAgent off v) s)) := by
  rw [exec_bmcWrite hoff, if_pos hb, csrWriteBy, csrBy_bmc h hl]

theorem csrBy_fn_off {fn : Nat} (hfn : 0x1000 ≤ fn ∧ fn < 0x1400) (h : fnEnabled s fn = false) :
    csrBy fn off n write f s = s := by
  have hb : fn ≠ bmcAgent := by unfold bmcAgent; omega
  have hs : fn ≠ svcAgent := by unfold svcAgent; omega
  simp [csrBy, hb, hs, h]

/-- R344: only a physical function has BAR0. -/
theorem csrBy_fn_virtual {fn : Nat} (hfn : 0x1000 ≤ fn ∧ fn < 0x1400) (h : fnEnabled s fn = true)
    (hpf : fn ≠ pfOf s (hostLinkOfFn s fn)) : csrBy fn off n write f s = emit s (.reg fn 2 0) := by
  have hb : fn ≠ bmcAgent := by unfold bmcAgent; omega
  have hs : fn ≠ svcAgent := by unfold svcAgent; omega
  simp [csrBy, hb, hs, h, hpf]

end

/-! ## Denials and refusals (R510, R513) -/

section
variable {s : State}

theorem Counted.bytesKept {u : State} (h : Counted s u) : BytesKept s u := by
  obtain ⟨c, e, rfl⟩ := h
  exact ⟨rfl, rfl, rfl, rfl⟩

theorem Counted.outbox_eq {u : State} (h : Counted s u) : u.outbox = s.outbox := by
  obtain ⟨c, e, rfl⟩ := h
  rfl

theorem xingPulse_of_lt {n : Nat} (h : Tab.get 0 s.ev.xing n < 2) : xingPulse s n =
    ({ s with ev := { s.ev with xing := Tab.set 0 s.ev.xing n (Tab.get 0 s.ev.xing n + 1) } }, false) := by
  obtain h0 | h1 : Tab.get 0 s.ev.xing n = 0 ∨ Tab.get 0 s.ev.xing n = 1 := by omega
  · simp [xingPulse, h0]
  · simp [xingPulse, h1]

/-- A source whose pulses cross a clock domain: the pulse or the bit is on its way. -/
theorem crossed_raise {n : Nat} (hd : srcDomain s n ≠ 11) : Crossed s (raise s n) n := by
  unfold raise
  rw [if_neg hd]
  constructor
  · intro hmode hlt
    rw [if_neg hmode, xingPulse_of_lt hlt]
    exact Tab.get_set_same 0 (Tab.get 0 s.ev.xing n + 1) s.ev.xing n
  · intro hmode hbit
    rw [if_pos hmode, if_pos hbit]
    exact Tab.get_set_same 0 1 s.ev.bits n

/-- What comes before the pulse leaves the source's mode and the crossings alone. -/
theorem Crossed.of_before {p u : State} {n : Nat} (h : Crossed p u n) (hev : p.ev = s.ev)
    (hrd : rd p (Reg.EVT_CFG n) = rd s (Reg.EVT_CFG n)) : Crossed s u n := by
  have hm : fld p (Reg.EVT_CFG n) F.EVT_CFG_mode = fld s (Reg.EVT_CFG n) F.EVT_CFG_mode := congrArg (getF · _) hrd
  unfold Crossed at h ⊢
  rwa [hev, hm] at h

/-- What comes after it leaves the crossings alone. -/
theorem Crossed.of_after {u w : State} {n : Nat} (h : Crossed s u n) (hev : w.ev = u.ev) : Crossed s w n := by
  unfold Crossed at h ⊢
  rwa [hev]

theorem CountsBy.of_after {u w : State} {a k : Nat} {f : Fld} (h : CountsBy s u a f k) (hcsr : w.csr = u.csr) :
    CountsBy s w a f k := by
  unfold CountsBy at h ⊢
  rwa [fld_congr hcsr]

/-- The clock domain of the CLKRST and service blocks' sources (R453). -/
theorem srcDomain_clkrst : srcDomain s 1600 = 2 := by
  unfold srcDomain
  iterate 11 rw [if_neg (by decide)]
  rfl

theorem srcDomain_service {n : Nat} (h : 1792 ≤ n ∧ n < 1856) : srcDomain s n = 2 := by
  unfold srcDomain
  iterate 13 rw [if_neg (by omega)]
  exact if_pos h.2

theorem rd_raise_of_ne {n a : Nat} (hn : 1792 ≤ n ∧ n < 1856) (hcfg : a ≠ Reg.EVT_CFG n)
    (hdom : a ≠ Reg.CRS_DOMSTAT 2) : rd (raise s n) a = rd s a :=
  rd_raise s n a hcfg (by rwa [srcDomain_service hn]) (by rwa [srcDomain_clkrst])

theorem fld_bump_same (s : State) {a : Nat} {f : Fld} (hf : f.hi < 48) :
    fld (bump s a f) a f = min (2 ^ f.width - 1) (fld s a f + 1) := by
  unfold bump bumpBy satAdd
  rw [fld_setFld_same s a f _ hf]
  have := Nat.two_pow_pos f.width
  exact Nat.mod_eq_of_lt (by omega)

/-- What a denial or a refusal writes before its event: a count, and the record of the access. -/
theorem rd_recorded {f : Fld} {v : Word} {b : Nat} (hcnt : b ≠ Reg.PRT_CNT) (hviol : b ≠ Reg.PRT_VIOL) :
    rd (wr (bump s Reg.PRT_CNT f) Reg.PRT_VIOL v) b = rd s b := by
  rw [rd_wr_ne _ _ hviol]
  exact rd_setFld_ne _ _ _ hcnt

theorem countsBy_recorded {f : Fld} {v : Word} (hf : f.hi < 48) :
    CountsBy s (wr (bump s Reg.PRT_CNT f) Reg.PRT_VIOL v) Reg.PRT_CNT f 1 := by
  unfold CountsBy
  rw [fld_wr_ne _ _ _ (by decide), fld_bump_same s hf]

theorem exists_denied (agent cls a : Nat) (w : Bool) : ∃ v, denied agent cls a w s =
    raise (wr (wr (bump s Reg.PRT_CNT F.PRT_CNT_denied) Reg.PRT_VIOL v) Reg.PRT_VIOLA (toW a)) 1793 := ⟨_, rfl⟩

theorem exists_bwRefused (agent cls : Nat) : ∃ v, bwRefused agent cls s =
    raise (wr (bump s Reg.PRT_CNT F.PRT_CNT_bw) Reg.PRT_VIOL v) 1794 := ⟨_, rfl⟩

theorem denied_effect {agent cls a : Nat} {w : Bool} :
    Counted s (denied agent cls a w s) ∧ CountsBy s (denied agent cls a w s) Reg.PRT_CNT F.PRT_CNT_denied 1 ∧
      Crossed s (denied agent cls a w s) 1793 ∧ rd (denied agent cls a w s) Reg.PRT_VIOLA = BitVec.ofNat 48 a := by
  obtain ⟨v, hd⟩ := exists_denied (s := s) agent cls a w
  have hs : srcDomain (wr (wr (bump s Reg.PRT_CNT F.PRT_CNT_denied) Reg.PRT_VIOL v) Reg.PRT_VIOLA (toW a)) 1793 ≠ 11 := by
    rw [srcDomain_service (by decide)]
    decide
  rw [hd]
  refine ⟨((((Counted.refl s).bump _ _).wr _ _).wr _ _).raise _, ?_, ?_, ?_⟩
  · unfold CountsBy
    rw [fld, rd_raise_of_ne (by decide) (by decide) (by decide), rd_wr_ne _ _ (by decide)]
    exact countsBy_recorded (by decide)
  · refine (crossed_raise hs).of_before (by rw [wr_ev, wr_ev, bump_ev]) ?_
    rw [rd_wr_ne _ _ (by decide), rd_recorded (by decide) (by decide)]
  · rw [rd_raise_of_ne (by decide) (by decide) (by decide), rd_wr_same, toW]

/-- A denied access, told to its requester. -/
theorem denied_told {c : Instr} {agent cls a : Nat} {w : Bool} {o : Output}
    (h : exec c s = .next (emit (denied agent cls a w s) o)) : ∃ u, exec c s = .next u ∧ u.outbox = s.outbox ++ [o] ∧
      CountsBy s u Reg.PRT_CNT F.PRT_CNT_denied 1 ∧ Crossed s u 1793 ∧ BytesKept s u ∧
      rd u Reg.PRT_VIOLA = BitVec.ofNat 48 a := by
  obtain ⟨hc, hcnt, hx, hrd⟩ := denied_effect (s := s) (agent := agent) (cls := cls) (a := a) (w := w)
  refine ⟨_, h, ?_, hcnt.of_after rfl, hx.of_after rfl, hc.bytesKept, (rd_congr rfl _).trans hrd⟩
  exact congrArg (· ++ [o]) hc.outbox_eq

theorem bwRefused_effect {agent cls : Nat} :
    Counted s (bwRefused agent cls s) ∧ CountsBy s (bwRefused agent cls s) Reg.PRT_CNT F.PRT_CNT_bw 1 ∧
      Crossed s (bwRefused agent cls s) 1794 ∧
      ∀ b, b ≠ Reg.PRT_CNT → b ≠ Reg.PRT_VIOL → b ≠ Reg.EVT_CFG 1794 → b ≠ Reg.CRS_DOMSTAT 2 →
        rd (bwRefused agent cls s) b = rd s b := by
  obtain ⟨v, hr⟩ := exists_bwRefused (s := s) agent cls
  have hs : srcDomain (wr (bump s Reg.PRT_CNT F.PRT_CNT_bw) Reg.PRT_VIOL v) 1794 ≠ 11 := by
    rw [srcDomain_service (by decide)]
    decide
  rw [hr]
  refine ⟨(((Counted.refl s).bump _ _).wr _ _).raise _, ?_, ?_, fun b hcnt hviol hcfg hdom => ?_⟩
  · unfold CountsBy
    rw [fld, rd_raise_of_ne (by decide) (by decide) (by decide)]
    exact countsBy_recorded (by decide)
  · refine (crossed_raise hs).of_before (by rw [wr_ev, bump_ev]) ?_
    rw [rd_recorded (by decide) (by decide)]
  · rw [rd_raise_of_ne (by decide) hcfg hdom, rd_recorded hcnt hviol]

end

/-! ## Reads and writes of a register (R10, R13) -/

section
variable {s : State} {r : RegDesc} {l : List Nat} {off : Nat} {v : Word}

theorem mem_of_findReg {t : List RegDesc} {a : Nat} (h : findReg t a = some (r, l)) : r ∈ t := by
  induction t with
  | nil => cases h
  | cons q t ih =>
    unfold findReg at h
    split at h
    · cases h
      exact List.mem_cons_self
    · exact List.mem_cons_of_mem _ (ih h)

theorem csrRead_none {loc : Nat} (h : findReg regTable off = none) : csrRead loc off s = (none, s) := by
  rw [csrRead, h]

theorem csrRead_absent {loc : Nat} (h : findReg regTable off = some (r, l)) (ha : absent r.id (l.headD 0) s = true) :
    csrRead loc off s = (some 0, s) := by
  rw [csrRead, h]
  exact if_pos ha

/-- A register that is not live reads as the bits last in effect, but for write-only ones. -/
theorem csrRead_plain {loc : Nat} (h : findReg regTable off = some (r, l)) (ha : absent r.id (l.headD 0) s = false)
    (hl : r.id ∉ liveRegs) : csrRead loc off s = (some (rd s off &&& ~~~(BitVec.ofNat 48 r.wo)), s) := by
  rw [csrRead, h]
  dsimp only [csrReadReg]
  rw [ha, if_neg (by decide)]
  split
  case h_27 => rfl
  all_goals simp_all [liveRegs]

theorem writing_none {loc : Nat} (h : findReg regTable off = none) : writing loc off v s = (none, s) := by
  rw [writing, csrWrite, h]
  rfl

theorem writing_of_csrWrite {loc : Nat} {u : State} (h : csrWrite loc 0 off v s = (true, u)) :
    writing loc off v s = (some 0, u) := by
  rw [writing, h]
  rfl

/-! ### Plain registers -/

/-- Every plain register's row has RW bits alone. -/
theorem plain_row (hr : r ∈ regTable) (hp : r.id ∈ plainRegs) : r.bw = 0 ∧ r.sw = 0 ∧ r.w1c = 0 ∧ r.w1s = 0 := by
  have h : ∀ q ∈ regTable, q.id ∈ plainRegs → q.bw = 0 ∧ q.sw = 0 ∧ q.w1c = 0 ∧ q.w1s = 0 := by decide +kernel
  exact h r hr hp

theorem csrActA_of_plain {i j : Nat} {p : State} (hp : r.id ∈ plainRegs) : csrActA r i j v p s = none := by
  unfold csrActA
  split <;> simp_all [plainRegs]

theorem csrActB_of_plain {who gen i j : Nat} {p : State} (hp : r.id ∈ plainRegs) : csrActB who gen r i j v p s = none := by
  unfold csrActB
  split <;> simp_all [plainRegs]

theorem csrActC_of_plain {i : Nat} {p : State} (hp : r.id ∈ plainRegs) : csrActC r i v p s = none := by
  unfold csrActC
  split <;> simp_all [plainRegs]

theorem csrActD_of_plain {loc i : Nat} {p : State} (hp : r.id ∈ plainRegs) : csrActD loc r i v p s = none := by
  unfold csrActD
  split <;> simp_all [plainRegs]

theorem csrLimit_of_plain {i : Nat} (hp : r.id ∈ plainRegs) : csrLimit r.id i v s = some v := by
  unfold csrLimit
  split <;> simp_all [plainRegs]

theorem absent_of_plain {i : Nat} (hp : r.id ∈ plainRegs) : absent r.id i s = false := by
  unfold absent
  split <;> simp_all [plainRegs]

theorem csrWrite_plain {loc gen : Nat} (h : findReg regTable off = some (r, l)) (hp : r.id ∈ plainRegs) :
    csrWrite loc gen off v s = (true, csrPlain r off v s) := by
  obtain ⟨hbw, hsw, -, -⟩ := plain_row (mem_of_findReg h) hp
  have hturn : r.id ≠ .BRG_TURN := fun e => absurd (e ▸ hp) (by decide)
  have hpass : r.id ≠ .BRG_PASS := fun e => absurd (e ▸ hp) (by decide)
  rw [csrWrite, h]
  dsimp only [csrWriteReg]
  rw [absent_of_plain hp, if_neg (by decide), if_neg hturn, if_neg hpass, if_neg (not_not.2 hbw), if_neg (not_not.2 hsw),
    csrActA_of_plain hp, csrActB_of_plain hp, csrActC_of_plain hp, csrActD_of_plain hp, csrLimit_of_plain hp]

theorem rd_csrPlain (hr : r ∈ regTable) (hp : r.id ∈ plainRegs) :
    rd (csrPlain r off v s) off = (rd s off &&& ~~~(BitVec.ofNat 48 r.rw)) ||| (v &&& BitVec.ofNat 48 r.rw) := by
  obtain ⟨-, -, hw1c, hw1s⟩ := plain_row hr hp
  have hkeep (x : Word) : x &&& ~~~(0#48 &&& v) = x := by
    rw [BitVec.zero_and, BitVec.not_zero, BitVec.and_allOnes]
  simp only [csrPlain, rd_wr_same, hw1c, hw1s, hkeep, BitVec.and_zero, BitVec.or_zero]

/-- A plain register's write, told to its requester. -/
theorem plain_told {c : Instr} {o : Output} (hr : r ∈ regTable) (hp : r.id ∈ plainRegs)
    (h : exec c s = .next (emit (csrPlain r off v s) o)) : ∃ u, exec c s = .next u ∧ u.outbox = s.outbox ++ [o] ∧
      RegsKept s u [off] ∧ u = { s with csr := u.csr, outbox := u.outbox } ∧
      rd u off = (rd s off &&& ~~~(BitVec.ofNat 48 r.rw)) ||| (v &&& BitVec.ofNat 48 r.rw) := by
  obtain ⟨w, hw⟩ : ∃ w, csrPlain r off v s = wr s off w := ⟨_, rfl⟩
  have hrd := rd_csrPlain (off := off) (v := v) (s := s) hr hp
  rw [hw] at h hrd
  refine ⟨emit (wr s off w) o, h, rfl, fun a ha => ?_, rfl, (rd_congr rfl off).trans hrd⟩
  exact (rd_congr rfl a).trans (rd_wr_ne _ _ (List.ne_of_not_mem_cons ha))

theorem swMask_of_findReg (h : findReg regTable off = some (r, l)) : swMask off = r.sw := by
  rw [swMask, h]

/-- An access to a plain register does not wait: the hold of R428 is for SW registers and EPC_COMMIT. -/
theorem mustWait_of_plain {write : Bool} (h : findReg regTable off = some (r, l)) (hp : r.id ∈ plainRegs) :
    mustWait s off write = false := by
  obtain ⟨-, hsw, -, -⟩ := plain_row (mem_of_findReg h) hp
  have hcommit : off ≠ Reg.EPC_COMMIT := by
    rintro rfl
    have hq : (findReg regTable Reg.EPC_COMMIT).all (fun e => !plainRegs.contains e.1.id) = true := by decide +kernel
    simp_all
  simp [mustWait, swMask_of_findReg h, hsw, hcommit]

/-! ### BW and SW registers -/

/-- No BW register is of those that an image may leave out, nor a turn's or a pass's. -/
theorem bw_row (hr : r ∈ regTable) (hb : r.bw ≠ 0) :
    r.id ∈ [.STR_STATUS, .STR_VERSION, .STR_LEVEL, .STR_DIGEST, .SPN_HSEED, .MC_HASH, .MC_COLSEL, .MC_ROWSEL, .MC_HASHCFG,
      .CRS_BOOT, .PRT_DEFAULT, .PRT_RBASE, .PRT_RLIM, .PRT_RPERM] := by
  have h : ∀ q ∈ regTable, q.bw ≠ 0 → q.id ∈ [RegId.STR_STATUS, .STR_VERSION, .STR_LEVEL, .STR_DIGEST, .SPN_HSEED, .MC_HASH,
    .MC_COLSEL, .MC_ROWSEL, .MC_HASHCFG, .CRS_BOOT, .PRT_DEFAULT, .PRT_RBASE, .PRT_RLIM, .PRT_RPERM] := by decide +kernel
  exact h r hr hb

theorem absent_of_bw {i : Nat} (hr : r ∈ regTable) (hb : r.bw ≠ 0) : absent r.id i s = false := by
  have hid := bw_row hr hb
  unfold absent
  split <;> simp_all

theorem csrWrite_bw {loc gen : Nat} (h : findReg regTable off = some (r, l)) (hb : r.bw ≠ 0) :
    csrWrite loc gen off v s = (true, csrBoot loc r off v s) := by
  have hr := mem_of_findReg h
  have hturn : r.id ≠ .BRG_TURN := fun e => absurd (e ▸ bw_row hr hb) (by decide)
  have hpass : r.id ≠ .BRG_PASS := fun e => absurd (e ▸ bw_row hr hb) (by decide)
  rw [csrWrite, h]
  dsimp only [csrWriteReg]
  rw [absent_of_bw hr hb, if_neg (by decide), if_neg hturn, if_neg hpass, if_pos hb]

theorem csrBoot_unsealed (hoff : off ≠ Reg.CRS_BOOT) (hs : isSealed s = false) : csrBoot svcAgent r off v s =
    wr s off ((rd s off &&& ~~~(BitVec.ofNat 48 r.bw)) ||| (v &&& BitVec.ofNat 48 r.bw)) := by
  unfold csrBoot
  rw [if_pos ⟨rfl, by simp [hs]⟩, if_neg hoff]

theorem csrBoot_sealed (hs : isSealed s = true) : csrBoot svcAgent r off v s =
    bwRefused (agentId s svcAgent) (classOf s (agentId s svcAgent)) s := by
  unfold csrBoot
  rw [if_neg (by simp [hs])]

/-- A BW register's offset is none at which a row without BW bits stands. -/
theorem bw_off_ne {a : Nat} (h : findReg regTable off = some (r, l)) (hb : r.bw ≠ 0)
    (ha : (findReg regTable a).all (fun e => e.1.bw == 0) = true) : off ≠ a := by
  rintro rfl
  simp_all

/-- No SW register is a turn's or a pass's. -/
theorem csrWrite_sw {loc gen : Nat} (h : findReg regTable off = some (r, l)) (ha : absent r.id (l.headD 0) s = false)
    (hb : r.bw = 0) (hw : r.sw ≠ 0) : csrWrite loc gen off v s = (true, swWrite off v s) := by
  have hq : ∀ q ∈ regTable, q.sw ≠ 0 → q.id ≠ .BRG_TURN ∧ q.id ≠ .BRG_PASS := by decide +kernel
  obtain ⟨hturn, hpass⟩ := hq r (mem_of_findReg h) hw
  rw [csrWrite, h]
  dsimp only [csrWriteReg]
  rw [ha, if_neg (by decide), if_neg hturn, if_neg hpass, if_neg (not_not.2 hb), if_pos hw]

/-! ### Commands -/

/-- A write that is a command: the command's own row and the write have one effect, and the writer is told. -/
theorem command_told {a : Nat} {x : Word} {c : Instr} {w : State} (hrow : findReg regTable a = some (r, l))
    (hc : exec c s = .next w) (hw : csrWriteReg svcAgent 0 r l a x s = (true, w)) (ha : a < 2 ^ 32 ∧ a % 8 = 0)
    (hmay : allowed s (classOf s (agentId s svcAgent)) (0xF000000000 + a) false true = true) (hup : csrUp a s = true)
    (hwait : mustWait s a true = false) :
    ∃ w u, exec c s = .next w ∧ exec (.registerWrite (.csrWrite svcAgent a 8 x.toNat)) s = .next u ∧
      u = { w with outbox := w.outbox ++ [.reg svcAgent 0 0] } := by
  have hcw : csrWrite svcAgent 0 a x s = (true, w) := by
    rw [csrWrite, hrow]
    exact hw
  refine ⟨w, _, hc, exec_svcWrite ha.1 (by decide) _, ?_⟩
  rw [toW_toNat, csrAccess_ok hmay ha.2 hup (writing_of_csrWrite hcw), csrTell_svc (fun _ => hwait)]
  rfl

theorem findReg_strStageCmd :
    findReg regTable Reg.STR_STAGE_CMD = some (⟨.STR_STAGE_CMD, 0, 0x20070, [], 0, 0, 0, 0, 7, 0, 0⟩, []) := by
  decide +kernel

theorem findReg_epcCommit :
    findReg regTable Reg.EPC_COMMIT = some (⟨.EPC_COMMIT, 0, 0x30030, [], 0, 0, 0, 0, 0x1EFFFF, 0, 0⟩, []) := by
  decide +kernel

theorem findReg_dstCmd : findReg regTable Reg.DST_CMD = some (⟨.DST_CMD, 0, 0x700008, [], 0, 0, 0, 0, 0xF, 0, 0⟩, []) := by
  decide +kernel

theorem findReg_svcCmd : findReg regTable Reg.SVC_CMD = some (⟨.SVC_CMD, 0, 0x800038, [], 0, 0, 0, 0, 0xFFFF, 0, 0⟩, []) := by
  decide +kernel

theorem findReg_crsClurst :
    findReg regTable Reg.CRS_CLURST = some (⟨.CRS_CLURST, 0, 0x40020, [], 0, 0, 0, 0, 0xFFFFFF, 0, 0⟩, []) := by
  decide +kernel

theorem findReg_crsCluhold :
    findReg regTable Reg.CRS_CLUHOLD = some (⟨.CRS_CLUHOLD, 0, 0x40028, [], 0, 0xFFFFFF, 0, 0, 0, 0, 0⟩, []) := by
  decide +kernel

theorem findReg_pwrVin :
    findReg regTable Reg.PWR_VIN = some (⟨.PWR_VIN, 0, 0x50010, [], 0, 0, 0x400000000000, 0, 0, 0, 0⟩, []) := by
  decide +kernel

theorem findReg_prtSeal : findReg regTable Reg.PRT_SEAL = some (⟨.PRT_SEAL, 0, 0x10000, [], 0, 0, 0, 1, 0, 0, 0⟩, []) := by
  decide +kernel

/-- The commands that the Service Newt gives by a register write, and the rows that give them. (No code is made of it: the
runtime has no tag for some of these rows.) -/
noncomputable def registerCommands : List (Nat × Word × Instr) :=
  [(Reg.STR_STAGE_CMD, 1, .verify), (Reg.STR_STAGE_CMD, 2, .arm), (Reg.STR_STAGE_CMD, 4, .disarm),
    (Reg.EPC_COMMIT, BitVec.ofNat 48 (2 ^ 17 + 5), .commitRequest 5 false),
    (Reg.EPC_COMMIT, BitVec.ofNat 48 (2 ^ 19), .commitWithdraw), (Reg.EPC_COMMIT, BitVec.ofNat 48 (2 ^ 20), .commitDiscard),
    (Reg.DST_CMD, putF 0 F.DST_CMD_cmd 1, .failover), (Reg.DST_CMD, putF 0 F.DST_CMD_cmd 2, .handover),
    (Reg.DST_CMD, putF 0 F.DST_CMD_cmd 3, .resync), (Reg.CRS_CLURST, 5, .clusterReset 5),
    (Reg.CRS_CLUHOLD, 9, .clusterHoldWrite 9), (Reg.SVC_CMD, putF 0 F.SVC_CMD_cmd 1, .commit),
    (Reg.SVC_CMD, putF 0 F.SVC_CMD_cmd 4, .ownerSet), (Reg.SVC_CMD, putF 0 F.SVC_CMD_cmd 6, .tamperClear),
    (Reg.PWR_VIN, putF 0 F.PWR_VIN_holdup 1, .holdupClear), (Reg.PRT_SEAL, putF 0 F.PRT_SEAL_seal 1, .bootSeal svcAgent)]

/-- Each such write has the command's effect. -/
theorem registerCommands_told : ∀ e ∈ registerCommands,
    allowed s (classOf s (agentId s svcAgent)) (0xF000000000 + e.1) false true = true → csrUp e.1 s = true →
      mustWait s e.1 true = false → ∃ w u, exec e.2.2 s = .next w ∧
        exec (.registerWrite (.csrWrite svcAgent e.1 8 e.2.1.toNat)) s = .next u ∧
        u = { w with outbox := w.outbox ++ [.reg svcAgent 0 0] } := by
  unfold registerCommands
  simp only [List.forall_mem_cons, List.not_mem_nil, false_implies, implies_true, and_true]
  refine ⟨?_, ?_, ?_, ?_, ?_, ?_, ?_, ?_, ?_, ?_, ?_, ?_, ?_, ?_, ?_, ?_⟩
  · exact command_told findReg_strStageCmd rfl rfl (by decide)
  · exact command_told findReg_strStageCmd rfl rfl (by decide)
  · exact command_told findReg_strStageCmd rfl rfl (by decide)
  · exact command_told findReg_epcCommit rfl rfl (by decide)
  · exact command_told findReg_epcCommit rfl rfl (by decide)
  · exact command_told findReg_epcCommit rfl rfl (by decide)
  · exact command_told findReg_dstCmd rfl rfl (by decide)
  · exact command_told findReg_dstCmd rfl rfl (by decide)
  · exact command_told findReg_dstCmd rfl rfl (by decide)
  · exact command_told findReg_crsClurst rfl rfl (by decide)
  · exact command_told findReg_crsCluhold rfl rfl (by decide)
  · exact command_told findReg_svcCmd rfl rfl (by decide)
  · exact command_told findReg_svcCmd rfl rfl (by decide)
  · exact command_told findReg_svcCmd rfl rfl (by decide)
  · exact command_told findReg_pwrVin rfl rfl (by decide)
  · exact command_told findReg_prtSeal rfl rfl (by decide)

end

/-! ## Function pages, mailboxes and HDM decoders (R344, R345, R355) -/

section
variable {s : State} {fn : Nat}

theorem get_foldl_set (base : Nat) (l : List Byte) (n k : Nat) (t : Tab Byte) :
    Tab.get 0 ((l.zipIdx n).foldl (fun m e => Tab.set 0 m (base + e.2) e.1) t) (base + k) =
      if n ≤ k ∧ k < n + l.length then l.getD (k - n) 0 else Tab.get 0 t (base + k) := by
  induction l generalizing n t with
  | nil => exact (if_neg (by simp)).symm
  | cons b l ih =>
    rw [List.zipIdx_cons, List.foldl_cons, ih, List.length_cons]
    obtain rfl | hne := eq_or_ne k n
    · rw [if_neg (by omega), if_pos (by omega), Nat.sub_self, Tab.get_set_same]
      rfl
    · rw [Tab.get_set_ne _ _ _ (by omega)]
      by_cases hk : n ≤ k ∧ k < n + (l.length + 1)
      · rw [if_pos hk, if_pos (by omega), show k - n = k - (n + 1) + 1 by omega]
        rfl
      · rw [if_neg hk, if_neg (by omega)]

theorem length_leBytes (n v : Nat) : (leBytes n v).length = n := by
  induction n generalizing v with
  | zero => rfl
  | succ n ih => rw [leBytes, List.length_cons, ih]

/-- A mailbox keeps the bytes written to it. -/
theorem mbox_mboxWrite {o k : Nat} {l : List Byte} (hk : k < l.length) :
    Tab.get 0 (mboxWrite fn o l s).host.mbox (fn * 256 + o + k) = l.getD k 0 := by
  have h := get_foldl_set (fn * 256 + o) l 0 k s.host.mbox
  rw [if_pos (by omega)] at h
  exact h

section
variable {o n x k : Nat} (hfn : onHostFn fn = true)
include hfn

theorem exec_fnWrite (ho : o < 2 ^ 32) : exec (.registerWrite (.csrWrite fn o 8 x)) s = .next (csrWriteBy fn o 8 (toW x) s) :=
  if_neg (by simpa [accessOk, hfn] using ho)

theorem exec_fnRead (ho : o < 2 ^ 32) : exec (.registerWrite (.csrRead fn o 8)) s = .next (csrReadBy fn o 8 s) :=
  if_neg (by simpa [accessOk, hfn] using ho)

theorem exec_pageWrite (ho : o < 0x10000) (hn : widthOk o n = true) :
    exec (.registerWrite (.pageWrite fn o n x)) s = .next (if fnEnabled s fn then pageWrite fn o n x s else s) :=
  if_neg (by simp [accessOk, hfn, ho, hn])

theorem exec_pageRead (ho : o < 0x10000) (hn : widthOk o n = true) : exec (.registerWrite (.pageRead fn o n)) s =
    .next (if fnEnabled s fn then emit s (.bytes fn ((List.range n).map (fun i => pageByte s fn (o + i)))) else s) :=
  if_neg (by simp [accessOk, hfn, ho, hn])

theorem exec_hdmWrite {ld : Nat} (hld : ld < 16) (hk : k < 64) : exec (.registerWrite (.hdmWrite fn ld k x)) s =
    .next (if ldOwner s fn ld then hdmWrite ld k (x % 2 ^ 32) s else s) :=
  if_neg (by simp [accessOk, hfn, hld, hk])

theorem exec_hdmRead {ld : Nat} (hld : ld < 16) (hk : k < 64) : exec (.registerWrite (.hdmRead fn ld k)) s =
    .next (if ldOwner s fn ld then emit s (.bytes fn (leBytes 4 (hdmDw s ld k))) else s) :=
  if_neg (by simp [accessOk, hfn, hld, hk])

theorem exec_mailWrite (ho : o < 256) (hn : widthOk o n = true) : exec (.registerWrite (.mailWrite fn o n x)) s =
    .next (mboxWrite fn o (leBytes n x) s) :=
  if_neg (by simp [accessOk, hfn, ho, hn])

theorem exec_mailRead (ho : o < 256) (hn : widthOk o n = true) : exec (.registerWrite (.mailRead fn o n)) s =
    .next (emit s (.bytes svcAgent ((List.range n).map (fun i => Tab.get 0 s.host.mbox (fn * 256 + o + i))))) :=
  if_neg (by simp [accessOk, hfn, ho, hn])

end

theorem ldOwner_of_disabled {ld : Nat} (h : fnEnabled s fn = false) : ldOwner s fn ld = false := by
  simp [ldOwner, h]

/-- Nothing of a function that is not enabled is written or read. -/
theorem exec_disabled {o n k x : Nat} (hfn : 0x1000 ≤ fn ∧ fn < 0x1400) (h : fnEnabled s fn = false) (ho : o < 0x10000)
    (hn : widthOk o n = true) (hk : k < 64) : ∀ y ∈ [RegAccess.pageWrite fn o n x, .pageRead fn o n, .csrWrite fn o 8 x,
      .csrRead fn o 8, .hdmWrite fn 0 k x, .hdmRead fn 0 k], exec (.registerWrite y) s = .next s := by
  have hf : onHostFn fn = true := by simpa [onHostFn] using hfn
  have hon : ¬ (fnEnabled s fn = true) := by simp [h]
  have hld : ¬ (ldOwner s fn 0 = true) := by simp [ldOwner_of_disabled h]
  simp only [List.forall_mem_cons, List.not_mem_nil, false_implies, implies_true, and_true]
  refine ⟨?_, ?_, ?_, ?_, ?_, ?_⟩
  · rw [exec_pageWrite hf ho hn, if_neg hon]
  · rw [exec_pageRead hf ho hn, if_neg hon]
  · rw [exec_fnWrite hf (by omega), csrWriteBy, csrBy_fn_off hfn h]
  · rw [exec_fnRead hf (by omega), csrReadBy, csrBy_fn_off hfn h]
  · rw [exec_hdmWrite hf (by decide) hk, if_neg hld]
  · rw [exec_hdmRead hf (by decide) hk, if_neg hld]

theorem widthOk_eight {o : Nat} (h : o % 8 = 0) : widthOk o 8 = true := by simp [widthOk, h]

/-- A mailbox in a function's page, apart from its doorbell. -/
theorem pageWrite_mbox {o x : Nat} (ho : 0x1000 ≤ o ∧ o < 0x10F8) (h8 : o % 8 = 0) :
    pageWrite fn o 8 x s = mboxWrite fn (o - 0x1000) (leBytes 8 x) s := by
  unfold pageWrite
  rw [if_neg (by omega), if_neg (by omega), if_pos (by omega)]
  exact if_neg (by omega)

theorem pageByte_mbox {o : Nat} (ho : 0x1000 ≤ o ∧ o < 0x1100) :
    pageByte s fn o = Tab.get 0 s.host.mbox (fn * 256 + (o - 0x1000)) := if_pos ho

/-- The data dword of an MSI-X table entry. -/
theorem pageWrite_vecData {k x : Nat} (hk : k < 2048) : pageWrite fn (0x2000 + 16 * k + 8) 4 x s =
    vecWrite fn k 2 (x % 2 ^ 32) s := by
  unfold pageWrite
  rw [if_neg (by omega), if_neg (by omega), if_neg (by omega), if_pos (by omega)]
  have hv : (0x2000 + 16 * k + 8 - 0x2000) / 4 / 4 = k := by omega
  have hd : (0x2000 + 16 * k + 8 - 0x2000) / 4 % 4 = 2 := by omega
  rw [show List.range (4 / 4) = [0] from rfl, forEach, List.foldl_cons, List.foldl_nil, Nat.add_zero, Nat.mul_zero,
    Nat.pow_zero, Nat.div_one]
  dsimp only
  rw [hv, hd]

theorem vecWrite_data {k d : Nat} (hk : k < vecCount s fn) :
    vecWrite fn k 2 d s = setVec fn k { vec s fn k with data := d } s := if_neg (by omega)

/-- A decoder's dwords below its control dword, where the decoder is not locked and committed. -/
theorem hdmWrite_below {ld k i v : Nat} (hk : k < 4) (hi : i < 4)
    (hopen : ¬ ((hdmDw s ld (8 + 8 * k)).testBit 8 = true ∧ (hdmDw s ld (8 + 8 * k)).testBit 10 = true)) :
    hdmWrite ld (4 + 8 * k + i) v s =
      { s with host := { s.host with hdm := Tab.set 0 s.host.hdm (ld * 64 + (4 + 8 * k + i)) (v % 2 ^ 32) } } := by
  unfold hdmWrite
  have hd : (4 + 8 * k + i - 4) / 8 = k := by omega
  have hm : ¬ ((4 + 8 * k + i - 4) % 8 = 4) := by omega
  dsimp only
  rw [hd, if_neg hm, show 4 + 8 * k + 4 = 8 + 8 * k by omega]
  exact if_neg (by rintro (h | h | h) <;> [omega; omega; exact hopen h])

theorem hdmWrite_locked {ld k i v : Nat} (hi : i < 4) (h8 : (hdmDw s ld (8 + 8 * k)).testBit 8 = true)
    (h10 : (hdmDw s ld (8 + 8 * k)).testBit 10 = true) : hdmWrite ld (4 + 8 * k + i) v s = s := by
  unfold hdmWrite
  have hd : (4 + 8 * k + i - 4) / 8 = k := by omega
  dsimp only
  rw [hd, show 4 + 8 * k + 4 = 8 + 8 * k by omega]
  exact if_pos (.inr (.inr ⟨h8, h10⟩))

end

/-! ## What each requester is answered -/

section
variable (s : State)

/-- The command sends its requester one answer and does nothing else. -/
def AnswersWith (c : Instr) (agent status : Nat) (x : Word) : Prop :=
  exec c s = .next { s with outbox := s.outbox ++ [.reg agent status x] }

/-- The command is denied (R513) and its requester told. -/
def DeniedWith (c : Instr) (agent status a : Nat) : Prop :=
  ∃ u, exec c s = .next u ∧ u.outbox = s.outbox ++ [.reg agent status 0] ∧
    CountsBy s u Reg.PRT_CNT F.PRT_CNT_denied 1 ∧ Crossed s u 1793 ∧ BytesKept s u ∧
    rd u Reg.PRT_VIOLA = BitVec.ofNat 48 a

/-- The register at `off` can be reached. -/
def Reachable (off : Nat) : Prop := off % 8 = 0 ∧ csrUp off s = true

end

theorem mustWait_read (s : State) (off : Nat) : mustWait s off false = false := rfl

section bmc
variable {s : State} {off : Nat} {v : Word} {bus : BmcBus} {r : RegDesc} {l : List Nat}
  (hoff : off < 2 ^ 32) (hb : bmcHeard s bus = true) (hp : s.svc.porst = false) (hl : bmcAgent ∉ s.epc.late)
include hoff hb hp hl

theorem bmcRead_denied (h : allowed s 5 (0xF000000000 + off) true false = false) :
    DeniedWith s (.bmcRead bus off) bmcAgent 1 (0xF000000000 + off) := by
  refine denied_told (agent := agentId s bmcAgent) (cls := 5) (w := false) ?_
  rw [exec_bmcRead_heard hoff hb hp hl, csrAccess_denied (by rw [classOf_bmc]; exact h),
    csrTell_bmc (fun h0 => by cases h0), classOf_bmc]

theorem bmcWrite_denied (h : allowed s 5 (0xF000000000 + off) false true = false) :
    DeniedWith s (.bmcWrite bus off v) bmcAgent 1 (0xF000000000 + off) := by
  refine denied_told (agent := agentId s bmcAgent) (cls := 5) (w := true) ?_
  rw [exec_bmcWrite_heard hoff hb hp hl, csrAccess_denied (by rw [classOf_bmc]; exact h),
    csrTell_bmc (fun h0 => by cases h0), classOf_bmc]

theorem bmcRead_missing (h : allowed s 5 (0xF000000000 + off) true false = true)
    (hm : ¬ Reachable s off ∨ findReg regTable off = none) : AnswersWith s (.bmcRead bus off) bmcAgent 2 0 := by
  rw [AnswersWith, exec_bmcRead_heard hoff hb hp hl, csrAccess_missing (by rw [classOf_bmc]; exact h) hm csrRead_none,
    csrTell_bmc (fun h0 => by cases h0)]
  rfl

theorem bmcWrite_missing (h : allowed s 5 (0xF000000000 + off) false true = true)
    (hm : ¬ Reachable s off ∨ findReg regTable off = none) : AnswersWith s (.bmcWrite bus off v) bmcAgent 2 0 := by
  rw [AnswersWith, exec_bmcWrite_heard hoff hb hp hl, csrAccess_missing (by rw [classOf_bmc]; exact h) hm writing_none,
    csrTell_bmc (fun h0 => by cases h0)]
  rfl

theorem bmcRead_answers {x : Word} (hr : Reachable s off) (h : allowed s 5 (0xF000000000 + off) true false = true)
    (hx : csrRead bmcAgent off s = (some x, s)) : AnswersWith s (.bmcRead bus off) bmcAgent 0 x := by
  rw [AnswersWith, exec_bmcRead_heard hoff hb hp hl, csrAccess_ok (by rw [classOf_bmc]; exact h) hr.1 hr.2 hx,
    csrTell_bmc (fun _ => mustWait_read s off)]
  rfl

theorem bmcWrite_plain (hreg : findReg regTable off = some (r, l)) (hr : Reachable s off)
    (h : allowed s 5 (0xF000000000 + off) false true = true) (hid : r.id ∈ plainRegs) :
    exec (.bmcWrite bus off v) s = .next (emit (csrPlain r off v s) (.reg bmcAgent 0 0)) := by
  rw [exec_bmcWrite_heard hoff hb hp hl,
    csrAccess_ok (by rw [classOf_bmc]; exact h) hr.1 hr.2 (writing_of_csrWrite (csrWrite_plain hreg hid)),
    csrTell_bmc (fun _ => mustWait_of_plain hreg hid)]

end bmc

section svc
variable {s : State} {off : Nat} {v : Word} {r : RegDesc} {l : List Nat} (hoff : off < 2 ^ 32)
include hoff

theorem svcWrite_denied
    (h : allowed s (classOf s (agentId s svcAgent)) (0xF000000000 + off) false true = false) :
    DeniedWith s (.registerWrite (.csrWrite svcAgent off 8 v.toNat)) svcAgent 3 (0xF000000000 + off) := by
  refine denied_told (agent := agentId s svcAgent) (cls := classOf s (agentId s svcAgent)) (w := true) ?_
  rw [exec_svcWrite hoff (by decide), csrAccess_denied h, csrTell_svc (fun h0 => by cases h0), if_neg Nat.one_ne_zero]

theorem svcRead_denied
    (h : allowed s (classOf s (agentId s svcAgent)) (0xF000000000 + off) true false = false) :
    DeniedWith s (.registerWrite (.csrRead svcAgent off 8)) svcAgent 3 (0xF000000000 + off) := by
  refine denied_told (agent := agentId s svcAgent) (cls := classOf s (agentId s svcAgent)) (w := false) ?_
  rw [exec_svcRead hoff, csrAccess_denied h, csrTell_svc (fun h0 => by cases h0), if_neg Nat.one_ne_zero]

theorem svcWrite_missing (h : allowed s (classOf s (agentId s svcAgent)) (0xF000000000 + off) false true = true)
    (hm : ¬ Reachable s off ∨ findReg regTable off = none) :
    AnswersWith s (.registerWrite (.csrWrite svcAgent off 8 v.toNat)) svcAgent 3 0 := by
  rw [AnswersWith, exec_svcWrite hoff (by decide), csrAccess_missing h hm writing_none,
    csrTell_svc (fun h0 => by cases h0)]
  rfl

/-- R13: a register is written whole. -/
theorem svcWrite_narrow (h : allowed s (classOf s (agentId s svcAgent)) (0xF000000000 + off) false true = true)
    {n : Nat} (hn : n ∈ [1, 2, 4]) (x : Nat) :
    AnswersWith s (.registerWrite (.csrWrite svcAgent off n x)) svcAgent 3 0 := by
  have h8 : n ≠ 8 := by rintro rfl; simp at hn
  have hn' : n ∈ [1, 2, 4, 8] := List.mem_append_left [8] hn
  rw [AnswersWith, exec_svcWrite hoff hn', csrAccess_failed h (.inl h8), csrTell_svc (fun h0 => by cases h0)]
  rfl

theorem svcRead_plain (hreg : findReg regTable off = some (r, l)) (hr : Reachable s off)
    (h : allowed s (classOf s (agentId s svcAgent)) (0xF000000000 + off) true false = true)
    (ha : absent r.id (l.headD 0) s = false) (hl : r.id ∉ liveRegs) :
    AnswersWith s (.registerWrite (.csrRead svcAgent off 8)) svcAgent 0 (rd s off &&& ~~~(BitVec.ofNat 48 r.wo)) := by
  rw [AnswersWith, exec_svcRead hoff, csrAccess_ok h hr.1 hr.2 (csrRead_plain hreg ha hl),
    csrTell_svc (fun _ => mustWait_read s off)]
  rfl

section
variable (hreg : findReg regTable off = some (r, l)) (hr : Reachable s off)
  (h : allowed s (classOf s (agentId s svcAgent)) (0xF000000000 + off) false true = true)
include hr h

/-- An accepted write: the register's own effect, then the answer. -/
theorem exec_svcWrite_ok {u : State} (hw : csrWrite svcAgent 0 off v s = (true, u)) :
    exec (.registerWrite (.csrWrite svcAgent off 8 v.toNat)) s = .next (csrTell svcAgent off true s (0, 0, u)) := by
  rw [exec_svcWrite hoff (by decide), toW_toNat, csrAccess_ok h hr.1 hr.2 (writing_of_csrWrite hw)]

include hreg

theorem svcWrite_plain (hid : r.id ∈ plainRegs) : exec (.registerWrite (.csrWrite svcAgent off 8 v.toNat)) s =
    .next (emit (csrPlain r off v s) (.reg svcAgent 0 0)) := by
  rw [exec_svcWrite_ok hoff hr h (csrWrite_plain hreg hid), csrTell_svc (fun _ => mustWait_of_plain hreg hid)]
  rfl

theorem svcWrite_unsealed (hbw : r.bw ≠ 0) (hboot : off ≠ Reg.CRS_BOOT) (hs : isSealed s = false) :
    ∃ u, exec (.registerWrite (.csrWrite svcAgent off 8 v.toNat)) s = .next u ∧ RegsKept s u [off] ∧
      rd u off = (rd s off &&& ~~~(BitVec.ofNat 48 r.bw)) ||| (v &&& BitVec.ofNat 48 r.bw) := by
  refine ⟨_, exec_svcWrite_ok hoff hr h (csrWrite_bw hreg hbw), fun a ha => ?_, ?_⟩
  · rw [rd_congr (csrTell_csr _), csrBoot_unsealed hboot hs]
    exact rd_wr_ne _ _ (List.ne_of_not_mem_cons ha)
  · rw [rd_congr (csrTell_csr _), csrBoot_unsealed hboot hs]
    exact rd_wr_same ..

theorem svcWrite_sealed (hbw : r.bw ≠ 0) (hs : isSealed s = true) :
    ∃ u, exec (.registerWrite (.csrWrite svcAgent off 8 v.toNat)) s = .next u ∧ rd u off = rd s off ∧
      CountsBy s u Reg.PRT_CNT F.PRT_CNT_bw 1 ∧ Crossed s u 1794 := by
  obtain ⟨-, hcnt, hx, hkept⟩ := bwRefused_effect (s := s) (agent := agentId s svcAgent)
    (cls := classOf s (agentId s svcAgent))
  refine ⟨_, exec_svcWrite_ok hoff hr h (csrWrite_bw hreg hbw), ?_, ?_, ?_⟩
  · rw [rd_congr (csrTell_csr _), csrBoot_sealed hs]
    exact hkept off (bw_off_ne hreg hbw (by decide +kernel)) (bw_off_ne hreg hbw (by decide +kernel))
      (bw_off_ne hreg hbw (by decide +kernel)) (bw_off_ne hreg hbw (by decide +kernel))
  · rw [csrBoot_sealed hs]
    exact hcnt.of_after (csrTell_csr _)
  · rw [csrBoot_sealed hs]
    exact hx.of_after (csrTell_ev _)

/-- R13: an SW register's write from the Service Newt is the staging of the write. -/
theorem svcWrite_staged (hbw : r.bw = 0) (hsw : r.sw ≠ 0) (ha : absent r.id (l.headD 0) s = false)
    (hwait : mustWait s off true = false) : ∃ w u, exec (.swRegisterWrite off v) s = .next w ∧
      exec (.registerWrite (.csrWrite svcAgent off 8 v.toNat)) s = .next u ∧
      u = { w with outbox := w.outbox ++ [.reg svcAgent 0 0] } := by
  refine ⟨swWrite off v s, _, if_neg (by rwa [swMask_of_findReg hreg]),
    exec_svcWrite_ok hoff hr h (csrWrite_sw hreg ha hbw hsw), ?_⟩
  rw [csrTell_svc (fun _ => hwait)]
  rfl

end

end svc

section
variable {s : State} {fn x : Nat} (hfn : 0x1000 ≤ fn ∧ fn < 0x1400)
include hfn

theorem onHostFn_of_range : onHostFn fn = true := by simpa [onHostFn] using hfn

/-- R344: a virtual function has no registers. -/
theorem fnAccess_virtual {off : Nat} (hoff : off < 2 ^ 32) (h : fnEnabled s fn = true)
    (hpf : fn ≠ pfOf s (hostLinkOfFn s fn)) :
    AnswersWith s (.registerWrite (.csrRead fn off 8)) fn 2 0 ∧
      AnswersWith s (.registerWrite (.csrWrite fn off 8 x)) fn 2 0 := by
  have hf := onHostFn_of_range hfn
  rw [AnswersWith, AnswersWith, exec_fnRead hf hoff, exec_fnWrite hf hoff, csrReadBy, csrWriteBy,
    csrBy_fn_virtual hfn h hpf, csrBy_fn_virtual hfn h hpf]
  exact ⟨rfl, rfl⟩

/-- The mailbox in a function's page holds what its function writes. -/
theorem page_mailbox {o : Nat} (h : fnEnabled s fn = true) (ho : 0x1000 ≤ o) (ho1 : o < 0x10F8) (h8 : o % 8 = 0) :
    (∃ u, exec (.registerWrite (.pageWrite fn o 8 x)) s = .next u ∧
      (∀ k, k < 8 → Tab.get 0 u.host.mbox (fn * 256 + (o - 0x1000) + k) = (leBytes 8 x).getD k 0) ∧
      u = { s with host := { s.host with mbox := u.host.mbox } }) ∧
    exec (.registerWrite (.pageRead fn o 8)) s = .next { s with outbox := s.outbox ++
      [.bytes fn ((List.range 8).map (fun k => Tab.get 0 s.host.mbox (fn * 256 + (o - 0x1000 + k))))] } := by
  have hf := onHostFn_of_range hfn
  refine ⟨⟨mboxWrite fn (o - 0x1000) (leBytes 8 x) s, ?_, fun k hk => mbox_mboxWrite (by rwa [length_leBytes]), rfl⟩, ?_⟩
  · rw [exec_pageWrite hf (by omega) (widthOk_eight h8), if_pos h, pageWrite_mbox ⟨ho, ho1⟩ h8]
  · have hb : (List.range 8).map (fun k => pageByte s fn (o + k)) =
        (List.range 8).map (fun k => Tab.get 0 s.host.mbox (fn * 256 + (o - 0x1000 + k))) := by
      refine List.map_congr_left fun k hk => ?_
      have hk8 : k < 8 := List.mem_range.1 hk
      rw [pageByte_mbox (by omega), Nat.sub_add_comm ho]
    rw [exec_pageRead hf (by omega) (widthOk_eight h8), if_pos h, hb]
    rfl

/-- The Service Newt's side of the mailboxes. -/
theorem service_mailbox {o : Nat} (ho : o < 256) (h8 : o % 8 = 0) :
    (∃ u, exec (.registerWrite (.mailWrite fn o 8 x)) s = .next u ∧
      (∀ k, k < 8 → Tab.get 0 u.host.mbox (fn * 256 + o + k) = (leBytes 8 x).getD k 0) ∧
      u = { s with host := { s.host with mbox := u.host.mbox } }) ∧
    exec (.registerWrite (.mailRead fn o 8)) s = .next { s with outbox := s.outbox ++
      [.bytes svcAgent ((List.range 8).map (fun k => Tab.get 0 s.host.mbox (fn * 256 + o + k)))] } := by
  have hf := onHostFn_of_range hfn
  refine ⟨⟨_, exec_mailWrite hf ho (widthOk_eight h8), fun k hk => mbox_mboxWrite (by rwa [length_leBytes]), rfl⟩, ?_⟩
  rw [exec_mailRead hf ho (widthOk_eight h8)]
  rfl

/-- An MSI-X table entry holds the data its function writes. -/
theorem page_vector {k : Nat} (h : fnEnabled s fn = true) (hk : k < 2048) (hv : k < vecCount s fn) :
    ∃ u, exec (.registerWrite (.pageWrite fn (0x2000 + 16 * k + 8) 4 x)) s = .next u ∧
      vec u fn k = { vec s fn k with data := x % 2 ^ 32 } ∧ u = { s with host := { s.host with vecs := u.host.vecs } } := by
  refine ⟨setVec fn k { vec s fn k with data := x % 2 ^ 32 } s, ?_, Tab.get_set_same .., rfl⟩
  rw [exec_pageWrite (onHostFn_of_range hfn) (by omega) (by simp [widthOk]; omega), if_pos h, pageWrite_vecData hk,
    vecWrite_data hv]

/-- A decoder's registers hold what is written, unless it is locked and committed, and read as they are. -/
theorem hdm_decoder {ld k i : Nat} (hld : ld < 16) (hk : k < 4) (hi : i < 4) (ho : ldOwner s fn ld = true) :
    ((hdmDw s ld (8 + 8 * k)).testBit 8 = true → (hdmDw s ld (8 + 8 * k)).testBit 10 = true →
      exec (.registerWrite (.hdmWrite fn ld (4 + 8 * k + i) x)) s = .next s) ∧
    ((hdmDw s ld (8 + 8 * k)).testBit 8 = false ∨ (hdmDw s ld (8 + 8 * k)).testBit 10 = false →
      ∃ u, exec (.registerWrite (.hdmWrite fn ld (4 + 8 * k + i) x)) s = .next u ∧
        hdmDw u ld (4 + 8 * k + i) = x % 2 ^ 32 ∧ u = { s with host := { s.host with hdm := u.host.hdm } }) ∧
    exec (.registerWrite (.hdmRead fn ld (4 + 8 * k + i))) s = .next { s with outbox := s.outbox ++
      [.bytes fn (leBytes 4 (hdmDw s ld (4 + 8 * k + i)))] } := by
  have hf := onHostFn_of_range hfn
  have hdw : 4 + 8 * k + i < 64 := by omega
  rw [exec_hdmWrite hf hld hdw, exec_hdmRead hf hld hdw, if_pos ho, if_pos ho]
  refine ⟨fun h8 h10 => by rw [hdmWrite_locked hi h8 h10], fun hopen => ?_, rfl⟩
  rw [hdmWrite_below hk hi (by rintro ⟨h8, h10⟩; simp [h8, h10] at hopen)]
  refine ⟨_, rfl, ?_, rfl⟩
  unfold hdmDw
  rw [Tab.get_set_same, Nat.mod_mod]

end

section
variable {s : State} {d : Nat} (hd : d < 128) (hp : s.svc.porst = false)
include hd hp

/-! ## The management bus's addresses (R536) -/

theorem exec_setdasa : exec (.registerWrite (.setdasa bmcAddr d)) s =
    .next { s with svc := { s.svc with dynAddr := some d } } := by
  have ha : bmcAddr < 128 := by decide
  refine (if_neg (by simp [accessOk, ha, hd])).trans (congrArg Host.Outcome.next ?_)
  exact if_pos ⟨rfl, by rw [hp]; rfl⟩

theorem exec_entdaa (hn : s.svc.dynAddr = none) : exec (.registerWrite (.entdaa d)) s =
    .next { s with svc := { s.svc with dynAddr := some d } } := by
  refine (if_neg (by simp [accessOk, hd])).trans (congrArg Host.Outcome.next ?_)
  exact if_pos ⟨hn, by rw [hp]; rfl⟩

end

end Sys2Proof.Machine

open Sys2Proof Sys2Proof.Machine in
/-- Settles O52: each clause is the lemma above on the access's judgement (`csrAccess_…`), its answer (`csrTell_…`) and the
register's own effect. -/
theorem registerAccess : Obligations.RegisterAccess := by
  intro s off v hoff
  dsimp only
  refine ⟨?_, ?_, ?_, svcWrite_denied hoff, svcRead_denied hoff, svcWrite_missing hoff,
    fun h n hn x => svcWrite_narrow hoff h hn x, fun r l hreg hr h ha hl => svcRead_plain hoff hreg hr h ha hl,
    ?_, ?_, ?_, ?_⟩
  · rintro bus (hb | hp)
    · rw [exec_bmcRead hoff, exec_bmcWrite hoff, hb]
      exact ⟨rfl, rfl⟩
    · rw [exec_bmcRead hoff, exec_bmcWrite hoff, csrReadBy, csrWriteBy, csrBy_bmc_porst hp, csrBy_bmc_porst hp, ite_self]
      exact ⟨rfl, rfl⟩
  · intro bus hb hp hl
    rw [exec_bmcRead hoff, exec_bmcWrite hoff, if_pos hb, if_pos hb, csrReadBy, csrWriteBy, csrBy_bmc_late hp hl,
      csrBy_bmc_late hp hl]
    exact ⟨rfl, rfl⟩
  · intro bus hb hp hl
    refine ⟨bmcRead_denied hoff hb hp hl, bmcWrite_denied hoff hb hp hl, bmcRead_missing hoff hb hp hl,
      bmcWrite_missing hoff hb hp hl, fun r l hreg hr h => ⟨fun ha => ?_, fun ha hlive => ?_⟩,
      fun r l hreg hr h hid => ?_⟩
    · exact bmcRead_answers hoff hb hp hl hr h (csrRead_absent hreg ha)
    · exact bmcRead_answers hoff hb hp hl hr h (csrRead_plain hreg ha hlive)
    · obtain ⟨u, he, hout, hkept, -, hrd⟩ :=
        plain_told (mem_of_findReg hreg) hid (bmcWrite_plain hoff hb hp hl hreg hr h hid)
      exact ⟨u, he, hout, hkept, hrd⟩
  · intro r l hreg hr h
    exact ⟨fun hid => plain_told (mem_of_findReg hreg) hid (svcWrite_plain hoff hreg hr h hid),
      svcWrite_unsealed hoff hreg hr h, svcWrite_sealed hoff hreg hr h, svcWrite_staged hoff hreg hr h⟩
  · exact registerCommands_told
  · intro fn x h0 h1
    exact ⟨fun hd o n k ho hn hk => exec_disabled ⟨h0, h1⟩ hd ho hn hk, fnAccess_virtual ⟨h0, h1⟩ hoff,
      fun o => page_mailbox ⟨h0, h1⟩, fun o => service_mailbox ⟨h0, h1⟩, fun k => page_vector ⟨h0, h1⟩,
      fun ld k i => hdm_decoder ⟨h0, h1⟩⟩
  · intro d hd hp
    exact ⟨exec_setdasa hd hp, exec_entdaa hd hp⟩
end

