-- ==== Sys2Proof/Proofs/FramesArrive.lean ====
section
/-! A frame received at a port whose pool the image gives a number that no pool has. -/

namespace Sys2Proof.Machine

/-- Back-pressure leaves the buffer pool manager as it is. -/
theorem bpUpdate_bpm (s : State) : (bpUpdate s).bpm = s.bpm := by
  unfold bpUpdate
  refine (forEach_const (fun u => u.bpm) _ _ _ fun p _ u => ?_).trans ?_
  · show (if _ then _ else _ : State).bpm = _
    split <;> rfl
  · show (if _ then _ else _ : State).bpm = _
    split
    · exact raise_bpm _ _
    · rfl

/-! ## A frame at a port whose pool is none of the 16 (R33, R229)

`Obligations.FramesArrive` takes the pool of a port as the image has it, whatever its number. BPM_PCFG of pool 0x6BE3 has
the offset of MAC_CNT 0 16, so the count of a corrected codeword there changes the buffer size the frame is measured by. -/

/-- The number whose BPM_PCFG stands where MAC_CNT 0 16 does. -/
def strayPool : Nat := (Reg.MAC_CNT 0 16 - Reg.BPM_PCFG 0) / 0x80

/-- Port 0 is UP with that pool; its corrected codewords so far read as a buffer of 511 tiles. -/
def straySt : State :=
  let s := { State.reset with img := { State.reset.img with
    ports := [(0, { group := 0, slot := 0, mode := 1, quad := 0, pool := strayPool })] } }
  setFld (setFld (setFld s (Reg.MAC_PSTAT 0) F.MAC_PSTAT_state 2) (Reg.MAC_PCFG 0) F.MAC_PCFG_maxlen 1518)
    (Reg.MAC_CNT 0 16) F.MAC_CNT_count (2 ^ 40 - 1)

/-- The same once a frame with one corrected codeword is counted. -/
def strayCounted : State := macSat 0 17 0 (macSat 0 16 1 straySt)

def strayBody : List Byte := List.replicate 66 0
def strayFrame : List Byte := strayBody ++ leBytes 4 (crc32e strayBody)

/-- By the state the frame comes to, it fits one buffer. -/
theorem strayFrame_fits : ¬(fld straySt (Reg.MAC_PCFG 0) F.MAC_PCFG_maxlen < strayFrame.length ∨
    tooLong straySt strayPool (strayFrame.take (strayFrame.length - 4)).length = true) := by
  decide +kernel

/-- With its codeword counted the buffers have no tiles, and it needs more than 64 of them (R233). -/
theorem strayFrame_tooLong : tooLong strayCounted ((unitPool strayCounted (unitEth 0 0)).getD 0)
    (strayFrame.take (strayFrame.length - 4)).length = true := by
  decide +kernel

theorem strayFrame_length : strayFrame.length = 70 := by simp [strayFrame, strayBody]

theorem strayFrame_fcs : leNat (strayFrame.drop (strayFrame.length - 4)) =
    crc32e (strayFrame.take (strayFrame.length - 4)) := by
  decide +kernel

/-- The model drops it as too long. -/
theorem exec_strayFrame : exec (.frameReceive 0 strayFrame 1 0) straySt =
    .next (bpUpdate (macSat 0 4 1 strayCounted)) := by
  have hup : (portAssigned straySt 0 && portUp straySt 0) = true := by decide +kernel
  have hrun : frameReceive 0 strayFrame 0 strayCounted = macSat 0 4 1 strayCounted := by
    have hlen : ¬strayFrame.length < 64 := by rw [strayFrame_length]; decide
    unfold frameReceive
    dsimp only
    rw [if_neg hlen, if_neg (not_or.2 ⟨not_not.2 rfl, not_not.2 strayFrame_fcs⟩), if_pos (Or.inr strayFrame_tooLong)]
  show execFrameReceive 0 strayFrame 1 0 straySt = _
  unfold execFrameReceive onPort
  rw [if_pos (by decide)]
  dsimp only
  rw [if_pos hup]
  exact congrArg (fun s => Host.Outcome.next (bpUpdate s)) hrun

end Sys2Proof.Machine

open Sys2Proof Sys2Proof.Machine in
/-- Refutes O23: nothing bounds the number of the port's pool. For port 0 with pool 0x6BE3, whose BPM_PCFG has the offset of
port 0's count of corrected codewords, a frame that is not too long by the state it comes to is too long once its codeword
is counted; the model drops it, and nothing is staged. -/
theorem not_framesArrive : ¬ Obligations.FramesArrive := by
  intro h
  obtain ⟨hframe, -⟩ := h
  obtain ⟨-, hstored⟩ := hframe straySt 0 1 0 strayPool strayFrame (by decide) ⟨_, rfl, rfl⟩ (by decide +kernel)
  obtain ⟨u, g, hexec, hstaged, -⟩ := hstored (by rw [strayFrame_length]; decide) ⟨strayFrame_fcs, rfl⟩ strayFrame_fits
    (by decide +kernel) (by decide +kernel)
  obtain rfl : bpUpdate (macSat 0 4 1 strayCounted) = u := by
    rw [exec_strayFrame] at hexec
    exact Host.Outcome.next.inj hexec
  rw [bpUpdate_bpm] at hstaged
  have hnone : (macSat 0 4 1 strayCounted).bpm.staged = [] := rfl
  exact List.append_ne_nil_of_right_ne_nil _ (List.cons_ne_nil g []) (hstaged.symm.trans hnone)
end

