-- ==== Sys2Proof/Proofs/ClusterWakes.lean ====
section
/-! Cluster wakes: what requests of them may do, what a scan leaves of each group, and the start, the pacing and the end of
a wake. -/

namespace Sys2Proof.Machine

/-! ## Counters, and events of the controller's own clock -/

section
variable {s : State} {a b k n : Nat} {f : Fld}

theorem onCluster_of_lt {c : Nat} (hc : c < 24) (g : State → State) : onCluster c g s = .next (g s) := if_pos hc

theorem rd_bump_ne (h : b ≠ a) : rd (bump s a f) b = rd s b := rd_setFld_ne s f _ h

theorem countsBy_bump (hf : f.hi < 48) : CountsBy s (bump s a f) a f 1 := fld_bump_same s hf

/-- Another field than the one counted reads as before, in that register and in every other. -/
theorem fld_bump_apart {f' : Fld} (hf : f.hi < 48) (h : f'.hi < f.lo ∨ f.hi < f'.lo) :
    fld (bump s a f) b f' = fld s b f' := by
  by_cases hb : b = a
  · subst hb
    exact fld_setFld_apart s b f f' _ hf h
  · exact fld_setFld_ne s f f' _ hb

/-- What comes before the count leaves its register alone. -/
theorem CountsBy.of_rd_before {p u : State} (h : CountsBy p u a f k) (hrd : rd p a = rd s a) : CountsBy s u a f k := by
  unfold CountsBy fld at h ⊢
  rwa [← hrd]

/-- What comes after the count leaves its register alone. -/
theorem CountsBy.of_rd_after {u w : State} (h : CountsBy s u a f k) (hrd : rd w a = rd u a) : CountsBy s w a f k := by
  unfold CountsBy fld at h ⊢
  rwa [hrd]

/-- The sources of Spawn, and those of Strum and the pairs, are in the controller's own clock domain (R296). -/
theorem srcDomain_nclk (hn : 480 ≤ n ∧ n < 768 ∨ 1536 ≤ n ∧ n < 1600) : srcDomain s n = 11 := by
  unfold srcDomain
  obtain h | h := hn
  · iterate 2 rw [if_neg (by omega)]
    exact if_pos h.2
  · iterate 10 rw [if_neg (by omega)]
    exact if_pos h.2

/-- Such an event changes the register of its source alone. -/
theorem rd_raise_nclk (hn : 480 ≤ n ∧ n < 768 ∨ 1536 ≤ n ∧ n < 1600) (ha : a ≠ Reg.EVT_CFG n) :
    rd (raise s n) a = rd s a := by
  unfold raise
  rw [if_pos (srcDomain_nclk hn)]
  exact rd_evPulse s n a ha

theorem clu_congr {u : State} (h : u.clusters = s.clusters) (k : Nat) : clu u k = clu s k := by
  unfold clu
  rw [h]

theorem clu_updClu_ne {c k : Nat} (g : Cluster → Cluster) (h : k ≠ c) : clu (updClu s c g) k = clu s k :=
  clu_setClu_ne s _ h

end

/-! ## Requests of wakes (R193, R194) -/

section
variable {s u v : State} {c g k : Nat} {zero : Bool}

/-- A cluster is in RUN or on its way there. -/
def awake (s : State) (k : Nat) : Bool :=
  decide ((clu s k).power = .run) || decide ((clu s k).power = .wakingG) || decide ((clu s k).power = .wakingP)

/-- A cluster runs or wakes, or a wake of it is pending. -/
def asked (s : State) (k : Nat) : Bool := cluCounted s k || wakePending s k

theorem wakePending_iff : wakePending s k = true ↔ ∃ w ∈ s.spawn.wakes, w.cluster = k := by simp [wakePending]

theorem wakePending_of_counted (h : cluCounted s k = true) (ha : awake s k = false) : wakePending s k = true := by
  have hc : (awake s k || s.spawn.wakes.any (fun w => w.cluster == k && !quietBars s w)) = true := h
  rw [ha, Bool.false_or, List.any_eq_true] at hc
  obtain ⟨w, hw, hk⟩ := hc
  exact wakePending_iff.2 ⟨w, hw, by simp_all⟩

theorem counted_of_awake (h : awake s k = true) : cluCounted s k = true := by
  show (awake s k || _) = true
  rw [h, Bool.true_or]

theorem asked_iff : asked s k = true ↔ awake s k = true ∨ wakePending s k = true := by
  constructor
  · intro h
    cases ha : awake s k
    · obtain hc | hw := Bool.or_eq_true_iff.1 h
      · exact Or.inr (wakePending_of_counted hc ha)
      · exact Or.inr hw
    · exact Or.inl rfl
  · rintro (ha | hw)
    · exact Bool.or_eq_true_iff.2 (Or.inl (counted_of_awake ha))
    · exact Bool.or_eq_true_iff.2 (Or.inr hw)

/-- What requests of wakes may do: they add to the pending wakes, and end PARKING, which CLU_PWRCNT.gates counts. -/
structure WakesAdded (s u : State) : Prop where
  frame : ∃ r l w, u = { s with csr := r, clusters := l, spawn := { s.spawn with wakes := w } }
  regs : ∀ a, (∀ k, k < 24 → a ≠ Reg.CLU_PWRCNT k) → rd u a = rd s a
  flds : ∀ a (f : Fld), f.hi < 16 ∨ 31 < f.lo → fld u a f = fld s a f
  wakes : ∀ w ∈ s.spawn.wakes, ∃ v ∈ u.spawn.wakes, v.cluster = w.cluster ∧ (w.zero = true → v.zero = true)
  awake : ∀ k, awake s k = true → awake u k = true

theorem WakesAdded.refl (s : State) : WakesAdded s s :=
  ⟨⟨s.csr, s.clusters, s.spawn.wakes, rfl⟩, fun _ _ => rfl, fun _ _ _ => rfl, fun w hw => ⟨w, hw, rfl, id⟩,
    fun _ => id⟩

theorem WakesAdded.trans (h : WakesAdded s u) (h' : WakesAdded u v) : WakesAdded s v where
  frame := by
    obtain ⟨r, l, w, rfl⟩ := h.frame
    obtain ⟨r', l', w', rfl⟩ := h'.frame
    exact ⟨r', l', w', rfl⟩
  regs a ha := (h'.regs a ha).trans (h.regs a ha)
  flds a f hf := (h'.flds a f hf).trans (h.flds a f hf)
  wakes w hw := by
    obtain ⟨x, hx, hxc, hxz⟩ := h.wakes w hw
    obtain ⟨y, hy, hyc, hyz⟩ := h'.wakes x hx
    exact ⟨y, hy, hyc.trans hxc, hyz ∘ hxz⟩
  awake k hk := h'.awake k (h.awake k hk)

theorem WakesAdded.asked (h : WakesAdded s u) (hk : asked s k = true) : asked u k = true := by
  obtain ha | hp := asked_iff.1 hk
  · exact asked_iff.2 (Or.inl (h.awake k ha))
  · obtain ⟨w, hw, rfl⟩ := wakePending_iff.1 hp
    obtain ⟨x, hx, hxc, -⟩ := h.wakes w hw
    exact asked_iff.2 (Or.inr (wakePending_iff.2 ⟨x, hx, hxc⟩))

theorem WakesAdded.threads (h : WakesAdded s u) : u.threads = s.threads := by
  obtain ⟨_, _, _, rfl⟩ := h.frame
  rfl

theorem WakesAdded.bytesKept (h : WakesAdded s u) : BytesKept s u := by
  obtain ⟨_, _, _, rfl⟩ := h.frame
  exact ⟨rfl, rfl, rfl, rfl⟩

theorem WakesAdded.queues (h : WakesAdded s u) : u.spawn.queues = s.spawn.queues := by
  obtain ⟨_, _, _, rfl⟩ := h.frame
  rfl

/-! ### An aborted PARKING -/

theorem abortParking_of_ne (h : (clu s c).power ≠ .parking) : abortParking c s = s := if_neg h

theorem abortParking_of_parking (h : (clu s c).power = .parking) : abortParking c s =
    bump (updClu s c (fun x => { x with power := .gated })) (Reg.CLU_PWRCNT c) F.CLU_PWRCNT_gates := if_pos h

theorem abortParking_frame (c : Nat) (s : State) : ∃ r l, abortParking c s = { s with csr := r, clusters := l } := by
  by_cases h : (clu s c).power = .parking
  · rw [abortParking_of_parking h]
    exact ⟨_, _, rfl⟩
  · rw [abortParking_of_ne h]
    exact ⟨_, _, rfl⟩

@[simp] theorem abortParking_spawn (c : Nat) (s : State) : (abortParking c s).spawn = s.spawn := by
  obtain ⟨_, _, h⟩ := abortParking_frame c s; rw [h]
@[simp] theorem abortParking_now (c : Nat) (s : State) : (abortParking c s).now = s.now := by
  obtain ⟨_, _, h⟩ := abortParking_frame c s; rw [h]
@[simp] theorem abortParking_threads (c : Nat) (s : State) : (abortParking c s).threads = s.threads := by
  obtain ⟨_, _, h⟩ := abortParking_frame c s; rw [h]

theorem clu_abortParking_ne (h : k ≠ c) : clu (abortParking c s) k = clu s k := by
  unfold abortParking
  split
  · exact (clu_congr (bump_clusters _ _ _) k).trans (clu_updClu_ne _ h)
  · rfl

theorem power_abortParking (c : Nat) (s : State) : (clu (abortParking c s) c).power =
    if (clu s c).power = .parking then .gated else (clu s c).power := by
  by_cases h : (clu s c).power = .parking
  · rw [abortParking_of_parking h, if_pos h, clu_congr (bump_clusters _ _ _), clu_updClu_same]
  · rw [abortParking_of_ne h, if_neg h]

theorem rd_abortParking {a : Nat} (h : a ≠ Reg.CLU_PWRCNT c) : rd (abortParking c s) a = rd s a := by
  unfold abortParking
  split
  · exact rd_bump_ne h
  · rfl

theorem fld_abortParking {a : Nat} {f : Fld} (h : f.hi < 16 ∨ 31 < f.lo) : fld (abortParking c s) a f = fld s a f := by
  unfold abortParking
  split
  · exact fld_bump_apart (by decide) h
  · rfl

theorem awake_congr (h : (clu u k).power = (clu s k).power) : awake u k = awake s k := by
  unfold awake
  rw [h]

theorem awake_abortParking (h : awake s k = true) : awake (abortParking c s) k = true := by
  by_cases hk : k = c
  · subst hk
    have hp : (clu s k).power ≠ .parking := by
      intro hp
      simp [awake, hp] at h
    rwa [abortParking_of_ne hp]
  · rwa [awake_congr (congrArg Cluster.power (clu_abortParking_ne hk))]

/-! ### One request -/

/-- The pending wakes after a request (R194): a cluster's is pending once, a zero-run one takes it over. -/
def askedWakes (s : State) (zero : Bool) (c : Nat) : List WakeReq :=
  if wakePending s c then s.spawn.wakes.map (fun w => if w.cluster = c then { w with zero := w.zero || zero } else w)
  else s.spawn.wakes ++ [{ cluster := c, zero := zero, paced := false }]

theorem requestWake_of_awake (h : awake s c = true) : requestWake zero c s = s := by
  refine if_pos ?_
  simpa [awake, or_assoc] using h

theorem requestWake_of_not_awake (h : awake s c = false) : ∃ p, (p = s ∨ p = abortParking c s) ∧
    requestWake zero c s = { p with spawn := { p.spawn with wakes := askedWakes s zero c } } := by
  have hn : ¬((clu s c).power = .run ∨ (clu s c).power = .wakingG ∨ (clu s c).power = .wakingP) := by
    simpa [awake, and_assoc] using h
  unfold requestWake
  dsimp only
  rw [if_neg hn]
  split
  · exact ⟨s, Or.inl rfl, rfl⟩
  · refine ⟨abortParking c s, Or.inr rfl, ?_⟩
    rw [abortParking_spawn]
    rfl

theorem askedWakes_keeps {w : WakeReq} (hw : w ∈ s.spawn.wakes) :
    ∃ v ∈ askedWakes s zero c, v.cluster = w.cluster ∧ (w.zero = true → v.zero = true) := by
  unfold askedWakes
  split
  · refine ⟨_, List.mem_map_of_mem hw, ?_⟩
    split
    · exact ⟨rfl, fun hz => by simp [hz]⟩
    · exact ⟨rfl, id⟩
  · exact ⟨w, List.mem_append_left _ hw, rfl, id⟩

theorem exists_askedWakes : ∃ v ∈ askedWakes s zero c, v.cluster = c := by
  unfold askedWakes
  split
  · next h =>
    obtain ⟨w, hw, hc⟩ := wakePending_iff.1 h
    exact ⟨_, List.mem_map_of_mem hw, by simp [hc]⟩
  · exact ⟨_, List.mem_append_right _ List.mem_cons_self, rfl⟩

theorem wakesAdded_requestWake (hc : c < 24) : WakesAdded s (requestWake zero c s) := by
  cases ha : awake s c
  · obtain ⟨p, hp, hr⟩ := requestWake_of_not_awake (zero := zero) ha
    rw [hr]
    obtain rfl | rfl := hp
    · exact ⟨⟨_, _, _, rfl⟩, fun _ _ => rfl, fun _ _ _ => rfl, fun _ => askedWakes_keeps, fun _ => id⟩
    · refine ⟨?_, fun a ha => (rd_congr rfl a).trans (rd_abortParking (ha c hc)),
        fun a f hf => (fld_congr rfl a f).trans (fld_abortParking hf), fun _ => askedWakes_keeps,
        fun k hk => awake_abortParking hk⟩
      obtain ⟨r, l, hf⟩ := abortParking_frame c s
      rw [hf]
      exact ⟨r, l, _, rfl⟩
  · rw [requestWake_of_awake ha]
    exact WakesAdded.refl s

theorem asked_requestWake : asked (requestWake zero c s) c = true := by
  cases ha : awake s c
  · obtain ⟨p, -, hr⟩ := requestWake_of_not_awake (zero := zero) ha
    rw [hr]
    exact asked_iff.2 (Or.inr (wakePending_iff.2 exists_askedWakes))
  · rw [requestWake_of_awake ha]
    exact asked_iff.2 (Or.inl ha)

/-- Requests of the clusters of a list, each of them asked. -/
theorem forEach_requestWake (l : List Nat) (hl : ∀ c ∈ l, c < 24) :
    WakesAdded s (forEach l (fun c s => requestWake zero c s) s) ∧
      ∀ c ∈ l, asked (forEach l (fun c s => requestWake zero c s) s) c = true := by
  induction l generalizing s with
  | nil => exact ⟨WakesAdded.refl s, fun c hc => absurd hc List.not_mem_nil⟩
  | cons d r ih =>
    obtain ⟨hadd, hasked⟩ := ih (s := requestWake zero d s) (fun c hc => hl c (List.mem_cons_of_mem d hc))
    refine ⟨(wakesAdded_requestWake (hl d List.mem_cons_self)).trans hadd, fun c hc => ?_⟩
    obtain rfl | hc := List.mem_cons.1 hc
    · exact hadd.asked asked_requestWake
    · exact hasked c hc

/-! ### The scan of a group -/

/-- Clusters the backlog of a group needs (R193). -/
def scanNeed (s : State) (g : Nat) : Nat :=
  let thr := fld s (Reg.SPN_GRPWAKE g) F.SPN_GRPWAKE_thr
  if thr = 0 then (groupBacklog s g + 65535) / 65536 else (groupBacklog s g + thr - 1) / thr

/-- Members of a group the scan counts. -/
def scanRuns (s : State) (g : Nat) : List Nat := allBelow 24 (fun c => (grpMask s g).testBit c && cluCounted s c)

/-- Members of the group, as `s` has them, that run, wake or are asked for in `u`. -/
def askedMembers (s u : State) (g : Nat) : List Nat :=
  (List.range 24).filter (fun k => (grpMask s g).testBit k && asked u k)

/-- The group, as `s` has it, has in `u` as many of them as it needs, or none left to ask. -/
def Served (s u : State) (g : Nat) : Prop :=
  scanNeed s g ≤ (askedMembers s u g).length ∨
    ∀ k, k < 24 → (grpMask s g).testBit k = true → cluMode s k ≠ 2 → asked u k = true

theorem scanGroup_eq (g : Nat) (s : State) : scanGroup g s =
    if grpWeight s g = 0 ∨ scanNeed s g ≤ (scanRuns s g).length then s
    else match (eligible s g).take (scanNeed s g - (scanRuns s g).length) with
      | [] => s
      | c :: cs => forEach cs (fun c s => requestWake false c s) (requestWake ((scanRuns s g).length == 0) c s) := by
  have hneed : scanNeed s g = (groupBacklog s g + (if fld s (Reg.SPN_GRPWAKE g) F.SPN_GRPWAKE_thr = 0 then 65536
      else fld s (Reg.SPN_GRPWAKE g) F.SPN_GRPWAKE_thr) - 1) / (if fld s (Reg.SPN_GRPWAKE g) F.SPN_GRPWAKE_thr = 0
      then 65536 else fld s (Reg.SPN_GRPWAKE g) F.SPN_GRPWAKE_thr) := by
    unfold scanNeed
    dsimp only
    split
    · rfl
    · rfl
  rw [hneed]
  rfl

theorem mem_eligible : k ∈ eligible s g ↔
    k < 24 ∧ (grpMask s g).testBit k = true ∧ cluMode s k ≠ 2 ∧ cluCounted s k = false := by
  have hp (hc : cluCounted s k = false) :
      (clu s k).power = .gated ∨ (clu s k).power = .parking ∨ (clu s k).power = .parked := by
    have ha : awake s k = false := by
      cases ha : awake s k
      · rfl
      · rw [counted_of_awake ha] at hc
        cases hc
    cases h : (clu s k).power <;> simp [awake, h] at ha ⊢
  unfold eligible allBelow
  simp only [List.mem_append, List.mem_filter, List.mem_range, Bool.and_eq_true, bne_iff_ne, Bool.not_eq_true',
    decide_eq_true_eq]
  constructor
  · rintro ((⟨h, -⟩ | ⟨h, -⟩) | ⟨h, -⟩) <;> tauto
  · intro h
    have := hp h.2.2.2
    tauto

theorem nodup_eligible : (eligible s g).Nodup := by
  have hms : (allBelow 24 (fun c => (grpMask s g).testBit c && cluMode s c != 2 && !cluCounted s c)).Nodup :=
    List.nodup_range.filter _
  unfold eligible
  refine List.Nodup.append (List.Nodup.append (hms.filter _) (hms.filter _) ?_) (hms.filter _) ?_
  · intro k h h'
    simp_all [List.mem_filter]
  · intro k h h'
    simp only [List.mem_append, List.mem_filter, decide_eq_true_eq] at h h'
    rw [h'.2] at h
    simp at h

theorem wakesAdded_scanGroup (g : Nat) (s : State) : WakesAdded s (scanGroup g s) ∧ (0 < grpWeight s g →
    scanNeed s g ≤ (scanRuns s g).length ∨
      ∀ c ∈ (eligible s g).take (scanNeed s g - (scanRuns s g).length), asked (scanGroup g s) c = true) := by
  rw [scanGroup_eq]
  split
  · next h => exact ⟨WakesAdded.refl s, fun hw => Or.inl (h.resolve_left (by omega))⟩
  · have hlt : ∀ c ∈ (eligible s g).take (scanNeed s g - (scanRuns s g).length), c < 24 :=
      fun c hc => (mem_eligible.1 (List.mem_of_mem_take hc)).1
    generalize (eligible s g).take (scanNeed s g - (scanRuns s g).length) = l at hlt
    cases l with
    | nil => exact ⟨WakesAdded.refl s, fun _ => Or.inr (fun c hc => absurd hc List.not_mem_nil)⟩
    | cons d cs =>
      have hd := wakesAdded_requestWake (s := s) (zero := (scanRuns s g).length == 0) (hlt d List.mem_cons_self)
      obtain ⟨hadd, hasked⟩ := forEach_requestWake (s := requestWake ((scanRuns s g).length == 0) d s)
        (zero := false) cs (fun c hc => hlt c (List.mem_cons_of_mem d hc))
      refine ⟨hd.trans hadd, fun _ => Or.inr fun c hc => ?_⟩
      obtain rfl | hc := List.mem_cons.1 hc
      · exact hadd.asked asked_requestWake
      · exact hasked c hc

theorem served_scanGroup (hw : 0 < grpWeight s g) : Served s (scanGroup g s) g := by
  obtain ⟨hadd, hmet⟩ := wakesAdded_scanGroup g s
  have hruns : scanRuns s g ⊆ askedMembers s (scanGroup g s) g := by
    intro k hk
    simp only [scanRuns, askedMembers, allBelow, List.mem_filter, Bool.and_eq_true] at hk ⊢
    exact ⟨hk.1, hk.2.1, hadd.asked (Bool.or_eq_true_iff.2 (Or.inl hk.2.2))⟩
  have hnd : (scanRuns s g).Nodup := List.nodup_range.filter _
  obtain hle | hpicked := hmet hw
  · exact Or.inl (hle.trans (hnd.subperm hruns).length_le)
  · by_cases hall : (eligible s g).length ≤ scanNeed s g - (scanRuns s g).length
    · refine Or.inr fun k hk hmask hmode => ?_
      cases hc : cluCounted s k
      · exact hpicked k (by rw [List.take_of_length_le hall]; exact mem_eligible.2 ⟨hk, hmask, hmode, hc⟩)
      · exact hadd.asked (Bool.or_eq_true_iff.2 (Or.inl hc))
    · have hsub : scanRuns s g ++ (eligible s g).take (scanNeed s g - (scanRuns s g).length) ⊆
          askedMembers s (scanGroup g s) g := by
        refine List.append_subset.2 ⟨hruns, fun k hk => ?_⟩
        obtain ⟨hlt, hmask, -, -⟩ := mem_eligible.1 (List.mem_of_mem_take hk)
        exact List.mem_filter.2 ⟨List.mem_range.2 hlt, by rw [hmask, hpicked k hk]; rfl⟩
      have hnodup : (scanRuns s g ++ (eligible s g).take (scanNeed s g - (scanRuns s g).length)).Nodup := by
        refine List.Nodup.append hnd (nodup_eligible.sublist (List.take_sublist _ _)) fun k hk hk' => ?_
        have hc := (mem_eligible.1 (List.mem_of_mem_take hk')).2.2.2
        simp [scanRuns, allBelow, hc] at hk
      have hlen := (hnodup.subperm hsub).length_le
      rw [List.length_append, List.length_take] at hlen
      exact Or.inl (by omega)

/-! ### What requests leave of a group -/

theorem spnReg_ne_pwrcnt {a : Nat} (h : a < 0x100000) : ∀ k, k < 24 → a ≠ Reg.CLU_PWRCNT k := by
  intro k _
  unfold Reg.CLU_PWRCNT
  omega

theorem WakesAdded.grpWeight (h : WakesAdded s u) (g : Nat) : grpWeight u g = grpWeight s g := h.flds _ _ (by decide)

theorem WakesAdded.grpMask (h : WakesAdded s u) (hg : g < 64) : grpMask u g = grpMask s g := by
  unfold Machine.grpMask fld
  rw [h.regs _ (spnReg_ne_pwrcnt (by unfold Reg.SPN_GRPMEM; omega))]

theorem WakesAdded.cluMode (h : WakesAdded s u) (k : Nat) : cluMode u k = cluMode s k := h.flds _ _ (by decide)

theorem WakesAdded.groupBacklog (h : WakesAdded s u) (g : Nat) : groupBacklog u g = groupBacklog s g := by
  have hq : ∀ q, queueGroup u q = queueGroup s q := fun q => h.flds _ _ (by decide)
  unfold Machine.groupBacklog groupQueues queueOf
  simp only [hq, h.queues]

theorem WakesAdded.scanNeed (h : WakesAdded s u) (g : Nat) : scanNeed u g = scanNeed s g := by
  unfold Machine.scanNeed
  rw [h.groupBacklog, h.flds _ F.SPN_GRPWAKE_thr (by decide)]

theorem Served.of_before (h : WakesAdded s u) (hg : g < 64) (hv : Served u v g) : Served s v g := by
  unfold Served askedMembers at hv ⊢
  simpa only [h.scanNeed, h.grpMask hg, h.cluMode] using hv

theorem Served.of_after (h : WakesAdded u v) (hu : Served s u g) : Served s v g := by
  obtain hle | hall := hu
  · refine Or.inl (hle.trans ?_)
    unfold askedMembers
    rw [← List.countP_eq_length_filter, ← List.countP_eq_length_filter]
    refine List.countP_mono_left fun k _ hk => ?_
    rw [Bool.and_eq_true] at hk ⊢
    exact ⟨hk.1, h.asked hk.2⟩
  · exact Or.inr fun k hk hmask hmode => h.asked (hall k hk hmask hmode)

/-- A scan of some groups serves each of them that has a weight. -/
theorem forEach_scanGroup (l : List Nat) (hl : ∀ g ∈ l, g < 64) : WakesAdded s (forEach l scanGroup s) ∧
    ∀ g ∈ l, 0 < grpWeight s g → Served s (forEach l scanGroup s) g := by
  induction l generalizing s with
  | nil => exact ⟨WakesAdded.refl s, fun g hg => absurd hg List.not_mem_nil⟩
  | cons d r ih =>
    obtain ⟨hrest, hserved⟩ := ih (s := scanGroup d s) (fun g hg => hl g (List.mem_cons_of_mem d hg))
    have hd := (wakesAdded_scanGroup d s).1
    refine ⟨hd.trans hrest, fun g hg hw => ?_⟩
    obtain rfl | hg := List.mem_cons.1 hg
    · exact (served_scanGroup hw).of_after hrest
    · exact (hserved g hg (by rwa [hd.grpWeight])).of_before hd (hl g (List.mem_cons_of_mem d hg))

theorem exec_wakeRequestScan_standing (h : 3 ≤ fld s Reg.PWR_STATE F.PWR_STATE_cur) : exec .wakeRequestScan s = .next s :=
  congrArg Host.Outcome.next (if_pos (decide_eq_true h))

theorem exec_wakeRequestScan (h : fld s Reg.PWR_STATE F.PWR_STATE_cur < 3) :
    exec .wakeRequestScan s = .next (forEach (List.range 64) scanGroup s) :=
  congrArg Host.Outcome.next (if_neg (by simpa [standing] using h))

end

/-! ## The start of a wake (R189, R194) -/

section
variable {s u : State} {c k : Nat}

/-- The wake that starts next: the first that QUIET does not bar, of the zero-run ones where there is one. -/
def nextWake (s : State) : Option WakeReq :=
  (s.spawn.wakes.filter (fun v => !quietBars s v &&
    (v.zero || !s.spawn.wakes.any (fun e => e.zero && !quietBars s e)))).head?

theorem find?_orElse_head? {α : Type} (p : α → Bool) (l : List α) :
    (l.find? p <|> l.head?) = (l.filter (fun v => p v || !l.any p)).head? := by
  cases h : l.any p
  · have hn : l.find? p = none := List.find?_eq_none.2 (fun v hv => by simpa using List.any_eq_false.1 h v hv)
    simp [hn]
  · obtain ⟨v, hv⟩ := Option.isSome_iff_exists.1 (List.find?_isSome.2 (List.any_eq_true.1 h))
    simp [hv]

theorem exec_wakeStart (s : State) : exec .wakeStart s = match nextWake s with
    | none => .next s
    | some w => .next (if wakeWindowClear s then startWake w.cluster s else s) := by
  have hany : s.spawn.wakes.any (fun e => e.zero && !quietBars s e) =
      s.spawn.wakes.any (fun e => !quietBars s e && e.zero) := by
    simp only [Bool.and_comm]
  have h : nextWake s = ((s.spawn.wakes.filter (fun w => !quietBars s w)).find? (fun w => w.zero) <|>
      (s.spawn.wakes.filter (fun w => !quietBars s w)).head?) := by
    rw [find?_orElse_head?, List.filter_filter, List.any_filter]
    unfold nextWake
    congr 2
    funext v
    rw [Bool.and_comm, hany]
  rw [h]
  rfl

theorem nextWake_of_barred (h : s.spawn.wakes.all (quietBars s) = true) : nextWake s = none := by
  unfold nextWake
  rw [List.filter_eq_nil_iff.2 fun v hv => ?_]
  · rfl
  · rw [List.all_eq_true.1 h v hv]
    simp

/-- The starts in the 400 NCLKs up to now. -/
def recentStarts (s : State) : List Nat := s.spawn.starts.filter (fun n => decide (s.now < n + 400))

theorem wakeWindowClear_iff : wakeWindowClear s = true ↔ (recentStarts s).length < 2 := decide_eq_true_iff

/-- The state once cluster `c` wakes, but for the two counts. -/
def waking (c : Nat) (s : State) : State :=
  let p := abortParking c s
  { setClu p c { clu p c with power := if (clu p c).power = .parked then .wakingP else .wakingG } with
    spawn := { s.spawn with wakes := s.spawn.wakes.filter (fun w => w.cluster != c), starts := recentStarts s ++ [s.now] } }

theorem startWake_eq (c : Nat) (s : State) : startWake c s =
    bump (bump (waking c s) Reg.SPN_CNT_WAKE F.SPN_CNT_WAKE_started) (Reg.CLU_PWRCNT c) F.CLU_PWRCNT_wakes := by
  unfold startWake waking recentStarts
  simp only [setClu_spawn, abortParking_spawn, abortParking_now, setClu_now]

theorem clu_waking_same : (clu (waking c s) c).power = if (clu s c).power = .parked then .wakingP else .wakingG := by
  have hp := power_abortParking c s
  have hc : clu (waking c s) c = { clu (abortParking c s) c with
      power := if (clu (abortParking c s) c).power = .parked then .wakingP else .wakingG } := clu_setClu_same _ c _
  rw [hc, hp]
  by_cases h : (clu s c).power = .parking
  · simp [h]
  · simp [h]

theorem clu_waking_ne (h : k ≠ c) : clu (waking c s) k = clu s k :=
  (clu_setClu_ne (abortParking c s) _ h).trans (clu_abortParking_ne h)

theorem rd_waking {a : Nat} (h : a ≠ Reg.CLU_PWRCNT c) : rd (waking c s) a = rd s a :=
  (rd_congr rfl a).trans (rd_abortParking h)

theorem fld_waking_wakes (a : Nat) : fld (waking c s) a F.CLU_PWRCNT_wakes = fld s a F.CLU_PWRCNT_wakes :=
  (fld_congr rfl a _).trans (fld_abortParking (by decide))

theorem spnCntWake_ne_pwrcnt (c : Nat) : Reg.SPN_CNT_WAKE ≠ Reg.CLU_PWRCNT c := by
  unfold Reg.SPN_CNT_WAKE Reg.CLU_PWRCNT
  omega

theorem startWake_effect (c : Nat) (s : State) : let u := startWake c s
    (clu u c).power = (if (clu s c).power = .parked then .wakingP else .wakingG) ∧
    (∀ k, k ≠ c → clu u k = clu s k) ∧ u.spawn.wakes = s.spawn.wakes.filter (fun v => v.cluster != c) ∧
    u.spawn.starts = recentStarts s ++ [s.now] ∧ CountsBy s u Reg.SPN_CNT_WAKE F.SPN_CNT_WAKE_started 1 ∧
    CountsBy s u (Reg.CLU_PWRCNT c) F.CLU_PWRCNT_wakes 1 ∧ u.threads = s.threads := by
  have hclu : ∀ k, clu (startWake c s) k = clu (waking c s) k := fun k =>
    clu_congr (by rw [startWake_eq, bump_clusters, bump_clusters]) k
  have hspawn : (startWake c s).spawn = (waking c s).spawn := by rw [startWake_eq, bump_spawn, bump_spawn]
  refine ⟨(congrArg Cluster.power (hclu c)).trans clu_waking_same, fun k hk => (hclu k).trans (clu_waking_ne hk),
    congrArg Spawn.wakes hspawn, congrArg Spawn.starts hspawn, ?_, ?_, ?_⟩
  · rw [startWake_eq]
    exact ((countsBy_bump (by decide)).of_rd_before (rd_waking (spnCntWake_ne_pwrcnt c))).of_rd_after
      (rd_bump_ne (spnCntWake_ne_pwrcnt c))
  · rw [startWake_eq]
    unfold CountsBy
    rw [fld_bump_same _ (by decide), fld, rd_bump_ne (spnCntWake_ne_pwrcnt c).symm, ← fld, fld_waking_wakes]
  · rw [startWake_eq, bump_threads, bump_threads]
    exact abortParking_threads c s

/-! ## A wake that has waited, and one that is complete (R189, R194) -/

/-- Every wake of the cluster marked as paced. -/
def pacedWakes (s : State) (c : Nat) : List WakeReq :=
  s.spawn.wakes.map (fun v => if v.cluster = c then { v with paced := true } else v)

theorem exec_wakePaced (hc : c < 24) (h : ∃ w ∈ s.spawn.wakes, w.cluster = c ∧ w.paced = false) :
    exec (.wakePaced c) s = .next (raise (bump { s with spawn := { s.spawn with wakes := pacedWakes s c } }
      Reg.SPN_CNT_WAKE F.SPN_CNT_WAKE_paced) 484) := by
  obtain ⟨w, hw, rfl, hp⟩ := h
  refine (onCluster_of_lt hc _).trans (congrArg Host.Outcome.next (if_pos ?_))
  exact List.any_eq_true.2 ⟨w, hw, by simp [hp]⟩

theorem exec_wakePaced_of_paced (hc : c < 24) (h : ∀ w ∈ s.spawn.wakes, w.cluster = c → w.paced = true) :
    exec (.wakePaced c) s = .next s := by
  refine (onCluster_of_lt hc _).trans (congrArg Host.Outcome.next (if_neg ?_))
  rw [Bool.not_eq_true, List.any_eq_false]
  intro w hw
  by_cases hwc : w.cluster = c
  · simp [h w hw hwc]
  · simp [hwc]

theorem pacedWakes_paced : ∀ w ∈ pacedWakes s c, w.cluster = c → w.paced = true := by
  intro w hw hc
  obtain ⟨v, -, rfl⟩ := List.mem_map.1 hw
  by_cases hv : v.cluster = c
  · rw [if_pos hv]
  · rw [if_neg hv] at hc
    contradiction

theorem wakePaced_effect (hc : c < 24) (h : ∃ w ∈ s.spawn.wakes, w.cluster = c ∧ w.paced = false) :
    ∃ u, exec (.wakePaced c) s = .next u ∧ u.spawn.wakes = pacedWakes s c ∧
      CountsBy s u Reg.SPN_CNT_WAKE F.SPN_CNT_WAKE_paced 1 ∧ exec (.wakePaced c) u = .next u := by
  have hwakes : ∀ p : State, p.spawn.wakes = pacedWakes s c →
      (raise (bump p Reg.SPN_CNT_WAKE F.SPN_CNT_WAKE_paced) 484).spawn.wakes = pacedWakes s c := by
    intro p hp
    rw [raise_spawn, bump_spawn, hp]
  refine ⟨_, exec_wakePaced hc h, hwakes _ rfl, ?_, exec_wakePaced_of_paced hc ?_⟩
  · exact ((countsBy_bump (by decide)).of_rd_before (rd_congr rfl _)).of_rd_after (rd_raise_nclk (by decide) (by decide))
  · rw [hwakes _ rfl]
    exact pacedWakes_paced

/-- A woken cluster that no reset holds, while no boot code loads programs, just runs. -/
theorem wokenTo_eq (hr : (clu s c).inReset = false) (ht : (clu s c).resetting = false) (hb : s.str.boot = none) :
    wokenTo c s = s := by
  have hload : bootLoad c s = s := by
    unfold bootLoad
    rw [hb]
    rfl
  have hwoken : cluWoken c s = s := by
    unfold cluWoken cluRelease
    simp [hr, ht]
  unfold wokenTo bootRest strBootRest
  rw [hload, hwoken, hb]

theorem exec_clusterWakeComplete (hc : c < 24) (hr : (clu s c).inReset = false) (ht : (clu s c).resetting = false)
    (hb : s.str.boot = none) {x : Cluster}
    (hx : (clu s c).power = .wakingG ∧ x = { clu s c with power := .run } ∨
      (clu s c).power = .wakingP ∧ x = { clu s c with power := .run, gen := (clu s c).gen + 1 }) :
    exec (.clusterWakeComplete c) s = .next (setClu s c x) := by
  have hx' : x.inReset = false ∧ x.resetting = false := by
    obtain ⟨-, rfl⟩ | ⟨-, rfl⟩ := hx
    · exact ⟨hr, ht⟩
    · exact ⟨hr, ht⟩
  rw [← clu_setClu_same s c x] at hx'
  have hw : wokenTo c (setClu s c x) = setClu s c x := wokenTo_eq hx'.1 hx'.2 hb
  refine Eq.trans ?_ (congrArg Host.Outcome.next hw)
  show execClusterWakeComplete c s = _
  unfold execClusterWakeComplete
  rw [onCluster_of_lt hc]
  obtain ⟨hp, rfl⟩ | ⟨hp, rfl⟩ := hx
  · dsimp only
    rw [hp]
  · dsimp only
    rw [hp]

theorem exec_clusterWakeComplete_of_ne (hc : c < 24) (hg : (clu s c).power ≠ .wakingG)
    (hp : (clu s c).power ≠ .wakingP) :
    exec (.clusterWakeComplete c) s = .next s := by
  show execClusterWakeComplete c s = _
  unfold execClusterWakeComplete
  rw [onCluster_of_lt hc]
  dsimp only
  split
  · contradiction
  · contradiction
  · rfl

end

end Sys2Proof.Machine
end

