-- ==== Sys2Proof/Proofs/ClusterPower.lean ====
section
/-! Cluster power: when a cluster is gated or parks, what PARKED leaves, and the writes of CLU_PWRCTL. -/

namespace Sys2Proof.Machine

/-! ## Gating and the decision to park (R189–R192) -/

section
variable {s u : State} {c k : Nat}

/-- The cluster has nothing to do, no wake of it is pending, and no reset holds its clocks on. -/
def Quiet (s : State) (c : Nat) : Prop :=
  cluIdle s c = true ∧ wakePending s c = false ∧ (clu s c).inReset = false ∧ (clu s c).resetting = false

/-- QUIET, STANDBY or mode 2 parks an idle cluster without gating it. -/
def ParksNow (s : State) (c : Nat) : Prop :=
  3 ≤ fld s Reg.PWR_STATE F.PWR_STATE_cur ∨ fld s (Reg.CLU_PWRCTL c) F.CLU_PWRCTL_mode = 2 ∨
    (fld s (Reg.CLU_PWRCTL c) F.CLU_PWRCTL_mode ≠ 1 ∧ fld s Reg.PWR_STATE F.PWR_STATE_cur = 2)

theorem quietIdle_iff : quietIdle s c = true ↔ Quiet s c := by
  simp [quietIdle, Quiet, and_assoc]

theorem parksDirectly_iff : parksDirectly s c = true ↔ ParksNow s c := by
  simp only [parksDirectly, standing, cluMode, ParksNow, Bool.or_eq_true, Bool.and_eq_true, decide_eq_true_eq,
    bne_iff_ne, beq_iff_eq]
  constructor
  · tauto
  · rintro (h | h | h)
    · exact Or.inl h
    · exact Or.inr ⟨by omega, Or.inl h⟩
    · exact Or.inr ⟨h.1, Or.inr h.2⟩

theorem exec_clusterGate_stays (hc : c < 24) (h : (clu s c).power ≠ .run ∨ ¬Quiet s c) :
    exec (.clusterGate c) s = .next s := by
  rw [← quietIdle_iff] at h
  refine (onCluster_of_lt hc _).trans (congrArg Host.Outcome.next (if_pos ?_))
  simpa using h

/-- What a quiet cluster in RUN does. -/
theorem exec_clusterGate (hc : c < 24) (hp : (clu s c).power = .run) (hq : Quiet s c) : exec (.clusterGate c) s = .next (
    if parksDirectly s c then cluPower c .parking s
    else if cluMode s c = 0 ∧ fld s Reg.PWR_STATE F.PWR_STATE_cur = 1 then
      bump (cluPower c .gated s) (Reg.CLU_PWRCNT c) F.CLU_PWRCNT_gates
    else s) := by
  refine (onCluster_of_lt hc _).trans (congrArg Host.Outcome.next (if_neg ?_))
  simp [hp, quietIdle_iff.2 hq]

theorem exec_clusterParkDecision_stays (hc : c < 24) (h : (clu s c).power ≠ .gated ∨ ¬Quiet s c) :
    exec (.clusterParkDecision c) s = .next s := by
  rw [← quietIdle_iff] at h
  refine (onCluster_of_lt hc _).trans (congrArg Host.Outcome.next (if_pos ?_))
  simpa using h

/-- What a quiet GATED cluster does. -/
theorem exec_clusterParkDecision (hc : c < 24) (hp : (clu s c).power = .gated) (hq : Quiet s c) :
    exec (.clusterParkDecision c) s = .next (
      if parksDirectly s c ∨ (cluMode s c = 0 ∧ fld s Reg.PWR_STATE F.PWR_STATE_cur = 1 ∧
        fld s Reg.SPN_POLICY F.SPN_POLICY_park_time ≠ 0) then cluPower c .parking s else s) := by
  refine (onCluster_of_lt hc _).trans (congrArg Host.Outcome.next (if_neg ?_))
  simp [hp, quietIdle_iff.2 hq]

/-- In PROPORTIONAL with mode 0 it is GATED, which is counted. -/
theorem clusterGate_gates (hc : c < 24) (hp : (clu s c).power = .run) (hq : Quiet s c) (hm : cluMode s c = 0)
    (hcur : fld s Reg.PWR_STATE F.PWR_STATE_cur = 1) : ∃ u, exec (.clusterGate c) s = .next u ∧
      u = { setClu s c { clu s c with power := .gated } with csr := u.csr } ∧
      CountsBy s u (Reg.CLU_PWRCNT c) F.CLU_PWRCNT_gates 1 ∧ RegsKept s u [Reg.CLU_PWRCNT c] := by
  have hpark : parksDirectly s c = false := by simp [parksDirectly, standing, hm, hcur]
  refine ⟨bump (cluPower c .gated s) (Reg.CLU_PWRCNT c) F.CLU_PWRCNT_gates,
    (exec_clusterGate hc hp hq).trans (congrArg Host.Outcome.next ?_), rfl,
    (countsBy_bump (by decide)).of_rd_before (rd_congr rfl _), fun a ha => ?_⟩
  · rw [hpark, if_neg Bool.false_ne_true, if_pos ⟨hm, hcur⟩]
  · exact (rd_bump_ne (List.ne_of_not_mem_cons ha)).trans (rd_congr rfl a)

theorem clusterGate_parks (hc : c < 24) (hp : (clu s c).power = .run) (hq : Quiet s c) (h : ParksNow s c) :
    exec (.clusterGate c) s = .next (setClu s c { clu s c with power := .parking }) :=
  (exec_clusterGate hc hp hq).trans (congrArg Host.Outcome.next (if_pos (parksDirectly_iff.2 h)))

theorem clusterGate_stays (hc : c < 24) (h : (clu s c).power ≠ .run ∨ ¬Quiet s c ∨
    (cluMode s c = 1 ∧ fld s Reg.PWR_STATE F.PWR_STATE_cur < 3)) : exec (.clusterGate c) s = .next s := by
  by_cases hp : (clu s c).power = .run
  · by_cases hq : Quiet s c
    · obtain ⟨hm, hcur⟩ := (h.resolve_left (not_not.2 hp)).resolve_left (not_not.2 hq)
      have hpark : parksDirectly s c = false := by simp [parksDirectly, standing, hm, hcur]
      rw [exec_clusterGate hc hp hq, hpark, if_neg Bool.false_ne_true, if_neg (by omega)]
    · exact exec_clusterGate_stays hc (Or.inr hq)
  · exact exec_clusterGate_stays hc (Or.inl hp)

theorem clusterParkDecision_parks (hc : c < 24) (hp : (clu s c).power = .gated) (hq : Quiet s c)
    (h : ParksNow s c ∨ (cluMode s c = 0 ∧ fld s Reg.PWR_STATE F.PWR_STATE_cur = 1 ∧
      fld s Reg.SPN_POLICY F.SPN_POLICY_park_time ≠ 0)) :
    exec (.clusterParkDecision c) s = .next (setClu s c { clu s c with power := .parking }) :=
  (exec_clusterParkDecision hc hp hq).trans (congrArg Host.Outcome.next (if_pos (h.imp parksDirectly_iff.2 id)))

theorem clusterParkDecision_stays (hc : c < 24) (h : (clu s c).power ≠ .gated ∨ ¬Quiet s c ∨
    (¬ParksNow s c ∧ fld s Reg.SPN_POLICY F.SPN_POLICY_park_time = 0)) : exec (.clusterParkDecision c) s = .next s := by
  by_cases hp : (clu s c).power = .gated
  · by_cases hq : Quiet s c
    · obtain ⟨hnot, hnever⟩ := (h.resolve_left (not_not.2 hp)).resolve_left (not_not.2 hq)
      refine (exec_clusterParkDecision hc hp hq).trans (congrArg Host.Outcome.next (if_neg ?_))
      rintro (hd | ⟨-, -, htime⟩)
      · exact hnot (parksDirectly_iff.1 hd)
      · exact htime hnever
    · exact exec_clusterParkDecision_stays hc (Or.inr hq)
  · exact exec_clusterParkDecision_stays hc (Or.inl hp)

/-! ## PARKED (R158, R189) -/

/-- A register outside the pair's block that no source of the pair's events shows. -/
def offMirror (a : Nat) : Prop := (a < 0x700000 ∨ 0x700080 ≤ a) ∧ a ≠ Reg.EVT_CFG 1554

theorem rd_setFld_dst {a b v : Nat} {f : Fld} (h : offMirror a) (hb : 0x700000 ≤ b ∧ b < 0x700080) :
    rd (setFld s b f v) a = rd s a :=
  rd_setFld_ne s f v (by obtain ⟨h, -⟩ := h; omega)

theorem rd_unsync {a : Nat} (h : offMirror a) : rd (unsync s) a = rd s a := by
  unfold unsync
  dsimp only
  split
  · rw [rd_setFld_dst h (by decide)]
    rfl
  · rw [rd_raise_nclk (by decide) h.2, bump, bumpBy, rd_setFld_dst h (by decide), setSync, rd_setFld_dst h (by decide),
      rd_setFld_dst h (by decide)]
    rfl

theorem rd_capture {a x : Nat} (h : offMirror a) : rd (capture x s) a = rd s a := by
  unfold capture
  split
  · rfl
  · split
    · exact rd_unsync h
    · dsimp only
      unfold markHigh
      split
      · rw [rd_setFld_dst h (by decide), rd_setFld_dst h (by decide)]
        rfl
      · rw [rd_setFld_dst h (by decide)]
        rfl

/-- A store leaves the registers that the mirror log does not show. -/
theorem rd_storeMem {a x : Nat} {l : List Byte} (h : offMirror a) : rd (storeMem s x l) a = rd s a := by
  unfold storeMem
  dsimp only
  split
  · rfl
  · refine (forEach_const (fun u => rd u a) _ _ _ fun i _ u => ?_).trans rfl
    split
    · exact rd_capture h
    · rfl

/-- What the write of a save area leaves of the cluster: threads, cluster states and its own counters. -/
structure Written (s u : State) (c : Nat) : Prop where
  threads : u.threads = s.threads
  clusters : u.clusters = s.clusters
  counts : rd u (Reg.CLU_PWRCNT c) = rd s (Reg.CLU_PWRCNT c)

theorem Written.refl (s : State) (c : Nat) : Written s s c := ⟨rfl, rfl, rfl⟩

theorem Written.trans {v : State} (h : Written s u c) (h' : Written u v c) : Written s v c :=
  ⟨h'.threads.trans h.threads, h'.clusters.trans h.clusters, h'.counts.trans h.counts⟩

theorem offMirror_pwrcnt (hc : c < 24) : offMirror (Reg.CLU_PWRCNT c) := by
  unfold offMirror Reg.CLU_PWRCNT Reg.EVT_CFG
  omega

theorem memTouch_frame (s : State) (a : Nat) : ∃ m, memTouch s a = { s with mc := m } := by
  unfold memTouch
  split
  · exact ⟨s.mc, rfl⟩
  · dsimp only
    split
    · exact ⟨s.mc, rfl⟩
    · exact ⟨_, rfl⟩

theorem written_memStore (hc : c < 24) (a : Nat) (l : List Byte) : Written s (memStore s a l) c := by
  obtain ⟨m, hm⟩ := memTouch_frame s a
  unfold memStore
  rw [hm]
  dsimp only
  generalize hp : List.filter _ _ = p
  obtain ⟨r, d, e, hs⟩ := storeMem_frame { s with mc := m, poison := p } a l
  refine ⟨?_, ?_, (rd_storeMem (offMirror_pwrcnt hc)).trans (rd_congr rfl _)⟩
  · rw [hs]
  · rw [hs]

theorem written_memWrite (hc : c < 24) (a : Nat) (l : List Byte) : Written s (memWrite s a l).2 c := by
  unfold memWrite
  split
  · exact written_memStore hc a l
  · refine forEach_keeps (fun u => Written s u c) _ _ _ (fun e _ u hu => ?_) (Written.refl s c)
    split
    · exact hu
    · exact hu.trans (written_memStore hc _ _)

theorem lyrStore_near {a : Nat} (h : a < 0x100000) (l : List Byte) : (lyrStore s c a l).mem = s.mem ∧
    (lyrStore s c a l).scratch = wrBytes s.scratch (c * 0x100000 + a) l := by
  unfold lyrStore
  rw [if_pos h]
  exact ⟨rfl, rfl⟩

theorem written_lyrStore (hc : c < 24) (a : Nat) (l : List Byte) : Written s (lyrStore s c a l) c := by
  unfold lyrStore
  split
  · exact ⟨rfl, rfl, rd_congr rfl _⟩
  · exact written_memWrite hc a l

theorem written_bump {a : Nat} {f : Fld} (h : Reg.CLU_PWRCNT c ≠ a) : Written s (bump s a f) c :=
  ⟨bump_threads s a f, bump_clusters s a f, rd_bump_ne h⟩

theorem written_saveSlot (hc : c < 24) (x : LyrSlot) : Written s (saveSlot c x s) c := by
  unfold saveSlot
  refine (written_lyrStore hc x.save (saveBytes x.ctx)).trans (written_bump ?_)
  unfold Reg.CLU_PWRCNT Reg.CLU_LYSWITCH
  omega

/-- The state once a cluster's context slots are written back. -/
def slotsSaved (c : Nat) (s : State) : State := forEach (cluSlots s c) (fun x s => saveSlot c x s) s

theorem written_slotsSaved (hc : c < 24) : Written s (slotsSaved c s) c :=
  forEach_keeps (fun u => Written s u c) _ _ _ (fun x _ _ hu => hu.trans (written_saveSlot hc x)) (Written.refl s c)

/-- The state once the slots are free and power is removed. -/
def parkedOff (c : Nat) (s : State) : State :=
  bump (cluPower c .parked (setSlots s c [])) (Reg.CLU_PWRCNT c) F.CLU_PWRCNT_parks

theorem clu_parkedOff : clu (parkedOff c s) c = { clu s c with lyrSlots := [], power := .parked } := by
  rw [parkedOff, clu_congr (bump_clusters _ _ _), cluPower, clu_updClu_same, setSlots,
    clu_congr (setFld_clusters _ _ _ _), clu_updClu_same]

@[simp] theorem parkedOff_threads : (parkedOff c s).threads = s.threads := by
  rw [parkedOff, bump_threads, cluPower, updClu_threads, setSlots, setFld_threads, updClu_threads]
@[simp] theorem parkedOff_mem : (parkedOff c s).mem = s.mem := by
  rw [parkedOff, bump_mem, cluPower, updClu_mem, setSlots, setFld_mem, updClu_mem]
@[simp] theorem parkedOff_scratch : (parkedOff c s).scratch = s.scratch := by
  rw [parkedOff, bump_scratch, cluPower, updClu_scratch, setSlots, setFld_scratch, updClu_scratch]

theorem countsBy_parkedOff : CountsBy s (parkedOff c s) (Reg.CLU_PWRCNT c) F.CLU_PWRCNT_parks 1 := by
  have hslots : Reg.CLU_PWRCNT c ≠ Reg.CLU_LYSLOTS c := by
    unfold Reg.CLU_PWRCNT Reg.CLU_LYSLOTS
    omega
  exact (countsBy_bump (by decide)).of_rd_before ((rd_congr (updClu_csr _ _ _) _).trans (rd_setFld_ne _ _ _ hslots))

theorem exec_parkingComplete (hc : c < 24) (hp : (clu s c).power = .parking) :
    exec (.parkingComplete c) s = .next (parkedOff c (slotsSaved c s)) :=
  (onCluster_of_lt hc _).trans (congrArg Host.Outcome.next (if_pos hp))

theorem exec_parkingComplete_of_ne (hc : c < 24) (hp : (clu s c).power ≠ .parking) :
    exec (.parkingComplete c) s = .next s :=
  (onCluster_of_lt hc _).trans (congrArg Host.Outcome.next (if_neg hp))

theorem slotsSaved_nil (h : (clu s c).lyrSlots = []) : slotsSaved c s = s := by
  unfold slotsSaved cluSlots
  rw [h]
  rfl

/-- A slot whose save area lies in the cluster's scratch. -/
theorem slotsSaved_near {e : LyrSlot} (h : (clu s c).lyrSlots = [e]) (he : e.save + 1024 ≤ 0x100000) :
    (slotsSaved c s).mem = s.mem ∧
      (slotsSaved c s).scratch = wrBytes s.scratch (c * 0x100000 + e.save) (saveBytes e.ctx) := by
  have hs : slotsSaved c s = saveSlot c e s := by
    unfold slotsSaved cluSlots
    rw [h]
    rfl
  rw [hs, saveSlot, bump_mem, bump_scratch]
  exact lyrStore_near (by omega) (saveBytes e.ctx)

/-! ## CLU_PWRCTL (R191) -/

theorem bitsN_mode (v : Word) : bitsN v.toNat 1 0 = (v.extractLsb' 0 2).toNat := by
  simp [bitsN]

/-- The state once the mode is set and the groups are watched. -/
def modeSet (c : Nat) (v : Word) (s : State) : State :=
  orphanCheck (setFld s (Reg.CLU_PWRCTL c) F.CLU_PWRCTL_mode (v.extractLsb' 0 2).toNat)

theorem exec_cluPwrctlWrite_three {v : Word} (hc : c < 24) (hv : v.extractLsb' 0 2 = 3) :
    exec (.cluPwrctlWrite c v) s = .next s := by
  refine (onCluster_of_lt hc _).trans (congrArg Host.Outcome.next (if_pos ?_))
  rw [bitsN_mode, hv]
  rfl

theorem exec_cluPwrctlWrite {v : Word} (hc : c < 24) (hv : v.extractLsb' 0 2 ≠ 3) :
    exec (.cluPwrctlWrite c v) s = .next (if v.extractLsb' 0 2 = 1 then requestWakeCmd c (parkAtOnce c (modeSet c v s))
      else parkAtOnce c (modeSet c v s)) := by
  have h1 : (v.extractLsb' 0 2).toNat = 1 ↔ v.extractLsb' 0 2 = 1 := BitVec.toNat_inj (y := 1)
  have h3 : (v.extractLsb' 0 2).toNat = 3 ↔ v.extractLsb' 0 2 = 3 := BitVec.toNat_inj (y := 3)
  refine (onCluster_of_lt hc _).trans (congrArg Host.Outcome.next ?_)
  unfold pwrctlWrite
  rw [bitsN_mode]
  dsimp only
  rw [if_neg (mt h3.1 hv)]
  exact if_congr h1 rfl rfl

theorem forEach_raise_frame (n : Nat) (l : List Nat) (s : State) :
    ∃ r e, forEach l (fun _ s => raise s n) s = { s with csr := r, ev := e } :=
  forEach_keeps (Counted s) l _ s (fun _ _ _ hu => hu.raise n) (Counted.refl s)

theorem orphanCheck_frame (s : State) : ∃ r e o,
    orphanCheck s = { s with csr := r, ev := e, spawn := { s.spawn with orphan := o } } := by
  unfold orphanCheck
  obtain ⟨r, e, h⟩ := forEach_raise_frame 482 _ _
  exact ⟨r, e, _, h⟩

theorem rd_withSpawn (x : Spawn) (a : Nat) : rd { s with spawn := x } a = rd s a := rfl

theorem rd_forEach_raise {a n : Nat} (hn : 480 ≤ n ∧ n < 768 ∨ 1536 ≤ n ∧ n < 1600) (ha : a ≠ Reg.EVT_CFG n)
    (l : List Nat) (s : State) : rd (forEach l (fun _ s => raise s n) s) a = rd s a :=
  forEach_const (fun u => rd u a) l _ s fun _ _ _ => rd_raise_nclk hn ha

theorem rd_orphanCheck {a : Nat} (h : a ≠ Reg.EVT_CFG 482) : rd (orphanCheck s) a = rd s a := by
  unfold orphanCheck
  exact (rd_forEach_raise (by decide) h _ _).trans (rd_withSpawn _ a)

theorem modeSet_frame (c : Nat) (v : Word) (s : State) : ∃ r e o,
    modeSet c v s = { s with csr := r, ev := e, spawn := { s.spawn with orphan := o } } := by
  obtain ⟨r, e, o, h⟩ := orphanCheck_frame (setFld s (Reg.CLU_PWRCTL c) F.CLU_PWRCTL_mode (v.extractLsb' 0 2).toNat)
  exact ⟨r, e, o, h⟩

theorem cluMode_modeSet {v : Word} (hc : c < 24) : cluMode (modeSet c v s) c = (v.extractLsb' 0 2).toNat := by
  have hne : Reg.CLU_PWRCTL c ≠ Reg.EVT_CFG 482 := by
    unfold Reg.CLU_PWRCTL Reg.EVT_CFG
    omega
  unfold cluMode modeSet fld
  rw [rd_orphanCheck hne, ← fld, fld_setFld_same _ _ _ _ (by decide)]
  exact Nat.mod_eq_of_lt (v.extractLsb' 0 2).isLt

theorem standing_modeSet {v : Word} : standing (modeSet c v s) = standing s := by
  have hne : Reg.PWR_STATE ≠ Reg.CLU_PWRCTL c := by
    unfold Reg.PWR_STATE Reg.CLU_PWRCTL
    omega
  unfold standing modeSet fld
  rw [rd_orphanCheck (by decide), rd_setFld_ne _ _ _ hne]

theorem clu_modeSet {v : Word} : clu (modeSet c v s) k = clu s k := by
  obtain ⟨_, _, _, h⟩ := modeSet_frame c v s
  exact clu_congr (by rw [h]) k

/-- Whether a cluster is quiet does not depend on the registers. -/
theorem quiet_modeSet {v : Word} : Quiet (modeSet c v s) c ↔ Quiet s c := by
  obtain ⟨r, e, o, h⟩ := modeSet_frame c v s
  rw [h]
  exact Iff.rfl

theorem parkAtOnce_cases (c : Nat) (s : State) : parkAtOnce c s = s ∨ parkAtOnce c s = cluPower c .parking s := by
  unfold parkAtOnce
  dsimp only
  split
  · exact Or.inr rfl
  · exact Or.inl rfl

/-- What the write leaves: threads, every byte of memory, and the other clusters. -/
structure ModeWritten (s u : State) (c : Nat) : Prop where
  threads : u.threads = s.threads
  bytes : BytesKept s u
  others : ∀ k, k ≠ c → clu u k = clu s k

theorem modeWritten_parkAtOnce {v : Word} : ModeWritten s (parkAtOnce c (modeSet c v s)) c := by
  obtain ⟨r, e, o, h⟩ := modeSet_frame c v s
  rw [h]
  obtain hp | hp := parkAtOnce_cases c { s with csr := r, ev := e, spawn := { s.spawn with orphan := o } }
  · rw [hp]
    exact ⟨rfl, ⟨rfl, rfl, rfl, rfl⟩, fun _ _ => rfl⟩
  · rw [hp]
    exact ⟨rfl, ⟨rfl, rfl, rfl, rfl⟩, fun k hk => clu_updClu_ne _ hk⟩

theorem cluMode_parkAtOnce : cluMode (parkAtOnce c s) k = cluMode s k := by
  obtain hp | hp := parkAtOnce_cases c s
  · rw [hp]
  · rw [hp]
    rfl

theorem clu_requestWake_ne {zero : Bool} (h : k ≠ c) : clu (requestWake zero c s) k = clu s k := by
  cases ha : awake s c
  · obtain ⟨p, rfl | rfl, hr⟩ := requestWake_of_not_awake (zero := zero) ha
    · rw [hr]
      rfl
    · rw [hr]
      exact clu_abortParking_ne h
  · rw [requestWake_of_awake ha]

theorem modeWritten_requestWakeCmd (hc : c < 24) (h : ModeWritten s u c) : ModeWritten s (requestWakeCmd c u) c := by
  unfold requestWakeCmd
  split
  · exact h
  · have hw := wakesAdded_requestWake (s := u) (zero := false) hc
    obtain ⟨hm, hs, hcode, hr⟩ := hw.bytesKept
    obtain ⟨hm', hs', hcode', hr'⟩ := h.bytes
    exact ⟨hw.threads.trans h.threads, ⟨hm.trans hm', hs.trans hs', hcode.trans hcode', hr.trans hr'⟩,
      fun k hk => (clu_requestWake_ne hk).trans (h.others k hk)⟩

theorem cluMode_requestWakeCmd (hc : c < 24) : cluMode (requestWakeCmd c s) k = cluMode s k := by
  unfold requestWakeCmd
  split
  · rfl
  · exact (wakesAdded_requestWake hc).cluMode k

theorem pwrctlWrite_effect {v : Word} (hc : c < 24) (hv : v.extractLsb' 0 2 ≠ 3) :
    ∃ u, exec (.cluPwrctlWrite c v) s = .next u ∧ cluMode u c = (v.extractLsb' 0 2).toNat ∧ ModeWritten s u c ∧
      (v.extractLsb' 0 2 = 2 → u = parkAtOnce c (modeSet c v s)) ∧
      (v.extractLsb' 0 2 = 1 → u = requestWakeCmd c (parkAtOnce c (modeSet c v s))) := by
  have hmode : cluMode (parkAtOnce c (modeSet c v s)) c = (v.extractLsb' 0 2).toNat :=
    cluMode_parkAtOnce.trans (cluMode_modeSet hc)
  refine ⟨_, exec_cluPwrctlWrite hc hv, ?_, ?_, fun h2 => if_neg ?_, fun h1 => if_pos h1⟩
  · split
    · exact (cluMode_requestWakeCmd hc).trans hmode
    · exact hmode
  · split
    · exact modeWritten_requestWakeCmd hc modeWritten_parkAtOnce
    · exact modeWritten_parkAtOnce
  · rw [h2]
    decide

/-- Mode 2 parks a quiet cluster at once. -/
theorem parkAtOnce_mode_two {v : Word} (hc : c < 24) (hv : v.extractLsb' 0 2 = 2) (hp : (clu s c).power = .run)
    (hq : Quiet s c) : (clu (parkAtOnce c (modeSet c v s)) c).power = .parking := by
  have hm : cluMode (modeSet c v s) c = 2 := (cluMode_modeSet hc).trans (by rw [hv]; rfl)
  have hi : quietIdle (modeSet c v s) c = true := quietIdle_iff.2 (quiet_modeSet.2 hq)
  have hrun : (clu (modeSet c v s) c).power = .run := (congrArg Cluster.power clu_modeSet).trans hp
  have hpark : parkAtOnce c (modeSet c v s) = cluPower c .parking (modeSet c v s) := by
    refine if_pos ?_
    simp [parksDirectly, hm, hi, hrun]
  rw [hpark, cluPower, clu_updClu_same]

/-- Mode 1 asks for a wake of a cluster that is GATED or PARKED. -/
theorem requestWakeCmd_mode_one {v : Word} (hc : c < 24) (hv : v.extractLsb' 0 2 = 1)
    (hcur : fld s Reg.PWR_STATE F.PWR_STATE_cur < 3) (hp : (clu s c).power = .gated ∨ (clu s c).power = .parked)
    (hw : wakePending s c = false) : (requestWakeCmd c (parkAtOnce c (modeSet c v s))).spawn.wakes =
      s.spawn.wakes ++ [{ cluster := c, zero := false, paced := false }] := by
  have hm : cluMode (modeSet c v s) c = 1 := (cluMode_modeSet hc).trans (by rw [hv]; rfl)
  have hst : standing (modeSet c v s) = false := standing_modeSet.trans (decide_eq_false (by omega))
  have hpark : parkAtOnce c (modeSet c v s) = modeSet c v s := by
    refine if_neg ?_
    simp [parksDirectly, hm, hst]
  have hawake : awake (modeSet c v s) c = false := by
    rw [awake_congr (congrArg Cluster.power clu_modeSet)]
    obtain hp | hp := hp
    · simp [awake, hp]
    · simp [awake, hp]
  have hcmd : requestWakeCmd c (modeSet c v s) = requestWake false c (modeSet c v s) := by
    refine if_neg ?_
    simp [hm, hst]
  obtain ⟨p, -, hr⟩ := requestWake_of_not_awake (zero := false) hawake
  have hwakes : (modeSet c v s).spawn.wakes = s.spawn.wakes := by
    obtain ⟨_, _, _, h⟩ := modeSet_frame c v s
    rw [h]
  rw [hpark, hcmd, hr]
  unfold wakePending at hw
  simp only [askedWakes, wakePending, hwakes, hw, Bool.false_eq_true, if_false]

end

end Sys2Proof.Machine

open Sys2Proof Sys2Proof.Machine in
/-- Settles O26: the scan serves each group in turn and later requests only add to it (`forEach_scanGroup`); the other
clauses are the effects of their rows (`startWake_effect`, `wakePaced_effect`, `exec_clusterGate`, `exec_parkingComplete`,
`pwrctlWrite_effect`). -/
theorem clusterPower : Obligations.ClusterPower := by
  refine ⟨fun s c hc => ⟨fun hcur => ?_, exec_wakeRequestScan_standing, fun hbar => ?_, fun w hw => ⟨fun hmany => ?_,
    fun hfew _ => ?_⟩, fun w hw hwc hp => wakePaced_effect hc ⟨w, hw, hwc, hp⟩,
    fun hr ht hb => ⟨fun hp => exec_clusterWakeComplete hc hr ht hb (Or.inl ⟨hp, rfl⟩),
      fun hp => exec_clusterWakeComplete hc hr ht hb (Or.inr ⟨hp, rfl⟩)⟩, exec_clusterWakeComplete_of_ne hc⟩,
    fun s c hc => ?_⟩
  · obtain ⟨hadd, hserved⟩ := forEach_scanGroup (s := s) (List.range 64) fun g hg => List.mem_range.1 hg
    exact ⟨_, exec_wakeRequestScan hcur, hadd.threads, hadd.bytesKept, hadd.regs, hadd.wakes,
      fun g hg hwt => hserved g (List.mem_range.2 hg) hwt⟩
  · rw [exec_wakeStart, nextWake_of_barred hbar]
  · rw [exec_wakeStart, show nextWake s = some w from hw]
    exact congrArg Host.Outcome.next (if_neg fun h => absurd (wakeWindowClear_iff.1 h) (not_lt.2 hmany))
  · refine ⟨startWake w.cluster s, ?_, startWake_effect w.cluster s⟩
    rw [exec_wakeStart, show nextWake s = some w from hw]
    exact congrArg Host.Outcome.next (if_pos (wakeWindowClear_iff.2 hfew))
  · dsimp only
    refine ⟨clusterGate_gates hc, clusterGate_parks hc, clusterGate_stays hc, clusterParkDecision_parks hc,
      clusterParkDecision_stays hc, fun hp => ?_, exec_parkingComplete_of_ne hc,
      fun v => ⟨exec_cluPwrctlWrite_three hc, fun hv => ?_⟩⟩
    · have hw := written_slotsSaved (s := s) hc
      refine ⟨_, exec_parkingComplete hc hp, by rw [clu_parkedOff], by rw [clu_parkedOff],
        countsBy_parkedOff.of_rd_before hw.counts, parkedOff_threads.trans hw.threads, fun hnil => ?_,
        fun e he hsave => ?_⟩
      · rw [parkedOff_mem, parkedOff_scratch, slotsSaved_nil hnil]
        exact ⟨rfl, rfl⟩
      · rw [parkedOff_mem, parkedOff_scratch]
        exact (slotsSaved_near he hsave).symm
    · obtain ⟨u, hexec, hmode, hwritten, htwo, hone⟩ := pwrctlWrite_effect (s := s) hc hv
      refine ⟨u, hexec, hmode, hwritten.threads, hwritten.bytes, hwritten.others, fun h2 hp hq => ?_,
        fun h1 hcur hp hwake => ⟨{ cluster := c, zero := false, paced := false }, ?_, rfl⟩⟩
      · rw [htwo h2]
        exact parkAtOnce_mode_two hc h2 hp hq
      · rw [hone h1]
        exact requestWakeCmd_mode_one hc h1 hcur hp hwake
end

