-- ==== Sys2Proof/Proofs/ImageKept.lean ====
section
/-! What the reset of a cluster keeps (R51, R466): the registers below the epochs' block, of which the structure image's are
some, and the holds for live loads. `ImageKept.f` says so of the operation `f`, in the order of the model's files; a proof
names, from the outside in, the operations its definition calls. -/

namespace Sys2Proof.Machine

/-- The registers of the identity, protection and structure blocks read as before, and every cluster is held for a live
load, or not, as before. -/
structure ImageKept (s u : State) : Prop where
  regs : ∀ a, a < 0x30000 → rd u a = rd s a
  hold : ∀ c, (clu u c).liveHold = (clu s c).liveHold

section
variable {s u : State}

protected theorem ImageKept.refl (s : State) : ImageKept s s := ⟨fun _ _ => rfl, fun _ => rfl⟩

protected theorem ImageKept.flag (h : ImageKept s u) {a : Nat} (ha : a < 0x30000) (f : Fld) : flag u a f = flag s a f := by
  unfold Machine.flag fld
  rw [h.regs a ha]

/-- A record update that leaves the registers and the clusters alone. -/
protected theorem ImageKept.same (h : ImageKept s u) {now freeCtr pending shadow mem scratch code slotRam threads cores ops
    nextOp spawn bridge bpm tiles poison img eth clkBase clkAt gecko ev obx tbl host mc clk str epc dst pwr svc tel outbox} :
    ImageKept s ⟨now, freeCtr, pending, u.csr, shadow, mem, scratch, code, slotRam, threads, cores, ops, nextOp,
      u.clusters, spawn, bridge, bpm, tiles, poison, img, eth, clkBase, clkAt, gecko, ev, obx, tbl, host, mc, clk, str,
      epc, dst, pwr, svc, tel, outbox⟩ :=
  ⟨h.regs, h.hold⟩

/-! ## Branches, loops and pairs -/

protected theorem ImageKept.pair {α : Type} {a : α} (h : ImageKept s u) : ImageKept s (a, u).2 := h

protected theorem ImageKept.snd {α : Type} {p : α × State} {a} (hp : p = (a, u)) (h : ImageKept s p.2) :
    ImageKept s u := by
  rw [hp] at h
  exact h

protected theorem ImageKept.ite {c : Prop} {_ : Decidable c} {v w : State} (hv : ImageKept s v) (hw : ImageKept s w) :
    ImageKept s (if c then v else w) := by split <;> assumption

protected theorem ImageKept.ite_snd {α : Type} {c : Prop} {_ : Decidable c} {v w : α × State} (hv : ImageKept s v.2)
    (hw : ImageKept s w.2) : ImageKept s (if c then v else w).2 := by split <;> assumption

protected theorem ImageKept.forEach {α : Type} {l : List α} {f : α → State → State} (h : ImageKept s u)
    (hf : ∀ {a v}, ImageKept s v → ImageKept s (f a v)) : ImageKept s (forEach l f u) :=
  forEach_keeps (ImageKept s) l f u (fun _ _ _ hv => hf hv) h

/-! ## The named operations over State that every command shares -/

protected theorem ImageKept.wr (h : ImageKept s u) {a w} (ha : 0x30000 ≤ a := by decide) : ImageKept s (wr u a w) :=
  ⟨fun b hb => (rd_wr_ne u w (by omega)).trans (h.regs b hb), h.hold⟩

protected theorem ImageKept.setFld (h : ImageKept s u) {a f v} (ha : 0x30000 ≤ a := by decide) :
    ImageKept s (setFld u a f v) := .wr h ha

protected theorem ImageKept.bumpBy (h : ImageKept s u) {a f k} (ha : 0x30000 ≤ a := by decide) :
    ImageKept s (bumpBy u a f k) := .setFld h ha

protected theorem ImageKept.bump (h : ImageKept s u) {a f} (ha : 0x30000 ≤ a := by decide) : ImageKept s (bump u a f) :=
  .bumpBy h ha

protected theorem ImageKept.bumpWrapBy (h : ImageKept s u) {a f k} (ha : 0x30000 ≤ a := by decide) :
    ImageKept s (bumpWrapBy u a f k) := .setFld h ha

protected theorem ImageKept.markHigh (h : ImageKept s u) {a f v} (ha : 0x30000 ≤ a := by decide) :
    ImageKept s (markHigh u a f v) := .ite (.setFld h ha) h

protected theorem ImageKept.draw (h : ImageKept s u) : ImageKept s (draw u).2 := .same h

protected theorem ImageKept.choose {α : Type} (h : ImageKept s u) {c : α} {l} : ImageKept s (choose u c l).2 := by
  unfold Machine.choose
  split <;> exact .same h

protected theorem ImageKept.emit (h : ImageKept s u) {o} : ImageKept s (emit u o) := .same h

protected theorem ImageKept.setTh (h : ImageKept s u) {t v} : ImageKept s (setTh u t v) := .same h

protected theorem ImageKept.updTh (h : ImageKept s u) {t f} : ImageKept s (updTh u t f) := .setTh h

protected theorem ImageKept.setClu (h : ImageKept s u) {c v} (hv : v.liveHold = (clu u c).liveHold := by rfl) :
    ImageKept s (setClu u c v) := by
  refine ⟨h.regs, fun k => ?_⟩
  by_cases hk : k = c
  · subst hk
    rw [clu_setClu_same, hv]
    exact h.hold k
  · rw [clu_setClu_ne u v hk]
    exact h.hold k

protected theorem ImageKept.updClu (h : ImageKept s u) {c f} (hf : (f (clu u c)).liveHold = (clu u c).liveHold := by rfl) :
    ImageKept s (updClu u c f) := .setClu h hf

protected theorem ImageKept.updCore (h : ImageKept s u) {n f} : ImageKept s (updCore u n f) := .same h

protected theorem ImageKept.setLock (h : ImageKept s u) {n v} : ImageKept s (setLock u n v) := .same h

theorem le_evtCfg (n : Nat) : 0x30000 ≤ Reg.EVT_CFG n := Nat.le_add_right_of_le (by decide)

theorem le_domstat (d : Nat) : 0x30000 ≤ Reg.CRS_DOMSTAT d := Nat.le_add_right_of_le (by decide)

protected theorem ImageKept.raise (h : ImageKept s u) {n} : ImageKept s (raise u n) := by
  refine ⟨fun a ha => (rd_raise u n a ?_ ?_ ?_).trans (h.regs a ha), fun c => ?_⟩
  · exact (ha.trans_le (le_evtCfg _)).ne
  · exact (ha.trans_le (le_domstat _)).ne
  · exact (ha.trans_le (le_domstat _)).ne
  · rw [clu_congr (raise_clusters u n)]
    exact h.hold c

protected theorem ImageKept.storeMem (h : ImageKept s u) {a l} : ImageKept s (storeMem u a l) := by
  refine ⟨fun b hb => (rd_storeMem ⟨by omega, (hb.trans_le (le_evtCfg _)).ne⟩).trans (h.regs b hb), fun c => ?_⟩
  obtain ⟨_, _, _, hs⟩ := storeMem_frame u a l
  rw [hs]
  exact h.hold c

/-! ## Newt threads: commit, traps, wakes and asynchronous operations -/

protected theorem ImageKept.writeG (h : ImageKept s u) {t r v need} : ImageKept s (writeG u t r v need) :=
  .ite h <| .same <| .updTh <| .ite_snd (.choose h) h

protected theorem ImageKept.putG (h : ImageKept s u) {t r k pc v l} : ImageKept s (putG u t r k pc v l) :=
  .ite h <| .same <| .updTh (.choose h)

protected theorem ImageKept.finish (h : ImageKept s u) {t npc} : ImageKept s (finish u t npc) := .updTh h

protected theorem ImageKept.finishSeq (h : ImageKept s u) {t} : ImageKept s (finishSeq u t) := .finish h

protected theorem ImageKept.trapAt (h : ImageKept s u) {t c detail v} : ImageKept s (trapAt u t c detail v) :=
  .ite (.raise (.setTh (.updCore h))) (.setTh (.updCore h))

protected theorem ImageKept.dozeEnd (h : ImageKept s u) {t d v} : ImageKept s (dozeEnd u t d v) :=
  .finishSeq <| .writeG (.updTh h)

protected theorem ImageKept.wakeThread (h : ImageKept s u) {t} : ImageKept s (wakeThread u t) := by
  unfold Machine.wakeThread
  dsimp only
  split
  · exact h
  · exact h
  · exact .setTh h
  · exact .setTh h
  · split
    · exact .dozeEnd (.setTh h)
    · exact .setTh h

protected theorem ImageKept.setTok (h : ImageKept s u) {t k v} : ImageKept s (setTok u t k v) := .updTh h

protected theorem ImageKept.dropOp (h : ImageKept s u) {id} : ImageKept s (dropOp u id) := .same h

protected theorem ImageKept.postErr (h : ImageKept s u) {t status} : ImageKept s (postErr u t status) :=
  have ha : 0x30000 ≤ Reg.CLU_POSTERR (thCluster t) := Nat.le_add_right_of_le (by decide)
  .raise <| .setFld (.bump h ha) ha

protected theorem ImageKept.deliver (h : ImageKept s u) {o status v} : ImageKept s (deliver u o status v) := by
  unfold Machine.deliver
  split
  · exact .updTh (.dropOp h)
  · split
    · exact .bump (.dropOp h) (Nat.le_add_right_of_le (by decide))
    · split
      · exact .ite (.dropOp h) <| .postErr (.dropOp h)
      · exact .setTok <| .ite (.dropOp h) <| .putG (.dropOp h)

protected theorem ImageKept.waitcEnd (h : ImageKept s u) {t w} : ImageKept s (waitcEnd u t w) :=
  have h1 : ImageKept s _ := .forEach (.updTh h) fun hu => .setTok hu
  .ite (.finishSeq <| .writeG (.updTh (.updTh h))) <| .ite (.trapAt h1) <| .ite (.trapAt h1) (.trapAt h1)

protected theorem ImageKept.settleWait (h : ImageKept s u) {t} : ImageKept s (settleWait u t) := by
  unfold Machine.settleWait
  dsimp only
  split
  · exact .ite h (.waitcEnd h)
  · exact .ite h <| .finishSeq (.updTh h)
  · exact h

/-! ## Gecko -/

protected theorem ImageKept.setRegs (h : ImageKept s u) {l} : ImageKept s (setRegs u l) := .markHigh <| .setFld (.same h)

protected theorem ImageKept.boostCheck (h : ImageKept s u) {n} : ImageKept s (boostCheck n u) := by
  unfold Machine.boostCheck
  dsimp only
  split
  · split
    · exact .bump (.setLock h)
    · split
      · exact .setLock h
      · exact .same (.setLock h)
  · split
    · split
      · exact .setLock h
      · exact .same (.setLock h)
    · exact h

protected theorem ImageKept.notifyPush (h : ImageKept s u) {c rec} : ImageKept s (notifyPush c rec u) :=
  .ite (.setFld h (Nat.le_add_right_of_le (by decide))) <| .raise (.same h)

protected theorem ImageKept.gkoNotify (h : ImageKept s u) {a kind n} : ImageKept s (gkoNotify a kind n u) := by
  unfold Machine.gkoNotify
  split
  · exact .wakeThread h
  · split
    · exact .same h
    · split
      · exact .notifyPush h
      · exact h

protected theorem ImageKept.passOn (h : ImageKept s u) {n} : ImageKept s (passOn n u) := by
  unfold Machine.passOn
  split
  · exact .setLock h
  · exact .gkoNotify <| .setLock (.setRegs h)

protected theorem ImageKept.abandonLock (h : ImageKept s u) {n} : ImageKept s (abandonLock n u) :=
  .boostCheck <| .passOn <| .boostCheck <| .setLock <| .raise <| .wr (.bump h)

protected theorem ImageKept.threadHolderReset (h : ImageKept s u) {t} : ImageKept s (threadHolderReset t u) :=
  .updTh <| .forEach (.forEach (.forEach
    (.setRegs h) fun hu => .boostCheck hu) fun hu => .abandonLock hu) fun hu => .boostCheck (.passOn hu)

/-! ## Memory and tiles -/

protected theorem ImageKept.memTouch (h : ImageKept s u) {a} : ImageKept s (memTouch u a) := by
  obtain ⟨_, hm⟩ := memTouch_frame u a
  rw [hm]
  exact .same h

protected theorem ImageKept.memStore (h : ImageKept s u) {a l} : ImageKept s (memStore u a l) :=
  .storeMem <| .same (.memTouch h)

protected theorem ImageKept.memWrite (h : ImageKept s u) {a l} : ImageKept s (memWrite u a l).2 :=
  .ite_snd (.memStore h) <| .forEach h fun hu => .ite hu (.memStore hu)

protected theorem ImageKept.sealTile (h : ImageKept s u) {tile} : ImageKept s (sealTile u tile) := by
  have hput {sealed check} : ImageKept s (tilePut u tile sealed check) := by
    unfold tilePut
    split
    · exact .ite (.memWrite h) (.same h)
    · exact .same h
  exact .same hput

/-! ## Spawn -/

protected theorem ImageKept.sendPause (h : ImageKept s u) {p} : ImageKept s (sendPause p u) :=
  .ite h <| .bump (.emit h) (Nat.le_add_right_of_le (Nat.le_add_right_of_le (by decide)))

protected theorem ImageKept.bpUpdate (h : ImageKept s u) : ImageKept s (bpUpdate u) :=
  have h1 : ImageKept s _ := .setFld <| .setFld (.same h)
  .forEach (.ite (.raise h1) h1) fun hu => .sendPause hu

protected theorem ImageKept.storeSet (h : ImageKept s u) {n} : ImageKept s (storeSet u n) :=
  have h1 : ImageKept s _ := .ite (.setFld (.setFld (.same h))) (.setFld (.same h))
  .ite (.raise h1) h1

protected theorem ImageKept.setQueue (h : ImageKept s u) {q l} : ImageKept s (setQueue u q l) :=
  have ha : 0x30000 ≤ Reg.SPN_QSTAT q := Nat.le_add_right_of_le (by decide)
  .markHigh (.setFld (.same h) ha) ha

protected theorem ImageKept.startPacket (h : ImageKept s u) {t k d} : ImageKept s (startPacket u t k d) :=
  .bpUpdate <| .storeSet (.updTh h)

protected theorem ImageKept.returnSlot (h : ImageKept s u) {t k} : ImageKept s (returnSlot t k u) := by
  unfold Machine.returnSlot
  split
  · exact h
  · split
    · exact .setQueue <| .same (.updTh h)
    · exact .updTh h
    · exact h

protected theorem ImageKept.returnSlots (h : ImageKept s u) {t} : ImageKept s (returnSlots t u) :=
  .bpUpdate <| .returnSlot (.returnSlot h)

protected theorem ImageKept.takeNext (h : ImageKept s u) {t} : ImageKept s (takeNext u t) := by
  unfold Machine.takeNext
  dsimp only
  split
  · exact h
  · split
    · exact .startPacket h
    · split
      · exact .startPacket h
      · exact h

protected theorem ImageKept.abortParking (h : ImageKept s u) {c} : ImageKept s (abortParking c u) :=
  .ite (.bump (.updClu h) (Nat.le_add_right_of_le (by decide))) h

protected theorem ImageKept.requestWake (h : ImageKept s u) {zero c} : ImageKept s (requestWake zero c u) :=
  .ite h <| .same <| .ite h (.abortParking h)

/-! ## Endings -/

protected theorem ImageKept.sealOpen (h : ImageKept s u) {data} : ImageKept s (sealOpen data u) :=
  .forEach h fun hu => .ite hu (.sealTile hu)

protected theorem ImageKept.afterEnding (h : ImageKept s u) {t} : ImageKept s (afterEnding t u) :=
  .ite (.setTh h) <| .ite (.returnSlots <| .setTh (.setTh h)) <| .takeNext <| .setTh (.setTh h)

protected theorem ImageKept.handOff (h : ImageKept s u) {t rel dest edit} : ImageKept s (handOff u t rel dest edit) := by
  unfold Machine.handOff
  dsimp only
  split
  · exact h
  · exact .ite (.afterEnding <| .updTh <| .same <| .ite (.sealOpen h) h) <| .updTh <| .same <| .ite (.sealOpen h) h

protected theorem ImageKept.endPacket (h : ImageKept s u) {t rel dest edit} :
    ImageKept s (endPacket u t rel dest edit) :=
  .ite (.updTh h) <| .handOff <| .finishSeq (.updTh h)

protected theorem ImageKept.settle (h : ImageKept s u) {t} : ImageKept s (settle t u) := by
  unfold Machine.settle
  split
  · exact .ite h (.endPacket h)
  · exact .settleWait h

/-! ## Obrex Link -/

protected theorem ImageKept.updOlink (h : ImageKept s u) {l f} : ImageKept s (updOlink u l f) := .same h

protected theorem ImageKept.lcnt (h : ImageKept s u) {l k n} : ImageKept s (lcnt u l k n) :=
  have ha : 0x30000 ≤ Reg.OBX_LCNT l k := Nat.le_add_right_of_le (Nat.le_add_right_of_le (by decide))
  .ite (.bumpWrapBy h ha) (.bumpBy h ha)

protected theorem ImageKept.sendFlit (h : ImageKept s u) {l f stamp} : ImageKept s (sendFlit l f stamp u) := by
  unfold Machine.sendFlit
  dsimp only
  split
  · exact .ite (.updOlink <| .lcnt (.emit h)) <| .updOlink <| .updOlink <| .lcnt (.emit h)
  · exact .updOlink <| .lcnt (.emit h)

protected theorem ImageKept.sendSeq (h : ImageKept s u) {l f} : ImageKept s (sendSeq l f u) := .sendFlit (.same h)

protected theorem ImageKept.pumpLink {n l} (h : ImageKept s u) : ImageKept s (pumpLink n l u) := by
  induction n generalizing u with
  | zero => exact h
  | succ n ih =>
    have hdata {x f} : ImageKept s (pumpLink n l (sendSeq l f (setOlink u l x))) := ih <| .sendSeq (.same h)
    have hnotice {x f k} : ImageKept s (pumpLink n l (lcnt (sendSeq l f (setOlink u l x)) l k 1)) :=
      ih <| .lcnt <| .sendSeq (.same h)
    unfold Machine.pumpLink
    refine .ite h ?_
    split
    · split
      · split
        · exact hnotice
        · exact hdata
      · split
        · exact .ite hnotice h
        · exact h
    · exact .ite hnotice h
    · exact h

protected theorem ImageKept.freeTag (h : ImageKept s u) : ImageKept s (freeTag u).2 := .ite_snd h (.draw h)

protected theorem ImageKept.startTx (h : ImageKept s u) {l m} : ImageKept s (startTx l m u) :=
  .pumpLink (by split; exacts [.updOlink (.updOlink h), .updOlink h])

protected theorem ImageKept.failReq (h : ImageKept s u) {op agent} : ImageKept s (failReq op agent u) := by
  unfold Machine.failReq
  split
  · exact .ite (.same h) h
  · split
    · exact .settle (.deliver h)
    · exact h

protected theorem ImageKept.offerTx (h : ImageKept s u) {m} : ImageKept s (offerTx m u).2 := by
  refine .ite_snd (.pair (.failReq h)) <| .ite_snd (.pair h) ?_
  split
  · exact h
  · refine .ite_snd ?_ (.pair (.startTx h))
    split
    · next hp => exact .snd hp (.freeTag h)
    · next hp => exact .startTx <| .same <| .snd hp (.freeTag h)

protected theorem ImageKept.offerAll {l kept} (h : ImageKept s u) : ImageKept s (offerAll l kept u) := by
  induction l generalizing u kept with
  | nil => exact .same h
  | cons m r ih =>
    unfold Machine.offerAll
    refine .ite (ih h) ?_
    split
    · next hp => exact ih <| .snd hp (.offerTx h)
    · next hp => exact ih <| .snd hp (.offerTx h)

protected theorem ImageKept.obxPump (h : ImageKept s u) : ImageKept s (obxPump u) :=
  .forEach (.offerAll (.same h)) fun hu => .pumpLink hu

/-! ## Kills and resets (R133, R134, R465–R467) -/

protected theorem ImageKept.setSlots (h : ImageKept s u) {c l} : ImageKept s (setSlots u c l) :=
  .setFld (.updClu h) (Nat.le_add_right_of_le (by decide))

protected theorem ImageKept.lyrThreadReset (h : ImageKept s u) {t} : ImageKept s (lyrThreadReset t u) := by
  unfold Machine.lyrThreadReset
  exact .updClu (.setSlots h)

protected theorem ImageKept.killBegin (h : ImageKept s u) {t} : ImageKept s (killBegin t u) :=
  .ite h <| .updTh <| .obxPump <| .threadHolderReset <| .same <| .returnSlots <| .ite (.updTh <|
    .handOff (.setTh (.updCore h))) (.setTh (.updCore h))

protected theorem ImageKept.threadReset (h : ImageKept s u) {zero t} : ImageKept s (threadReset zero t u) :=
  .setTh <| .lyrThreadReset <| .obxPump (.threadHolderReset h)

protected theorem ImageKept.resetTogether (h : ImageKept s u) {l} : ImageKept s (resetTogether l u) :=
  .ite (.forEach h fun hu => .threadReset hu) h

protected theorem ImageKept.coresReset (h : ImageKept s u) {c} : ImageKept s (coresReset c u) :=
  .forEach h fun hu => .updCore hu

protected theorem ImageKept.cluTryAssert (h : ImageKept s u) {c} : ImageKept s (cluTryAssert c u) :=
  .ite (.forEach (.wr <| .bump <| .coresReset <| .updClu <| .setFld (.setSlots h) (Nat.le_add_right_of_le (by decide)))
    fun hu => .threadReset hu) h

protected theorem ImageKept.afterKill (h : ImageKept s u) {t} : ImageKept s (afterKill t u) := by
  unfold Machine.afterKill
  split
  · exact .threadReset h
  · exact .resetTogether h
  · exact .cluTryAssert h
  · exact h

protected theorem ImageKept.killFinish (h : ImageKept s u) {t} : ImageKept s (killFinish t u) :=
  .ite (.afterKill (.updTh h)) h

protected theorem ImageKept.killGroup (h : ImageKept s u) {k l} : ImageKept s (killGroup k l u) :=
  .forEach h fun hu => .ite (.setTh hu) <| .killBegin (.setTh hu)

protected theorem ImageKept.cluKillAll (h : ImageKept s u) {c} : ImageKept s (cluKillAll c u) :=
  .cluTryAssert <| .forEach (.killGroup h) fun hu => .killFinish hu

protected theorem ImageKept.cluResetBegin (h : ImageKept s u) {c} : ImageKept s (cluResetBegin c u) :=
  .ite h <| .ite (.cluKillAll (.setClu h)) <| .requestWake (.setClu h)

end

end Sys2Proof.Machine
end

