-- ==== Sys2Proof/Proofs/LiveImages.lean ====
section
/-! The stage of a live image (R48–R53, R58, R59): what its commands leave of STR_STAGE, of the clusters they hold and of
what is kept for the boundary. -/

namespace Sys2Proof.Machine

section
variable {s u : State} {c : Nat}

/-- What each application of a sequence establishes for its own element, and every other keeps. -/
theorem forEach_establishes {α : Type} (P : α → State → Prop) (l : List α) (f : α → State → State) (s : State)
    (hself : ∀ a ∈ l, ∀ s, P a (f a s)) (hkeep : ∀ a ∈ l, ∀ b ∈ l, ∀ s, P a s → P a (f b s)) :
    ∀ a ∈ l, P a (forEach l f s) := by
  induction l generalizing s with
  | nil => exact fun a ha => absurd ha List.not_mem_nil
  | cons d r ih =>
    intro a ha
    obtain rfl | ha' := List.mem_cons.1 ha
    · exact forEach_keeps (P a) r f _ (fun b hb => hkeep a ha b (List.mem_cons_of_mem a hb)) (hself a ha s)
    · exact ih (f d s) (fun b hb => hself b (List.mem_cons_of_mem d hb))
        (fun b hb e he => hkeep b (List.mem_cons_of_mem d hb) e (List.mem_cons_of_mem d he)) a ha'

/-! ## STR_STAGE -/

theorem stageState_setStage (v : Nat) (s : State) : stageState (setStage v s) = v % 8 :=
  fld_setFld_same s _ _ v (by decide)

/-- The fields of STR_STAGE above its state stay. -/
theorem fld_setStage {f : Fld} (v : Nat) (s : State) (hf : 2 < f.lo) :
    fld (setStage v s) Reg.STR_STAGE f = fld s Reg.STR_STAGE f :=
  fld_setFld_apart s _ _ _ v (by decide) (Or.inr hf)

theorem strProg_ne_stage (c : Nat) : Reg.STR_PROG c ≠ Reg.STR_STAGE := by
  unfold Reg.STR_PROG Reg.STR_STAGE
  omega

theorem strProg_inj {d : Nat} (h : Reg.STR_PROG c = Reg.STR_PROG d) : c = d := by
  unfold Reg.STR_PROG at h
  omega

theorem strProg_lt (hc : c < 24) : Reg.STR_PROG c < 0x30000 := by
  unfold Reg.STR_PROG
  omega

/-- A command ignored and counted (R58, R59) changes the count alone. -/
theorem stageBusy_effect (s : State) : CountsBy s (stageBusy s) Reg.STR_STAGE F.STR_STAGE_busy_cnt 1 ∧
    stageState (stageBusy s) = stageState s ∧ stageBusy s = { s with csr := (stageBusy s).csr } ∧
    RegsKept s (stageBusy s) [Reg.STR_STAGE] :=
  ⟨countsBy_bump (by decide), fld_bump_apart (by decide) (by decide), rfl,
    fun _ ha => rd_bump_ne (List.ne_of_not_mem_cons ha)⟩

/-- The stage has failed with a code, and nothing is kept for the boundary. -/
def StageFailed (u : State) (code : Nat) : Prop :=
  stageState u = 6 ∧ fld u Reg.STR_STAGE F.STR_STAGE_code = code ∧ u.str.seeds = [] ∧ u.str.weights = none

/-- STR_STAGE with the state, the code and the section of a failure. -/
def failShown (b : Bad) (s : State) : State :=
  setFld (setFld (setStage 6 s) Reg.STR_STAGE F.STR_STAGE_code b.1) Reg.STR_STAGE F.STR_STAGE_section b.2

theorem stageFail_eq (b : Bad) (s : State) : stageFail b s =
    { failShown b s with str := { (failShown b s).str with seeds := [], weights := none, progs := [] } } := rfl

theorem stageFail_csr (b : Bad) (s : State) : (stageFail b s).csr = (failShown b s).csr := by rw [stageFail_eq]

theorem stageFail_epc (b : Bad) (s : State) : (stageFail b s).epc = s.epc := by
  obtain ⟨_, _, h⟩ : Counted s (failShown b s) := (((Counted.refl s).setFld _ _ _).setFld _ _ _).setFld _ _ _
  rw [stageFail_eq, h]

theorem stageFailed_stageFail (b : Bad) (s : State) (hb : b.1 < 256) : StageFailed (stageFail b s) b.1 := by
  have hstate : stageState (failShown b s) = 6 := by
    unfold stageState failShown
    rw [fld_setFld_apart _ _ _ _ _ (by decide) (by decide), fld_setFld_apart _ _ _ _ _ (by decide) (by decide)]
    exact stageState_setStage 6 s
  have hcode : fld (failShown b s) Reg.STR_STAGE F.STR_STAGE_code = b.1 := by
    unfold failShown
    rw [fld_setFld_apart _ _ _ _ _ (by decide) (by decide), fld_setFld_same _ _ _ _ (by decide)]
    exact Nat.mod_eq_of_lt hb
  refine ⟨(fld_congr (stageFail_csr b s) _ _).trans hstate, (fld_congr (stageFail_csr b s) _ _).trans hcode, ?_, ?_⟩
  · rw [stageFail_eq]
  · rw [stageFail_eq]

theorem rd_stageFail {a : Nat} {b : Bad} (ha : a ≠ Reg.STR_STAGE) : rd (stageFail b s) a = rd s a := by
  rw [rd_congr (stageFail_csr b s), failShown, rd_setFld_ne _ _ _ ha, rd_setFld_ne _ _ _ ha, setStage,
    rd_setFld_ne _ _ _ ha]

/-! ## Verification (R49, R50) -/

/-- What an accepted verify command leaves: the digest of the bytes read, and their verdict where they can be read. -/
structure VerifyBegun (s u : State) (l : List Byte) : Prop where
  state : stageState u = 1
  hash : u.str.hash = sha384 l
  code : (stageRead s).1 = true → u.str.code = ((partialBad s l).getD (0, 0)).1
  noCode : fld u Reg.STR_STAGE F.STR_STAGE_code = 0
  noDefers : fld u Reg.STR_STAGE F.STR_STAGE_defers = 0
  bytes : BytesKept s u

theorem stageVerify_of_shut (h0 : stageState s ≠ 0) (h5 : stageState s ≠ 5) (h6 : stageState s ≠ 6) :
    stageVerify s = stageBusy s :=
  if_pos fun h => h.elim h0 fun h => h.elim h5 h6

/-- The verdict on the staging buffer, and the state once a free code is drawn for a buffer that cannot be read. -/
def stageVerdict (s : State) : Bad × State :=
  if (stageRead s).1 then ((partialBad s (stageRead s).2).getD (0, 0), s) else freeBad s

theorem stageVerdict_of_read (h : (stageRead s).1 = true) :
    stageVerdict s = ((partialBad s (stageRead s).2).getD (0, 0), s) := if_pos h

theorem bytesKept_stageVerdict (s : State) : BytesKept s (stageVerdict s).2 := by
  unfold stageVerdict
  split
  · exact ⟨rfl, rfl, rfl, rfl⟩
  · exact ⟨rfl, rfl, rfl, rfl⟩

/-- The state once the verdict, the digest and the clusters the image names are kept. -/
def verdictKept (s : State) : State :=
  { (stageVerdict s).2 with str := { StrS.reset with
      code := (stageVerdict s).1.1, section_ := (stageVerdict s).1.2, hash := sha384 (stageRead s).2,
      clusters := if (stageVerdict s).1.1 = 0 then
        ((imgSecs (stageRead s).2).filter (fun e => e.typ == 2)).map (fun e => (e.inst, e.idx)) else [] } }

/-- STR_STAGE as a verification begins. -/
def verifyShown (s : State) : State :=
  setStage 1 (setFld (setFld (setFld s Reg.STR_STAGE F.STR_STAGE_code 0) Reg.STR_STAGE F.STR_STAGE_section 0)
    Reg.STR_STAGE F.STR_STAGE_defers 0)

theorem stageVerify_of_open (h : stageState s = 0 ∨ stageState s = 5 ∨ stageState s = 6) :
    stageVerify s = verifyShown (verdictKept s) :=
  if_neg (not_not.2 h)

theorem counted_verifyShown (s : State) : Counted s (verifyShown s) :=
  ((((Counted.refl s).setFld _ _ _).setFld _ _ _).setFld _ _ _).setFld _ _ _

theorem code_verifyShown (s : State) : fld (verifyShown s) Reg.STR_STAGE F.STR_STAGE_code = 0 := by
  rw [verifyShown, fld_setStage _ _ (by decide), fld_setFld_apart _ _ _ _ _ (by decide) (by decide),
    fld_setFld_apart _ _ _ _ _ (by decide) (by decide), fld_setFld_same _ _ _ _ (by decide), Nat.zero_mod]

theorem defers_verifyShown (s : State) : fld (verifyShown s) Reg.STR_STAGE F.STR_STAGE_defers = 0 := by
  rw [verifyShown, fld_setStage _ _ (by decide), fld_setFld_same _ _ _ _ (by decide), Nat.zero_mod]

theorem verifyBegun_stageVerify (h : stageState s = 0 ∨ stageState s = 5 ∨ stageState s = 6) :
    VerifyBegun s (stageVerify s) (stageRead s).2 := by
  obtain ⟨_, _, hr⟩ := counted_verifyShown (verdictKept s)
  have hstr : (verifyShown (verdictKept s)).str = (verdictKept s).str := by rw [hr]
  have hbytes : BytesKept s (verifyShown (verdictKept s)) := by
    rw [hr]
    exact bytesKept_stageVerdict s
  rw [stageVerify_of_open h]
  exact {
    state := stageState_setStage 1 _
    hash := congrArg StrS.hash hstr
    code := fun hread => (congrArg StrS.code hstr).trans (congrArg (fun b => b.1.1) (stageVerdict_of_read hread))
    noCode := code_verifyShown _
    noDefers := defers_verifyShown _
    bytes := hbytes }

theorem stageVerified_of_ne (h : stageState s ≠ 1) : stageVerified s = s := if_pos h

theorem stageVerified_good (h : stageState s = 1) (hc : s.str.code = 0) : stageVerified s = setStage 2 s := by
  unfold stageVerified
  rw [if_neg (not_not.2 h), if_pos hc]

theorem stageVerified_bad (h : stageState s = 1) (hc : s.str.code ≠ 0) :
    stageVerified s = stageFail (s.str.code, s.str.section_) s := by
  unfold stageVerified
  rw [if_neg (not_not.2 h), if_neg hc]

/-! ## Holding the clusters (R51) -/

/-- A cluster is held in reset for a live load, and STR_PROG shows it. -/
def LiveHeld (s : State) (c : Nat) : Prop := (clu s c).liveHold = true ∧ flag s (Reg.STR_PROG c) F.STR_PROG_held = true

/-- The state once the hold of a cluster is taken, its reset asked for, and its wake. -/
def liveHoldAsked (c : Nat) (s : State) : State :=
  let s1 := cluResetBegin c (updClu s c (fun x => { x with liveHold := true }))
  if (clu s1 c).power = .run then s1 else requestWake false c s1

theorem liveHoldOn_eq (c : Nat) (s : State) :
    liveHoldOn c s = setFld (liveHoldAsked c s) (Reg.STR_PROG c) F.STR_PROG_held 1 := rfl

theorem clu_liveHoldOn (c k : Nat) (s : State) : clu (liveHoldOn c s) k = clu (liveHoldAsked c s) k := by
  rw [liveHoldOn_eq, clu_congr (setFld_clusters _ _ _ _)]

theorem imageKept_liveHoldAsked (c : Nat) (s : State) :
    ImageKept (updClu s c (fun x => { x with liveHold := true })) (liveHoldAsked c s) :=
  have h := (ImageKept.refl (updClu s c fun x => { x with liveHold := true })).cluResetBegin (c := c)
  .ite h (.requestWake h)

theorem flag_setFld_same (s : State) (a : Nat) (f : Fld) (v : Nat) (hf : f.hi < 48) :
    flag (setFld s a f v) a f = (v % 2 ^ f.width != 0) := by
  unfold flag
  rw [fld_setFld_same s a f v hf]

theorem liveHeld_liveHoldOn (c : Nat) (s : State) : LiveHeld (liveHoldOn c s) c := by
  refine ⟨?_, flag_setFld_same _ _ _ 1 (by decide)⟩
  rw [clu_liveHoldOn, (imageKept_liveHoldAsked c s).hold, clu_updClu_same]

/-- The hold of another cluster leaves a cluster held. -/
theorem LiveHeld.liveHoldOn (h : LiveHeld s c) (hc : c < 24) (d : Nat) : LiveHeld (liveHoldOn d s) c := by
  obtain ⟨hold, shown⟩ := h
  by_cases hd : c = d
  · subst hd
    exact liveHeld_liveHoldOn c s
  · have hk := imageKept_liveHoldAsked d s
    refine ⟨?_, ?_⟩
    · rwa [clu_liveHoldOn, hk.hold, clu_updClu_ne _ hd]
    · rw [liveHoldOn_eq, flag, fld_setFld_ne _ _ _ _ fun he => hd (strProg_inj he)]
      exact (hk.flag (strProg_lt hc) _).trans shown

/-- A state whose STR_STAGE is set alone holds the same clusters. -/
theorem LiveHeld.setStage (h : LiveHeld s c) (v : Nat) : LiveHeld (setStage v s) c := by
  obtain ⟨hold, shown⟩ := h
  refine ⟨?_, ?_⟩
  · rwa [Machine.setStage, clu_congr (setFld_clusters _ _ _ _)]
  · rwa [Machine.setStage, flag, fld_setFld_ne _ _ _ _ (strProg_ne_stage c)]

theorem stageArm_of_ne (h : stageState s ≠ 2) : stageArm s = stageBusy s := if_pos h

/-- A named cluster that is not idle fails the stage. -/
theorem stageArm_of_busy (h : stageState s = 2) {e : Nat × Nat} (he : e ∈ s.str.clusters)
    (hi : liveIdle s e.1 = false) : StageFailed (stageArm s) 0x11 := by
  have hsome : (s.str.clusters.find? (fun e => !liveIdle s e.1)).isSome = true :=
    List.find?_isSome.2 ⟨e, he, by rw [hi]; rfl⟩
  obtain ⟨d, hd⟩ := Option.isSome_iff_exists.1 hsome
  unfold stageArm
  rw [if_neg (not_not.2 h), hd]
  exact stageFailed_stageFail (0x11, d.2) s (show 0x11 < 256 by decide)

theorem stageArm_of_idle (h : stageState s = 2) (hi : ∀ e ∈ s.str.clusters, liveIdle s e.1 = true) :
    stageArm s = setStage 3 (forEach s.str.clusters (fun e s => liveHoldOn e.1 s) s) := by
  have hnone : s.str.clusters.find? (fun e => !liveIdle s e.1) = none :=
    List.find?_eq_none.2 fun e he => by rw [hi e he]; decide
  unfold stageArm
  rw [if_neg (not_not.2 h), hnone]

/-- Idle named clusters are all held. -/
theorem liveHeld_stageArm (h : stageState s = 2) (hi : ∀ e ∈ s.str.clusters, e.1 < 24 ∧ liveIdle s e.1 = true) :
    stageState (stageArm s) = 3 ∧ ∀ e ∈ s.str.clusters, LiveHeld (stageArm s) e.1 := by
  rw [stageArm_of_idle h fun e he => (hi e he).2]
  exact ⟨stageState_setStage 3 _, fun e he => (forEach_establishes (fun e u => LiveHeld u e.1) s.str.clusters _ s
    (fun a _ u => liveHeld_liveHoldOn a.1 u) (fun a ha b _ _ hu => hu.liveHoldOn (hi a ha).1 b.1) e he).setStage 3⟩

/-! ## Preload (R51, R52) -/

/-- The programs of the clusters named are not valid. -/
def progsVoid (s : State) : State :=
  forEach s.str.clusters (fun e s => setFld s (Reg.STR_PROG e.1) F.STR_PROG_valid 0) s

/-- STR_PROG shows no valid program in a cluster. -/
def ProgVoid (s : State) (c : Nat) : Prop := flag s (Reg.STR_PROG c) F.STR_PROG_valid = false

theorem progVoid_setFld (c : Nat) (s : State) : ProgVoid (setFld s (Reg.STR_PROG c) F.STR_PROG_valid 0) c :=
  (flag_setFld_same s _ _ 0 (by decide)).trans (by decide)

/-- A program not valid stays so while others are made so. -/
theorem ProgVoid.setFld (h : ProgVoid s c) (d : Nat) : ProgVoid (setFld s (Reg.STR_PROG d) F.STR_PROG_valid 0) c := by
  by_cases hd : c = d
  · subst hd
    exact progVoid_setFld c s
  · unfold ProgVoid flag at h ⊢
    rwa [fld_setFld_ne _ _ _ _ fun he => hd (strProg_inj he)]

theorem progVoid_progsVoid : ∀ e ∈ s.str.clusters, ProgVoid (progsVoid s) e.1 :=
  forEach_establishes (fun (e : Nat × Nat) u => ProgVoid u e.1) s.str.clusters
    (fun e u => setFld u (Reg.STR_PROG e.1) F.STR_PROG_valid 0) s
    (fun a _ u => progVoid_setFld a.1 u) (fun _ _ b _ _ hu => hu.setFld b.1)

theorem ProgVoid.stageFail (h : ProgVoid s c) (b : Bad) : ProgVoid (stageFail b s) c := by
  unfold ProgVoid flag fld at h ⊢
  rwa [rd_stageFail (strProg_ne_stage c)]

/-- The state once the programs of the clusters named are loaded from the image. -/
def progsLoaded (l : List Byte) (s : State) : State :=
  forEach s.str.clusters (fun e s =>
    match secInst l 2 e.1 with
    | some x => setFld (loadProgram e.1 (secBytes l x) s) (Reg.STR_PROG e.1) F.STR_PROG_valid 1
    | none => s) s

theorem loadProgram_mem (c : Nat) (l : List Byte) (s : State) : (loadProgram c l s).mem = s.mem := rfl

theorem loadProgram_epc (c : Nat) (l : List Byte) (s : State) : (loadProgram c l s).epc = s.epc := rfl

/-- Loading programs leaves the physical memory and the epochs alone. -/
theorem progsLoaded_frame (l : List Byte) (s : State) : (progsLoaded l s).mem = s.mem ∧ (progsLoaded l s).epc = s.epc := by
  refine forEach_keeps (fun u => u.mem = s.mem ∧ u.epc = s.epc) _ _ s (fun e _ u hu => ?_) ⟨rfl, rfl⟩
  split
  · rwa [setFld_mem, setFld_epc, loadProgram_mem, loadProgram_epc]
  · exact hu

/-- The state once everything an image brings is staged for the boundary. -/
def imageStaged (l : List Byte) (s : State) : State :=
  { progsLoaded l s with str := { (progsLoaded l s).str with
      seeds := ((imgSecs l).filter (fun e => e.typ == 6)).map (fun e =>
        (e.inst, leAt (secBytes l e) 0 6, leAt (secBytes l e) 6 6))
      weights := if (secOf l 9).isSome then some ((List.range 64).map (fun g => leAt (payOf l 9) g 1)) else none
      progs := ((imgSecs l).filter (fun e => e.typ == 2)).map (fun e => (e.inst, leAt (secBytes l e) 12 4)) } }

theorem stagePreloaded_of_waiting (h : stageState s ≠ 3 ∨ preloadReady s = false) : stagePreloaded s = s := by
  refine if_pos (h.imp_right fun hr => ?_)
  rw [hr]
  rfl

theorem stagePreloaded_ready (h : stageState s = 3) (hr : preloadReady s = true) (hread : (stageRead s).1 = true) :
    stagePreloaded s = if sha384 (stageRead s).2 ≠ s.str.hash then stageFail (0x12, noSec) (progsVoid s)
      else setStage 4 (imageStaged (stageRead s).2 s) := by
  unfold stagePreloaded
  rw [if_neg (by simp [h, hr])]
  dsimp only
  simp only [hread, Bool.not_true, Bool.false_eq_true, false_or]
  rfl

/-- Before a cutoff the end of preload defers no set. -/
theorem epcPreloaded_eq (h : (stagePreloaded s).epc.phase = 0) : epcPreloaded s = stagePreloaded s := by
  refine if_neg ?_
  rintro ⟨-, -, hold, -⟩
  simp [epcHolding, h] at hold

theorem epcPreloaded_of_waiting (hp : s.epc.phase = 0) (h : stageState s ≠ 3 ∨ preloadReady s = false) :
    epcPreloaded s = s := by
  have hs := stagePreloaded_of_waiting h
  exact (epcPreloaded_eq (by rwa [hs])).trans hs

/-- Bytes that are no longer those verified fail the stage, and the programs of the held clusters are not valid. -/
theorem epcPreloaded_changed (hp : s.epc.phase = 0) (h : stageState s = 3) (hr : preloadReady s = true)
    (hread : (stageRead s).1 = true) (hh : sha384 (stageRead s).2 ≠ s.str.hash) :
    epcPreloaded s = stageFail (0x12, noSec) (progsVoid s) := by
  have hs := (stagePreloaded_ready h hr hread).trans (if_pos hh)
  have hepc : (progsVoid s).epc = s.epc := forEach_const (fun u => u.epc) _ _ s fun _ _ _ => setFld_epc _ _ _ _
  refine (epcPreloaded_eq ?_).trans hs
  rwa [hs, stageFail_epc, hepc]

/-- The bytes verified are staged. -/
theorem epcPreloaded_same (hp : s.epc.phase = 0) (h : stageState s = 3) (hr : preloadReady s = true)
    (hread : (stageRead s).1 = true) (hh : sha384 (stageRead s).2 = s.str.hash) :
    epcPreloaded s = setStage 4 (imageStaged (stageRead s).2 s) := by
  have hs := (stagePreloaded_ready h hr hread).trans (if_neg (not_not.2 hh))
  refine (epcPreloaded_eq ?_).trans hs
  rw [hs, setStage, setFld_epc]
  exact (congrArg EpcS.phase (progsLoaded_frame _ s).2).trans hp

/-! ## Giving a stage up (R59) -/

/-- The state once nothing is kept for the boundary; held clusters stay held. -/
def stageGivenUp (s : State) : State := setStage 0 { s with str := { s.str with seeds := [], weights := none, progs := [] } }

theorem stageGivenUp_frame (s : State) : (stageGivenUp s).clusters = s.clusters ∧
    (stageGivenUp s).str = { s.str with seeds := [], weights := none, progs := [] } := by
  unfold stageGivenUp setStage
  rw [setFld_clusters, setFld_str]
  exact ⟨rfl, rfl⟩

theorem stageDisarm_of_shut (h : stageState s = 1 ∨ stageState s = 3) : stageDisarm s = stageBusy s := if_pos h

theorem stageDisarm_of_ready (hp : s.epc.phase = 0) (h : stageState s = 2 ∨ stageState s = 4) :
    stageDisarm s = stageGivenUp s := by
  unfold stageDisarm
  dsimp only
  rw [if_neg (by omega), if_pos (h.imp_right fun h => ⟨h, hp⟩)]
  rfl

theorem stageDisarm_of_none (h : stageState s = 0 ∨ 5 ≤ stageState s) : stageDisarm s = s := by
  unfold stageDisarm
  dsimp only
  rw [if_neg (by omega), if_neg (by omega)]

/-! ## The rows -/

theorem exec_verify (s : State) : exec .verify s = .next (stageVerify s) := rfl
theorem exec_verifyComplete (s : State) : exec .verifyComplete s = .next (stageVerified s) := rfl
theorem exec_arm (s : State) : exec .arm s = .next (stageArm s) := rfl
theorem exec_preloadComplete (s : State) : exec .preloadComplete s = .next (epcPreloaded s) := rfl
theorem exec_disarm (s : State) : exec .disarm s = .next (stageDisarm s) := rfl

end

end Sys2Proof.Machine

open Sys2Proof Sys2Proof.Machine in
/-- Settles O43: each row is its operation on the stage, whose cases are the lemmas above; a cluster once held stays held
while the others' resets begin (`ImageKept.cluResetBegin`). -/
theorem liveImagesStaged : Obligations.LiveImagesStaged := by
  intro s hp
  dsimp only
  rw [exec_verify, exec_verifyComplete, exec_arm, exec_preloadComplete, exec_disarm]
  refine ⟨fun h => ?_, fun h0 h5 h6 => ?_, fun h => ?_, fun h => ⟨fun hc => ?_, fun hc hlt => ?_⟩, fun h => ?_,
    fun h => ⟨fun e he hi => ?_, fun hi => ?_⟩, fun h => ?_, fun h hr hread => ⟨fun hh => ?_, fun hh => ?_⟩,
    fun h => ?_, fun h => ?_, fun h => ?_⟩
  · have hv := verifyBegun_stageVerify h
    exact ⟨_, rfl, hv.state, hv.hash, hv.code, hv.noCode, hv.noDefers, hv.bytes⟩
  · rw [stageVerify_of_shut h0 h5 h6]
    exact ⟨_, rfl, stageBusy_effect s⟩
  · rw [stageVerified_of_ne h]
  · rw [stageVerified_good h hc]
    exact ⟨_, rfl, stageState_setStage 2 s, setFld_str _ _ _ _⟩
  · rw [stageVerified_bad h hc]
    exact ⟨_, rfl, stageFailed_stageFail (s.str.code, s.str.section_) s hlt⟩
  · rw [stageArm_of_ne h]
    exact ⟨_, rfl, stageBusy_effect s⟩
  · exact ⟨_, rfl, stageArm_of_busy h he hi⟩
  · exact ⟨_, rfl, liveHeld_stageArm h hi⟩
  · rw [epcPreloaded_of_waiting hp h]
  · rw [epcPreloaded_changed hp h hr hread hh]
    exact ⟨_, rfl, stageFailed_stageFail (0x12, noSec) (progsVoid s) (by decide),
      fun e he _ => (progVoid_progsVoid e he).stageFail _⟩
  · rw [epcPreloaded_same hp h hr hread hh]
    exact ⟨_, rfl, stageState_setStage 4 _, (progsLoaded_frame _ s).1, rfl, List.map_map⟩
  · rw [stageDisarm_of_shut h]
    exact ⟨_, rfl, stageBusy_effect s⟩
  · rw [stageDisarm_of_ready hp h]
    exact ⟨_, rfl, stageState_setStage 0 _, stageGivenUp_frame s⟩
  · rw [stageDisarm_of_none h]
end

