-- ==== Sys2Proof/Proofs/CoreControl.lean ====
section
/-! Branches, repeats, DOZE, EXIT, traps and interrupts (R109–R130, R135): an instruction of a settled thread as its body
run from the state of its issue, entry to a handler, and what each instruction's body leaves. -/

namespace Sys2Proof.Machine

/-! ## The state an instruction's body starts from -/

/-- The state of a settled thread's issue, from which the instruction's body runs. -/
def begun (s : State) (t : Nat) : State := setTh (issued s t) t (th (issued s t) t)

section
variable {s : State} {t : Nat} {w : Word}

@[simp] theorem th_begun : th (begun s t) t = th (issued s t) t := th_setTh_same _ _ _

@[simp] theorem settled_begun : settled (begun s t) t = settled s t := settled_refl.trans (settled_issued s t)

@[simp] theorem regVal_begun (r : Nat) : regVal (begun s t) t r = regVal s t r :=
  (regVal_setTh_self r).trans (issued_regVal s t r)

@[simp] theorem setTh_begun (x : Thread) : setTh (begun s t) t x = setTh (issued s t) t x := setTh_setTh _ _ _ _

theorem ran_eq (f : Thread → Thread) : ran s t f = setTh (begun s t) t (f (th (begun s t) t)) := by
  rw [setTh_begun, th_begun, ran]

/-- Issue changes of its thread only whether the checker looks at the instruction. -/
theorem issued_thread {α : Type} (f : Thread → α) (hf : ∀ x b, f { x with checked := b } = f x := by intros; rfl) :
    f (th (issued s t) t) = f (th s t) := by
  obtain ⟨b, hb⟩ := th_issued s t
  rw [hb, hf]

@[simp] theorem issued_pc : (th (issued s t) t).pc = (th s t).pc := issued_thread (·.pc)
@[simp] theorem issued_tcsr : (th (issued s t) t).csr = (th s t).csr := issued_thread (·.csr)
@[simp] theorem issued_rep : (th (issued s t) t).rep = (th s t).rep := issued_thread (·.rep)
@[simp] theorem issued_hist : (th (issued s t) t).hist = (th s t).hist := issued_thread (·.hist)
@[simp] theorem issued_instret : (th (issued s t) t).instret = (th s t).instret := issued_thread (·.instret)
@[simp] theorem issued_p : (th (issued s t) t).p = (th s t).p := issued_thread (·.p)
@[simp] theorem issued_g : (th (issued s t) t).g = (th s t).g := issued_thread (·.g)
@[simp] theorem issued_tok : (th (issued s t) t).tok = (th s t).tok := issued_thread (·.tok)
@[simp] theorem issued_state : (th (issued s t) t).state = (th s t).state := issued_thread (·.state)
@[simp] theorem issued_pkt : (th (issued s t) t).pkt = (th s t).pkt := issued_thread (·.pkt)
@[simp] theorem issued_wake : (th (issued s t) t).wake = (th s t).wake := issued_thread (·.wake)

theorem bitsN_low (n hi : Nat) : bitsN n hi 0 = n % 2 ^ (hi + 1) := by rw [bitsN, Nat.shiftRight_zero, Nat.sub_zero]

theorem newt_of_mem {l : List Nat} {f : State → State} (ht : t < 3072) (ho : iOpcode w ∈ l) :
    newt l t w f s = .next (f s) := if_pos ⟨ht, ho⟩

/-- A settled thread's instruction, well formed, guarded on and within its privilege, runs its body from its issue. -/
theorem newt_settled {l : List Nat} {undef priv : State → Bool} {a : Acc} {body : State → State}
    (h : settled s t = true) (hg : guardOn s t w = true) (ho : iOpcode w ∈ l) (hu : undef s = false)
    (hp : priv s = false) :
    newt l t w (fun s => issue s t w (undef s) (priv s) a body) s = .next (body (begun s t)) := by
  rw [newt_of_mem (settled_lt h) ho, hu, hp, settled_issue h hg, begun]

/-! ## Register writes -/

/-- A thread stands far enough from all it has written (R77), and no operation is to write a register of it. -/
structure Met (s : State) (t : Nat) : Prop where
  hist : (th s t).hist.all Haz.met = true
  ops : ∀ o ∈ s.ops, mayWrite t o = false

theorem Met.of_settled (h : settled s t = true) : Met s t := ⟨settled_met h, settled_ops h⟩

theorem met_of_any (hm : (th s t).hist.all Haz.met = true) (hops : s.ops.any (mayWrite t) = false) : Met s t :=
  ⟨hm, fun o ho => by simpa using List.any_eq_false.1 hops o ho⟩

theorem Met.updTh (h : Met s t) {f : Thread → Thread} (hf : (f (th s t)).hist = (th s t).hist) : Met (updTh s t f) t :=
  ⟨by rw [th_updTh_same, hf]; exact h.hist, h.ops⟩

theorem Met.issued (h : Met s t) : Met (issued s t) t :=
  ⟨by rw [issued_hist]; exact h.hist, by rw [issued_ops]; exact h.ops⟩

theorem Met.begun (h : Met s t) : Met (begun s t) t := h.issued.updTh (f := fun _ => th (Machine.issued s t) t) rfl

theorem Met.not_dest (h : Met s t) {k : Nat} (hk : k ≠ 0) {o : AsyncOp} (ho : o ∈ s.ops) :
    (o.thread == t && o.dest == k && !o.dead && !o.late) = false := by
  have hw := h.ops o ho
  unfold mayWrite at hw
  by_cases hd : o.dest = k
  · subst hd
    have hb : (o.dest != 0) = true := by simpa using hk
    rw [hb, Bool.and_true] at hw
    simpa using hw
  · simp [hd]

/-- The write is one of its repeat's, if one is in progress. -/
theorem Met.writeG (h : Met s t) {r : Nat} (hr : r ≠ 0) (v : Word) (need : Nat) :
    writeG s t r v need = setTh s t { th s t with
      g := Tab.set 0 (th s t).g r v
      hist := { kind := .g, key := r, need := need, age := 0, rep := (th s t).rep.isSome,
                before := Tab.get 0 (th s t).g r, after := v, pc := (th s t).pc } :: (th s t).hist } := by
  have hops : s.ops.map (fun o => if o.thread == t && o.dest == r && !o.dead && !o.late then
      { o with clobber := v :: o.clobber } else o) = s.ops := by
    refine (List.map_congr_left fun o ho => ?_).trans (List.map_id _)
    rw [h.not_dest hr ho]
    rfl
  unfold Machine.writeG
  simp only [hr, if_false, unmet_of_met _ _ _ h.hist, List.isEmpty_nil, Bool.not_true, Bool.false_eq_true, updTh_ops, hops]
  rfl

/-- A write and the commit at `npc`, of a thread that repeats nothing. -/
theorem Met.finish_writeG (h : Met s t) (hr : (th s t).rep = none) (r : Nat) (v : Word) (need npc : Nat) :
    finish (Machine.writeG s t r v need) t npc = setTh s t (wentTo (wroteG (th s t) r v need) npc) := by
  by_cases h0 : r = 0
  · rw [finish_norep (by simp [Machine.writeG, h0, hr])]
    simp [Machine.writeG, wroteG, h0]
  · rw [h.writeG h0, finish_norep (by simp [hr])]
    simp [wroteG, h0, hr]

theorem Met.finishSeq_writeG (h : Met s t) (hr : (th s t).rep = none) (r : Nat) (v : Word) (need : Nat) :
    finishSeq (Machine.writeG s t r v need) t = setTh s t (advanced (wroteG (th s t) r v need)) := by
  have hpc : (th (Machine.writeG s t r v need) t).pc = (wroteG (th s t) r v need).pc := by
    by_cases h0 : r = 0
    · simp [Machine.writeG, wroteG, h0]
    · rw [h.writeG h0, th_setTh_same]
      simp [wroteG, h0]
  rw [finishSeq, h.finish_writeG hr, hpc, advanced]

/-! ## Entry to a handler (R124) -/

theorem enterHandler_of_th (h : getF (th s t).csr.tstat TS.th = 0) (c detail : Nat) (v : Word) (r : Nat) :
    enterHandler s t c detail v r = setTh s t (entered (th s t) c detail v r) := by
  unfold enterHandler
  simp only [h, Nat.zero_ne_one, if_false]
  rfl

/-- A trap of an instruction that has issued, at its body or before. -/
theorem trapEnter_issued (h : getF (th s t).csr.tstat TS.th = 0) (c detail : Nat) (v : Word) (r : Nat) :
    trapEnter (issued s t) t c detail v r = trapped s t c detail v r :=
  enterHandler_of_th (s := squashed (issued s t) t 6 3) (by
    show getF (th (issued s t) t).csr.tstat TS.th = 0
    rw [issued_tcsr, h]) c detail v r

theorem trapEnter_begun (h : getF (th s t).csr.tstat TS.th = 0) (c detail : Nat) (v : Word) (r : Nat) :
    trapEnter (begun s t) t c detail v r = trapped s t c detail v r := by
  have hth : th (squashed (begun s t) t 6 3) t = th (issued s t) t := th_begun
  unfold trapEnter
  rw [enterHandler_of_th (by rw [hth, issued_tcsr, h]), hth]
  exact setTh_setTh (squashed (issued s t) t 6 3) t _ _

theorem trapAt_begun (h : getF (th s t).csr.tstat TS.th = 0) (c detail : Nat) (v : Word) :
    trapAt (begun s t) t c detail v = trapped s t c detail v (th s t).pc := by
  rw [trapAt, trapEnter_begun h, th_begun, issued_pc]

end

/-! ## Branches (R109) -/

theorem iSimm21_eq (w : Word) : iSimm21 w = (w.extractLsb' 0 21).signExtend 48 := by
  have hfn : iFn w = (w.extractLsb' 0 21).toNat := by simp [iFn, bitsN]
  have hlt : iFn w % 2 ^ 21 = iFn w := Nat.mod_eq_of_lt (hfn ▸ (w.extractLsb' 0 21).isLt)
  unfold iSimm21 BitVec.signExtend sextN
  rw [BitVec.toInt_eq_toNat_cond, hlt, ← hfn]
  congr 1
  split <;> split <;> omega

section
variable {s : State} {t : Nat} {w : Word}

theorem goodPc_iff (n : Nat) : goodPc n = true ↔ n % 6 = 0 ∧ n < 262140 := by simp [goodPc]

theorem brTarget_begun : brTarget (begun s t) t w = (th s t).pc + 6 * ((w.extractLsb' 0 21).signExtend 48).toInt := by
  rw [brTarget, th_begun, issued_pc, iSimm21_eq]

theorem brOk_natCast {n : Nat} (h6 : n % 6 = 0) (hn : n < 262140) : brOk n = true := by
  simp [brOk, goodPc_iff, h6, hn]

theorem brOk_eq_false {x : Int} (h : ∀ n : Nat, x = n → n % 6 = 0 → 262140 ≤ n) : brOk x = false := by
  rw [Bool.eq_false_iff]
  intro hx
  obtain ⟨h0, hgood⟩ : 0 ≤ x ∧ goodPc x.toNat = true := by simpa [brOk] using hx
  obtain ⟨h6, hlt⟩ := (goodPc_iff _).1 hgood
  exact absurd hlt (not_lt.2 (h x.toNat (Int.toNat_of_nonneg h0).symm h6))

theorem exec_br (h : settled s t = true) (hg : guardOn s t w = true) (ho : iOpcode w = 0xA0) (hd : iD w = 0)
    (ha : iA w = 0) (hb : iB w = 0) : exec (.br t w) s = .next (
      let n := brTarget (begun s t) t w
      if brOk n then finish (begun s t) t n.toNat else trapPcRange (begun s t) t (BitVec.ofInt 48 n)) := by
  show execBr t w s = _
  unfold execBr
  exact newt_settled h hg (by simp [ho]) (by simp [hd, ha, hb]) rfl

theorem exec_call (h : settled s t = true) (hg : guardOn s t w = true) (ho : iOpcode w = 0xA1) (ha : iA w = 0)
    (hb : iB w = 0) : exec (.call t w) s = .next (
      let n := brTarget (begun s t) t w
      if brOk n then finish (writeG (begun s t) t (iD w) (toW ((th (begun s t) t).pc + 6)) 2) t n.toNat
      else trapPcRange (begun s t) t (BitVec.ofInt 48 n)) := by
  show execCall t w s = _
  unfold execCall
  exact newt_settled h hg (by simp [ho]) (by simp [ha, hb]) rfl

theorem exec_jmpr (h : settled s t = true) (hg : guardOn s t w = true) (ho : iOpcode w = 0xA2) (hb : iB w = 0)
    (hf : iFn w = 0) : exec (.jmpr t w) s = .next (
      let a := regVal s t (iA w)
      if goodPc a.toNat then finish (writeG (begun s t) t (iD w) (toW ((th (begun s t) t).pc + 6)) 2) t a.toNat
      else trapPcRange (begun s t) t a) := by
  show execJmpr t w s = _
  unfold execJmpr
  refine (newt_settled h hg (by simp [ho]) (by simp [hb, hf]) rfl).trans ?_
  rw [settled_readG (settled_begun.trans h), regVal_begun]

/-- The link register and the branch. -/
theorem finish_link (h : settled s t = true) (npc : Nat) :
    finish (writeG (begun s t) t (iD w) (toW ((th (begun s t) t).pc + 6)) 2) t npc =
      ran s t (fun x => wentTo (wroteG x (iD w) (BitVec.ofNat 48 (x.pc + 6)) 2) npc) := by
  rw [(Met.of_settled h).begun.finish_writeG (settled_rep (settled_begun.trans h)), ran_eq, toW]

theorem finish_begun (h : settled s t = true) (npc : Nat) : finish (begun s t) t npc = ran s t (wentTo · npc) := by
  rw [finish_norep (settled_rep (settled_begun.trans h)), ran_eq]

theorem trapPcRange_begun (h : getF (th s t).csr.tstat TS.th = 0) (v : Word) :
    trapPcRange (begun s t) t v = trapped s t 0x0C 0 v (th s t).pc := trapAt_begun h _ _ _


/-! ## Repeats (R113–R115) -/

/-- A settled thread's instruction whose count may be out of range (`cnt`): it traps before the body. -/
theorem settled_issue_count (h : settled s t = true) (hg : guardOn s t w = true) (a : Acc) (body : State → State)
    (cnt : State → Option (Nat × Word)) : issue s t w false false a body (cnt := cnt) =
      (cnt (issued s t)).elim (body (begun s t)) (fun e => trapRepeat (issued s t) t e.1 e.2) := by
  have h1 : settled (issued s t) t = true := (settled_issued s t).trans h
  unfold issue begun
  rw [settled_ready h]
  generalize hi : issued s t = i at h1 ⊢
  have hon : Bool.xor (predVal i t (iGuardP w)) (iNeg w) = true := by rw [← hi, issued_predVal]; exact hg
  have hfresh : repFresh (th i t) = false := by unfold repFresh; rw [settled_rep h1]; rfl
  have hword : updTh i t (fun x => { x with rep := x.rep.map (fun r => { r with word := some w }) }) =
      setTh i t (th i t) := updTh_const (s := i) _ (rep_map_none _ (settled_rep h1) _)
  simp only [settled_newest h1, settled_readP h1, hon, hfresh, hword, Option.map_none, ite_self, Bool.and_false,
    Bool.false_and, Bool.not_true, Bool.false_eq_true, if_false, if_true]
  cases cnt i with
  | none => simp only [settled_distCheck (settled_refl.trans h1), ite_self, Option.elim_none]
  | some e => rfl

/-- The count that a REPI or REPN names: its function field, or the low bits of g[a] (R113). -/
def CountNamed (s : State) (t : Nat) (w : Word) (n : Nat) : Prop :=
  (iFn w = n ∧ n < 2 ^ 16 ∧ iA w = 0) ∨ (iFn w = 2 ^ 20 ∧ n = (regVal s t (iA w)).toNat % 2 ^ 16)

theorem repUndef_of_named {n : Nat} (hd : iD w = 0) (hb : iB w = 0) (hn : CountNamed s t w n) : repUndef w = false := by
  obtain ⟨hf, hlt, ha⟩ | ⟨hf, -⟩ := hn
  · rw [← hf] at hlt
    have h20 : (iFn w).testBit 20 = false := Nat.testBit_lt_two_pow (by omega)
    have hbits : bitsN (iFn w) 19 16 = 0 := by
      rw [bitsN, Nat.shiftRight_eq_div_pow, Nat.div_eq_of_lt (by omega), Nat.zero_mod]
    simp [repUndef, hd, hb, ha, h20, hbits]
  · have h20 : (iFn w).testBit 20 = true := by rw [hf]; decide
    rw [repUndef, h20, hf, hd, hb]
    rfl

theorem repCount_of_named {n : Nat} (h : settled s t = true) (hn : CountNamed s t w n) : repCount t w s = (n, s) := by
  obtain ⟨rfl, hlt, -⟩ | ⟨hf, rfl⟩ := hn
  · have h20 : (iFn w).testBit 20 = false := Nat.testBit_lt_two_pow (by omega)
    simp only [repCount, h20, Bool.false_eq_true, if_false, bitsN, toW, BitVec.toNat_ofNat, Nat.shiftRight_zero]
    congr 1
    omega
  · have h20 : (iFn w).testBit 20 = true := by rw [hf]; decide
    simp only [repCount, h20, if_true, settled_readG h, bitsN, Nat.shiftRight_zero]

theorem CountNamed.issued {n : Nat} (hn : CountNamed s t w n) : CountNamed (issued s t) t w n := by
  unfold CountNamed
  rwa [issued_regVal]

theorem CountNamed.begun {n : Nat} (hn : CountNamed s t w n) : CountNamed (begun s t) t w n := by
  unfold CountNamed
  rwa [regVal_begun]

theorem repPrefix_eq {n most : Nat} {noInt : Bool} (h : settled s t = true) (hg : guardOn s t w = true) (hd : iD w = 0)
    (hb : iB w = 0) (hn : CountNamed s t w n) : repPrefix t w noInt most s =
      (repBad most n).elim (repStart (begun s t) t noInt n) (fun e => trapRepeat (issued s t) t e.1 e.2) := by
  unfold repPrefix
  rw [repUndef_of_named hd hb hn, settled_issue_count h hg, repCount_of_named ((settled_issued s t).trans h) hn.issued,
    repCount_of_named (settled_begun.trans h) hn.begun]

theorem trapRepeat_issued (h : getF (th s t).csr.tstat TS.th = 0) (detail : Nat) (v : Word) :
    trapRepeat (issued s t) t detail v = trapped s t 0x0B detail v (th s t).pc := by
  rw [trapRepeat, trapAt, trapEnter_issued h, issued_pc]

/-- What a REPI or REPN does, by its count: `most` is the largest it takes. -/
theorem repPrefix_cases {n most : Nat} {noInt : Bool} (h : settled s t = true) (hg : guardOn s t w = true)
    (hd : iD w = 0) (hb : iB w = 0) (hn : CountNamed s t w n) :
    (1 ≤ n → n ≤ most → repPrefix t w noInt most s = ran s t (fun x => { x with
      instret := x.instret + 1, pc := x.pc + 6,
      rep := some { noInt := noInt, left := n, word := none, fresh := true } })) ∧
    (getF (th s t).csr.tstat TS.th = 0 → n = 0 → repPrefix t w noInt most s = trapped s t 0x0B 1 0 (th s t).pc) ∧
    (getF (th s t).csr.tstat TS.th = 0 → most < n →
      repPrefix t w noInt most s = trapped s t 0x0B 2 (BitVec.ofNat 48 n) (th s t).pc) := by
  rw [repPrefix_eq h hg hd hb hn]
  refine ⟨fun h1 hle => ?_, fun hth h0 => ?_, fun hth hlt => ?_⟩
  · rw [repBad, if_neg (by omega), if_neg (by omega), ran_eq]
    rfl
  · rw [repBad, if_pos h0]
    exact trapRepeat_issued hth 1 0
  · rw [repBad, if_neg (by omega), if_pos hlt]
    exact trapRepeat_issued hth 2 (toW n)

end

/-! ### Iterations -/

section
variable {s : State} {t : Nat} {w : Word} {r : Rep}

theorem Met.newestUnmet (h : Met s t) (k : HazKind) (key : Nat) : newestUnmet s t k key = none := by
  rw [Machine.newestUnmet, unmet_of_met _ _ _ h.hist]
  rfl

theorem Met.readHaz (h : Met s t) (k : HazKind) (key : Nat) (v : Word) : readHaz s t k key v = (v, s) := by
  rw [Machine.readHaz, unmet_of_met _ _ _ h.hist]
  rfl

theorem Met.readG (h : Met s t) (k : Nat) : readG s t k = (regVal s t k, s) := by
  unfold Machine.readG regVal
  by_cases hk : k = 0
  · simp [hk]
  · have hp : pendingDest s t k = false := by
      rw [pendingDest, Bool.and_eq_false_iff, List.any_eq_false]
      exact .inr fun o ho => by simpa using h.not_dest hk ho
    simp only [hk, if_false, hp, Bool.false_eq_true, h.readHaz]

theorem Met.readP (h : Met s t) (i : Nat) : readP s t i = (predVal s t i, s) := by
  unfold Machine.readP predVal
  by_cases hi : i = 0
  · simp [hi]
  · rw [if_neg hi, h.readHaz]
    cases hb : (th s t).p.testBit i <;> simp [hi, b2n, toW]

theorem Met.pendingOp (h : Met s t) (k : Nat) : pendingOp s t k = none := by
  rw [Machine.pendingOp, List.find?_eq_none]
  intro o ho
  by_cases hk : k = 0
  · simp [hk]
  · have hw := h.not_dest hk ho
    simp_all

theorem Met.distCheck (h : Met s t) (a : Acc) : distCheck s t a = none := by
  simp [Machine.distCheck, h.newestUnmet, h.pendingOp, List.findSome?_eq_none_iff]

/-- An iteration of a repeat that may be repeated, well formed, guarded on and within its privilege, runs its body. -/
theorem Met.issue (h : Met s t) (hready : ready s t = true) (hg : guardOn s t w = true) (hr : (th s t).rep = some r)
    (hw : r.word = some w) (hrep : noRepeat (iOpcode w) = false) (a : Acc) (body : State → State) :
    issue s t w false false a body = body (Machine.begun s t) := by
  have hi := h.issued
  have hb := h.begun
  have hri : (th (Machine.issued s t) t).rep = some r := issued_rep.trans hr
  have hgi : Bool.xor (predVal (Machine.issued s t) t (iGuardP w)) (iNeg w) = true := by rw [issued_predVal]; exact hg
  have hword : Machine.updTh (Machine.issued s t) t
      (fun x => { x with rep := x.rep.map (fun r => { r with word := some w }) }) =
      Machine.begun s t := by
    refine updTh_const (s := Machine.issued s t) _ ?_
    rw [hri, Option.map_some, ← hw, ← hri]
  unfold Machine.issue
  simp only [hready, hi.newestUnmet, hi.readP, hgi, hrep, hword, hb.distCheck, Option.map_none, ite_self, Bool.and_false,
    Bool.not_true, Bool.false_eq_true, if_false]

/-- The commit of an iteration of repeat `r`: it is counted off, and the last one goes on behind the word (R115). -/
def iterated (x : Thread) (r : Rep) : Thread :=
  { x with
    instret := x.instret + 1, lyrRun := lyrRunAfter x
    hist := if r.left ≤ 1 then (ageHist x.hist).map (fun e => { e with rep := false }) else ageHist x.hist
    pc := if r.left ≤ 1 then x.pc + 6 else x.pc
    rep := if r.left ≤ 1 then none else some { r with left := r.left - 1 } }

theorem finishSeq_of_rep (hr : (th s t).rep = some r) : finishSeq s t = setTh s t (iterated (th s t) r) := by
  unfold finishSeq finish updTh iterated
  simp only [hr]
  split <;> simp_all

theorem exec_repeatIteration (ht : t < 3072) (hr : (th s t).rep = some r) (hw : r.word = some w)
    {f : Nat → Word → State → Out} (hf : runOp (iOpcode w) = some f) : exec (.repeatIteration t) s = f t w s := by
  show execRepeatIteration t s = _
  unfold execRepeatIteration
  rw [if_neg (not_le.2 ht), hr]
  dsimp only
  rw [hw]
  dsimp only
  rw [hf]

/-- A register write of an iteration, and its commit. -/
theorem Met.iterate_writeG (h : Met s t) (hr : (th s t).rep = some r) (d : Nat) (v : Word) (need : Nat) :
    ∃ x, finishSeq (Machine.writeG s t d v need) t = setTh s t x ∧
      (∀ u k, regVal (setTh u t x) t k = if k = d ∧ k ≠ 0 then v else regVal s t k) ∧
      x.rep = (if r.left ≤ 1 then none else some { r with left := r.left - 1 }) ∧
      x.pc = (if r.left ≤ 1 then (th s t).pc + 6 else (th s t).pc) ∧ x.instret = (th s t).instret + 1 ∧
      x.p = (th s t).p ∧ x.csr = (th s t).csr ∧ x.tok = (th s t).tok := by
  by_cases hd : d = 0
  · subst hd
    rw [show Machine.writeG s t 0 v need = s from rfl, finishSeq_of_rep hr]
    refine ⟨_, rfl, fun u k => ?_, rfl, rfl, rfl, rfl, rfl, rfl⟩
    rw [if_neg (by omega), regVal, th_setTh_same]
    rfl
  · rw [h.writeG hd, finishSeq_of_rep (r := r) (by rw [th_setTh_same]; exact hr), setTh_setTh,
      th_setTh_same]
    refine ⟨_, rfl, fun u k => ?_, rfl, rfl, rfl, rfl, rfl, rfl⟩
    rw [regVal, th_setTh_same]
    by_cases hk : k = 0
    · simp [hk, regVal]
    · simp [hk, iterated, Tab.get_set, regVal]

end
end Sys2Proof.Machine

open Sys2Proof Sys2Proof.Machine in
/-- Settles O11: a lawful target commits there, any other traps before the link register is written (`finish_link`,
`trapPcRange_begun`). -/
theorem branchesGo : Obligations.BranchesGo := by
  unfold Obligations.BranchesGo
  intro s t w h hg
  dsimp only
  refine ⟨fun n hn h6 hlt => ⟨fun ho hd ha hb => ?_, fun ho ha hb => ?_⟩, fun h6 hlt ho hb hf => ?_,
    fun hth => ⟨fun hbad => ⟨fun ho hd ha hb => ?_, fun ho ha hb => ?_⟩, fun hbad ho hb hf => ?_⟩⟩
  · rw [exec_br h hg ho hd ha hb, brTarget_begun, hn]
    simp only [brOk_natCast h6 hlt, if_true, finish_begun h]
    rfl
  · rw [exec_call h hg ho ha hb, brTarget_begun, hn]
    simp only [brOk_natCast h6 hlt, if_true, finish_link h]
    rfl
  · rw [exec_jmpr h hg ho hb hf]
    simp only [(goodPc_iff _).2 ⟨h6, hlt⟩, if_true, finish_link h]
  · rw [exec_br h hg ho hd ha hb, brTarget_begun]
    simp only [brOk_eq_false hbad, Bool.false_eq_true, if_false, trapPcRange_begun hth]
  · rw [exec_call h hg ho ha hb, brTarget_begun]
    simp only [brOk_eq_false hbad, Bool.false_eq_true, if_false, trapPcRange_begun hth]
  · rw [exec_jmpr h hg ho hb hf]
    have hgood : goodPc (regVal s t (iA w)).toNat = false := by
      rw [Bool.eq_false_iff, Ne, goodPc_iff]
      omega
    simp only [hgood, Bool.false_eq_true, if_false, trapPcRange_begun hth]

open Sys2Proof Sys2Proof.Machine in
/-- Settles O12: REPI and REPN by their count (`repPrefix_cases`); an iteration is the instruction itself, whose commit counts it
off (`Met.iterate_writeG`). -/
theorem repeats : Obligations.Repeats := by
  unfold Obligations.Repeats
  refine ⟨fun s t w n h hg hd hb hn r hr ho => ?_, fun s t r w ht hready hr hw => ⟨fun ho => ?_, fun ho => ?_,
    fun ho hf hg hm hops => ?_⟩⟩
  · have hexec : exec (r.1 t w) s = .next (repPrefix t w r.2.2.1 r.2.2.2 s) := by
      obtain rfl | rfl : r = (.repi, 0xA8, false, 65535) ∨ r = (.repn, 0xA9, true, 256) := by simpa using hr
      · exact newt_of_mem (settled_lt h) (List.mem_singleton.2 ho)
      · exact newt_of_mem (settled_lt h) (List.mem_singleton.2 ho)
    obtain ⟨hrun, hzero, hmost⟩ := repPrefix_cases (noInt := r.2.2.1) (most := r.2.2.2) h hg hd hb hn
    exact ⟨fun h1 hle => by rw [hexec, hrun h1 hle], fun hth h0 => by rw [hexec, hzero hth h0],
      fun hth hlt => by rw [hexec, hmost hth hlt]⟩
  · exact exec_repeatIteration ht hr hw (by rw [ho]; rfl)
  · exact exec_repeatIteration ht hr hw (by rw [ho]; rfl)
  · have hmet : Met s t := met_of_any hm hops
    have himm : isImm w = false := by simp [isImm, ho]
    have hundef : aluUndef w = false := by simp [aluUndef, himm, hf]
    have hadd : exec (.repeatIteration t) s = .next (finishSeq (writeG (begun s t) t (iD w)
        (regVal s t (iA w) + regVal s t (iB w)) 2) t) := by
      rw [exec_repeatIteration ht hr hw (f := execAdd) (by rw [ho]; rfl)]
      unfold execAdd alu2
      rw [newt_of_mem ht (by simp [ho]), hundef, hmet.issue hready hg hr hw (by rw [ho]; rfl)]
      simp only [hmet.begun.readG, aluB, himm, Bool.false_eq_true, if_false, regVal_begun]
    obtain ⟨x, hx, hreg, hrest⟩ := hmet.begun.iterate_writeG (r := r) (by rw [th_begun, issued_rep, hr]) (iD w)
      (regVal s t (iA w) + regVal s t (iB w)) 2
    rw [hadd, hx, setTh_begun]
    refine ⟨x, rfl, fun k => ?_, ?_⟩
    · rw [hreg, regVal_begun]
    · simpa using hrest

namespace Sys2Proof.Machine

section
variable {s : State} {t : Nat} {w : Word}

/-! ## DOZE and EXIT (R128, R130) -/

theorem exec_doze (h : settled s t = true) (hg : guardOn s t w = true) (ho : iOpcode w = 0xB0) (hb : iB w = 0)
    (hf : iFn w = 0) : exec (.doze t w) s = .next (
      if (th s t).wake then
        finishSeq (writeG (updTh (begun s t) t (fun x => { x with wake := false })) t (iD w) 0 2) t
      else updTh (begun s t) t (fun x => { x with
        wait := .doze (iD w) (bitsN (regVal s t (iA w)).toNat 15 0) x.pc })) := by
  show execDoze t w s = _
  unfold execDoze
  refine (newt_settled h hg (by simp [ho]) (by simp [hb, hf]) rfl).trans ?_
  simp only [settled_readG (settled_begun.trans h), regVal_begun, th_begun, issued_wake]

/-- The end of a DOZE writes its destination and goes on, of a thread that repeats nothing. -/
theorem dozeEnd_of_met (hm : Met s t) (hr : (th s t).rep = none) (d : Nat) (v : Word) :
    dozeEnd s t d v = setTh s t (advanced (wroteG { th s t with wait := .none } d v 2)) := by
  rw [dozeEnd, (hm.updTh (f := fun x => { x with wait := .none }) rfl).finishSeq_writeG (by rw [th_updTh_same]; exact hr),
    setTh_updTh, th_updTh_same]

theorem exec_dozeTimeout {d limit pc : Nat} (ht : t < 3072) (hw : (th s t).wait = .doze d limit pc) :
    exec (.dozeTimeout t) s = .next (if limit = 0 then s else dozeEnd s t d 1) := by
  show execDozeTimeout t s = _
  unfold execDozeTimeout
  rw [if_neg (not_le.2 ht), hw]

theorem onThread_of_lt (ht : t < 3072) (f : State → State) : onThread t f s = .next (f s) := if_pos ht

theorem exec_wake (ht : t < 3072) : exec (.wake t) s = .next (cmdWake t s) := onThread_of_lt ht _

/-- A thread is neither KILLED nor in RESET. -/
def Live (x : Thread) : Prop := x.state ≠ .killed ∧ x.state ≠ .reset

theorem Live.not_dead {x : Thread} (h : Live x) : ¬(x.state = .killed ∨ x.state = .reset) := not_or.2 h

theorem cmdWake_live (h : Live (th s t)) : cmdWake t s = wakeThread s t := if_neg h.not_dead

/-- A wake ends the DOZE of a thread that is not held (R129). -/
theorem wakeThread_of_doze {d limit pc : Nat} (hl : Live (th s t))
    (hd : (th s t).state ≠ .double) (hh : (th s t).state ≠ .halted) (hw : (th s t).wait = .doze d limit pc) :
    wakeThread s t = dozeEnd (updTh s t (fun x => { x with wake := false })) t d 0 := by
  unfold wakeThread
  dsimp only
  split
  · exact absurd ‹_› hl.1
  · exact absurd ‹_› hl.2
  · exact absurd ‹_› hd
  · exact absurd ‹_› hh
  · split
    · next hw' =>
      obtain ⟨rfl, -⟩ := Wait.doze.inj (hw'.symm.trans hw)
      rfl
    · next hno => exact absurd hw (hno _ _ _)

theorem takeNext_of_empty (h0 : ∀ d, (th s t).slot0 ≠ .full d) (h1 : ∀ d, (th s t).slot1 ≠ .full d) :
    takeNext s t = s := by
  have hslot : ∀ k d, slotOf (th s t) k ≠ .full d := by
    intro k d
    unfold slotOf
    split
    · exact h0 d
    · exact h1 d
  unfold takeNext
  dsimp only
  split
  · rfl
  · split
    · next d hd => exact absurd hd (hslot _ d)
    · split
      · next d hd => exact absurd hd (hslot _ d)
      · rfl

theorem exec_exit (h : settled s t = true) (hg : guardOn s t w = true) (ho : iOpcode w = 0xB1)
    (hz : w.toNat % 2 ^ 36 = 0) (hp : privOf (th s t) ≠ 0) (hk : (th s t).pkt = none) :
    exec (.exit t w) s = .next (
      takeNext (updTh (finishSeq (begun s t) t) t (fun x => { x with state := .idle, rep := none })) t) := by
  show execExit t w s = _
  unfold execExit
  refine (newt_settled h hg (by simp [ho]) (by simp only [bitsN_low, hz]; rfl) (by simpa using hp)).trans ?_
  simp only [th_begun, issued_pkt, hk, Option.isSome_none, Bool.false_eq_true, if_false]

theorem finishSeq_begun (h : settled s t = true) :
    finishSeq (begun s t) t = setTh (issued s t) t (advanced (th (issued s t) t)) := by
  rw [finishSeq_norep (settled_rep (settled_begun.trans h)), setTh_begun, th_begun]

end

end Sys2Proof.Machine

open Sys2Proof Sys2Proof.Machine in
/-- Settles O13: every end of a DOZE is `dozeEnd_of_met`; with both slots not full nothing follows an EXIT. -/
theorem dozeAndExit : Obligations.DozeAndExit := by
  unfold Obligations.DozeAndExit
  refine fun s t w => ⟨fun h hg ho hb hf => ⟨fun hw => ?_, fun hw => ?_⟩,
    fun d limit pc ht hw hr hm hops => ⟨fun hl => ?_, fun hl => ?_, fun hk hre hdo hh => ?_⟩,
    fun h hg ho hz hp hk h0 h1 => ?_⟩
  · have hrep := settled_rep (settled_begun.trans h)
    rw [exec_doze h hg ho hb hf, if_pos hw, ((Met.of_settled h).begun.updTh (by rfl)).finishSeq_writeG
      (by rw [th_updTh_same]; exact hrep), setTh_updTh, th_updTh_same, ran_eq]
  · rw [exec_doze h hg ho hb hf, if_neg (by simp [hw]), ran_eq]
    rfl
  · rw [exec_dozeTimeout ht hw, if_neg hl, dozeEnd_of_met (met_of_any hm hops) hr]
  · rw [exec_dozeTimeout ht hw, if_pos hl]
  · rw [exec_wake ht, cmdWake_live ⟨hk, hre⟩, wakeThread_of_doze ⟨hk, hre⟩ hdo hh hw,
      dozeEnd_of_met ((met_of_any hm hops).updTh (by rfl))
      (by rw [th_updTh_same]; exact hr), setTh_updTh, th_updTh_same]
  · have hrep : (th (issued s t) t).rep = none := issued_rep.trans (settled_rep h)
    rw [exec_exit h hg ho hz hp hk, finishSeq_begun h, updTh_setTh, takeNext_of_empty]
    · rw [ran, advanced, wentTo, hrep]
    · rw [th_setTh_same]
      exact fun d => (issued_thread (s := s) (·.slot0)).trans_ne (h0 d)
    · rw [th_setTh_same]
      exact fun d => (issued_thread (s := s) (·.slot1)).trans_ne (h1 d)

namespace Sys2Proof.Machine

section
variable {s : State} {t : Nat} {w : Word}

/-! ## TRAP, UNDEF and ERET (R75, R112, R119, R124, R126, R127) -/

theorem exec_trap (h : settled s t = true) (hg : guardOn s t w = true) (ho : iOpcode w = 0xB4) (hd : iD w = 0)
    (ha : iA w = 0) (hb : iB w = 0) :
    exec (.trap t w) s = .next (trapEnter (begun s t) t 0x20 0 (BitVec.ofNat 48 (iFn w)) ((th s t).pc + 6)) := by
  show execTrap t w s = _
  unfold execTrap
  refine (newt_settled h hg (by simp [ho]) (by simp [hd, ha, hb]) rfl).trans ?_
  rw [th_begun, issued_pc, toW]

/-- A thread halted in DOUBLE by code `c` (R124). -/
def doubled (x : Thread) (c : Nat) : Thread :=
  { x with state := .double, cause := c, rep := none, wait := .none, hist := drainHist x.hist }

theorem enterHandler_of_double (h : getF (th s t).csr.tstat TS.th = 1) (c detail : Nat) (v : Word) (r : Nat) :
    enterHandler s t c detail v r = raise (setTh s t (doubled (th s t) c)) (coreSrc t) := by
  rw [enterHandler, if_pos h, doubled]

theorem trapEnter_begun_double (h : getF (th s t).csr.tstat TS.th = 1) (c detail : Nat) (v : Word) (r : Nat) :
    trapEnter (begun s t) t c detail v r =
      raise (setTh (squashed (issued s t) t 6 3) t (doubled (th (issued s t) t) c)) (coreSrc t) := by
  have hth : th (squashed (begun s t) t 6 3) t = th (issued s t) t := th_begun
  rw [trapEnter, enterHandler_of_double (by rw [hth, issued_tcsr, h]), hth]
  exact congrArg (raise · _) (setTh_setTh (squashed (issued s t) t 6 3) t _ _)

/-- Beside the thread, a double trap changes no thread and no memory. -/
theorem doubled_frame (c : Nat) :
    let u := raise (setTh (squashed (issued s t) t 6 3) t (doubled (th (issued s t) t) c)) (coreSrc t)
    th u t = doubled (th (issued s t) t) c ∧ OthersKept s u t ∧ BytesKept s u := by
  refine ⟨(th_congr (raise_threads _ _) t).trans (th_setTh_same _ _ _), fun k hk => ?_, ?_⟩
  · exact (th_congr (raise_threads _ _) k).trans <| (th_setTh_ne _ _ hk).trans (th_issued_ne s hk)
  · exact ⟨(raise_mem _ _).trans (issued_mem s t), (raise_scratch _ _).trans (issued_scratch s t),
      (raise_code _ _).trans (issued_code s t), (raise_slotRam _ _).trans (issued_slotRam s t)⟩

theorem exec_unassignedOpcode (ht : t < 3072) (hready : ready s t = true) (ho : runOp (iOpcode w) = none)
    (h : getF (th s t).csr.tstat TS.th = 0) :
    exec (.unassignedOpcode t w) s = .next (trapped s t 0x01 0 w (th s t).pc) := by
  show execUnassignedOpcode t w s = _
  rw [execUnassignedOpcode, if_neg (by simp [ht, ho]), ready_issue_undef hready, trapUndef, trapAt, trapEnter_issued h,
    issued_pc]

theorem exec_pcRangeFetch (ht : t < 3072) (hready : ready s t = true) (hpc : (th s t).pc = 262140)
    (h : getF (th s t).csr.tstat TS.th = 0) :
    exec (.pcRangeFetch t) s = .next (setTh (squashed s t 6 3) t (entered (th s t) 0x0C 0 0x3FFFC 262140)) := by
  show execPcRangeFetch t s = _
  rw [execPcRangeFetch, if_neg (not_le.2 ht), if_pos (by simp [hready, hpc]), trapAt, hpc]
  exact congrArg Host.Outcome.next (enterHandler_of_th (s := squashed s t 6 3) h _ _ _ _)

theorem exec_eret (h : settled s t = true) (hg : guardOn s t w = true) (ho : iOpcode w = 0xB5)
    (hz : w.toNat % 2 ^ 36 = 0) (hp : privOf (th s t) = 2) (h6 : (th s t).csr.tepc.toNat % 6 = 0)
    (hlt : (th s t).csr.tepc.toNat < 262140) :
    exec (.eret t w) s = .next (eretGo (begun s t) t (th s t).csr.tstat (th s t).csr.tepc (th s t).csr.trep) := by
  show execEret t w s = _
  unfold execEret
  refine (newt_settled h hg (by simp [ho]) (by simp only [bitsN_low, hz]; rfl) (by simpa using hp)).trans ?_
  simp only [settled_readCsr (settled_begun.trans h), csrGet, th_begun, issued_tcsr, Option.getD_some,
    (goodPc_iff _).2 ⟨h6, hlt⟩, if_true]

/-- What ERET leaves of TSTAT: priv from ppriv, ie from pie, th clear. -/
def eretStatus (v : Word) : Word :=
  putF (putF (putF v TS.priv (getF v TS.ppriv)) TS.ie (getF v TS.pie)) TS.th 0

theorem getF_eretStatus (v : Word) : getF (eretStatus v) TS.priv = getF v TS.ppriv ∧
    getF (eretStatus v) TS.ie = getF v TS.pie ∧ getF (eretStatus v) TS.th = 0 ∧ getF (eretStatus v) TS.pie = getF v TS.pie ∧
    getF (eretStatus v) TS.ppriv = getF v TS.ppriv ∧ getF (eretStatus v) TS.pktPriv = getF v TS.pktPriv := by
  unfold eretStatus
  refine ⟨?_, ?_, ?_, ?_, ?_, ?_⟩
  · rw [getF_putF_ne _ _ _ _ (by decide) (by decide), getF_putF_ne _ _ _ _ (by decide) (by decide),
      getF_putF _ _ _ (by decide)]
    exact Nat.mod_eq_of_lt (getF_lt v TS.ppriv)
  · rw [getF_putF_ne _ _ _ _ (by decide) (by decide), getF_putF _ _ _ (by decide)]
    exact Nat.mod_eq_of_lt (getF_lt v TS.pie)
  · exact getF_putF _ _ _ (by decide)
  all_goals
    rw [getF_putF_ne _ _ _ _ (by decide) (by decide), getF_putF_ne _ _ _ _ (by decide) (by decide),
      getF_putF_ne _ _ _ _ (by decide) (by decide)]

end

end Sys2Proof.Machine

open Sys2Proof Sys2Proof.Machine in
/-- Settles O14: a trap from th 0 enters the handler (`trapEnter_begun`), one from th 1 halts in DOUBLE; ERET leaves TSTAT
as `getF_eretStatus` says. -/
theorem trapsEnterAndReturn : Obligations.TrapsEnterAndReturn := by
  unfold Obligations.TrapsEnterAndReturn
  refine ⟨fun s t w => ⟨fun h hg ho hd ha hb => ⟨fun hth => ?_, fun hth => ?_⟩, exec_unassignedOpcode,
    exec_pcRangeFetch⟩, fun s t w h hg ho hz hp h6 hlt => ?_⟩
  · rw [exec_trap h hg ho hd ha hb, trapEnter_begun hth]
  · obtain ⟨hx, hothers, hbytes⟩ := doubled_frame (s := s) (t := t) 0x20
    rw [exec_trap h hg ho hd ha hb, trapEnter_begun_double hth]
    refine ⟨_, rfl, ?_, ?_, ?_, hothers, hbytes⟩
    · rw [hx, doubled]
    · rw [hx, doubled, issued_tcsr]
    · rw [hx, doubled]
  · obtain ⟨hpriv, hie, hclear, hpie, hppriv, hpkt⟩ := getF_eretStatus (th s t).csr.tstat
    rw [exec_eret h hg ho hz hp h6 hlt, eretGo, finishSeq_begun h, updTh_setTh]
    refine ⟨_, rfl, ?_⟩
    dsimp only [advanced, wentTo]
    simp only [issued_tcsr, issued_g, issued_p, issued_tok, issued_state, Bool.and_eq_true, beq_iff_eq, bne_iff_ne,
      true_and, and_true]
    exact ⟨hpriv, hie, hclear, hpie, hppriv, hpkt, getF_putF _ _ _ (by decide)⟩

namespace Sys2Proof.Machine

section
variable {s : State} {t : Nat}

/-! ## Interrupts and TTIMER (R125, R135) -/

theorem csrCands_of_met (h : (th s t).hist.all Haz.met = true) (n : Nat) : csrCands s t n = [(csrGet s t n).getD 0] := by
  rw [csrCands, unmet_of_met _ _ _ h]
  rfl

/-- The wake bit of TINT, which a read shows, bears on no interrupt. -/
theorem intCode_wake (a b : Word) (v : Nat) : intCode a (putF b TS.wake v) = intCode a b := by
  have hb : ∀ f : Fld, f.hi < 16 → getF (putF b TS.wake v) f = getF b f :=
    fun f hf => getF_putF_ne b TS.wake f v (by decide) (.inl hf)
  simp only [intCode, hb TS.sp (by decide), hb TS.sie (by decide), hb TS.tp (by decide), hb TS.tie (by decide),
    hb TS.ep (by decide), hb TS.eie (by decide)]

theorem intChoices_of_met (h : (th s t).hist.all Haz.met = true) :
    intChoices s t = [intCode (th s t).csr.tstat (th s t).csr.tint] := by
  rw [intChoices, csrCands_of_met h, csrCands_of_met h]
  simp only [csrGet, Option.getD_some, List.flatMap_cons, List.flatMap_nil, List.map_cons, List.map_nil, intCode_wake]
  rfl

theorem exec_interruptEntry {code : Nat} (ht : t < 3072) (hrun : running (th s t) = true)
    (hclu : clusterRuns s t = true) (hkill : (th s t).pendKill = false) (hrep : inRepn (th s t) = false)
    (hend : inEnding (th s t) = false) (hm : (th s t).hist.all Haz.met = true)
    (hcode : intCode (th s t).csr.tstat (th s t).csr.tint = some code) (hth : getF (th s t).csr.tstat TS.th = 0) :
    exec (.interruptEntry t) s = .next (setTh s t
      (entered (th s t) code 0 (BitVec.ofNat 48 ((th s t).csr.tint.toNat % 8)) (th s t).pc)) := by
  show execInterruptEntry t s = _
  unfold execInterruptEntry
  simp only [if_neg (not_le.2 ht), hrun, hclu, hkill, hrep, hend, Bool.not_true, Bool.or_false, Bool.false_eq_true, if_false,
    intChoices_of_met hm, hcode, List.filterMap_cons, List.filterMap_nil, id, choose, enterHandler_of_th hth]
  rfl

end

end Sys2Proof.Machine

open Sys2Proof Sys2Proof.Machine in
/-- Settles O15: with every distance met TSTAT and TINT alone name the interrupt (`intChoices_of_met`). -/
theorem interrupts : Obligations.Interrupts := by
  unfold Obligations.Interrupts
  refine fun s t ht => ⟨fun code hrun hclu hkill hrep hend hm hie hth hcode => ?_, fun htimer => ?_⟩
  · refine exec_interruptEntry ht hrun hclu hkill hrep hend hm ?_ hth
    unfold intCode
    rw [if_neg (by simp [hie, hth])]
    obtain ⟨rfl, hs⟩ | ⟨rfl, hs, htp⟩ | ⟨rfl, hs, htp, hep⟩ := hcode
    · rw [if_pos hs]
    · rw [if_neg hs, if_pos htp]
    · rw [if_neg hs, if_neg htp, if_pos hep]
  · have hexec : exec (.ttimerExpiry t) s = .next (setTint t TS.tp (updTh s t (fun x => { x with
        csr := { x.csr with ttimer := 0 },
        hist := x.hist.filter (fun h => !(decide (h.kind = .csr) && h.key == 0x808)) }))) := by
      show execTtimerExpiry t s = _
      rw [execTtimerExpiry, if_neg (not_le.2 ht), if_neg htimer]
    refine ⟨_, hexec.trans (congrArg _ (setTh_setTh _ _ _ _)), ?_⟩
    rw [th_updTh_same]
    exact ⟨rfl, getF_putF _ _ _ (by decide), rfl, rfl, rfl, rfl, rfl, getF_putF_ne _ _ _ _ (by decide) (by decide)⟩
end

