-- ==== Sys2Proof/Proofs/ThreadsRest.lean ====
section
/-! What the work of a kill or a thread reset leaves of a thread at rest: Gecko's hand-offs wake it, and the requests Obrex
fails complete its tokens, but neither runs it. `Rested.f` says so of the operation `f`, in the order of the model's files; a
proof names, from the outside in, the operations its definition calls. -/

namespace Sys2Proof.Machine

/-- A thread in no wait that a wake or a completion would end. -/
def Resting (x : Thread) : Prop := x.wait = .none ∨ ∃ key, x.wait = .handed key

/-- `y` is `x` but for its wake, its tokens, its count of discarded completions and its generation in Gecko. -/
def Touched (x y : Thread) : Prop := ∃ w k d g, y = { x with wake := w, tok := k, discard := d, gen := g }

theorem Touched.refl (x : Thread) : Touched x x := ⟨x.wake, x.tok, x.discard, x.gen, rfl⟩

theorem Touched.trans {x y z : Thread} (h : Touched x y) (h' : Touched y z) : Touched x z := by
  obtain ⟨_, _, _, _, rfl⟩ := h
  obtain ⟨w, k, d, g, rfl⟩ := h'
  exact ⟨w, k, d, g, rfl⟩

theorem Touched.wait {x y : Thread} (h : Touched x y) : y.wait = x.wait := by
  obtain ⟨_, _, _, _, rfl⟩ := h
  rfl

theorem Touched.resting {x y : Thread} (h : Touched x y) (hx : Resting x) : Resting y := by
  rwa [Resting, h.wait]

/-- Thread `t`, if it rests, is touched at most; its operations stay dead if they were; and the program in effect and the
clusters' power and reset stay. -/
structure Rested (t : Nat) (s u : State) : Prop where
  thread : Resting (th s t) → Touched (th s t) (th u t)
  ops : (∀ o ∈ s.ops, o.thread = t → o.dead = true) → ∀ o ∈ u.ops, o.thread = t → o.dead = true
  entry : u.img.entry = s.img.entry
  clu : ∀ c, (clu u c).power = (clu s c).power ∧ (clu u c).inReset = (clu s c).inReset ∧
    (clu u c).resetting = (clu s c).resetting

/-- Thread `k` is not `t` at rest. -/
def Elsewhere (t : Nat) (s : State) (k : Nat) : Prop := Resting (th s t) → k ≠ t

section
variable {s u : State} {t k : Nat}

protected theorem Rested.refl (t : Nat) (s : State) : Rested t s s :=
  ⟨fun _ => .refl _, fun h => h, rfl, fun _ => ⟨rfl, rfl, rfl⟩⟩

/-- A thread that waits in something is not `t` at rest. -/
theorem Rested.elsewhere (h : Rested t s u) (hk : ¬Resting (th u k)) : Elsewhere t s k := by
  rintro hr rfl
  exact hk ((h.thread hr).resting hr)

/-- A record update that leaves the threads, their operations, the clusters and the image alone. -/
protected theorem Rested.same (h : Rested t s u) {now freeCtr pending csr shadow mem scratch code slotRam cores
    nextOp spawn bridge bpm tiles poison eth clkBase clkAt gecko ev obx tbl host mc clk str epc dst pwr svc tel outbox} :
    Rested t s ⟨now, freeCtr, pending, csr, shadow, mem, scratch, code, slotRam, u.threads, cores, u.ops,
      nextOp, u.clusters, spawn, bridge, bpm, tiles, poison, u.img, eth, clkBase, clkAt, gecko, ev, obx, tbl, host, mc, clk,
      str, epc, dst, pwr, svc, tel, outbox⟩ :=
  ⟨h.thread, h.ops, h.entry, h.clu⟩

/-! ## Branches, loops and pairs -/

protected theorem Rested.pair {α : Type} {a : α} (h : Rested t s u) : Rested t s (a, u).2 := h

protected theorem Rested.snd {α : Type} {p : α × State} {a} (hp : p = (a, u)) (h : Rested t s p.2) : Rested t s u := by
  rw [hp] at h
  exact h

protected theorem Rested.ite {c : Prop} {_ : Decidable c} {v w : State} (hv : Rested t s v) (hw : Rested t s w) :
    Rested t s (if c then v else w) := by split <;> assumption

protected theorem Rested.ite_snd {α : Type} {c : Prop} {_ : Decidable c} {v w : α × State} (hv : Rested t s v.2)
    (hw : Rested t s w.2) : Rested t s (if c then v else w).2 := by split <;> assumption

protected theorem Rested.forEach {α : Type} {l : List α} {f : α → State → State} (h : Rested t s u)
    (hf : ∀ {a v}, Rested t s v → Rested t s (f a v)) : Rested t s (forEach l f u) :=
  forEach_keeps (Rested t s) l f u (fun _ _ _ hv => hf hv) h

/-! ## The named operations over State that every command shares -/

protected theorem Rested.wr (h : Rested t s u) {a w} : Rested t s (wr u a w) := .same h

protected theorem Rested.setFld (h : Rested t s u) {a f v} : Rested t s (setFld u a f v) := .wr h

protected theorem Rested.bump (h : Rested t s u) {a f} : Rested t s (bump u a f) := .setFld h

protected theorem Rested.markHigh (h : Rested t s u) {a f v} : Rested t s (markHigh u a f v) := .ite (.setFld h) h

protected theorem Rested.draw (h : Rested t s u) : Rested t s (draw u).2 := .same h

protected theorem Rested.choose {α : Type} (h : Rested t s u) {c : α} {l} : Rested t s (choose u c l).2 := by
  unfold Machine.choose
  split <;> exact .same h

protected theorem Rested.emit (h : Rested t s u) {o} : Rested t s (emit u o) := .same h

/-- A thread that is not `t` at rest changes. -/
protected theorem Rested.setTh (h : Rested t s u) (he : Elsewhere t s k) {x} : Rested t s (setTh u k x) :=
  ⟨fun hr => by rw [th_setTh_ne _ _ (he hr).symm]; exact h.thread hr, h.ops, h.entry, h.clu⟩

protected theorem Rested.updTh (h : Rested t s u) (he : Elsewhere t s k) {f} : Rested t s (updTh u k f) := .setTh h he

/-- A thread is touched. -/
protected theorem Rested.touch (h : Rested t s u) {x} (hx : Touched (th u k) x) : Rested t s (Machine.setTh u k x) := by
  refine ⟨fun hr => ?_, h.ops, h.entry, h.clu⟩
  by_cases hk : t = k
  · subst hk
    rw [th_setTh_same]
    exact (h.thread hr).trans hx
  · rw [th_setTh_ne _ _ hk]
    exact h.thread hr

protected theorem Rested.updClu (h : Rested t s u) {c f} (hf : (f (Machine.clu u c)).power = (Machine.clu u c).power ∧
    (f (Machine.clu u c)).inReset = (Machine.clu u c).inReset ∧
    (f (Machine.clu u c)).resetting = (Machine.clu u c).resetting := by exact ⟨rfl, rfl, rfl⟩) :
    Rested t s (updClu u c f) := by
  refine ⟨h.thread, h.ops, h.entry, fun d => ?_⟩
  by_cases hd : d = c
  · subst hd
    rw [clu_updClu_same, hf.1, hf.2.1, hf.2.2]
    exact h.clu d
  · rw [clu_updClu_ne _ hd]
    exact h.clu d

/-- An update of every operation that leaves whose it is, and whether it is dead. -/
protected theorem Rested.mapOps (h : Rested t s u) {f : AsyncOp → AsyncOp}
    (hf : ∀ o, (f o).thread = o.thread ∧ (f o).dead = o.dead) : Rested t s { u with ops := u.ops.map f } := by
  refine ⟨h.thread, fun hs o ho ht => ?_, h.entry, h.clu⟩
  obtain ⟨p, hp, rfl⟩ := List.mem_map.1 ho
  obtain ⟨hthread, hdead⟩ := hf p
  rw [hdead]
  exact h.ops hs p hp (hthread ▸ ht)

protected theorem Rested.raise (h : Rested t s u) {n} : Rested t s (raise u n) := by
  obtain ⟨_, _, hu⟩ := raise_frame u n
  rw [hu]
  exact .same h

protected theorem Rested.storeMem (h : Rested t s u) {a l} : Rested t s (storeMem u a l) := by
  obtain ⟨_, _, _, hu⟩ := storeMem_frame u a l
  rw [hu]
  exact .same h

/-! ## Newt threads: commit, traps, wakes and asynchronous operations -/

protected theorem Rested.clobber (h : Rested t s u) {p : AsyncOp → Bool} {v : Word} : Rested t s { u with
    ops := u.ops.map (fun o => if p o then { o with clobber := v :: o.clobber } else o) } :=
  .mapOps h fun o => by split <;> exact ⟨rfl, rfl⟩

protected theorem Rested.writeG (h : Rested t s u) (he : Elsewhere t s k) {r v need} : Rested t s (writeG u k r v need) :=
  .ite h <| .clobber <| .updTh (.ite_snd (.choose h) h) he

protected theorem Rested.finish (h : Rested t s u) (he : Elsewhere t s k) {npc} : Rested t s (finish u k npc) := .updTh h he

protected theorem Rested.finishSeq (h : Rested t s u) (he : Elsewhere t s k) : Rested t s (finishSeq u k) := .finish h he

protected theorem Rested.trapAt (h : Rested t s u) (he : Elsewhere t s k) {c detail v} :
    Rested t s (trapAt u k c detail v) :=
  have h1 : Rested t s (squashed u k 6 3) := .same h
  .ite (.raise (.setTh h1 he)) (.setTh h1 he)

protected theorem Rested.dozeEnd (h : Rested t s u) (he : Elsewhere t s k) {d v} : Rested t s (dozeEnd u k d v) :=
  .finishSeq (.writeG (.updTh h he) he) he

protected theorem Rested.wakeThread (h : Rested t s u) : Rested t s (wakeThread u k) := by
  have hwake {b} : Touched (th u k) { th u k with wake := b } := ⟨b, _, _, _, rfl⟩
  unfold Machine.wakeThread
  dsimp only
  split
  · exact h
  · exact h
  · exact .touch h hwake
  · exact .touch h hwake
  · split
    · next hw => exact .dozeEnd (.touch h hwake) (h.elsewhere (by simp [Resting, hw]))
    · exact .touch h hwake

protected theorem Rested.setTok (h : Rested t s u) {i v} : Rested t s (setTok u k i v) := .touch h ⟨_, _, _, _, rfl⟩

protected theorem Rested.dropOp (h : Rested t s u) {id} : Rested t s (dropOp u id) :=
  ⟨h.thread, fun hs o ho => h.ops hs o (List.mem_filter.1 ho).1, h.entry, h.clu⟩

protected theorem Rested.postErr (h : Rested t s u) {status} : Rested t s (postErr u k status) :=
  .raise <| .setFld (.bump h)

/-- An operation that failed writes no register. -/
protected theorem Rested.deliver (h : Rested t s u) {o status v} (hst : 1 < status) :
    Rested t s (deliver u o status v) := by
  unfold Machine.deliver
  simp only [hst, if_true]
  split
  · exact .touch (.dropOp h) ⟨_, _, _, _, rfl⟩
  · split
    · exact .bump (.dropOp h)
    · split
      · exact .ite (.dropOp h) <| .postErr (.dropOp h)
      · exact .setTok (.dropOp h)

protected theorem Rested.waitcEnd (h : Rested t s u) (he : Elsewhere t s k) {w} : Rested t s (waitcEnd u k w) :=
  have h1 : Rested t s _ := .forEach (.updTh h he) fun hu => .setTok hu
  .ite (.finishSeq (.writeG (.updTh (.updTh h he) he) he) he) <| .ite (.trapAt h1 he) <|
    .ite (.trapAt h1 he) (.trapAt h1 he)

protected theorem Rested.settleWait (h : Rested t s u) : Rested t s (settleWait u k) := by
  unfold Machine.settleWait
  dsimp only
  split
  · next hw => exact .ite h (.waitcEnd h (h.elsewhere (by simp [Resting, hw])))
  · next hw =>
    have he : Elsewhere t s k := h.elsewhere (by simp [Resting, hw])
    exact .ite h <| .finishSeq (.updTh h he) he
  · exact h

/-! ## Gecko -/

protected theorem Rested.setRegs (h : Rested t s u) {l} : Rested t s (setRegs u l) := .markHigh <| .setFld (.same h)

protected theorem Rested.boostCheck (h : Rested t s u) {n} : Rested t s (boostCheck n u) := by
  unfold Machine.boostCheck
  dsimp only
  split
  · split
    · exact .bump (.same h)
    · split <;> exact .same h
  · split
    · split <;> exact .same h
    · exact h

protected theorem Rested.gkoNotify (h : Rested t s u) {a kind n} : Rested t s (gkoNotify a kind n u) := by
  unfold Machine.gkoNotify
  split
  · exact .wakeThread h
  · split
    · exact .same h
    · split
      · exact .ite (.setFld h) <| .raise (.same h)
      · exact h

protected theorem Rested.passOn (h : Rested t s u) {n} : Rested t s (passOn n u) := by
  unfold Machine.passOn
  split
  · exact .same h
  · exact .gkoNotify <| .same (.setRegs h)

protected theorem Rested.abandonLock (h : Rested t s u) {n} : Rested t s (abandonLock n u) :=
  .boostCheck <| .passOn <| .boostCheck <| .same <| .raise <| .wr (.bump h)

protected theorem Rested.threadHolderReset (h : Rested t s u) : Rested t s (threadHolderReset k u) :=
  .touch (.forEach (.forEach (.forEach (.setRegs h) fun hu => .boostCheck hu) fun hu => .abandonLock hu)
    fun hu => .boostCheck (.passOn hu)) ⟨_, _, _, _, rfl⟩

/-! ## Memory and tiles -/

protected theorem Rested.memWrite (h : Rested t s u) {a l} : Rested t s (memWrite u a l).2 := by
  have hstore {v b m} (hv : Rested t s v) : Rested t s (memStore v b m) := by
    obtain ⟨_, hm⟩ := memTouch_frame v b
    unfold memStore
    rw [hm]
    exact .storeMem (.same hv)
  exact .ite_snd (hstore h) <| .forEach h fun hu => .ite hu (hstore hu)

protected theorem Rested.sealTile (h : Rested t s u) {tile} : Rested t s (sealTile u tile) := by
  have hput {sealed check} : Rested t s (tilePut u tile sealed check) := by
    unfold tilePut
    split
    · exact .ite (.memWrite h) (.same h)
    · exact .same h
  exact .same hput

/-! ## Spawn -/

protected theorem Rested.bpUpdate (h : Rested t s u) : Rested t s (bpUpdate u) :=
  have h1 : Rested t s _ := .setFld <| .setFld (.same h)
  .forEach (.ite (.raise h1) h1) fun hu => .ite hu <| .bump (.emit hu)

protected theorem Rested.storeSet (h : Rested t s u) {n} : Rested t s (storeSet u n) :=
  have h1 : Rested t s _ := .ite (.setFld (.setFld (.same h))) (.setFld (.same h))
  .ite (.raise h1) h1

protected theorem Rested.setQueue (h : Rested t s u) {q l} : Rested t s (setQueue u q l) :=
  .markHigh <| .setFld (.same h)

protected theorem Rested.startPacket (h : Rested t s u) (he : Elsewhere t s k) {i d} : Rested t s (startPacket u k i d) :=
  .bpUpdate <| .storeSet (.updTh h he)

protected theorem Rested.returnSlot (h : Rested t s u) (he : Elsewhere t s k) {i} : Rested t s (returnSlot k i u) := by
  unfold Machine.returnSlot
  split
  · exact h
  · split
    · exact .setQueue <| .same (.updTh h he)
    · exact .updTh h he
    · exact h

protected theorem Rested.returnSlots (h : Rested t s u) (he : Elsewhere t s k) : Rested t s (returnSlots k u) :=
  .bpUpdate <| .returnSlot (.returnSlot h he) he

protected theorem Rested.takeNext (h : Rested t s u) (he : Elsewhere t s k) : Rested t s (takeNext u k) := by
  unfold Machine.takeNext
  dsimp only
  split
  · exact h
  · split
    · exact .startPacket h he
    · split
      · exact .startPacket h he
      · exact h

/-! ## Endings -/

protected theorem Rested.sealOpen (h : Rested t s u) {data} : Rested t s (sealOpen data u) :=
  .forEach h fun hu => .ite hu (.sealTile hu)

protected theorem Rested.afterEnding (h : Rested t s u) (he : Elsewhere t s k) : Rested t s (afterEnding k u) :=
  .ite (.setTh h he) <| .ite (.returnSlots (.setTh (.setTh h he) he) he) <| .takeNext (.setTh (.setTh h he) he) he

protected theorem Rested.handOff (h : Rested t s u) (he : Elsewhere t s k) {rel dest edit} :
    Rested t s (handOff u k rel dest edit) := by
  unfold Machine.handOff
  dsimp only
  split
  · exact h
  · exact .ite (.afterEnding (.updTh (.same (.ite (.sealOpen h) h)) he) he) <| .updTh (.same (.ite (.sealOpen h) h)) he

protected theorem Rested.endPacket (h : Rested t s u) (he : Elsewhere t s k) {rel dest edit} :
    Rested t s (endPacket u k rel dest edit) :=
  .ite (.updTh h he) <| .handOff (.finishSeq (.updTh h he) he) he

protected theorem Rested.settle (h : Rested t s u) : Rested t s (settle k u) := by
  unfold Machine.settle
  split
  · next hw => exact .ite h (.endPacket h (h.elsewhere (by simp [Resting, hw])))
  · exact .settleWait h

/-! ## Obrex Link -/

protected theorem Rested.lcnt (h : Rested t s u) {l i n} : Rested t s (lcnt u l i n) := .ite (.setFld h) (.setFld h)

protected theorem Rested.sendFlit (h : Rested t s u) {l f stamp} : Rested t s (sendFlit l f stamp u) := by
  unfold Machine.sendFlit
  dsimp only
  split
  · exact .ite (.same <| .lcnt (.emit h)) <| .same <| .same <| .lcnt (.emit h)
  · exact .same <| .lcnt (.emit h)

protected theorem Rested.sendSeq (h : Rested t s u) {l f} : Rested t s (sendSeq l f u) := .sendFlit (.same h)

protected theorem Rested.pumpLink {n l} (h : Rested t s u) : Rested t s (pumpLink n l u) := by
  induction n generalizing u with
  | zero => exact h
  | succ n ih =>
    have hdata {x f} : Rested t s (Machine.pumpLink n l (Machine.sendSeq l f (setOlink u l x))) :=
      ih <| .sendSeq (.same h)
    have hnotice {x f i} : Rested t s (Machine.pumpLink n l (Machine.lcnt (Machine.sendSeq l f (setOlink u l x)) l i 1)) :=
      ih <| .lcnt <| .sendSeq (.same h)
    unfold Machine.pumpLink
    refine .ite h ?_
    split
    · split
      · split
        · exact hnotice
        · exact hdata
      · split
        · exact .ite hnotice h
        · exact h
    · exact .ite hnotice h
    · exact h

protected theorem Rested.freeTag (h : Rested t s u) : Rested t s (freeTag u).2 := .ite_snd h (.draw h)

protected theorem Rested.startTx (h : Rested t s u) {l m} : Rested t s (startTx l m u) :=
  .pumpLink (by split <;> exact .same h)

/-- A request that fails completes its operation with ERROR. -/
protected theorem Rested.failReq (h : Rested t s u) {op agent} : Rested t s (failReq op agent u) := by
  unfold Machine.failReq
  split
  · exact .ite (.same h) h
  · split
    · exact .settle (.deliver h (by decide))
    · exact h

protected theorem Rested.offerTx (h : Rested t s u) {m} : Rested t s (offerTx m u).2 := by
  refine .ite_snd (.pair (.failReq h)) <| .ite_snd (.pair h) ?_
  split
  · exact h
  · refine .ite_snd ?_ (.pair (.startTx h))
    split
    · next hp => exact .snd hp (.freeTag h)
    · next hp => exact .startTx <| .same <| .snd hp (.freeTag h)

protected theorem Rested.offerAll {l kept} (h : Rested t s u) : Rested t s (offerAll l kept u) := by
  induction l generalizing u kept with
  | nil => exact .same h
  | cons m r ih =>
    unfold Machine.offerAll
    refine .ite (ih h) ?_
    split
    · next hp => exact ih <| .snd hp (.offerTx h)
    · next hp => exact ih <| .snd hp (.offerTx h)

protected theorem Rested.obxPump (h : Rested t s u) : Rested t s (obxPump u) :=
  .forEach (.offerAll (.same h)) fun hu => .pumpLink hu

/-! ## Thread resets (R134) -/

protected theorem Rested.lyrThreadReset (h : Rested t s u) : Rested t s (lyrThreadReset k u) := by
  unfold Machine.lyrThreadReset
  exact .updClu (.setFld (.updClu h))

/-- What precedes the reset of a thread's own state. -/
protected theorem Rested.beforeReset (h : Rested t s u) :
    Rested t s (Machine.lyrThreadReset k (Machine.obxPump (Machine.threadHolderReset k u))) :=
  .lyrThreadReset <| .obxPump (.threadHolderReset h)

protected theorem Rested.threadReset (h : Rested t s u) (he : Elsewhere t s k) {zero} : Rested t s (threadReset zero k u) :=
  .setTh (.beforeReset h) he

end

end Sys2Proof.Machine
end

