-- ==== Sys2Proof/Proofs/ThreadControl.lean ====
section
/-! The commands of CLU_THCMD, and what a kill, a restart and a core reset leave of a thread (R131–R134). -/

namespace Sys2Proof.Machine

section
variable {s u : State} {t k : Nat}

/-! ## The rows of the commands (R132) -/

theorem exec_kill (ht : t < 3072) : exec (.kill t) s = .next (cmdKill t s) := onThread_of_lt ht _
theorem exec_killComplete (ht : t < 3072) : exec (.killComplete t) s = .next (killFinish t s) := onThread_of_lt ht _
theorem exec_restart (ht : t < 3072) : exec (.restart t) s = .next (cmdRestart t s) := onThread_of_lt ht _
theorem exec_softint (ht : t < 3072) : exec (.softint t) s = .next (cmdSoftint t s) := onThread_of_lt ht _
theorem exec_halt (ht : t < 3072) : exec (.halt t) s = .next (cmdHalt t s) := onThread_of_lt ht _
theorem exec_threadHalted (ht : t < 3072) : exec (.threadHalted t) s = .next (haltFinish t s) := onThread_of_lt ht _
theorem exec_resume (ht : t < 3072) : exec (.resume t) s = .next (cmdResume t s) := onThread_of_lt ht _

theorem exec_service {pc priv : Nat} (ht : t < 3072) (hpc : pc < 2 ^ 18) (hpriv : priv < 4) :
    exec (.service t pc priv) s = .next (cmdService t pc priv s) := if_pos ⟨ht, hpc, hpriv⟩

theorem exec_coreReset {c : Nat} (hc : c < 24) (v : Word) : exec (.coreReset c v) s = .next (coreReset c v s) :=
  onCluster_of_lt hc _

/-! ## Commands that a state allows, and those it does not -/

theorem badCmd_eq : badCmd t s = setTh s t { th s t with badcmd := Min.min 255 ((th s t).badcmd + 1) } := rfl

theorem cmdService_allowed {pc priv : Nat} (hs : (th s t).state = .idle) (hk : (th s t).pendKill = false)
    (hh : (th s t).pendHalt = false) (h6 : pc % 6 = 0) (hlt : pc < 262140) (hp : priv = 1 ∨ priv = 2)
    (hrun : (clu s (t / 128)).power = .run) : cmdService t pc priv s = setTh s t { th s t with
      state := .service, pc := pc, csr := { (th s t).csr with tstat := putF (th s t).csr.tstat TS.priv priv } } := by
  have hpriv : (priv == 1 || priv == 2) = true := by simpa using hp
  have hgood : goodPc pc = true := (goodPc_iff pc).2 ⟨h6, hlt⟩
  unfold cmdService
  dsimp only
  rw [if_neg (by simp [hs, hk, hh, hgood, hpriv])]
  exact if_pos hrun

theorem cmdService_refused {pc priv : Nat}
    (h : (th s t).state ≠ .idle ∨ pc % 6 ≠ 0 ∨ 262140 ≤ pc ∨ priv = 0 ∨ priv = 3) :
    cmdService t pc priv s = badCmd t s := by
  refine if_pos ?_
  obtain h | h | h | rfl | rfl := h
  · exact .inl h
  · simp [goodPc, h]
  · simp [goodPc, h]
  · simp
  · simp

theorem cmdSoftint_live (h : Live (th s t)) : cmdSoftint t s = setTint t TS.sp s :=
  if_neg h.not_dead

theorem not_live_iff {x : Thread} : ¬Live x ↔ x.state = .killed ∨ x.state = .reset := by
  rw [Live, not_and_or, not_not, not_not]

theorem not_live_ignored (h : ¬Live (th s t)) :
    cmdSoftint t s = badCmd t s ∧ cmdKill t s = badCmd t s ∧ cmdWake t s = badCmd t s :=
  have hk := not_live_iff.1 h
  ⟨if_pos hk, if_pos hk, if_pos hk⟩

theorem cmdKill_live (h : Live (th s t)) : cmdKill t s = killBegin t s :=
  if_neg h.not_dead

theorem mayHalt {x : Thread} (h : running x = true ∨ x.state = .idle) :
    (!(running x || decide (x.state = .idle))) = false := by
  obtain h | h := h <;> simp [h]

theorem cmdHalt_allowed (h : running (th s t) = true ∨ (th s t).state = .idle) : cmdHalt t s = setTh s t { th s t with
    pendHalt := true, wait := if inEnding (th s t) then (th s t).wait else .none } :=
  if_neg (by rw [mayHalt h]; decide)

theorem cmdHalt_refused (h : running (th s t) = false) (hi : (th s t).state ≠ .idle) : cmdHalt t s = badCmd t s :=
  if_pos (by simp [h, hi])

theorem cmdResume_allowed (hs : (th s t).state = .halted) (hk : (th s t).pendKill = false)
    (hp : (th s t).prior ≠ .idle) :
    cmdResume t s = setTh s t { th s t with state := (th s t).prior, prior := .idle } := by
  have hnext : ∀ u : State, (th u t).state ≠ .idle → takeNext u t = u := fun u h => if_pos h
  unfold cmdResume
  dsimp only
  rw [if_neg (by simp [hs, hk]), hnext _ (by rw [th_setTh_same]; exact hp)]

theorem cmdResume_refused (h : (th s t).state ≠ .halted) : cmdResume t s = badCmd t s := if_pos (.inl h)

/-- A wake that ends no DOZE stays in the latch (R129). -/
theorem cmdWake_latches (h : Live (th s t))
    (hw : (th s t).state = .double ∨ (th s t).state = .halted ∨ ∀ d l p, (th s t).wait ≠ .doze d l p) :
    cmdWake t s = setTh s t { th s t with wake := true } := by
  rw [cmdWake_live h]
  unfold wakeThread
  dsimp only
  split
  · next hs => exact absurd hs h.1
  · next hs => exact absurd hs h.2
  · rfl
  · rfl
  · next hd hh =>
    split
    · next hdoze => exact absurd hdoze (((hw.resolve_left hd).resolve_left hh) _ _ _)
    · rfl

theorem cmdRestart_refused (hk : (th s t).state ≠ .killed) (hh : (th s t).state ≠ .halted)
    (hd : (th s t).state ≠ .double) : cmdRestart t s = badCmd t s := by
  unfold cmdRestart
  dsimp only
  split
  · exact absurd ‹_› hk
  · exact absurd ‹_› hh
  · exact absurd ‹_› hd
  · rfl

/-! ## Slots taken back (R186) -/

/-- `u` is `s` but for registers, event crossings, the outside and Spawn. -/
def SpawnMoved (s u : State) : Prop := ∃ c e o p, u = { s with csr := c, ev := e, outbox := o, spawn := p }

theorem SpawnMoved.threads (h : SpawnMoved s u) : u.threads = s.threads := by
  obtain ⟨_, _, _, _, rfl⟩ := h
  rfl

theorem SpawnMoved.mem (h : SpawnMoved s u) : u.mem = s.mem := by
  obtain ⟨_, _, _, _, rfl⟩ := h
  rfl

theorem SpawnMoved.setFld (h : SpawnMoved s u) {a : Nat} {f : Fld} {v : Nat} : SpawnMoved s (setFld u a f v) := by
  obtain ⟨_, _, _, _, rfl⟩ := h
  exact ⟨_, _, _, _, rfl⟩

theorem SpawnMoved.markHigh (h : SpawnMoved s u) {a : Nat} {f : Fld} {v : Nat} : SpawnMoved s (markHigh u a f v) := by
  unfold Machine.markHigh
  split
  · exact h.setFld
  · exact h

theorem SpawnMoved.raise (h : SpawnMoved s u) {n : Nat} : SpawnMoved s (raise u n) := by
  obtain ⟨_, _, hu⟩ := raise_frame u n
  obtain ⟨_, _, _, _, rfl⟩ := h
  rw [hu]
  exact ⟨_, _, _, _, rfl⟩

theorem spawnMoved_sendPause (h : SpawnMoved s u) (p : Nat) : SpawnMoved s (sendPause p u) := by
  unfold sendPause
  dsimp only
  split
  · exact h
  · obtain ⟨_, _, _, _, rfl⟩ := h
    exact ⟨_, _, _, _, rfl⟩

theorem spawnMoved_bpUpdate (s : State) : SpawnMoved s (bpUpdate s) := by
  unfold bpUpdate
  refine forEach_keeps (SpawnMoved s) _ _ _ (fun p _ v hv => spawnMoved_sendPause hv p) ?_
  have h1 : SpawnMoved s { s with spawn := { s.spawn with
      qover := (allUnits s).filter (overQuota s)
      asserted := (allUnits s).filter (bpWanted { s with spawn := { s.spawn with
        qover := (allUnits s).filter (overQuota s) } }) } } := ⟨_, _, _, _, rfl⟩
  dsimp only
  split
  · exact h1.setFld.setFld.raise
  · exact h1.setFld.setFld

theorem spawnMoved_setQueue (s : State) (q : Nat) (l : List Desc) : SpawnMoved s (setQueue s q l) :=
  SpawnMoved.markHigh (SpawnMoved.setFld ⟨_, _, _, _, rfl⟩)

/-- What taking slots back leaves: the thread but for its slots, the other threads, and the memory. -/
structure SlotsMoved (t : Nat) (s u : State) : Prop where
  own : ∃ a b, th u t = { th s t with slot0 := a, slot1 := b }
  others : OthersKept s u t
  mem : u.mem = s.mem

theorem SlotsMoved.setSlot (h : SlotsMoved t s u) (v : Slot) : SlotsMoved t s (updTh u t (fun x => setSlot x k v)) := by
  obtain ⟨a, b, hx⟩ := h.own
  refine ⟨?_, fun j hj => (th_setTh_ne _ _ hj).trans (h.others j hj), h.mem⟩
  rw [th_updTh_same, hx]
  unfold Machine.setSlot
  split <;> exact ⟨_, _, rfl⟩

theorem SlotsMoved.spawn {v : State} (h : SlotsMoved t s u) (hv : SpawnMoved u v) : SlotsMoved t s v :=
  ⟨by rw [th_congr hv.threads]; exact h.own, fun j hj => (th_congr hv.threads j).trans (h.others j hj),
    hv.mem.trans h.mem⟩

theorem SlotsMoved.returnSlot (h : SlotsMoved t s u) : SlotsMoved t s (returnSlot t k u) := by
  unfold Machine.returnSlot
  split
  · exact h
  · split
    · exact ((h.setSlot _).spawn ⟨_, _, _, _, rfl⟩).spawn (spawnMoved_setQueue _ _ _)
    · exact h.setSlot _
    · exact h

theorem slotsMoved_returnSlots (t : Nat) (s : State) : SlotsMoved t s (returnSlots t s) :=
  have h : SlotsMoved t s s := ⟨⟨_, _, rfl⟩, fun _ _ => rfl, rfl⟩
  h.returnSlot.returnSlot.spawn (spawnMoved_bpUpdate _)

/-- A thread that HALT stopped has drained (R132). -/
theorem haltFinish_drained (hh : (th s t).pendHalt = true) (hk : (th s t).pendKill = false)
    (hr : inRepn (th s t) = false) (he : inEnding (th s t) = false)
    (hs : running (th s t) = true ∨ (th s t).state = .idle) : haltFinish t s = returnSlots t (setTh s t { th s t with
      state := .halted, prior := (th s t).state, pendHalt := false, wait := .none }) := by
  unfold haltFinish
  dsimp only
  rw [if_neg (by simp [hh, hk, hr, he]), if_neg (by rw [mayHalt hs]; decide)]

/-! ## Kills (R133) -/

/-- A thread whose kill is under way holds no packet, and rests. -/
structure Dying (x : Thread) : Prop where
  kill : x.pendKill = true
  pkt : x.pkt = none
  rest : Resting x

theorem Dying.touched {x y : Thread} (h : Dying x) (hy : Touched x y) : Dying y := by
  obtain ⟨_, _, _, _, rfl⟩ := hy
  exact ⟨h.kill, h.pkt, h.rest⟩

/-- The thread a kill stops: nothing of it runs on. -/
def stopped (x : Thread) : Thread :=
  { x with pendKill := true, pendHalt := false, rep := none, lyrRun := 0, wait := if isHanded x then x.wait else .none }

theorem resting_stopped (x : Thread) : Resting (stopped x) := by
  unfold Resting stopped isHanded
  dsimp only
  split
  · next key hw => exact .inr ⟨key, by simp [hw]⟩
  · exact .inl rfl

/-- A thread whose packet is handed to Bridge under a sequence. -/
def handedOff (x : Thread) (key : Nat) : Thread :=
  { (setSlot x x.cur .empty) with pkt := none, touched := [], pc := bitsN x.csr.entry.toNat 17 0, wait := .handed key }

theorem dying_handedOff {x : Thread} (h : x.pendKill = true) (key : Nat) : Dying (handedOff x key) := by
  refine ⟨?_, rfl, .inr ⟨key, rfl⟩⟩
  show (setSlot x x.cur .empty).pendKill = true
  unfold setSlot
  split <;> exact h

theorem handOff_drop {d : Desc} (hp : (th s t).pkt = some d) (dest edit : Word) : ∃ b key, ∃ free : Bool,
    let u := setTh { s with bridge := b } t (handedOff (th s t) key)
    handOff s t false dest edit = if free then afterEnding t u else u := by
  unfold handOff
  simp only [hp, Bool.false_eq_true, if_false]
  exact ⟨_, _, _, rfl⟩

/-- Nothing follows the ending of a killed thread's packet. -/
theorem afterEnding_of_kill (h : (th s t).pendKill = true) :
    afterEnding t s = setTh s t { th s t with wait := .none } := if_pos h

/-- A DROP of the packet a killed thread holds leaves no packet, and the thread at rest. -/
theorem dying_handOff {d : Desc} (hk : (th s t).pendKill = true) (hp : (th s t).pkt = some d) (dest edit : Word) :
    Dying (th (handOff s t false dest edit) t) := by
  obtain ⟨b, key, free, hu⟩ := handOff_drop hp dest edit
  have hd := dying_handedOff hk key
  rw [hu]
  cases free with
  | false => rwa [if_neg Bool.false_ne_true, th_setTh_same]
  | true =>
    rw [if_pos rfl, afterEnding_of_kill (by rw [th_setTh_same]; exact hd.kill), th_setTh_same, th_setTh_same]
    exact ⟨hd.kill, hd.pkt, .inl rfl⟩

/-- The state once a kill has taken the thread's packet, its slots and its operations, before its locks are freed. -/
def killTaken (t : Nat) (s : State) : State :=
  let s0 := setTh (squashed s t 7 4) t (stopped (th s t))
  let s1 := if (th s t).pkt.isSome then updTh (handOff s0 t false 0 0) t (fun y => { y with pc := (th s t).pc }) else s0
  let s2 := returnSlots t s1
  { s2 with ops := s2.ops.map (fun o => if o.thread = t then { o with dead := true } else o) }

/-- What a kill clears at last: tokens, wake, history, pending interrupts and TTIMER. -/
def cleared (x : Thread) : Thread :=
  { x with
    tok := [], wake := false, hist := []
    csr := { x.csr with tint := toW (x.csr.tint.toNat / 8 * 8), ttimer := 0 } }

theorem killBegin_eq (h : (th s t).pendKill = false) :
    killBegin t s = updTh (obxPump (threadHolderReset t (killTaken t s))) t cleared := by
  unfold killBegin
  dsimp only
  rw [if_neg (by simp [h])]
  rfl

theorem dying_killTaken (t : Nat) (s : State) : Dying (th (killTaken t s) t) := by
  have hslots : ∀ u : State, Dying (th u t) → Dying (th (returnSlots t u) t) := by
    intro u hu
    obtain ⟨a, b, hx⟩ := (slotsMoved_returnSlots t u).own
    rw [hx]
    exact ⟨hu.kill, hu.pkt, hu.rest⟩
  refine hslots _ ?_
  have hstop : th (setTh (squashed s t 7 4) t (stopped (th s t))) t = stopped (th s t) := th_setTh_same _ _ _
  cases hp : (th s t).pkt with
  | none =>
    rw [Option.isSome_none, if_neg Bool.false_ne_true, hstop]
    exact ⟨rfl, hp, resting_stopped _⟩
  | some d =>
    rw [Option.isSome_some, if_pos rfl, th_updTh_same]
    have hd := dying_handOff (s := setTh (squashed s t 7 4) t (stopped (th s t))) (t := t) (d := d)
      (by rw [hstop]; rfl) (by rw [hstop]; exact hp) 0 0
    exact ⟨hd.kill, hd.pkt, hd.rest⟩

theorem dead_killTaken (t : Nat) (s : State) : ∀ o ∈ (killTaken t s).ops, o.thread = t → o.dead = true := by
  intro o ho ht
  obtain ⟨p, -, rfl⟩ := List.mem_map.1 ho
  by_cases hp : p.thread = t
  · rw [if_pos hp]
  · rw [if_neg hp] at ht
    exact absurd ht hp

theorem getF_cleared (x : Thread) : getF (cleared x).csr.tint TS.sp = 0 := by
  have h : getF (cleared x).csr.tint TS.sp = (x.csr.tint.toNat / 8 * 8) % 2 ^ 48 % 2 := by
    rw [getF, TS.sp, bitsN_low, cleared]
    dsimp only
    rw [toW, BitVec.toNat_ofNat]
    rfl
  rw [h]
  omega

/-- What a kill leaves of its thread and the thread's operations. -/
theorem killBegin_effect (h : (th s t).pendKill = false) :
    ∃ x, th (killBegin t s) t = cleared x ∧ Dying x ∧ ∀ o ∈ (killBegin t s).ops, o.thread = t → o.dead = true := by
  have hrest : Rested t (killTaken t s) (obxPump (threadHolderReset t (killTaken t s))) :=
    .obxPump (.threadHolderReset (.refl _ _))
  have hd := dying_killTaken t s
  have hx := hd.touched (hrest.thread hd.rest)
  have hops := hrest.ops (dead_killTaken t s)
  rw [killBegin_eq h]
  generalize obxPump (threadHolderReset t (killTaken t s)) = v at hx hops
  exact ⟨th v t, th_updTh_same v t cleared, hx, hops⟩

theorem killFinish_done (hk : (th s t).pendKill = true) (hd : killDone s t = true) (hr : (th s t).restart = 0) :
    killFinish t s = setTh s t { th s t with state := .killed, pendKill := false, wait := .none } := by
  have hafter : ∀ u : State, (th u t).restart = 0 → afterKill t u = u := by
    intro u hu
    unfold afterKill
    rw [hu]
    rfl
  unfold killFinish
  rw [if_pos (by simp [hk, hd]), hafter _ (by rw [th_updTh_same]; exact hr)]
  rfl

/-! ## Thread resets (R134) -/

/-- The state once a thread's locks, its requests and its Lyre context are gone, before its own state is reset. -/
def beforeReset (t : Nat) (s : State) : State := lyrThreadReset t (obxPump (threadHolderReset t s))

/-- A thread as its reset leaves it: of the state before, the program in effect, and what only RESTART zeroes. -/
def resetTo (zero : Bool) (t : Nat) (s : State) : Thread :=
  { Thread.reset with
    pc := Tab.get 0 s.img.entry (t / 128)
    csr := { TCsr.reset with entry := BitVec.ofNat 48 (Tab.get 0 s.img.entry (t / 128)) }
    state := if cluHasProg s (t / 128) then .start else .reset
    discard := if zero then 0 else (th s t).discard, badcmd := if zero then 0 else (th s t).badcmd, gen := (th s t).gen }

theorem threadReset_eq (zero : Bool) (t : Nat) (s : State) :
    threadReset zero t s = setTh (beforeReset t s) t (resetTo zero t (beforeReset t s)) := rfl

theorem rested_beforeReset (t k : Nat) (s : State) : Rested t s (beforeReset k s) := .beforeReset (.refl _ _)

theorem imageKept_beforeReset (t : Nat) (s : State) : ImageKept s (beforeReset t s) :=
  .lyrThreadReset <| .obxPump <| .threadHolderReset (.refl s)

/-- Whether a program is in effect and nothing holds the cluster stays. -/
theorem cluHasProg_kept {c : Nat} (hc : c < 24) (hi : ImageKept s u) (hr : Rested t s u) :
    cluHasProg u c = cluHasProg s c := by
  obtain ⟨-, hreset, hresetting⟩ := hr.clu c
  unfold cluHasProg
  rw [hi.flag (strProg_lt hc), hi.hold c, hreset, hresetting]

theorem cluHasProg_setTh (s : State) (t c : Nat) (x : Thread) : cluHasProg (setTh s t x) c = cluHasProg s c := rfl

theorem cluHasProg_beforeReset {c : Nat} (hc : c < 24) (t : Nat) (s : State) :
    cluHasProg (beforeReset t s) c = cluHasProg s c :=
  cluHasProg_kept hc (imageKept_beforeReset t s) (rested_beforeReset t t s)

theorem cluHasProg_threadReset {c : Nat} (hc : c < 24) (zero : Bool) (t : Nat) (s : State) :
    cluHasProg (threadReset zero t s) c = cluHasProg s c := by
  rw [threadReset_eq, cluHasProg_setTh, cluHasProg_beforeReset hc]

/-- RESTART of a KILLED thread in a cluster in RUN. -/
theorem cmdRestart_killed (hs : (th s t).state = .killed) (hrun : (clu s (t / 128)).power = .run) :
    cmdRestart t s = threadReset true t s := by
  have hpower : (clu (threadReset true t s) (t / 128)).power = .run := by
    rw [threadReset_eq, clu_congr (setTh_clusters _ _ _), ((rested_beforeReset t t s).clu (t / 128)).1, hrun]
  unfold cmdRestart
  dsimp only
  rw [hs]
  exact if_pos hpower

/-! ## Core resets (R134) -/

/-- A thread as reset: no register holds anything, and it is at START with a program in effect, else in RESET. -/
def Reborn (t : Nat) (s : State) : Prop :=
  (th s t).state = (if cluHasProg s (t / 128) then .start else .reset) ∧ (th s t).g = [] ∧ Resting (th s t)

theorem reborn_threadReset (ht : t < 3072) (zero : Bool) (s : State) : Reborn t (threadReset zero t s) := by
  have hx : th (threadReset zero t s) t = resetTo zero t (beforeReset t s) := by rw [threadReset_eq, th_setTh_same]
  unfold Reborn
  rw [hx, cluHasProg_threadReset (by omega), ← cluHasProg_beforeReset (by omega) t s]
  exact ⟨rfl, rfl, .inl rfl⟩

/-- The reset of another thread leaves it so. -/
theorem Reborn.threadReset (h : Reborn t s) (ht : t < 3072) (zero : Bool) (k : Nat) :
    Reborn t (threadReset zero k s) := by
  by_cases hk : k = t
  · subst hk
    exact reborn_threadReset ht zero s
  · obtain ⟨hstate, hg, hrest⟩ := h
    have htouch : Touched (th s t) (th (Machine.threadReset zero k s) t) :=
      (Rested.threadReset (.refl t s) fun _ => hk).thread hrest
    unfold Reborn
    rw [cluHasProg_threadReset (by omega)]
    have hrest' := htouch.resting hrest
    obtain ⟨_, _, _, _, hx⟩ := htouch
    rw [hx] at hrest' ⊢
    exact ⟨hstate, hg, hrest'⟩

/-- A group of threads that are killed already: each is marked for the reset asked for, and no more. -/
theorem killGroup_killed (i : Nat) {l : List Nat} (hl : ∀ t ∈ l, (th s t).state = .killed ∧ (th s t).pendKill = false) :
    (∀ t ∈ l, (th (killGroup i l s) t).state = .killed ∧ (th (killGroup i l s) t).pendKill = false) ∧
      ∀ c, cluHasProg (killGroup i l s) c = cluHasProg s c := by
  refine forEach_keeps (fun u => (∀ t ∈ l, (th u t).state = .killed ∧ (th u t).pendKill = false) ∧
    ∀ c, cluHasProg u c = cluHasProg s c) l _ s (fun k hk u hu => ?_) ⟨hl, fun _ => rfl⟩
  obtain ⟨hkilled, hprog⟩ := hu
  dsimp only
  rw [if_pos (.inl (hkilled k hk).1)]
  refine ⟨fun t ht => ?_, hprog⟩
  by_cases h : t = k
  · subst h
    rw [th_setTh_same]
    exact hkilled t ht
  · rw [th_setTh_ne _ _ h]
    exact hkilled t ht

/-- A core whose threads are killed resets each of them. -/
theorem reborn_coreGroupReset {l : List Nat} (hl : ∀ t ∈ l, (th s t).state = .killed ∧ (th s t).pendKill = false)
    (hlt : ∀ t ∈ l, t < 3072) : (∀ t ∈ l, Reborn t (coreGroupReset l s)) ∧
      ∀ c, c < 24 → cluHasProg (coreGroupReset l s) c = cluHasProg s c := by
  obtain ⟨hkilled, hprog⟩ := killGroup_killed 2 hl
  have hreset : coreGroupReset l s = forEach l (threadReset false) (killGroup 2 l s) :=
    if_pos (List.all_eq_true.2 fun t ht => by simp [(hkilled t ht).2])
  rw [hreset]
  refine ⟨forEach_establishes Reborn l _ _ (fun t ht u => reborn_threadReset (hlt t ht) false u)
    fun t ht k _ u hu => hu.threadReset (hlt t ht) false k, fun c hc => ?_⟩
  rw [← hprog c]
  exact forEach_const (fun u => cluHasProg u c) l _ _ fun k _ u => cluHasProg_threadReset hc false k u

theorem setBits_two_pow (hk : k < 16) : setBits 16 (2 ^ k) = [k] := by
  revert hk
  revert k
  decide

theorem forEach_singleton {α : Type} (a : α) (f : α → State → State) (s : State) : forEach [a] f s = f a s := rfl

/-- A write of CLU_CORE_RST that names the core of one thread. -/
theorem coreReset_of_thread (t : Nat) (s : State) :
    coreReset (t / 128) (BitVec.ofNat 48 (2 ^ (t / 8 % 16))) s = coreGroupReset (coreThreads (t / 8)) s := by
  have hk : t / 8 % 16 < 16 := Nat.mod_lt _ (by decide)
  have hcore : t / 128 * 16 + t / 8 % 16 = t / 8 := by omega
  have hbit : (BitVec.ofNat 48 (2 ^ (t / 8 % 16))).toNat = 2 ^ (t / 8 % 16) := by
    rw [BitVec.toNat_ofNat]
    exact Nat.mod_eq_of_lt (Nat.pow_lt_pow_right (by decide) (by omega))
  rw [coreReset, hbit, setBits_two_pow hk, forEach_singleton, hcore]

theorem mem_coreThreads {n : Nat} : t ∈ coreThreads n ↔ ∃ i, i < 8 ∧ n * 8 + i = t := by simp [coreThreads]

end
end Sys2Proof.Machine

open Sys2Proof Sys2Proof.Machine in
/-- Settles O20: each command by the state that allows it; a kill leaves the thread dying (`killBegin_effect`), a restart and
a core reset leave it reborn, the requests that fail meanwhile touching it at most (`Rested`). -/
theorem threadControl : Obligations.ThreadControl := by
  unfold Obligations.ThreadControl
  dsimp only
  refine ⟨fun s t ht => ⟨fun pc priv hpc hpriv => ⟨fun hs hk hh h6 hlt hp hrun => ?_, fun h => ?_⟩, fun h => ?_,
    fun h => ?_, fun h => ?_, fun h hi => ?_, fun hs hk hp => ?_, fun h => ?_, fun h hw => ?_, fun hk hh hd => ?_,
    fun hh hk hr he hs => ?_⟩, fun s t ht => ⟨fun hk hr hp => ?_, fun hk hd hr => ?_, fun hs hprog hrun => ?_,
    fun k hl hprog hk => ?_⟩⟩
  · rw [exec_service ht hpc hpriv, cmdService_allowed hs hk hh h6 hlt hp hrun]
  · rw [exec_service ht hpc hpriv, cmdService_refused h, badCmd_eq]
  · refine ⟨_, (exec_softint ht).trans (congrArg _ (cmdSoftint_live h)), getF_putF _ _ _ (by decide), rfl, rfl⟩
  · obtain ⟨hsoft, hkill, hwake⟩ := not_live_ignored h
    rw [exec_softint ht, exec_kill ht, exec_wake ht, hsoft, hkill, hwake, badCmd_eq]
    exact ⟨rfl, rfl, rfl⟩
  · exact ⟨_, (exec_halt ht).trans (congrArg _ (cmdHalt_allowed h)), rfl, rfl, rfl, rfl, rfl⟩
  · rw [exec_halt ht, cmdHalt_refused h hi, badCmd_eq]
  · rw [exec_resume ht, cmdResume_allowed hs hk hp]
  · rw [exec_resume ht, cmdResume_refused h, badCmd_eq]
  · rw [exec_wake ht, cmdWake_latches h hw]
  · rw [exec_restart ht, cmdRestart_refused hk hh hd, badCmd_eq]
  · rw [exec_threadHalted ht, haltFinish_drained hh hk hr he hs]
    have hslots := slotsMoved_returnSlots t (setTh s t { th s t with
      state := .halted, prior := (th s t).state, pendHalt := false, wait := .none })
    obtain ⟨a, b, hx⟩ := hslots.own
    rw [th_setTh_same] at hx
    refine ⟨_, rfl, ?_, ?_, ?_, ?_, ?_, fun j hj => (hslots.others j hj).trans (th_setTh_ne _ _ hj), hslots.mem⟩
    all_goals rw [hx]
  · obtain ⟨x, hx, hdying, hdead⟩ := killBegin_effect hp
    rw [exec_kill ht, cmdKill_live ⟨hk, hr⟩]
    refine ⟨_, rfl, ?_, ?_, ?_, ?_, ?_, ?_, ?_, hdead⟩
    all_goals rw [hx]
    · exact hdying.kill
    · rfl
    · rfl
    · rfl
    · exact hdying.pkt
    · rfl
    · exact getF_cleared x
  · rw [exec_killComplete ht, killFinish_done hk hd hr]
  · rw [exec_restart ht, cmdRestart_killed hs hrun, threadReset_eq]
    refine ⟨_, rfl, ?_⟩
    rw [th_setTh_same, resetTo, cluHasProg_beforeReset (by omega), (rested_beforeReset t t s).entry]
    exact ⟨if_pos hprog, rfl, rfl, rfl, rfl, rfl, rfl, rfl⟩
  · have hmem : ∀ j ∈ coreThreads (t / 8), ∃ i, i < 8 ∧ t / 8 * 8 + i = j := fun j => mem_coreThreads.1
    obtain ⟨hreborn, hkept⟩ := reborn_coreGroupReset (s := s) (l := coreThreads (t / 8))
      (fun j hj => by
        obtain ⟨i, hi, rfl⟩ := hmem j hj
        exact hl i hi)
      (fun j hj => by
        obtain ⟨i, hi, rfl⟩ := hmem j hj
        omega)
    obtain ⟨hstate, hg, -⟩ := hreborn t (mem_coreThreads.2 ⟨t % 8, by omega, by omega⟩)
    rw [exec_coreReset (by omega), hk, coreReset_of_thread]
    refine ⟨_, rfl, ?_, hg⟩
    rw [hstate, hkept _ (by omega), if_pos hprog]
end
